-- ==== Sys2Proof/Word.lean ====
section
/-! DEFINITION. The bit-vector types of the 3160: bytes, words, byte lanes (spec/00, "Addresses and words"). -/

namespace Sys2Proof

/-- A byte of memory or one data character of a link. -/
abbrev Byte := BitVec 8

/-- A 16-bit character code of a string or a matrix name. -/
abbrev Code := BitVec 16

/-- A word: 32 bits, four bytes, little-endian. -/
abbrev Word := BitVec 32

end Sys2Proof
end

