-- ==== Sys2Proof/Syntax.lean ====
section
/-! DEFINITION. The commands of the 3160: one constructor for each row of spec/opcode_table.json. The table gives
the rows no operands; an operand here is the part of the event that State does not hold (an upstream burst, a link,
a fetch channel, the characters heard in an IN slot). -/

namespace Sys2Proof

/-- One word of an upstream write burst with its four byte lanes: lane n enables byte n (spec/00, "Byte lanes"). -/
structure Beat where
  word : Word
  lanes : BitVec 4
  deriving DecidableEq, Repr

/-- One character on a link: eight data bits, the mark bit and the stop bit (R130, R179). -/
structure LinkChar where
  data : Byte
  mark : Bool
  stop : Bool
  deriving DecidableEq, Repr

/-- One constructor for each row of the opcode table. `heard` is every character heard in the IN slot, in order, up
to the end of the slot. -/
inductive Instr where
  | powerOnReset
  | usTick
  | msTick
  | upstreamWrite (addr : BitVec 26) (beats : List Beat)
  | upstreamRead (addr : BitVec 26) (count : Nat)
  | hostWriteComplete
  | hostReadComplete
  | holdoffEnd
  | holdoffExpiry
  | intakeDrain
  | carCommit
  | assignCommit
  | rosterCommit
  | labelCommit
  | playoutCommit
  | relocationCommit
  | descriptorCommit
  | settingsCommit
  | groupCommit
  | linkSetupCommit
  | overrideSlotCommit
  | languageCommit
  | ringSetupCommit
  | restart
  | sweep
  | loadGlyphs
  | badOpcode
  | fetchChannelTake (channel : Fin 4)
  | sweepReadIssue (channel : Fin 4)
  | sweepReadComplete
  | sweepCompletion
  | textFillTransferComplete (channel : Fin 4)
  | glyphTransferComplete (channel : Fin 4)
  | outSlot (link : Fin 8)
  | frameComplete (link : Fin 8)
  | abortBlockSent (link : Fin 8)
  | statusAnswer (link : Fin 8) (heard : List LinkChar)
  | entryAnswer (link : Fin 8) (heard : List LinkChar)
  | inSlotMiss (link : Fin 8) (heard : List LinkChar)
  | entryWaitExpiry
  | promptHoldExpiry
  | lanternExpiry
  | gongExpiry
  | dwellExpiry
  | overrideDwellExpiry
  | reportWriteIssue
  | reportWriteComplete
  | statusMirrorWrite
  | resetNFall
  | slotPositionAdvance (link : Fin 8)
  | fetchReadComplete
  | statusMirrorWriteComplete
  deriving DecidableEq, Repr

end Sys2Proof
end

