-- ==== Sys2Proof/Config.lean ====
section
/-! DEFINITION. What the part fixes (the table "Principal capacities" of spec/00) and its one free value. -/

namespace Sys2Proof

namespace Config

/-- 64 MiB of address space, 26-bit byte addresses. -/
def addressSpace : Nat := 0x4000000

/-- Places of the intake queue (R156). -/
def intakePlaces : Nat := 32

/-- Free intake places a sweep read needs (R123, R156). -/
def sweepRoom : Nat := 16

/-- Entries of the entry table (R42). -/
def entryPlaces : Nat := 64

/-- Prompts of one terminal's queue (R56). -/
def promptPlaces : Nat := 4

/-- Stops of one car's stop list (R65). -/
def stopPlaces : Nat := 16

/-- Places of the timer list (R145). -/
def timerPlaces : Nat := 128

/-- Reports of the pending queue (R172, R175). -/
def reportPlaces : Nat := 8

/-- PRESENT terminals (R125). -/
def terminalPlaces : Nat := 32

/-- TEXT and GLYPH partitions of the fetch request list (R121). -/
def textPlaces : Nat := 8
def glyphPlaces : Nat := 4

/-- Pass-over limit of the downstream arbiter (R161). -/
def passOverLimit : Nat := 8

/-- The dwell of an override message, in ms (R88). -/
def overrideDwell : Nat := 5000

/-- Offset of the status mirror in the control block (R176). -/
def mirrorOffset : Nat := 0x800

/-- What an unlisted byte of host memory reads as. DESIGN CHOICE, unsafe: log entry 4. -/
def unwrittenByte : Byte := 0

/-- FREE VALUE, safe: byte 7 (1 LIT, 0 DARK) of a FACE_SEGMENT frame of a HALL_SEGMENT display under BASE that is a
display of no lantern, for the n-th frame built. The spec states no value there: log entry 19. -/
opaque litWhenOff : Nat → Bool

end Config

end Sys2Proof
end

