-- ==== Sys2Proof/Machine/State.lean ====
section
/-! DEFINITION. The state of the 3160 as plain data, block by block (spec/00, "Block overview"), and its value right
after power-on reset. -/

namespace Sys2Proof.Machine

/-! ## Records and tables -/

/-- A record of four words (spec/00, "Addresses and words"). -/
structure Rec4 where
  w0 : Word
  w1 : Word
  w2 : Word
  w3 : Word
  deriving DecidableEq, Repr

/-- The all-zero record of four words. -/
def Rec4.zero : Rec4 := ⟨0, 0, 0, 0⟩

/-- A record of eight words. -/
structure Rec8 where
  w0 : Word
  w1 : Word
  w2 : Word
  w3 : Word
  w4 : Word
  w5 : Word
  w6 : Word
  w7 : Word
  deriving DecidableEq, Repr

/-- The all-zero record of eight words. -/
def Rec8.zero : Rec8 := ⟨0, 0, 0, 0, 0, 0, 0, 0⟩

/-- A sparse table: pairs of key and value, keys strictly rising. -/
abbrev Tab (α : Type) := List (Nat × α)

/-! ## Named values (chapter 12) -/

/-- Service modes of a car record (1.3). -/
inductive ServiceMode where
  | normal | independent | parked | outOfService | fireRecall | fireOperation
  deriving DecidableEq, Repr

/-- Load of a car record. -/
inductive LoadState where
  | normal | full | overload
  deriving DecidableEq, Repr

/-- A direction or its absence: next direction, motion (none is STOPPED), arrows, and the lantern (none is OFF). -/
inductive Arrow where
  | none | up | down
  deriving DecidableEq, Repr

/-- Door of a car record. -/
inductive Door where
  | closed | opening | open | closing
  deriving DecidableEq, Repr

/-- Classes of a display (8.1). -/
inductive DisplayClass where
  | hallSegment | carSegment | carMatrix | hallMatrix | terminal
  deriving DecidableEq, Repr

/-- Kinds of a keyed entry (3.1). -/
inductive EntryKind where
  | standard | accessible
  deriving DecidableEq, Repr

/-- Walk hints of an assignment (3.5). -/
inductive WalkHint where
  | none | left | right | ahead
  deriving DecidableEq, Repr

/-- Kinds of a prompt (4.1). -/
inductive PromptKind where
  | waiting | assigned | invalid | expired | refused
  deriving DecidableEq, Repr

/-- Window states (11.3). -/
inductive WinState where
  | disabled | current | stale
  deriving DecidableEq, Repr

/-- Kinds of a place of the timer list (9.3). -/
inductive PlaceKind where
  | entryWait | promptHold | lantern | gong | dwell | overrideDwell
  deriving DecidableEq, Repr

/-- Reason codes (12.6). -/
inductive Reason where
  | none | badValue | badSpans | noGroup | badLanding | badWindow | duplicateDrop | tooManyTerminals | badBinding
  | badSlots | badOpcode | badArea | badCount | badPitch | badSource | busy | disabled | late | mismatch | badCar
  | carUnavailable | override | tableFull | timers | notTerminal | roster
  deriving DecidableEq, Repr

/-! ## Record places, reports -/

/-- A record position: a slot of a window, or a record of the control block (10.3). -/
inductive RecordPlace where
  | window (kind : Fin 5) (slot : Nat)
  | relocation
  | command
  | settings
  | descriptor (kind : Fin 5)
  | group (g : Fin 8)
  | linkSetup (n : Fin 8)
  | overrideSlot (k : Fin 4)
  | language (n : Fin 16)
  | ringSetup
  deriving DecidableEq, Repr

/-- What a report tells (12.6): one constructor per report kind, with its subject and detail. -/
inductive Event where
  | entry (ticket terminal origin dest : Nat) (kind : EntryKind)
  | entryExpired (ticket terminal dest : Nat)
  | entryCancelled (ticket terminal : Nat) (reason : Reason)
  | entryRefused (terminal : Nat) (reason : Reason) (dest : Nat) (kind : EntryKind)
  | assignRefused (ticket : Nat) (reason : Reason) (car : Nat) (decline : Bool)
  | assignLoss (addr lost : Nat)
  | stopsDropped (car stops riders : Nat)
  | stopListFull (car floor ticket : Nat)
  | recordRefused (place : RecordPlace) (reason : Reason)
  | sweepDone (kind : Fin 5) (count : Nat)
  | commandDone (opcode : Word)
  | commandRefused (opcode : Word) (reason : Reason)
  | displayLost (display link drop : Nat)
  | displayBack (display link drop : Nat)
  | displayFault (display old new : Nat)
  | playoutDone (ctx : Fin 16) (rep : Nat)
  | timerRefused (subject : Nat) (kind : PlaceKind) (item ticket : Nat)
  | glyphsReady (area : Fin 8) (count : Nat)
  | overrun (tally : Nat)
  deriving DecidableEq, Repr

/-- A report with the ms time at which it was made (R173). -/
structure Report where
  event : Event
  time : BitVec 32
  deriving DecidableEq, Repr

/-! ## Memory Path Unit (chapter 10) -/

/-- The target decoded for a captured word (R155): a word of a window slot with the base and count it was decoded by,
or an offset from the control block base then in force. -/
inductive Target where
  | window (kind : Fin 5) (slot word : Nat) (base count : Word)
  | control (offset : Nat)
  deriving DecidableEq, Repr

/-- An intake item (R155). -/
structure Item where
  word : Word
  addr : Nat
  lanes : BitVec 4
  target : Target
  deriving DecidableEq, Repr

/-- What becomes of the words of an issued sweep read: taken as the sweep's, taken although the request was withdrawn
(R123), or discarded because restart abandoned it (R121, R161). -/
inductive ReadStatus where
  | live | withdrawn | abandoned
  deriving DecidableEq, Repr

/-- A sweep read issued and not yet complete, with the descriptor in force when it was issued (R123). -/
structure SweepRead where
  kind : Fin 5
  addr : Nat
  count : Nat
  base : Word
  records : Word
  status : ReadStatus
  deriving DecidableEq, Repr

/-- An access of the downstream arbiter (R153, R161). The items of a captured host write are promised places. -/
inductive Access where
  | hostWrite (addr : Nat) (beats : List Beat) (items : List Item)
  | hostRead (addr count : Nat)
  | reportWrite (addr : Nat) (words : List Word) (void : Bool)
  | mirrorWrite (addr : Nat) (words : List Word)
  | sweepRead (r : SweepRead)
  | fetchRead (channel : Fin 4) (addr count : Nat) (discard : Bool)
  deriving DecidableEq, Repr

/-- The timer of a timed holdoff: the limit read at its start and the µs ticks counted since (R157). -/
structure HoldTimer where
  limit : Nat
  ticks : Nat
  deriving DecidableEq, Repr

/-- A held burst with the items decoded when it was taken; `timer` is none for an untimed holdoff (R157). -/
structure Held where
  addr : Nat
  beats : List Beat
  items : List Item
  timer : Option HoldTimer
  deriving DecidableEq, Repr

/-- The Memory Path Unit (R163). -/
structure MemPath where
  windows : Vector Rec4 5
  reloc : Rec4
  held : Option Held
  waiting : Option Access
  port : Option Access
  passOver : Nat
  upData : Option (List Word)
  deriving DecidableEq, Repr

/-! ## Record Assembler (chapter 11) -/

/-- The completion of a sweep, not yet taken: its window, the record count swept, and the intake items still to be
drained before it is taken (R123, R167). -/
structure SweepEnd where
  kind : Fin 5
  records : Nat
  ahead : Nat
  deriving DecidableEq, Repr

/-- The Record Assembler (R177). Staging images are kept by slot and word, and by control block offset. -/
structure Assembler where
  intake : List Item
  winStage : Vector (Tab Word) 5
  cbStage : Tab Word
  handed : Option RecordPlace
  winState : Vector WinState 5
  settings : Rec8
  sweepEnds : List SweepEnd
  deriving DecidableEq, Repr

/-! ## Indication Engine (chapters 1 and 2) -/

/-- An entry of the car table (R6): the last accepted record, the previous door, and the derived deck floors. -/
structure Car where
  accepted : Option Rec4
  prevDoor : Option Door
  lower : Option Nat
  upper : Option Nat
  deriving DecidableEq, Repr

/-- An arrival signal record (R22): `lantern` none is OFF, `two` is deck span TWO; places are held claims. -/
structure Signal where
  lantern : Arrow
  lit : Bool
  landing : Option Nat
  two : Bool
  group : Option (Fin 8)
  lanternPlace : Option Nat
  gongPlace : Option Nat
  deriving DecidableEq, Repr

/-- The Indication Engine (R21, R32). -/
structure Indication where
  groups : Vector Rec8 8
  cars : Vector Car 48
  labels : Tab Rec4
  signals : Vector Signal 48
  deriving DecidableEq, Repr

/-! ## Destination Engine (chapters 3 and 4) -/

/-- An entry of the entry table, always WAITING (R41). -/
structure Entry where
  ticket : Nat
  terminal : Nat
  origin : Nat
  dest : Nat
  kind : EntryKind
  place : Nat
  deriving DecidableEq, Repr

/-- A prompt (R55). -/
structure Prompt where
  kind : PromptKind
  ticket : Option Nat
  dest : Nat
  entryKind : EntryKind
  car : Option Nat
  carName : Option (Byte × Byte)
  walk : WalkHint
  hold : Option Nat
  deriving DecidableEq, Repr

/-- A stop: a building floor and its rider count (R65). -/
structure Stop where
  floor : Nat
  riders : Nat
  deriving DecidableEq, Repr

/-- The Destination Engine (R54, R64, R71). Prompt queues are kept by display index, head first. -/
structure Destination where
  entries : List Entry
  ticket : Nat
  prompts : Tab (List Prompt)
  stops : Vector (List Stop) 48
  deriving DecidableEq, Repr

/-! ## Face Table (chapter 5) -/

/-- A matrix name: four 16-bit codes, leftmost first (1.5). -/
structure MatrixName where
  c0 : Code
  c1 : Code
  c2 : Code
  c3 : Code
  deriving DecidableEq, Repr

/-- The lantern state shown by a hall segment display (R18): OFF with the lit value of a lantern of its own (R22), or
with none where it is a display of no lantern (log entry 19). -/
inductive LanternShow where
  | off (lit : Option Bool)
  | up (lit : Bool)
  | down (lit : Bool)
  deriving DecidableEq, Repr

/-- BASE content of a CAR_MATRIX display (R19); `mode` and `load` are the codes of chapter 12. -/
structure CarMatrix where
  name : Byte × Byte
  position : Option MatrixName
  arrow : Arrow
  stops : List (Option MatrixName)
  target : Option Nat
  mode : Byte
  load : Byte
  deriving DecidableEq, Repr

/-- One listed car of a HALL_MATRIX display (R20). -/
structure HallEntry where
  name : Byte × Byte
  position : Option MatrixName
  arrow : Arrow
  unavailable : Bool
  full : Bool
  here : Bool
  deriving DecidableEq, Repr

/-- BASE content by class (R18 to R20). A segment label is its four codes, 0 when blank. -/
inductive BaseContent where
  | hallSegment (label : Word) (arrow : Arrow) (lantern : LanternShow)
  | carSegment (label : Word) (arrow : Arrow)
  | carMatrix (shown : Option CarMatrix)
  | hallMatrix (cars : List HallEntry)
  | terminal (idle : Nat)
  deriving DecidableEq, Repr

/-- One prompt as the PROMPT layer shows it (R63). -/
structure PromptShow where
  kind : PromptKind
  dest : Nat
  name : Option MatrixName
  entryKind : EntryKind
  carName : Option (Byte × Byte)
  walk : WalkHint
  deriving DecidableEq, Repr

/-- A NOTICE layer (R96): owner, message reference, current language, and the languages it waits for when the current
language is NONE. -/
structure NoticeShow where
  owner : Fin 16
  msg : Nat
  lang : Option (Fin 16)
  waits : List (Fin 16)
  deriving DecidableEq, Repr

/-- The content of an OVERRIDE layer, by class (R87). -/
inductive OverShow where
  | segment (codes : Word) (arrow : Arrow)
  | matrix (arrow : Arrow) (msg : Nat) (lang : Option (Fin 16))
  deriving DecidableEq, Repr

/-- The tag of a text line (7.2). -/
structure Tag where
  msg : Nat
  lang : Fin 16
  deriving DecidableEq, Repr

/-- The layers of a face, in ascending order of precedence (5.2). -/
inductive Layer where
  | base | prompt | notice | override
  deriving DecidableEq, Repr

/-- The visible content of a face (R74): its visible layer with that layer's content. Strokes belong to BASE. -/
inductive Visible where
  | base (content : BaseContent) (strokes : Nat)
  | prompt (content : List PromptShow)
  | notice (content : NoticeShow)
  | over (content : OverShow)
  deriving DecidableEq, Repr

/-- A face (5.1). `prompt` empty and `notice` none are absent layers. -/
structure Face where
  cls : DisplayClass
  bindA : Nat
  bindB : Nat
  link : Fin 8
  drop : Nat
  floor : Option Nat
  scope : BitVec 8
  base : BaseContent
  prompt : List PromptShow
  notice : Option NoticeShow
  cover : Option (Fin 4)
  strokes : Nat
  waitText : Option Tag
  waitGlyphs : List (Fin 16)
  deriving DecidableEq, Repr

/-- An override slot (R80). -/
structure OverrideSlot where
  record : Rec4
  lang : Option (Fin 16)
  place : Option Nat
  deriving DecidableEq, Repr

/-- The Face Table (R90). -/
structure FaceTable where
  faces : Tab Face
  slots : Vector OverrideSlot 4
  deriving DecidableEq, Repr

/-! ## Playout Engine (chapter 6) -/

/-- States of a playout context (6.2). -/
inductive CtxState where
  | idle | playing | suspended | done
  deriving DecidableEq, Repr

/-- A playout context (R91). The target set is kept in ascending display index. -/
structure Context where
  state : CtxState
  accepted : Option Rec4
  index : Nat
  lang : Option (Fin 16)
  remaining : Nat
  place : Option Nat
  saved : Nat
  targets : List Nat
  deriving DecidableEq, Repr

/-! ## Fetch Unit (chapter 7) -/

/-- States of a text line (7.2). -/
inductive LineState where
  | empty | filling | valid | fillingStale
  deriving DecidableEq, Repr

/-- A text line (7.2). `watch` is the string part of the watched range, first byte and length; the header and pointer
words of the tag are watched while the line is not EMPTY (R111, R112). -/
structure Line where
  state : LineState
  tag : Tag
  codes : List Code
  watch : Option (Nat × Nat)
  deriving DecidableEq, Repr

/-- States of a glyph area (7.3). -/
inductive AreaState where
  | empty | loading | ready
  deriving DecidableEq, Repr

/-- Roles of a glyph area (7.3). -/
inductive AreaRole where
  | single | lower | upper
  deriving DecidableEq, Repr

/-- A glyph area (7.3): glyphs of 32 bytes by number. -/
structure Area where
  state : AreaState
  role : AreaRole
  count : Nat
  glyphs : Tab (List Byte)
  deriving DecidableEq, Repr

/-- A fetch request (7.5); the list keeps them in order of age, the oldest first. -/
inductive Request where
  | sweep (kind : Fin 5) (rerun : Bool)
  | text (tag : Tag)
  | glyph (area : Fin 8) (src pitch count progress : Nat)
  deriving DecidableEq, Repr

/-- The three transfers of a text fill (R112). -/
inductive TextStage where
  | message | length | code
  deriving DecidableEq, Repr

/-- The transfer a channel is at (R118, R122, R123, R112). A text fill: its line, its transfer, the next address, the
words left, the words read, the string's address and taken length, the codes read. A glyph load: the glyph its transfer
ends before, and the words read of the glyph at the request's progress. -/
inductive Job where
  | sweep (kind : Fin 5) (next stop : Nat) (base records : Word)
  | text (tag : Tag) (line : Fin 32) (stage : TextStage) (next left : Nat) (got : List Word) (str len : Nat)
      (codes : List Code)
  | glyph (area : Fin 8) (stop : Nat) (got : List Word)
  deriving DecidableEq, Repr

/-- The Fetch Unit (R124). -/
structure FetchUnit where
  lines : Vector Line 32
  recency : List (Fin 32)
  areas : Vector Area 8
  langs : Vector Rec4 16
  requests : List Request
  channels : Vector (Option Job) 4
  sweepReads : List SweepRead
  deriving DecidableEq, Repr

/-! ## Link Controller (chapter 8) -/

/-- Liveness of a display (R140, R141). -/
inductive Liveness where
  | unpolled | online | offline
  deriving DecidableEq, Repr

/-- What the Link Controller holds for a PRESENT display (R126); toggle none is NONE. -/
structure Display where
  liveness : Liveness
  misses : Nat
  fault : Nat
  toggle : Option Bool
  deriving DecidableEq, Repr

/-- Frame kinds (R131, R133). -/
inductive FrameKind where
  | empty | segment | matrix
  deriving DecidableEq, Repr

/-- The block of the frame that is on the wire and whose sending ends the frame: none such, the LAST block, or the
abort block (R135, R136). -/
inductive Closing where
  | none | last | abort
  deriving DecidableEq, Repr

/-- A frame in flight (R133 to R137). -/
structure Frame where
  display : Nat
  kind : FrameKind
  bytes : List Byte
  next : Nat
  strokes : Nat
  abortDue : Bool
  refresh : Bool
  closing : Closing
  deriving DecidableEq, Repr

/-- An OUT block as built (R131). -/
structure Block where
  addr : Nat
  kind : FrameKind
  index : Nat
  last : Bool
  abort : Bool
  echo : Option Bool
  poll : Option Nat
  payload : List Byte
  deriving DecidableEq, Repr

/-- A display link (R128, R142). `queue` is head first; `turn` is the last designated drop; `pending` the pending
designation; `served` says that the present slot has had its block, or its answer or miss. -/
structure Link where
  setup : Rec4
  running : Bool
  slot : Nat
  queue : List Nat
  frame : Option Frame
  turn : Option Nat
  pending : Option Nat
  served : Bool
  block : Option Block
  deriving DecidableEq, Repr

/-- The Link Controller (R142). `frames` counts the frames built: the model's own, the argument of its free value (log
entry 19). -/
structure LinkCtl where
  roster : Tab Rec4
  displays : Tab Display
  links : Vector Link 8
  frames : Nat
  deriving DecidableEq, Repr

/-! ## Timer Unit (chapter 9) -/

/-- The owner of a place (9.3). -/
inductive Owner where
  | ticket (n : Nat)
  | prompt (terminal : Nat)
  | car (c : Fin 48)
  | context (c : Fin 16)
  | slot (k : Fin 4)
  deriving DecidableEq, Repr

/-- A place of the timer list (9.3); `id` is the claim that made it (R145). -/
structure TimerPlace where
  id : Nat
  kind : PlaceKind
  owner : Owner
  expiry : BitVec 32
  interval : Nat
  count : Nat
  deriving DecidableEq, Repr

/-- The timer list, head first, and the number the next accepted claim gets. -/
structure Timers where
  list : List TimerPlace
  nextId : Nat
  deriving DecidableEq, Repr

/-- The timebase (R143); the divider is the settings record's. -/
structure Clock where
  refCount : Nat
  usCount : Nat
  ms : BitVec 32
  deriving DecidableEq, Repr

/-! ## Report Writer (chapter 11) -/

/-- The pending report queue, head first, and the overrun tally (R172, R175). -/
structure Outbox where
  queue : List Report
  tally : Nat
  deriving DecidableEq, Repr

/-- The report ring and the status mirror (R172, R176). -/
structure Ring where
  setup : Rec4
  writePos : Option Nat
  unconsumed : Nat
  oldest : Option Nat
  waiting : List Access
  mirrorLast : Option (List Word)
  mirrorAt : Option (BitVec 32)
  mirrorMoved : Bool
  deriving DecidableEq, Repr

/-! ## The whole part -/

/-- The state that an event at the displays, the cars, the terminals or the timer list reaches: the engines, the Face
Table, the Link Controller, the timer list and the pending report queue. -/
structure Engines where
  ind : Indication
  dest : Destination
  face : FaceTable
  play : Vector Context 16
  link : LinkCtl
  timers : Timers
  out : Outbox
  deriving DecidableEq, Repr

/-- The machine: the queue of waiting commands, the reset pin, host memory, and the part. -/
structure State where
  pending : List Instr
  resetLow : Bool
  mem : List Host.Cell
  path : MemPath
  asm : Assembler
  fetch : FetchUnit
  clock : Clock
  ring : Ring
  eng : Engines
  deriving DecidableEq, Repr

/-! ## Power-on values -/

/-- R154, R162, R163. -/
def MemPath.reset : MemPath :=
  { windows := Vector.replicate 5 Rec4.zero, reloc := ⟨0, 0, 0, 0x03FFF000⟩, held := none, waiting := none,
    port := none, passOver := 0, upData := none }

/-- The power-on settings record (R168). -/
def settingsReset : Rec8 := ⟨25, 64, 100, 20, 8, 4, 0, 400⟩

/-- R164, R166, R168, R177. -/
def Assembler.reset : Assembler :=
  { intake := [], winStage := Vector.replicate 5 [], cbStage := [], handed := none,
    winState := Vector.replicate 5 .disabled, settings := settingsReset, sweepEnds := [] }

/-- R6. -/
def Car.reset : Car := ⟨none, none, none, none⟩

/-- R22. -/
def Signal.reset : Signal := ⟨.none, true, none, false, none, none, none⟩

/-- R1, R6, R15, R22. -/
def Indication.reset : Indication :=
  { groups := Vector.replicate 8 Rec8.zero, cars := Vector.replicate 48 Car.reset, labels := [],
    signals := Vector.replicate 48 Signal.reset }

/-- R40, R42, R56, R65. -/
def Destination.reset : Destination :=
  { entries := [], ticket := 1, prompts := [], stops := Vector.replicate 48 [] }

/-- R72, R80. -/
def FaceTable.reset : FaceTable := { faces := [], slots := Vector.replicate 4 ⟨Rec4.zero, none, none⟩ }

/-- R91. -/
def Context.reset : Context := ⟨.idle, none, 0, none, 0, none, 0, []⟩

/-- R108. -/
def Line.reset : Line := ⟨.empty, ⟨0, 0⟩, [], none⟩

/-- R114. -/
def Area.reset : Area := ⟨.empty, .single, 0, []⟩

/-- R108, R114, R120, R121. -/
def FetchUnit.reset : FetchUnit :=
  { lines := Vector.replicate 32 Line.reset, recency := [], areas := Vector.replicate 8 Area.reset,
    langs := Vector.replicate 16 ⟨0, 0, 0, 8⟩, requests := [], channels := Vector.replicate 4 none, sweepReads := [] }

/-- R128, R138. The slot position and the poll turn of a STOPPED link are the model's choice: log entry 49. -/
def Link.reset : Link := ⟨Rec4.zero, false, 0, [], none, none, none, false, none⟩

/-- R125, R128. -/
def LinkCtl.reset : LinkCtl := { roster := [], displays := [], links := Vector.replicate 8 Link.reset, frames := 0 }

/-- R143. -/
def Clock.reset : Clock := ⟨0, 0, 0⟩

/-- R172, R176. -/
def Ring.reset : Ring := ⟨Rec4.zero, none, 0, none, [], none, none, false⟩

/-- The engines after power-on reset (R151, R172 for the timer list and the pending queue). -/
def Engines.reset : Engines :=
  { ind := Indication.reset, dest := Destination.reset, face := FaceTable.reset,
    play := Vector.replicate 16 Context.reset, link := LinkCtl.reset, timers := ⟨[], 0⟩, out := ⟨[], 0⟩ }

/-- The machine right after power-on reset, with no command waiting and no byte of memory written. -/
def State.reset : State :=
  { pending := [], resetLow := false, mem := [], path := MemPath.reset, asm := Assembler.reset,
    fetch := FetchUnit.reset, clock := Clock.reset, ring := Ring.reset, eng := Engines.reset }

/-! ## The reasons a step can stop -/

/-- The model's one fault. -/
inductive Fault where
  /-- Raised by UPSTREAM_WRITE and UPSTREAM_READ when the operand is no transaction of section 10.1: a size other than
  1, 2, 4 or 8 words, or a base not aligned to the size. Safe: log entry 7. -/
  | notATransaction
  deriving DecidableEq, Repr

/-- Refusals. -/
inductive Refusal where
  /-- Raised by an arm of exec that has no meaning yet. Safe. -/
  | notModelled (mnemonic : String)
  deriving DecidableEq, Repr

end Sys2Proof.Machine
end

