-- ==== Sys2Proof/Machine/Ops.lean ====
section
/-! DEFINITION. The named operations on tables, host memory, the timer list and the pending report queue. -/

namespace Sys2Proof.Machine

/-! ## Sparse tables -/

/-- The value at a key. -/
def Tab.get {α : Type} : Tab α → Nat → Option α
  | [], _ => none
  | (k, v) :: t, key => if k = key then some v else Tab.get t key

/-- Put a value at a key, keeping the keys strictly rising. -/
def Tab.put {α : Type} : Tab α → Nat → α → Tab α
  | [], key, x => [(key, x)]
  | (k, v) :: t, key, x =>
    if key < k then (key, x) :: (k, v) :: t
    else if key = k then (key, x) :: t
    else (k, v) :: Tab.put t key x

/-- Remove a key. -/
def Tab.erase {α : Type} (t : Tab α) (key : Nat) : Tab α := t.filter fun x => x.1 != key

/-- Change the value at a key, if there is one. -/
def Tab.modify {α : Type} : Tab α → Nat → (α → α) → Tab α
  | [], _, _ => []
  | (k, v) :: t, key, f => if k = key then (k, f v) :: t else (k, v) :: Tab.modify t key f

/-- The keys, in rising order. -/
def Tab.keys {α : Type} (t : Tab α) : List Nat := t.map Prod.fst

/-- The keys are strictly rising, all of them above `lo` when one is given. -/
def Tab.risingFrom {α : Type} : Option Nat → Tab α → Bool
  | _, [] => true
  | lo, (k, _) :: t => (match lo with | none => true | some l => decide (l < k)) && Tab.risingFrom (some k) t

/-- The canonical form of a sparse table: keys strictly rising. -/
def Tab.wf {α : Type} (t : Tab α) : Bool := Tab.risingFrom none t

/-- A word of a staging image; an image never written is zero (R164). -/
def Tab.word (t : Tab Word) (k : Nat) : Word := (t.get k).getD 0

/-- Change the element at an index of a fixed table. -/
def upd {α : Type} {n : Nat} (v : Vector α n) (i : Fin n) (f : α → α) : Vector α n := v.set i (f v[i])

/-- Insert into a list kept in rising order, once. -/
def insertNat : List Nat → Nat → List Nat
  | [], x => [x]
  | y :: ys, x => if x < y then x :: y :: ys else if x = y then y :: ys else y :: insertNat ys x

/-! ## Host memory -/

/-- The byte at an address: what the list holds, else the unwritten byte (log entry 4). -/
def Memory.read : List Host.Cell → Nat → Byte
  | [], _ => Config.unwrittenByte
  | (k, v) :: t, a => if k = a then v else Memory.read t a

/-- Write one byte, keeping the canonical form: the unwritten byte is not listed. -/
def Memory.write : List Host.Cell → Nat → Byte → List Host.Cell
  | [], a, b => if b = Config.unwrittenByte then [] else [(a, b)]
  | (k, v) :: t, a, b =>
    if a < k then (if b = Config.unwrittenByte then (k, v) :: t else (a, b) :: (k, v) :: t)
    else if a = k then (if b = Config.unwrittenByte then t else (a, b) :: t)
    else (k, v) :: Memory.write t a b

/-- No entry holds the unwritten byte. -/
def Memory.noDefault (m : List Host.Cell) : Bool := m.all fun c => c.2 != Config.unwrittenByte

/-- The canonical form of host memory: addresses strictly rising, no entry equal to the unwritten byte. -/
def Memory.wf (m : List Host.Cell) : Bool := Tab.wf m && Memory.noDefault m

/-- Byte n of a word. -/
def byteOf (w : Word) (n : Nat) : Byte := w.extractLsb' (8 * n) 8

/-- A word of four bytes, the first the least significant. -/
def wordOf (b0 b1 b2 b3 : Byte) : Word := b3 ++ b2 ++ b1 ++ b0

/-- The word at an address, little-endian. -/
def Memory.readWord (m : List Host.Cell) (a : Nat) : Word :=
  wordOf (Memory.read m a) (Memory.read m (a + 1)) (Memory.read m (a + 2)) (Memory.read m (a + 3))

/-- `n` words from an address upwards. -/
def Memory.readWords (m : List Host.Cell) (a : Nat) : Nat → List Word
  | 0 => []
  | n + 1 => Memory.readWord m a :: Memory.readWords m (a + 4) n

/-- Write byte n of a word at an address when its lane is enabled (spec/00, "Byte lanes"). -/
def Memory.writeLane (m : List Host.Cell) (a : Nat) (b : Beat) (n : Nat) : List Host.Cell :=
  if b.lanes.getLsbD n then Memory.write m (a + n) (byteOf b.word n) else m

/-- Write one beat: the enabled lanes only. -/
def Memory.writeBeat (m : List Host.Cell) (a : Nat) (b : Beat) : List Host.Cell :=
  Memory.writeLane (Memory.writeLane (Memory.writeLane (Memory.writeLane m a b 0) a b 1) a b 2) a b 3

/-- Write a burst in ascending address order. -/
def Memory.writeBeats (m : List Host.Cell) (a : Nat) : List Beat → List Host.Cell
  | [] => m
  | b :: bs => Memory.writeBeats (Memory.writeBeat m a b) (a + 4) bs

/-- A word with every lane enabled. -/
def fullBeat (w : Word) : Beat := ⟨w, 0xF⟩

/-- Write whole words in ascending address order. -/
def Memory.writeWords (m : List Host.Cell) (a : Nat) (ws : List Word) : List Host.Cell :=
  Memory.writeBeats m a (ws.map fullBeat)

/-- Merge a captured word into a staged word lane by lane (R164). -/
def mergeLanes (old new : Word) (lanes : BitVec 4) : Word :=
  let pick (n : Nat) : Byte := if lanes.getLsbD n then byteOf new n else byteOf old n
  wordOf (pick 0) (pick 1) (pick 2) (pick 3)

/-! ## Time and the timer list (chapter 9) -/

/-- Time `t` has reached expiry `e` (R144). -/
def reached (t e : BitVec 32) : Bool := decide ((t - e).toNat < 2147483648)

/-- Expiry `a` is earlier than expiry `b` (R144). -/
def earlier (a b : BitVec 32) : Bool := decide (1 ≤ (b - a).toNat ∧ (b - a).toNat < 2147483648)

/-- A time some ms after another, modulo 2 to the 32nd. -/
def later (t : BitVec 32) (ms : Nat) : BitVec 32 := t + BitVec.ofNat 32 ms

/-- Put a place into expiry order, behind every place of equal expiry (R145). -/
def insertPlace : List TimerPlace → TimerPlace → List TimerPlace
  | [], p => [p]
  | q :: qs, p => if earlier p.expiry q.expiry then p :: q :: qs else q :: insertPlace qs p

/-- A claim: accepted while the list holds fewer than 128 places, refused otherwise with nothing changed (R146). The
answer is the holding. -/
def Timers.claim (tm : Timers) (kind : PlaceKind) (owner : Owner) (expiry : BitVec 32) (interval count : Nat) :
    Timers × Option Nat :=
  if tm.list.length < Config.timerPlaces then
    (⟨insertPlace tm.list ⟨tm.nextId, kind, owner, expiry, interval, count⟩, tm.nextId + 1⟩, some tm.nextId)
  else (tm, none)

/-- A release: the place is removed wherever it stands; one that is gone changes nothing (R149). -/
def Timers.release (tm : Timers) (id : Nat) : Timers := { tm with list := tm.list.filter (fun p => p.id != id) }

/-- A release of a holding that may be none. -/
def Timers.releaseOpt (tm : Timers) : Option Nat → Timers
  | none => tm
  | some id => tm.release id

/-- The remaining time of a held place: 0 when it is due or gone (R150). -/
def Timers.remaining (tm : Timers) (now : BitVec 32) (id : Nat) : Nat :=
  match tm.list.find? (fun p => p.id == id) with
  | none => 0
  | some p => if reached now p.expiry then 0 else (p.expiry - now).toNat

/-- The place at the head of the list when it is due (R147). -/
def Timers.due (tm : Timers) (now : BitVec 32) : Option TimerPlace :=
  match tm.list with
  | [] => none
  | p :: _ => if reached now p.expiry then some p else none

/-- The delivery of a place stays in the list when it is repeating and this was not its last counted expiry
(R147, R148). -/
def TimerPlace.stays (p : TimerPlace) : Bool := p.interval != 0 && p.count != 1

/-- A delivered place as it is re-placed: the delivered expiry plus the interval, the count lowered unless it is
unbounded (R148). -/
def TimerPlace.next (p : TimerPlace) : TimerPlace :=
  { p with expiry := later p.expiry p.interval, count := p.count - 1 }

/-- Deliver the head of the list: removed, or re-placed at its next expiry (R148). -/
def Timers.deliver (tm : Timers) : Timers :=
  match tm.list with
  | [] => tm
  | p :: ps => if p.stays then { tm with list := insertPlace ps p.next } else { tm with list := ps }

/-! ## Reports (11.6) -/

/-- A report joins the pending queue with the ms time at which it is made, or folds into the tally when the queue is
full or the tally is not 0 (R173, R175). -/
def Outbox.report (o : Outbox) (now : BitVec 32) (e : Event) : Outbox :=
  if o.queue.length < Config.reportPlaces ∧ o.tally = 0 then { o with queue := o.queue ++ [⟨e, now⟩] }
  else { o with tally := min (o.tally + 1) 65535 }

/-- The head report leaves the queue at the completion of its write; a tally that is not 0 becomes an OVERRUN report
at once (R175). -/
def Outbox.pop (o : Outbox) (now : BitVec 32) : Outbox :=
  if o.tally = 0 then { o with queue := o.queue.tail }
  else { queue := o.queue.tail ++ [⟨.overrun o.tally, now⟩], tally := 0 }

/-! ## What the engines read of the rest of the part -/

/-- What the engines read while they act: the ms time, the accepted settings record, and which languages are READY. -/
structure Ambient where
  now : BitVec 32
  settings : Rec8
  ready : Fin 16 → Bool

/-- Another timer list. -/
def Engines.setTimers (e : Engines) (tm : Timers) : Engines := { e with timers := tm }

/-- A report made by an engine. -/
def Engines.report (A : Ambient) (e : Engines) (ev : Event) : Engines := { e with out := e.out.report A.now ev }

/-- A place released by an engine. -/
def Engines.release (e : Engines) (id : Option Nat) : Engines := e.setTimers (e.timers.releaseOpt id)

/-! ## Steps and the reset pin -/

/-- A step of a part that is out of reset. While RESET_N is low no step but RESET_N_FALL and POWER_ON_RESET has an
effect (R180; log entry 3). -/
def whenUp (s : State) (f : State → State) : Host.Outcome State Fault Refusal :=
  .next (if s.resetLow then s else f s)

end Sys2Proof.Machine
end

