-- ==== Sys2Proof/Machine/Operands.lean ====
section
/-! DEFINITION. The fields of the records (chapter 12): every field is read from the bits the layouts give it (R178).
A code that a field's list does not name reads as none. -/

namespace Sys2Proof.Machine

/-! ## Words and bits -/

/-- Byte n of a word as a number. -/
def byteN (w : Word) (n : Nat) : Nat := (byteOf w n).toNat

/-- Bits of a word as a number: `len` bits from bit `lo`. -/
def bitsN (w : Word) (lo len : Nat) : Nat := (w.extractLsb' lo len).toNat

/-- An index below a bound. -/
def toFin (n k : Nat) : Option (Fin n) := if h : k < n then some ⟨k, h⟩ else none

/-- Group g is in a group mask (12.2: bit g is group g). -/
def inMask (mask : BitVec 8) (g : Fin 8) : Bool := mask.getLsbD g

/-- The mask of one group. -/
def maskOf (g : Fin 8) : BitVec 8 := 1#8 <<< g.val

/-- A message reference: bits 25 to 0, 0 for none (R106, 12.3). -/
def msgRef (w : Word) : Nat := bitsN w 0 26

/-! ## Codes of named values -/

def ServiceMode.ofCode : Nat → Option ServiceMode
  | 0 => some .normal
  | 1 => some .independent
  | 2 => some .parked
  | 3 => some .outOfService
  | 4 => some .fireRecall
  | 5 => some .fireOperation
  | _ => none

def LoadState.ofCode : Nat → Option LoadState
  | 0 => some .normal
  | 1 => some .full
  | 2 => some .overload
  | _ => none

/-- Directions, motion and arrows share the codes 0 none, 1 UP, 2 DOWN. -/
def Arrow.ofCode : Nat → Option Arrow
  | 0 => some .none
  | 1 => some .up
  | 2 => some .down
  | _ => Option.none

def Door.ofCode : Nat → Option Door
  | 0 => some .closed
  | 1 => some .opening
  | 2 => some .open
  | 3 => some .closing
  | _ => none

def WalkHint.ofCode : Nat → Option WalkHint
  | 0 => some .none
  | 1 => some .left
  | 2 => some .right
  | 3 => some .ahead
  | _ => Option.none

def DisplayClass.ofCode : Nat → Option DisplayClass
  | 0 => some .hallSegment
  | 1 => some .carSegment
  | 2 => some .carMatrix
  | 3 => some .hallMatrix
  | 4 => some .terminal
  | _ => none

def Arrow.code : Arrow → Nat
  | .none => 0
  | .up => 1
  | .down => 2

def WalkHint.code : WalkHint → Nat
  | .none => 0
  | .left => 1
  | .right => 2
  | .ahead => 3

def EntryKind.code : EntryKind → Nat
  | .standard => 0
  | .accessible => 1

def PromptKind.code : PromptKind → Nat
  | .waiting => 0
  | .assigned => 1
  | .invalid => 2
  | .expired => 3
  | .refused => 4

def PlaceKind.code : PlaceKind → Nat
  | .entryWait => 0
  | .promptHold => 1
  | .lantern => 2
  | .gong => 3
  | .dwell => 4
  | .overrideDwell => 5

def Layer.code : Layer → Nat
  | .base => 0
  | .prompt => 1
  | .notice => 2
  | .override => 3

def FrameKind.code : FrameKind → Nat
  | .empty => 0
  | .segment => 1
  | .matrix => 2

def WinState.code : WinState → Nat
  | .disabled => 0
  | .current => 1
  | .stale => 2

def AreaState.code : AreaState → Nat
  | .empty => 0
  | .loading => 1
  | .ready => 2

def Reason.code : Reason → Nat
  | .none => 0
  | .badValue => 1
  | .badSpans => 2
  | .noGroup => 3
  | .badLanding => 4
  | .badWindow => 5
  | .duplicateDrop => 6
  | .tooManyTerminals => 7
  | .badBinding => 8
  | .badSlots => 9
  | .badOpcode => 10
  | .badArea => 11
  | .badCount => 12
  | .badPitch => 13
  | .badSource => 14
  | .busy => 15
  | .disabled => 16
  | .late => 17
  | .mismatch => 18
  | .badCar => 19
  | .carUnavailable => 20
  | .override => 21
  | .tableFull => 22
  | .timers => 23
  | .notTerminal => 24
  | .roster => 25

/-! ## Group records (12.2) -/

def Rec8.deckCode (r : Rec8) : Nat := byteN r.w0 0
/-- Deck mode DOUBLE. -/
def Rec8.double (r : Rec8) : Bool := r.deckCode == 1
def Rec8.lanternInterval (r : Rec8) : Nat := bitsN r.w5 0 16
def Rec8.flashCount (r : Rec8) : Nat := byteN r.w6 0
def Rec8.groupStateCode (r : Rec8) : Nat := byteN r.w7 0
/-- Group state PRESENT. -/
def Rec8.groupPresent (r : Rec8) : Bool := r.groupStateCode == 1

/-- A span of a group record: first landing, last landing, base floor. -/
structure Span where
  first : Nat
  last : Nat
  base : Nat
  deriving DecidableEq, Repr

/-- A span word; a first landing of FFh is NONE and marks the span unused. -/
def spanOf (w : Word) : Option Span :=
  if byteN w 0 = 255 then none else some ⟨byteN w 0, byteN w 1, byteN w 2⟩

/-- The used spans of a group record (R2). -/
def Rec8.spans (r : Rec8) : List Span := [r.w1, r.w2, r.w3, r.w4].filterMap spanOf

/-- The floor of a landing in one span. -/
def Span.floor (p : Span) (l : Nat) : Option Nat :=
  if p.first ≤ l ∧ l ≤ p.last then some (p.base + (l - p.first)) else none

/-- The floor of a landing of a group; none when the group is ABSENT or no used span holds the landing (R3). -/
def Rec8.floorOf (r : Rec8) (l : Nat) : Option Nat :=
  if r.groupPresent then r.spans.findSome? (fun p => p.floor l) else none

/-- A PRESENT group serves a building floor (R3). -/
def Rec8.serves (r : Rec8) (f : Nat) : Bool :=
  r.groupPresent && r.spans.any (fun p => decide (p.base ≤ f ∧ f ≤ p.base + (p.last - p.first)))

/-! ## CAR records (12.3) -/

def Rec4.carGroupCode (r : Rec4) : Nat := byteN r.w0 0
/-- The named group; none for NONE (FFh). -/
def Rec4.carGroup (r : Rec4) : Option (Fin 8) := toFin 8 r.carGroupCode
def Rec4.carName (r : Rec4) : Byte × Byte := (byteOf r.w0 1, byteOf r.w0 2)
def Rec4.carMode (r : Rec4) : Option ServiceMode := ServiceMode.ofCode (byteN r.w1 0)
def Rec4.carLoad (r : Rec4) : Option LoadState := LoadState.ofCode (byteN r.w1 1)
def Rec4.carNext (r : Rec4) : Option Arrow := Arrow.ofCode (byteN r.w1 2)
def Rec4.carTarget (r : Rec4) : Nat := byteN r.w2 0
def Rec4.carPosition (r : Rec4) : Nat := byteN r.w3 0
def Rec4.carMotion (r : Rec4) : Option Arrow := Arrow.ofCode (byteN r.w3 1)
def Rec4.carDoor (r : Rec4) : Option Door := Door.ofCode (byteN r.w3 2)

/-- The position as a landing 0 to 127, if it is one. -/
def Rec4.carLanding (r : Rec4) : Option Nat := if r.carPosition ≤ 127 then some r.carPosition else none

/-- A mode in which stops are kept, assignments taken and arrival signals started (1.3). -/
def ServiceMode.inService : ServiceMode → Bool
  | .normal | .independent | .parked => true
  | .outOfService | .fireRecall | .fireOperation => false

/-- The record's service mode is NORMAL, INDEPENDENT or PARKED. -/
def Rec4.carInService (r : Rec4) : Bool :=
  match r.carMode with
  | some m => m.inService
  | none => false

/-- The record's service mode is OUT_OF_SERVICE, FIRE_RECALL or FIRE_OPERATION. -/
def Rec4.carOutOfService (r : Rec4) : Bool :=
  match r.carMode with
  | some m => !m.inService
  | none => false

/-! ## ASSIGN records (12.3) -/

def Rec4.asnTicket (r : Rec4) : Nat := bitsN r.w0 0 16
def Rec4.asnCar (r : Rec4) : Nat := byteN r.w1 0
def Rec4.asnWalk (r : Rec4) : Option WalkHint := WalkHint.ofCode (byteN r.w1 1)
def Rec4.asnDest (r : Rec4) : Nat := bitsN r.w2 0 16
def Rec4.asnKindCode (r : Rec4) : Nat := byteN r.w3 0
def Rec4.asnDecline (r : Rec4) : Bool := r.asnKindCode == 1

/-! ## ROSTER records (12.3) -/

def Rec4.rosLinkCode (r : Rec4) : Nat := byteN r.w0 0
def Rec4.rosLink (r : Rec4) : Fin 8 := ⟨r.rosLinkCode % 8, Nat.mod_lt _ (by decide)⟩
def Rec4.rosDrop (r : Rec4) : Nat := byteN r.w0 1
def Rec4.rosClass (r : Rec4) : Option DisplayClass := DisplayClass.ofCode (byteN r.w0 2)
def Rec4.rosBindA (r : Rec4) : Nat := byteN r.w1 0
def Rec4.rosBindB (r : Rec4) : Nat := byteN r.w2 0
def Rec4.rosStateCode (r : Rec4) : Nat := byteN r.w3 0
def Rec4.rosPresent (r : Rec4) : Bool := r.rosStateCode == 1

/-! ## LABEL records (12.3) -/

def Rec4.labSegment (r : Rec4) : Word := r.w0
def Rec4.labMatrix (r : Rec4) : MatrixName :=
  ⟨r.w1.extractLsb' 0 16, r.w1.extractLsb' 16 16, r.w2.extractLsb' 0 16, r.w2.extractLsb' 16 16⟩
def Rec4.labStateCode (r : Rec4) : Nat := byteN r.w3 0
def Rec4.labPresent (r : Rec4) : Bool := r.labStateCode == 1
def Rec4.labSelectCode (r : Rec4) : Nat := byteN r.w3 1
def Rec4.labSelectable (r : Rec4) : Bool := r.labSelectCode == 1

/-! ## PLAYOUT records (12.3) -/

def Rec4.ploMsg (r : Rec4) : Nat := msgRef r.w0
def Rec4.ploGroups (r : Rec4) : BitVec 8 := byteOf r.w1 0
def Rec4.ploClasses (r : Rec4) : BitVec 8 := byteOf r.w1 1
def Rec4.ploFirst (r : Rec4) : Nat := byteN r.w1 2
def Rec4.ploLast (r : Rec4) : Nat := byteN r.w1 3
def Rec4.ploCount (r : Rec4) : Nat := bitsN r.w2 20 4
/-- The first rotation-count language numbers, in order (five bits each). -/
def Rec4.ploLangCodes (r : Rec4) : List Nat :=
  ([bitsN r.w2 0 5, bitsN r.w2 5 5, bitsN r.w2 10 5, bitsN r.w2 15 5]).take r.ploCount
/-- The rotation; an accepted START has no number above 15 in it (R92). -/
def Rec4.ploRotation (r : Rec4) : List (Fin 16) := r.ploLangCodes.filterMap (toFin 16)
/-- The dwell in ms. -/
def Rec4.ploDwell (r : Rec4) : Nat := 1000 * bitsN r.w2 24 8
def Rec4.ploRepeat (r : Rec4) : Nat := byteN r.w3 0
def Rec4.ploActionCode (r : Rec4) : Nat := byteN r.w3 1

/-! ## Override slots, languages, links, ring, settings, descriptors, commands (12.2) -/

def Rec4.ovrGroups (r : Rec4) : BitVec 8 := byteOf r.w0 0
def Rec4.ovrFirst (r : Rec4) : Nat := byteN r.w0 1
def Rec4.ovrLast (r : Rec4) : Nat := byteN r.w0 2
def Rec4.ovrCodes (r : Rec4) : Word := r.w1
def Rec4.ovrMsg (r : Rec4) : Nat := msgRef r.w2
def Rec4.ovrStateCode (r : Rec4) : Nat := byteN r.w3 0
def Rec4.ovrInForce (r : Rec4) : Bool := r.ovrStateCode == 1
def Rec4.ovrArrowCode (r : Rec4) : Nat := byteN r.w3 1
def Rec4.ovrArrow (r : Rec4) : Arrow := (Arrow.ofCode r.ovrArrowCode).getD .none

/-- The area of a language record: none for NONE, written as 8. -/
def Rec4.langArea (r : Rec4) : Option (Fin 8) := toFin 8 r.w3.toNat

def Rec4.lnkOut (r : Rec4) (slot : Nat) : Bool := r.w0.getLsbD slot
def Rec4.lnkIn (r : Rec4) (slot : Nat) : Bool := r.w1.getLsbD slot
def Rec4.lnkRateCode (r : Rec4) : Nat := byteN r.w2 0
/-- Slot length in characters. -/
def Rec4.lnkLength (r : Rec4) : Nat := byteN r.w2 1
def Rec4.lnkRunCode (r : Rec4) : Nat := byteN r.w3 0
def Rec4.lnkRun (r : Rec4) : Bool := r.lnkRunCode == 1
/-- The block payload size P: the lesser of 64 and slot length − 8 (R131). -/
def Rec4.lnkPayload (r : Rec4) : Nat := min 64 (r.lnkLength - 8)

def Rec4.ringBase (r : Rec4) : Nat := r.w0.toNat
def Rec4.ringSize (r : Rec4) : Nat := r.w3.toNat

def Rec8.divider (r : Rec8) : Nat := r.w0.toNat
def Rec8.holdoffLimit (r : Rec8) : Nat := r.w1.toNat
def Rec8.statusPeriod (r : Rec8) : Nat := r.w2.toNat
/-- Entry wait limit in ms. -/
def Rec8.entryWait (r : Rec8) : Nat := 1000 * r.w3.toNat
/-- Assigned-prompt hold in ms. -/
def Rec8.assignedHold (r : Rec8) : Nat := 1000 * r.w4.toNat
/-- Notice-prompt hold in ms. -/
def Rec8.noticeHold (r : Rec8) : Nat := 1000 * r.w5.toNat
def Rec8.idleMsg (r : Rec8) : Nat := msgRef r.w6
def Rec8.gongSpacing (r : Rec8) : Nat := r.w7.toNat

def Rec4.winBase (r : Rec4) : Nat := r.w0.toNat
def Rec4.winCount (r : Rec4) : Nat := r.w3.toNat

def Rec4.cmdOpcode (r : Rec4) : Word := r.w3
def Rec4.cmdWindow (r : Rec4) : Nat := byteN r.w0 0
def Rec4.cmdArea (r : Rec4) : Nat := byteN r.w0 0
def Rec4.cmdSource (r : Rec4) : Nat := r.w1.toNat
def Rec4.cmdCount (r : Rec4) : Nat := bitsN r.w2 0 16
def Rec4.cmdPitch (r : Rec4) : Nat := bitsN r.w2 16 16

/-! ## The control block map (10.3, 12.2) -/

/-- The five window kinds (10.2). -/
abbrev carWindow : Fin 5 := 0
abbrev assignWindow : Fin 5 := 1
abbrev rosterWindow : Fin 5 := 2
abbrev labelWindow : Fin 5 := 3
abbrev playoutWindow : Fin 5 := 4

/-- The largest record count of each window (10.2). -/
def windowMax : Fin 5 → Nat
  | 0 => 48
  | 1 => 256
  | 2 => 512
  | 3 => 256
  | 4 => 16

/-- A control block offset that is a record position: the record, its own offset, and how many words it has. -/
def cbRecord (off : Nat) : Option (RecordPlace × Nat × Nat) :=
  if off < 0x10 then some (.relocation, 0, 4)
  else if off < 0x20 then some (.command, 0x10, 4)
  else if off < 0x40 then none
  else if off < 0x60 then some (.settings, 0x40, 8)
  else if off < 0x80 then none
  else if h : (off - 0x80) / 16 < 5 then some (.descriptor ⟨(off - 0x80) / 16, h⟩, 0x80 + 16 * ((off - 0x80) / 16), 4)
  else if off < 0x100 then none
  else if h : (off - 0x100) / 32 < 8 then some (.group ⟨(off - 0x100) / 32, h⟩, 0x100 + 32 * ((off - 0x100) / 32), 8)
  else if h : (off - 0x200) / 16 < 8 then some (.linkSetup ⟨(off - 0x200) / 16, h⟩, 0x200 + 16 * ((off - 0x200) / 16), 4)
  else if h : (off - 0x280) / 16 < 4 then
    some (.overrideSlot ⟨(off - 0x280) / 16, h⟩, 0x280 + 16 * ((off - 0x280) / 16), 4)
  else if h : (off - 0x2C0) / 16 < 16 then
    some (.language ⟨(off - 0x2C0) / 16, h⟩, 0x2C0 + 16 * ((off - 0x2C0) / 16), 4)
  else if off < 0x3D0 then some (.ringSetup, 0x3C0, 4)
  else none

/-- The staged record of four words at a control block offset. -/
def stagedCb4 (t : Tab Word) (off : Nat) : Rec4 :=
  ⟨t.word off, t.word (off + 4), t.word (off + 8), t.word (off + 12)⟩

/-- The staged record of eight words at a control block offset. -/
def stagedCb8 (t : Tab Word) (off : Nat) : Rec8 :=
  ⟨t.word off, t.word (off + 4), t.word (off + 8), t.word (off + 12), t.word (off + 16), t.word (off + 20),
    t.word (off + 24), t.word (off + 28)⟩

/-- The staged record of a window slot. -/
def stagedSlot (t : Tab Word) (slot : Nat) : Rec4 :=
  ⟨t.word (4 * slot), t.word (4 * slot + 1), t.word (4 * slot + 2), t.word (4 * slot + 3)⟩

/-! ## Reports as words (12.6) -/

/-- A number as a word, its low 32 bits. -/
def wordN (n : Nat) : Word := BitVec.ofNat 32 n

/-- The subject of RECORD_REFUSED. -/
def RecordPlace.subject : RecordPlace → Nat
  | .window k slot => k.val + slot * 65536
  | .relocation => 8
  | .settings => 8 + 1 * 256
  | .descriptor k => 8 + 2 * 256 + k.val * 65536
  | .group g => 8 + 3 * 256 + g.val * 65536
  | .linkSetup n => 8 + 4 * 256 + n.val * 65536
  | .overrideSlot k => 8 + 5 * 256 + k.val * 65536
  | .language n => 8 + 6 * 256 + n.val * 65536
  | .ringSetup => 8 + 7 * 256
  | .command => 8

/-- Kind code, subject and detail of a report. Fields are placed by multiplication, bit n standing for 2 to the n. -/
def Event.words : Event → Nat × Nat × Nat
  | .entry t d o f k => (1, t, d + o * 2 ^ 9 + f * 2 ^ 17 + k.code * 2 ^ 25)
  | .entryExpired t d f => (2, t, d + f * 2 ^ 16)
  | .entryCancelled t d r => (3, t, d + r.code * 2 ^ 16)
  | .entryRefused d r f k => (4, d, r.code + f * 2 ^ 8 + k.code * 2 ^ 16)
  | .assignRefused t r c dec => (5, t, r.code + c * 2 ^ 8 + dec.toNat * 2 ^ 16)
  | .assignLoss a n => (6, 1, a + n * 2 ^ 28)
  | .stopsDropped c n r => (7, c, n + r * 2 ^ 16)
  | .stopListFull c f t => (8, c, f + t * 2 ^ 16)
  | .recordRefused p r => (9, p.subject, r.code)
  | .sweepDone k n => (10, k.val, n)
  | .commandDone op => (11, op.toNat, Reason.none.code)
  | .commandRefused op r => (12, op.toNat, r.code)
  | .displayLost d l p => (13, d, l + p * 2 ^ 8)
  | .displayBack d l p => (14, d, l + p * 2 ^ 8)
  | .displayFault d o n => (15, d, o + n * 2 ^ 8)
  | .playoutDone c n => (16, c.val, n)
  | .timerRefused x k i t => (17, x, k.code + i * 2 ^ 8 + t * 2 ^ 16)
  | .glyphsReady a n => (18, a.val, n)
  | .overrun n => (19, 0xFFFFFFFF, n)

/-- The four words of a report record. -/
def Report.words (r : Report) : List Word :=
  [wordN r.event.words.1, wordN r.event.words.2.1, wordN r.event.words.2.2, r.time]

end Sys2Proof.Machine
end

