-- ==== Sys2Proof/Machine/Faces.lean ====
section
/-! DEFINITION. Faces: the visible layer (5.2), CHANGE and REFRESH marks (R75, R76), and the transmit queue they feed
(R138). -/

namespace Sys2Proof.Machine

/-! ## The visible layer -/

/-- Segment classes (R133). -/
def DisplayClass.isSegment : DisplayClass → Bool
  | .hallSegment | .carSegment => true
  | .carMatrix | .hallMatrix | .terminal => false

/-- The content of the OVERRIDE layer under a slot, by class (R87). -/
def OverrideSlot.show (k : OverrideSlot) (cls : DisplayClass) : OverShow :=
  if cls.isSegment then .segment k.record.ovrCodes k.record.ovrArrow
  else .matrix k.record.ovrArrow k.record.ovrMsg k.lang

/-- The visible content: the highest layer that is present (R74). -/
def Face.visible (slots : Vector OverrideSlot 4) (f : Face) : Visible :=
  match f.cover with
  | some k => .over (slots[k].show f.cls)
  | none =>
    match f.notice with
    | some n => .notice n
    | none =>
      match f.prompt with
      | [] => .base f.base f.strokes
      | p :: ps => .prompt (p :: ps)

/-- The layer a visible content is of. -/
def Visible.layer : Visible → Layer
  | .base _ _ => .base
  | .prompt _ => .prompt
  | .notice _ => .notice
  | .over _ => .override

/-- The visible layer of a face. -/
def Face.layer (slots : Vector OverrideSlot 4) (f : Face) : Layer := (f.visible slots).layer

/-! ## Reaching a face, a display, a link -/

def Engines.faceOf (e : Engines) (d : Nat) : Option Face := e.face.faces.get d

def Engines.setFaces (e : Engines) (t : Tab Face) : Engines := { e with face := { e.face with faces := t } }
def Engines.onSlot (e : Engines) (k : Fin 4) (g : OverrideSlot → OverrideSlot) : Engines :=
  { e with face := { e.face with slots := upd e.face.slots k g } }
def Engines.setDisplays (e : Engines) (t : Tab Display) : Engines := { e with link := { e.link with displays := t } }
def Engines.setRoster (e : Engines) (t : Tab Rec4) : Engines := { e with link := { e.link with roster := t } }

/-- Store a face as it is, giving no mark. -/
def Engines.storeFace (e : Engines) (d : Nat) (g : Face → Face) : Engines := e.setFaces (e.face.faces.modify d g)

/-- A link of the table. -/
def Engines.linkOf (e : Engines) (n : Fin 8) : Link := e.link.links[n]

def Engines.onLink (e : Engines) (n : Fin 8) (g : Link → Link) : Engines :=
  { e with link := { e.link with links := upd e.link.links n g } }

def Engines.onDisplay (e : Engines) (d : Nat) (g : Display → Display) : Engines :=
  e.setDisplays (e.link.displays.modify d g)

/-- The liveness of a display is ONLINE. -/
def Engines.online (e : Engines) (d : Nat) : Bool :=
  match e.link.displays.get d with
  | some x => x.liveness == .online
  | none => false

/-- The visible layer of a display is OVERRIDE. -/
def Engines.showsOverride (e : Engines) (d : Nat) : Bool :=
  match e.faceOf d with
  | some f => f.layer e.face.slots == .override
  | none => false

/-! ## The transmit queue (R138) -/

/-- Put `d` directly behind the last element that meets `p`; at the end when none does. -/
def behindLast (p : Nat → Bool) : List Nat → Nat → List Nat
  | [], d => [d]
  | x :: xs, d => if p x && !xs.any p then x :: d :: xs else x :: behindLast p xs d

/-- The display whose frame is in flight on a link. -/
def Link.inFlight (l : Link) : Option Nat := l.frame.map Frame.display

/-- The queue with `d` put at the joining position of a display whose visible layer is OVERRIDE: behind the last such
display, else behind the display in flight, else at the front (R138). -/
def joinOverride (shows : Nat → Bool) (flying : Option Nat) (q : List Nat) (d : Nat) : List Nat :=
  if q.any shows then behindLast shows q d
  else
    match flying with
    | some x => behindLast (· == x) q d
    | none => d :: q

/-- The queue with `d` put at its joining position (R138). -/
def joined (e : Engines) (l : Link) (d : Nat) : List Nat :=
  if e.showsOverride d then joinOverride e.showsOverride l.inFlight l.queue d else l.queue ++ [d]

/-- A display enters its link's queue at its joining position (R138). -/
def Engines.join (e : Engines) (n : Fin 8) (d : Nat) : Engines := e.onLink n fun l => { l with queue := joined e l d }

/-- A queued display whose visible layer has become OVERRIDE moves to its joining position, worked out with itself
left out, when that lies ahead of its place (R138). -/
def promoted (e : Engines) (l : Link) (d : Nat) : List Nat :=
  let moved := joinOverride e.showsOverride l.inFlight (l.queue.erase d) d
  if moved.idxOf d < l.queue.idxOf d then moved else l.queue

/-- A display leaves its link's queue without a frame: a frame of its own in flight is abandoned with its recorded
REFRESH, an abort that is due with it (log entry 46), and WAITING_TEXT is cleared (R78, R137, R138). -/
def Engines.leaveQueue (e : Engines) (n : Fin 8) (d : Nat) : Engines :=
  (e.onLink n fun l =>
    { l with queue := l.queue.erase d, frame := if l.inFlight = some d then none else l.frame }).storeFace d
    fun f => { f with waitText := none }

/-! ## Marks -/

/-- A frame overtaken by a CHANGE mark ends with ABORT at the next OUT slot (R136). A LAST block still on the wire does
not complete the frame any more: log entry 14. -/
def Frame.overtaken (f : Frame) : Frame :=
  { f with abortDue := true, closing := if f.closing = .last then .none else f.closing }

/-- A CHANGE mark: WAITING_TEXT is cleared (R78), and the Link Controller acts by the display's state on its link
(R75). `rise` says that the visible layer has become OVERRIDE. -/
def Engines.changeMark (e : Engines) (d : Nat) (rise : Bool) : Engines :=
  match e.faceOf d with
  | none => e
  | some f =>
    let e := e.storeFace d fun f => { f with waitText := none }
    if e.online d then
      let l := e.linkOf f.link
      if l.inFlight = some d then e.onLink f.link fun l => { l with frame := l.frame.map Frame.overtaken }
      else if l.queue.contains d then
        if rise then e.onLink f.link fun l => { l with queue := promoted e l d } else e
      else e.join f.link d
    else e

/-- A REFRESH mark: as a CHANGE mark, but a frame in flight is not aborted and the mark is recorded (R76). -/
def Engines.refreshMark (e : Engines) (d : Nat) : Engines :=
  match e.faceOf d with
  | none => e
  | some f =>
    if e.online d then
      let l := e.linkOf f.link
      if l.inFlight = some d then
        e.onLink f.link fun l => { l with frame := l.frame.map (fun fr => { fr with refresh := true }) }
      else if l.queue.contains d then e
      else e.join f.link d
    else e

/-- Change a face and give a CHANGE mark when its visible layer or visible content differs from what was shown under the
override slots `shown` (R74, R75). -/
def Engines.updFaceFrom (e : Engines) (shown : Vector OverrideSlot 4) (d : Nat) (g : Face → Face) : Engines :=
  match e.faceOf d with
  | none => e
  | some f =>
    let before := f.visible shown
    let after := (g f).visible e.face.slots
    let e := e.storeFace d g
    if after = before then e
    else e.changeMark d (before.layer != .override && after.layer == .override)

/-- Change a face and give a CHANGE mark when its visible layer or visible content has changed (R74, R75). -/
def Engines.updFace (e : Engines) (d : Nat) (g : Face → Face) : Engines := e.updFaceFrom e.face.slots d g

/-- Change an override slot and give a CHANGE mark, in ascending display index, to every face it covers whose visible
content has changed (R75, R87, R89). -/
def Engines.updSlot (e : Engines) (k : Fin 4) (g : OverrideSlot → OverrideSlot) : Engines :=
  let before := e.face.slots
  let e := e.onSlot k g
  e.face.faces.foldl
    (fun acc x => if x.2.visible acc.face.slots = x.2.visible before then acc else acc.changeMark x.1 false) e

/-- The Fetch Unit has filled a line: WAITING_TEXT is cleared on every face whose mark holds its tag (R78). -/
def Engines.textFilled (e : Engines) (t : Tag) : Engines :=
  let faces := e.face.faces.map fun x => (x.1, if x.2.waitText = some t then { x.2 with waitText := none } else x.2)
  e.setFaces faces

end Sys2Proof.Machine
end

