-- ==== Sys2Proof/Machine/Prompts.lean ====
section
/-! DEFINITION. Prompt queues, cancellations and stop lists of the Destination Engine (chapter 4, R52, R53). -/

namespace Sys2Proof.Machine

/-! ## Names -/

/-- A floor's accepted label record when its state is PRESENT (R15). -/
def labelOf (labels : Tab Rec4) (f : Nat) : Option Rec4 :=
  match labels.get f with
  | some r => if r.labPresent then some r else none
  | none => none

/-- A floor's matrix name; blank when its label is ABSENT (R15). -/
def matrixName (labels : Tab Rec4) (f : Nat) : Option MatrixName := (labelOf labels f).map Rec4.labMatrix

/-- A floor's segment codes; four zeros when its label is ABSENT (R15, 12.5). -/
def segmentName (labels : Tab Rec4) (f : Nat) : Word :=
  match labelOf labels f with
  | some r => r.labSegment
  | none => 0

/-! ## The PROMPT layer (R63) -/

/-- A prompt as the terminal is shown it. -/
def Prompt.show (labels : Tab Rec4) (p : Prompt) : PromptShow :=
  ⟨p.kind, p.dest, matrixName labels p.dest, p.entryKind, p.carName, p.walk⟩

/-- The prompt queue of a terminal. -/
def Engines.promptsOf (e : Engines) (d : Nat) : List Prompt := (e.dest.prompts.get d).getD []

def Engines.setPrompts (e : Engines) (t : Tab (List Prompt)) : Engines := { e with dest := { e.dest with prompts := t } }

/-- Store a terminal's prompt queue. -/
def Engines.storePrompts (e : Engines) (d : Nat) (q : List Prompt) : Engines :=
  e.setPrompts (e.dest.prompts.modify d (fun _ => q))

/-- Hand the PROMPT layer of a terminal to the Face Table; an empty queue is an absent layer (R63). -/
def Engines.handPrompts (e : Engines) (d : Nat) : Engines :=
  e.updFace d fun f => { f with prompt := (e.promptsOf d).map (Prompt.show e.ind.labels) }

/-! ## Holds (R59, R61) -/

/-- The hold of a prompt in ms (R59). -/
def holdTime (settings : Rec8) : PromptKind → EntryKind → Nat
  | .assigned, .standard => settings.assignedHold
  | .assigned, .accessible => 2 * settings.assignedHold
  | _, _ => settings.noticeHold

/-- Claim the hold place of the prompt at the head of a terminal's queue; a refusal leaves it without one and is
reported (R59, R61). -/
def Engines.claimHold (A : Ambient) (e : Engines) (d : Nat) : Engines :=
  match e.promptsOf d with
  | [] => e
  | p :: q =>
    match e.timers.claim .promptHold (.prompt d) (later A.now (holdTime A.settings p.kind p.entryKind)) 0 0 with
    | (tm, some id) => (e.setTimers tm).storePrompts d ({ p with hold := some id } :: q)
    | (_, none) => e.report A (.timerRefused d .promptHold p.kind.code (p.ticket.getD 0))

/-- Put a prompt at the head of a queue, claim its hold unless it is WAITING, and hand the layer (R57, R58). -/
def Engines.placePrompt (A : Ambient) (e : Engines) (d : Nat) (p : Prompt) (rest : List Prompt) : Engines :=
  let e := e.storePrompts d (p :: rest)
  let e := if p.kind = .waiting then e else e.claimHold A d
  e.handPrompts d

/-- Push a prompt: a full queue loses its tail, whose hold is released first (R57). -/
def Engines.pushPrompt (A : Ambient) (e : Engines) (d : Nat) (p : Prompt) : Engines :=
  let q := e.promptsOf d
  if q.length < Config.promptPlaces then e.placePrompt A d p q
  else (e.release ((q.getLast?).bind Prompt.hold)).placePrompt A d p q.dropLast

/-- A prompt is the WAITING prompt of a ticket (R58). -/
def Prompt.waitsFor (t : Nat) (p : Prompt) : Bool := p.kind == .waiting && p.ticket == some t

/-- Replace the WAITING prompt of a ticket by a prompt at the head, or push it when it has been pushed out (R58). -/
def Engines.replacePrompt (A : Ambient) (e : Engines) (d : Nat) (t : Nat) (p : Prompt) : Engines :=
  let q := e.promptsOf d
  if q.any (Prompt.waitsFor t) then e.placePrompt A d p (q.eraseP (Prompt.waitsFor t))
  else e.pushPrompt A d p

/-- Remove every prompt of a terminal, releasing the holds (R62). -/
def Engines.removePrompts (e : Engines) (d : Nat) : Engines :=
  let q := e.promptsOf d
  let e := q.foldl (fun e p => e.release p.hold) e
  (e.storePrompts d []).handPrompts d

/-! ## Entries -/

/-- Remove an entry of the table and release its place (R42). -/
def Engines.endEntry (e : Engines) (x : Entry) : Engines :=
  { e with
    dest := { e.dest with entries := e.dest.entries.filter (fun y => y.ticket != x.ticket) }
    timers := e.timers.release x.place }

/-- Cancel a terminal's entries, oldest first, one ENTRY_CANCELLED report each, then remove its prompts (R52, R53,
R62). -/
def Engines.cancelTerminal (A : Ambient) (e : Engines) (d : Nat) (why : Reason) : Engines :=
  let mine := e.dest.entries.filter fun x => x.terminal == d
  let e := mine.foldl (fun e x => (e.endEntry x).report A (.entryCancelled x.ticket d why)) e
  e.removePrompts d

/-! ## Stop lists (4.6) -/

def holdsStop (l : List Stop) (f : Nat) : Bool := l.any fun x => x.floor == f

/-- One rider more, at most 255 (R66). -/
def Stop.boarded (x : Stop) : Stop := { x with riders := min (x.riders + 1) 255 }

/-- Insert a floor in ascending order with rider count 1 (R66). -/
def insertStop : List Stop → Nat → List Stop
  | [], f => [⟨f, 1⟩]
  | x :: xs, f => if f < x.floor then ⟨f, 1⟩ :: x :: xs else x :: insertStop xs f

/-- Raise the rider count of a floor in the list, or insert the floor (R66). -/
def addStop (l : List Stop) (f : Nat) : List Stop :=
  if holdsStop l f then l.map fun x => if x.floor = f then x.boarded else x else insertStop l f

/-- A car's stop list. -/
def Engines.stopsOf (e : Engines) (c : Fin 48) : List Stop := e.dest.stops[c]

def Engines.setStops (e : Engines) (c : Fin 48) (l : List Stop) : Engines :=
  { e with dest := { e.dest with stops := e.dest.stops.set c l } }

/-- Remove the stops at the arrived floors, whatever their rider counts (R68). -/
def Engines.removeStops (e : Engines) (c : Fin 48) (floors : List Nat) : Engines :=
  e.setStops c ((e.stopsOf c).filter fun x => !floors.contains x.floor)

/-- Empty a stop list that is not empty, with one STOPS_DROPPED report (R11, R69). -/
def Engines.dropStops (A : Ambient) (e : Engines) (c : Fin 48) : Engines :=
  let l := e.stopsOf c
  if l.isEmpty then e
  else (e.setStops c []).report A (.stopsDropped c l.length (l.map Stop.riders).sum)

end Sys2Proof.Machine
end

