-- ==== Sys2Proof/Machine/Notices.lean ====
section
/-! DEFINITION. Playout contexts: targets, NOTICE owners, claims, suspension and resumption (chapter 6). -/

namespace Sys2Proof.Machine

/-- A context of the table. -/
def ctxOf (play : Vector Context 16) (c : Fin 16) : Context := play[c]

def Engines.ctx (e : Engines) (c : Fin 16) : Context := ctxOf e.play c

def Engines.setPlay (e : Engines) (v : Vector Context 16) : Engines := { e with play := v }

def Engines.onCtx (e : Engines) (c : Fin 16) (g : Context → Context) : Engines :=
  e.setPlay (upd e.play c g)

/-- PLAYING or SUSPENDED: the context has targets and owns layers (6.2). -/
def Context.active (x : Context) : Bool := x.state == .playing || x.state == .suspended

/-- Bit of a class in a class mask: 0 HALL_MATRIX, 1 CAR_MATRIX, 2 TERMINAL; segment classes have none (12.3). -/
def classBit : DisplayClass → Option Nat
  | .hallMatrix => some 0
  | .carMatrix => some 1
  | .terminal => some 2
  | .hallSegment => none
  | .carSegment => none

/-- A floor lies in a range; a floor of none does not. -/
def floorIn (f : Option Nat) (first last : Nat) : Bool :=
  match f with
  | some x => decide (first ≤ x ∧ x ≤ last)
  | none => false

/-- A face is a target of a playout record (R95). -/
def isTarget (r : Rec4) (f : Face) : Bool :=
  match classBit f.cls with
  | none => false
  | some b =>
    r.ploClasses.getLsbD b && (f.scope &&& r.ploGroups) != 0 &&
      (f.cls == .carMatrix || floorIn f.floor r.ploFirst r.ploLast)

/-- The target set a record gives, in ascending display index (R95). -/
def targetsOf (faces : Tab Face) (r : Rec4) : List Nat := (faces.filter fun x => isTarget r x.2).map Prod.fst

/-- The faces of the classes that hold a NOTICE layer. -/
def holdsNotice (f : Face) : Bool := (classBit f.cls).isSome

/-- The NOTICE owner of a display: the lowest-numbered active context that targets it (R96). -/
def noticeOwner (play : Vector Context 16) (d : Nat) : Option (Fin 16) :=
  (List.finRange 16).find? fun c => (ctxOf play c).active && (ctxOf play c).targets.contains d

/-- The NOTICE layer a context hands (R96). The languages waited for are kept in rotation order, and two layers that differ
in it alone are different content: log entry 42. -/
def noticeOf (c : Fin 16) (x : Context) : NoticeShow :=
  let r := x.accepted.getD Rec4.zero
  ⟨c, r.ploMsg, x.lang, if x.lang.isSome then [] else r.ploRotation⟩

/-- Choose a display's NOTICE owner anew and hand or withdraw the layer (R96). -/
def Engines.handNotice (e : Engines) (d : Nat) : Engines :=
  e.updFace d fun f =>
    { f with notice :=
        if holdsNotice f then (noticeOwner e.play d).map (fun c => noticeOf c (e.ctx c)) else none }

/-- Choose the owners of several displays anew, in the order given. -/
def Engines.handNotices (e : Engines) (ds : List Nat) : Engines := ds.foldl Engines.handNotice e

/-- Hand again the NOTICE layers of a context's targets, in ascending display index (R96). -/
def Engines.handTargets (e : Engines) (c : Fin 16) : Engines := e.handNotices (e.ctx c).targets

/-! ## Claims and releases of DWELL places -/

/-- Claim a context's DWELL place with a first expiry some ms ahead; a refusal is reported and leaves the context with
no place (R98, R101). -/
def Engines.claimDwell (A : Ambient) (e : Engines) (c : Fin 16) (ahead : Nat) : Engines :=
  let x := e.ctx c
  match e.timers.claim .dwell (.context c) (later A.now ahead) (x.accepted.getD Rec4.zero).ploDwell 0 with
  | (tm, some id) => (e.setTimers tm).onCtx c fun x => { x with place := some id }
  | (_, none) =>
    (e.onCtx c fun x => { x with place := none }).report A
      (.timerRefused c .dwell ((x.lang.map Fin.val).getD 255) 0)

/-- Release a context's DWELL place, where it holds one. -/
def Engines.releaseDwell (e : Engines) (c : Fin 16) : Engines :=
  (e.release (e.ctx c).place).onCtx c fun x => { x with place := none }

/-- Every display of a target set lies under an override slot in force. -/
def allCovered (faces : Tab Face) (ds : List Nat) : Bool :=
  ds.all fun d => match faces.get d with
    | some f => f.cover.isSome
    | none => false

/-- Suspend a PLAYING context: save what is left of the dwell, release the place (R102). -/
def Engines.suspend (A : Ambient) (e : Engines) (c : Fin 16) : Engines :=
  let x := e.ctx c
  let saved := match x.place with
    | some id => e.timers.remaining A.now id
    | none => (x.accepted.getD Rec4.zero).ploDwell
  (e.releaseDwell c).onCtx c fun x => { x with state := .suspended, saved := saved }

/-- Resume a SUSPENDED context: PLAYING, with a place for the saved remaining dwell (R103). -/
def Engines.resume (A : Ambient) (e : Engines) (c : Fin 16) : Engines :=
  let e := e.onCtx c fun x => { x with state := .playing }
  e.claimDwell A c (e.ctx c).saved

/-- A target event of a context: the suspension test of a PLAYING one, which tries a refused claim again; the
resumption test of a SUSPENDED one (R97, R101 to R103). -/
def Engines.targetEvent (A : Ambient) (e : Engines) (c : Fin 16) : Engines :=
  let x := e.ctx c
  match x.state with
  | .playing =>
    if !x.targets.isEmpty && allCovered e.face.faces x.targets then e.suspend A c
    else if x.place.isNone then e.claimDwell A c (x.accepted.getD Rec4.zero).ploDwell
    else e
  | .suspended => if x.targets.isEmpty || !allCovered e.face.faces x.targets then e.resume A c else e
  | .idle => e
  | .done => e

/-! ## Notices from the Face Table (R97) -/

/-- A context's target set with one display put in or taken out, as R95 now gives; a removed face is in no set. -/
def retarget (faces : Tab Face) (d : Nat) (x : Context) : Context :=
  if x.active then
    let is := match faces.get d with
      | some f => isTarget (x.accepted.getD Rec4.zero) f
      | none => false
    { x with targets := if is then insertNat x.targets d else x.targets.erase d }
  else x

/-- The Playout Engine is told of a face created, removed, rebuilt, or given a new display floor or scope groups:
target sets first, then the tests of the contexts whose set changed, then the owner (R97). A rebuild that leaves a set as
it was is no target event: log entry 41. -/
def Engines.targetNotice (A : Ambient) (e : Engines) (d : Nat) : Engines :=
  let old := e.play
  let e := e.setPlay ((List.finRange 16).foldl (fun p c => upd p c (retarget e.face.faces d)) e.play)
  let e := (List.finRange 16).foldl
    (fun acc c => if (e.ctx c).targets = (ctxOf old c).targets then acc else acc.targetEvent A c) e
  e.handNotice d

/-- The cover notice: the tests of each context whose target set holds a display named (R86, R97). -/
def Engines.coverNotice (A : Ambient) (e : Engines) (ds : List Nat) : Engines :=
  let e' := (List.finRange 16).foldl
    (fun acc c => if (acc.ctx c).targets.any ds.contains then acc.targetEvent A c else acc) e
  e'.handNotices ds

/-! ## Rotation (6.4) -/

/-- The first index of a rotation, from `i` on, whose language is READY. -/
def firstReady (ready : Fin 16 → Bool) : List (Fin 16) → Nat → Option (Nat × Fin 16)
  | [], _ => none
  | l :: ls, i => if ready l then some (i, l) else firstReady ready ls (i + 1)

/-- A context at the lowest READY index of its rotation, or at index 0 with language NONE (R93, R99). -/
def Context.atFirst (ready : Fin 16 → Bool) (rot : List (Fin 16)) (x : Context) : Context :=
  match firstReady ready rot 0 with
  | some (i, l) => { x with index := i, lang := some l }
  | none => { x with index := 0, lang := none }

/-- What an expiry does to a context's position: the next READY index; past the last index the pass ends, the remaining
count falls, and the context is complete (second component true) when it reaches 0 (R99). -/
def Context.advance (ready : Fin 16 → Bool) (r : Rec4) (x : Context) : Context × Bool :=
  let rot := r.ploRotation
  match firstReady ready (rot.drop (x.index + 1)) (x.index + 1) with
  | some (i, l) => ({ x with index := i, lang := some l }, false)
  | none =>
    if r.ploRepeat = 0 then (x.atFirst ready rot, false)
    else if x.remaining ≤ 1 then ({ x with remaining := 0 }, true)
    else ({ x with remaining := x.remaining - 1 }.atFirst ready rot, false)

/-- A context whose language has become READY while its own was NONE takes the lowest READY index of its rotation
(R100). -/
def Engines.ctxReady (A : Ambient) (e : Engines) (lang : Fin 16) (c : Fin 16) : Engines :=
  let x := e.ctx c
  let rot := (x.accepted.getD Rec4.zero).ploRotation
  if x.active && x.lang.isNone && rot.contains lang then
    (e.onCtx c fun x => x.atFirst A.ready rot).handTargets c
  else e

end Sys2Proof.Machine
end

