-- ==== Sys2Proof/Machine/Cover.lean ====
section
/-! DEFINITION. Override cover: scope, onset, release, transfer (5.5, 5.6), and the rotation of override text (5.7). -/

namespace Sys2Proof.Machine

/-! ## Scope (R81) -/

/-- Car classes are scoped by their car's group alone. -/
def DisplayClass.isCar : DisplayClass → Bool
  | .carSegment | .carMatrix => true
  | .hallSegment | .hallMatrix | .terminal => false

/-- A face lies in the scope of a slot record (R81). -/
def Rec4.covers (r : Rec4) (f : Face) : Bool :=
  r.ovrInForce && (f.scope &&& r.ovrGroups) != 0 && (f.cls.isCar || floorIn f.floor r.ovrFirst r.ovrLast)

/-- An override slot. -/
def slotOf (slots : Vector OverrideSlot 4) (k : Fin 4) : OverrideSlot := slots[k]

/-- The covering slot: the lowest-numbered one in whose scope the face lies (R81). -/
def coverOf (slots : Vector OverrideSlot 4) (f : Face) : Option (Fin 4) :=
  (List.finRange 4).find? fun k => (slotOf slots k).record.covers f

/-! ## Onset, release and transfer -/

/-- The onset of cover (R83): the OVERRIDE layer with its mark, the strokes cleared, and a terminal's entries and
prompts cancelled. -/
def Engines.onset (A : Ambient) (e : Engines) (d : Nat) (k : Fin 4) (cls : DisplayClass) : Engines :=
  let e := e.updFace d fun f => { f with cover := some k, strokes := 0 }
  if cls = .terminal then e.cancelTerminal A d .override else e

/-- The release of cover (R84). -/
def Engines.uncover (e : Engines) (d : Nat) : Engines := e.updFace d fun f => { f with cover := none }

/-- A transfer of cover: the content is compared with the one shown under the old slot (R85). -/
def Engines.transfer (e : Engines) (shown : Vector OverrideSlot 4) (d : Nat) (k : Fin 4) : Engines :=
  e.updFaceFrom shown d fun f => { f with cover := some k }

/-- Carry out the change of one display's covering slot; `shown` are the slots as they were before the event. -/
def Engines.moveCover (A : Ambient) (e : Engines) (shown : Vector OverrideSlot 4) (d : Nat) (old new : Option (Fin 4))
    (cls : DisplayClass) : Engines :=
  match old, new with
  | none, none => e
  | none, some k => e.onset A d k cls
  | some _, none => e.uncover d
  | some a, some k => if a = k then e else e.transfer shown d k

/-- A display whose covering slot an event changes: its index, its class, the slot before and after. -/
structure CoverMove where
  display : Nat
  cls : DisplayClass
  old : Option (Fin 4)
  new : Option (Fin 4)
  deriving DecidableEq, Repr

/-- The displays among `ds` whose covering slot, computed anew, differs from the one they hold (R82, R86 step 1). -/
def coverMoves (e : Engines) (ds : List Nat) : List CoverMove :=
  (ds.filterMap fun d => (e.faceOf d).map fun f => ⟨d, f.cls, f.cover, coverOf e.face.slots f⟩).filter
    fun m => m.old != m.new

/-- Onset or release, not transfer: what the Playout Engine is told of. -/
def CoverMove.notified (m : CoverMove) : Bool := m.old.isNone || m.new.isNone

/-- An event that may change the cover of the displays `ds` (R86): the moves in ascending display index, then one
notice to the Playout Engine when an onset or a release occurred. `shown` are the slots as they were before the event. -/
def Engines.coverEventFrom (A : Ambient) (e : Engines) (shown : Vector OverrideSlot 4) (ds : List Nat) : Engines :=
  let moves := coverMoves e ds
  let e := moves.foldl (fun e m => e.moveCover A shown m.display m.old m.new m.cls) e
  let named := (moves.filter CoverMove.notified).map CoverMove.display
  if named.isEmpty then e else e.coverNotice A named

/-- An event that leaves the slots as they are and may change the cover of the displays `ds` (R86). -/
def Engines.coverEvent (A : Ambient) (e : Engines) (ds : List Nat) : Engines := e.coverEventFrom A e.face.slots ds

/-! ## Override text rotation (R88, R89) -/

/-- The lowest-numbered READY language. -/
def lowestReady (ready : Fin 16 → Bool) : Option (Fin 16) := (List.finRange 16).find? fun l => ready l

/-- The next READY language above one, wrapping from 15 to 0; the same one when no other is READY and it still is;
none when none is READY (R89). -/
def nextReady (ready : Fin 16 → Bool) (l : Fin 16) : Option (Fin 16) :=
  let after := (List.finRange 16).filter fun x => l < x
  let upTo := (List.finRange 16).filter fun x => x ≤ l
  (after ++ upTo).find? fun x => ready x

/-- Claim a slot's OVERRIDE_DWELL place; a refusal is reported (R88, R89). -/
def Engines.claimOverride (A : Ambient) (e : Engines) (k : Fin 4) : Engines :=
  match e.timers.claim .overrideDwell (.slot k) (later A.now Config.overrideDwell) Config.overrideDwell 0 with
  | (tm, some id) => (e.setTimers tm).onSlot k fun x => { x with place := some id }
  | (_, none) =>
    e.report A (.timerRefused k .overrideDwell (((slotOf e.face.slots k).lang.map Fin.val).getD 255) 0)

/-- A slot with a newly accepted record and the language that goes with it: the lowest READY one when the slot comes into
force or its message changes, none when it is CLEAR (R80, R88). -/
def OverrideSlot.taken (ready : Fin 16 → Bool) (r : Rec4) (x : OverrideSlot) : OverrideSlot :=
  { x with
    record := r
    lang :=
      if r.ovrInForce then
        if x.record.ovrInForce ∧ x.record.ovrMsg = r.ovrMsg then x.lang else lowestReady ready
      else none }

/-- The place of a slot after an accepted record: claimed for an IN_FORCE slot that holds none, released for a CLEAR one
(R88). Any accepted IN_FORCE record claims it, be it one that changes no named field: log entry 39. -/
def Engines.settlePlace (A : Ambient) (e : Engines) (k : Fin 4) : Engines :=
  let x := slotOf e.face.slots k
  if x.record.ovrInForce then if x.place.isSome then e else e.claimOverride A k
  else (e.release x.place).onSlot k fun x => { x with place := none }

/-- An accepted slot record (R80): the record with its language, the scope of every face with its onsets, releases and
transfers, the marks of the faces it keeps covering and whose content it changes (R87), and last the place. Content is
compared with what was shown before the event (R75, R85). The order is log entry 27. -/
def Engines.acceptSlot (A : Ambient) (e : Engines) (k : Fin 4) (r : Rec4) : Engines :=
  let before := e.face.slots
  let e1 := e.onSlot k (OverrideSlot.taken A.ready r)
  let e2 := e1.coverEventFrom A before (Tab.keys e1.face.faces)
  let kept := e.face.faces.filter fun x => x.2.cover == some k
  let e3 := kept.foldl
    (fun acc x =>
      if coverOf e1.face.slots x.2 = some k ∧ x.2.visible e1.face.slots ≠ x.2.visible before then
        acc.changeMark x.1 false
      else acc) e2
  e3.settlePlace A k

/-- The check of a slot record (R80). -/
def checkSlot (r : Rec4) : Option Reason :=
  if 1 < r.ovrStateCode then some .badValue
  else if r.ovrInForce ∧ ((Arrow.ofCode r.ovrArrowCode).isNone ∨ r.ovrLast < r.ovrFirst) then some .badValue
  else none

/-- A language has become READY: REFRESH marks, then the IN_FORCE slots on NONE, then the contexts on NONE
(R79, R89, R100, R118). The order of these, and of faces, slots and contexts among themselves, is the model's choice: log
entry 37. -/
def Engines.languageReady (A : Ambient) (e : Engines) (l : Fin 16) : Engines :=
  let waiting := (e.face.faces.filter fun x => x.2.waitGlyphs.contains l).map Prod.fst
  let e := waiting.foldl Engines.refreshMark e
  let e := (List.finRange 4).foldl
    (fun acc k =>
      let x := slotOf acc.face.slots k
      if x.record.ovrInForce && x.lang.isNone then
        acc.updSlot k fun x => { x with lang := lowestReady A.ready }
      else acc) e
  (List.finRange 16).foldl (fun acc c => acc.ctxReady A l c) e

/-- A delivered OVERRIDE_DWELL place: the slot moves to the next READY language (R89). -/
def Engines.rotateSlot (A : Ambient) (e : Engines) (k : Fin 4) : Engines :=
  e.updSlot k fun x =>
    { x with lang := match x.lang with
        | some l => nextReady A.ready l
        | none => lowestReady A.ready }

end Sys2Proof.Machine
end

