-- ==== Sys2Proof/Machine/Indicate.lean ====
section
/-! DEFINITION. The Indication Engine: deck floors, BASE content, arrivals and arrival signals (chapters 1 and 2). -/

namespace Sys2Proof.Machine

/-! ## Tables -/

def Indication.groupOf (i : Indication) (g : Fin 8) : Rec8 := i.groups[g]
def Indication.carOf (i : Indication) (c : Fin 48) : Car := i.cars[c]
def Indication.signalOf (i : Indication) (c : Fin 48) : Signal := i.signals[c]

def Engines.setGroup (e : Engines) (g : Fin 8) (r : Rec8) : Engines :=
  { e with ind := { e.ind with groups := e.ind.groups.set g r } }
def Engines.setLabels (e : Engines) (t : Tab Rec4) : Engines := { e with ind := { e.ind with labels := t } }
def Engines.setCars (e : Engines) (v : Vector Car 48) : Engines := { e with ind := { e.ind with cars := v } }

def Engines.onCar (e : Engines) (c : Fin 48) (g : Car → Car) : Engines :=
  e.setCars (upd e.ind.cars c g)

def Engines.onSignal (e : Engines) (c : Fin 48) (g : Signal → Signal) : Engines :=
  { e with ind := { e.ind with signals := upd e.ind.signals c g } }

/-- The group of a car's accepted record; a car is PRESENT exactly when there is one (R6). -/
def Car.group (x : Car) : Option (Fin 8) := x.accepted.bind Rec4.carGroup

/-- The accepted record and group record of a car that is PRESENT in a PRESENT group. -/
def Indication.live (i : Indication) (c : Fin 48) : Option (Rec4 × Rec8) :=
  match (i.carOf c).accepted, (i.carOf c).group with
  | some r, some g => if (i.groupOf g).groupPresent then some (r, i.groupOf g) else none
  | _, _ => none

/-! ## Deck floors (R9) -/

/-- The floor of a landing that may be absent. -/
def Rec8.floorOpt (g : Rec8) (l : Option Nat) : Option Nat := l.bind g.floorOf

/-- The lower deck floor of a record in its group. -/
def lowerFloor (g : Rec8) (r : Rec4) : Option Nat := g.floorOpt r.carLanding

/-- The upper deck floor: that of the landing above in a DOUBLE group, none in a SINGLE one. -/
def upperFloor (g : Rec8) (r : Rec4) : Option Nat := if g.double then g.floorOpt (r.carLanding.map (· + 1)) else none

/-- A car with its deck floors derived from its accepted record and its group (R9). -/
def Indication.derived (i : Indication) (x : Car) : Car :=
  match x.accepted, x.group with
  | some r, some g => { x with lower := lowerFloor (i.groupOf g) r, upper := upperFloor (i.groupOf g) r }
  | _, _ => { x with lower := none, upper := none }

/-- The target floor of a deck (R9). -/
def targetFloor (g : Rec8) (r : Rec4) (deck : Nat) : Option Nat :=
  if 127 < r.carTarget then none
  else if deck = 0 then g.floorOf r.carTarget
  else if g.double then g.floorOf (r.carTarget + 1)
  else none

/-! ## BASE content (R18 to R20) -/

/-- The lantern state a display bound to (car, landing) shows (R22). -/
def Signal.show (x : Signal) (landing : Nat) : LanternShow :=
  let mine := match x.landing with
    | some l => landing == l || (x.two && landing == l + 1)
    | none => false
  if mine then
    match x.lantern with
    | .none => .off (some x.lit)
    | .up => .up x.lit
    | .down => .down x.lit
  else .off none

def nameOfFloor (i : Indication) (f : Option Nat) : Option MatrixName := f.bind (matrixName i.labels)

def segmentOfFloor (i : Indication) : Option Nat → Word
  | some f => segmentName i.labels f
  | none => 0

/-- The first 8 stops in travel order: descending when motion is DOWN, ascending otherwise (R19). -/
def shownStops (stops : List Stop) (motion : Arrow) : List Nat :=
  ((if motion = .down then stops.reverse else stops).map Stop.floor).take 8

/-- Motion as an arrow. -/
def Rec4.arrow (r : Rec4) : Arrow := r.carMotion.getD .none

/-- The index of the shown stop equal to the target floor (R19). -/
def highlight (shown : List Nat) (target : Option Nat) : Option Nat :=
  match target with
  | some f => if shown.contains f then some (shown.idxOf f) else none
  | none => none

/-- BASE content of a CAR_MATRIX display (R19). Of the shown stops it holds the names, not the floors, so a change to other
floors with equal names is no change of content: log entry 50. -/
def carMatrixBase (e : Engines) (c : Fin 48) (deck : Nat) : BaseContent :=
  match e.ind.live c with
  | none => .carMatrix none
  | some (r, g) =>
    let x := e.ind.carOf c
    let shown := shownStops (e.stopsOf c) r.arrow
    .carMatrix (some
      { name := r.carName
        position := nameOfFloor e.ind (if deck = 0 then x.lower else x.upper)
        arrow := r.arrow
        stops := shown.map (matrixName e.ind.labels)
        target := highlight shown (targetFloor g r deck)
        mode := byteOf r.w1 0
        load := byteOf r.w1 1 })

/-- One listed car of a HALL_MATRIX display (R20). -/
def hallEntry (i : Indication) (landing : Nat) (x : Car) (r : Rec4) : HallEntry :=
  { name := r.carName
    position := nameOfFloor i x.lower
    arrow := r.arrow
    unavailable := r.carOutOfService
    full := r.carLoad == some .full || r.carLoad == some .overload
    here := r.carPosition == landing && r.carMotion == some .none &&
      (r.carDoor == some .opening || r.carDoor == some .open) }

/-- BASE content of a HALL_MATRIX display: the first 8 PRESENT cars of the group (R20). -/
def hallMatrixBase (i : Indication) (g : Fin 8) (landing : Nat) : BaseContent :=
  if (i.groupOf g).groupPresent then
    .hallMatrix (((List.finRange 48).filterMap fun c =>
      match (i.carOf c).accepted with
      | some r => if r.carGroup = some g then some (hallEntry i landing (i.carOf c) r) else none
      | none => none).take 8)
  else .hallMatrix []

/-- The BASE content of a face, from its class and binding (R17 to R20). -/
def deriveBase (A : Ambient) (e : Engines) (f : Face) : BaseContent :=
  match f.cls with
  | .hallSegment =>
    match toFin 48 f.bindA with
    | none => .hallSegment 0 .none (.off none)
    | some c =>
      match e.ind.live c with
      | none => .hallSegment 0 .none (.off none)
      | some (r, _) =>
        .hallSegment (segmentOfFloor e.ind (e.ind.carOf c).lower) r.arrow ((e.ind.signalOf c).show f.bindB)
  | .carSegment =>
    match toFin 48 f.bindA with
    | none => .carSegment 0 .none
    | some c =>
      match e.ind.live c with
      | none => .carSegment 0 .none
      | some (r, _) =>
        let x := e.ind.carOf c
        .carSegment (segmentOfFloor e.ind (if f.bindB = 0 then x.lower else x.upper)) r.arrow
  | .carMatrix =>
    match toFin 48 f.bindA with
    | none => .carMatrix none
    | some c => carMatrixBase e c f.bindB
  | .hallMatrix =>
    match toFin 8 f.bindA with
    | none => .hallMatrix []
    | some g => hallMatrixBase e.ind g f.bindB
  | .terminal => .terminal A.settings.idleMsg

/-- The display floor (R17). -/
def deriveFloor (i : Indication) (f : Face) : Option Nat :=
  match f.cls with
  | .hallSegment => (toFin 48 f.bindA).bind fun c => (i.live c).bind fun x => x.2.floorOf f.bindB
  | .hallMatrix => (toFin 8 f.bindA).bind fun g => (i.groupOf g).floorOf f.bindB
  | .terminal => some f.bindB
  | .carSegment => none
  | .carMatrix => none

/-- The scope groups (R81). -/
def deriveScope (i : Indication) (f : Face) : BitVec 8 :=
  match f.cls with
  | .terminal => BitVec.ofNat 8 f.bindA
  | .hallMatrix =>
    match toFin 8 f.bindA with
    | some g => if (i.groupOf g).groupPresent then maskOf g else 0
    | none => 0
  | .hallSegment | .carSegment | .carMatrix =>
    match (toFin 48 f.bindA).bind fun c => (i.carOf c).group with
    | some g => maskOf g
    | none => 0

/-- A face with its BASE content, display floor and scope groups derived anew. -/
def refreshed (A : Ambient) (e : Engines) (f : Face) : Face :=
  { f with base := deriveBase A e f, floor := deriveFloor e.ind f, scope := deriveScope e.ind f }

/-- Derive the BASE content of every display anew and hand what has changed, in ascending display index, with the
display floor and scope groups; then the cover of the displays whose floor or scope changed, then the notices to the
Playout Engine (R17, R82, R86, R97; the order among displays is log entry 12, that of the notices log entry 13). -/
def Engines.rederive (A : Ambient) (e : Engines) : Engines :=
  let moved := (e.face.faces.filter fun x =>
    decide (deriveFloor e.ind x.2 ≠ x.2.floor ∨ deriveScope e.ind x.2 ≠ x.2.scope)).map Prod.fst
  let e := (Tab.keys e.face.faces).foldl (fun acc d => acc.updFace d (refreshed A acc)) e
  let e := e.coverEvent A moved
  moved.foldl (fun acc d => acc.targetNotice A d) e

/-- Hand the PROMPT layer of every terminal anew: the floor names in it may have changed (R63). -/
def Engines.rehandPrompts (e : Engines) : Engines := (Tab.keys e.dest.prompts).foldl Engines.handPrompts e

/-! ## Arrival signals (chapter 2) -/

/-- A lantern is running (R22). -/
def Signal.running (x : Signal) : Bool := x.lantern != .none

/-- End a car's running lantern: both places released, the record OFF (R29). BASE content follows by `rederive`. -/
def Engines.endLantern (e : Engines) (c : Fin 48) : Engines :=
  let x := e.ind.signalOf c
  if x.running then ((e.release x.lanternPlace).release x.gongPlace).onSignal c fun _ => Signal.reset else e

/-- A running lantern is kept by an accepted record (R28, last row of the table). -/
def Signal.keptBy (x : Signal) (r : Rec4) : Bool :=
  (r.carDoor == some .opening || r.carDoor == some .open) && r.carInService && r.carGroup.isSome &&
    r.carGroup == x.group && some r.carPosition == x.landing && r.carMotion == some .none

/-- Claim the LANTERN place of an arrival; a refusal leaves the lantern steady and is reported (R24, R30). -/
def Engines.claimLantern (A : Ambient) (e : Engines) (c : Fin 48) (g : Rec8) (landing : Nat) : Engines :=
  if g.flashCount = 0 then e
  else
    match e.timers.claim .lantern (.car c) (later A.now g.lanternInterval) g.lanternInterval (2 * g.flashCount) with
    | (tm, some id) => (e.setTimers tm).onSignal c fun x => { x with lanternPlace := some id }
    | (_, none) => e.report A (.timerRefused c .lantern landing 0)

/-- Claim the GONG place of an arrival: 1 stroke for UP, 2 for DOWN (R25, R30). -/
def Engines.claimGong (A : Ambient) (e : Engines) (c : Fin 48) (dir : Arrow) (landing : Nat) : Engines :=
  match e.timers.claim .gong (.car c) A.now A.settings.gongSpacing (if dir = .down then 2 else 1) with
  | (tm, some id) => (e.setTimers tm).onSignal c fun x => { x with gongPlace := some id }
  | (_, none) => e.report A (.timerRefused c .gong landing 0)

/-- Next direction of a record. -/
def Rec4.arrowNext (r : Rec4) : Arrow := r.carNext.getD .none

/-- Start the arrival signals from the accepted record (R23). -/
def Engines.startSignals (A : Ambient) (e : Engines) (c : Fin 48) (r : Rec4) (gi : Fin 8) : Engines :=
  let g := e.ind.groupOf gi
  let landing := r.carPosition
  let e := e.onSignal c fun x => { x with landing := some landing, two := g.double, group := some gi }
  match r.arrowNext with
  | .none => e
  | dir =>
    let e := e.onSignal c fun x => { x with lantern := dir, lit := true }
    (e.claimLantern A c g landing).claimGong A c dir landing

/-- The conditions of an arrival, on the accepted record and the previous door (R13). -/
def isArrival (r : Rec4) (prev : Option Door) : Bool :=
  r.carGroup.isSome && r.carLanding.isSome && r.carMotion == some .none && r.carDoor == some .opening &&
    (prev == some .closed || prev == some .closing)

/-- An arrival: the stops at the arrived floors are removed, then the signals start in a mode that announces
(R14). -/
def Engines.arrive (A : Ambient) (e : Engines) (c : Fin 48) (r : Rec4) (g : Fin 8) : Engines :=
  let x := e.ind.carOf c
  let e := e.removeStops c (x.lower.toList ++ x.upper.toList)
  if r.carInService then e.startSignals A c r g else e

/-- The lantern test and then the arrival test of an accepted record (R8 fifth step, R28). -/
def Engines.signalTests (A : Ambient) (e : Engines) (c : Fin 48) (r : Rec4) : Engines :=
  let e := if (e.ind.signalOf c).keptBy r then e else e.endLantern c
  match r.carGroup with
  | some g => if isArrival r (e.ind.carOf c).prevDoor then e.arrive A c r g else e
  | none => e

/-- The check of a car record (R7). A position EXPRESS or UNKNOWN passes in a group with no used span, where R2 says otherwise:
log entry 47. -/
def checkCar (i : Indication) (r : Rec4) : Option Reason :=
  if r.carGroupCode = 255 then none
  else
    match r.carGroup with
    | none => some .badValue
    | some g =>
      if r.carMode.isNone ∨ r.carLoad.isNone ∨ r.carNext.isNone ∨ r.carMotion.isNone ∨ r.carDoor.isNone ∨
          (127 < r.carTarget ∧ r.carTarget ≠ 255) then some .badValue
      else if ¬ (i.groupOf g).groupPresent then some .noGroup
      else
        match r.carLanding with
        | none => if r.carPosition = 254 ∨ r.carPosition = 255 then none else some .badLanding
        | some l =>
          if ((i.groupOf g).floorOf l).isNone then some .badLanding
          else if (i.groupOf g).double ∧ ((i.groupOf g).floorOf (l + 1)).isNone then some .badLanding
          else none

/-- A car with a new accepted record: the door it replaces becomes the previous door, the floors are derived
(R8, first to third step). -/
def Indication.taken (i : Indication) (r : Rec4) (x : Car) : Car :=
  i.derived { x with prevDoor := x.accepted.bind Rec4.carDoor, accepted := some r }

/-- An accepted car record, in the steps of R8. -/
def Engines.acceptCar (A : Ambient) (e : Engines) (c : Fin 48) (r : Rec4) : Engines :=
  let e := e.onCar c (e.ind.taken r)
  let e := if r.carOutOfService then e.dropStops A c else e
  let e := e.signalTests A c r
  e.rederive A

/-! ## Group and label records -/

/-- Two spans share a landing. -/
def Span.meets (p q : Span) : Bool := decide (p.first ≤ q.last ∧ q.first ≤ p.last)

/-- Two spans share a building floor. -/
def Span.overlaps (p q : Span) : Bool :=
  decide (p.base ≤ q.base + (q.last - q.first) ∧ q.base ≤ p.base + (p.last - p.first))

/-- No two elements of a list are related. -/
def noPair {α : Type} (rel : α → α → Bool) : List α → Bool
  | [] => true
  | x :: xs => !xs.any (rel x) && noPair rel xs

/-- The check of a group record (R2). -/
def checkGroup (r : Rec8) : Option Reason :=
  if 1 < r.groupStateCode then some .badValue
  else if ¬ r.groupPresent then none
  else if 1 < r.deckCode ∨ r.lanternInterval < 100 ∨ 1000 < r.lanternInterval ∨ 15 < r.flashCount then some .badValue
  else if ¬ r.spans.all (fun p => decide (p.first ≤ 127 ∧ p.last ≤ 127 ∧ p.first ≤ p.last)) then some .badSpans
  else if ¬ r.spans.all (fun p => decide (p.base + (p.last - p.first) ≤ 255)) then some .badSpans
  else if ¬ noPair Span.meets r.spans then some .badSpans
  else if ¬ noPair Span.overlaps r.spans then some .badSpans
  else none

/-- The cars whose accepted record names a group. -/
def carsOf (i : Indication) (g : Fin 8) : List (Fin 48) :=
  (List.finRange 48).filter fun c => (i.carOf c).group == some g

/-- An accepted group record (R4, R5): the lanterns of a group withdrawn are ended, and the floors of its cars and the
content of every display follow. -/
def Engines.acceptGroup (A : Ambient) (e : Engines) (g : Fin 8) (r : Rec8) : Engines :=
  let was := (e.ind.groupOf g).groupPresent
  let cars := carsOf e.ind g
  let e := e.setGroup g r
  let e := if was && !r.groupPresent then cars.foldl Engines.endLantern e else e
  let e := cars.foldl (fun acc c => acc.onCar c acc.ind.derived) e
  e.rederive A

/-- The check of a label record (R15). -/
def checkLabel (r : Rec4) : Option Reason :=
  if 1 < r.labStateCode ∨ 1 < r.labSelectCode then some .badValue else none

/-- An accepted label record (R16, R63): every BASE content is handed before every PROMPT layer, the model's choice: log
entry 36. -/
def Engines.acceptLabel (A : Ambient) (e : Engines) (f : Nat) (r : Rec4) : Engines :=
  ((e.setLabels (e.ind.labels.put f r)).rederive A).rehandPrompts

/-- The clearing of the car table (R21): running lanterns end, every car is ABSENT, stop lists stay. -/
def Engines.clearCars (A : Ambient) (e : Engines) : Engines :=
  (((List.finRange 48).foldl Engines.endLantern e).setCars (Vector.replicate 48 Car.reset)).rederive A

/-- The clearing of the label table (R15, R63), in the order of log entry 36. -/
def Engines.clearLabels (A : Ambient) (e : Engines) : Engines :=
  ((e.setLabels []).rederive A).rehandPrompts

/-! ## Expiries of the arrival signals -/

/-- A delivered LANTERN place of a lantern that holds it: the phase turns (R24). -/
def Engines.flash (A : Ambient) (e : Engines) (c : Fin 48) (p : TimerPlace) : Engines :=
  if (e.ind.signalOf c).lanternPlace = some p.id then
    (e.onSignal c fun x =>
      { x with lit := !x.lit, lanternPlace := if p.stays then x.lanternPlace else none }).rederive A
  else e

/-- A display is one of a lantern's displays (R22). -/
def Signal.owns (x : Signal) (c : Fin 48) (f : Face) : Bool :=
  f.cls == .hallSegment && f.bindA == c.val &&
    (x.landing == some f.bindB || (x.two && x.landing.map (· + 1) == some f.bindB))

/-- A display can take a stroke: ONLINE with BASE visible (R25). -/
def Engines.eligible (e : Engines) (d : Nat) (f : Face) : Bool := e.online d && f.layer e.face.slots == .base

/-- A delivered GONG place: one stroke on the face of each eligible lantern display, at most 3 (R25), in ascending display
index, the model's choice: log entry 35. -/
def Engines.stroke (e : Engines) (c : Fin 48) (p : TimerPlace) : Engines :=
  let x := e.ind.signalOf c
  if x.gongPlace = some p.id then
    let ds := (e.face.faces.filter fun y => x.owns c y.2 && e.eligible y.1 y.2).map Prod.fst
    let e := ds.foldl (fun acc d => acc.updFace d fun f => { f with strokes := min (f.strokes + 1) 3 }) e
    e.onSignal c fun x => { x with gongPlace := if p.stays then x.gongPlace else none }
  else e

end Sys2Proof.Machine
end

