-- ==== Sys2Proof/Machine/Roster.lean ====
section
/-! DEFINITION. The roster, link setup and liveness (8.1, 8.2, R140, R141). -/

namespace Sys2Proof.Machine

/-! ## The check of a roster record (R125) -/

/-- Binding A and binding B lie in the ranges the class gives them. -/
def bindingOk (cls : DisplayClass) (a b : Nat) : Bool :=
  match cls with
  | .hallSegment => decide (a ≤ 47 ∧ b ≤ 127)
  | .carSegment => decide (a ≤ 47 ∧ b ≤ 1)
  | .carMatrix => decide (a ≤ 47 ∧ b ≤ 1)
  | .hallMatrix => decide (a ≤ 7 ∧ b ≤ 127)
  | .terminal => decide (a ≤ 255 ∧ b ≤ 255)

/-- Another PRESENT display has this link and drop. -/
def dropTaken (faces : Tab Face) (d : Nat) (n : Fin 8) (drop : Nat) : Bool :=
  faces.any fun x => x.1 != d && x.2.link == n && x.2.drop == drop

/-- How many other displays are PRESENT TERMINALs. -/
def otherTerminals (faces : Tab Face) (d : Nat) : Nat :=
  (faces.filter fun x => x.1 != d && x.2.cls == .terminal).length

def Engines.isTerminal (e : Engines) (d : Nat) : Bool :=
  match e.faceOf d with
  | some f => f.cls == .terminal
  | none => false

def checkRoster (e : Engines) (d : Nat) (r : Rec4) : Option Reason :=
  if 1 < r.rosStateCode then some .badValue
  else if ¬ r.rosPresent then none
  else
    match r.rosClass with
    | none => some .badValue
    | some cls =>
      if 7 < r.rosLinkCode ∨ r.rosDrop < 1 ∨ 63 < r.rosDrop then some .badValue
      else if dropTaken e.face.faces d r.rosLink r.rosDrop then some .duplicateDrop
      else if cls = .terminal ∧ ¬ e.isTerminal d ∧ Config.terminalPlaces ≤ otherTerminals e.face.faces d then
        some .tooManyTerminals
      else if ¬ bindingOk cls r.rosBindA r.rosBindB then some .badBinding
      else none

/-! ## Creation, removal, rebinding -/

/-- A liveness of UNPOLLED with nothing heard yet (R126). -/
def Display.fresh : Display := ⟨.unpolled, 0, 0, none⟩

/-- The face a record creates, before its content is derived (R72). -/
def newFace (r : Rec4) (cls : DisplayClass) : Face :=
  { cls := cls, bindA := r.rosBindA, bindB := r.rosBindB, link := r.rosLink, drop := r.rosDrop, floor := none,
    scope := 0, base := .terminal 0, prompt := [], notice := none, cover := none, strokes := 0, waitText := none,
    waitGlyphs := [] }

/-- The face a record creates, with content, scope and cover (R72). -/
def createdFace (A : Ambient) (e : Engines) (r : Rec4) (cls : DisplayClass) : Face :=
  let f := refreshed A e (newFace r cls)
  { f with cover := coverOf e.face.slots f }

/-- An empty prompt queue for a new TERMINAL (R56). -/
def Engines.openQueue (e : Engines) (d : Nat) (cls : DisplayClass) : Engines :=
  if cls = .terminal then e.setPrompts (e.dest.prompts.put d []) else e

/-- The prompt queue of a display that is no TERMINAL any more is removed (R56). -/
def Engines.closeQueue (e : Engines) (d : Nat) : Engines :=
  e.setPrompts (e.dest.prompts.erase d)

/-- A display becomes PRESENT (R72, R126). -/
def Engines.createDisplay (A : Ambient) (e : Engines) (d : Nat) (r : Rec4) (cls : DisplayClass) : Engines :=
  let e := e.setDisplays (e.link.displays.put d Display.fresh)
  let e := e.setFaces (e.face.faces.put d (createdFace A e r cls))
  (e.openQueue d cls).targetNotice A d

/-- A pending designation of a drop is cancelled (R126, R127). -/
def Engines.cancelPoll (e : Engines) (n : Fin 8) (drop : Nat) : Engines :=
  e.onLink n fun l => { l with pending := if l.pending = some drop then none else l.pending }

/-- A TERMINAL's entries are cancelled and its prompts removed, reason ROSTER (R53). -/
def Engines.cancelIfTerminal (A : Ambient) (e : Engines) (d : Nat) (cls : DisplayClass) : Engines :=
  if cls = .terminal then e.cancelTerminal A d .roster else e

/-- A display becomes ABSENT, in the steps of R126; the removal of its face takes it out of the queue (R72). -/
def Engines.removeDisplay (A : Ambient) (e : Engines) (d : Nat) : Engines :=
  match e.faceOf d with
  | none => e
  | some f =>
    let e := ((e.leaveQueue f.link d).cancelPoll f.link f.drop).cancelIfTerminal A d f.cls
    let e := (e.leaveQueue f.link d).closeQueue d
    let e := e.setFaces (e.face.faces.erase d)
    let e := e.targetNotice A d
    e.setDisplays (e.link.displays.erase d)

/-- A face with new roster fields (R73, second to fifth step). -/
def rebuilt (A : Ambient) (e : Engines) (r : Rec4) (cls : DisplayClass) (f : Face) : Face :=
  let f := { newFace r cls with cover := f.cover, notice := f.notice }
  let f := refreshed A e f
  { f with notice := if holdsNotice f then f.notice else none }

/-- The face of a rebound display is rebuilt, in the steps of R73. A rebuild that changes nothing visible but the strokes
gives a CHANGE mark: log entry 40. -/
def Engines.rebuildFace (A : Ambient) (e : Engines) (d : Nat) (r : Rec4) (cls old : DisplayClass) : Engines :=
  let e := e.cancelIfTerminal A d old
  let e := if old = .terminal ∧ cls ≠ .terminal then e.closeQueue d else e
  let e := if old ≠ .terminal then e.openQueue d cls else e
  let e := e.updFace d (rebuilt A e r cls)
  (e.coverEvent A [d]).targetNotice A d

/-- A PRESENT display is rebound, in the steps of R127. -/
def Engines.rebindDisplay (A : Ambient) (e : Engines) (d : Nat) (r : Rec4) (cls : DisplayClass) (f : Face) : Engines :=
  let moved := f.link != r.rosLink || f.drop != r.rosDrop
  let e := if moved then
      ((e.leaveQueue f.link d).cancelPoll f.link f.drop).onDisplay d fun x => { x with liveness := .unpolled }
    else e
  let e := e.onDisplay d fun x => { x with toggle := none }
  let e := e.rebuildFace A d r cls f.cls
  if moved then e.onDisplay d fun _ => Display.fresh else e

/-- The record differs from the face in class, binding A, binding B, link or drop (R127). -/
def rebinds (r : Rec4) (cls : DisplayClass) (f : Face) : Bool :=
  f.cls != cls || f.bindA != r.rosBindA || f.bindB != r.rosBindB || f.link != r.rosLink || f.drop != r.rosDrop

/-- An accepted roster record (R125 to R127). -/
def Engines.acceptRoster (A : Ambient) (e : Engines) (d : Nat) (r : Rec4) : Engines :=
  let e := e.setRoster (e.link.roster.put d r)
  match r.rosPresent, r.rosClass, e.faceOf d with
  | true, some cls, none => e.createDisplay A d r cls
  | true, some cls, some f => if rebinds r cls f then e.rebindDisplay A d r cls f else e
  | true, none, _ => e
  | false, _, some _ => e.removeDisplay A d
  | false, _, none => e

/-- The clearing of the roster by a descriptor: every PRESENT display is removed in ascending display index (R126). -/
def Engines.clearRoster (A : Ambient) (e : Engines) : Engines :=
  let e := (Tab.keys e.face.faces).foldl (fun acc d => acc.removeDisplay A d) e
  e.setRoster []

/-! ## Link setup (R128, R129) -/

def checkLink (r : Rec4) : Option Reason :=
  if 1 < r.lnkRunCode then some .badValue
  else if ¬ r.lnkRun then none
  else if 2 < r.lnkRateCode ∨ r.lnkLength < 48 ∨ 96 < r.lnkLength then some .badValue
  else if (r.w0 &&& r.w1) ≠ 0 then some .badSlots
  else none

/-- The PRESENT displays of a link, in ascending display index. -/
def Engines.onThisLink (e : Engines) (n : Fin 8) : List Nat :=
  (e.face.faces.filter fun x => x.2.link == n).map Prod.fst

/-- Every PRESENT display of a link becomes UNPOLLED with miss count 0; its fault code is kept. -/
def Engines.unpollAll (e : Engines) (n : Fin 8) : Engines :=
  (e.onThisLink n).foldl (fun acc d => acc.onDisplay d fun x => { x with liveness := .unpolled, misses := 0 }) e

/-- A link with its cycle at slot 0 and nothing sent or pending. -/
def Link.atStart (l : Link) : Link := { l with slot := 0, frame := none, pending := none, served := false, block := none }

/-- Start a STOPPED link under a record. -/
def Engines.startLink (e : Engines) (n : Fin 8) (r : Rec4) : Engines :=
  (e.onLink n fun l => { l.atStart with setup := r, running := true, turn := none }).unpollAll n

/-- Stop a RUNNING link: the frame is abandoned, the queue emptied, the designation cancelled (R129). The slot position of a
STOPPED link is 0, and its poll turn is kept, the model's choice: log entry 49. -/
def Engines.stopLink (e : Engines) (n : Fin 8) (r : Rec4) : Engines :=
  let e := ((e.linkOf n).queue).foldl (fun acc d => acc.leaveQueue n d) e
  (e.onLink n fun l => { l.atStart with setup := r, running := false, queue := [] }).unpollAll n

/-- Restart the cycle of a RUNNING link under a changed record: the display in flight re-enters the queue. -/
def Engines.recycleLink (e : Engines) (n : Fin 8) (r : Rec4) : Engines :=
  let flying := (e.linkOf n).inFlight
  let e := e.onLink n fun l => { l.atStart with setup := r }
  match flying with
  | some d => (e.onLink n fun l => { l with queue := l.queue.erase d }).join n d
  | none => e

/-- An accepted link setup (R129). -/
def Engines.acceptLink (e : Engines) (n : Fin 8) (r : Rec4) : Engines :=
  match r.lnkRun, (e.linkOf n).running with
  | false, false => e.onLink n fun l => { l with setup := r }
  | false, true => e.stopLink n r
  | true, false => e.startLink n r
  | true, true => e.recycleLink n r

/-! ## Answers and misses (R140, R141) -/

/-- The PRESENT display at a drop of a link. -/
def Engines.atDrop (e : Engines) (n : Fin 8) (drop : Nat) : Option Nat :=
  (e.face.faces.find? fun x => x.2.link == n && x.2.drop == drop).map Prod.fst

/-- A good answer: the first three steps of R140. -/
def Engines.goodAnswer (A : Ambient) (e : Engines) (n : Fin 8) (drop d fault : Nat) : Engines :=
  match e.link.displays.get d with
  | none => e
  | some x =>
    let e := e.onDisplay d fun x => { x with misses := 0, liveness := .online }
    let e := if x.liveness = .offline then e.report A (.displayBack d n drop) else e
    let e := if x.liveness = .online then e else e.refreshMark d
    if x.fault = fault then e
    else (e.onDisplay d fun x => { x with fault := fault }).report A (.displayFault d x.fault fault)

/-- A miss of the designated display (R141, R26). One that goes OFFLINE with its frame's abort due sends no abort block: log
entry 46. -/
def Engines.miss (A : Ambient) (e : Engines) (n : Fin 8) (drop d : Nat) : Engines :=
  match e.link.displays.get d with
  | none => e
  | some x =>
    let misses := min (x.misses + 1) 3
    let e := e.onDisplay d fun x => { x with misses := misses }
    if misses < 3 ∨ x.liveness = .offline then e
    else
      let e := e.onDisplay d fun x => { x with liveness := .offline }
      let e := (e.leaveQueue n d).storeFace d fun f => { f with strokes := 0 }
      if x.liveness = .online then e.report A (.displayLost d n drop) else e

end Sys2Proof.Machine
end

