-- ==== Sys2Proof/Machine/Entries.lean ====
section
/-! DEFINITION. Destination entry: keyed entries, tickets, assignments, expiries (chapter 3), and the playout records
(6.2). -/

namespace Sys2Proof.Machine

/-! ## Tickets (R40) -/

/-- The ticket after one: 65535 gives 1. -/
def nextTicket (t : Nat) : Nat := if 65535 ≤ t then 1 else t + 1

def holdsTicket (es : List Entry) (t : Nat) : Bool := es.any fun x => x.ticket == t

/-- The first candidate, from `t` on, that no entry holds; a table of n entries passes over at most n. -/
def freeTicket (es : List Entry) : Nat → Nat → Nat
  | 0, t => t
  | fuel + 1, t => if holdsTicket es t then freeTicket es fuel (nextTicket t) else t

/-! ## Taking an entry (R37 to R41) -/

/-- A keyed entry as the Link Controller hands it on (R34). -/
structure Keyed where
  dest : Nat
  kind : EntryKind
  deriving DecidableEq, Repr

/-- A prompt that answers a keyed entry: it names no car. -/
def plainPrompt (kind : PromptKind) (ticket : Option Nat) (dest : Nat) (ek : EntryKind) : Prompt :=
  ⟨kind, ticket, dest, ek, none, none, .none, none⟩

/-- A destination floor is PRESENT and selectable (R15). -/
def selectable (i : Indication) (f : Nat) : Bool :=
  match labelOf i.labels f with
  | some r => r.labSelectable
  | none => false

/-- Some group of a zone serves both floors (R38 check 4). -/
def zoneServes (i : Indication) (zone : BitVec 8) (origin dest : Nat) : Bool :=
  (List.finRange 8).any fun g => inMask zone g && (i.groupOf g).serves origin && (i.groupOf g).serves dest

/-- The zone of a terminal: binding A as a group mask. -/
def Face.zone (f : Face) : BitVec 8 := BitVec.ofNat 8 f.bindA

/-- An entry joins the table behind every other, and the counter takes its ticket plus one (R40, R41). -/
def Engines.addEntry (e : Engines) (x : Entry) : Engines :=
  { e with dest := { e.dest with entries := e.dest.entries ++ [x], ticket := nextTicket x.ticket } }

/-- Create an entry whose place has been claimed (R41, steps 3 to 5). -/
def Engines.createEntry (A : Ambient) (e : Engines) (d : Nat) (f : Face) (k : Keyed) (ticket place : Nat) : Engines :=
  let e := (e.addEntry ⟨ticket, d, f.bindB, k.dest, k.kind, place⟩).pushPrompt A d (plainPrompt .waiting (some ticket) k.dest k.kind)
  e.report A (.entry ticket d f.bindB k.dest k.kind)

/-- A REFUSED prompt and then the ENTRY_REFUSED report (R39). -/
def Engines.refuseEntry (A : Ambient) (e : Engines) (d : Nat) (k : Keyed) (why : Reason) : Engines :=
  (e.pushPrompt A d (plainPrompt .refused none k.dest k.kind)).report A (.entryRefused d why k.dest k.kind)

/-- The checks of R38 in their order, on a TERMINAL; check 6 is the claim of the ENTRY_WAIT place. -/
def Engines.checkEntry (A : Ambient) (e : Engines) (d : Nat) (f : Face) (k : Keyed) : Engines :=
  if f.cover.isSome then e.report A (.entryRefused d .override k.dest k.kind)
  else if ¬ selectable e.ind k.dest ∨ k.dest = f.bindB ∨ ¬ zoneServes e.ind f.zone f.bindB k.dest then
    e.pushPrompt A d (plainPrompt .invalid none k.dest k.kind)
  else if Config.entryPlaces ≤ e.dest.entries.length then e.refuseEntry A d k .tableFull
  else
    let ticket := freeTicket e.dest.entries e.dest.entries.length e.dest.ticket
    match e.timers.claim .entryWait (.ticket ticket) (later A.now A.settings.entryWait) 0 0 with
    | (tm, some place) => (e.setTimers tm).createEntry A d f k ticket place
    | (_, none) => e.refuseEntry A d k .timers

/-- A taken entry is acted on, and the display is marked for its echo whatever the outcome (R35, R37, R38; for a
display that is no TERMINAL see log entry 16). -/
def Engines.takeEntry (A : Ambient) (e : Engines) (d : Nat) (k : Keyed) : Engines :=
  match e.faceOf d with
  | none => e
  | some f =>
    let e := if f.cls = .terminal then e.checkEntry A d f k
      else e.report A (.entryRefused d .notTerminal k.dest k.kind)
    e.refreshMark d

/-- The toggle of an ENTRY answer: a repetition is discarded, a new entry is recorded and taken (R34). -/
def Engines.offerEntry (A : Ambient) (e : Engines) (d : Nat) (toggle : Bool) (k : Keyed) : Engines :=
  match e.link.displays.get d with
  | none => e
  | some x =>
    if x.toggle = some toggle then e
    else (e.onDisplay d fun x => { x with toggle := some toggle }).takeEntry A d k

/-! ## Assignments (R44 to R48) -/

/-- The value check of an ASSIGN record (R44). -/
def checkAssign (r : Rec4) : Option Reason :=
  if r.asnTicket = 0 ∨ 1 < r.asnKindCode ∨ (¬ r.asnDecline ∧ r.asnWalk.isNone) ∨ 255 < r.asnDest then some .badValue
  else none

/-- Why a car cannot be assigned, with its number and record when it can (R12, R45 conditions 4 and 5). -/
def judgeCar (e : Engines) (zone : BitVec 8) (car : Nat) : Except Reason (Fin 48 × Rec4) :=
  match toFin 48 car with
  | none => .error .badCar
  | some c =>
    match (e.ind.carOf c).accepted with
    | none => .error .badCar
    | some r =>
      match r.carGroup with
      | none => .error .badCar
      | some g =>
        if ¬ (e.ind.groupOf g).groupPresent ∨ ¬ inMask zone g then .error .badCar
        else if r.carOutOfService then .error .carUnavailable
        else .ok (c, r)

/-- Add a stop for an accepted assignment, with STOP_LIST_FULL when there is no room (R66, R67, R70). -/
def Engines.giveStop (A : Ambient) (e : Engines) (c : Fin 48) (floor ticket : Nat) : Engines :=
  let l := e.stopsOf c
  if holdsStop l floor ∨ l.length < Config.stopPlaces then (e.setStops c (addStop l floor)).rederive A
  else e.report A (.stopListFull c floor ticket)

/-- The zone of an entry's terminal as its roster record stands (R45). -/
def Engines.zoneOf (e : Engines) (d : Nat) : BitVec 8 :=
  match e.faceOf d with
  | some f => f.zone
  | none => 0

/-- An accepted assignment (R46). -/
def Engines.assignEntry (A : Ambient) (e : Engines) (x : Entry) (r : Rec4) (c : Fin 48) (carRec : Rec4) : Engines :=
  let p : Prompt := ⟨.assigned, some x.ticket, x.dest, x.kind, some c, some carRec.carName,
    r.asnWalk.getD .none, none⟩
  ((e.endEntry x).replacePrompt A x.terminal x.ticket p).giveStop A c x.dest x.ticket

/-- A declined entry (R47). -/
def Engines.declineEntry (A : Ambient) (e : Engines) (x : Entry) : Engines :=
  (e.endEntry x).replacePrompt A x.terminal x.ticket (plainPrompt .refused (some x.ticket) x.dest x.kind)

/-- An assignment with valid values, judged in the order of R45. -/
def Engines.judgeAssign (A : Ambient) (e : Engines) (r : Rec4) : Engines :=
  let refuse (why : Reason) : Engines := e.report A (.assignRefused r.asnTicket why r.asnCar r.asnDecline)
  match e.dest.entries.find? fun x => x.ticket == r.asnTicket with
  | none => refuse .late
  | some x =>
    if r.asnDest ≠ x.dest then refuse .mismatch
    else if r.asnDecline then e.declineEntry A x
    else
      match judgeCar e (e.zoneOf x.terminal) r.asnCar with
      | .error why => refuse why
      | .ok (c, carRec) => e.assignEntry A x r c carRec

/-! ## Expiries -/

/-- A delivered ENTRY_WAIT place (R49). -/
def Engines.expireEntry (A : Ambient) (e : Engines) (p : TimerPlace) : Engines :=
  match e.dest.entries.find? fun x => x.place == p.id with
  | none => e
  | some x =>
    let e := (e.endEntry x).replacePrompt A x.terminal x.ticket (plainPrompt .expired (some x.ticket) x.dest x.kind)
    e.report A (.entryExpired x.ticket x.terminal x.dest)

/-- A delivered PROMPT_HOLD place: its prompt leaves the queue (R60). -/
def Engines.expirePrompt (e : Engines) (d : Nat) (p : TimerPlace) : Engines :=
  (e.storePrompts d ((e.promptsOf d).filter fun x => x.hold != some p.id)).handPrompts d

/-! ## Playout records (R92 to R94, R99, R105) -/

/-- The check of a playout record (R92). -/
def checkPlayout (r : Rec4) : Option Reason :=
  if 1 < r.ploActionCode then some .badValue
  else if r.ploActionCode = 0 then none
  else if r.ploCount < 1 ∨ 4 < r.ploCount ∨ r.ploLangCodes.any (fun l => decide (15 < l)) ∨ r.ploDwell < 1000 ∨
      60000 < r.ploDwell ∨ r.ploLast < r.ploFirst then some .badValue
  else none

/-- Displays of either of two sets, in ascending display index. -/
def bothSets (a b : List Nat) : List Nat := b.foldl insertNat a

/-- An accepted START (R93). -/
def Engines.startCtx (A : Ambient) (e : Engines) (c : Fin 16) (r : Rec4) : Engines :=
  let earlierTargets := (e.ctx c).targets
  let e := e.releaseDwell c
  let targets := targetsOf e.face.faces r
  let covered := !targets.isEmpty && allCovered e.face.faces targets
  let e := e.onCtx c fun x =>
    { x with
      accepted := some r, targets := targets, remaining := r.ploRepeat,
      state := if covered then .suspended else .playing,
      saved := if covered then r.ploDwell else x.saved }
  let e := e.onCtx c (Context.atFirst A.ready r.ploRotation)
  let e := if covered then e else e.claimDwell A c r.ploDwell
  e.handNotices (bothSets earlierTargets targets)

/-- An accepted STOP (R94). -/
def Engines.stopCtx (e : Engines) (c : Fin 16) (r : Rec4) : Engines :=
  let former := (e.ctx c).targets
  let e := (e.releaseDwell c).onCtx c fun _ => { Context.reset with accepted := some r }
  e.handNotices former

/-- An accepted playout record. -/
def Engines.acceptPlayout (A : Ambient) (e : Engines) (c : Fin 16) (r : Rec4) : Engines :=
  if r.ploActionCode = 1 then e.startCtx A c r else e.stopCtx c r

/-- Completion of a context (R99). -/
def Engines.completeCtx (A : Ambient) (e : Engines) (c : Fin 16) (r : Rec4) : Engines :=
  let former := (e.ctx c).targets
  let e := (e.releaseDwell c).onCtx c fun x => { x with state := .done, targets := [] }
  (e.handNotices former).report A (.playoutDone c r.ploRepeat)

/-- A delivered DWELL place of a context that holds it (R99). -/
def Engines.expireDwell (A : Ambient) (e : Engines) (c : Fin 16) (p : TimerPlace) : Engines :=
  let x := e.ctx c
  if x.place = some p.id then
    let r := x.accepted.getD Rec4.zero
    let next := x.advance A.ready r
    let e := e.onCtx c fun _ => next.1
    if next.2 then e.completeCtx A c r else e.handTargets c
  else e

/-- The clearing of the context table (R105). Every context is IDLE before the first layer is withdrawn, and the layers are
withdrawn in ascending display index, the model's choice: log entry 48. -/
def Engines.clearPlayout (e : Engines) : Engines :=
  let e := (List.finRange 16).foldl (fun acc c => (acc.releaseDwell c).onCtx c fun _ => Context.reset) e
  e.handNotices (Tab.keys e.face.faces)

end Sys2Proof.Machine
end

