-- ==== Sys2Proof/Machine/Fetching.lean ====
section
/-! DEFINITION. The Fetch Unit: text cache, glyph store, language table, requests and channels (chapter 7). -/

namespace Sys2Proof.Machine

/-! ## Accessors -/

def FetchUnit.line (f : FetchUnit) (i : Fin 32) : Line := f.lines[i]
def FetchUnit.area (f : FetchUnit) (a : Fin 8) : Area := f.areas[a]
def FetchUnit.lang (f : FetchUnit) (l : Fin 16) : Rec4 := f.langs[l]
def FetchUnit.channel (f : FetchUnit) (ch : Fin 4) : Option Job := f.channels[ch]
def FetchUnit.setChannel (f : FetchUnit) (ch : Fin 4) (j : Option Job) : FetchUnit :=
  { f with channels := f.channels.set ch j }
def FetchUnit.onLine (f : FetchUnit) (i : Fin 32) (g : Line → Line) : FetchUnit := { f with lines := upd f.lines i g }
def FetchUnit.onArea (f : FetchUnit) (a : Fin 8) (g : Area → Area) : FetchUnit := { f with areas := upd f.areas a g }

/-- A language is READY when its area is not NONE and that area is READY (R120). -/
def FetchUnit.ready (f : FetchUnit) (l : Fin 16) : Bool :=
  match (f.lang l).langArea with
  | some a => (f.area a).state == .ready
  | none => false

/-! ## Banks and glyphs (R107, R114) -/

/-- The even area of the pair of an area, and the odd one. -/
def evenArea (a : Fin 8) : Fin 8 := ⟨2 * (a.val / 2), by omega⟩
def oddArea (a : Fin 8) : Fin 8 := ⟨2 * (a.val / 2) + 1, by omega⟩

/-- The bank of an area: itself when SINGLE, else its pair (R114). -/
def FetchUnit.bankOf (f : FetchUnit) (a : Fin 8) : List (Fin 8) :=
  if (f.area a).role = .single then [a] else [evenArea a, oddArea a]

/-- The areas a load of `count` glyphs at area `a` loads (R116). -/
def loadedAreas (a : Fin 8) (count : Nat) : List (Fin 8) := if count ≤ 256 then [a] else [evenArea a, oddArea a]

/-- A blank cell: 32 bytes of zero (R133). -/
def blankCell : List Byte := List.replicate 32 0

/-- The cell of a code in a language: the glyph of the language's bank, or blank (R107). -/
def FetchUnit.cell (f : FetchUnit) (l : Fin 16) (code : Code) : List Byte :=
  match (f.lang l).langArea with
  | none => blankCell
  | some a =>
    let c := code.toNat
    if (f.area a).state = .ready ∧ c < (f.area a).count then
      let home := if (f.area a).role = .single then a else if c < 256 then evenArea a else oddArea a
      ((f.area home).glyphs.get (c % 256)).getD blankCell
    else blankCell

/-! ## Text lines -/

/-- The first byte of a message record: the reference taken down to its word (R106). -/
def Tag.header (t : Tag) : Nat := t.msg - t.msg % 4

/-- The address of the string pointer word of the tag's language (R106). -/
def Tag.pointer (t : Tag) : Nat := t.header + 4 + 4 * t.lang

/-- The 17 words of the message record run past the top of the address space (R106). -/
def Tag.pastTop (t : Tag) : Bool := decide (Config.addressSpace < t.header + 68)

/-- The line that holds a tag, if one that is not EMPTY does. -/
def FetchUnit.lineOf (f : FetchUnit) (t : Tag) : Option (Fin 32) :=
  (List.finRange 32).find? fun i => (f.line i).state != .empty && (f.line i).tag == t

/-- A lookup: a VALID line gives its codes and becomes the most recently used (R109). -/
def FetchUnit.lookup (f : FetchUnit) (t : Tag) : Option (List Code × FetchUnit) :=
  match f.lineOf t with
  | none => none
  | some i =>
    if (f.line i).state = .valid then some ((f.line i).codes, { f with recency := i :: f.recency.erase i }) else none

def Request.isText : Request → Bool
  | .text _ => true
  | .sweep _ _ => false
  | .glyph _ _ _ _ _ => false

def Request.isSweep : Request → Bool
  | .sweep _ _ => true
  | .text _ => false
  | .glyph _ _ _ _ _ => false

def Request.isGlyph : Request → Bool
  | .glyph _ _ _ _ _ => true
  | .text _ => false
  | .sweep _ _ => false

def Request.sweepsWindow (w : Fin 5) : Request → Bool
  | .sweep k _ => k == w
  | .text _ => false
  | .glyph _ _ _ _ _ => false

def Request.loads (a : Fin 8) : Request → Bool
  | .glyph b _ _ _ _ => b == a
  | .text _ => false
  | .sweep _ _ => false

/-- A fill in progress or a waiting TEXT request serves a tag (R134 step 1). -/
def FetchUnit.textComing (f : FetchUnit) (t : Tag) : Bool :=
  f.requests.contains (.text t) ||
    match f.lineOf t with
    | some i => (f.line i).state == .filling || (f.line i).state == .fillingStale
    | none => false

/-- A TEXT request from the Link Controller (R110): served by a fill in progress, merged, discarded, placed as the
newest, or not placed when the partition is full. -/
def FetchUnit.requestText (f : FetchUnit) (t : Tag) : FetchUnit :=
  if (f.lineOf t).isSome ∨ f.requests.contains (.text t) then f
  else if (f.requests.filter Request.isText).length < Config.textPlaces then { f with requests := f.requests ++ [.text t] }
  else f

/-- The line a fill takes: the lowest EMPTY one, else the least recently used VALID one (R111). -/
def FetchUnit.chooseLine (f : FetchUnit) : Fin 32 :=
  match (List.finRange 32).find? fun i => (f.line i).state == .empty with
  | some i => i
  | none => f.recency.getLast?.getD 0

/-! ## Channels (R122) -/

/-- A job is the carrying out of a request. -/
def Job.carries : Job → Request → Bool
  | .sweep w _ _ _ _, .sweep k _ => w == k
  | .text t _ _ _ _ _ _ _ _, .text u => t == u
  | .glyph a _ _, .glyph b _ _ _ _ => a == b
  | _, _ => false

/-- The channels that carry a request. -/
def FetchUnit.carriers (f : FetchUnit) (r : Request) : List (Fin 4) :=
  (List.finRange 4).filter fun ch =>
    match f.channel ch with
    | some j => j.carries r
    | none => false

/-- A request is ACTIVE when a channel holds it (R121). -/
def FetchUnit.active (f : FetchUnit) (r : Request) : Bool := !(f.carriers r).isEmpty

/-- The requests in priority order: SWEEP, TEXT, GLYPH, the oldest first within a kind (R122). -/
def FetchUnit.byPriority (f : FetchUnit) : List Request :=
  f.requests.filter Request.isSweep ++ f.requests.filter Request.isText ++ f.requests.filter Request.isGlyph

/-- The first WAITING request in priority order. -/
def FetchUnit.nextWaiting (f : FetchUnit) : Option Request := f.byPriority.find? fun r => !f.active r

/-- The words of the next burst of a run: the largest of 8, 4, 2 and 1 that is aligned to its own size and does not
pass the end (R122). -/
def burstWords (next left : Nat) : Nat :=
  if next % 32 = 0 ∧ 8 ≤ left then 8
  else if next % 16 = 0 ∧ 4 ≤ left then 4
  else if next % 8 = 0 ∧ 2 ≤ left then 2
  else 1

/-- The GLYPH request of an area: source, pitch, count and progress. -/
def FetchUnit.load (f : FetchUnit) (a : Fin 8) : Option (Nat × Nat × Nat × Nat) :=
  f.requests.findSome? fun r =>
    match r with
    | .glyph b src pitch count progress => if b = a then some (src, pitch, count, progress) else none
    | .text _ => none
    | .sweep _ _ => none

/-- The read burst a text or glyph channel hands to the arbiter next, if its transfer has one. Sweep reads are issued
by a step of their own. -/
def FetchUnit.channelRead (f : FetchUnit) (ch : Fin 4) : Option Access :=
  match f.channel ch with
  | some (.text _ _ _ next left _ _ _ _) =>
    if left = 0 then none else some (.fetchRead ch next (burstWords next left) false)
  | some (.glyph a stop got) =>
    match f.load a with
    | some (src, pitch, _, progress) =>
      if progress < stop then
        let next := src + progress * pitch + 4 * got.length
        some (.fetchRead ch next (burstWords next (8 - got.length)) false)
      else none
    | none => none
  | some (.sweep _ _ _ _ _) => none
  | none => none

/-- The first transfer of a fill (R111, R112). -/
def messageJob (t : Tag) (i : Fin 32) : Job := .text t i .message t.header 17 [] 0 0 []

/-- The completion of a fill: a FILLING line becomes VALID with the string, its request and channel are done, and the
tag is told; a FILLING_STALE line starts again on the same channel (R112). -/
def FetchUnit.completeFill (f : FetchUnit) (ch : Fin 4) (t : Tag) (i : Fin 32) (codes : List Code) :
    FetchUnit × Option Tag :=
  if (f.line i).state = .fillingStale then
    ((f.onLine i fun x => { x with state := .filling, watch := none }).setChannel ch (some (messageJob t i)), none)
  else
    let f := f.onLine i fun x => { x with state := .valid, codes := codes }
    (({ f with recency := i :: f.recency.erase i, requests := f.requests.erase (.text t) }).setChannel ch none, some t)

/-- A channel takes a request (R111, R118, R122, R123). A text fill whose message record runs past the top has a
transfer of count 0 and completes at once (R112); the tag filled is then the second component. -/
def FetchUnit.take (f : FetchUnit) (windows : Vector Rec4 5) (ch : Fin 4) : Request → FetchUnit × Option Tag
  | .sweep w _ =>
    let d := windows[w]
    (f.setChannel ch (some (.sweep w d.winBase (d.winBase + 16 * d.winCount) d.w0 d.w3)), none)
  | .text t =>
    let i := f.chooseLine
    let f := { f.onLine i (fun _ => ⟨.filling, t, [], none⟩) with recency := f.recency.erase i }
    let f := f.setChannel ch (some (messageJob t i))
    if t.pastTop then f.completeFill ch t i [] else (f, none)
  | .glyph a _ _ count progress =>
    (f.setChannel ch (some (.glyph a (if progress < 256 then min 256 count else count) [])), none)

/-! ## Text transfers (R112) -/

/-- The two codes of a word, the lower halfword first. -/
def codesOf (w : Word) : List Code := [w.extractLsb' 0 16, w.extractLsb' 16 16]

/-- The string pointer of a language in a message record, none when it is untranslated (R106). The whole word is tested for
0, the bits not read with it: log entry 44. -/
def stringPointer (t : Tag) (words : List Word) : Option Nat :=
  let count := min 16 (byteN (words.getD 0 0) 0)
  let pointer := words.getD (1 + t.lang) 0
  if t.lang.val < count ∧ pointer ≠ 0 then some (2 * bitsN pointer 1 25) else none

/-- The message transfer is complete. -/
def FetchUnit.messageDone (f : FetchUnit) (ch : Fin 4) (t : Tag) (i : Fin 32) (got : List Word) :
    FetchUnit × Option Tag :=
  match stringPointer t got with
  | none => f.completeFill ch t i []
  | some str =>
    ((f.onLine i fun x => { x with watch := some (str, 98) }).setChannel ch
      (some (.text t i .length (str - str % 4) 1 [] str 0 [])), none)

/-- The length transfer is complete: the taken length, the code in the same word, and the words that remain. A string whose
codes run past the top of the address space is empty, and its codes are not read: log entry 43. -/
def FetchUnit.lengthDone (f : FetchUnit) (ch : Fin 4) (t : Tag) (i : Fin 32) (str : Nat) (w : Word) :
    FetchUnit × Option Tag :=
  let aligned := str % 4 = 0
  let len := min 48 (if aligned then bitsN w 0 16 else bitsN w 16 16)
  let f := f.onLine i fun x => { x with watch := some (str, 2 + 2 * len) }
  if Config.addressSpace < str + 2 + 2 * len then f.completeFill ch t i []
  else
    let first := if aligned ∧ 1 ≤ len then [w.extractLsb' 16 16] else []
    let rest := len - first.length
    if rest = 0 then f.completeFill ch t i first
    else
      (f.setChannel ch (some (.text t i .code (if aligned then str + 4 else str + 2) ((rest + 1) / 2) [] str len first)),
        none)

/-- A message, length or code transfer completes when its last word has been read (R112). -/
def FetchUnit.textDone (f : FetchUnit) (ch : Fin 4) : FetchUnit × Option Tag :=
  match f.channel ch with
  | some (.text t i .message _ 0 got _ _ _) => f.messageDone ch t i got
  | some (.text t i .length _ 0 got str _ _) => f.lengthDone ch t i str (got.getD 0 0)
  | some (.text t i .code _ 0 got _ len first) => f.completeFill ch t i ((first ++ got.flatMap codesOf).take len)
  | _ => (f, none)

/-! ## Reads delivered to a channel (R112, R118) -/

def wordBytes (w : Word) : List Byte := [byteOf w 0, byteOf w 1, byteOf w 2, byteOf w 3]

/-- Store glyph g of a load at area `a` (R118). -/
def FetchUnit.storeGlyph (f : FetchUnit) (a : Fin 8) (g : Nat) (bytes : List Byte) : FetchUnit :=
  f.onArea (if g < 256 then a else oddArea a) fun x => { x with glyphs := x.glyphs.put (g % 256) bytes }

/-- Set the progress of an area's GLYPH request. -/
def FetchUnit.setProgress (f : FetchUnit) (a : Fin 8) (n : Nat) : FetchUnit :=
  { f with requests := f.requests.map fun r =>
      match r with
      | .glyph b src pitch count p => .glyph b src pitch count (if b = a then n else p)
      | .text t => .text t
      | .sweep w m => .sweep w m }

/-- The words of a read burst reach the channel that asked for it. -/
def FetchUnit.deliver (f : FetchUnit) (ch : Fin 4) (words : List Word) : FetchUnit :=
  match f.channel ch with
  | some (.text t i stage next left got str len codes) =>
    f.setChannel ch
      (some (.text t i stage (next + 4 * words.length) (left - words.length) (got ++ words) str len codes))
  | some (.glyph a stop got) =>
    let got := got ++ words
    if got.length < 8 then f.setChannel ch (some (.glyph a stop got))
    else
      match f.load a with
      | some (_, _, _, progress) =>
        ((f.storeGlyph a progress (got.flatMap wordBytes)).setProgress a (progress + 1)).setChannel ch
          (some (.glyph a stop []))
      | none => f
  | some (.sweep _ _ _ _ _) => f
  | none => f

/-! ## Glyph transfers (R118, R119) -/

/-- Put an area's GLYPH request behind every other request: the newest of its kind (R121). -/
def FetchUnit.requeueLoad (f : FetchUnit) (a : Fin 8) : FetchUnit :=
  { f with requests := f.requests.filter (fun r => !r.loads a) ++ f.requests.filter (fun r => r.loads a) }

/-- Every area of a list becomes READY. -/
def FetchUnit.makeReady (f : FetchUnit) (areas : List (Fin 8)) : FetchUnit :=
  areas.foldl (fun f a => f.onArea a fun x => { x with state := .ready }) f

/-- A glyph transfer completes when the progress reaches its end (R118): the request returns to the list for its second
transfer, or the bank is READY; the loaded area and its count are then the second component. -/
def FetchUnit.glyphDone (f : FetchUnit) (ch : Fin 4) : FetchUnit × Option (Fin 8 × Nat) :=
  match f.channel ch with
  | some (.glyph a stop _) =>
    match f.load a with
    | some (_, _, count, progress) =>
      if progress < stop then (f, none)
      else if stop < count then ((f.setChannel ch none).requeueLoad a, none)
      else
        ((({ f with requests := f.requests.filter fun r => !r.loads a }).setChannel ch none).makeReady
          (loadedAreas a count), some (a, count))
    | none => (f, none)
  | some (.text _ _ _ _ _ _ _ _ _) => (f, none)
  | some (.sweep _ _ _ _ _) => (f, none)
  | none => (f, none)

/-- The languages whose area lies in a bank, in ascending number. -/
def FetchUnit.languagesOf (f : FetchUnit) (areas : List (Fin 8)) : List (Fin 16) :=
  (List.finRange 16).filter fun l =>
    match (f.lang l).langArea with
    | some a => areas.contains a
    | none => false

/-- Free the channels that carry the loads of a list of areas. -/
def FetchUnit.stopLoads (f : FetchUnit) (areas : List (Fin 8)) : FetchUnit :=
  (List.finRange 4).foldl
    (fun acc ch =>
      match acc.channel ch with
      | some (.glyph a _ _) => if areas.contains a then acc.setChannel ch none else acc
      | some (.text _ _ _ _ _ _ _ _ _) => acc
      | some (.sweep _ _ _ _ _) => acc
      | none => acc) f

/-- A host write into a load's source range starts it again from glyph 0; one on a channel returns to the list as the
newest (R119). -/
def FetchUnit.restartLoad (f : FetchUnit) (a : Fin 8) : FetchUnit :=
  let onChannel := (List.finRange 4).any fun ch =>
    match f.channel ch with
    | some (.glyph b _ _) => b == a
    | some (.text _ _ _ _ _ _ _ _ _) => false
    | some (.sweep _ _ _ _ _) => false
    | none => false
  let f := f.setProgress a 0
  if onChannel then (f.stopLoads [a]).requeueLoad a else f

/-! ## Snoop (R113, R119, R159) -/

/-- The bytes a burst writes on enabled lanes. -/
def writtenBytes (a : Nat) : List Beat → List Nat
  | [] => []
  | b :: bs => ((List.range 4).filter fun n => b.lanes.getLsbD n).map (fun n => a + n) ++ writtenBytes (a + 4) bs

def hitsRange (bytes : List Nat) (start len : Nat) : Bool := bytes.any fun b => decide (start ≤ b ∧ b < start + len)

/-- A write hits the watched range of a line (R111, R112). -/
def Line.hit (x : Line) (bytes : List Nat) : Bool :=
  hitsRange bytes x.tag.header 4 || hitsRange bytes x.tag.pointer 4 ||
    match x.watch with
    | some (start, len) => hitsRange bytes start len
    | none => false

/-- A byte lies in the source range of a load: in one of the 32 bytes of its glyphs (R119). -/
def inSource (src pitch count b : Nat) : Bool :=
  decide (src ≤ b ∧ (b - src) / pitch < count ∧ (b - src) % pitch < 32)

/-- A hit makes a VALID line EMPTY and a FILLING one FILLING_STALE (R113). -/
def FetchUnit.snoopLine (f : FetchUnit) (bytes : List Nat) (i : Fin 32) : FetchUnit :=
  if (f.line i).hit bytes then
    match (f.line i).state with
    | .valid => { f.onLine i (fun x => { x with state := .empty }) with recency := f.recency.erase i }
    | .filling => f.onLine i fun x => { x with state := .fillingStale }
    | .fillingStale => f
    | .empty => f
  else f

/-- The areas whose load a write hits. -/
def FetchUnit.hitLoads (f : FetchUnit) (bytes : List Nat) : List (Fin 8) :=
  f.requests.filterMap fun r =>
    match r with
    | .glyph a src pitch count _ => if bytes.any (inSource src pitch count) then some a else none
    | .text _ => none
    | .sweep _ _ => none

/-- A completed host write is compared with every line and every load (R159). Loads returned to the list by one write keep
the order they had: log entry 45. -/
def FetchUnit.snoop (f : FetchUnit) (bytes : List Nat) : FetchUnit :=
  let loads := f.hitLoads bytes
  loads.foldl FetchUnit.restartLoad ((List.finRange 32).foldl (fun acc i => acc.snoopLine bytes i) f)

/-! ## LOAD_GLYPHS (R115 to R117) -/

/-- The check of a LOAD_GLYPHS command (R115). -/
def FetchUnit.checkLoad (f : FetchUnit) (r : Rec4) : Except Reason (Fin 8) :=
  match toFin 8 r.cmdArea with
  | none => .error .badArea
  | some a =>
    let n := r.cmdCount
    if 512 < n then .error .badCount
    else if 256 < n ∧ a.val % 2 = 1 then .error .badArea
    else if n = 0 then .ok a
    else if r.cmdPitch < 32 ∨ 65532 < r.cmdPitch ∨ r.cmdPitch % 4 ≠ 0 then .error .badPitch
    else if r.cmdSource % 4 ≠ 0 ∨ Config.addressSpace ≤ r.cmdSource + (n - 1) * r.cmdPitch + 31 then .error .badSource
    else
      let banks := (loadedAreas a n).flatMap f.bankOf
      if (f.requests.filter Request.isGlyph).length < Config.glyphPlaces ∨ banks.any (fun b => f.requests.any (·.loads b))
      then .ok a
      else .error .busy

/-- The loads active in a list of areas are abandoned with their requests and channels (R116 step 1). -/
def FetchUnit.abandonLoads (f : FetchUnit) (areas : List (Fin 8)) : FetchUnit :=
  ({ f with requests := f.requests.filter fun r => !areas.any (fun a => r.loads a) }).stopLoads areas

/-- Every area of a list becomes EMPTY, SINGLE, count 0. -/
def FetchUnit.emptyAreas (f : FetchUnit) (areas : List (Fin 8)) : FetchUnit :=
  areas.foldl (fun f a => f.onArea a fun _ => Area.reset) f

/-- The areas of the banks that a load touches (R116). -/
def FetchUnit.touched (f : FetchUnit) (a : Fin 8) (count : Nat) : List (Fin 8) :=
  (loadedAreas a count).flatMap f.bankOf

/-- The role of a loaded area (R116 step 3). -/
def loadedRole (count : Nat) (a : Fin 8) : AreaRole :=
  if count ≤ 256 then .single else if a.val % 2 = 0 then .lower else .upper

/-- A load begins (R116), or a bank is emptied for a count of 0 (R117). -/
def FetchUnit.startLoad (f : FetchUnit) (a : Fin 8) (src pitch count : Nat) : FetchUnit :=
  let banks := f.touched a count
  let f := (f.abandonLoads banks).emptyAreas banks
  if count = 0 then f
  else
    let f := (loadedAreas a count).foldl
      (fun f b => f.onArea b fun _ => ⟨.loading, loadedRole count b, count, []⟩) f
    { f with requests := f.requests ++ [.glyph a src pitch count 0] }

/-! ## Sweeps (R123, R167) -/

/-- A sweep is asked for a window: placed, merged with a WAITING request, or the rerun mark of an ACTIVE one is set
(R123, R167). -/
def FetchUnit.askSweep (f : FetchUnit) (w : Fin 5) : FetchUnit :=
  if f.requests.any (Request.sweepsWindow w) then
    if f.active (.sweep w false) then
      { f with requests := f.requests.map fun r => if r.sweepsWindow w then .sweep w true else r }
    else f
  else { f with requests := f.requests ++ [.sweep w false] }

/-- A read of a withdrawn sweep completes as usual (R123). -/
def SweepRead.withdraw (w : Fin 5) (r : SweepRead) : SweepRead :=
  if r.kind = w ∧ r.status = .live then { r with status := .withdrawn } else r

/-- A SWEEP request is withdrawn: it leaves the list, its channel is freed, its issued reads complete as usual (R123). -/
def FetchUnit.withdrawSweep (f : FetchUnit) (w : Fin 5) : FetchUnit :=
  let f := { f with
    requests := f.requests.filter (fun r => !r.sweepsWindow w), sweepReads := f.sweepReads.map (SweepRead.withdraw w) }
  (List.finRange 4).foldl
    (fun acc ch =>
      match acc.channel ch with
      | some (.sweep k _ _ _ _) => if k = w then acc.setChannel ch none else acc
      | some (.text _ _ _ _ _ _ _ _ _) => acc
      | some (.glyph _ _ _) => acc
      | none => acc) f

/-- Restart abandons every request and channel and empties the cache and the glyph store; the language table is kept
(R108, R114, R121, R124). -/
def FetchUnit.restarted (f : FetchUnit) : FetchUnit := { FetchUnit.reset with langs := f.langs }

end Sys2Proof.Machine
end

