-- ==== Sys2Proof/Machine/Path.lean ====
section
/-! DEFINITION. The memory path: decoding and capture, promised places, the downstream arbiter (chapter 10), window
states and sweeps (11.3). -/

namespace Sys2Proof.Machine

/-! ## Accessors -/

def MemPath.window (p : MemPath) (w : Fin 5) : Rec4 := p.windows[w]

/-- The control block base: w3 of the accepted relocation record (R162). -/
def MemPath.cbBase (p : MemPath) : Nat := p.reloc.w3.toNat

def Assembler.stage (a : Assembler) (w : Fin 5) : Tab Word := a.winStage[w]
def Assembler.winStateOf (a : Assembler) (w : Fin 5) : WinState := a.winState[w]
def Assembler.setWinState (a : Assembler) (w : Fin 5) (x : WinState) : Assembler :=
  { a with winState := a.winState.set w x }

/-- What the engines read of the rest of the part as it stands. -/
def State.ambient (s : State) : Ambient := ⟨s.clock.ms, s.asm.settings, s.fetch.ready⟩

/-- An action of the engines. -/
def State.engines (s : State) (f : Ambient → Engines → Engines) : State := { s with eng := f s.ambient s.eng }

/-- A report made outside the engines. -/
def State.report (s : State) (ev : Event) : State := s.engines fun A e => e.report A ev

/-! ## Decoding and capture (R155) -/

/-- The window an address lies in: one whose accepted count is not 0. -/
def windowAt (p : MemPath) (addr : Nat) : Option (Fin 5) :=
  (List.finRange 5).find? fun w =>
    decide ((p.window w).winBase ≤ addr ∧ addr < (p.window w).winBase + 16 * (p.window w).winCount)

/-- The target of a word in a window, by the accepted descriptor. -/
def windowTarget (p : MemPath) (w : Fin 5) (addr : Nat) : Target :=
  let off := addr - (p.window w).winBase
  .window w (off / 16) (off % 16 / 4) (p.window w).w0 (p.window w).w3

/-- The target of the word at an address, by the descriptors and the control block base in force; none when the word is
not watched (R155). -/
def targetAt (p : MemPath) (addr : Nat) : Option Target :=
  if p.cbBase ≤ addr ∧ addr < p.cbBase + 4096 then
    if (cbRecord (addr - p.cbBase)).isSome then some (.control (addr - p.cbBase)) else none
  else (windowAt p addr).map fun w => windowTarget p w addr

/-- The items of a burst, in ascending address order: one for each watched word with an enabled lane (R155). -/
def captured (p : MemPath) (addr : Nat) : List Beat → List Item
  | [] => []
  | b :: bs =>
    if b.lanes = 0 then captured p (addr + 4) bs
    else
      match targetAt p addr with
      | some t => ⟨b.word, addr, b.lanes, t⟩ :: captured p (addr + 4) bs
      | none => captured p (addr + 4) bs

/-! ## Promised places (R156) -/

/-- The intake places promised to an access in flight. -/
def Access.promised : Access → Nat
  | .hostWrite _ _ items => items.length
  | .sweepRead r => if r.status = .abandoned then 0 else r.count
  | .hostRead _ _ => 0
  | .reportWrite _ _ _ => 0
  | .mirrorWrite _ _ => 0
  | .fetchRead _ _ _ _ => 0

/-- The promised places of an access that may be absent. -/
def promisedOpt : Option Access → Nat
  | some a => a.promised
  | none => 0

/-- The promise count: the places promised to host bursts forwarded and sweep reads issued, and not yet complete. -/
def State.promised (s : State) : Nat :=
  promisedOpt s.path.waiting + promisedOpt s.path.port + (s.fetch.sweepReads.map SweepRead.count).sum

/-- The unpromised places of the intake queue. -/
def State.unpromised (s : State) : Nat := Config.intakePlaces - s.asm.intake.length - s.promised

/-! ## The downstream arbiter (R161) -/

/-- The part's side, after the Report Writer: sweep reads withdrawn first (log entry 10), then the reads of the
channels in the priority order of their requests. -/
def FetchUnit.reads (f : FetchUnit) : List Access :=
  (f.sweepReads.filter fun r => r.status != .live).map Access.sweepRead ++
    f.byPriority.flatMap fun r =>
      match r with
      | .sweep w _ => (f.sweepReads.filter fun x => x.kind == w && x.status == .live).map Access.sweepRead
      | .text t => (f.carriers (.text t)).filterMap f.channelRead
      | .glyph a s p c g => (f.carriers (.glyph a s p c g)).filterMap f.channelRead

/-- An issued sweep read that is now served is not waiting any more. -/
def FetchUnit.served (f : FetchUnit) : Access → FetchUnit
  | .sweepRead r => { f with sweepReads := f.sweepReads.erase r }
  | .hostWrite _ _ _ => f
  | .hostRead _ _ => f
  | .reportWrite _ _ _ => f
  | .mirrorWrite _ _ => f
  | .fetchRead _ _ _ _ => f

/-- Serve the first access of the part's side, if there is one. -/
def State.servePart (s : State) : State :=
  match s.ring.waiting with
  | a :: rest => { s with
      path := { s.path with port := some a, passOver := 0 }, ring := { s.ring with waiting := rest } }
  | [] =>
    match s.fetch.reads with
    | a :: _ => { s with path := { s.path with port := some a, passOver := 0 }, fetch := s.fetch.served a }
    | [] => s

/-- The part's side has an access waiting. -/
def State.partWaits (s : State) : Bool := !s.ring.waiting.isEmpty || !s.fetch.reads.isEmpty

/-- The arbiter chooses the next access when the port is idle (R161). -/
def State.arbitrate (s : State) : State :=
  match s.path.port, s.path.waiting with
  | some _, _ => s
  | none, none => s.servePart
  | none, some a =>
    if s.partWaits then
      if s.path.passOver < Config.passOverLimit then
        { s with path := { s.path with port := some a, waiting := none, passOver := s.path.passOver + 1 } }
      else s.servePart
    else { s with path := { s.path with port := some a, waiting := none } }

/-- The served access completes: the port is free and the arbiter chooses the next. -/
def State.freePort (s : State) : State := ({ s with path := { s.path with port := none } }).arbitrate

/-- A host transaction is handed to the arbiter. -/
def State.forward (s : State) (a : Access) : State := ({ s with path := { s.path with waiting := some a } }).arbitrate

/-- The upstream port can take a transaction: none is held and none waits at the arbiter (R153; log entry 8). -/
def State.upstreamFree (s : State) : Bool := s.path.held.isNone && s.path.waiting.isNone

/-! ## Window states (R166, R167) -/

/-- A cause of staleness reaches a state window: it is STALE, and its sweep is placed, merged or rerun (R167). -/
def State.staleCause (s : State) (w : Fin 5) : State :=
  { s with asm := s.asm.setWinState w .stale, fetch := s.fetch.askSweep w }

/-- A holdoff loss on a state window, or a restart: it becomes STALE unless it is DISABLED (R166). -/
def State.makeStale (s : State) (w : Fin 5) : State :=
  if s.asm.winStateOf w = .disabled then s else s.staleCause w

/-- A read of a withdrawn sweep that is being served completes as usual (R123). -/
def withdrawPort (w : Fin 5) : Option Access → Option Access
  | some (.sweepRead r) => some (.sweepRead (r.withdraw w))
  | a => a

/-- A sweep is withdrawn with the completion not yet taken of an earlier one (R123; log entry 11). -/
def State.withdrawSweep (s : State) (w : Fin 5) : State :=
  { s with
    fetch := s.fetch.withdrawSweep w
    path := { s.path with port := withdrawPort w s.path.port }
    asm := { s.asm with sweepEnds := s.asm.sweepEnds.filter fun x => x.kind != w } }

/-- What restart does to the access being served: the data of a fetch read is discarded, a sweep read gives back its
places (R121, R156, R161). -/
def abandonPort : Option Access → Option Access
  | some (.sweepRead r) => some (.sweepRead { r with status := .abandoned })
  | some (.fetchRead ch a n _) => some (.fetchRead ch a n true)
  | a => a

/-- The data of a read being served for a channel that is stopped is discarded (R116). -/
def discardFor (stopped : Fin 4 → Bool) : Option Access → Option Access
  | some (.fetchRead ch a n d) => some (.fetchRead ch a n (d || stopped ch))
  | a => a

/-- The channels that carry a load of one of a list of areas. -/
def FetchUnit.loadsOn (f : FetchUnit) (areas : List (Fin 8)) (ch : Fin 4) : Bool :=
  match f.channel ch with
  | some (.glyph a _ _) => areas.contains a
  | some (.text _ _ _ _ _ _ _ _ _) => false
  | some (.sweep _ _ _ _ _) => false
  | none => false

/-! ## The holdoff (R157, R158) -/

/-- A holdoff is timed when every watched word lies in a watch window (R157). -/
def timedHold (items : List Item) : Bool :=
  items.all fun i => match i.target with
    | .window _ _ _ _ _ => true
    | .control _ => false

/-- The words of a burst decoded into a window. -/
def itemsIn (items : List Item) (w : Fin 5) : List Item :=
  items.filter fun i => match i.target with
    | .window k _ _ _ _ => k == w
    | .control _ => false

/-- The loss of a burst on one window: an ASSIGN_LOSS report, or a state window STALE (R158). -/
def State.loseOn (s : State) (items : List Item) (w : Fin 5) : State :=
  match itemsIn items w with
  | [] => s
  | i :: is => if w = assignWindow then s.report (.assignLoss i.addr (is.length + 1)) else s.makeStale w

/-! ## The commit being handed -/

/-- The Record Assembler has handed its record and may drain the next item (R164). -/
def State.handedOver (s : State) : State := { s with asm := { s.asm with handed := none } }

/-- A record its owner refuses (R165). -/
def State.refuseRecord (s : State) (p : RecordPlace) (why : Reason) : State := s.report (.recordRefused p why)

end Sys2Proof.Machine
end

