-- ==== Sys2Proof/Machine/Flags.lean ====
section
/-! DEFINITION. What the part shows of itself: the attention line, the link driver enables, the watched report address
and the status mirror (11.6, 11.7, 12.6, R180). -/

namespace Sys2Proof.Machine

/-- The attention line is asserted exactly while the unconsumed count is non-zero; it is released while RESET_N is low
(R174, R180). -/
def State.attention (s : State) : Bool := !s.resetLow && s.ring.unconsumed != 0

/-- The link driver of a link is enabled: only during the OUT slots of a RUNNING link (R180). -/
def State.driverEnabled (s : State) (n : Fin 8) : Bool :=
  !s.resetLow && (s.eng.linkOf n).running && (s.eng.linkOf n).setup.lnkOut (s.eng.linkOf n).slot

/-- The watched report address: word 3 of the oldest unconsumed record (R160, R174). -/
def Ring.watched (r : Ring) : Option Nat := r.oldest.map (· + 12)

/-- The timer list occupancy (R145). -/
def State.occupancy (s : State) : Nat := s.eng.timers.list.length

/-- The bits of the RUNNING links. -/
def runningBits (c : LinkCtl) : Nat :=
  ((List.finRange 8).map fun n => if (c.links[n]).running then 2 ^ n.val else 0).sum

/-- The states of the glyph areas, two bits each. -/
def areaBits (f : FetchUnit) : Nat := ((List.finRange 8).map fun a => (f.area a).state.code * 4 ^ a.val).sum

/-- The eight words of the status mirror (12.6). -/
def State.mirror (s : State) : List Word :=
  let w (k : Fin 5) : Nat := (s.asm.winStateOf k).code
  [wordN (s.ring.unconsumed + s.eng.out.tally * 2 ^ 16),
   wordN (w 0 + w 1 * 2 ^ 8 + w 2 * 2 ^ 16 + w 3 * 2 ^ 24),
   wordN (w 4 + runningBits s.eng.link * 2 ^ 8 + s.occupancy * 2 ^ 16),
   wordN (areaBits s.fetch),
   s.clock.ms, 0, 0, 0]

/-- A mirror write is due: an item differs from the value last written, or a relocation moved the block (R176). -/
def State.mirrorDue (s : State) : Bool := s.ring.mirrorMoved || s.ring.mirrorLast != some s.mirror

/-- One status period has passed since the last mirror write was issued, or none has been issued (R176). The period is the
one now in force, also for an interval that began under another: log entry 51. -/
def State.mirrorTime (s : State) : Bool :=
  match s.ring.mirrorAt with
  | none => true
  | some t => decide (s.asm.settings.statusPeriod ≤ (s.clock.ms - t).toNat)

end Sys2Proof.Machine
end

