-- ==== Sys2Proof/Machine/Wire.lean ====
section
/-! DEFINITION. Frames, blocks, checks and answers (8.3 to 8.6, 12.5), and the walk of the transmit queue (R134). -/

namespace Sys2Proof.Machine

/-! ## What a visible content needs (R77, R79) -/

/-- The line of text a content needs, if any (R77). -/
def neededLine (msg : Nat) (lang : Option (Fin 16)) : Option Tag :=
  if msg = 0 then none else lang.map fun l => ⟨msg, l⟩

def Visible.line : Visible → Option Tag
  | .base (.terminal idle) _ => neededLine idle (some 0)
  | .base (.hallSegment _ _ _) _ => none
  | .base (.carSegment _ _) _ => none
  | .base (.carMatrix _) _ => none
  | .base (.hallMatrix _) _ => none
  | .prompt _ => none
  | .notice n => neededLine n.msg n.lang
  | .over (.matrix _ msg lang) => neededLine msg lang
  | .over (.segment _ _) => none

/-- The languages a content uses that are not READY; a current language of NONE waits for the languages it names
(R79). -/
def Visible.waits (ready : Fin 16 → Bool) : Visible → List (Fin 16)
  | .base (.hallSegment _ _ _) _ => []
  | .base (.carSegment _ _) _ => []
  | .base (.terminal _) _ => if ready 0 then [] else [0]
  | .base (.carMatrix _) _ => if ready 0 then [] else [0]
  | .base (.hallMatrix _) _ => if ready 0 then [] else [0]
  | .prompt _ => if ready 0 then [] else [0]
  | .notice n =>
    match n.lang with
    | some l => if ready l then [] else [l]
    | none => (List.finRange 16).filter fun l => n.waits.contains l
  | .over (.matrix _ _ (some l)) => if ready l then [] else [l]
  | .over (.matrix _ _ none) => List.finRange 16
  | .over (.segment _ _) => []

/-! ## Frames (R133, 12.5) -/

def byteOfNat (n : Nat) : Byte := BitVec.ofNat 8 n

/-- A list of bytes padded with zeros to 16. -/
def pad16 (l : List Byte) : List Byte := (l ++ List.replicate 16 0).take 16

/-- Lantern bytes 6 and 7 of a FACE_SEGMENT frame; the lit byte of a display of no lantern is free (log entry 19). -/
def LanternShow.bytes (serial : Nat) : LanternShow → List Byte
  | .off (some lit) => [0, byteOfNat lit.toNat]
  | .off none => [0, byteOfNat (Config.litWhenOff serial).toNat]
  | .up lit => [1, byteOfNat lit.toNat]
  | .down lit => [2, byteOfNat lit.toNat]

/-- The four segment codes, leftmost first. -/
def labelBytes (w : Word) : List Byte := [byteOf w 0, byteOf w 1, byteOf w 2, byteOf w 3]

/-- A FACE_SEGMENT frame: 16 bytes. -/
def segmentFrame (layer : Layer) (label : Word) (arrow : Arrow) (rest : List Byte) : List Byte :=
  pad16 ([byteOfNat layer.code] ++ labelBytes label ++ [byteOfNat arrow.code] ++ rest)

/-- The cells of a floor name in language 0: four, blank when the name is blank. -/
def nameCells (f : FetchUnit) : Option MatrixName → List (List Byte)
  | some n => [f.cell 0 n.c0, f.cell 0 n.c1, f.cell 0 n.c2, f.cell 0 n.c3]
  | none => List.replicate 4 blankCell

/-- The two cells of a car name: its 8-bit codes as codes 0 to 255 in language 0 (R107). -/
def carNameCells (f : FetchUnit) (n : Byte × Byte) : List (List Byte) :=
  [f.cell 0 (n.1.setWidth 16), f.cell 0 (n.2.setWidth 16)]

/-- The cells of a text band: one for each code, blank while the language is not READY (R107, R133). -/
def bandCells (f : FetchUnit) (line : Option Tag) (codes : List Code) : List (List Byte) :=
  match line with
  | some t => codes.map fun c => f.cell t.lang c
  | none => []

/-- A FACE_MATRIX frame: the 16-byte head and the cells. -/
def matrixFrame (layer : Layer) (arrow : Arrow) (items : Nat) (b5to7 : List Byte) (perItem : List Byte)
    (cells : List (List Byte)) : List Byte :=
  pad16 ([byteOfNat layer.code, byteOfNat cells.length, byteOfNat arrow.code, byteOfNat items, 0] ++ b5to7 ++ perItem) ++
    cells.flatten

/-- The head byte of a listed car (12.5). -/
def HallEntry.byte (h : HallEntry) : Byte :=
  byteOfNat (h.arrow.code + 4 * h.unavailable.toNat + 8 * h.full.toNat + 16 * h.here.toNat)

/-- The head byte of a prompt (12.5). -/
def PromptShow.byte (p : PromptShow) : Byte := byteOfNat (p.kind.code + 8 * p.entryKind.code + 16 * p.walk.code)

/-- The cells of a prompt: the destination's name, then the car name for ASSIGNED (R133). -/
def PromptShow.cells (f : FetchUnit) (p : PromptShow) : List (List Byte) :=
  nameCells f p.name ++
    match p.carName with
    | some n => carNameCells f n
    | none => []

/-- A blank CAR_MATRIX content: no cells, no highlighted stop (log entry 20). -/
def blankCarMatrix : List Byte := matrixFrame .base .none 0 [0xFF, 0, 0] [] []

def carMatrixFrame (f : FetchUnit) (c : CarMatrix) : List Byte :=
  matrixFrame .base c.arrow c.stops.length
    [match c.target with | some i => byteOfNat i | none => 0xFF, c.mode, c.load] []
    (carNameCells f c.name ++ nameCells f c.position ++ c.stops.flatMap (nameCells f))

/-- The frame of a visible content, with the codes of its line (R133); `serial` is how many frames were built before. -/
def Visible.frame (f : FetchUnit) (serial : Nat) (codes : List Code) (v : Visible) : FrameKind × List Byte :=
  match v with
  | .base (.hallSegment label arrow lantern) strokes =>
    (.segment, segmentFrame .base label arrow (lantern.bytes serial ++ [byteOfNat strokes]))
  | .base (.carSegment label arrow) _ => (.segment, segmentFrame .base label arrow [])
  | .base (.carMatrix none) _ => (.matrix, blankCarMatrix)
  | .base (.carMatrix (some c)) _ => (.matrix, carMatrixFrame f c)
  | .base (.hallMatrix cars) _ =>
    (.matrix, matrixFrame .base .none cars.length [0, 0, 0] (cars.map HallEntry.byte)
      (cars.flatMap fun h => carNameCells f h.name ++ nameCells f h.position))
  | .base (.terminal idle) s =>
    (.matrix, matrixFrame .base .none 0 [0, 0, 0] []
      (bandCells f (Visible.line (.base (.terminal idle) s)) codes))
  | .prompt ps =>
    (.matrix, matrixFrame .prompt .none ps.length [0, 0, 0] (ps.map PromptShow.byte) (ps.flatMap (PromptShow.cells f)))
  | .notice n =>
    (.matrix, matrixFrame .notice .none 0 [0, 0, 0] [] (bandCells f (neededLine n.msg n.lang) codes))
  | .over (.segment label arrow) => (.segment, segmentFrame .override label arrow [])
  | .over (.matrix arrow msg lang) =>
    (.matrix, matrixFrame .override arrow 0 [0, 0, 0] [] (bandCells f (neededLine msg lang) codes))

/-- The strokes a frame carries: those of a HALL_SEGMENT face under BASE (R27). -/
def Visible.strokesCarried : Visible → Nat
  | .base (.hallSegment _ _ _) n => n
  | .base (.carSegment _ _) _ => 0
  | .base (.carMatrix _) _ => 0
  | .base (.hallMatrix _) _ => 0
  | .base (.terminal _) _ => 0
  | .prompt _ => 0
  | .notice _ => 0
  | .over _ => 0

/-! ## The check (R179) -/

/-- One bit of the cyclic redundancy code, generator 1021h. -/
def crcBit (reg : BitVec 16) (bit : Bool) : BitVec 16 :=
  let shifted := reg <<< 1
  if reg.getLsbD 15 != bit then shifted ^^^ 0x1021 else shifted

/-- One byte, most significant bit first. -/
def crcByte (reg : BitVec 16) (b : Byte) : BitVec 16 :=
  [7, 6, 5, 4, 3, 2, 1, 0].foldl (fun r n => crcBit r (b.getLsbD n)) reg

/-- The check of a run of data bytes; the register starts at FFFFh (R179). -/
def crc (bytes : List Byte) : BitVec 16 := bytes.foldl crcByte 0xFFFF

/-- The two check characters, low byte first. -/
def checkBytes (bytes : List Byte) : List Byte := [(crc bytes).extractLsb' 0 8, (crc bytes).extractLsb' 8 8]

/-! ## Blocks (R131, 12.5) -/

/-- The echoed toggle as bits 3 and 2 of header 1. -/
def echoCode : Option Bool → Nat
  | some b => b.toNat
  | none => 3

/-- The data bytes of a block before its check: address, three headers, payload. -/
def Block.data (b : Block) : List Byte :=
  [byteOfNat b.addr, byteOfNat (b.index + 64 * b.last.toNat + 128 * b.abort.toNat),
    byteOfNat (b.kind.code + 4 * echoCode b.echo), byteOfNat (b.poll.getD 0)] ++ b.payload

/-- A character as it is sent: the mark bit 1 for an address character, the stop bit 1 (R130). -/
def sentChar (mark : Bool) (data : Byte) : LinkChar := ⟨data, mark, true⟩

/-- The characters of a block, check included: the address character, which is the only one with its mark bit set, and the
others (R130, R131). -/
def Block.wire (b : Block) : List LinkChar :=
  match b.data with
  | [] => []
  | addr :: rest => sentChar true addr :: (rest ++ checkBytes b.data).map (sentChar false)

/-- The bits of a character in the order they are on the line: the start bit 0, data bits 0 to 7, the mark bit, the stop bit
(R130). -/
def LinkChar.bits (c : LinkChar) : List Bool :=
  [false] ++ [0, 1, 2, 3, 4, 5, 6, 7].map c.data.getLsbD ++ [c.mark, c.stop]

/-! ## Answers (R140, R179, 12.5) -/

/-- A good answer. -/
inductive Answer where
  | status (fault : Nat)
  | entry (dest : Nat) (kind : EntryKind) (toggle : Bool) (fault : Nat)
  deriving DecidableEq, Repr

/-- Characters after the address that may be fields or check characters: mark 0, stop bit 1. -/
def plainChars (l : List LinkChar) : Bool := l.all fun c => !c.mark && c.stop

/-- The check of an answer is good: it is computed over every character before the two check characters. -/
def checkGood (data check : List LinkChar) : Bool :=
  check.map LinkChar.data == checkBytes (data.map LinkChar.data)

/-- The fields of an answer whose kind character is `k` (12.5). -/
def answerFields (k : Nat) (fields : List LinkChar) : Option Answer :=
  match k, fields with
  | 1, [f] => some (.status (f.data.toNat % 16))
  | 2, [d, f] =>
    some (.entry d.data.toNat (if f.data.getLsbD 0 then .accessible else .standard) (f.data.getLsbD 1)
      (f.data.toNat / 16))
  | _, _ => none

/-- How many field characters an answer kind has. -/
def fieldCount (k : Nat) : Nat := if k = 1 then 1 else 2

/-- The first answer among the characters heard in an IN slot, when it is good: it begins at an address character, its
address is the designated drop, its kind is STATUS or ENTRY, every character has its stop bit, and its check is good.
What follows it is discarded (R140, R141, R179; log entry 15). -/
def goodAnswerIn (heard : List LinkChar) (drop : Nat) : Option Answer :=
  match heard.dropWhile fun c => !c.mark with
  | a :: k :: rest =>
    let n := fieldCount k.data.toNat
    let fields := rest.take n
    let check := (rest.drop n).take 2
    if a.data.toNat = drop ∧ a.stop = true ∧ plainChars (k :: fields ++ check) = true ∧
        checkGood (a :: k :: fields) check = true then answerFields k.data.toNat fields
    else none
  | [_] => none
  | [] => none

/-! ## Designation (R139) -/

/-- The lowest drop above one, else the lowest of all. -/
def nextDrop (drops : List Nat) (turn : Option Nat) : Option Nat :=
  match turn with
  | none => drops.min?
  | some t =>
    match (drops.filter fun x => t < x).min? with
    | some d => some d
    | none => drops.min?

/-- The drops of the PRESENT displays of a link, without the display whose frame will still be in flight. -/
def pollable (faces : Tab Face) (n : Fin 8) (flying : Option Nat) : List Nat :=
  (faces.filter fun x => x.2.link == n && some x.1 != flying).map fun x => x.2.drop

/-- The designation of a block: NONE when the next slot is not IN (R139). -/
def Engines.designate (e : Engines) (n : Fin 8) (flying : Option Nat) : Option Nat :=
  let l := e.linkOf n
  if l.setup.lnkIn ((l.slot + 1) % 32) then nextDrop (pollable e.face.faces n flying) l.turn else none

/-- The last-taken toggle of a display. -/
def Engines.toggleOf (e : Engines) (d : Nat) : Option Bool := (e.link.displays.get d).bind Display.toggle

/-- The drop of a display. -/
def Engines.dropOf (e : Engines) (d : Nat) : Nat :=
  match e.faceOf d with
  | some f => f.drop
  | none => 0

/-- Send a block in the present slot: the designation becomes the last designated drop and the pending one. -/
def Engines.send (e : Engines) (n : Fin 8) (flying : Option Nat) (block : Option Nat → Block) : Engines :=
  let poll := e.designate n flying
  e.onLink n fun l =>
    { l with
      block := some (block poll), served := true, pending := poll, turn := if poll.isSome then poll else l.turn }

/-- The EMPTY block (R134). -/
def emptyBlock (poll : Option Nat) : Block := ⟨0, .empty, 0, true, false, none, poll, []⟩

/-- The block of a frame at its next index (R133, R135). -/
def Frame.block (fr : Frame) (drop payload : Nat) (echo : Option Bool) (poll : Option Nat) : Block :=
  { addr := drop, kind := fr.kind, index := fr.next, last := decide (fr.bytes.length ≤ (fr.next + 1) * payload),
    abort := false, echo := echo, poll := poll, payload := (fr.bytes.drop (fr.next * payload)).take payload }

/-- The block at the next index is the frame's last. -/
def Frame.isLast (fr : Frame) (payload : Nat) : Bool := decide (fr.bytes.length ≤ (fr.next + 1) * payload)

/-- The abort block (R136). -/
def Frame.abortBlock (fr : Frame) (drop : Nat) (echo : Option Bool) (poll : Option Nat) : Block :=
  { addr := drop, kind := fr.kind, index := fr.next, last := true, abort := true, echo := echo, poll := poll,
    payload := [] }

/-- Send the next block of the frame in flight (R135). -/
def Engines.sendNext (e : Engines) (n : Fin 8) (fr : Frame) : Engines :=
  let p := (e.linkOf n).setup.lnkPayload
  let last := fr.isLast p
  let e := e.send n (if last then none else some fr.display)
    (fr.block (e.dropOf fr.display) p (e.toggleOf fr.display))
  e.onLink n fun l =>
    { l with frame := some { fr with next := fr.next + 1, closing := if last then .last else .none } }

/-- Send the abort block of the frame in flight (R136). -/
def Engines.sendAbort (e : Engines) (n : Fin 8) (fr : Frame) : Engines :=
  let e := e.send n none (fr.abortBlock (e.dropOf fr.display) (e.toggleOf fr.display))
  e.onLink n fun l => { l with frame := some { fr with closing := .abort } }

/-! ## The walk of the queue (R134) -/

/-- What a walk finds: the Fetch Unit and the engines after its look-ups, marks and requests, and the display that can
be sent with the codes of its line. -/
structure Walk where
  fetch : FetchUnit
  eng : Engines
  found : Option (Nat × List Code)
  deriving DecidableEq, Repr

/-- A display whose WAITING_TEXT mark stands for a tag that is coming is passed over with no lookup (R134 step 1). -/
def Face.awaits (face : Face) (f : FetchUnit) : Bool :=
  match face.waitText with
  | some t => f.textComing t
  | none => false

/-- Take the queue from its head and stop at the first display that can be sent (R134 steps 1 to 3). -/
def walkQueue : List Nat → FetchUnit → Engines → Walk
  | [], f, e => ⟨f, e, none⟩
  | d :: ds, f, e =>
    match e.faceOf d with
    | none => walkQueue ds f e
    | some face =>
      if face.awaits f then walkQueue ds f e
      else
        match (face.visible e.face.slots).line with
        | none => ⟨f, e, some (d, [])⟩
        | some t =>
          match f.lookup t with
          | some (codes, f') => ⟨f', e, some (d, codes)⟩
          | none => walkQueue ds (f.requestText t) (e.storeFace d fun x => { x with waitText := some t })

/-- One more frame has been built. -/
def Engines.countFrame (e : Engines) : Engines := { e with link := { e.link with frames := e.link.frames + 1 } }

/-- A frame is built for a display: WAITING_TEXT is cleared, WAITING_GLYPHS set, the display goes to the head of the
queue and its frame is in flight (R134 step 3, R79). -/
def Engines.buildFrame (e : Engines) (f : FetchUnit) (n : Fin 8) (d : Nat) (codes : List Code) : Engines :=
  match e.faceOf d with
  | none => e
  | some face =>
    let v := face.visible e.face.slots
    let built := v.frame f e.link.frames codes
    let fr : Frame := ⟨d, built.1, built.2, 0, v.strokesCarried, false, false, .none⟩
    let e := (e.storeFace d fun x => { x with waitText := none, waitGlyphs := v.waits f.ready }).countFrame
    (e.onLink n fun l => { l with queue := d :: l.queue.erase d, frame := some fr }).sendNext n fr

/-- What an OUT slot does: the abort block or the next block of the frame in flight, else a walk that builds a frame or
sends the EMPTY block (R134 to R136). -/
def outSlotStep (n : Fin 8) (f : FetchUnit) (e : Engines) : FetchUnit × Engines :=
  match (e.linkOf n).frame with
  | some fr => (f, if fr.abortDue then e.sendAbort n fr else e.sendNext n fr)
  | none =>
    let w := walkQueue (e.linkOf n).queue f e
    match w.found with
    | some (d, codes) => (w.fetch, w.eng.buildFrame w.fetch n d codes)
    | none => (w.fetch, w.eng.send n none emptyBlock)

/-! ## The end of a frame -/

/-- The block with LAST has been sent: the display leaves the queue, its strokes are lowered without a mark, and a
recorded REFRESH queues it again (R27, R135). -/
def Engines.completeFrame (e : Engines) (n : Fin 8) (fr : Frame) : Engines :=
  let e := e.onLink n fun l => { l with frame := none, queue := l.queue.erase fr.display }
  let e := e.storeFace fr.display fun x => { x with strokes := x.strokes - fr.strokes }
  if fr.refresh then e.join n fr.display else e

/-- The abort block has been sent: nothing is lowered, and the display re-enters the queue (R136). -/
def Engines.abortFrame (e : Engines) (n : Fin 8) (fr : Frame) : Engines :=
  (e.onLink n fun l => { l with frame := none, queue := l.queue.erase fr.display }).join n fr.display

end Sys2Proof.Machine
end

