-- ==== Sys2Proof/Machine/ResetClock.lean ====
section
/-! DEFINITION. The reset pin and the clock: POWER_ON_RESET, RESET_N_FALL, US_TICK, MS_TICK. -/

namespace Sys2Proof.Machine

/-- The engines at their power-on values; the count of frames built is the model's own and goes on (log entry 19). -/
def Engines.poweredOn (e : Engines) : Engines :=
  { Engines.reset with link := { LinkCtl.reset with frames := e.link.frames } }

/-- Every piece of the part's state at its power-on value; host memory and the queue of commands are not the part's. -/
def State.poweredOn (s : State) : State :=
  { State.reset with pending := s.pending, mem := s.mem, eng := s.eng.poweredOn }

/-- POWER_ON_RESET (R180): the rising edge of RESET_N. -/
def execPowerOnReset (s : State) : Host.Outcome State Fault Refusal := .next s.poweredOn

/-- RESET_N goes low: transactions in progress at either port are abandoned, a held burst with them, and the data port
gives nothing (R153, R158, R180). -/
def State.resetFall (s : State) : State :=
  { s with resetLow := true, path := { s.path with held := none, waiting := none, port := none, upData := none } }

/-- RESET_N_FALL (R180). -/
def execResetNFall (s : State) : Host.Outcome State Fault Refusal := .next s.resetFall

/-- The holdoff timer counts a µs tick (R157). -/
def Held.tick (h : Held) : Held := { h with timer := h.timer.map fun t => { t with ticks := t.ticks + 1 } }

/-- A µs tick: the count of reference cycles starts again, the count toward the next ms tick rises, the holdoff timer
advances (R143, R157). -/
def State.usTick (s : State) : State :=
  { s with
    clock := { s.clock with refCount := 0, usCount := s.clock.usCount + 1 }
    path := { s.path with held := s.path.held.map Held.tick } }

/-- US_TICK (R143). -/
def execUsTick (s : State) : Host.Outcome State Fault Refusal := whenUp s State.usTick

/-- 1000 µs ticks have been counted and their ms tick has not been taken (R143; log entry 6). -/
def State.msDue (s : State) : Bool := decide (1000 ≤ s.clock.usCount)

/-- A ms tick: the ms time rises by one, FFFF_FFFFh to 0 (R143). -/
def State.msTick (s : State) : State :=
  if s.msDue then { s with clock := { s.clock with usCount := s.clock.usCount - 1000, ms := s.clock.ms + 1 } } else s

/-- MS_TICK (R143). -/
def execMsTick (s : State) : Host.Outcome State Fault Refusal := whenUp s State.msTick

/-- One cycle of the reference clock, taken when no command waits: it counts toward the next µs tick, which occurs when
the count reaches the divider, with the ms tick it completes (R143; log entry 5). -/
def State.refCycle (s : State) : State :=
  if s.resetLow then s
  else if s.clock.refCount + 1 < s.asm.settings.divider then
    { s with clock := { s.clock with refCount := s.clock.refCount + 1 } }
  else s.usTick.msTick

end Sys2Proof.Machine
end

