-- ==== Sys2Proof/WellFormed.lean ====
section
/-! DEFINITION. Which commands are well formed: an upstream transaction is a burst of 1, 2, 4 or 8 words aligned to
its own size (section 10.1). Every other command has no operand that can be ill formed. -/

namespace Sys2Proof

/-- The burst sizes of the upstream port: 1, 2, 4 or 8 words. -/
def burstSize (n : Nat) : Bool := n == 1 || n == 2 || n == 4 || n == 8

/-- A burst of `n` words at `addr` is a transaction of section 10.1. -/
def burstOk (addr n : Nat) : Bool := burstSize n && addr % (4 * n) == 0

/-- Well-formedness, as a check that can be run. -/
def Instr.wf : Instr → Bool
  | .upstreamWrite addr beats => burstOk addr.toNat beats.length
  | .upstreamRead addr count => burstOk addr.toNat count
  | .powerOnReset => true
  | .usTick => true
  | .msTick => true
  | .hostWriteComplete => true
  | .hostReadComplete => true
  | .holdoffEnd => true
  | .holdoffExpiry => true
  | .intakeDrain => true
  | .carCommit => true
  | .assignCommit => true
  | .rosterCommit => true
  | .labelCommit => true
  | .playoutCommit => true
  | .relocationCommit => true
  | .descriptorCommit => true
  | .settingsCommit => true
  | .groupCommit => true
  | .linkSetupCommit => true
  | .overrideSlotCommit => true
  | .languageCommit => true
  | .ringSetupCommit => true
  | .restart => true
  | .sweep => true
  | .loadGlyphs => true
  | .badOpcode => true
  | .fetchChannelTake _ => true
  | .sweepReadIssue _ => true
  | .sweepReadComplete => true
  | .sweepCompletion => true
  | .textFillTransferComplete _ => true
  | .glyphTransferComplete _ => true
  | .outSlot _ => true
  | .frameComplete _ => true
  | .abortBlockSent _ => true
  | .statusAnswer _ _ => true
  | .entryAnswer _ _ => true
  | .inSlotMiss _ _ => true
  | .entryWaitExpiry => true
  | .promptHoldExpiry => true
  | .lanternExpiry => true
  | .gongExpiry => true
  | .dwellExpiry => true
  | .overrideDwellExpiry => true
  | .reportWriteIssue => true
  | .reportWriteComplete => true
  | .statusMirrorWrite => true
  | .resetNFall => true
  | .slotPositionAdvance _ => true
  | .fetchReadComplete => true
  | .statusMirrorWriteComplete => true

end Sys2Proof
end

