-- ==== Sys2Proof/Machine/HostBus.lean ====
section
/-! DEFINITION. The host's traffic: UPSTREAM_WRITE, UPSTREAM_READ, HOST_WRITE_COMPLETE, HOST_READ_COMPLETE, HOLDOFF_END,
HOLDOFF_EXPIRY (chapter 10). -/

namespace Sys2Proof.Machine

/-! ## Taking a transaction -/

/-- The timer a hold starts with: the limit in force for a timed holdoff, none for an untimed one (R157). -/
def State.holdTimer (s : State) (items : List Item) : Option HoldTimer :=
  if timedHold items then some ⟨s.asm.settings.holdoffLimit, 0⟩ else none

/-- A host write burst is taken: decoded, then held for want of intake places or forwarded with its places promised
(R153, R155 to R157). -/
def State.takeWrite (s : State) (addr : Nat) (beats : List Beat) : State :=
  let items := captured s.path addr beats
  if s.upstreamFree then
    if s.unpromised < items.length then
      { s with path := { s.path with held := some ⟨addr, beats, items, s.holdTimer items⟩ } }
    else s.forward (.hostWrite addr beats items)
  else s

/-- UPSTREAM_WRITE (R155). An operand that is no transaction of 10.1 faults (log entry 7). -/
def execUpstreamWrite (addr : BitVec 26) (beats : List Beat) (s : State) : Host.Outcome State Fault Refusal :=
  if burstOk addr.toNat beats.length then whenUp s fun s => s.takeWrite addr.toNat beats else .fault .notATransaction

/-- A host read burst is taken and forwarded (R153). -/
def State.takeRead (s : State) (addr count : Nat) : State :=
  if s.upstreamFree then s.forward (.hostRead addr count) else s

/-- UPSTREAM_READ (R153). An operand that is no transaction of 10.1 faults (log entry 7). -/
def execUpstreamRead (addr : BitVec 26) (count : Nat) (s : State) : Host.Outcome State Fault Refusal :=
  if burstOk addr.toNat count then whenUp s fun s => s.takeRead addr.toNat count else .fault .notATransaction

/-! ## Completion -/

/-- A host write completes: memory takes its enabled lanes, its items enter intake, and the Fetch Unit compares it
(R153, R155, R159). -/
def State.writeDone (s : State) (addr : Nat) (beats : List Beat) (items : List Item) : State :=
  { s with
    mem := Memory.writeBeats s.mem addr beats
    asm := { s.asm with intake := s.asm.intake ++ items }
    fetch := s.fetch.snoop (writtenBytes addr beats) }

def State.hostWriteComplete (s : State) : State :=
  match s.path.port with
  | some (.hostWrite addr beats items) => (s.writeDone addr beats items).freePort
  | some (.hostRead _ _) => s
  | some (.reportWrite _ _ _) => s
  | some (.mirrorWrite _ _) => s
  | some (.sweepRead _) => s
  | some (.fetchRead _ _ _ _) => s
  | none => s

/-- HOST_WRITE_COMPLETE (R159). -/
def execHostWriteComplete (s : State) : Host.Outcome State Fault Refusal := whenUp s State.hostWriteComplete

/-- The slot one below in the ring, or the highest slot below the lowest (R173, R174; log entry 9). -/
def Ring.below (r : Ring) (slot : Nat) : Nat :=
  if slot = r.setup.ringBase then r.setup.ringBase + 16 * (r.setup.ringSize - 1) else slot - 16

/-- The oldest unconsumed record is consumed (R174). -/
def Ring.consume (r : Ring) : Ring :=
  let left := r.unconsumed - 1
  { r with unconsumed := left, oldest := if left = 0 then none else r.oldest.map r.below }

/-- The words of a host read are compared with the watched address, in ascending order (R160). -/
def Ring.compare (r : Ring) (addr : Nat) : Nat → Ring
  | 0 => r
  | n + 1 => (if r.watched = some addr then r.consume else r).compare (addr + 4) n

/-- A host read completes: memory's data goes back unchanged, and the report ring is consumed (R153, R160). -/
def State.readDone (s : State) (addr count : Nat) : State :=
  { s with
    path := { s.path with upData := some (Memory.readWords s.mem addr count) }
    ring := s.ring.compare addr count }

def State.hostReadComplete (s : State) : State :=
  match s.path.port with
  | some (.hostRead addr count) => (s.readDone addr count).freePort
  | some (.hostWrite _ _ _) => s
  | some (.reportWrite _ _ _) => s
  | some (.mirrorWrite _ _) => s
  | some (.sweepRead _) => s
  | some (.fetchRead _ _ _ _) => s
  | none => s

/-- HOST_READ_COMPLETE (R160). -/
def execHostReadComplete (s : State) : Host.Outcome State Fault Refusal := whenUp s State.hostReadComplete

/-! ## The end of a hold -/

/-- A held burst is released to the arbiter with the items it is captured with. -/
def State.unhold (s : State) (h : Held) (items : List Item) : State :=
  ({ s with path := { s.path with held := none } }).forward (.hostWrite h.addr h.beats items)

/-- Enough places are unpromised: the burst is captured as if it had not been held (R157). -/
def State.holdoffEnd (s : State) : State :=
  match s.path.held with
  | some h => if h.items.length ≤ s.unpromised then s.unhold h h.items else s
  | none => s

/-- HOLDOFF_END (R157). -/
def execHoldoffEnd (s : State) : Host.Outcome State Fault Refusal := whenUp s State.holdoffEnd

/-- The timer of a timed holdoff has expired (R157, R158). -/
def Held.expired (h : Held) : Bool :=
  match h.timer with
  | some t => decide (t.limit ≤ t.ticks)
  | none => false

/-- The burst is forwarded uncaptured, and each window it was decoded into takes its loss, in ascending window kind
(R158). -/
def State.holdoffExpiry (s : State) : State :=
  match s.path.held with
  | some h =>
    if h.expired then (List.finRange 5).foldl (fun acc w => acc.loseOn h.items w) (s.unhold h []) else s
  | none => s

/-- HOLDOFF_EXPIRY (R158). -/
def execHoldoffExpiry (s : State) : Host.Outcome State Fault Refusal := whenUp s State.holdoffExpiry

end Sys2Proof.Machine
end

