-- ==== Sys2Proof/Machine/Assembly.lean ====
section
/-! DEFINITION. The Record Assembler: INTAKE_DRAIN and SWEEP_COMPLETION (11.1, 11.3). -/

namespace Sys2Proof.Machine

/-- Merge an item into a staging image at a key (R164). -/
def mergeAt (t : Tab Word) (key : Nat) (i : Item) : Tab Word := t.put key (mergeLanes (t.word key) i.word i.lanes)

/-- An item decoded by a base or record count that is no longer the accepted descriptor's (R164). -/
def staleItem (p : MemPath) (w : Fin 5) (base count : Word) : Bool :=
  (p.window w).w0 != base || (p.window w).w3 != count

/-- What one item does: discarded, merged, or merged and handed to its owner as a commit (R164). -/
def Assembler.takeItem (a : Assembler) (p : MemPath) (i : Item) : Assembler :=
  match i.target with
  | .window w slot word base count =>
    if staleItem p w base count then a
    else { a with
      winStage := a.winStage.set w (mergeAt (a.stage w) (4 * slot + word) i)
      handed := if word = 3 then some (.window w slot) else none }
  | .control off =>
    match cbRecord off with
    | none => a
    | some (place, start, words) =>
      { a with
        cbStage := mergeAt a.cbStage off i
        handed := if off = start + 4 * (words - 1) then some place else none }

/-- One item fewer stands ahead of a sweep's completion. -/
def SweepEnd.drained (x : SweepEnd) : SweepEnd := { x with ahead := x.ahead - 1 }

/-- The oldest item is drained once the record handed before has been acted on (R164). -/
def State.intakeDrain (s : State) : State :=
  match s.asm.handed, s.asm.intake with
  | none, i :: rest =>
    { s with asm :=
        ({ s.asm with intake := rest, sweepEnds := s.asm.sweepEnds.map SweepEnd.drained }).takeItem s.path i }
  | none, [] => s
  | some _, _ => s

/-- INTAKE_DRAIN (R164). -/
def execIntakeDrain (s : State) : Host.Outcome State Fault Refusal := whenUp s State.intakeDrain

/-- The completion of a sweep is taken: the window is CURRENT with a SWEEP_DONE report, or stays STALE when a SWEEP
request for it is in the list (R167). -/
def State.endSweep (s : State) (x : SweepEnd) : State :=
  if s.fetch.requests.any (Request.sweepsWindow x.kind) then s
  else ({ s with asm := s.asm.setWinState x.kind .current }).report (.sweepDone x.kind x.records)

/-- The Record Assembler takes the oldest completion once it has drained the sweep's last word and acted on it. -/
def State.sweepCompletion (s : State) : State :=
  match s.asm.handed, s.asm.sweepEnds with
  | none, x :: rest =>
    if x.ahead = 0 then ({ s with asm := { s.asm with sweepEnds := rest } }).endSweep x else s
  | none, [] => s
  | some _, _ => s

/-- SWEEP_COMPLETION (R167). -/
def execSweepCompletion (s : State) : Host.Outcome State Fault Refusal := whenUp s State.sweepCompletion

end Sys2Proof.Machine
end

