-- ==== Sys2Proof/Machine/Commits.lean ====
section
/-! DEFINITION. The commits: each record its owner is handed, compared with the accepted record, checked, and accepted or
refused (R165). A commit step acts on the record the Record Assembler holds out; with another record held out, or none,
it has no effect (log entry 2). -/

namespace Sys2Proof.Machine

/-- A commit of a state or setting record: equal to the accepted record it does nothing; else it is checked, and refused
with a report or accepted (R165). -/
def State.judge {α : Type} [DecidableEq α] (s : State) (place : RecordPlace) (staged : α) (accepted : Option α)
    (check : Option Reason) (accept : State → State) : State :=
  if accepted = some staged then s.handedOver
  else
    match check with
    | some why => s.handedOver.refuseRecord place why
    | none => accept s.handedOver

/-- The staged record of a window slot. -/
def State.stagedSlot (s : State) (w : Fin 5) (slot : Nat) : Rec4 := Machine.stagedSlot (s.asm.stage w) slot

/-- The staged record of four words of the control block. -/
def State.staged4 (s : State) (off : Nat) : Rec4 := stagedCb4 s.asm.cbStage off

/-- The staged record of eight words of the control block. -/
def State.staged8 (s : State) (off : Nat) : Rec8 := stagedCb8 s.asm.cbStage off

/-- The slot of a window whose record is handed. -/
def State.handedSlot (s : State) (w : Fin 5) : Option Nat :=
  match s.asm.handed with
  | some (.window k slot) => if k = w then some slot else none
  | _ => none

/-! ## Window records -/

/-- The commit of car `c`. -/
def State.commitCar (s : State) (c : Fin 48) : State :=
  let r := s.stagedSlot carWindow c
  s.judge (.window carWindow c) r (s.eng.ind.carOf c).accepted (checkCar s.eng.ind r) fun s =>
    s.engines fun A e => e.acceptCar A c r

def State.carCommit (s : State) : State :=
  match (s.handedSlot carWindow).bind (toFin 48) with
  | some c => s.commitCar c
  | none => s

/-- CAR_COMMIT (R8). -/
def execCarCommit (s : State) : Host.Outcome State Fault Refusal := whenUp s State.carCommit

/-- The commit of an assignment: a stream commit, judged whatever it holds (R44, R165). -/
def State.commitAssign (s : State) (slot : Nat) : State :=
  let r := s.stagedSlot assignWindow slot
  match checkAssign r with
  | some why => s.handedOver.refuseRecord (.window assignWindow slot) why
  | none => s.handedOver.engines fun A e => e.judgeAssign A r

def State.assignCommit (s : State) : State :=
  match s.handedSlot assignWindow with
  | some slot => s.commitAssign slot
  | none => s

/-- ASSIGN_COMMIT (R45). -/
def execAssignCommit (s : State) : Host.Outcome State Fault Refusal := whenUp s State.assignCommit

def State.commitRoster (s : State) (d : Nat) : State :=
  let r := s.stagedSlot rosterWindow d
  s.judge (.window rosterWindow d) r (s.eng.link.roster.get d) (checkRoster s.eng d r) fun s =>
    s.engines fun A e => e.acceptRoster A d r

def State.rosterCommit (s : State) : State :=
  match s.handedSlot rosterWindow with
  | some d => s.commitRoster d
  | none => s

/-- ROSTER_COMMIT (R125). -/
def execRosterCommit (s : State) : Host.Outcome State Fault Refusal := whenUp s State.rosterCommit

def State.commitLabel (s : State) (f : Nat) : State :=
  let r := s.stagedSlot labelWindow f
  s.judge (.window labelWindow f) r (s.eng.ind.labels.get f) (checkLabel r) fun s =>
    s.engines fun A e => e.acceptLabel A f r

def State.labelCommit (s : State) : State :=
  match s.handedSlot labelWindow with
  | some f => s.commitLabel f
  | none => s

/-- LABEL_COMMIT (R15). -/
def execLabelCommit (s : State) : Host.Outcome State Fault Refusal := whenUp s State.labelCommit

def State.commitPlayout (s : State) (c : Fin 16) : State :=
  let r := s.stagedSlot playoutWindow c
  s.judge (.window playoutWindow c) r (s.eng.ctx c).accepted (checkPlayout r) fun s =>
    s.engines fun A e => e.acceptPlayout A c r

def State.playoutCommit (s : State) : State :=
  match (s.handedSlot playoutWindow).bind (toFin 16) with
  | some c => s.commitPlayout c
  | none => s

/-- PLAYOUT_COMMIT (R92). -/
def execPlayoutCommit (s : State) : Host.Outcome State Fault Refusal := whenUp s State.playoutCommit

/-! ## The control block location and the window descriptors (R154, R162, R166) -/

/-- Two byte ranges, start and length, share a byte. -/
def rangesMeet (a n b m : Nat) : Bool := decide (a < b + m ∧ b < a + n ∧ 0 < n ∧ 0 < m)

/-- A byte range shares a byte with an enabled window other than one. -/
def meetsWindow (p : MemPath) (but : Option (Fin 5)) (a n : Nat) : Bool :=
  (List.finRange 5).any fun w =>
    some w != but && rangesMeet a n (p.window w).winBase (16 * (p.window w).winCount)

/-- The check of a relocation record (R162). -/
def checkRelocation (p : MemPath) (r : Rec4) : Option Reason :=
  if r.w3.toNat % 0x1000 ≠ 0 ∨ Config.addressSpace ≤ r.w3.toNat then some .badValue
  else if meetsWindow p none r.w3.toNat 0x1000 then some .badWindow
  else none

/-- An accepted relocation record: the base moves at once, and a moved block makes a mirror write due (R162). -/
def State.relocate (s : State) (r : Rec4) : State :=
  { s with
    path := { s.path with reloc := r }
    ring := { s.ring with mirrorMoved := s.ring.mirrorMoved || s.path.reloc.w3 != r.w3 } }

def State.relocationCommit (s : State) : State :=
  match s.asm.handed with
  | some .relocation =>
    s.judge .relocation (s.staged4 0) (some s.path.reloc) (checkRelocation s.path (s.staged4 0)) fun s' =>
      s'.relocate (s.staged4 0)
  | _ => s

/-- RELOCATION_COMMIT (R162). -/
def execRelocationCommit (s : State) : Host.Outcome State Fault Refusal := whenUp s State.relocationCommit

/-- The check of a window descriptor (R154). -/
def checkDescriptor (p : MemPath) (w : Fin 5) (r : Rec4) : Option Reason :=
  if r.winCount = 0 then none
  else if windowMax w < r.winCount ∨ r.winBase % 16 ≠ 0 ∨ Config.addressSpace ≤ r.winBase then some .badValue
  else if Config.addressSpace < r.winBase + 16 * r.winCount then some .badWindow
  else if meetsWindow p (some w) r.winBase (16 * r.winCount) then some .badWindow
  else if rangesMeet r.winBase (16 * r.winCount) p.cbBase 0x1000 then some .badWindow
  else none

/-- The clearing of a window's owning table; the ASSIGN window has none (R166, R21, R15, R125, R105, R51). -/
def Engines.clearTable (A : Ambient) (e : Engines) (w : Fin 5) : Engines :=
  if w = carWindow then e.clearCars A
  else if w = rosterWindow then e.clearRoster A
  else if w = labelWindow then e.clearLabels A
  else if w = playoutWindow then e.clearPlayout
  else e

/-- The owning table and the staging of a window are cleared. -/
def State.clearWindow (s : State) (w : Fin 5) : State :=
  let s := s.engines fun A e => e.clearTable A w
  { s with asm := { s.asm with winStage := s.asm.winStage.set w [] } }

/-- A descriptor takes effect on decoding from its acceptance (R154). -/
def State.setWindow (s : State) (w : Fin 5) (r : Rec4) : State :=
  { s with path := { s.path with windows := s.path.windows.set w r } }

/-- The completions not yet taken of a window's earlier sweeps are dropped (log entry 11). -/
def State.dropEnds (s : State) (w : Fin 5) : State :=
  { s with asm := { s.asm with sweepEnds := s.asm.sweepEnds.filter fun x => x.kind != w } }

/-- An ACTIVE sweep of the old descriptor is withdrawn; a WAITING one merges with the new cause (R123, R166). -/
def State.quietSweep (s : State) (w : Fin 5) : State :=
  if s.fetch.active (.sweep w false) then s.withdrawSweep w else s.dropEnds w

/-- The state a window takes at a descriptor with changed base or count (R166). -/
def State.rewindow (s : State) (w : Fin 5) (r : Rec4) : State :=
  let s := s.clearWindow w
  if r.winCount = 0 then
    let s := s.withdrawSweep w
    { s with asm := s.asm.setWinState w .disabled }
  else if w = assignWindow then { s with asm := s.asm.setWinState w .current }
  else (s.quietSweep w).staleCause w

/-- An accepted window descriptor (R154, R166). -/
def State.acceptDescriptor (s : State) (w : Fin 5) (r : Rec4) : State :=
  let old := s.path.window w
  let s := s.setWindow w r
  if old.w0 = r.w0 ∧ old.w3 = r.w3 then s else s.rewindow w r

/-- The offset of a window descriptor (10.2). -/
def descriptorOffset (w : Fin 5) : Nat := 0x80 + 16 * w

def State.descriptorCommit (s : State) : State :=
  match s.asm.handed with
  | some (.descriptor w) =>
    let r := s.staged4 (descriptorOffset w)
    s.judge (.descriptor w) r (some (s.path.window w)) (checkDescriptor s.path w r) fun s => s.acceptDescriptor w r
  | _ => s

/-- DESCRIPTOR_COMMIT (R166). -/
def execDescriptorCommit (s : State) : Host.Outcome State Fault Refusal := whenUp s State.descriptorCommit

/-! ## Settings (R168) -/

/-- The check of a settings record, field by field (R168). -/
def checkSettings (r : Rec8) : Option Reason :=
  if r.divider < 8 ∨ 50 < r.divider ∨ r.holdoffLimit < 1 ∨ 255 < r.holdoffLimit ∨ r.statusPeriod < 10 ∨
      1000 < r.statusPeriod ∨ r.entryWait < 2000 ∨ 60000 < r.entryWait ∨ r.assignedHold < 1000 ∨
      30000 < r.assignedHold ∨ r.noticeHold < 1000 ∨ 30000 < r.noticeHold ∨ r.gongSpacing < 200 ∨
      1000 < r.gongSpacing then some .badValue
  else none

/-- An accepted settings record: a new divider starts the count of reference cycles again (R143), and a new idle
message reaches every terminal's BASE (R20). -/
def State.acceptSettings (s : State) (r : Rec8) : State :=
  let refCount := if s.asm.settings.w0 = r.w0 then s.clock.refCount else 0
  let s := { s with
    asm := { s.asm with settings := r }
    clock := { s.clock with refCount := refCount } }
  s.engines fun A e => e.rederive A

def State.settingsCommit (s : State) : State :=
  match s.asm.handed with
  | some .settings =>
    s.judge .settings (s.staged8 0x40) (some s.asm.settings) (checkSettings (s.staged8 0x40)) fun s' =>
      s'.acceptSettings (s.staged8 0x40)
  | _ => s

/-- SETTINGS_COMMIT (R168). -/
def execSettingsCommit (s : State) : Host.Outcome State Fault Refusal := whenUp s State.settingsCommit

/-! ## Group, link, override, language and ring records -/

/-- The offset of a group record (1.1). -/
def groupOffset (g : Fin 8) : Nat := 0x100 + 32 * g

def State.groupCommit (s : State) : State :=
  match s.asm.handed with
  | some (.group g) =>
    let r := s.staged8 (groupOffset g)
    s.judge (.group g) r (some (s.eng.ind.groupOf g)) (checkGroup r) fun s => s.engines fun A e => e.acceptGroup A g r
  | _ => s

/-- GROUP_COMMIT (R2). -/
def execGroupCommit (s : State) : Host.Outcome State Fault Refusal := whenUp s State.groupCommit

/-- The offset of a link setup (8.2). -/
def linkOffset (n : Fin 8) : Nat := 0x200 + 16 * n

def State.linkSetupCommit (s : State) : State :=
  match s.asm.handed with
  | some (.linkSetup n) =>
    let r := s.staged4 (linkOffset n)
    s.judge (.linkSetup n) r (some (s.eng.linkOf n).setup) (checkLink r) fun s => s.engines fun _ e => e.acceptLink n r
  | _ => s

/-- LINK_SETUP_COMMIT (R129). -/
def execLinkSetupCommit (s : State) : Host.Outcome State Fault Refusal := whenUp s State.linkSetupCommit

/-- The offset of an override slot record (5.4). -/
def slotOffset (k : Fin 4) : Nat := 0x280 + 16 * k

def State.overrideSlotCommit (s : State) : State :=
  match s.asm.handed with
  | some (.overrideSlot k) =>
    let r := s.staged4 (slotOffset k)
    s.judge (.overrideSlot k) r (some (slotOf s.eng.face.slots k).record) (checkSlot r) fun s =>
      s.engines fun A e => e.acceptSlot A k r
  | _ => s

/-- OVERRIDE_SLOT_COMMIT (R80). -/
def execOverrideSlotCommit (s : State) : Host.Outcome State Fault Refusal := whenUp s State.overrideSlotCommit

/-- The check of a language record (R120). -/
def checkLanguage (r : Rec4) : Option Reason := if 8 < r.w3.toNat then some .badValue else none

/-- An accepted language record; a language that becomes READY is told to the Face Table and the Playout Engine
(R120). -/
def State.acceptLanguage (s : State) (l : Fin 16) (r : Rec4) : State :=
  let was := s.fetch.ready l
  let s := { s with fetch := { s.fetch with langs := s.fetch.langs.set l r } }
  if !was && s.fetch.ready l then s.engines fun A e => e.languageReady A l else s

/-- The offset of a language record (7.4). -/
def languageOffset (l : Fin 16) : Nat := 0x2C0 + 16 * l

def State.languageCommit (s : State) : State :=
  match s.asm.handed with
  | some (.language l) =>
    let r := s.staged4 (languageOffset l)
    s.judge (.language l) r (some (s.fetch.lang l)) (checkLanguage r) fun s => s.acceptLanguage l r
  | _ => s

/-- LANGUAGE_COMMIT (R120). -/
def execLanguageCommit (s : State) : Host.Outcome State Fault Refusal := whenUp s State.languageCommit

/-- The check of a ring setup (R172). -/
def checkRing (r : Rec4) : Option Reason :=
  if r.ringSize = 0 then none
  else if r.ringSize < 16 ∨ 1024 < r.ringSize ∨ r.ringBase % 16 ≠ 0 ∨
      Config.addressSpace < r.ringBase + 16 * r.ringSize then some .badValue
  else none

/-- A record write in flight at an accepted ring setup is counted for nothing (R172). -/
def Access.voided : Access → Access
  | .reportWrite a ws _ => .reportWrite a ws true
  | a => a

/-- An accepted ring setup: unconsumed records are discarded, the write position is the highest slot (R172). -/
def State.acceptRing (s : State) (r : Rec4) : State :=
  { s with
    path := { s.path with port := s.path.port.map Access.voided }
    ring := { s.ring with
      setup := r, unconsumed := 0, oldest := none, waiting := s.ring.waiting.map Access.voided
      writePos := if r.ringSize = 0 then none else some (r.ringBase + 16 * (r.ringSize - 1)) } }

def State.ringSetupCommit (s : State) : State :=
  match s.asm.handed with
  | some .ringSetup =>
    s.judge .ringSetup (s.staged4 0x3C0) (some s.ring.setup) (checkRing (s.staged4 0x3C0)) fun s' =>
      s'.acceptRing (s.staged4 0x3C0)
  | _ => s

/-- RING_SETUP_COMMIT (R172). -/
def execRingSetupCommit (s : State) : Host.Outcome State Fault Refusal := whenUp s State.ringSetupCommit

end Sys2Proof.Machine
end

