-- ==== Sys2Proof/Machine/Commands.lean ====
section
/-! DEFINITION. The commands of the command record: RESTART, SWEEP, LOAD_GLYPHS, BAD_OPCODE (11.5). A command step acts
on the command record the Record Assembler holds out, and only for the opcodes that are its own (log entry 2). -/

namespace Sys2Proof.Machine

/-- The command record that is handed, if it is one. -/
def State.handedCommand (s : State) : Option Rec4 :=
  match s.asm.handed with
  | some .command => some (s.staged4 0x10)
  | _ => none

/-- The opcodes (12.2). -/
abbrev opRestart : Word := 1
abbrev opSweep : Word := 2
abbrev opLoadGlyphs : Word := 3

/-! ## RESTART (R171) -/

/-- The Fetch Unit abandons everything; the read being served gives nothing (R121, R161). -/
def State.restartFetch (s : State) : State :=
  { s with
    fetch := s.fetch.restarted
    path := { s.path with port := abandonPort s.path.port }
    asm := { s.asm with sweepEnds := [] } }

/-- A link at restart: its queue is emptied, its frame abandoned; a RUNNING link begins again at slot 0 with its poll
turn at its lowest drop (R129). -/
def Link.restarted (l : Link) : Link :=
  if l.running then { l.atStart with queue := [], turn := none } else { l with queue := [], frame := none }

/-- The links of a table at restart. -/
def LinkCtl.restarted (c : LinkCtl) : LinkCtl :=
  { roster := [], displays := [],
    links := (List.finRange 8).foldl (fun v n => upd v n Link.restarted) c.links
    frames := c.frames }

/-- The tables that restart clears, the timer list among them; group records, link setups and slot records stay. -/
def Engines.cleared (e : Engines) : Engines :=
  { ind := { Indication.reset with groups := e.ind.groups }
    dest := Destination.reset
    face := { faces := [], slots := e.face.slots }
    play := Vector.replicate 16 Context.reset
    link := e.link.restarted
    timers := { e.timers with list := [] }
    out := e.out }

/-- An override slot at restart: an IN_FORCE one takes language NONE and claims its place (R89). -/
def Engines.restartSlot (A : Ambient) (e : Engines) (k : Fin 4) : Engines :=
  let e := e.updSlot k fun x => { x with lang := none, place := none }
  if (slotOf e.face.slots k).record.ovrInForce then e.claimOverride A k else e

/-- The engines at restart (R171 steps 2 to 4); the slots claim their places in ascending number, the model's choice: log
entry 38. -/
def Engines.restarted (A : Ambient) (e : Engines) : Engines :=
  (List.finRange 4).foldl (fun acc k => acc.restartSlot A k) e.cleared

/-- The state windows, in ascending window kind. -/
def stateWindows : List (Fin 5) := [carWindow, rosterWindow, labelWindow, playoutWindow]

/-- The steps of R171. -/
def State.restart (s : State) : State :=
  let s := s.restartFetch.engines fun A e => e.restarted A
  (stateWindows.foldl State.makeStale s).report (.commandDone opRestart)

def State.restartCommand (s : State) : State :=
  match s.handedCommand with
  | some r => if r.cmdOpcode = opRestart then s.handedOver.restart else s
  | none => s

/-- RESTART (R171). -/
def execRestart (s : State) : Host.Outcome State Fault Refusal := whenUp s State.restartCommand

/-! ## SWEEP (R170) -/

/-- The check of a SWEEP command (R170): the window, or the reason it is refused. -/
def State.checkSweep (s : State) (r : Rec4) : Except Reason (Fin 5) :=
  match toFin 5 r.cmdWindow with
  | none => .error .badValue
  | some w =>
    if w = assignWindow then .error .badWindow
    else if s.asm.winStateOf w = .disabled then .error .disabled
    else .ok w

/-- A SWEEP command: its cause is applied, and then it reports. -/
def State.sweep (s : State) (r : Rec4) : State :=
  match s.checkSweep r with
  | .error why => s.report (.commandRefused opSweep why)
  | .ok w => (s.staleCause w).report (.commandDone opSweep)

def State.sweepCommand (s : State) : State :=
  match s.handedCommand with
  | some r => if r.cmdOpcode = opSweep then s.handedOver.sweep r else s
  | none => s

/-- SWEEP (R170). -/
def execSweep (s : State) : Host.Outcome State Fault Refusal := whenUp s State.sweepCommand

/-! ## LOAD_GLYPHS (R115 to R117) -/

/-- A load that passes its checks is begun, or its bank emptied; the read being served for a load it abandons gives
nothing (R116, R117). -/
def State.beginLoad (s : State) (a : Fin 8) (r : Rec4) : State :=
  let stopped := s.fetch.loadsOn (s.fetch.touched a r.cmdCount)
  { s with
    fetch := s.fetch.startLoad a r.cmdSource r.cmdPitch r.cmdCount
    path := { s.path with port := discardFor stopped s.path.port } }

/-- A LOAD_GLYPHS command is checked and carried out (R115). -/
def State.loadGlyphs (s : State) (r : Rec4) : State :=
  match s.fetch.checkLoad r with
  | .error why => s.report (.commandRefused opLoadGlyphs why)
  | .ok a => (s.beginLoad a r).report (.commandDone opLoadGlyphs)

def State.loadGlyphsCommand (s : State) : State :=
  match s.handedCommand with
  | some r => if r.cmdOpcode = opLoadGlyphs then s.handedOver.loadGlyphs r else s
  | none => s

/-- LOAD_GLYPHS (R115). -/
def execLoadGlyphs (s : State) : Host.Outcome State Fault Refusal := whenUp s State.loadGlyphsCommand

/-! ## Any other opcode -/

/-- An opcode that names a command (12.2). -/
def knownOpcode (w : Word) : Bool := w == opRestart || w == opSweep || w == opLoadGlyphs

def State.badOpcode (s : State) : State :=
  match s.handedCommand with
  | some r => if knownOpcode r.cmdOpcode then s else s.handedOver.report (.commandRefused r.cmdOpcode .badOpcode)
  | none => s

/-- BAD_OPCODE (R169). -/
def execBadOpcode (s : State) : Host.Outcome State Fault Refusal := whenUp s State.badOpcode

end Sys2Proof.Machine
end

