-- ==== Sys2Proof/Machine/FetchSteps.lean ====
section
/-! DEFINITION. The steps of the Fetch Unit: FETCH_CHANNEL_TAKE, SWEEP_READ_ISSUE, SWEEP_READ_COMPLETE,
TEXT_FILL_TRANSFER_COMPLETE, GLYPH_TRANSFER_COMPLETE, FETCH_READ_COMPLETE (7.2, 7.3, 7.5). -/

namespace Sys2Proof.Machine

/-- The Face Table is told of a tag that has been filled, if one has (R112). -/
def State.tellFilled (s : State) : Option Tag → State
  | some t => s.engines fun _ e => e.textFilled t
  | none => s

/-! ## A channel takes a request (R122) -/

/-- An idle channel takes the first WAITING request in priority order, and the arbiter sees its first read. -/
def State.channelTake (s : State) (ch : Fin 4) : State :=
  match s.fetch.channel ch, s.fetch.nextWaiting with
  | none, some r =>
    let next := s.fetch.take s.path.windows ch r
    (({ s with fetch := next.1 }).tellFilled next.2).arbitrate
  | none, none => s
  | some _, _ => s

/-- FETCH_CHANNEL_TAKE (R122). -/
def execFetchChannelTake (channel : Fin 4) (s : State) : Host.Outcome State Fault Refusal :=
  whenUp s fun s => s.channelTake channel

/-! ## Sweep reads (R123, R156) -/

/-- A read is issued with the descriptor it is decoded by, and the channel moves on. -/
def FetchUnit.issueSweep (f : FetchUnit) (ch : Fin 4) (w : Fin 5) (next stop : Nat) (base records : Word) : FetchUnit :=
  let n := burstWords next ((stop - next) / 4)
  let f : FetchUnit := { f with sweepReads := f.sweepReads ++ [⟨w, next, n, base, records, .live⟩] }
  f.setChannel ch (some (.sweep w (next + 4 * n) stop base records))

/-- The next read of a sweep channel is issued when no host burst is held and at least 16 places are unpromised (R123,
R156, R157). -/
def State.sweepReadIssue (s : State) (ch : Fin 4) : State :=
  match s.fetch.channel ch with
  | some (.sweep w next stop base records) =>
    if next < stop ∧ s.path.held = none ∧ Config.sweepRoom ≤ s.unpromised then
      ({ s with fetch := s.fetch.issueSweep ch w next stop base records }).arbitrate
    else s
  | some (.text _ _ _ _ _ _ _ _ _) => s
  | some (.glyph _ _ _) => s
  | none => s

/-- SWEEP_READ_ISSUE (R123). -/
def execSweepReadIssue (channel : Fin 4) (s : State) : Host.Outcome State Fault Refusal :=
  whenUp s fun s => s.sweepReadIssue channel

/-- The words of a sweep read as intake items from an address upwards: all lanes enabled, decoded by the descriptor of
the read's issue (R123). -/
def sweepItems (w : Fin 5) (base records : Word) (addr : Nat) : List Word → List Item
  | [] => []
  | x :: xs =>
    let off := addr - base.toNat
    ⟨x, addr, 0xF, .window w (off / 16) (off % 16 / 4) base records⟩ :: sweepItems w base records (addr + 4) xs

/-- The items a completed sweep read delivers. -/
def SweepRead.items (r : SweepRead) (mem : List Host.Cell) : List Item :=
  sweepItems r.kind r.base r.records r.addr (Memory.readWords mem r.addr r.count)

/-- The channel of a window's sweep with its job, when every read of it has been delivered. -/
def FetchUnit.sweptOut (f : FetchUnit) (w : Fin 5) : Option (Fin 4 × Word) :=
  if f.sweepReads.any (fun x => x.kind == w && x.status == .live) then none
  else
    (List.finRange 4).findSome? fun ch =>
      match f.channel ch with
      | some (.sweep k next stop _ records) => if k = w ∧ stop ≤ next then some (ch, records) else none
      | some (.text _ _ _ _ _ _ _ _ _) => none
      | some (.glyph _ _ _) => none
      | none => none

/-- The rerun mark of a window's request is set. -/
def FetchUnit.rerunMarked (f : FetchUnit) (w : Fin 5) : Bool := f.requests.contains (.sweep w true)

/-- A sweep starts again on its channel: its request is the newest of its kind (R121, R123). -/
def FetchUnit.rerunSweep (f : FetchUnit) (windows : Vector Rec4 5) (ch : Fin 4) (w : Fin 5) : FetchUnit :=
  let f : FetchUnit := { f with requests := f.requests.filter (fun r => !r.sweepsWindow w) ++ [.sweep w false] }
  (f.take windows ch (.sweep w false)).1

/-- The end of a sweep's last read: the sweep starts again, or its request is removed and the Record Assembler is told
(R123, R167). -/
def State.sweepReadEnd (s : State) (w : Fin 5) : State :=
  match s.fetch.sweptOut w with
  | none => s
  | some (ch, records) =>
    if s.fetch.rerunMarked w then { s with fetch := s.fetch.rerunSweep s.path.windows ch w }
    else
      { s with
        fetch := ({ s.fetch with requests := s.fetch.requests.filter (fun r => !r.sweepsWindow w) }).setChannel ch none
        asm := { s.asm with
          sweepEnds := s.asm.sweepEnds ++ [⟨w, records.toNat, s.asm.intake.length⟩] } }

/-- What the words of a completed sweep read become (R121, R123). -/
def State.sweepDelivered (s : State) (r : SweepRead) : State :=
  let filled := { s with asm := { s.asm with intake := s.asm.intake ++ r.items s.mem } }
  match r.status with
  | .abandoned => s
  | .withdrawn => filled
  | .live => filled.sweepReadEnd r.kind

def State.sweepReadComplete (s : State) : State :=
  match s.path.port with
  | some (.sweepRead r) => (s.sweepDelivered r).freePort
  | some (.hostWrite _ _ _) => s
  | some (.hostRead _ _) => s
  | some (.reportWrite _ _ _) => s
  | some (.mirrorWrite _ _) => s
  | some (.fetchRead _ _ _ _) => s
  | none => s

/-- SWEEP_READ_COMPLETE (R123). -/
def execSweepReadComplete (s : State) : Host.Outcome State Fault Refusal := whenUp s State.sweepReadComplete

/-! ## Text and glyph transfers -/

/-- The transfer of a text fill completes when its last word has been read (R112). -/
def State.textTransferComplete (s : State) (ch : Fin 4) : State :=
  let next := s.fetch.textDone ch
  (({ s with fetch := next.1 }).tellFilled next.2).arbitrate

/-- TEXT_FILL_TRANSFER_COMPLETE (R112). -/
def execTextFillTransferComplete (channel : Fin 4) (s : State) : Host.Outcome State Fault Refusal :=
  whenUp s fun s => s.textTransferComplete channel

/-- A bank has become READY: GLYPHS_READY, then each of its languages in ascending number (R118). -/
def State.bankReady (s : State) (a : Fin 8) (count : Nat) : State :=
  let langs := s.fetch.languagesOf (loadedAreas a count)
  (s.report (.glyphsReady a count)).engines fun A e => langs.foldl (fun acc l => acc.languageReady A l) e

/-- The Fetch Unit tells of a bank that is READY, if one is. -/
def State.tellReady (s : State) : Option (Fin 8 × Nat) → State
  | some (a, count) => s.bankReady a count
  | none => s

/-- A glyph transfer completes when its last glyph has been stored (R118). -/
def State.glyphTransferComplete (s : State) (ch : Fin 4) : State :=
  let next := s.fetch.glyphDone ch
  (({ s with fetch := next.1 }).tellReady next.2).arbitrate

/-- GLYPH_TRANSFER_COMPLETE (R118). -/
def execGlyphTransferComplete (channel : Fin 4) (s : State) : Host.Outcome State Fault Refusal :=
  whenUp s fun s => s.glyphTransferComplete channel

/-- The words of a read burst reach their channel, unless they are to be discarded (R112, R118, R121). -/
def State.fetchDelivered (s : State) (ch : Fin 4) (addr count : Nat) (discard : Bool) : State :=
  if discard then s else { s with fetch := s.fetch.deliver ch (Memory.readWords s.mem addr count) }

def State.fetchReadComplete (s : State) : State :=
  match s.path.port with
  | some (.fetchRead ch addr count discard) => (s.fetchDelivered ch addr count discard).freePort
  | some (.hostWrite _ _ _) => s
  | some (.hostRead _ _) => s
  | some (.reportWrite _ _ _) => s
  | some (.mirrorWrite _ _) => s
  | some (.sweepRead _) => s
  | none => s

/-- FETCH_READ_COMPLETE (R118). -/
def execFetchReadComplete (s : State) : Host.Outcome State Fault Refusal := whenUp s State.fetchReadComplete

end Sys2Proof.Machine
end

