-- ==== Sys2Proof/Machine/LinkSteps.lean ====
section
/-! DEFINITION. The steps of a display link: OUT_SLOT, FRAME_COMPLETE, ABORT_BLOCK_SENT, STATUS_ANSWER, ENTRY_ANSWER,
IN_SLOT_MISS, SLOT_POSITION_ADVANCE (8.3 to 8.6). -/

namespace Sys2Proof.Machine

/-! ## The kind of the present slot (R128) -/

def Link.inOut (l : Link) : Bool := l.running && l.setup.lnkOut l.slot
def Link.inIn (l : Link) : Bool := l.running && l.setup.lnkIn l.slot

/-! ## OUT slots -/

/-- The block of an OUT slot is built once, at its start (R131, R134). -/
def State.outSlot (s : State) (n : Fin 8) : State :=
  let l := s.eng.linkOf n
  if l.inOut && !l.served then
    let next := outSlotStep n s.fetch s.eng
    { s with fetch := next.1, eng := next.2 }
  else s

/-- OUT_SLOT (R134). -/
def execOutSlot (link : Fin 8) (s : State) : Host.Outcome State Fault Refusal := whenUp s fun s => s.outSlot link

/-- The frame in flight of a link whose closing block is of one kind. -/
def Link.closingFrame (l : Link) (c : Closing) : Option Frame := l.frame.filter fun fr => fr.closing == c

def State.frameComplete (s : State) (n : Fin 8) : State :=
  match (s.eng.linkOf n).closingFrame .last with
  | some fr => s.engines fun _ e => e.completeFrame n fr
  | none => s

/-- FRAME_COMPLETE (R135). -/
def execFrameComplete (link : Fin 8) (s : State) : Host.Outcome State Fault Refusal :=
  whenUp s fun s => s.frameComplete link

def State.abortBlockSent (s : State) (n : Fin 8) : State :=
  match (s.eng.linkOf n).closingFrame .abort with
  | some fr => s.engines fun _ e => e.abortFrame n fr
  | none => s

/-- ABORT_BLOCK_SENT (R136). -/
def execAbortBlockSent (link : Fin 8) (s : State) : Host.Outcome State Fault Refusal :=
  whenUp s fun s => s.abortBlockSent link

/-! ## IN slots -/

/-- The designated drop and display of an IN slot whose answer or miss has not been taken (R139 to R141). -/
def Engines.awaited (e : Engines) (n : Fin 8) : Option (Nat × Nat) :=
  let l := e.linkOf n
  if l.inIn && !l.served then
    match l.pending with
    | some drop => (e.atDrop n drop).map fun d => (drop, d)
    | none => none
  else none

/-- The slot has had its answer or its miss. -/
def Engines.serve (e : Engines) (n : Fin 8) : Engines := e.onLink n fun l => { l with served := true }

def State.statusAnswer (s : State) (n : Fin 8) (heard : List LinkChar) : State :=
  match s.eng.awaited n with
  | some (drop, d) =>
    match goodAnswerIn heard drop with
    | some (.status fault) => s.engines fun A e => (e.serve n).goodAnswer A n drop d fault
    | some (.entry _ _ _ _) => s
    | none => s
  | none => s

/-- STATUS_ANSWER (R140). -/
def execStatusAnswer (link : Fin 8) (heard : List LinkChar) (s : State) : Host.Outcome State Fault Refusal :=
  whenUp s fun s => s.statusAnswer link heard

def State.entryAnswer (s : State) (n : Fin 8) (heard : List LinkChar) : State :=
  match s.eng.awaited n with
  | some (drop, d) =>
    match goodAnswerIn heard drop with
    | some (.entry dest kind toggle fault) =>
      s.engines fun A e => ((e.serve n).goodAnswer A n drop d fault).offerEntry A d toggle ⟨dest, kind⟩
    | some (.status _) => s
    | none => s
  | none => s

/-- ENTRY_ANSWER (R34, R140). -/
def execEntryAnswer (link : Fin 8) (heard : List LinkChar) (s : State) : Host.Outcome State Fault Refusal :=
  whenUp s fun s => s.entryAnswer link heard

def State.inSlotMiss (s : State) (n : Fin 8) (heard : List LinkChar) : State :=
  match s.eng.awaited n with
  | some (drop, d) =>
    match goodAnswerIn heard drop with
    | some _ => s
    | none => s.engines fun A e => (e.serve n).miss A n drop d
  | none => s

/-- IN_SLOT_MISS (R141). -/
def execInSlotMiss (link : Fin 8) (heard : List LinkChar) (s : State) : Host.Outcome State Fault Refusal :=
  whenUp s fun s => s.inSlotMiss link heard

/-! ## The end of a slot (R130) -/

/-- The present slot can end: no block that ends a frame is still on the wire, an OUT slot has had its block, an IN
slot with a designation has had its answer or miss (log entries 14, 15). -/
def Engines.slotOver (e : Engines) (n : Fin 8) : Bool :=
  let l := e.linkOf n
  (l.frame.all fun fr => fr.closing == .none) && (l.served || !l.inOut) && (e.awaited n).isNone

/-- The next slot: an IN slot's designation is spent at its end (R130, R140). -/
def Link.advanced (l : Link) : Link :=
  { l with
    slot := (l.slot + 1) % 32, served := false, block := none,
    pending := if l.inIn then none else l.pending }

def State.slotAdvance (s : State) (n : Fin 8) : State :=
  if (s.eng.linkOf n).running && s.eng.slotOver n then s.engines fun _ e => e.onLink n Link.advanced else s

/-- SLOT_POSITION_ADVANCE (R130). -/
def execSlotPositionAdvance (link : Fin 8) (s : State) : Host.Outcome State Fault Refusal :=
  whenUp s fun s => s.slotAdvance link

end Sys2Proof.Machine
end

