-- ==== Sys2Proof/Machine/Expiries.lean ====
section
/-! DEFINITION. The deliveries of the Timer Unit, one step for each kind of place (9.5): ENTRY_WAIT_EXPIRY,
PROMPT_HOLD_EXPIRY, LANTERN_EXPIRY, GONG_EXPIRY, DWELL_EXPIRY, OVERRIDE_DWELL_EXPIRY. -/

namespace Sys2Proof.Machine

/-- The head of the list when it is due and of one kind (R147). -/
def State.dueOf (s : State) (k : PlaceKind) : Option TimerPlace :=
  (s.eng.timers.due s.clock.ms).filter fun p => p.kind == k

/-- The Timer Unit's part of a delivery (R148). -/
def Engines.delivered (e : Engines) : Engines := { e with timers := e.timers.deliver }

/-- Deliver the head of the list when it is due and of one kind: the list changes, and the owner acts (R147, R148). -/
def State.deliver (s : State) (k : PlaceKind) (act : Ambient → Engines → TimerPlace → Engines) : State :=
  match s.dueOf k with
  | some p => s.engines fun A e => act A e.delivered p
  | none => s

/-- The entry's owner (R49). -/
def onEntryWait (A : Ambient) (e : Engines) (p : TimerPlace) : Engines := e.expireEntry A p

/-- ENTRY_WAIT_EXPIRY (R49). -/
def execEntryWaitExpiry (s : State) : Host.Outcome State Fault Refusal :=
  whenUp s fun s => s.deliver .entryWait onEntryWait

/-- The prompt's owner (R60). -/
def onPromptHold (_ : Ambient) (e : Engines) (p : TimerPlace) : Engines :=
  match p.owner with
  | .prompt d => e.expirePrompt d p
  | .ticket _ => e
  | .car _ => e
  | .context _ => e
  | .slot _ => e

/-- PROMPT_HOLD_EXPIRY (R60). -/
def execPromptHoldExpiry (s : State) : Host.Outcome State Fault Refusal :=
  whenUp s fun s => s.deliver .promptHold onPromptHold

/-- The lantern's owner (R24). -/
def onLantern (A : Ambient) (e : Engines) (p : TimerPlace) : Engines :=
  match p.owner with
  | .car c => e.flash A c p
  | .ticket _ => e
  | .prompt _ => e
  | .context _ => e
  | .slot _ => e

/-- LANTERN_EXPIRY (R24). -/
def execLanternExpiry (s : State) : Host.Outcome State Fault Refusal := whenUp s fun s => s.deliver .lantern onLantern

/-- The gong's owner (R25). -/
def onGong (_ : Ambient) (e : Engines) (p : TimerPlace) : Engines :=
  match p.owner with
  | .car c => e.stroke c p
  | .ticket _ => e
  | .prompt _ => e
  | .context _ => e
  | .slot _ => e

/-- GONG_EXPIRY (R25). -/
def execGongExpiry (s : State) : Host.Outcome State Fault Refusal := whenUp s fun s => s.deliver .gong onGong

/-- The context that owns a dwell (R99). -/
def onDwell (A : Ambient) (e : Engines) (p : TimerPlace) : Engines :=
  match p.owner with
  | .context c => e.expireDwell A c p
  | .ticket _ => e
  | .prompt _ => e
  | .car _ => e
  | .slot _ => e

/-- DWELL_EXPIRY (R99). -/
def execDwellExpiry (s : State) : Host.Outcome State Fault Refusal := whenUp s fun s => s.deliver .dwell onDwell

/-- The override slot that owns a dwell (R89). -/
def onOverrideDwell (A : Ambient) (e : Engines) (p : TimerPlace) : Engines :=
  match p.owner with
  | .slot k => if (slotOf e.face.slots k).place = some p.id then e.rotateSlot A k else e
  | .ticket _ => e
  | .prompt _ => e
  | .car _ => e
  | .context _ => e

/-- OVERRIDE_DWELL_EXPIRY (R89). -/
def execOverrideDwellExpiry (s : State) : Host.Outcome State Fault Refusal :=
  whenUp s fun s => s.deliver .overrideDwell onOverrideDwell

end Sys2Proof.Machine
end

