-- ==== Sys2Proof/Machine/ReportSteps.lean ====
section
/-! DEFINITION. The steps of the Report Writer: REPORT_WRITE_ISSUE, REPORT_WRITE_COMPLETE, STATUS_MIRROR_WRITE,
STATUS_MIRROR_WRITE_COMPLETE (11.6, 11.7). -/

namespace Sys2Proof.Machine

def Access.isReportWrite : Access → Bool
  | .reportWrite _ _ _ => true
  | .hostWrite _ _ _ => false
  | .hostRead _ _ => false
  | .mirrorWrite _ _ => false
  | .sweepRead _ => false
  | .fetchRead _ _ _ _ => false

/-- A record write is in flight: issued and not complete (R173). -/
def State.reportFlying (s : State) : Bool :=
  s.ring.waiting.any Access.isReportWrite || s.path.port.any Access.isReportWrite

/-- An access of the Report Writer is issued: it waits behind the earlier ones (R161). -/
def State.issue (s : State) (a : Access) : State :=
  ({ s with ring := { s.ring with waiting := s.ring.waiting ++ [a] } }).arbitrate

/-- The write of the head report at the write position is issued (R173). -/
def State.reportIssue (s : State) : State :=
  match s.eng.out.queue, s.ring.writePos with
  | r :: _, some a =>
    if !s.reportFlying && decide (s.ring.unconsumed < s.ring.setup.ringSize) then
      s.issue (.reportWrite a r.words false)
    else s
  | [], _ => s
  | _ :: _, none => s

/-- REPORT_WRITE_ISSUE (R173). -/
def execReportWriteIssue (s : State) : Host.Outcome State Fault Refusal := whenUp s State.reportIssue

/-- The ring after a record has been written at a slot (R173). -/
def Ring.written (r : Ring) (slot : Nat) : Ring :=
  { r with
    unconsumed := r.unconsumed + 1, oldest := if r.unconsumed = 0 then some slot else r.oldest,
    writePos := some (r.below slot) }

/-- A record write that was not voided by a ring setup is counted: the report leaves the queue (R172, R173, R175). -/
def State.countReport (s : State) (slot : Nat) : State :=
  { s with ring := s.ring.written slot, eng := { s.eng with out := s.eng.out.pop s.clock.ms } }

/-- Memory takes the words of a write of the part's own. -/
def State.partWrite (s : State) (addr : Nat) (words : List Word) : State :=
  { s with mem := Memory.writeWords s.mem addr words }

def State.reportComplete (s : State) : State :=
  match s.path.port with
  | some (.reportWrite a words void) =>
    let s := s.partWrite a words
    (if void then s else s.countReport a).freePort
  | some (.hostWrite _ _ _) => s
  | some (.hostRead _ _) => s
  | some (.mirrorWrite _ _) => s
  | some (.sweepRead _) => s
  | some (.fetchRead _ _ _ _) => s
  | none => s

/-- REPORT_WRITE_COMPLETE (R173). -/
def execReportWriteComplete (s : State) : Host.Outcome State Fault Refusal := whenUp s State.reportComplete

/-- A mirror write is issued with the items as they stand, and its time is kept (R176). -/
def State.mirrorIssue (s : State) : State :=
  if s.mirrorDue && s.mirrorTime then
    ({ s with ring := { s.ring with
        mirrorLast := some s.mirror, mirrorAt := some s.clock.ms, mirrorMoved := false } }).issue
      (.mirrorWrite (s.path.cbBase + Config.mirrorOffset) s.mirror)
  else s

/-- STATUS_MIRROR_WRITE (R176). -/
def execStatusMirrorWrite (s : State) : Host.Outcome State Fault Refusal := whenUp s State.mirrorIssue

def State.mirrorComplete (s : State) : State :=
  match s.path.port with
  | some (.mirrorWrite a words) => (s.partWrite a words).freePort
  | some (.hostWrite _ _ _) => s
  | some (.hostRead _ _) => s
  | some (.reportWrite _ _ _) => s
  | some (.sweepRead _) => s
  | some (.fetchRead _ _ _ _) => s
  | none => s

/-- STATUS_MIRROR_WRITE_COMPLETE (R161). -/
def execStatusMirrorWriteComplete (s : State) : Host.Outcome State Fault Refusal := whenUp s State.mirrorComplete

end Sys2Proof.Machine
end

