-- ==== Sys2Proof/Machine/Dispatch.lean ====
section
/-! DEFINITION. The meaning of each command: one arm per constructor, one direct call each. -/

namespace Sys2Proof.Machine

def exec (i : Instr) (s : State) : Host.Outcome State Fault Refusal :=
  match i with
  | .powerOnReset => Sys2Proof.Machine.execPowerOnReset s
  | .usTick => Sys2Proof.Machine.execUsTick s
  | .msTick => Sys2Proof.Machine.execMsTick s
  | .upstreamWrite addr beats => Sys2Proof.Machine.execUpstreamWrite addr beats s
  | .upstreamRead addr count => Sys2Proof.Machine.execUpstreamRead addr count s
  | .hostWriteComplete => Sys2Proof.Machine.execHostWriteComplete s
  | .hostReadComplete => Sys2Proof.Machine.execHostReadComplete s
  | .holdoffEnd => Sys2Proof.Machine.execHoldoffEnd s
  | .holdoffExpiry => Sys2Proof.Machine.execHoldoffExpiry s
  | .intakeDrain => Sys2Proof.Machine.execIntakeDrain s
  | .carCommit => Sys2Proof.Machine.execCarCommit s
  | .assignCommit => Sys2Proof.Machine.execAssignCommit s
  | .rosterCommit => Sys2Proof.Machine.execRosterCommit s
  | .labelCommit => Sys2Proof.Machine.execLabelCommit s
  | .playoutCommit => Sys2Proof.Machine.execPlayoutCommit s
  | .relocationCommit => Sys2Proof.Machine.execRelocationCommit s
  | .descriptorCommit => Sys2Proof.Machine.execDescriptorCommit s
  | .settingsCommit => Sys2Proof.Machine.execSettingsCommit s
  | .groupCommit => Sys2Proof.Machine.execGroupCommit s
  | .linkSetupCommit => Sys2Proof.Machine.execLinkSetupCommit s
  | .overrideSlotCommit => Sys2Proof.Machine.execOverrideSlotCommit s
  | .languageCommit => Sys2Proof.Machine.execLanguageCommit s
  | .ringSetupCommit => Sys2Proof.Machine.execRingSetupCommit s
  | .restart => Sys2Proof.Machine.execRestart s
  | .sweep => Sys2Proof.Machine.execSweep s
  | .loadGlyphs => Sys2Proof.Machine.execLoadGlyphs s
  | .badOpcode => Sys2Proof.Machine.execBadOpcode s
  | .fetchChannelTake channel => Sys2Proof.Machine.execFetchChannelTake channel s
  | .sweepReadIssue channel => Sys2Proof.Machine.execSweepReadIssue channel s
  | .sweepReadComplete => Sys2Proof.Machine.execSweepReadComplete s
  | .sweepCompletion => Sys2Proof.Machine.execSweepCompletion s
  | .textFillTransferComplete channel => Sys2Proof.Machine.execTextFillTransferComplete channel s
  | .glyphTransferComplete channel => Sys2Proof.Machine.execGlyphTransferComplete channel s
  | .outSlot link => Sys2Proof.Machine.execOutSlot link s
  | .frameComplete link => Sys2Proof.Machine.execFrameComplete link s
  | .abortBlockSent link => Sys2Proof.Machine.execAbortBlockSent link s
  | .statusAnswer link heard => Sys2Proof.Machine.execStatusAnswer link heard s
  | .entryAnswer link heard => Sys2Proof.Machine.execEntryAnswer link heard s
  | .inSlotMiss link heard => Sys2Proof.Machine.execInSlotMiss link heard s
  | .entryWaitExpiry => Sys2Proof.Machine.execEntryWaitExpiry s
  | .promptHoldExpiry => Sys2Proof.Machine.execPromptHoldExpiry s
  | .lanternExpiry => Sys2Proof.Machine.execLanternExpiry s
  | .gongExpiry => Sys2Proof.Machine.execGongExpiry s
  | .dwellExpiry => Sys2Proof.Machine.execDwellExpiry s
  | .overrideDwellExpiry => Sys2Proof.Machine.execOverrideDwellExpiry s
  | .reportWriteIssue => Sys2Proof.Machine.execReportWriteIssue s
  | .reportWriteComplete => Sys2Proof.Machine.execReportWriteComplete s
  | .statusMirrorWrite => Sys2Proof.Machine.execStatusMirrorWrite s
  | .resetNFall => Sys2Proof.Machine.execResetNFall s
  | .slotPositionAdvance link => Sys2Proof.Machine.execSlotPositionAdvance link s
  | .fetchReadComplete => Sys2Proof.Machine.execFetchReadComplete s
  | .statusMirrorWriteComplete => Sys2Proof.Machine.execStatusMirrorWriteComplete s

end Sys2Proof.Machine
end

