-- ==== Sys2Proof/Safety.lean ====
section
/-! DEFINITION. What a safe state of the part is, in the terms the statements use: the capacities of its tables (spec/00,
"Principal capacities"), the bookkeeping of the memory path, and that of the report ring. -/

namespace Sys2Proof.Machine

/-! ## The tables of the engines -/

/-- The stops stand in ascending floor order, no floor twice, each with a rider count of 1 to 255 (R65). -/
def stopsOrdered (l : List Stop) : Prop :=
  l.Pairwise (fun x y => x.floor < y.floor) ∧ ∀ x ∈ l, 1 ≤ x.riders ∧ x.riders ≤ 255

/-- Every table of the engines is within its capacity: the timer list (R145), the pending report queue and its tally
(R172, R175), the entry table and the ticket counter (R40, R42), the prompt queues (R56), the stop lists with their
order (R65). -/
structure Engines.WithinCapacity (e : Engines) : Prop where
  timers : e.timers.list.length ≤ Config.timerPlaces
  reports : e.out.queue.length ≤ Config.reportPlaces
  tally : e.out.tally ≤ 65535
  entries : e.dest.entries.length ≤ Config.entryPlaces
  ticketLow : 1 ≤ e.dest.ticket
  ticketHigh : e.dest.ticket ≤ 65535
  prompts : ∀ x ∈ e.dest.prompts, x.2.length ≤ Config.promptPlaces
  stops : ∀ c : Fin 48, (e.stopsOf c).length ≤ Config.stopPlaces
  ordered : ∀ c : Fin 48, stopsOrdered (e.stopsOf c)

/-! ## The request list -/

/-- The fetch request list keeps its partitions (R121): at most 8 TEXT and 4 GLYPH requests, at most one SWEEP request for
each window, and none for the ASSIGN window. -/
structure FetchUnit.RequestsSafe (f : FetchUnit) : Prop where
  text : (f.requests.filter Request.isText).length ≤ Config.textPlaces
  glyph : (f.requests.filter Request.isGlyph).length ≤ Config.glyphPlaces
  sweep : ∀ w, (f.requests.filter (Request.sweepsWindow w)).length ≤ 1
  assign : f.requests.any (Request.sweepsWindow assignWindow) = false

/-! ## The roster and the transmit queues -/

/-- The roster and the links keep their laws: at most 32 TERMINALs, drops of 1 to 63, no two displays at one drop of a link
(R125); each transmit queue holds a display once, and only ONLINE displays of its link, with the display in flight at its
head (R75, R138); a STOPPED link has an empty queue and no ONLINE display (R128, R129). -/
structure Engines.LinksSafe (e : Engines) : Prop where
  faces : Tab.wf e.face.faces = true
  terminals : (e.face.faces.filter fun x => x.2.cls == .terminal).length ≤ Config.terminalPlaces
  drops : ∀ d f, e.faceOf d = some f → 1 ≤ f.drop ∧ f.drop ≤ 63
  apart : ∀ c d f g, e.faceOf c = some f → e.faceOf d = some g → f.link = g.link → f.drop = g.drop → c = d
  once : ∀ n, (e.linkOf n).queue.Nodup
  members : ∀ n, ∀ d ∈ (e.linkOf n).queue, e.online d = true ∧ ∃ f, e.faceOf d = some f ∧ f.link = n
  flying : ∀ n fr, (e.linkOf n).frame = some fr → (e.linkOf n).queue.head? = some fr.display
  stopped : ∀ n, (e.linkOf n).running = false →
    (e.linkOf n).queue = [] ∧ ∀ d f, e.faceOf d = some f → f.link = n → e.online d = false

/-! ## The claims of the timer list -/

/-- A holding names a claim that has been made, and a place of the list with its number is of one kind and owner (R146). -/
def Timers.gives (tm : Timers) (kind : PlaceKind) (owner : Owner) (held : Option Nat) : Prop :=
  ∀ id, held = some id → id < tm.nextId ∧ ∀ p ∈ tm.list, p.id = id → p.kind = kind ∧ p.owner = owner

/-- The claims keep their laws: no two places of the list have one number, no two entries one ticket (R40), an entry and its
ENTRY_WAIT place stand and fall together (R42), and every holding of a prompt, a signal, a context or an override slot is
its own. -/
structure Engines.ClaimsSafe (e : Engines) : Prop where
  fresh : ∀ p ∈ e.timers.list, p.id < e.timers.nextId
  once : (e.timers.list.map TimerPlace.id).Nodup
  tickets : (e.dest.entries.map Entry.ticket).Nodup
  placed : ∀ x ∈ e.dest.entries, ∃ p ∈ e.timers.list, p.id = x.place ∧ p.kind = .entryWait ∧ p.owner = .ticket x.ticket
  waiting : ∀ p ∈ e.timers.list, p.kind = .entryWait → ∃ x ∈ e.dest.entries, x.place = p.id
  prompts : ∀ d, ∀ x ∈ e.promptsOf d, e.timers.gives .promptHold (.prompt d) x.hold
  lanterns : ∀ c, e.timers.gives .lantern (.car c) (e.ind.signalOf c).lanternPlace
  gongs : ∀ c, e.timers.gives .gong (.car c) (e.ind.signalOf c).gongPlace
  contexts : ∀ c, e.timers.gives .dwell (.context c) (e.ctx c).place
  slots : ∀ k, e.timers.gives .overrideDwell (.slot k) (slotOf e.face.slots k).place

/-! ## The faces -/

/-- Every face shows what its class, its binding and the covering slots give: its BASE content (R17 to R20), its display
floor and scope groups (R17, R81) and its covering slot (R81). -/
structure Engines.FacesDerived (A : Ambient) (e : Engines) : Prop where
  base : ∀ d f, e.faceOf d = some f → f.base = deriveBase A e f
  floor : ∀ d f, e.faceOf d = some f → f.floor = deriveFloor e.ind f
  scope : ∀ d f, e.faceOf d = some f → f.scope = deriveScope e.ind f
  cover : ∀ d f, e.faceOf d = some f → f.cover = coverOf e.face.slots f

/-! ## The memory path -/

/-- A transaction of the host. -/
def Access.isHost : Access → Bool
  | .hostWrite _ _ _ => true
  | .hostRead _ _ => true
  | .reportWrite _ _ _ => false
  | .mirrorWrite _ _ => false
  | .sweepRead _ => false
  | .fetchRead _ _ _ _ => false

/-- A write of the Report Writer. -/
def Access.isOwnWrite : Access → Bool
  | .reportWrite _ _ _ => true
  | .mirrorWrite _ _ => true
  | .hostWrite _ _ _ => false
  | .hostRead _ _ => false
  | .sweepRead _ => false
  | .fetchRead _ _ _ _ => false

/-- The memory path keeps its bookkeeping: only a host transaction waits on the pass-through side, none while a burst is
held (R153, R157), and only writes of the Report Writer in its own queue, the items held and the places promised together fit the intake queue (R156), and the
pass-over count is 0 to 8 (R161). -/
structure State.PathSafe (s : State) : Prop where
  host : ∀ a, s.path.waiting = some a → a.isHost = true
  alone : s.path.held ≠ none → s.path.waiting = none
  own : ∀ a ∈ s.ring.waiting, a.isOwnWrite = true
  room : s.asm.intake.length + s.promised ≤ Config.intakePlaces
  passOver : s.path.passOver ≤ Config.passOverLimit

/-! ## The report ring -/

/-- A record write that counts: one no ring setup has voided (R172). -/
def Access.counts : Access → Bool
  | .reportWrite _ _ void => !void
  | .mirrorWrite _ _ => false
  | .hostWrite _ _ _ => false
  | .hostRead _ _ => false
  | .sweepRead _ => false
  | .fetchRead _ _ _ _ => false

/-- How many record writes in flight count. -/
def State.countingWrites (s : State) : Nat :=
  (s.ring.waiting.filter Access.counts).length + (s.path.port.toList.filter Access.counts).length

/-- The report ring keeps its bookkeeping: only host transactions wait on the pass-through side, at most one record
write that counts is in flight, the unconsumed count with that write does not exceed the ring size (R173), and an oldest
record is known exactly while the count is not 0 (R174). -/
structure State.RingSafe (s : State) : Prop where
  host : ∀ a, s.path.waiting = some a → a.isHost = true
  one : s.countingWrites ≤ 1
  room : s.ring.unconsumed + s.countingWrites ≤ s.ring.setup.ringSize
  oldest : s.ring.oldest = none ↔ s.ring.unconsumed = 0

/-! ## What the statements say of a commit (R165) -/

/-- The command that carries the commit of a record. -/
def commitCommand : RecordPlace → Instr
  | .window w _ =>
    if w = carWindow then .carCommit else if w = assignWindow then .assignCommit
    else if w = rosterWindow then .rosterCommit else if w = labelWindow then .labelCommit else .playoutCommit
  | .relocation => .relocationCommit
  | .command => .badOpcode
  | .settings => .settingsCommit
  | .descriptor _ => .descriptorCommit
  | .group _ => .groupCommit
  | .linkSetup _ => .linkSetupCommit
  | .overrideSlot _ => .overrideSlotCommit
  | .language _ => .languageCommit
  | .ringSetup => .ringSetupCommit

/-- The staged record of a window slot is the accepted one. -/
def State.sameSlot (s : State) (w : Fin 5) (slot : Nat) : Bool :=
  let r := s.stagedSlot w slot
  if w = carWindow then
    match toFin 48 slot with
    | some c => (s.eng.ind.carOf c).accepted == some r
    | none => false
  else if w = assignWindow then false
  else if w = rosterWindow then s.eng.link.roster.get slot == some r
  else if w = labelWindow then s.eng.ind.labels.get slot == some r
  else
    match toFin 16 slot with
    | some c => (s.eng.ctx c).accepted == some r
    | none => false

/-- The staged record of a state or setting record is the accepted one, byte by byte. -/
def State.sameAsAccepted (s : State) : RecordPlace → Bool
  | .window w slot => s.sameSlot w slot
  | .relocation => s.staged4 0 == s.path.reloc
  | .command => false
  | .settings => s.staged8 0x40 == s.asm.settings
  | .descriptor w => s.staged4 (descriptorOffset w) == s.path.window w
  | .group g => s.staged8 (groupOffset g) == s.eng.ind.groupOf g
  | .linkSetup n => s.staged4 (linkOffset n) == (s.eng.linkOf n).setup
  | .overrideSlot k => s.staged4 (slotOffset k) == (slotOf s.eng.face.slots k).record
  | .language l => s.staged4 (languageOffset l) == s.fetch.lang l
  | .ringSetup => s.staged4 0x3C0 == s.ring.setup

/-- The owner's check of a staged window record: the reason it is refused, if it is. -/
def State.checkSlotRecord (s : State) (w : Fin 5) (slot : Nat) : Option Reason :=
  let r := s.stagedSlot w slot
  if w = carWindow then if slot < 48 then checkCar s.eng.ind r else none
  else if w = assignWindow then checkAssign r
  else if w = rosterWindow then checkRoster s.eng slot r
  else if w = labelWindow then checkLabel r
  else if slot < 16 then checkPlayout r else none

/-- The owner's check of a staged record. -/
def State.checkRecord (s : State) : RecordPlace → Option Reason
  | .window w slot => s.checkSlotRecord w slot
  | .relocation => checkRelocation s.path (s.staged4 0)
  | .command => none
  | .settings => checkSettings (s.staged8 0x40)
  | .descriptor w => checkDescriptor s.path w (s.staged4 (descriptorOffset w))
  | .group g => checkGroup (s.staged8 (groupOffset g))
  | .linkSetup n => checkLink (s.staged4 (linkOffset n))
  | .overrideSlot k => checkSlot (s.staged4 (slotOffset k))
  | .language l => checkLanguage (s.staged4 (languageOffset l))
  | .ringSetup => checkRing (s.staged4 0x3C0)

/-- The part is out of reset and the Record Assembler holds out a record that differs from the accepted one and passes
its owner's checks: a commit that is accepted. -/
def State.accepts (s : State) (p : RecordPlace) : Prop :=
  s.resetLow = false ∧ s.asm.handed = some p ∧ s.sameAsAccepted p = false ∧ s.checkRecord p = none

end Sys2Proof.Machine
end

