-- ==== Sys2Proof/Certificates/Slice0/Obligations.lean ====
section
/-! DEFINITION. The statements about the model that the provers are asked for. A frame is written as an equation: the
next state is the state before with the named fields taken from the next state. -/

open Sys2Proof Sys2Proof.Machine

/-! ## The machine as a whole -/

/-- A step takes the command at the front of the queue and carries it out on the queue's rest. -/
def Obligations.StepTakesFrontCommand : Prop :=
  ∀ (c : Instr) (rest : List Instr) (s : State), s.pending = c :: rest → step s = exec c { s with pending := rest }

/-- With no command waiting a step is one cycle of the reference clock (the model's choice, log entry 5): the cycle is
counted, or the count reaches the divider and a µs tick occurs with the ms tick it completes; nothing moves while RESET_N
is low (that the clock stands then is the model's choice too, log entry 3). -/
def Obligations.EmptyQueueIsOneReferenceCycle : Prop :=
  ∀ s : State, s.pending = [] →
    (s.resetLow = true → step s = .next s) ∧
    (s.resetLow = false → s.clock.refCount + 1 < s.asm.settings.divider →
      step s = .next { s with clock := { s.clock with refCount := s.clock.refCount + 1 } }) ∧
    (s.resetLow = false → s.asm.settings.divider ≤ s.clock.refCount + 1 → step s = .next s.usTick.msTick)

/-- The values the spec gives the part right after power-on reset. -/
def Obligations.ResetLeavesPowerOnValues : Prop :=
  let z := State.reset
  z.path.reloc.w3 = 0x03FFF000 ∧ (∀ w, z.path.window w = Rec4.zero) ∧ z.path.held = none ∧ z.path.passOver = 0 ∧
  z.asm.intake = [] ∧ z.asm.settings = ⟨25, 64, 100, 20, 8, 4, 0, 400⟩ ∧ (∀ w, z.asm.winStateOf w = .disabled) ∧
  z.eng.timers.list = [] ∧ z.clock.ms = 0 ∧ z.eng.dest.ticket = 1 ∧ z.eng.dest.entries = [] ∧
  (∀ c, z.eng.stopsOf c = []) ∧ (∀ c, (z.eng.ind.carOf c).accepted = none) ∧
  (∀ c, z.eng.ind.signalOf c = ⟨.none, true, none, false, none, none, none⟩) ∧
  (∀ g, z.eng.ind.groupOf g = Rec8.zero) ∧ z.eng.ind.labels = [] ∧ z.eng.face.faces = [] ∧
  (∀ k, slotOf z.eng.face.slots k = ⟨Rec4.zero, none, none⟩) ∧ (∀ c, (z.eng.ctx c).state = .idle) ∧
  (∀ n, (z.eng.linkOf n).running = false) ∧ (∀ l, z.fetch.lang l = ⟨0, 0, 0, 8⟩) ∧
  (∀ i, (z.fetch.line i).state = .empty) ∧ (∀ a, z.fetch.area a = ⟨.empty, .single, 0, []⟩) ∧
  z.fetch.requests = [] ∧ (∀ ch, z.fetch.channel ch = none) ∧
  z.ring.setup = Rec4.zero ∧ z.ring.unconsumed = 0 ∧ z.ring.writePos = none ∧ z.eng.out = ⟨[], 0⟩ ∧ z.attention = false

/-- The invariants of these statements hold right after power-on reset: those of host memory, the memory path, the report
ring, the tables, the request list, the roster with the links, the claims of the timer list, and the faces. -/
def Obligations.ResetMeetsTheInvariants : Prop :=
  Memory.wf State.reset.mem = true ∧ State.reset.PathSafe ∧ State.reset.RingSafe ∧ State.reset.eng.WithinCapacity ∧
    State.reset.fetch.RequestsSafe ∧ State.reset.eng.LinksSafe ∧ State.reset.eng.ClaimsSafe ∧
    State.reset.eng.FacesDerived State.reset.ambient

/-- Every step keeps host memory in its canonical form. -/
def Obligations.MemoryStaysCanonical : Prop :=
  ∀ s t : State, Memory.wf s.mem = true → step s = .next t → Memory.wf t.mem = true

/-- Every step keeps the bookkeeping of the memory path: the intake queue and the promised places together never exceed
32, and the pass-over count never exceeds 8. -/
def Obligations.IntakeNeverOverflows : Prop :=
  ∀ s t : State, s.PathSafe → step s = .next t → t.PathSafe

/-- Every step keeps the bookkeeping of the report ring: at most one record write that counts is in flight, and the
unconsumed count never exceeds the ring size. -/
def Obligations.ReportRingNeverOverflows : Prop :=
  ∀ s t : State, s.RingSafe → step s = .next t → t.RingSafe

/-- Every step keeps every table of the engines within its capacity, the ticket counter in its range and the stop lists
in order, and the partitions of the request list: at most 8 TEXT and 4 GLYPH requests, at most one SWEEP request for each
window, and none for the ASSIGN window. -/
def Obligations.TablesStayWithinCapacity : Prop :=
  (∀ s t : State, s.eng.WithinCapacity → step s = .next t → t.eng.WithinCapacity) ∧
  (∀ s t : State, s.fetch.RequestsSafe → step s = .next t → t.fetch.RequestsSafe)

/-- Host memory changes only at the completion of a host write, of a record write or of a mirror write. That an access acts
on memory at its completion alone is deduced (log entry 31), and that RESET_N falling with a host write in progress leaves
memory as it was is the model's choice, unsafe (log entry 34). -/
def Obligations.OnlyWriteCompletionsChangeMemory : Prop :=
  ∀ (c : Instr) (s t : State), c ≠ .hostWriteComplete → c ≠ .reportWriteComplete → c ≠ .statusMirrorWriteComplete →
    exec c s = .next t → t.mem = s.mem

/-- The accepted records change only at their own commits, at the descriptor that clears their table, at restart and at
power-on reset. -/
def Obligations.AcceptedRecordsChangeOnlyByTheirCommits : Prop :=
  ∀ (c : Instr) (s t : State), exec c s = .next t → c ≠ .powerOnReset →
    (c ≠ .settingsCommit → t.asm.settings = s.asm.settings) ∧
    (c ≠ .descriptorCommit → t.path.windows = s.path.windows) ∧
    (c ≠ .relocationCommit → t.path.reloc = s.path.reloc) ∧
    (c ≠ .ringSetupCommit → t.ring.setup = s.ring.setup) ∧
    (c ≠ .languageCommit → t.fetch.langs = s.fetch.langs) ∧
    (c ≠ .groupCommit → t.eng.ind.groups = s.eng.ind.groups) ∧
    (c ≠ .linkSetupCommit → ∀ n, (t.eng.linkOf n).setup = (s.eng.linkOf n).setup) ∧
    (c ≠ .overrideSlotCommit → ∀ k, (slotOf t.eng.face.slots k).record = (slotOf s.eng.face.slots k).record) ∧
    (c ≠ .descriptorCommit → c ≠ .restart →
      (c ≠ .carCommit → ∀ k, (t.eng.ind.carOf k).accepted = (s.eng.ind.carOf k).accepted) ∧
      (c ≠ .labelCommit → t.eng.ind.labels = s.eng.ind.labels) ∧
      (c ≠ .rosterCommit → t.eng.link.roster = s.eng.link.roster) ∧
      (c ≠ .playoutCommit → ∀ k, (t.eng.ctx k).accepted = (s.eng.ctx k).accepted))

/-- While RESET_N is low no command but RESET_N_FALL and POWER_ON_RESET has an effect (log entry 3). -/
def Obligations.ResetLowStopsTheOtherCommands : Prop :=
  ∀ (c : Instr) (s : State), s.resetLow = true → c.wf = true → c ≠ .powerOnReset → c ≠ .resetNFall → exec c s = .next s

/-- Every well-formed command answers a next state, in every state: the part has no fault and the model no refusal.
A burst that is no transaction of section 10.1 stops the model by name (log entry 7). -/
def Obligations.CommandsAnswerNextUnlessIllFormed : Prop :=
  (∀ (c : Instr) (s : State), c.wf = true → ∃ t, exec c s = .next t) ∧
  (∀ (a : BitVec 26) (beats : List Beat) (n : Nat) (s : State),
      (burstOk a.toNat beats.length = false → exec (.upstreamWrite a beats) s = .fault .notATransaction) ∧
      (burstOk a.toNat n = false → exec (.upstreamRead a n) s = .fault .notATransaction))

/-! ## Reset and clock -/

/-- The rising edge of RESET_N gives every piece of the part's state its power-on value; host memory, the queue of
commands and the count of frames built (log entry 19) are not the part's and stay.
The falling edge of RESET_N abandons the transactions in progress with a held burst, releases the attention line and
disables every link driver; everything else stands until the rising edge. The model's choices here: a host write in progress
leaves memory as it was (log entry 34, unsafe), and the data of the last host read is gone with the edge (log entry 30). -/
def Obligations.ResetPinEdgesActAsTheSpecSays : Prop :=
  (∀ s : State, ∃ t, exec .powerOnReset s = .next t ∧ t.resetLow = false ∧ t.path = State.reset.path ∧
      t.asm = State.reset.asm ∧ t.fetch = State.reset.fetch ∧ t.clock = State.reset.clock ∧ t.ring = State.reset.ring ∧
      t.eng = { State.reset.eng with link := { State.reset.eng.link with frames := s.eng.link.frames } } ∧
      t.mem = s.mem ∧ t.pending = s.pending) ∧
  (∀ s : State, ∃ t, exec .resetNFall s = .next t ∧
      t = { s with
        resetLow := true, path := { s.path with held := none, waiting := none, port := none, upData := none } } ∧
      t.attention = false ∧ ∀ n, t.driverEnabled n = false)

/-- A µs tick starts the count of reference cycles again, counts toward the ms tick and advances the timer of a timed
holdoff; the ms tick takes 1000 µs ticks and raises the ms time by one, modulo 2 to the 32nd. -/
def Obligations.TicksRaiseTheirCounts : Prop :=
  ∀ s : State, s.resetLow = false →
    exec .usTick s = .next { s with
      clock := { s.clock with refCount := 0, usCount := s.clock.usCount + 1 }
      path := { s.path with
        held := s.path.held.map fun h => { h with timer := h.timer.map fun x => { x with ticks := x.ticks + 1 } } } } ∧
    (1000 ≤ s.clock.usCount → exec .msTick s = .next { s with
      clock := { s.clock with usCount := s.clock.usCount - 1000, ms := s.clock.ms + 1 } }) ∧
    (s.clock.usCount < 1000 → exec .msTick s = .next s)

/-! ## The memory path -/

/-- A host write taken while the upstream port is free: held with its items when intake places are wanting, with a timer
exactly when every watched word lies in a window; else forwarded to the arbiter with the places its items need. One that
finds the port taken waits outside (log entry 8).
A host read is forwarded to the arbiter unchanged; one that finds the port taken waits outside (log entry 8).
Decoding of a burst: one item for each word with an enabled lane whose word is watched, in ascending address order,
with the word's lanes and the target it is decoded to.
The target: in the one window whose range holds the address, the slot, the word number and the descriptor's base and count;
in the 4 KiB of the control block at its present base, the offset, when it is a record position; else none, and the word is
not watched. -/
def Obligations.UpstreamTransactionsAreHeldOrForwarded : Prop :=
  (∀ (s : State) (a : BitVec 26) (beats : List Beat), s.resetLow = false → burstOk a.toNat beats.length = true →
      let items := captured s.path a.toNat beats
      (s.upstreamFree = true → s.unpromised < items.length →
        exec (.upstreamWrite a beats) s = .next { s with path := { s.path with
          held := some ⟨a.toNat, beats, items, if timedHold items then some ⟨s.asm.settings.holdoffLimit, 0⟩ else none⟩ } }) ∧
      (s.upstreamFree = true → items.length ≤ s.unpromised →
        exec (.upstreamWrite a beats) s =
          .next (State.arbitrate { s with path := { s.path with waiting := some (.hostWrite a.toNat beats items) } }) ∧
        (State.promised { s with path := { s.path with waiting := some (.hostWrite a.toNat beats items) } } =
          s.promised + items.length)) ∧
      (s.upstreamFree = false → exec (.upstreamWrite a beats) s = .next s)) ∧
  (∀ (s : State) (a : BitVec 26) (n : Nat), s.resetLow = false → burstOk a.toNat n = true →
      (s.upstreamFree = true → exec (.upstreamRead a n) s =
        .next (State.arbitrate { s with path := { s.path with waiting := some (.hostRead a.toNat n) } })) ∧
      (s.upstreamFree = false → exec (.upstreamRead a n) s = .next s)) ∧
  (∀ (p : MemPath) (addr : Nat) (beats : List Beat),
      (∀ i : Item, i ∈ captured p addr beats ↔ ∃ n b, beats[n]? = some b ∧ b.lanes ≠ 0 ∧
        targetAt p (addr + 4 * n) = some i.target ∧ i.word = b.word ∧ i.lanes = b.lanes ∧ i.addr = addr + 4 * n) ∧
      (captured p addr beats).Pairwise (fun x y => x.addr < y.addr)) ∧
  (∀ (p : MemPath) (addr : Nat),
      let inWindow (w : Fin 5) : Prop :=
        (p.window w).w0.toNat ≤ addr ∧ addr < (p.window w).w0.toNat + 16 * (p.window w).w3.toNat
      let inBlock := p.reloc.w3.toNat ≤ addr ∧ addr < p.reloc.w3.toNat + 0x1000
      let off := addr - p.reloc.w3.toNat
      let position := off < 0x20 ∨ (0x40 ≤ off ∧ off < 0x60) ∨ (0x80 ≤ off ∧ off < 0xD0) ∨ (0x100 ≤ off ∧ off < 0x3D0)
      (∀ w, inWindow w → (∀ k, inWindow k → k = w) → ¬ inBlock → targetAt p addr =
        some (.window w ((addr - (p.window w).w0.toNat) / 16) ((addr - (p.window w).w0.toNat) / 4 % 4)
          (p.window w).w0 (p.window w).w3)) ∧
      ((∀ w, ¬ inWindow w) → inBlock → position → targetAt p addr = some (.control off)) ∧
      ((∀ w, ¬ inWindow w) → inBlock → ¬ position → targetAt p addr = none) ∧
      ((∀ w, ¬ inWindow w) → ¬ inBlock → targetAt p addr = none))

/-- The downstream arbiter: one access at a time; the host's transaction first, at most 8 times past a waiting access of
the part; on the part's side the Report Writer's accesses first, in order of issue, then the reads of the channels.
The reads of the channels stand in the priority of their requests: those of every SWEEP request, then those of every TEXT
request, then those of every GLYPH request, the oldest request first within a kind. The reads of sweeps that were withdrawn
come before them all (the model's choice, log entry 10). -/
def Obligations.ArbiterServesInOrder : Prop :=
  (∀ s : State,
    (s.path.port ≠ none → s.arbitrate = s) ∧
    (∀ a, s.path.port = none → s.path.waiting = some a → s.partWaits = false →
      s.arbitrate = { s with path := { s.path with port := some a, waiting := none } }) ∧
    (∀ a, s.path.port = none → s.path.waiting = some a → s.partWaits = true → s.path.passOver < 8 →
      s.arbitrate = { s with
        path := { s.path with port := some a, waiting := none, passOver := s.path.passOver + 1 } }) ∧
    (s.path.port = none → s.path.waiting = none ∨ 8 ≤ s.path.passOver →
      (∀ a rest, s.ring.waiting = a :: rest →
        s.arbitrate = { s with
          path := { s.path with port := some a, passOver := 0 }, ring := { s.ring with waiting := rest } }) ∧
      (∀ a rest, s.ring.waiting = [] → s.fetch.reads = a :: rest →
        s.arbitrate = { s with path := { s.path with port := some a, passOver := 0 }, fetch := s.fetch.served a })) ∧
    (s.path.port = none → s.path.waiting = none → s.partWaits = false → s.arbitrate = s) ∧
    s.freePort = State.arbitrate { s with path := { s.path with port := none } }) ∧
  (∀ f : FetchUnit,
    let live (w : Fin 5) := (f.sweepReads.filter fun x => x.kind == w && x.status == .live).map Access.sweepRead
    let onChannels (q : Request) := (List.finRange 4).filterMap fun ch =>
      if (f.channel ch).any fun j => j.carries q then f.channelRead ch else none
    f.reads = (f.sweepReads.filter fun x => x.status != .live).map Access.sweepRead ++
      (f.requests.flatMap fun q => match q with
        | .sweep w _ => live w
        | .text _ => []
        | .glyph _ _ _ _ _ => []) ++
      (f.requests.flatMap fun q => if q.isText then onChannels q else []) ++
      (f.requests.flatMap fun q => if q.isGlyph then onChannels q else []))

/-- A host write that completes writes the enabled lanes of its beats and no other byte, its items enter the intake queue
in order, the Fetch Unit compares the bytes written, and the port is free for the next access.
The compare with the text lines: a line whose watched range is hit becomes EMPTY when it was VALID and FILLING_STALE when it
was FILLING; a line that is not hit stays as it is. The watched range is the header word, the pointer word of the line's
language, and the string bytes once they are known.
The compare with the glyph loads: a byte of the source range, the 32 bytes of each glyph of the load, restarts the load. Its
progress is 0, the channel that carried it is idle with its read data discarded, and it is then the newest GLYPH request
(two loads that one write returns keep their order: log entry 45). Every area stays as it is, and a load that is not hit goes
on. -/
def Obligations.HostWriteCompleteStoresItsLanes : Prop :=
  (∀ (s : State) (addr : Nat) (beats : List Beat) (items : List Item), s.resetLow = false → Memory.wf s.mem = true →
      s.path.port = some (.hostWrite addr beats items) →
      ∃ mem, exec .hostWriteComplete s = .next (State.freePort { s with
          mem := mem
          asm := { s.asm with intake := s.asm.intake ++ items }
          fetch := s.fetch.snoop (writtenBytes addr beats) }) ∧
        (∀ n b k, beats[n]? = some b → k < 4 → Memory.read mem (addr + 4 * n + k) =
          if b.lanes.getLsbD k then byteOf b.word k else Memory.read s.mem (addr + 4 * n + k)) ∧
        (∀ x, x < addr ∨ addr + 4 * beats.length ≤ x → Memory.read mem x = Memory.read s.mem x)) ∧
  (∀ (f : FetchUnit) (bytes : List Nat) (i : Fin 32),
      ((f.line i).hit bytes = false → (f.snoop bytes).line i = f.line i) ∧
      ((f.line i).hit bytes = true → (f.snoop bytes).line i =
        { f.line i with state := match (f.line i).state with
            | .valid => .empty
            | .filling => .fillingStale
            | .fillingStale => .fillingStale
            | .empty => .empty })) ∧
  (∀ (x : Line) (bytes : List Nat),
      let header := x.tag.msg - x.tag.msg % 4
      let pointer := header + 4 + 4 * x.tag.lang.val
      x.hit bytes = true ↔ ∃ b ∈ bytes, (header ≤ b ∧ b < header + 4) ∨ (pointer ≤ b ∧ b < pointer + 4) ∨
        ∃ start len, x.watch = some (start, len) ∧ start ≤ b ∧ b < start + len) ∧
  (∀ src pitch count b : Nat, 32 ≤ pitch →
      (inSource src pitch count b = true ↔ ∃ g, g < count ∧ src + g * pitch ≤ b ∧ b < src + g * pitch + 32)) ∧
  (∀ (f : FetchUnit) (bytes : List Nat) (a : Fin 8) (src pitch count progress : Nat),
      f.requests.filter (Request.loads a) = [.glyph a src pitch count progress] →
      let hit := bytes.any (inSource src pitch count)
      (f.snoop bytes).areas = f.areas ∧
      (hit = true → (f.snoop bytes).requests.filter (Request.loads a) = [.glyph a src pitch count 0] ∧
        ∀ ch, f.loadsOn [a] ch = true → (f.snoop bytes).channel ch = none) ∧
      (hit = true → (∃ ch, f.loadsOn [a] ch = true) →
        (∀ q ∈ f.requests, ∀ b src' pitch' count' progress', q = .glyph b src' pitch' count' progress' → b ≠ a →
          bytes.any (inSource src' pitch' count') = false) →
        (f.snoop bytes).requests.getLast? = some (.glyph a src pitch count 0)) ∧
      (hit = false → (f.snoop bytes).requests.filter (Request.loads a) = [.glyph a src pitch count progress] ∧
        ∀ ch, f.loadsOn [a] ch = true → (f.snoop bytes).channel ch = f.channel ch))

/-- A host read that completes gives back memory's words and frees the port; memory stands. It consumes the oldest
unconsumed report exactly when it reads word 3 of it: the count falls by one, and the oldest becomes the record one slot
below, or the highest slot below the lowest, or none when the count is 0 (the direction is R174's, log entry 9). -/
def Obligations.HostReadCompleteConsumesTheOldest : Prop :=
  ∀ (s : State) (addr count : Nat), s.resetLow = false → s.path.port = some (.hostRead addr count) → count ≤ 8 →
    ∃ ring, exec .hostReadComplete s = .next (State.freePort { s with
        path := { s.path with upData := some (Memory.readWords s.mem addr count) }, ring := ring }) ∧
      ((∀ k, k < count → s.ring.oldest.map (· + 12) ≠ some (addr + 4 * k)) → ring = s.ring) ∧
      (∀ a k, s.ring.oldest = some a → k < count → a + 12 = addr + 4 * k → 16 ≤ s.ring.setup.ringSize →
        ring = { s.ring with
          unconsumed := s.ring.unconsumed - 1
          oldest := if s.ring.unconsumed - 1 = 0 then none
            else if a = s.ring.setup.ringBase then some (s.ring.setup.ringBase + 16 * (s.ring.setup.ringSize - 1))
            else some (a - 16) })

/-- A hold ends when the places are there: the burst goes to the arbiter with the items it was decoded to.
A timed holdoff that expires: the burst is forwarded with nothing captured, each state window it was decoded into
that is not DISABLED becomes STALE with a sweep asked for, and the ASSIGN window makes one ASSIGN_LOSS report of its first
address and its count of words. Nothing else is lost, and an untimed holdoff never expires. -/
def Obligations.HoldsEndByRoomOrByLoss : Prop :=
  (∀ (s : State) (h : Held), s.resetLow = false → s.path.held = some h →
      (h.items.length ≤ s.unpromised → exec .holdoffEnd s = .next (State.arbitrate { s with
        path := { s.path with held := none, waiting := some (.hostWrite h.addr h.beats h.items) } })) ∧
      (s.unpromised < h.items.length → exec .holdoffEnd s = .next s)) ∧
  (∀ (s : State) (h : Held), s.resetLow = false → s.path.held = some h →
      (∀ x, h.timer = some x → x.limit ≤ x.ticks → ∃ t, exec .holdoffExpiry s = .next t ∧
        t.path = (State.arbitrate { s with
          path := { s.path with held := none, waiting := some (.hostWrite h.addr h.beats []) } }).path ∧
        t = { s with
          path := t.path, eng := t.eng, ring := { s.ring with waiting := t.ring.waiting }
          asm := { s.asm with winState := t.asm.winState }
          fetch := { s.fetch with requests := t.fetch.requests, sweepReads := t.fetch.sweepReads } } ∧
        (∀ w, w ≠ assignWindow → itemsIn h.items w ≠ [] → s.asm.winStateOf w ≠ .disabled →
          t.asm.winStateOf w = .stale ∧ t.fetch.requests.any (Request.sweepsWindow w) = true) ∧
        (∀ w, w = assignWindow ∨ itemsIn h.items w = [] ∨ s.asm.winStateOf w = .disabled →
          t.asm.winStateOf w = s.asm.winStateOf w) ∧
        (∀ i is, itemsIn h.items assignWindow = i :: is →
          t.eng = s.eng.report s.ambient (.assignLoss i.addr (is.length + 1))) ∧
        (itemsIn h.items assignWindow = [] → t.eng = s.eng)) ∧
      ((∀ x, h.timer = some x → x.ticks < x.limit) → exec .holdoffExpiry s = .next s))

/-! ## The Record Assembler -/

/-- The oldest intake item is drained when no commit is being handed: one decoded by a descriptor that is no longer the
accepted one is discarded; another is merged into its staging word, the enabled lanes alone, and the word that is its
record's last hands the record to its owner. While a commit is being handed nothing is drained. -/
def Obligations.IntakeDrainMergesOneItem : Prop :=
  (∀ (s : State) (i : Item) (rest : List Item), s.resetLow = false → s.asm.handed = none → s.asm.intake = i :: rest →
    let ends := s.asm.sweepEnds.map fun x => { x with ahead := x.ahead - 1 }
    (∀ w slot word base count, i.target = .window w slot word base count →
      ((s.path.window w).w0 ≠ base ∨ (s.path.window w).w3 ≠ count → exec .intakeDrain s = .next { s with
        asm := { s.asm with intake := rest, sweepEnds := ends } }) ∧
      ((s.path.window w).w0 = base → (s.path.window w).w3 = count → exec .intakeDrain s = .next { s with
        asm := { s.asm with
          intake := rest
          sweepEnds := ends
          winStage := s.asm.winStage.set w ((s.asm.stage w).put (4 * slot + word)
            (mergeLanes ((s.asm.stage w).word (4 * slot + word)) i.word i.lanes))
          handed := if word = 3 then some (.window w slot) else none } })) ∧
    (∀ off place start words, i.target = .control off → cbRecord off = some (place, start, words) →
      exec .intakeDrain s = .next { s with
        asm := { s.asm with
          intake := rest
          sweepEnds := ends
          cbStage := s.asm.cbStage.put off (mergeLanes (s.asm.cbStage.word off) i.word i.lanes)
          handed := if off = start + 4 * (words - 1) then some place else none } })) ∧
  (∀ s : State, s.resetLow = false → s.asm.handed ≠ none → exec .intakeDrain s = .next s) ∧
  (∀ (old new : Word) (lanes : BitVec 4) (n : Nat), n < 4 →
    byteOf (mergeLanes old new lanes) n = if lanes.getLsbD n then byteOf new n else byteOf old n)

/-- The completion of a sweep is taken when the words ahead of it are drained and the last commit is acted on: the window
is CURRENT and one SWEEP_DONE report is made, unless a new request for the window is in the list, which leaves it as it
is. -/
def Obligations.SweepCompletionMakesTheWindowCurrent : Prop :=
  ∀ (s : State) (x : SweepEnd) (rest : List SweepEnd), s.resetLow = false → s.asm.handed = none →
    s.asm.sweepEnds = x :: rest →
    (x.ahead = 0 → s.fetch.requests.any (Request.sweepsWindow x.kind) = false →
      exec .sweepCompletion s = .next { s with
        asm := { s.asm with sweepEnds := rest, winState := s.asm.winState.set x.kind .current }
        eng := s.eng.report s.ambient (.sweepDone x.kind x.records) }) ∧
    (x.ahead = 0 → s.fetch.requests.any (Request.sweepsWindow x.kind) = true →
      exec .sweepCompletion s = .next { s with asm := { s.asm with sweepEnds := rest } }) ∧
    (x.ahead ≠ 0 → exec .sweepCompletion s = .next s)

/-! ## Commits (R165) -/

/-- A commit of a state or setting record equal to the accepted one has no effect and makes no report.
A commit command finds no other record held out: it acts on none but its own (log entry 2). -/
def Obligations.EqualCommitsDoNothing : Prop :=
  (∀ (s : State) (p : RecordPlace), s.resetLow = false → s.asm.handed = some p → s.sameAsAccepted p = true →
      exec (commitCommand p) s = .next { s with asm := { s.asm with handed := none } }) ∧
  (∀ (s : State) (p q : RecordPlace), s.asm.handed = some q → commitCommand p ≠ commitCommand q → p ≠ .command →
      exec (commitCommand p) s = .next s)

/-- A record that fails its owner's check leaves every accepted record and table in force and makes one RECORD_REFUSED
report with the record's place and the reason of the first check that fails.
Assignments that are refused make one ASSIGN_REFUSED report and change nothing else: LATE when no entry holds the
ticket, MISMATCH when the destination is another, and the reason the car is judged by.
The judgement of a car: BAD_CAR when the number names no car, or the car, its group or its place in the zone is wanting;
CAR_UNAVAILABLE in an out-of-service mode.
The checks, each in the order of its rule, the first that fails giving the reason: CAR (a position EXPRESS or UNKNOWN
passes in any PRESENT group: log entry 47), ASSIGN, ROSTER, LABEL and PLAYOUT records; relocation, settings, window
descriptors, groups, link setups, override slots, languages and the ring setup. -/
def Obligations.RefusedCommitsOnlyReport : Prop :=
  (∀ (s : State) (p : RecordPlace) (why : Reason), s.resetLow = false → s.asm.handed = some p →
      s.sameAsAccepted p = false → s.checkRecord p = some why →
      exec (commitCommand p) s = .next { s with
        asm := { s.asm with handed := none }, eng := s.eng.report s.ambient (.recordRefused p why) }) ∧
  (∀ (s : State) (slot : Nat), s.accepts (.window assignWindow slot) →
      let r := s.stagedSlot assignWindow slot
      let found := s.eng.dest.entries.find? fun y => y.ticket == r.asnTicket
      let refused (why : Reason) : Prop := exec .assignCommit s = .next { s with
        asm := { s.asm with handed := none }
        eng := s.eng.report s.ambient (.assignRefused r.asnTicket why r.asnCar r.asnDecline) }
      (found = none → refused .late) ∧
      (∀ x, found = some x → r.asnDest ≠ x.dest → refused .mismatch) ∧
      (∀ x why, found = some x → r.asnDest = x.dest → r.asnDecline = false →
        judgeCar s.eng (s.eng.zoneOf x.terminal) r.asnCar = .error why → refused why)) ∧
  (∀ (e : Engines) (zone : BitVec 8),
      (∀ n, 47 < n → judgeCar e zone n = .error .badCar) ∧
      (∀ c : Fin 48, (e.ind.carOf c).accepted = none → judgeCar e zone c = .error .badCar) ∧
      (∀ (c : Fin 48) r, (e.ind.carOf c).accepted = some r → 7 < byteN r.w0 0 → judgeCar e zone c = .error .badCar) ∧
      (∀ (c : Fin 48) r (g : Fin 8), (e.ind.carOf c).accepted = some r → byteN r.w0 0 = g.val →
        let open' := (e.ind.groupOf g).groupPresent = true ∧ zone.getLsbD g.val = true
        let away := 3 ≤ byteN r.w1 0 ∧ byteN r.w1 0 ≤ 5
        (¬ open' → judgeCar e zone c = .error .badCar) ∧
        (open' → away → judgeCar e zone c = .error .carUnavailable) ∧
        (open' → ¬ away → judgeCar e zone c = .ok (c, r))) ∧
      (∀ d f, e.faceOf d = some f → e.zoneOf d = BitVec.ofNat 8 f.bindA)) ∧
  (∀ s : State,
      let first (l : List (Bool × Reason)) : Option Reason := (l.find? fun x => !x.1).map Prod.snd
      let within (n lo hi : Nat) : Bool := decide (lo ≤ n ∧ n ≤ hi)
      let shares (but : Option (Fin 5)) (a n : Nat) : Bool := (List.finRange 5).any fun w =>
        let size := 16 * (s.path.window w).w3.toNat
        some w != but && size != 0 && decide (a < (s.path.window w).w0.toNat + size ∧ (s.path.window w).w0.toNat < a + n)
      let base := (s.staged4 0).w3.toNat
      let settings := s.staged8 0x40
      let ring := s.staged4 0x3C0
      (∀ c : Fin 48,
        let r := s.stagedSlot carWindow c
        let at' := byteN r.w3 0
        let check := s.checkRecord (.window carWindow c)
        (byteN r.w0 0 = 255 → check = none) ∧
        (7 < byteN r.w0 0 → byteN r.w0 0 ≠ 255 → check = some .badValue) ∧
        (∀ g : Fin 8, byteN r.w0 0 = g.val →
          let group := s.eng.ind.groupOf g
          check = first [
            (within (byteN r.w1 0) 0 5 && within (byteN r.w1 1) 0 2 && within (byteN r.w1 2) 0 2 &&
              within (byteN r.w3 1) 0 2 && within (byteN r.w3 2) 0 3 &&
              (within (byteN r.w2 0) 0 127 || byteN r.w2 0 == 255), .badValue),
            (group.groupPresent, .noGroup),
            (within at' 0 127 || at' == 254 || at' == 255, .badLanding),
            (!within at' 0 127 || (group.floorOf at').isSome, .badLanding),
            (!within at' 0 127 || !group.double || (group.floorOf (at' + 1)).isSome, .badLanding)])) ∧
      (∀ slot,
        let r := s.stagedSlot assignWindow slot
        s.checkRecord (.window assignWindow slot) = first [
          (within (bitsN r.w0 0 16) 1 65535 && within (byteN r.w3 0) 0 1 &&
            (byteN r.w3 0 == 1 || within (byteN r.w1 1) 0 3) && within (bitsN r.w2 0 16) 0 255, .badValue)]) ∧
      (∀ d,
        let r := s.stagedSlot rosterWindow d
        let others := s.eng.face.faces.filter fun x => x.1 != d
        let terminal (f : Face) : Bool := f.cls == .terminal
        let check := s.checkRecord (.window rosterWindow d)
        (byteN r.w3 0 = 0 → check = none) ∧
        (byteN r.w3 0 ≠ 0 → check = first [
          (byteN r.w3 0 == 1 && within (byteN r.w0 2) 0 4 && within (byteN r.w0 0) 0 7 && within (byteN r.w0 1) 1 63,
            .badValue),
          (!others.any (fun x => x.2.link.val == byteN r.w0 0 && x.2.drop == byteN r.w0 1), .duplicateDrop),
          (byteN r.w0 2 != 4 || (s.eng.faceOf d).any terminal ||
            decide ((others.filter fun x => terminal x.2).length < 32), .tooManyTerminals),
          (match byteN r.w0 2 with
            | 0 => within (byteN r.w1 0) 0 47 && within (byteN r.w2 0) 0 127
            | 1 => within (byteN r.w1 0) 0 47 && within (byteN r.w2 0) 0 1
            | 2 => within (byteN r.w1 0) 0 47 && within (byteN r.w2 0) 0 1
            | 3 => within (byteN r.w1 0) 0 7 && within (byteN r.w2 0) 0 127
            | _ => true, .badBinding)])) ∧
      (∀ f,
        let r := s.stagedSlot labelWindow f
        s.checkRecord (.window labelWindow f) =
          first [(within (byteN r.w3 0) 0 1 && within (byteN r.w3 1) 0 1, .badValue)]) ∧
      (∀ c : Fin 16,
        let r := s.stagedSlot playoutWindow c
        let count := bitsN r.w2 20 4
        let check := s.checkRecord (.window playoutWindow c)
        (byteN r.w3 1 = 0 → check = none) ∧
        (byteN r.w3 1 ≠ 0 → check = first [
          (byteN r.w3 1 == 1 && within count 1 4 &&
            ((List.range count).all fun k => within (bitsN r.w2 (5 * k) 5) 0 15) &&
            within (bitsN r.w2 24 8) 1 60 && decide (byteN r.w1 2 ≤ byteN r.w1 3), .badValue)])) ∧
      s.checkRecord .relocation = first [
        (base % 0x1000 == 0 && decide (base < 0x4000000), .badValue), (!shares none base 0x1000, .badWindow)] ∧
      (∀ w,
        let r := s.staged4 (0x80 + 16 * w.val)
        let base := r.w0.toNat
        let size := 16 * r.w3.toNat
        (r.w3 = 0 → s.checkRecord (.descriptor w) = none) ∧
        (r.w3 ≠ 0 → s.checkRecord (.descriptor w) = first [
          (decide (r.w3.toNat ≤ (match w with | 0 => 48 | 1 => 256 | 2 => 512 | 3 => 256 | 4 => 16)) &&
            base % 16 == 0 && decide (base < 0x4000000), .badValue),
          (decide (base + size ≤ 0x4000000), .badWindow),
          (!shares (some w) base size, .badWindow),
          (!decide (base < s.path.reloc.w3.toNat + 0x1000 ∧ s.path.reloc.w3.toNat < base + size), .badWindow)])) ∧
      s.checkRecord .settings = first [
        (within settings.w0.toNat 8 50 && within settings.w1.toNat 1 255 && within settings.w2.toNat 10 1000 &&
          within settings.w3.toNat 2 60 && within settings.w4.toNat 1 30 && within settings.w5.toNat 1 30 &&
          within settings.w7.toNat 200 1000, .badValue)] ∧
      (∀ g : Fin 8,
        let r := s.staged8 (0x100 + 32 * g.val)
        let used := [r.w1, r.w2, r.w3, r.w4].filter fun w => byteN w 0 != 255
        let lies (w : Word) (l : Nat) : Prop := byteN w 0 ≤ l ∧ l ≤ byteN w 1
        let floor (w : Word) (l : Nat) : Nat := byteN w 2 + (l - byteN w 0)
        let values := byteN r.w7 0 = 1 ∧ byteN r.w0 0 ≤ 1 ∧ 100 ≤ bitsN r.w5 0 16 ∧ bitsN r.w5 0 16 ≤ 1000 ∧
          byteN r.w6 0 ≤ 15
        let spans := (∀ w ∈ used, byteN w 0 ≤ 127 ∧ byteN w 1 ≤ 127 ∧ byteN w 0 ≤ byteN w 1 ∧ floor w (byteN w 1) ≤ 255) ∧
          used.Pairwise (fun v w => ∀ l, ¬ (lies v l ∧ lies w l)) ∧
          used.Pairwise (fun v w => ∀ l m, lies v l → lies w m → floor v l ≠ floor w m)
        let check := s.checkRecord (.group g)
        (byteN r.w7 0 = 0 → check = none) ∧ (byteN r.w7 0 ≠ 0 → ¬ values → check = some .badValue) ∧
        (values → ¬ spans → check = some .badSpans) ∧ (values → spans → check = none)) ∧
      (∀ n : Fin 8,
        let r := s.staged4 (0x200 + 16 * n.val)
        (byteN r.w3 0 = 0 → s.checkRecord (.linkSetup n) = none) ∧
        (byteN r.w3 0 ≠ 0 → s.checkRecord (.linkSetup n) = first [
          (byteN r.w3 0 == 1 && within (byteN r.w2 0) 0 2 && within (byteN r.w2 1) 48 96, .badValue),
          ((List.range 32).all fun i => !(r.w0.getLsbD i && r.w1.getLsbD i), .badSlots)])) ∧
      (∀ k : Fin 4,
        let r := s.staged4 (0x280 + 16 * k.val)
        (byteN r.w3 0 = 0 → s.checkRecord (.overrideSlot k) = none) ∧
        (byteN r.w3 0 ≠ 0 → s.checkRecord (.overrideSlot k) = first [
          (byteN r.w3 0 == 1 && within (byteN r.w3 1) 0 2 && decide (byteN r.w0 1 ≤ byteN r.w0 2), .badValue)])) ∧
      (∀ l : Fin 16, s.checkRecord (.language l) =
        first [(within (s.staged4 (0x2C0 + 16 * l.val)).w3.toNat 0 8, .badValue)]) ∧
      (ring.w3 = 0 → s.checkRecord .ringSetup = none) ∧
      (ring.w3 ≠ 0 → s.checkRecord .ringSetup = first [
        (within ring.w3.toNat 16 1024 && ring.w0.toNat % 16 == 0 &&
          decide (ring.w0.toNat + 16 * ring.w3.toNat ≤ 0x4000000), .badValue)]))

/-- An accepted car record: the car takes the record and the door it replaces, and its deck floors follow from its group;
no other car, no group, no label and no override slot changes. The car's stops are dropped in an out-of-service mode, with
one STOPS_DROPPED report of the floors and the riders when there were any, and at an arrival those at the arrived floors are
removed; no other stop list changes.
The arrival signals of an accepted car record: a running lantern whose car no longer stands there ends, and no place of it
is left in the timer list or comes back; a kept one stands. An arrival in service sets the landing, the deck span and the
group. With next direction NONE it does no more: no lantern, no gong, no place. With a direction the lantern is lit, and its
LANTERN place and then its GONG place are claimed, each refused with one TIMER_REFUSED report when the list is full. Last,
BASE content is derived anew and handed on.
The marks: an ONLINE display whose visible content the record changes is in its queue, its frame in flight to be aborted (with
its LAST block on the wire too: log entry 14); one whose content is the same keeps its place in or out of the queue and its
frame.
The deck floors: the lower is the floor of the position landing, the upper that of the landing above it in a DOUBLE group and
none in a SINGLE one; at EXPRESS and UNKNOWN both are none. -/
def Obligations.CarCommitTakesTheRecord : Prop :=
  (∀ (s : State) (c : Fin 48), s.accepts (.window carWindow c) →
      let r := s.stagedSlot carWindow c
      let old := s.eng.ind.carOf c
      let lower := r.carGroup.bind fun g => lowerFloor (s.eng.ind.groupOf g) r
      let upper := r.carGroup.bind fun g => upperFloor (s.eng.ind.groupOf g) r
      ∃ t, exec .carCommit s = .next t ∧ t = { s with asm := { s.asm with handed := none }, eng := t.eng } ∧
        t.eng.ind.carOf c = ⟨some r, old.accepted.bind Rec4.carDoor, lower, upper⟩ ∧
        (∀ k, k ≠ c → t.eng.ind.carOf k = s.eng.ind.carOf k ∧ t.eng.stopsOf k = s.eng.stopsOf k ∧
          t.eng.ind.signalOf k = s.eng.ind.signalOf k) ∧
        t.eng.ind.groups = s.eng.ind.groups ∧ t.eng.ind.labels = s.eng.ind.labels ∧
        t.eng.face.slots = s.eng.face.slots ∧ t.eng.dest.ticket = s.eng.dest.ticket ∧
        t.eng.stopsOf c =
          (if r.carOutOfService then []
          else if isArrival r (old.accepted.bind Rec4.carDoor) then
            (s.eng.stopsOf c).filter fun x => !(lower.toList ++ upper.toList).contains x.floor
          else s.eng.stopsOf c)) ∧
  (∀ (s : State) (c : Fin 48), s.accepts (.window carWindow c) →
      let r := s.stagedSlot carWindow c
      let x := s.eng.ind.signalOf c
      let prev := (s.eng.ind.carOf c).accepted.bind Rec4.carDoor
      let stops := s.eng.stopsOf c
      let ends := x.running && !x.keptBy r
      let z : Signal := if ends then ⟨.none, true, none, false, none, none, none⟩ else x
      let freed := if ends then (s.eng.timers.releaseOpt x.lanternPlace).releaseOpt x.gongPlace else s.eng.timers
      let dropped := if r.carOutOfService = true ∧ stops ≠ [] then
          s.eng.out.report s.clock.ms (.stopsDropped c stops.length (stops.map Stop.riders).sum) else s.eng.out
      ∃ e : Engines,
        exec .carCommit s = .next { s with asm := { s.asm with handed := none }, eng := e.rederive s.ambient } ∧
        e = { s.eng with
          ind := e.ind, dest := { s.eng.dest with stops := e.dest.stops }, timers := e.timers, out := e.out } ∧
        (e.rederive s.ambient).ind = e.ind ∧
        (isArrival r prev = false ∨ r.carInService = false →
          e.ind.signalOf c = z ∧ e.timers = freed ∧ e.out = dropped) ∧
        (∀ g, isArrival r prev = true → r.carInService = true → r.carGroup = some g →
          let group := s.eng.ind.groupOf g
          let landing := r.carPosition
          let shown : Signal := { z with landing := some landing, two := group.double, group := some g }
          let claimed (tm : Timers) (kind : PlaceKind) (at' : BitVec 32) (interval count : Nat) : Timers × Option Nat :=
            if tm.list.length < 128 then
              (⟨insertPlace tm.list ⟨tm.nextId, kind, .car c, at', interval, count⟩, tm.nextId + 1⟩, some tm.nextId)
            else (tm, none)
          let lantern := if group.flashCount = 0 then (freed, none) else
            claimed freed .lantern (s.clock.ms + BitVec.ofNat 32 group.lanternInterval) group.lanternInterval
              (2 * group.flashCount)
          let gong := claimed lantern.1 .gong s.clock.ms s.asm.settings.gongSpacing (if r.arrowNext = .down then 2 else 1)
          let told := if group.flashCount ≠ 0 ∧ lantern.2 = none then
            dropped.report s.clock.ms (.timerRefused c .lantern landing 0) else dropped
          (r.arrowNext = .none → e.ind.signalOf c = shown ∧ e.timers = freed ∧ e.out = dropped) ∧
          (r.arrowNext ≠ .none →
            e.ind.signalOf c = { shown with
              lantern := r.arrowNext, lit := true
              lanternPlace := lantern.2.or z.lanternPlace, gongPlace := gong.2.or z.gongPlace } ∧
            e.timers = gong.1 ∧
            e.out = if gong.2 = none then told.report s.clock.ms (.timerRefused c .gong landing 0) else told)) ∧
        (∀ id, ends = true → x.lanternPlace = some id ∨ x.gongPlace = some id → id < s.eng.timers.nextId →
          ∀ p ∈ (e.rederive s.ambient).timers.list, p.id ≠ id)) ∧
  (∀ (s : State) (c : Fin 48), s.accepts (.window carWindow c) → s.eng.LinksSafe →
      ∃ t, exec .carCommit s = .next t ∧
        ∀ d f g, s.eng.faceOf d = some f → t.eng.faceOf d = some g → s.eng.online d = true →
          let was := s.eng.linkOf f.link
          let link := t.eng.linkOf f.link
          (f.visible s.eng.face.slots ≠ g.visible t.eng.face.slots → d ∈ link.queue ∧
            ∀ fr, was.frame = some fr → fr.display = d → link.frame = some { fr with
              abortDue := true, closing := if fr.closing = .last then .none else fr.closing }) ∧
          (f.visible s.eng.face.slots = g.visible t.eng.face.slots → (d ∈ link.queue ↔ d ∈ was.queue) ∧
            ∀ fr, was.frame = some fr → fr.display = d → link.frame = some fr)) ∧
  (∀ (g : Rec8) (r : Rec4),
      let at' := byteN r.w3 0
      (at' ≤ 127 → lowerFloor g r = g.floorOf at' ∧
        upperFloor g r = if byteN g.w0 0 = 1 then g.floorOf (at' + 1) else none) ∧
      (127 < at' → lowerFloor g r = none ∧ upperFloor g r = none))

/-- Every step keeps every face derived: its BASE content, display floor and scope groups are those its class and binding
give, and its cover is the lowest slot in force that covers it.
What the class and binding give. A car that is PRESENT in a PRESENT group: a HALL_SEGMENT or CAR_SEGMENT display shows its
deck's floor label and motion, the former with its lantern; a CAR_MATRIX display shows its name, position, motion, first 8
stops in travel order, the target among them, mode and load. A PRESENT group: a HALL_MATRIX display shows its first 8 PRESENT
cars. A TERMINAL shows the idle message. Without the car or the group the content is blank, the lantern then OFF with no lit
value (log entry 19). A lantern is shown at the arrived landing and, for two decks, the one above: its direction and lit
value; elsewhere OFF. -/
def Obligations.FacesShowWhatTheirClassGives : Prop :=
  (∀ s t : State, s.eng.FacesDerived s.ambient → step s = .next t → t.eng.FacesDerived t.ambient) ∧
  (∀ (A : Ambient) (e : Engines) (f : Face) (c : Fin 48) (r : Rec4) (g : Fin 8), f.bindA = c.val →
      (e.ind.carOf c).accepted = some r → r.carGroup = some g → (e.ind.groupOf g).groupPresent = true →
      let label (floor : Option Nat) : Option Rec4 := (floor.bind fun x => e.ind.labels.get x).filter Rec4.labPresent
      let codes (floor : Option Nat) : Word := ((label floor).map Rec4.labSegment).getD 0
      let name (floor : Option Nat) : Option MatrixName := (label floor).map Rec4.labMatrix
      let car := e.ind.carOf c
      let deck := if f.bindB = 0 then car.lower else car.upper
      let arrow := r.carMotion.getD .none
      let group := e.ind.groupOf g
      let floors := ((if arrow = .down then (e.stopsOf c).reverse else e.stopsOf c).map Stop.floor).take 8
      let target := if 127 < r.carTarget then none else if f.bindB = 0 then group.floorOf r.carTarget
        else if group.double then group.floorOf (r.carTarget + 1) else none
      (f.cls = .hallSegment → deriveBase A e f = .hallSegment (codes car.lower) arrow ((e.ind.signalOf c).show f.bindB) ∧
        deriveFloor e.ind f = group.floorOf f.bindB ∧ deriveScope e.ind f = 1#8 <<< g.val) ∧
      (f.cls = .carSegment → deriveBase A e f = .carSegment (codes deck) arrow ∧
        deriveFloor e.ind f = none ∧ deriveScope e.ind f = 1#8 <<< g.val) ∧
      (f.cls = .carMatrix → deriveBase A e f = .carMatrix (some
          { name := (byteOf r.w0 1, byteOf r.w0 2), position := name deck, arrow := arrow
            stops := floors.map fun x => name (some x)
            target := target.bind fun x => if x ∈ floors then some (floors.idxOf x) else none
            mode := byteOf r.w1 0, load := byteOf r.w1 1 }) ∧
        deriveFloor e.ind f = none ∧ deriveScope e.ind f = 1#8 <<< g.val)) ∧
  (∀ (A : Ambient) (e : Engines) (f : Face) (c : Fin 48), f.bindA = c.val →
      (∀ r g, (e.ind.carOf c).accepted = some r → r.carGroup = some g → (e.ind.groupOf g).groupPresent = false) →
      (f.cls = .hallSegment → deriveBase A e f = .hallSegment 0 .none (.off none) ∧ deriveFloor e.ind f = none) ∧
      (f.cls = .carSegment → deriveBase A e f = .carSegment 0 .none) ∧
      (f.cls = .carMatrix → deriveBase A e f = .carMatrix none)) ∧
  (∀ (A : Ambient) (e : Engines) (f : Face) (g : Fin 8), f.cls = .hallMatrix → f.bindA = g.val →
      let name (floor : Option Nat) : Option MatrixName :=
        ((floor.bind fun x => e.ind.labels.get x).filter Rec4.labPresent).map Rec4.labMatrix
      let listed := ((List.finRange 48).filterMap fun c =>
        ((e.ind.carOf c).accepted.filter fun r => r.carGroup == some g).map fun r => (c, r)).take 8
      ((e.ind.groupOf g).groupPresent = true →
        deriveBase A e f = .hallMatrix (listed.map fun x =>
          { name := (byteOf x.2.w0 1, byteOf x.2.w0 2), position := name (e.ind.carOf x.1).lower
            arrow := x.2.carMotion.getD .none, unavailable := x.2.carOutOfService
            full := x.2.carLoad == some .full || x.2.carLoad == some .overload
            here := x.2.carPosition == f.bindB && x.2.carMotion == some .none &&
              (x.2.carDoor == some .opening || x.2.carDoor == some .open) }) ∧
        deriveFloor e.ind f = (e.ind.groupOf g).floorOf f.bindB ∧ deriveScope e.ind f = 1#8 <<< g.val) ∧
      ((e.ind.groupOf g).groupPresent = false →
        deriveBase A e f = .hallMatrix [] ∧ deriveFloor e.ind f = none ∧ deriveScope e.ind f = 0)) ∧
  (∀ (A : Ambient) (e : Engines) (f : Face), f.cls = .terminal → deriveBase A e f = .terminal A.settings.idleMsg ∧
      deriveFloor e.ind f = some f.bindB ∧ deriveScope e.ind f = BitVec.ofNat 8 f.bindA) ∧
  (∀ (x : Signal) (n : Nat),
      (∀ l, x.landing = some l → n = l ∨ (x.two = true ∧ n = l + 1) → x.show n = match x.lantern with
        | .none => .off (some x.lit)
        | .up => .up x.lit
        | .down => .down x.lit) ∧
      ((∀ l, x.landing = some l → n ≠ l ∧ (x.two = true → n ≠ l + 1)) → x.show n = .off none))

/-- An assignment whose ticket is in the table, with the entry's destination and a car that can be assigned: the entry
leaves the table and its place is released, the terminal's prompt turns ASSIGNED, and the car is given the stop.
Adding a stop: the rider count of a floor in the list rises by one and never passes 255; a floor that is not in the
list is inserted in ascending order with rider count 1.
A list that is full and does not hold the floor stays as it is, and one STOP_LIST_FULL report is made of the car, the floor
and the ticket; with room, or with the floor in the list, no report is made. In each case the ASSIGNED prompt takes the WAITING
prompt's place at the head of the queue, or is pushed when that was pushed out, with its hold claimed: the assigned hold,
twice as long for an ACCESSIBLE entry. (Every step keeps the faces derived: FacesShowWhatTheirClassGives. A claim takes the
next number: log entry 21.) -/
def Obligations.AssignCommitGivesTheStop : Prop :=
  (∀ (s : State) (slot : Nat) (x : Entry) (c : Fin 48) (car : Rec4), s.accepts (.window assignWindow slot) →
      let r := s.stagedSlot assignWindow slot
      s.eng.dest.entries.find? (fun y => y.ticket == r.asnTicket) = some x → r.asnDest = x.dest → r.asnDecline = false →
      judgeCar s.eng (s.eng.zoneOf x.terminal) r.asnCar = .ok (c, car) →
      let p : Prompt := ⟨.assigned, some x.ticket, x.dest, x.kind, some c, some car.carName, r.asnWalk.getD .none, none⟩
      ∃ t, exec .assignCommit s = .next t ∧ t = { s with asm := { s.asm with handed := none }, eng := t.eng } ∧
        t.eng = (((s.eng.endEntry x).replacePrompt s.ambient x.terminal x.ticket p).giveStop s.ambient c x.dest x.ticket) ∧
        (∀ y ∈ t.eng.dest.entries, y.ticket ≠ x.ticket ∧ y ∈ s.eng.dest.entries) ∧
        (∀ k, k ≠ c → t.eng.stopsOf k = s.eng.stopsOf k) ∧
        t.eng.stopsOf c = (if holdsStop (s.eng.stopsOf c) x.dest ∨ (s.eng.stopsOf c).length < 16 then
          addStop (s.eng.stopsOf c) x.dest else s.eng.stopsOf c) ∧
        t.eng.dest.ticket = s.eng.dest.ticket ∧ t.eng.ind = s.eng.ind ∧ t.eng.face.slots = s.eng.face.slots) ∧
  (∀ (l : List Stop) (f : Nat), stopsOrdered l →
      stopsOrdered (addStop l f) ∧
      (∀ x ∈ l, x.floor ≠ f → x ∈ addStop l f) ∧
      (∀ x ∈ l, x.floor = f → (⟨f, min (x.riders + 1) 255⟩ : Stop) ∈ addStop l f ∧ (addStop l f).length = l.length) ∧
      (holdsStop l f = false → (⟨f, 1⟩ : Stop) ∈ addStop l f ∧ (addStop l f).length = l.length + 1)) ∧
  (∀ (s : State) (slot : Nat) (x : Entry) (c : Fin 48) (car : Rec4) (q : List Prompt),
      s.accepts (.window assignWindow slot) → s.eng.FacesDerived s.ambient →
      let r := s.stagedSlot assignWindow slot
      s.eng.dest.entries.find? (fun y => y.ticket == r.asnTicket) = some x → r.asnDest = x.dest → r.asnDecline = false →
      judgeCar s.eng (s.eng.zoneOf x.terminal) r.asnCar = .ok (c, car) →
      s.eng.dest.prompts.get x.terminal = some q → (∃ p ∈ s.eng.timers.list, p.id = x.place) →
      s.eng.timers.list.length ≤ 128 →
      let waiting := q.any (Prompt.waitsFor x.ticket)
      let kept := if waiting then q.eraseP (Prompt.waitsFor x.ticket) else if q.length < 4 then q else q.dropLast
      let pushedOut := if waiting || q.length < 4 then none else (q.getLast?).bind Prompt.hold
      let freed := (s.eng.timers.release x.place).releaseOpt pushedOut
      let hold := s.eng.timers.nextId
      let time := if x.kind = .accessible then 2 * s.asm.settings.assignedHold else s.asm.settings.assignedHold
      ∃ t, exec .assignCommit s = .next t ∧
        t.eng.dest.entries = s.eng.dest.entries.filter (fun y => y.ticket != x.ticket) ∧
        t.eng.timers = ⟨insertPlace freed.list
          ⟨hold, .promptHold, .prompt x.terminal, later s.clock.ms time, 0, 0⟩, hold + 1⟩ ∧
        t.eng.promptsOf x.terminal = ⟨.assigned, some x.ticket, x.dest, x.kind, some c,
          some (byteOf car.w0 1, byteOf car.w0 2), r.asnWalk.getD .none, some hold⟩ :: kept ∧
        (∀ d, d ≠ x.terminal → t.eng.promptsOf d = s.eng.promptsOf d) ∧
        t.eng.out = if (∀ y ∈ s.eng.stopsOf c, y.floor ≠ x.dest) ∧ 16 ≤ (s.eng.stopsOf c).length then
          s.eng.out.report s.clock.ms (.stopListFull c x.dest x.ticket) else s.eng.out)

/-- A DECLINE that finds its entry and matches its destination: the entry leaves the table and its place is released; its
WAITING prompt is replaced by a REFUSED prompt at the head of the queue, or the REFUSED prompt is pushed when the WAITING
prompt was pushed out (R57, R58), with its hold claimed for the notice hold (R59; a claim takes the next number, log entry 21); no
stop is added and no report is made. The car number and the walk hint play no part. A decline
whose entry has ended is LATE: it makes one ASSIGN_REFUSED report (R48). -/
def Obligations.DeclineRefusesTheEntry : Prop :=
  ∀ (s : State) (slot : Nat), s.accepts (.window assignWindow slot) →
    let r := s.stagedSlot assignWindow slot
    r.asnDecline = true →
    (∀ x q, s.eng.dest.entries.find? (fun y => y.ticket == r.asnTicket) = some x → r.asnDest = x.dest →
      s.eng.dest.prompts.get x.terminal = some q → (∃ p ∈ s.eng.timers.list, p.id = x.place) →
      s.eng.timers.list.length ≤ 128 →
      let waiting := q.any (Prompt.waitsFor x.ticket)
      let kept := if waiting then q.eraseP (Prompt.waitsFor x.ticket) else if q.length < 4 then q else q.dropLast
      let pushedOut := if waiting || q.length < 4 then none else (q.getLast?).bind Prompt.hold
      let freed := (s.eng.timers.release x.place).releaseOpt pushedOut
      let hold := s.eng.timers.nextId
      ∃ t, exec .assignCommit s = .next t ∧ t = { s with asm := { s.asm with handed := none }, eng := t.eng } ∧
        t.eng.dest.entries = s.eng.dest.entries.filter (fun y => y.ticket != x.ticket) ∧
        t.eng.timers = ⟨insertPlace freed.list
          ⟨hold, .promptHold, .prompt x.terminal, later s.clock.ms s.asm.settings.noticeHold, 0, 0⟩, hold + 1⟩ ∧
        t.eng.promptsOf x.terminal =
          ⟨.refused, some x.ticket, x.dest, x.kind, none, none, .none, some hold⟩ :: kept ∧
        (∀ d, d ≠ x.terminal → t.eng.promptsOf d = s.eng.promptsOf d) ∧
        t.eng.dest.stops = s.eng.dest.stops ∧ t.eng.dest.ticket = s.eng.dest.ticket ∧ t.eng.out = s.eng.out ∧
        t.eng.ind = s.eng.ind ∧ t.eng.play = s.eng.play ∧ t.eng.face.slots = s.eng.face.slots) ∧
    (s.eng.dest.entries.find? (fun y => y.ticket == r.asnTicket) = none →
      exec .assignCommit s = .next { s with
        asm := { s.asm with handed := none }
        eng := s.eng.report s.ambient (.assignRefused r.asnTicket .late r.asnCar true) })

/-- An accepted roster record of a new display: the display is UNPOLLED with nothing heard, its face takes the record's
class, bindings, link and drop with no stroke, no prompt and no mark, under the slot that covers it, and a terminal gets
an empty prompt queue. An accepted ABSENT record removes the display, its face and its queue.
A record that changes the class, a binding, the link or the drop of a PRESENT display rebinds it: the last-taken toggle is
NONE; one whose link or drop changes leaves its old queue, with its frame and a designation of its drop, and is UNPOLLED with
nothing heard, else its liveness, miss count and fault code stay. Its face is built again with no stroke, no prompt and no
wait mark, under the slot that covers it; a TERMINAL's entries are cancelled and its prompts removed.
A display created, removed or rebound is put into the target set of each active context whose record targets it now, and
taken out of every other. -/
def Obligations.RosterCommitCreatesAndRemoves : Prop :=
  ∀ (s : State) (d : Nat), s.accepts (.window rosterWindow d) →
    let r := s.stagedSlot rosterWindow d
    let differs (cls : DisplayClass) (f : Face) : Prop := f.cls ≠ cls ∨ f.bindA ≠ r.rosBindA ∨ f.bindB ≠ r.rosBindB ∨
      f.link ≠ r.rosLink ∨ f.drop ≠ r.rosDrop
    ∃ t, exec .rosterCommit s = .next t ∧ t = { s with asm := { s.asm with handed := none }, eng := t.eng } ∧
      t.eng.link.roster.get d = some r ∧ (∀ k, k ≠ d → t.eng.link.roster.get k = s.eng.link.roster.get k ∧
        t.eng.link.displays.get k = s.eng.link.displays.get k) ∧
      t.eng.ind = s.eng.ind ∧ t.eng.dest.stops = s.eng.dest.stops ∧ t.eng.dest.ticket = s.eng.dest.ticket ∧
      t.eng.face.slots = s.eng.face.slots ∧
      (∀ cls, r.rosPresent = true → r.rosClass = some cls → s.eng.faceOf d = none →
        t.eng.link.displays.get d = some ⟨.unpolled, 0, 0, none⟩ ∧
        (cls = .terminal → t.eng.dest.prompts.get d = some []) ∧
        ∃ f, t.eng.faceOf d = some f ∧ f.cls = cls ∧ f.bindA = r.rosBindA ∧ f.bindB = r.rosBindB ∧
          f.link = r.rosLink ∧ f.drop = r.rosDrop ∧ f.strokes = 0 ∧ f.prompt = [] ∧ f.waitText = none ∧
          f.waitGlyphs = [] ∧ f.cover = coverOf s.eng.face.slots f) ∧
      (∀ f, r.rosPresent = false → s.eng.faceOf d = some f →
        t.eng.faceOf d = none ∧ t.eng.link.displays.get d = none ∧ t.eng.dest.prompts.get d = none ∧
        (f.cls = .terminal → ∀ y ∈ t.eng.dest.entries, y.terminal ≠ d)) ∧
      (∀ cls f x, r.rosPresent = true → r.rosClass = some cls → s.eng.faceOf d = some f →
        s.eng.link.displays.get d = some x → differs cls f →
        let moved := f.link ≠ r.rosLink ∨ f.drop ≠ r.rosDrop
        let old := s.eng.linkOf f.link
        t.eng.link.displays.get d = some (if moved then ⟨.unpolled, 0, 0, none⟩ else { x with toggle := none }) ∧
        (∃ g, t.eng.faceOf d = some g ∧ g.cls = cls ∧ g.bindA = r.rosBindA ∧ g.bindB = r.rosBindB ∧
          g.link = r.rosLink ∧ g.drop = r.rosDrop ∧ g.strokes = 0 ∧ g.prompt = [] ∧ g.waitText = none ∧
          g.waitGlyphs = [] ∧ g.cover = coverOf s.eng.face.slots g) ∧
        (f.cls = .terminal → ∀ y ∈ t.eng.dest.entries, y.terminal ≠ d) ∧
        (f.cls = .terminal ∨ cls = .terminal → t.eng.promptsOf d = []) ∧
        (moved → (t.eng.linkOf f.link).queue = old.queue.erase d ∧
          (t.eng.linkOf f.link).frame = (if old.inFlight = some d then none else old.frame) ∧
          (t.eng.linkOf f.link).pending = (if old.pending = some f.drop then none else old.pending))) ∧
      (∀ c, (s.eng.ctx c).active = true → (s.eng.ctx c).targets.Nodup →
        (s.eng.faceOf d = none ∧ r.rosPresent = true) ∨
          (∃ f, s.eng.faceOf d = some f ∧ (r.rosPresent = false ∨ ∃ cls, r.rosClass = some cls ∧ differs cls f)) →
        (d ∈ (t.eng.ctx c).targets ↔
          ∃ g, t.eng.faceOf d = some g ∧ isTarget ((s.eng.ctx c).accepted.getD Rec4.zero) g = true))

/-- An accepted label record takes its floor's place in the label table; no other label, no group, no car and no stop
list changes.
While the faces are derived (which every step keeps: FacesShowWhatTheirClassGives) it changes no other table: the entry table
and the ticket counter, the prompt queues, the roster, the displays, the contexts, the timer list, the reports and the override
slots stand, and of a link its queue and the marks of its frame alone may change. Each face takes the BASE content and the
PROMPT layer that the new label gives it, and keeps its class, binding, cover, NOTICE layer, strokes and glyph marks.
The marks: an ONLINE display whose visible content the record changes is in its queue, its frame in flight to be aborted (with
its LAST block on the wire too: log entry 14); one whose content is the same keeps its place in or out of the queue and its
frame. -/
def Obligations.LabelCommitTakesTheRecord : Prop :=
  ∀ (s : State) (f : Nat), s.accepts (.window labelWindow f) →
    ∃ t, exec .labelCommit s = .next t ∧ t = { s with asm := { s.asm with handed := none }, eng := t.eng } ∧
      t.eng.ind = { s.eng.ind with labels := t.eng.ind.labels } ∧
      t.eng.ind.labels.get f = some (s.stagedSlot labelWindow f) ∧
      (∀ k, k ≠ f → t.eng.ind.labels.get k = s.eng.ind.labels.get k) ∧
      t.eng.dest.stops = s.eng.dest.stops ∧ t.eng.dest.ticket = s.eng.dest.ticket ∧
      t.eng.face.slots = s.eng.face.slots ∧
      (s.eng.FacesDerived s.ambient →
        t.eng = { s.eng with
          ind := { s.eng.ind with labels := t.eng.ind.labels }
          face := { s.eng.face with faces := t.eng.face.faces }
          link := { s.eng.link with links := t.eng.link.links } } ∧
        (∀ n, t.eng.linkOf n =
          { s.eng.linkOf n with queue := (t.eng.linkOf n).queue, frame := (t.eng.linkOf n).frame }) ∧
        (∀ d, t.eng.faceOf d = none ↔ s.eng.faceOf d = none) ∧
        (∀ d x y, s.eng.faceOf d = some x → t.eng.faceOf d = some y →
          y = { x with base := deriveBase s.ambient t.eng x, prompt := y.prompt, waitText := y.waitText } ∧
          (∀ q, s.eng.dest.prompts.get d = some q → y.prompt = q.map (Prompt.show t.eng.ind.labels)) ∧
          (s.eng.dest.prompts.get d = none → y.prompt = x.prompt) ∧
          (y.waitText = x.waitText ∨ y.waitText = none))) ∧
      (s.eng.LinksSafe → ∀ d x y, s.eng.faceOf d = some x → t.eng.faceOf d = some y → s.eng.online d = true →
        let was := s.eng.linkOf x.link
        let link := t.eng.linkOf x.link
        (x.visible s.eng.face.slots ≠ y.visible t.eng.face.slots → d ∈ link.queue ∧
          ∀ fr, was.frame = some fr → fr.display = d → link.frame = some { fr with
            abortDue := true, closing := if fr.closing = .last then .none else fr.closing }) ∧
        (x.visible s.eng.face.slots = y.visible t.eng.face.slots → (d ∈ link.queue ↔ d ∈ was.queue) ∧
          ∀ fr, was.frame = some fr → fr.display = d → link.frame = some fr))

/-- An accepted START: the context takes the record, its targets and its repeat count, stands at the first READY language
of the rotation or at NONE, and is SUSPENDED with the whole dwell saved when every target is covered, else PLAYING with a
DWELL place where the timer list has room. An accepted STOP makes it IDLE with its place released. Other contexts keep
what they hold.
A display that the context targeted or now targets and that has a NOTICE layer by its class shows the NOTICE of the
lowest-numbered active context that targets it, with its message, its language and, while that is NONE, the languages of its
rotation (their order: log entry 42), or none when no context does. The displays that the record of a context targets are
those of its classes with a scope group in its group mask and, but for CAR_MATRIX, a floor from its first to its last.
The marks: an ONLINE display whose visible content the record changes is in its queue, its frame in flight to be aborted (with
its LAST block on the wire too: log entry 14); one whose content is the same keeps its place in or out of the queue and its
frame. -/
def Obligations.PlayoutCommitStartsAndStops : Prop :=
  (∀ (s : State) (c : Fin 16), s.accepts (.window playoutWindow c) →
    let r := s.stagedSlot playoutWindow c
    let targets := targetsOf s.eng.face.faces r
    let covered := !targets.isEmpty && allCovered s.eng.face.faces targets
    ∃ t, exec .playoutCommit s = .next t ∧ t = { s with asm := { s.asm with handed := none }, eng := t.eng } ∧
      (∀ k, k ≠ c → t.eng.ctx k = s.eng.ctx k) ∧ t.eng.ind = s.eng.ind ∧ t.eng.dest = s.eng.dest ∧
      t.eng.face.slots = s.eng.face.slots ∧
      (r.ploActionCode = 1 →
        (t.eng.ctx c).accepted = some r ∧ (t.eng.ctx c).targets = targets ∧ (t.eng.ctx c).remaining = r.ploRepeat ∧
        ((t.eng.ctx c).index, (t.eng.ctx c).lang) = (match firstReady s.fetch.ready r.ploRotation 0 with
          | some (i, l) => (i, some l)
          | none => (0, none)) ∧
        (covered = true → (t.eng.ctx c).state = .suspended ∧ (t.eng.ctx c).saved = r.ploDwell ∧
          (t.eng.ctx c).place = none) ∧
        (covered = false → (t.eng.ctx c).state = .playing ∧
          ((t.eng.ctx c).place.isSome = true ↔
            (s.eng.timers.releaseOpt (s.eng.ctx c).place).list.length < 128))) ∧
      (r.ploActionCode = 0 → t.eng.ctx c = ⟨.idle, some r, 0, none, 0, none, 0, []⟩ ∧ t.eng.out = s.eng.out ∧
        t.eng.timers = s.eng.timers.releaseOpt (s.eng.ctx c).place) ∧
      (∀ d f, t.eng.faceOf d = some f → f.cls = .hallMatrix ∨ f.cls = .carMatrix ∨ f.cls = .terminal →
        d ∈ (s.eng.ctx c).targets ∨ (r.ploActionCode = 1 ∧ d ∈ targets) →
        f.notice = ((List.finRange 16).find? fun k => (t.eng.ctx k).active && (t.eng.ctx k).targets.contains d).map
          fun k =>
            let own := (t.eng.ctx k).accepted.getD Rec4.zero
            ⟨k, own.ploMsg, (t.eng.ctx k).lang, if (t.eng.ctx k).lang.isSome then [] else own.ploRotation⟩) ∧
      (s.eng.LinksSafe → ∀ d f g, s.eng.faceOf d = some f → t.eng.faceOf d = some g → s.eng.online d = true →
        let was := s.eng.linkOf f.link
        let link := t.eng.linkOf f.link
        (f.visible s.eng.face.slots ≠ g.visible t.eng.face.slots → d ∈ link.queue ∧
          ∀ fr, was.frame = some fr → fr.display = d → link.frame = some { fr with
            abortDue := true, closing := if fr.closing = .last then .none else fr.closing }) ∧
        (f.visible s.eng.face.slots = g.visible t.eng.face.slots → (d ∈ link.queue ↔ d ∈ was.queue) ∧
          ∀ fr, was.frame = some fr → fr.display = d → link.frame = some fr))) ∧
  (∀ (faces : Tab Face) (r : Rec4) (d : Nat), d ∈ targetsOf faces r ↔ ∃ f, (d, f) ∈ faces ∧
      (f.scope &&& byteOf r.w1 0) ≠ 0 ∧
      let onFloor := ∃ x, f.floor = some x ∧ byteN r.w1 2 ≤ x ∧ x ≤ byteN r.w1 3
      match f.cls with
      | .hallMatrix => (byteOf r.w1 1).getLsbD 0 = true ∧ onFloor
      | .carMatrix => (byteOf r.w1 1).getLsbD 1 = true
      | .terminal => (byteOf r.w1 1).getLsbD 2 = true ∧ onFloor
      | .hallSegment => False
      | .carSegment => False)

/-- An accepted relocation record moves the control block at once; a block that moves makes a mirror write due.
An accepted ring setup: the unconsumed records are discarded, the write position is the highest slot of the new ring
or none, and a record write in flight counts for nothing. The pending reports are kept. -/
def Obligations.RelocationAndRingComeIntoForce : Prop :=
  (∀ s : State, s.accepts .relocation → exec .relocationCommit s = .next { s with
      asm := { s.asm with handed := none }
      path := { s.path with reloc := s.staged4 0 }
      ring := { s.ring with mirrorMoved := s.ring.mirrorMoved || s.path.reloc.w3 != (s.staged4 0).w3 } }) ∧
  (∀ s : State, s.accepts .ringSetup →
      let r := s.staged4 0x3C0
      ∃ t, exec .ringSetupCommit s = .next t ∧
        t = { s with
          asm := { s.asm with handed := none }
          path := { s.path with port := s.path.port.map Access.voided }
          ring := { s.ring with
            setup := r, unconsumed := 0, oldest := none, waiting := s.ring.waiting.map Access.voided
            writePos := if r.ringSize = 0 then none else some (r.ringBase + 16 * (r.ringSize - 1)) } } ∧
        t.countingWrites = 0 ∧ t.attention = false)

/-- An accepted window descriptor decodes from its acceptance. One with the base and count it had changes nothing else.
A changed one clears the window's staging; the window is DISABLED with its sweep withdrawn at a count of 0, the ASSIGN
window is CURRENT, and a state window is STALE with a sweep asked for. Every other window keeps its state, its staging and
its descriptor.
The clearing of a window's table: the CAR window's makes every car ABSENT and ends every lantern, the ROSTER window's
removes every display, the LABEL window's empties the labels, the PLAYOUT window's makes every context IDLE, and the
ASSIGN window has no table. -/
def Obligations.DescriptorCommitSetsTheWindow : Prop :=
  (∀ (s : State) (w : Fin 5), s.accepts (.descriptor w) →
      let r := s.staged4 (descriptorOffset w)
      let same := (s.path.window w).w0 = r.w0 ∧ (s.path.window w).w3 = r.w3
      ∃ t, exec .descriptorCommit s = .next t ∧ t.path.window w = r ∧
        (∀ k, k ≠ w → t.path.window k = s.path.window k ∧ t.asm.winStateOf k = s.asm.winStateOf k ∧
          t.asm.stage k = s.asm.stage k) ∧
        (same → t = { s with
          asm := { s.asm with handed := none }, path := { s.path with windows := s.path.windows.set w r } }) ∧
        (¬ same → t.asm.stage w = [] ∧ t.asm.handed = none ∧ t.asm.intake = s.asm.intake ∧
          t.asm.cbStage = s.asm.cbStage ∧ t.asm.settings = s.asm.settings ∧ t.mem = s.mem ∧ t.clock = s.clock ∧
          t.ring = s.ring ∧ t.pending = s.pending ∧ t.resetLow = s.resetLow ∧
          t.eng = s.eng.clearTable s.ambient w) ∧
        (¬ same → r.winCount = 0 →
          t.asm.winStateOf w = .disabled ∧ t.fetch.requests.any (Request.sweepsWindow w) = false) ∧
        (¬ same → r.winCount ≠ 0 → w = assignWindow → t.asm.winStateOf w = .current) ∧
        (¬ same → r.winCount ≠ 0 → w ≠ assignWindow →
          t.asm.winStateOf w = .stale ∧ t.fetch.requests.any (Request.sweepsWindow w) = true)) ∧
  (∀ (A : Ambient) (e : Engines),
      (∀ c, (e.clearTable A carWindow).ind.carOf c = ⟨none, none, none, none⟩ ∧
        ((e.clearTable A carWindow).ind.signalOf c).running = false) ∧
      (e.clearTable A carWindow).dest.stops = e.dest.stops ∧
      e.clearTable A assignWindow = e ∧
      (e.clearTable A rosterWindow).face.faces = [] ∧ (e.clearTable A rosterWindow).link.roster = [] ∧
      (e.clearTable A labelWindow).ind.labels = [] ∧
      (∀ c, (e.clearTable A playoutWindow).ctx c = ⟨.idle, none, 0, none, 0, none, 0, []⟩))

/-- An accepted settings record comes into force at once; a changed divider starts the count of reference cycles again,
and BASE content follows a changed idle message. -/
def Obligations.SettingsCommitComesIntoForce : Prop :=
  ∀ s : State, s.accepts .settings →
    let r := s.staged8 0x40
    ∃ t, exec .settingsCommit s = .next t ∧
      t = { s with
        asm := { s.asm with handed := none, settings := r }
        clock := { s.clock with refCount := if s.asm.settings.w0 = r.w0 then s.clock.refCount else 0 }
        eng := t.eng } ∧
      t.eng = s.eng.rederive ⟨s.clock.ms, r, s.fetch.ready⟩ ∧ t.eng.ind = s.eng.ind ∧
      t.eng.dest.stops = s.eng.dest.stops ∧ t.eng.face.slots = s.eng.face.slots

/-- An accepted group record takes effect at once: the floors of the group's cars are derived from it, and a group that
becomes ABSENT ends the lanterns of its cars. Other groups, other cars, labels and stop lists stand.
The floor of a landing: none in an ABSENT group or outside every used span, else the span's base floor and as many more as the
landing lies above the span's first. The deck floors of a record: the lower is the floor of its position landing, the upper
that of the landing above it in a DOUBLE group and none in a SINGLE one; at EXPRESS and UNKNOWN both are none. -/
def Obligations.GroupCommitTakesTheRecord : Prop :=
  (∀ (s : State) (g : Fin 8), s.accepts (.group g) →
    let r := s.staged8 (groupOffset g)
    ∃ t, exec .groupCommit s = .next t ∧ t = { s with asm := { s.asm with handed := none }, eng := t.eng } ∧
      t.eng.ind.groupOf g = r ∧ (∀ k, k ≠ g → t.eng.ind.groupOf k = s.eng.ind.groupOf k) ∧
      t.eng.ind.labels = s.eng.ind.labels ∧ t.eng.dest.stops = s.eng.dest.stops ∧
      t.eng.face.slots = s.eng.face.slots ∧
      (∀ c, (s.eng.ind.carOf c).group ≠ some g → t.eng.ind.carOf c = s.eng.ind.carOf c ∧
        t.eng.ind.signalOf c = s.eng.ind.signalOf c) ∧
      (∀ c a, (s.eng.ind.carOf c).group = some g → (s.eng.ind.carOf c).accepted = some a →
        t.eng.ind.carOf c =
          { s.eng.ind.carOf c with lower := lowerFloor r a, upper := upperFloor r a } ∧
        ((s.eng.ind.groupOf g).groupPresent = true → r.groupPresent = false →
          (t.eng.ind.signalOf c).running = false) ∧
        (r.groupPresent = true → t.eng.ind.signalOf c = s.eng.ind.signalOf c))) ∧
  (∀ (r : Rec8) (l : Nat),
    let holds (w : Word) : Prop := byteN w 0 ≠ 255 ∧ byteN w 0 ≤ l ∧ l ≤ byteN w 1
    (r.floorOf l = none ↔ byteN r.w7 0 ≠ 1 ∨ ∀ w ∈ [r.w1, r.w2, r.w3, r.w4], ¬ holds w) ∧
    (∀ x, r.floorOf l = some x → ∃ w ∈ [r.w1, r.w2, r.w3, r.w4], holds w ∧ x = byteN w 2 + (l - byteN w 0))) ∧
  (∀ (g : Rec8) (r : Rec4),
      let at' := byteN r.w3 0
      (at' ≤ 127 → lowerFloor g r = g.floorOf at' ∧
        upperFloor g r = if byteN g.w0 0 = 1 then g.floorOf (at' + 1) else none) ∧
      (127 < at' → lowerFloor g r = none ∧ upperFloor g r = none))

/-- An accepted link setup. A link that starts or stops begins at slot 0 (of a stopping one the model's choice: log entry 49)
with no frame and no designation, a stopping one with an empty queue, and its displays become UNPOLLED with miss count 0 and their fault codes kept; a RUNNING link that is
changed begins its cycle again at slot 0 and keeps its displays' liveness; a STOPPED link that stays so takes the record.
No other link's setup, run state or slot changes. -/
def Obligations.LinkSetupCommitRunsTheLink : Prop :=
  ∀ (s : State) (n : Fin 8), s.accepts (.linkSetup n) →
    let r := s.staged4 (linkOffset n)
    let old := s.eng.linkOf n
    ∃ t, exec .linkSetupCommit s = .next t ∧ t = { s with asm := { s.asm with handed := none }, eng := t.eng } ∧
      t.eng = { s.eng with link := t.eng.link, face := { s.eng.face with faces := t.eng.face.faces } } ∧
      (t.eng.linkOf n).setup = r ∧ (t.eng.linkOf n).running = r.lnkRun ∧
      (∀ k, k ≠ n → t.eng.linkOf k = s.eng.linkOf k) ∧ t.eng.link.roster = s.eng.link.roster ∧
      (r.lnkRun = true ∨ old.running = true → (t.eng.linkOf n).slot = 0 ∧ (t.eng.linkOf n).frame = none ∧
        (t.eng.linkOf n).pending = none ∧ (t.eng.linkOf n).served = false) ∧
      (r.lnkRun = false → old.running = true → (t.eng.linkOf n).queue = []) ∧
      (r.lnkRun = true → old.running = false → (t.eng.linkOf n).turn = none) ∧
      (r.lnkRun = old.running → t.eng.link.displays = s.eng.link.displays) ∧
      (r.lnkRun ≠ old.running → ∀ d f x, (d, f) ∈ s.eng.face.faces → f.link = n →
        s.eng.link.displays.get d = some x →
        t.eng.link.displays.get d = some { x with liveness := .unpolled, misses := 0 })

/-- An accepted override slot record: the slot takes the record, and after it every face is covered by the
lowest-numbered slot in force in whose scope it lies. A slot that comes into force takes the lowest READY language; one
that goes out of force holds no language and no place. Other slots stand.
A display that comes under cover has no stroke left, and a TERMINAL no entry and no prompt; each entry so lost makes one
ENTRY_CANCELLED report with reason OVERRIDE, by ascending display and in the order of the table, and these are the only
reports while the timer list has room for every claim that may follow. A display that comes out of cover shows what lies
below.
The marks: an ONLINE display whose visible content differs from what was shown before the record, be it by onset, release,
transfer or the covering slot's own fields, is in its queue, its frame in flight to be aborted; one whose content is the same
keeps its place in or out of the queue and its frame. What was shown is taken from the slots as they stood before the record
(log entry 27), and a mark that comes with the LAST block on the wire aborts the frame too (log entry 14).
The scope: a slot in force covers the faces with a scope group in its mask and, but for the car classes, a floor from its
first to its last. -/
def Obligations.OverrideSlotCommitSetsTheCover : Prop :=
  (∀ (s : State) (k : Fin 4), s.accepts (.overrideSlot k) →
    let r := s.staged4 (slotOffset k)
    let old := (slotOf s.eng.face.slots k).record
    ∃ t, exec .overrideSlotCommit s = .next t ∧ t = { s with asm := { s.asm with handed := none }, eng := t.eng } ∧
      (slotOf t.eng.face.slots k).record = r ∧
      (∀ j, j ≠ k → slotOf t.eng.face.slots j = slotOf s.eng.face.slots j) ∧
      (∀ d f, t.eng.faceOf d = some f → f.cover = coverOf t.eng.face.slots f) ∧
      t.eng.ind = s.eng.ind ∧ t.eng.dest.stops = s.eng.dest.stops ∧ t.eng.dest.ticket = s.eng.dest.ticket ∧
      (old.ovrInForce = false → r.ovrInForce = true →
        (slotOf t.eng.face.slots k).lang = lowestReady s.fetch.ready) ∧
      (old.ovrInForce = true → r.ovrInForce = false →
        (slotOf t.eng.face.slots k).lang = none ∧ (slotOf t.eng.face.slots k).place = none) ∧
      (∀ d f g, s.eng.faceOf d = some f → t.eng.faceOf d = some g →
        (f.cover = none → g.cover ≠ none → g.strokes = 0 ∧
          (f.cls = .terminal → g.prompt = [] ∧ t.eng.promptsOf d = [] ∧ ∀ y ∈ t.eng.dest.entries, y.terminal ≠ d)) ∧
        (f.cover = none → g.cover = none → g = f) ∧
        (f.cover ≠ none → g.strokes = f.strokes ∧ g.prompt = f.prompt ∧ g.base = f.base)) ∧
      (s.eng.timers.list.length ≤ 111 → Tab.wf s.eng.face.faces = true → s.eng.ClaimsSafe →
        let covered := s.eng.face.faces.filter fun y =>
          y.2.cls == .terminal && y.2.cover.isNone && (coverOf t.eng.face.slots y.2).isSome
        t.eng.out = (covered.flatMap fun y => s.eng.dest.entries.filter fun x => x.terminal == y.1).foldl
          (fun o x => o.report s.clock.ms (.entryCancelled x.ticket x.terminal .override)) s.eng.out) ∧
      (s.eng.LinksSafe → ∀ d f g, s.eng.faceOf d = some f → t.eng.faceOf d = some g → s.eng.online d = true →
        let was := s.eng.linkOf f.link
        let link := t.eng.linkOf f.link
        (f.visible s.eng.face.slots ≠ g.visible t.eng.face.slots → d ∈ link.queue ∧
          ∀ fr, was.frame = some fr → fr.display = d → link.frame = some { fr with
            abortDue := true, closing := if fr.closing = .last then .none else fr.closing }) ∧
        (f.visible s.eng.face.slots = g.visible t.eng.face.slots → (d ∈ link.queue ↔ d ∈ was.queue) ∧
          ∀ fr, was.frame = some fr → fr.display = d → link.frame = some fr))) ∧
  (∀ (slots : Vector OverrideSlot 4) (f : Face),
    let covers (k : Fin 4) : Prop :=
      let r := (slotOf slots k).record
      byteN r.w3 0 = 1 ∧ (f.scope &&& byteOf r.w0 0) ≠ 0 ∧ (f.cls = .carSegment ∨ f.cls = .carMatrix ∨
        ∃ x, f.floor = some x ∧ byteN r.w0 1 ≤ x ∧ x ≤ byteN r.w0 2)
    (coverOf slots f = none ↔ ∀ k, ¬ covers k) ∧
    (∀ k, coverOf slots f = some k ↔ covers k ∧ ∀ j, j < k → ¬ covers j))

/-- An accepted language record takes its place in the language table, and the language is READY exactly when its area
is; only a language that becomes READY reaches the displays and the contexts.
When it becomes READY, each slot in force whose language is NONE takes the lowest READY language, and each active context
whose language is NONE and whose rotation holds it takes the first READY language of the rotation with its index; every
other slot and context keeps what it holds. (The order among faces, slots and contexts is log entry 37.) -/
def Obligations.LanguageCommitTakesTheRecord : Prop :=
  ∀ (s : State) (l : Fin 16), s.accepts (.language l) →
    let r := s.staged4 (languageOffset l)
    ∃ t, exec .languageCommit s = .next t ∧
      t = { s with
        asm := { s.asm with handed := none }
        fetch := { s.fetch with langs := s.fetch.langs.set l r }
        eng := t.eng } ∧
      (t.fetch.ready l = true ↔ ∃ a, r.langArea = some a ∧ (s.fetch.area a).state = .ready) ∧
      (∀ k, k ≠ l → t.fetch.ready k = s.fetch.ready k) ∧
      (s.fetch.ready l = true ∨ t.fetch.ready l = false → t.eng = s.eng) ∧
      (s.fetch.ready l = false → t.fetch.ready l = true → t.eng = s.eng.languageReady t.ambient l) ∧
      (s.fetch.ready l = false → t.fetch.ready l = true →
        (∀ k, slotOf t.eng.face.slots k =
          let x := slotOf s.eng.face.slots k
          if x.record.ovrInForce = true ∧ x.lang = none then
            { x with lang := (List.finRange 16).find? fun m => t.fetch.ready m }
          else x) ∧
        (∀ c, let x := s.eng.ctx c
          let rotation := (x.accepted.getD Rec4.zero).ploRotation
          (x.active = true → x.lang = none → l ∈ rotation →
            ∃ i m, rotation[i]? = some m ∧ t.fetch.ready m = true ∧
              (∀ j k, j < i → rotation[j]? = some k → t.fetch.ready k = false) ∧
              t.eng.ctx c = { x with index := i, lang := some m }) ∧
          (x.active = false ∨ x.lang ≠ none ∨ l ∉ rotation → t.eng.ctx c = x)))

/-! ## Commands of the command record -/

/-- RESTART clears the car, label, roster, context and destination tables, the faces, the timer list, the requests, the
text cache and the glyph store; it keeps the group records, the link setups, the override records, the language table, the
settings, the descriptors, the intake queue, the staging, the ring and the pending reports. Each state window that is not
DISABLED becomes STALE with a sweep asked for, an override slot holds language NONE, and one COMMAND_DONE report is made
last. A sweep completion that has not been taken yet is dropped, so that it makes no window CURRENT after the restart
(deduced from R167: log entry 11). -/
def Obligations.RestartClearsTheTables : Prop :=
  ∀ s : State, s.resetLow = false → s.asm.handed = some .command → (s.staged4 0x10).cmdOpcode = 1 →
    ∃ t, exec .restart s = .next t ∧
      t = { s with
        path := { s.path with port := t.path.port }
        asm := { s.asm with handed := none, sweepEnds := [], winState := t.asm.winState }
        fetch := { FetchUnit.reset with langs := s.fetch.langs, requests := t.fetch.requests }
        eng := t.eng } ∧
      (∀ w, t.asm.winStateOf w = if w = assignWindow then s.asm.winStateOf w
        else if s.asm.winStateOf w = .disabled then .disabled else .stale) ∧
      (∀ w, t.fetch.requests.any (Request.sweepsWindow w) =
        (w != assignWindow && s.asm.winStateOf w != .disabled)) ∧
      t.eng.ind = { Indication.reset with groups := s.eng.ind.groups } ∧ t.eng.dest = Destination.reset ∧
      t.eng.face.faces = [] ∧ (∀ k, (slotOf t.eng.face.slots k).record = (slotOf s.eng.face.slots k).record ∧
        (slotOf t.eng.face.slots k).lang = none ∧
        ((slotOf t.eng.face.slots k).place.isSome = true ↔ (slotOf s.eng.face.slots k).record.ovrInForce = true)) ∧
      (∀ c, t.eng.ctx c = ⟨.idle, none, 0, none, 0, none, 0, []⟩) ∧
      t.eng.link.roster = [] ∧ t.eng.link.displays = [] ∧
      (∀ n, (t.eng.linkOf n).setup = (s.eng.linkOf n).setup ∧ (t.eng.linkOf n).running = (s.eng.linkOf n).running ∧
        (t.eng.linkOf n).queue = [] ∧ (t.eng.linkOf n).frame = none ∧
        ((s.eng.linkOf n).running = true → (t.eng.linkOf n).slot = 0)) ∧
      (∀ p ∈ t.eng.timers.list, p.kind = .overrideDwell) ∧
      t.eng.out = s.eng.out.report s.clock.ms (.commandDone 1)

/-- SWEEP names a window kind: above 4 it is refused with BAD_VALUE, the ASSIGN window with BAD_WINDOW, a DISABLED window
with DISABLED. Otherwise the window is STALE, its sweep is placed when it has none, left as it is when it waits, and
marked for a rerun when it is under way; one COMMAND_DONE report is made, no table is cleared and nothing is read. -/
def Obligations.SweepCommandMakesTheWindowStale : Prop :=
  ∀ s : State, s.resetLow = false → s.asm.handed = some .command → (s.staged4 0x10).cmdOpcode = 2 →
    let n := (s.staged4 0x10).cmdWindow
    let refused (why : Reason) : Prop := exec .sweep s = .next { s with
      asm := { s.asm with handed := none }, eng := s.eng.report s.ambient (.commandRefused 2 why) }
    (4 < n → refused .badValue) ∧
    (n = 1 → refused .badWindow) ∧
    (∀ w : Fin 5, w.val = n → w ≠ assignWindow → s.asm.winStateOf w = .disabled → refused .disabled) ∧
    (∀ w : Fin 5, w.val = n → w ≠ assignWindow → s.asm.winStateOf w ≠ .disabled →
      ∃ asked, exec .sweep s = .next { s with
          asm := { s.asm with handed := none, winState := s.asm.winState.set w .stale }
          fetch := { s.fetch with requests := asked }
          eng := s.eng.report s.ambient (.commandDone 2) } ∧
        (s.fetch.requests.any (Request.sweepsWindow w) = false → asked = s.fetch.requests ++ [.sweep w false]) ∧
        (s.fetch.requests.any (Request.sweepsWindow w) = true → s.fetch.active (.sweep w false) = false →
          asked = s.fetch.requests) ∧
        (s.fetch.requests.any (Request.sweepsWindow w) = true → s.fetch.active (.sweep w false) = true →
          asked = s.fetch.requests.map fun q => if q.sweepsWindow w then .sweep w true else q))

/-- LOAD_GLYPHS with a count of 0 empties the bank of its area at once: the loads of the bank are abandoned with their
requests and channels, every area of the bank is EMPTY, SINGLE with count 0, every other area stands, and one COMMAND_DONE
report is made. No request is placed, nothing is read, and the languages of the bank are not READY. An area that is not
SINGLE is emptied with the other of its pair. -/
def Obligations.LoadGlyphsOfNoneEmptiesTheBank : Prop :=
  ∀ (s : State) (a : Fin 8), s.resetLow = false → s.asm.handed = some .command →
    (s.staged4 0x10).cmdOpcode = 3 → (s.staged4 0x10).cmdArea = a.val → (s.staged4 0x10).cmdCount = 0 →
    let bank := s.fetch.bankOf a
    ∃ t, exec .loadGlyphs s = .next t ∧
      t = { s with
        asm := { s.asm with handed := none }
        path := { s.path with port := discardFor (s.fetch.loadsOn bank) s.path.port }
        fetch := { s.fetch with areas := t.fetch.areas, channels := t.fetch.channels, requests := t.fetch.requests }
        eng := s.eng.report s.ambient (.commandDone 3) } ∧
      (∀ b ∈ bank, t.fetch.area b = ⟨.empty, .single, 0, []⟩) ∧
      (∀ b, b ∉ bank → t.fetch.area b = s.fetch.area b) ∧
      t.fetch.requests = s.fetch.requests.filter (fun q => !bank.any fun b => q.loads b) ∧
      (∀ ch, t.fetch.channel ch = if s.fetch.loadsOn bank ch then none else s.fetch.channel ch) ∧
      (∀ l b, (s.fetch.lang l).langArea = some b → b ∈ bank → t.fetch.ready l = false) ∧
      (a ∈ bank ∧ ((s.fetch.area a).role ≠ .single → evenArea a ∈ bank ∧ oddArea a ∈ bank))

/-- LOAD_GLYPHS with a count that passes the checks begins a load: its areas are LOADING with their role and the count, the
other areas of the banks it touches are EMPTY, every other area stands, the request is the newest, and one COMMAND_DONE
report is made.
A LOAD_GLYPHS that fails a check, and a command record whose opcode is none of the three, change nothing but make one
COMMAND_REFUSED report with the opcode and the reason; and each command acts on its own opcode alone (log entry 2).
The checks in their order, the first that fails giving the reason: the area, the count, an even area for more than 256 glyphs,
the pitch, the source, and a place for the request. -/
def Obligations.LoadGlyphsBeginsTheLoad : Prop :=
  (∀ (s : State) (a : Fin 8), s.resetLow = false → s.asm.handed = some .command →
      (s.staged4 0x10).cmdOpcode = 3 → s.fetch.checkLoad (s.staged4 0x10) = .ok a → (s.staged4 0x10).cmdCount ≠ 0 →
      let r := s.staged4 0x10
      let loaded := loadedAreas a r.cmdCount
      let banks := loaded.flatMap s.fetch.bankOf
      ∃ t, exec .loadGlyphs s = .next t ∧
        t = { s with
          asm := { s.asm with handed := none }
          path := { s.path with port := t.path.port }
          fetch := { s.fetch with areas := t.fetch.areas, channels := t.fetch.channels, requests := t.fetch.requests }
          eng := s.eng.report s.ambient (.commandDone 3) } ∧
        (∀ b ∈ loaded, t.fetch.area b = ⟨.loading, loadedRole r.cmdCount b, r.cmdCount, []⟩) ∧
        (∀ b ∈ banks, b ∉ loaded → t.fetch.area b = ⟨.empty, .single, 0, []⟩) ∧
        (∀ b, b ∉ loaded → b ∉ banks → t.fetch.area b = s.fetch.area b) ∧
        t.fetch.requests = (s.fetch.requests.filter fun q => !banks.any fun b => q.loads b) ++
          [.glyph a r.cmdSource r.cmdPitch r.cmdCount 0]) ∧
  (∀ s : State, s.resetLow = false → s.asm.handed = some .command →
      let r := s.staged4 0x10
      (∀ why, r.cmdOpcode = 3 → s.fetch.checkLoad r = .error why → exec .loadGlyphs s = .next { s with
        asm := { s.asm with handed := none }, eng := s.eng.report s.ambient (.commandRefused 3 why) }) ∧
      (r.cmdOpcode ≠ 1 → r.cmdOpcode ≠ 2 → r.cmdOpcode ≠ 3 → exec .badOpcode s = .next { s with
        asm := { s.asm with handed := none }, eng := s.eng.report s.ambient (.commandRefused r.cmdOpcode .badOpcode) }) ∧
      (r.cmdOpcode ≠ 1 → exec .restart s = .next s) ∧ (r.cmdOpcode ≠ 2 → exec .sweep s = .next s) ∧
      (r.cmdOpcode ≠ 3 → exec .loadGlyphs s = .next s) ∧
      (r.cmdOpcode = 1 ∨ r.cmdOpcode = 2 ∨ r.cmdOpcode = 3 → exec .badOpcode s = .next s)) ∧
  (∀ (f : FetchUnit) (r : Rec4),
      let count := bitsN r.w2 0 16
      let pitch := bitsN r.w2 16 16
      let source := r.w1.toNat
      (7 < byteN r.w0 0 → f.checkLoad r = .error .badArea) ∧
      (∀ a : Fin 8, byteN r.w0 0 = a.val →
        let banks := (if count ≤ 256 then [a] else [evenArea a, oddArea a]).flatMap f.bankOf
        let failed := [
          (decide (count ≤ 512), Reason.badCount),
          (decide (count ≤ 256) || a.val % 2 == 0, .badArea),
          (count == 0 || (decide (32 ≤ pitch) && decide (pitch ≤ 65532) && pitch % 4 == 0), .badPitch),
          (count == 0 || (source % 4 == 0 && decide (source + (count - 1) * pitch + 31 ≤ 0x3FFFFFF)), .badSource),
          (count == 0 || decide ((f.requests.filter Request.isGlyph).length < 4) ||
            banks.any (fun b => f.requests.any fun q => q.loads b), .busy)].find? fun x => !x.1
        f.checkLoad r = match failed with
          | some x => .error x.2
          | none => .ok a))

/-! ## The Fetch Unit -/

/-- An idle channel takes the first waiting request: sweeps before text before glyphs, the oldest first within a kind, a
request waiting while no channel carries it. A sweep starts at the base of its descriptor and ends after its records; a load
goes up to glyph 256 or its count; a text fill takes a line, which is FILLING, and starts at its message record. No other
channel changes. -/
def Obligations.ChannelTakesTheFirstWaiting : Prop :=
  (∀ f : FetchUnit,
    let waits (q : Request) := (List.finRange 4).all fun ch => !(f.channel ch).any fun j => j.carries q
    f.nextWaiting = ((f.requests.find? fun q => q.isSweep && waits q).or
      (f.requests.find? fun q => q.isText && waits q)).or (f.requests.find? fun q => q.isGlyph && waits q)) ∧
  ∀ (s : State) (ch : Fin 4) (q : Request), s.resetLow = false → s.fetch.channel ch = none →
    s.fetch.nextWaiting = some q →
    ∃ t, exec (.fetchChannelTake ch) s = .next t ∧
      t = { s with
        path := t.path, ring := { s.ring with waiting := t.ring.waiting }, fetch := t.fetch
        eng := { s.eng with face := { s.eng.face with faces := t.eng.face.faces } } } ∧
      (∀ k, k ≠ ch → t.fetch.channel k = s.fetch.channel k) ∧
      t.fetch.areas = s.fetch.areas ∧ t.fetch.langs = s.fetch.langs ∧
      (∀ w m, q = .sweep w m → t.fetch.requests = s.fetch.requests ∧ t.fetch.channel ch =
        some (.sweep w (s.path.window w).winBase ((s.path.window w).winBase + 16 * (s.path.window w).winCount)
          (s.path.window w).w0 (s.path.window w).w3)) ∧
      (∀ a src pitch count progress, q = .glyph a src pitch count progress → t.fetch.requests = s.fetch.requests ∧
        t.fetch.channel ch = some (.glyph a (if progress < 256 then min 256 count else count) [])) ∧
      (∀ x, q = .text x → x.pastTop = false → t.fetch.requests = s.fetch.requests ∧
        t.fetch.line s.fetch.chooseLine = ⟨.filling, x, [], none⟩ ∧
        (∀ i, i ≠ s.fetch.chooseLine → t.fetch.line i = s.fetch.line i) ∧
        t.fetch.channel ch = some (messageJob x s.fetch.chooseLine)) ∧
      (∀ x, q = .text x → x.pastTop = true → t.fetch.channel ch = none ∧
        (t.fetch.line s.fetch.chooseLine).state = .valid ∧ (t.fetch.line s.fetch.chooseLine).codes = [])

/-- A sweep channel issues its next read when no burst is held and at least 16 intake places are unpromised: an aligned
burst that does not pass the end, the largest of 8, 4, 2 and 1 words, decoded by the descriptor of its issue. Else nothing is
issued.
A sweep read that completes puts its words into the intake queue, all lanes enabled, and frees the port. Each is an item of
its own address and is decoded by the descriptor of the read's issue, whatever is accepted now: its slot and its word number
count from that descriptor's base. The last read of a sweep ends it: its request is gone, its channel idle, and its completion
stands behind the words in the queue; a sweep marked for a rerun starts again on its channel instead. A read that restart
abandoned gives nothing. -/
def Obligations.SweepReadsFillTheIntake : Prop :=
  (∀ (s : State) (ch : Fin 4) (w : Fin 5) (next stop : Nat) (base records : Word), s.resetLow = false →
      s.fetch.channel ch = some (.sweep w next stop base records) →
      let n := burstWords next ((stop - next) / 4)
      (next < stop → s.path.held = none → 16 ≤ s.unpromised →
        exec (.sweepReadIssue ch) s = .next (State.arbitrate { s with fetch := { s.fetch with
          sweepReads := s.fetch.sweepReads ++ [⟨w, next, n, base, records, .live⟩]
          channels := s.fetch.channels.set ch (some (.sweep w (next + 4 * n) stop base records)) } })) ∧
      (stop ≤ next ∨ s.path.held ≠ none ∨ s.unpromised < 16 → exec (.sweepReadIssue ch) s = .next s)) ∧
  (∀ next left : Nat, next % 4 = 0 → 1 ≤ left →
      let fits (n : Nat) : Prop := n ∈ [8, 4, 2, 1] ∧ next % (4 * n) = 0 ∧ n ≤ left
      fits (burstWords next left) ∧ ∀ n, fits n → n ≤ burstWords next left) ∧
  (∀ (s : State) (r : SweepRead), s.resetLow = false → s.path.port = some (.sweepRead r) →
      let filled : State := { s with asm := { s.asm with intake := s.asm.intake ++ r.items s.mem } }
      (r.items s.mem).map Item.word = Memory.readWords s.mem r.addr r.count ∧
      (∀ n i, (r.items s.mem)[n]? = some i → i.addr = r.addr + 4 * n ∧ i.lanes = 0xF ∧ i.target =
        .window r.kind ((r.addr + 4 * n - r.base.toNat) / 16) ((r.addr + 4 * n - r.base.toNat) / 4 % 4) r.base r.records) ∧
      (r.status = .abandoned → exec .sweepReadComplete s = .next s.freePort) ∧
      (r.status = .withdrawn → exec .sweepReadComplete s = .next filled.freePort) ∧
      (r.status = .live → s.fetch.sweptOut r.kind = none → exec .sweepReadComplete s = .next filled.freePort) ∧
      (∀ ch records, r.status = .live → s.fetch.sweptOut r.kind = some (ch, records) →
        s.fetch.rerunMarked r.kind = false → exec .sweepReadComplete s = .next (State.freePort { s with
          fetch := { s.fetch with
            requests := s.fetch.requests.filter (fun q => !q.sweepsWindow r.kind), channels := s.fetch.channels.set ch none }
          asm := { s.asm with
            intake := s.asm.intake ++ r.items s.mem
            sweepEnds := s.asm.sweepEnds ++
              [⟨r.kind, records.toNat, s.asm.intake.length + (r.items s.mem).length⟩] } })) ∧
      (∀ ch records, r.status = .live → s.fetch.sweptOut r.kind = some (ch, records) →
        s.fetch.rerunMarked r.kind = true → exec .sweepReadComplete s = .next (State.freePort { filled with
          fetch := { s.fetch with
            requests := s.fetch.requests.filter (fun q => !q.sweepsWindow r.kind) ++ [.sweep r.kind false]
            channels := (s.fetch.setChannel ch (some (.sweep r.kind (s.path.window r.kind).winBase
              ((s.path.window r.kind).winBase + 16 * (s.path.window r.kind).winCount) (s.path.window r.kind).w0
              (s.path.window r.kind).w3))).channels } })))

/-- A read burst of a text or glyph channel that completes gives memory's words to the channel that asked for it and frees
the port; the words of one to be discarded go nowhere. A text channel keeps them in order and moves on by their bytes.
A glyph channel keeps them until it has 8: these are then stored, 32 bytes, as glyph g of the load's area for g below 256 and
as glyph g - 256 of the area above it otherwise, where g is the progress of the request, which is then one higher; no other
glyph, area, request or channel changes.
The reads a channel asks for: a text channel from its next address up while words are left, a glyph channel the 8 words at
source + g * pitch, each the largest of 8, 4, 2 and 1 words that is aligned to its size and does not pass the end of the
text transfer or of the glyph; a channel that is done, idle or with a sweep asks for none.
A glyph transfer that has stored its last glyph: one that ends before the count frees its channel and queues the load
again behind every other request; one that ends the load makes its areas READY, removes the request, makes one
GLYPHS_READY report and tells the displays and contexts of each language of those areas. -/
def Obligations.FetchReadsReachTheirChannel : Prop :=
  (∀ (s : State) (ch : Fin 4) (addr count : Nat), s.resetLow = false →
      let words := Memory.readWords s.mem addr count
      (s.path.port = some (.fetchRead ch addr count true) → exec .fetchReadComplete s = .next s.freePort) ∧
      (s.path.port = some (.fetchRead ch addr count false) →
        exec .fetchReadComplete s = .next (State.freePort { s with fetch := s.fetch.deliver ch words })) ∧
      (∀ x i stage next left got str len codes, s.fetch.channel ch = some (.text x i stage next left got str len codes) →
        s.fetch.deliver ch words = s.fetch.setChannel ch
          (some (.text x i stage (next + 4 * count) (left - count) (got ++ words) str len codes)))) ∧
  (∀ (f : FetchUnit) (ch : Fin 4) (a : Fin 8) (stop : Nat) (got words : List Word) (src pitch count progress : Nat),
      f.channel ch = some (.glyph a stop got) →
      f.requests.filter (Request.loads a) = [.glyph a src pitch count progress] → progress < 512 →
      let all := got ++ words
      let g := f.deliver ch words
      let home := if progress < 256 then a else oddArea a
      let index := if progress < 256 then progress else progress - 256
      (all.length < 8 → g = f.setChannel ch (some (.glyph a stop all))) ∧
      (8 ≤ all.length →
        g = { f with areas := g.areas, requests := g.requests, channels := g.channels } ∧
        (g.area home).glyphs.get index =
          some (all.flatMap fun w => [byteOf w 0, byteOf w 1, byteOf w 2, byteOf w 3]) ∧
        (∀ k, k ≠ index → (g.area home).glyphs.get k = (f.area home).glyphs.get k) ∧
        g.area home = { f.area home with glyphs := (g.area home).glyphs } ∧
        (∀ b, b ≠ home → g.area b = f.area b) ∧
        g.requests.filter (Request.loads a) = [.glyph a src pitch count (progress + 1)] ∧
        g.requests.filter (fun q => !q.loads a) = f.requests.filter (fun q => !q.loads a) ∧
        g.channel ch = some (.glyph a stop []) ∧ (∀ k, k ≠ ch → g.channel k = f.channel k))) ∧
  (∀ (f : FetchUnit) (ch : Fin 4),
      let burst (next left : Nat) : Nat := if next % 32 = 0 ∧ 8 ≤ left then 8 else if next % 16 = 0 ∧ 4 ≤ left then 4
        else if next % 8 = 0 ∧ 2 ≤ left then 2 else 1
      (∀ x i stage next left got str len codes, f.channel ch = some (.text x i stage next left got str len codes) →
        f.channelRead ch = if left = 0 then none else some (.fetchRead ch next (burst next left) false)) ∧
      (∀ a stop got src pitch count progress, f.channel ch = some (.glyph a stop got) →
        f.requests.filter (Request.loads a) = [.glyph a src pitch count progress] →
        let next := src + progress * pitch + 4 * got.length
        f.load a = some (src, pitch, count, progress) ∧
        (progress < stop → f.channelRead ch = some (.fetchRead ch next (burst next (8 - got.length)) false)) ∧
        (stop ≤ progress → f.channelRead ch = none)) ∧
      (∀ w next stop base records, f.channel ch = some (.sweep w next stop base records) → f.channelRead ch = none) ∧
      (f.channel ch = none → f.channelRead ch = none)) ∧
  (∀ (s : State) (ch : Fin 4) (a : Fin 8) (stop : Nat) (got : List Word) (src pitch count progress : Nat),
      s.resetLow = false → s.fetch.channel ch = some (.glyph a stop got) →
      s.fetch.load a = some (src, pitch, count, progress) →
      (progress < stop → exec (.glyphTransferComplete ch) s = .next s.arbitrate) ∧
      (stop ≤ progress → stop < count → exec (.glyphTransferComplete ch) s = .next (State.arbitrate { s with
        fetch := { s.fetch with
          channels := s.fetch.channels.set ch none
          requests := s.fetch.requests.filter (fun q => !q.loads a) ++ s.fetch.requests.filter (fun q => q.loads a) } })) ∧
      (stop ≤ progress → count ≤ stop → ∃ t, exec (.glyphTransferComplete ch) s = .next t ∧
        (∀ b, (t.fetch.area b).state = if b ∈ loadedAreas a count then .ready else (s.fetch.area b).state) ∧
        t.fetch.requests = s.fetch.requests.filter (fun q => !q.loads a) ∧ t.fetch.channel ch = none ∧
        t.eng = (t.fetch.languagesOf (loadedAreas a count)).foldl (fun e l => e.languageReady t.ambient l)
          (s.eng.report s.ambient (.glyphsReady a count)) ∧
        t.mem = s.mem ∧ t.asm = s.asm ∧ t.clock = s.clock ∧ t.pending = s.pending))

/-- The end of a text fill: a FILLING line becomes VALID with the string's codes and is the most recently used, its request
leaves the list, its channel is idle and the faces that wait for its tag wait no more; a line that was written meanwhile
is filled again from its message record on the same channel. A message transfer that finds no string ends the fill with an
empty string.
A text fill between its transfers: the message transfer names the string, whose length is read next, and the length
transfer starts the code transfer at the string's first code that is not read yet; the watched range follows. -/
def Obligations.TextFillMakesTheLineValid : Prop :=
  (∀ (s : State) (ch : Fin 4) (x : Tag) (i : Fin 32) (got : List Word), s.resetLow = false →
      let ended (codes : List Code) : Prop :=
        ((s.fetch.line i).state = .filling → ∃ t, exec (.textFillTransferComplete ch) s = .next t ∧
          t = { s with
            path := t.path, ring := { s.ring with waiting := t.ring.waiting }, fetch := t.fetch
            eng := { s.eng with face := { s.eng.face with faces := t.eng.face.faces } } } ∧
          (t.fetch.line i).state = .valid ∧ (t.fetch.line i).codes = codes ∧ t.fetch.recency.head? = some i ∧
          (∀ j, j ≠ i → t.fetch.line j = s.fetch.line j) ∧ t.fetch.requests = s.fetch.requests.erase (.text x) ∧
          t.fetch.channel ch = none ∧ (∀ y ∈ t.eng.face.faces, y.2.waitText ≠ some x)) ∧
        ((s.fetch.line i).state = .fillingStale → ∃ t, exec (.textFillTransferComplete ch) s = .next t ∧
          (t.fetch.line i).state = .filling ∧ (t.fetch.line i).watch = none ∧
          t.fetch.channel ch = some (messageJob x i) ∧ t.fetch.requests = s.fetch.requests ∧ t.eng = s.eng)
      (∀ next str len codes, s.fetch.channel ch = some (.text x i .message next 0 got str len codes) →
        stringPointer x got = none → ended []) ∧
      (∀ next str len codes, s.fetch.channel ch = some (.text x i .code next 0 got str len codes) →
        ended ((codes ++ got.flatMap codesOf).take len))) ∧
  (∀ (s : State) (ch : Fin 4) (x : Tag) (i : Fin 32) (got : List Word), s.resetLow = false →
      (∀ next str len codes at', s.fetch.channel ch = some (.text x i .message next 0 got str len codes) →
        stringPointer x got = some at' → ∃ t, exec (.textFillTransferComplete ch) s = .next t ∧ t.eng = s.eng ∧
          t.fetch.channel ch = some (.text x i .length (at' - at' % 4) 1 [] at' 0 []) ∧
          (t.fetch.line i).watch = some (at', 98) ∧ (t.fetch.line i).state = (s.fetch.line i).state) ∧
      (∀ next str len codes, s.fetch.channel ch = some (.text x i .length next 0 got str len codes) →
        let n := min 48 (if str % 4 = 0 then bitsN (got.getD 0 0) 0 16 else bitsN (got.getD 0 0) 16 16)
        let first := if str % 4 = 0 ∧ 1 ≤ n then [(got.getD 0 0).extractLsb' 16 16] else []
        str + 2 + 2 * n ≤ Config.addressSpace → first.length < n →
        ∃ t, exec (.textFillTransferComplete ch) s = .next t ∧ t.eng = s.eng ∧
          t.fetch.channel ch = some (.text x i .code (if str % 4 = 0 then str + 4 else str + 2)
            ((n - first.length + 1) / 2) [] str n first) ∧
          (t.fetch.line i).watch = some (str, 2 + 2 * n)))

/-! ## The display links -/

/-- An OUT slot of a RUNNING link sends one block. With a frame in flight it is the frame's next block, marked LAST when it
reaches the frame's end, or the abort block when a change has overtaken the frame; with an empty queue it is the EMPTY
block. Each carries the slot's poll designation. A slot that is no OUT slot, or has had its block, sends nothing.
The designation is NONE when the next slot is no IN slot. Else it is the lowest drop above the last designated one of the
link's PRESENT displays, the display whose frame will still be in flight passed over, or the lowest of all when none is
above; NONE when there is no such display.
The characters of a block: its address, three headers, its payload and the two check characters, the mark bit 1 on the
address alone. A character is sent as a start bit 0, its eight data bits lowest first, the mark bit and a stop bit 1.
The check: the remainder of the code with generator 1021h over the data bytes, from FFFFh, each byte entered most significant
bit first, sent low byte first. -/
def Obligations.OutSlotSendsOneBlock : Prop :=
  (∀ (s : State) (n : Fin 8), s.resetLow = false →
    let l := s.eng.linkOf n
    let size := min 64 (l.setup.lnkLength - 8)
    let sent (b : Block) (frame : Option Frame) (poll : Option Nat) : Prop :=
      exec (.outSlot n) s = .next { s with eng := s.eng.onLink n fun l => { l with
        block := some b, served := true, pending := poll, turn := if poll.isSome then poll else l.turn, frame := frame } }
    (l.inOut = false ∨ l.served = true → exec (.outSlot n) s = .next s) ∧
    (∀ fr, l.inOut = true → l.served = false → l.frame = some fr → fr.abortDue = false →
      let last := decide (fr.bytes.length ≤ (fr.next + 1) * size)
      let poll := s.eng.designate n (if last then none else some fr.display)
      sent ⟨s.eng.dropOf fr.display, fr.kind, fr.next, last, false, s.eng.toggleOf fr.display, poll,
          (fr.bytes.drop (fr.next * size)).take size⟩
        (some { fr with next := fr.next + 1, closing := if last then .last else .none }) poll) ∧
    (∀ fr, l.inOut = true → l.served = false → l.frame = some fr → fr.abortDue = true →
      let poll := s.eng.designate n none
      sent ⟨s.eng.dropOf fr.display, fr.kind, fr.next, true, true, s.eng.toggleOf fr.display, poll, []⟩
        (some { fr with closing := .abort }) poll) ∧
    (l.inOut = true → l.served = false → l.frame = none → l.queue = [] →
      let poll := s.eng.designate n none
      sent ⟨0, .empty, 0, true, false, none, poll, []⟩ none poll)) ∧
  (∀ (e : Engines) (n : Fin 8) (flying : Option Nat),
      let l := e.linkOf n
      let next := l.setup.w1.getLsbD ((l.slot + 1) % 32)
      let candidate (p : Nat) : Prop := ∃ d f, (d, f) ∈ e.face.faces ∧ f.link = n ∧ f.drop = p ∧ flying ≠ some d
      (next = false → e.designate n flying = none) ∧
      (next = true → (e.designate n flying = none ↔ ∀ p, ¬ candidate p) ∧
        (∀ p, e.designate n flying = some p → candidate p ∧
          (l.turn = none → ∀ q, candidate q → p ≤ q) ∧
          (∀ u, l.turn = some u → u < p → ∀ q, candidate q → u < q → p ≤ q) ∧
          (∀ u, l.turn = some u → p ≤ u → ∀ q, candidate q → q ≤ u ∧ p ≤ q)))) ∧
  (∀ b : Block,
      let addr := BitVec.ofNat 8 b.addr
      let rest : List Byte := [BitVec.ofNat 8 (b.index + 64 * b.last.toNat + 128 * b.abort.toNat),
        BitVec.ofNat 8 (b.kind.code + 4 * (match b.echo with | some x => x.toNat | none => 3)),
        BitVec.ofNat 8 (b.poll.getD 0)] ++ b.payload
      b.wire = ⟨addr, true, true⟩ :: (rest ++ checkBytes (addr :: rest)).map fun x => ⟨x, false, true⟩) ∧
  (∀ c : LinkChar, LinkChar.bits c = [false, c.data.getLsbD 0, c.data.getLsbD 1, c.data.getLsbD 2, c.data.getLsbD 3,
      c.data.getLsbD 4, c.data.getLsbD 5, c.data.getLsbD 6, c.data.getLsbD 7, c.mark, c.stop]) ∧
  (let enterBit (r : BitVec 16) (b : Bool) : BitVec 16 := if r.getLsbD 15 = b then r <<< 1 else (r <<< 1) ^^^ 0x1021
   let enter (r : BitVec 16) (x : Byte) : BitVec 16 :=
    [x.getLsbD 7, x.getLsbD 6, x.getLsbD 5, x.getLsbD 4, x.getLsbD 3, x.getLsbD 2, x.getLsbD 1, x.getLsbD 0].foldl enterBit r
   ∃ remainder : List Byte → BitVec 16, remainder [] = 0xFFFF ∧
    (∀ l x, remainder (l ++ [x]) = enter (remainder l) x) ∧
    ∀ l, checkBytes l = [(remainder l).extractLsb' 0 8, (remainder l).extractLsb' 8 8])

/-- An OUT slot with no frame in flight builds the frame of the head of the queue when its content needs no line of text:
the frame of its visible content, with the strokes it carries, whose block 0 the slot sends; the display stays at the head
and its marks are set.
The frame of the display at the head of the queue whose line is not in the cache is not built: its WAITING_TEXT mark
is set to the tag, a TEXT request is asked for, and with no other display queued the EMPTY block is sent.
The walk goes on past a display whose mark stands for a tag that is coming, with no lookup, and past one whose line is
missing. The first display that can be sent goes to the head of the queue and its frame is built: with the codes of its line
when a VALID line holds it, which is then the most recently used, or with none when its content needs no line.
A FACE_SEGMENT frame is 16 bytes: layer, four segment codes, arrow, for a HALL_SEGMENT under BASE the lantern, its lit byte
and the strokes (the lit byte of no lantern is free: log entry 19), and zeros.
A FACE_MATRIX frame is a head of 16 bytes and its cells of 32 bytes: layer, cell count, arrow, item count, the bytes of a
CAR_MATRIX (a blank one: log entry 20) or one for each listed car or prompt, zeros; the cells are names, or the codes of the
text band, which has none without a message or a language. A cell is the glyph of its code in the bank of its language, blank
above the bank's count and while the language is not READY. -/
def Obligations.OutSlotWalksTheQueue : Prop :=
  (∀ (s : State) (n : Fin 8) (d : Nat) (rest : List Nat) (f : Face), s.resetLow = false →
      (s.eng.linkOf n).inOut = true → (s.eng.linkOf n).served = false → (s.eng.linkOf n).frame = none →
      (s.eng.linkOf n).queue = d :: rest → s.eng.faceOf d = some f → f.waitText = none →
      (f.visible s.eng.face.slots).line = none →
      let v := f.visible s.eng.face.slots
      let built := v.frame s.fetch s.eng.link.frames []
      ∃ t fr b, exec (.outSlot n) s = .next t ∧ t = { s with eng := t.eng } ∧
        t.eng = { s.eng with link := t.eng.link, face := { s.eng.face with faces := t.eng.face.faces } } ∧
        (t.eng.linkOf n).frame = some fr ∧ fr.display = d ∧ fr.kind = built.1 ∧ fr.bytes = built.2 ∧ fr.next = 1 ∧
        fr.strokes = v.strokesCarried ∧ fr.abortDue = false ∧
        (t.eng.linkOf n).block = some b ∧ b.index = 0 ∧ b.kind = built.1 ∧
        b.payload = built.2.take (min 64 ((s.eng.linkOf n).setup.lnkLength - 8)) ∧
        (t.eng.linkOf n).queue = d :: rest ∧ (∀ k, k ≠ n → t.eng.linkOf k = s.eng.linkOf k) ∧
        t.eng.faceOf d = some { f with waitText := none, waitGlyphs := v.waits s.fetch.ready }) ∧
  (∀ (s : State) (n : Fin 8) (d : Nat) (f : Face) (x : Tag), s.resetLow = false →
      (s.eng.linkOf n).inOut = true → (s.eng.linkOf n).served = false → (s.eng.linkOf n).frame = none →
      (s.eng.linkOf n).queue = [d] → s.eng.faceOf d = some f → f.awaits s.fetch = false →
      (f.visible s.eng.face.slots).line = some x → s.fetch.lookup x = none →
      ∃ t b, exec (.outSlot n) s = .next t ∧ t = { s with fetch := s.fetch.requestText x, eng := t.eng } ∧
        t.eng.faceOf d = some { f with waitText := some x } ∧
        (t.eng.linkOf n).block = some b ∧ b.kind = .empty ∧ b.addr = 0 ∧ b.payload = [] ∧
        (t.eng.linkOf n).queue = [d] ∧ (t.eng.linkOf n).frame = none) ∧
  (∀ (s : State) (n : Fin 8) (d : Nat) (pre rest : List Nat) (f : Face) (x : Tag) (i : Fin 32), s.resetLow = false →
      (s.eng.linkOf n).inOut = true → (s.eng.linkOf n).served = false → (s.eng.linkOf n).frame = none →
      (s.eng.linkOf n).queue = pre ++ d :: rest → d ∉ pre →
      (∀ y ∈ pre, ∃ g, s.eng.faceOf y = some g ∧ g.awaits s.fetch = true) →
      s.eng.faceOf d = some f → f.awaits s.fetch = false → (f.visible s.eng.face.slots).line = some x →
      s.fetch.lineOf x = some i → (s.fetch.line i).state = .valid →
      let found := { s.fetch with recency := i :: s.fetch.recency.erase i }
      let v := f.visible s.eng.face.slots
      let built := v.frame found s.eng.link.frames (s.fetch.line i).codes
      ∃ t fr, exec (.outSlot n) s = .next t ∧ t = { s with fetch := found, eng := t.eng } ∧
        (t.eng.linkOf n).frame = some fr ∧ fr.display = d ∧ fr.kind = built.1 ∧ fr.bytes = built.2 ∧ fr.next = 1 ∧
        fr.abortDue = false ∧ (t.eng.linkOf n).queue = d :: (pre ++ rest) ∧
        (∀ k, k ≠ n → t.eng.linkOf k = s.eng.linkOf k) ∧
        t.eng.faceOf d = some { f with waitText := none, waitGlyphs := v.waits s.fetch.ready }) ∧
  (∀ (s : State) (n : Fin 8) (a d : Nat) (rest : List Nat) (f g : Face) (x : Tag), s.resetLow = false →
      (s.eng.linkOf n).inOut = true → (s.eng.linkOf n).served = false → (s.eng.linkOf n).frame = none →
      (s.eng.linkOf n).queue = a :: d :: rest → a ≠ d →
      s.eng.faceOf a = some g → g.awaits s.fetch = false → (g.visible s.eng.face.slots).line = some x →
      s.fetch.lookup x = none →
      s.eng.faceOf d = some f → f.waitText = none → (f.visible s.eng.face.slots).line = none →
      let v := f.visible s.eng.face.slots
      ∃ t fr, exec (.outSlot n) s = .next t ∧ t = { s with fetch := s.fetch.requestText x, eng := t.eng } ∧
        t.eng.faceOf a = some { g with waitText := some x } ∧
        (t.eng.linkOf n).frame = some fr ∧ fr.display = d ∧
        fr.bytes = (v.frame (s.fetch.requestText x) s.eng.link.frames []).2 ∧ fr.next = 1 ∧
        (t.eng.linkOf n).queue = d :: a :: rest ∧
        t.eng.faceOf d = some { f with waitText := none, waitGlyphs := v.waits s.fetch.ready }) ∧
  (∀ (u : FetchUnit) (serial : Nat) (codes : List Code) (label : Word) (arrow : Arrow) (strokes : Nat),
      let arrowOf : Arrow → Byte
        | .none => 0
        | .up => 1
        | .down => 2
      let flag (b : Bool) : Byte := if b then 1 else 0
      let segment (v : Visible) (layer b6 b7 b8 : Byte) : Prop := v.frame u serial codes = (.segment,
        [layer, byteOf label 0, byteOf label 1, byteOf label 2, byteOf label 3, arrowOf arrow, b6, b7, b8,
          0, 0, 0, 0, 0, 0, 0])
      let hall (x : LanternShow) : Visible := .base (.hallSegment label arrow x) strokes
      (∀ lit, segment (hall (.up lit)) 0 1 (flag lit) (BitVec.ofNat 8 strokes)) ∧
      (∀ lit, segment (hall (.down lit)) 0 2 (flag lit) (BitVec.ofNat 8 strokes)) ∧
      (∀ lit, segment (hall (.off (some lit))) 0 0 (flag lit) (BitVec.ofNat 8 strokes)) ∧
      (∃ lit, segment (hall (.off none)) 0 0 (flag lit) (BitVec.ofNat 8 strokes)) ∧
      segment (.base (.carSegment label arrow) strokes) 0 0 0 0 ∧ segment (.over (.segment label arrow)) 3 0 0 0) ∧
  (∀ (u : FetchUnit) (serial : Nat) (codes : List Code) (strokes : Nat),
      let arrowOf : Arrow → Byte
        | .none => 0
        | .up => 1
        | .down => 2
      let kindOf : PromptKind → Nat
        | .waiting => 0
        | .assigned => 1
        | .invalid => 2
        | .expired => 3
        | .refused => 4
      let walkOf : WalkHint → Nat
        | .none => 0
        | .left => 1
        | .right => 2
        | .ahead => 3
      let flag (b : Bool) (n : Nat) : Nat := if b then n else 0
      let blank : List Byte := List.replicate 32 0
      let car (x : Byte × Byte) : List (List Byte) := [u.cell 0 (x.1.setWidth 16), u.cell 0 (x.2.setWidth 16)]
      let floor (x : Option MatrixName) : List (List Byte) := match x with
        | some m => [u.cell 0 m.c0, u.cell 0 m.c1, u.cell 0 m.c2, u.cell 0 m.c3]
        | none => [blank, blank, blank, blank]
      let band (msg : Nat) (lang : Option (Fin 16)) : List (List Byte) := match lang with
        | some l => if msg = 0 then [] else codes.map (u.cell l)
        | none => []
      let matrix (v : Visible) (layer : Byte) (arrow : Arrow) (items : Nat) (own per : List Byte)
          (cells : List (List Byte)) : Prop := v.frame u serial codes = (.matrix,
        [layer, BitVec.ofNat 8 cells.length, arrowOf arrow, BitVec.ofNat 8 items, 0] ++ own ++ per ++
          List.replicate (8 - per.length) 0 ++ cells.flatten)
      (∀ x : CarMatrix, matrix (.base (.carMatrix (some x)) strokes) 0 x.arrow x.stops.length
        [match x.target with | some i => BitVec.ofNat 8 i | none => 0xFF, x.mode, x.load] []
        (car x.name ++ floor x.position ++ x.stops.flatMap floor)) ∧
      matrix (.base (.carMatrix none) strokes) 0 .none 0 [0xFF, 0, 0] [] [] ∧
      (∀ l : List HallEntry, l.length ≤ 8 → matrix (.base (.hallMatrix l) strokes) 0 .none l.length [0, 0, 0]
        (l.map fun x => arrowOf x.arrow + BitVec.ofNat 8 (flag x.unavailable 4 + flag x.full 8 + flag x.here 16))
        (l.flatMap fun x => car x.name ++ floor x.position)) ∧
      (∀ idle, matrix (.base (.terminal idle) strokes) 0 .none 0 [0, 0, 0] [] (band idle (some 0))) ∧
      (∀ l : List PromptShow, l.length ≤ 8 → matrix (.prompt l) 1 .none l.length [0, 0, 0]
        (l.map fun x => BitVec.ofNat 8 (kindOf x.kind + (match x.entryKind with | .standard => 0 | .accessible => 8) +
          16 * walkOf x.walk))
        (l.flatMap fun x => floor x.name ++ (x.carName.map car).getD [])) ∧
      (∀ x : NoticeShow, matrix (.notice x) 2 .none 0 [0, 0, 0] [] (band x.msg x.lang)) ∧
      (∀ arrow msg lang, matrix (.over (.matrix arrow msg lang)) 3 arrow 0 [0, 0, 0] [] (band msg lang))) ∧
  (∀ (u : FetchUnit) (l : Fin 16) (code : Code),
      let c := code.toNat
      let blank : List Byte := List.replicate 32 0
      ((u.lang l).langArea = none → u.cell l code = blank) ∧
      (∀ a, (u.lang l).langArea = some a → (u.area a).state ≠ .ready ∨ (u.area a).count ≤ c → u.cell l code = blank) ∧
      (∀ a, (u.lang l).langArea = some a → (u.area a).state = .ready → c < (u.area a).count → c < 512 →
        let home := if (u.area a).role = .single then a else if c < 256 then evenArea a else oddArea a
        u.cell l code = ((u.area home).glyphs.get (if c < 256 then c else c - 256)).getD blank))

/-- The end of a frame. When its LAST block has been sent the display leaves the queue, unless a refresh was recorded,
which queues it again at its joining position, and its strokes are lowered by those the frame carried. When the abort block
has been sent nothing is lowered and the display is queued again.
The joining position: a display whose visible layer is not OVERRIDE joins at the end of its link's queue; one whose
visible layer is OVERRIDE joins ahead of every display that is not, behind the OVERRIDE displays, else behind the display
in flight, else at the front.
A queued display that is not in flight and whose visible layer becomes OVERRIDE moves to its joining position, worked out with
itself left out, when that lies ahead of its place, and else keeps its place; at any other change of its content it keeps its
place. The other displays keep their order. -/
def Obligations.FrameEndsWithItsLastBlock : Prop :=
  (∀ (s : State) (n : Fin 8) (fr : Frame), s.resetLow = false → (s.eng.linkOf n).frame = some fr →
      let freed := (s.eng.onLink n fun l => { l with frame := none, queue := l.queue.erase fr.display })
      let lowered := freed.storeFace fr.display fun x => { x with strokes := x.strokes - fr.strokes }
      (fr.closing = .last → exec (.frameComplete n) s = .next { s with
        eng := if fr.refresh then lowered.join n fr.display else lowered }) ∧
      (fr.closing = .abort → exec (.abortBlockSent n) s = .next { s with eng := freed.join n fr.display }) ∧
      (fr.closing ≠ .last → exec (.frameComplete n) s = .next s) ∧
      (fr.closing ≠ .abort → exec (.abortBlockSent n) s = .next s)) ∧
  (∀ (e : Engines) (l : Link) (d : Nat),
      (e.showsOverride d = false → joined e l d = l.queue ++ [d]) ∧
      (e.showsOverride d = true → l.queue.any e.showsOverride = false → l.inFlight = none →
        joined e l d = d :: l.queue) ∧
      (∀ x rest, e.showsOverride d = true → l.queue = x :: rest → l.queue.any e.showsOverride = false →
        l.inFlight = some x → x ∉ rest → joined e l d = x :: d :: rest) ∧
      (∀ pre x rest, e.showsOverride d = true → l.queue = pre ++ x :: rest → e.showsOverride x = true →
        rest.any e.showsOverride = false → joined e l d = pre ++ x :: d :: rest)) ∧
  (∀ (e : Engines) (shown : Vector OverrideSlot 4) (d : Nat) (f : Face) (g : Face → Face), e.faceOf d = some f →
      (g f).link = f.link → e.online d = true → d ∈ (e.linkOf f.link).queue → (e.linkOf f.link).inFlight ≠ some d →
      let before := f.visible shown
      let after := (g f).visible e.face.slots
      let t := e.updFaceFrom shown d g
      let rises := before.layer ≠ .override ∧ after.layer = .override
      (∀ n, n ≠ f.link → t.linkOf n = e.linkOf n) ∧
      t.linkOf f.link = { e.linkOf f.link with queue := (t.linkOf f.link).queue } ∧
      (rises → (t.linkOf f.link).queue = promoted t (e.linkOf f.link) d) ∧
      (¬ rises → (t.linkOf f.link).queue = (e.linkOf f.link).queue)) ∧
  (∀ (e : Engines) (l : Link) (d : Nat) (pre post : List Nat), l.queue = pre ++ d :: post → d ∉ pre →
      l.inFlight ≠ some d →
      (post.any e.showsOverride = true → promoted e l d = l.queue) ∧
      (∀ a x b, post.any e.showsOverride = false → pre = a ++ x :: b → e.showsOverride x = true →
        b.any e.showsOverride = false → promoted e l d = a ++ x :: d :: (b ++ post)) ∧
      (pre.any e.showsOverride = false → post.any e.showsOverride = false → l.inFlight = none →
        promoted e l d = d :: (pre ++ post)) ∧
      (∀ x rest, pre.any e.showsOverride = false → post.any e.showsOverride = false → l.inFlight = some x →
        pre = x :: rest → x ∉ rest ++ post → promoted e l d = x :: d :: (rest ++ post)))

/-- A good STATUS answer of the designated display: its miss count is 0, it is ONLINE, its fault code is the one answered;
one that was OFFLINE makes DISPLAY_BACK and a changed fault code makes DISPLAY_FAULT, in that order. The slot is served.
A display that becomes ONLINE by its answer joins its link's queue at its joining position; one that was ONLINE keeps its
place in or out of the queue.
A good ENTRY answer does what a STATUS answer does and then offers the keyed entry: a repetition of the last-taken
toggle is discarded, a new toggle is recorded and the entry is taken. A display that becomes ONLINE by it, and a TERMINAL
whose entry is taken, is in its link's queue. -/
def Obligations.GoodAnswersKeepTheDisplayOnline : Prop :=
  (∀ (s : State) (n : Fin 8) (heard : List LinkChar) (drop d fault : Nat) (x : Display), s.resetLow = false →
      s.eng.awaited n = some (drop, d) → goodAnswerIn heard drop = some (.status fault) →
      s.eng.link.displays.get d = some x →
      ∃ t, exec (.statusAnswer n heard) s = .next t ∧ t = { s with eng := t.eng } ∧
        t.eng = { s.eng with link := t.eng.link, out := t.eng.out } ∧
        t.eng.link.displays.get d = some { x with misses := 0, liveness := .online, fault := fault } ∧
        (∀ k, k ≠ d → t.eng.link.displays.get k = s.eng.link.displays.get k) ∧
        (t.eng.linkOf n).served = true ∧ t.eng.link.roster = s.eng.link.roster ∧
        (s.eng.LinksSafe → (t.eng.linkOf n).frame = (s.eng.linkOf n).frame ∧ (t.eng.linkOf n).queue =
          if x.liveness = .online then (s.eng.linkOf n).queue else joined s.eng (s.eng.linkOf n) d) ∧
        t.eng.out =
          (let back := if x.liveness = .offline then s.eng.out.report s.clock.ms (.displayBack d n drop) else s.eng.out
          if x.fault = fault then back else back.report s.clock.ms (.displayFault d x.fault fault))) ∧
  (∀ (s : State) (n : Fin 8) (heard : List LinkChar) (drop d dest fault : Nat) (kind : EntryKind) (toggle : Bool)
      (x : Display), s.resetLow = false → s.eng.awaited n = some (drop, d) →
      goodAnswerIn heard drop = some (.entry dest kind toggle fault) → s.eng.link.displays.get d = some x →
      let heardOf := (s.eng.serve n).goodAnswer s.ambient n drop d fault
      ∃ t, exec (.entryAnswer n heard) s = .next t ∧ t = { s with eng := t.eng } ∧
        (x.toggle = some toggle → t.eng = heardOf) ∧
        (x.toggle ≠ some toggle →
          t.eng = (heardOf.onDisplay d fun y => { y with toggle := some toggle }).takeEntry s.ambient d ⟨dest, kind⟩) ∧
        t.eng.link.displays.get d =
          some { x with misses := 0, liveness := .online, fault := fault, toggle := some toggle } ∧
        (s.eng.LinksSafe → x.liveness ≠ .online ∨
            (x.toggle ≠ some toggle ∧ (s.eng.faceOf d).any (fun f => f.cls == .terminal) = true) →
          d ∈ (t.eng.linkOf n).queue))

/-- An entry taken from a display that is no TERMINAL is not checked: no entry, prompt, stop or place is made and no ticket
is used, and one ENTRY_REFUSED report is made with reason NOT_TERMINAL; its subject is the display index and its detail
carries the keyed floor. The toggle is recorded, and a repeated toggle is not taken again, so a display that keeps
answering makes one report. An entry taken from a TERMINAL is checked. -/
def Obligations.OnlyTerminalsEnter : Prop :=
  ∀ (A : Ambient) (e : Engines) (d : Nat) (f : Face) (k : Keyed) (toggle : Bool) (x : Display), e.faceOf d = some f →
    let refused : Event := .entryRefused d .notTerminal k.dest k.kind
    (f.cls ≠ .terminal →
      (e.takeEntry A d k).out = e.out.report A.now refused ∧ (e.takeEntry A d k).dest = e.dest ∧
      (e.takeEntry A d k).timers = e.timers ∧ (e.takeEntry A d k).ind = e.ind ∧ (e.takeEntry A d k).face = e.face ∧
      (e.takeEntry A d k).play = e.play) ∧
    (refused.words.2.1 = d ∧ (k.dest < 256 → refused.words.2.2 / 256 % 256 = k.dest)) ∧
    (e.link.displays.get d = some x →
      (x.toggle = some toggle → e.offerEntry A d toggle k = e) ∧
      (x.toggle ≠ some toggle →
        (e.offerEntry A d toggle k).link.displays.get d = some { x with toggle := some toggle } ∧
        e.offerEntry A d toggle k = (e.onDisplay d fun y => { y with toggle := some toggle }).takeEntry A d k)) ∧
    (f.cls = .terminal → (e.takeEntry A d k).dest = (e.checkEntry A d f k).dest ∧
      (e.takeEntry A d k).out = (e.checkEntry A d f k).out ∧ (e.takeEntry A d k).timers = (e.checkEntry A d f k).timers)

/-- The checks of an entry keyed at a TERMINAL, in their order: under an override it only makes a report; a floor that
cannot be chosen, the terminal's own floor, and a floor no group of the zone serves give an INVALID prompt; a full table and
a full timer list give a REFUSED prompt and a report; else the entry joins the table behind the others with the next free
ticket and its ENTRY_WAIT place, a WAITING prompt with no hold is pushed and one ENTRY report is made.
A prompt is pushed at the head of the terminal's queue, and the last of four is lost with its hold; an INVALID or REFUSED
prompt claims its hold, where the timer list has room. No other queue changes.
The marks of a push: an ONLINE TERMINAL whose visible content it changes is in its link's queue, its frame in flight to be
aborted (with its LAST block on the wire too: log entry 14); one whose content is the same keeps its place in or out of the
queue and its frame. No other face changes. -/
def Obligations.EntryChecksAreTakenInOrder : Prop :=
  ∀ (A : Ambient) (e : Engines) (d : Nat) (f : Face) (k : Keyed),
    let valid := selectable e.ind k.dest = true ∧ k.dest ≠ f.bindB ∧ zoneServes e.ind f.zone f.bindB k.dest = true
    let ticket := freeTicket e.dest.entries e.dest.entries.length e.dest.ticket
    let id := e.timers.nextId
    let kept (q : List Prompt) := if q.length < 4 then q else q.dropLast
    (f.cover ≠ none → e.checkEntry A d f k = e.report A (.entryRefused d .override k.dest k.kind)) ∧
    (f.cover = none → ¬ valid →
      e.checkEntry A d f k = e.pushPrompt A d ⟨.invalid, none, k.dest, k.kind, none, none, .none, none⟩) ∧
    (f.cover = none → valid → 64 ≤ e.dest.entries.length →
      e.checkEntry A d f k = (e.pushPrompt A d ⟨.refused, none, k.dest, k.kind, none, none, .none, none⟩).report A
        (.entryRefused d .tableFull k.dest k.kind)) ∧
    (f.cover = none → valid → e.dest.entries.length < 64 → 128 ≤ e.timers.list.length →
      e.checkEntry A d f k = (e.pushPrompt A d ⟨.refused, none, k.dest, k.kind, none, none, .none, none⟩).report A
        (.entryRefused d .timers k.dest k.kind)) ∧
    (f.cover = none → valid → e.dest.entries.length < 64 → e.timers.list.length < 128 →
      (e.checkEntry A d f k).dest.entries = e.dest.entries ++ [⟨ticket, d, f.bindB, k.dest, k.kind, id⟩] ∧
      (e.checkEntry A d f k).dest.ticket = (if 65535 ≤ ticket then 1 else ticket + 1) ∧
      (e.checkEntry A d f k).timers = Timers.releaseOpt ⟨insertPlace e.timers.list
        ⟨id, .entryWait, .ticket ticket, later A.now A.settings.entryWait, 0, 0⟩, id + 1⟩
        (if (e.promptsOf d).length < 4 then none else ((e.promptsOf d).getLast?).bind Prompt.hold) ∧
      (e.checkEntry A d f k).out = e.out.report A.now (.entry ticket d f.bindB k.dest k.kind) ∧
      holdsTicket e.dest.entries ticket = false ∧
      (∀ q, e.dest.prompts.get d = some q → (e.checkEntry A d f k).promptsOf d =
        ⟨.waiting, some ticket, k.dest, k.kind, none, none, .none, none⟩ :: kept q) ∧
      (∀ c, c ≠ d → (e.checkEntry A d f k).promptsOf c = e.promptsOf c)) ∧
    (∀ p q, p.kind ≠ .waiting → p.hold = none → e.dest.prompts.get d = some q →
      let freed := e.timers.releaseOpt (if q.length < 4 then none else (q.getLast?).bind Prompt.hold)
      (e.pushPrompt A d p).promptsOf d =
        { p with hold := if freed.list.length < 128 then some id else none } :: kept q ∧
      (e.pushPrompt A d p).dest.entries = e.dest.entries ∧
      (∀ c, c ≠ d → (e.pushPrompt A d p).promptsOf c = e.promptsOf c)) ∧
    (∀ p, e.LinksSafe → e.faceOf d = some f → e.online d = true →
      let t := e.pushPrompt A d p
      ∃ g, t.faceOf d = some g ∧ t.face.slots = e.face.slots ∧ (∀ c, c ≠ d → t.faceOf c = e.faceOf c) ∧
        g.prompt = (t.promptsOf d).map (Prompt.show e.ind.labels) ∧
        (f.visible e.face.slots ≠ g.visible e.face.slots → d ∈ (t.linkOf f.link).queue ∧
          ∀ fr, (e.linkOf f.link).frame = some fr → fr.display = d → (t.linkOf f.link).frame = some { fr with
            abortDue := true, closing := if fr.closing = .last then .none else fr.closing }) ∧
        (f.visible e.face.slots = g.visible e.face.slots →
          (t.linkOf f.link).queue = (e.linkOf f.link).queue ∧ (t.linkOf f.link).frame = (e.linkOf f.link).frame))

/-- A miss of the designated display: its miss count rises to at most 3; at 3 it goes OFFLINE, leaves its queue with the
frame in flight abandoned (the model's choice: log entry 46), and loses its strokes, and one that was ONLINE makes
DISPLAY_LOST. The slot is served. -/
def Obligations.InSlotMissCountsToOffline : Prop :=
  ∀ (s : State) (n : Fin 8) (heard : List LinkChar) (drop d : Nat) (x : Display), s.resetLow = false →
    s.eng.awaited n = some (drop, d) → goodAnswerIn heard drop = none → s.eng.link.displays.get d = some x →
    ∃ t, exec (.inSlotMiss n heard) s = .next t ∧ t = { s with eng := t.eng } ∧
      t.eng = { s.eng with
        link := t.eng.link, out := t.eng.out, face := { s.eng.face with faces := t.eng.face.faces } } ∧
      (∀ k, k ≠ d → t.eng.link.displays.get k = s.eng.link.displays.get k) ∧
      (t.eng.linkOf n).served = true ∧
      (x.misses < 2 ∨ x.liveness = .offline →
        t.eng.link.displays.get d = some { x with misses := min (x.misses + 1) 3 } ∧ t.eng.out = s.eng.out ∧
        t.eng.face = s.eng.face) ∧
      (2 ≤ x.misses → x.liveness ≠ .offline →
        t.eng.link.displays.get d = some { x with misses := 3, liveness := .offline } ∧
        (t.eng.linkOf n).queue = (s.eng.linkOf n).queue.erase d ∧ (t.eng.linkOf n).inFlight ≠ some d ∧
        (∀ f, t.eng.faceOf d = some f → f.strokes = 0 ∧ f.waitText = none) ∧
        t.eng.out = if x.liveness = .online then s.eng.out.report s.clock.ms (.displayLost d n drop) else s.eng.out)

/-- The slot of a RUNNING link that is over gives way to the next of 32, with nothing sent and nothing served in it yet; an
IN slot's designation is spent at its end. A slot that is not over, or of a STOPPED link, stays: that a slot waits for the
block that ends a frame and for its answer or miss is deduced (log entries 14 and 15). -/
def Obligations.SlotAdvancesThroughTheCycle : Prop :=
  ∀ (s : State) (n : Fin 8), s.resetLow = false →
    ((s.eng.linkOf n).running = true → s.eng.slotOver n = true →
      exec (.slotPositionAdvance n) s = .next { s with eng := s.eng.onLink n fun l => { l with
        slot := (l.slot + 1) % 32, served := false, block := none,
        pending := if l.setup.lnkIn l.slot then none else l.pending } }) ∧
    ((s.eng.linkOf n).running = false ∨ s.eng.slotOver n = false →
      exec (.slotPositionAdvance n) s = .next s)

/-! ## The timer list -/

/-- The remaining time of a held place is its expiry less the ms time when the time has not reached the expiry, and 0 when
it has. Asking changes nothing. The answer is the saved remaining dwell of a context that is
suspended, so a due place gives 0, and resuming claims a place that is due at once.
An accepted override slot record whose onsets and releases reach a target of a context: a PLAYING context all of whose
targets are then covered is SUSPENDED, its place released and the remaining time of the place, or the whole dwell where it
held none, saved (R86, R97, R102); a SUSPENDED context one of whose targets is then not covered is PLAYING, with a DWELL
place for what was saved where the timer list has room (R103). A context that none of them targets keeps what it holds. -/
def Obligations.RemainingTimeIsSavedAtSuspension : Prop :=
  (∀ (A : Ambient) (e : Engines) (c : Fin 16) (p : TimerPlace),
    e.timers.list.find? (fun q => q.id == p.id) = some p →
    (((A.now - p.expiry).toNat < 2147483648 → e.timers.remaining A.now p.id = 0) ∧
      (2147483648 ≤ (A.now - p.expiry).toNat → e.timers.remaining A.now p.id = (p.expiry - A.now).toNat)) ∧
    ((e.ctx c).place = some p.id →
      ((e.suspend A c).ctx c).saved = e.timers.remaining A.now p.id ∧ ((e.suspend A c).ctx c).state = .suspended) ∧
    ((e.ctx c).saved = 0 → e.timers.list.length < 128 →
      ∃ q ∈ (e.resume A c).timers.list, ((e.resume A c).ctx c).place = some q.id ∧ q.expiry = A.now ∧
        reached A.now q.expiry = true)) ∧
  (∀ (s : State) (k : Fin 4) (c : Fin 16), s.accepts (.overrideSlot k) → s.eng.ClaimsSafe →
    let x := s.eng.ctx c
    let dwell := (x.accepted.getD Rec4.zero).ploDwell
    let covers (e : Engines) (d : Nat) : Prop := ∃ f, e.faceOf d = some f ∧ f.cover ≠ none
    let bare (e : Engines) (d : Nat) : Prop := ∃ f, e.faceOf d = some f ∧ f.cover = none
    ∃ t, exec .overrideSlotCommit s = .next t ∧
      (x.state = .playing → (∀ d ∈ x.targets, covers t.eng d) → (∃ d ∈ x.targets, bare s.eng d) →
        t.eng.ctx c = { x with
          state := .suspended, place := none
          saved := match x.place with
            | some id => s.eng.timers.remaining s.clock.ms id
            | none => dwell } ∧
        ∀ id, x.place = some id → ∀ p ∈ t.eng.timers.list, p.id ≠ id) ∧
      (x.state = .suspended → (∃ d ∈ x.targets, covers s.eng d ∧ bare t.eng d) → s.eng.timers.list.length ≤ 111 →
        ∃ p ∈ t.eng.timers.list, t.eng.ctx c = { x with state := .playing, place := some p.id } ∧
          p.kind = .dwell ∧ p.owner = .context c ∧ p.expiry = s.clock.ms + BitVec.ofNat 32 x.saved ∧
          p.interval = dwell ∧ p.count = 0) ∧
      ((∀ d ∈ x.targets, ¬ (covers s.eng d ∧ bare t.eng d) ∧ ¬ (bare s.eng d ∧ covers t.eng d)) → t.eng.ctx c = x))

/-- Each of the six delivery commands acts exactly when the head of the timer list is due and of its kind: the list changes
as at every delivery, and the owner of the place acts; nothing outside the engines changes. With nothing due, or a head of
another kind, it does nothing.
The delivery of the head of the timer list: a one-shot place and a repeating place at its last counted expiry leave the
list; another is put back at its expiry plus its interval, whatever the time of the delivery, with its count lowered unless
it is unbounded.
A place is put behind every place whose expiry is not later than its own and ahead of the others, so a list in expiry order
stays so and places of equal expiry stand in the order in which they were put; expiries are compared within half the range
of the ms time. -/
def Obligations.ExpiriesDeliverTheDueHead : Prop :=
  (∀ (s : State), s.resetLow = false →
      (∀ p rest, s.eng.timers.list = p :: rest → reached s.clock.ms p.expiry = true →
        let e := { s.eng with timers := s.eng.timers.deliver }
        (p.kind = .entryWait → exec .entryWaitExpiry s = .next { s with eng := e.expireEntry s.ambient p }) ∧
        (∀ d, p.kind = .promptHold → p.owner = .prompt d →
          exec .promptHoldExpiry s = .next { s with eng := e.expirePrompt d p }) ∧
        (∀ c, p.kind = .lantern → p.owner = .car c → exec .lanternExpiry s = .next { s with eng := e.flash s.ambient c p }) ∧
        (∀ c, p.kind = .gong → p.owner = .car c → exec .gongExpiry s = .next { s with eng := e.stroke c p }) ∧
        (∀ c, p.kind = .dwell → p.owner = .context c →
          exec .dwellExpiry s = .next { s with eng := e.expireDwell s.ambient c p }) ∧
        (∀ k, p.kind = .overrideDwell → p.owner = .slot k → (slotOf s.eng.face.slots k).place = some p.id →
          exec .overrideDwellExpiry s = .next { s with eng := e.rotateSlot s.ambient k }) ∧
        (∀ k, p.kind = .overrideDwell → p.owner = .slot k → (slotOf s.eng.face.slots k).place ≠ some p.id →
          exec .overrideDwellExpiry s = .next { s with eng := e }) ∧
        (∀ x ∈ [(Instr.entryWaitExpiry, PlaceKind.entryWait), (.promptHoldExpiry, .promptHold), (.lanternExpiry, .lantern),
          (.gongExpiry, .gong), (.dwellExpiry, .dwell), (.overrideDwellExpiry, .overrideDwell)], p.kind ≠ x.2 →
          exec x.1 s = .next s)) ∧
      (s.eng.timers.due s.clock.ms = none → ∀ c ∈ [Instr.entryWaitExpiry, .promptHoldExpiry, .lanternExpiry, .gongExpiry,
        .dwellExpiry, .overrideDwellExpiry], exec c s = .next s)) ∧
  (∀ (p : TimerPlace) (rest : List TimerPlace) (id : Nat),
      let tm : Timers := ⟨p :: rest, id⟩
      (p.interval = 0 → tm.deliver = ⟨rest, id⟩) ∧
      (p.interval ≠ 0 → p.count = 1 → tm.deliver = ⟨rest, id⟩) ∧
      (p.interval ≠ 0 → p.count = 0 →
        tm.deliver = ⟨insertPlace rest { p with expiry := p.expiry + BitVec.ofNat 32 p.interval }, id⟩) ∧
      (p.interval ≠ 0 → 2 ≤ p.count →
        tm.deliver =
          ⟨insertPlace rest { p with expiry := p.expiry + BitVec.ofNat 32 p.interval, count := p.count - 1 }, id⟩) ∧
      (∀ q : TimerPlace, (insertPlace rest q).length = rest.length + 1)) ∧
  (∀ (l : List TimerPlace) (q : TimerPlace) (base : BitVec 32),
      (∀ p ∈ q :: l, (p.expiry - base).toNat < 2147483648) →
      l.Pairwise (fun a b => (a.expiry - base).toNat ≤ (b.expiry - base).toNat) →
      ∃ l1 l2, l = l1 ++ l2 ∧ insertPlace l q = l1 ++ q :: l2 ∧
        (∀ p ∈ l1, (p.expiry - base).toNat ≤ (q.expiry - base).toNat) ∧
        (∀ p ∈ l2, (q.expiry - base).toNat < (p.expiry - base).toNat))

/-- What the owner of a delivered place does. An entry that waited too long leaves the table, its prompt turns EXPIRED and
one ENTRY_EXPIRED report is made; a held prompt leaves its queue; a lantern turns between LIT and DARK; a gong adds one
stroke, at most 3, to each eligible display of the lantern; a place at its last expiry is held no more. A dwell moves its
context to the next READY language of the rotation, and past the last one ends a pass: the rotation begins again at its first
READY language, or at NONE, with the remaining count one lower unless it repeats without end; the last pass completes the
context, which is DONE with no place and no targets, its index and language as they stood (log entry 26), and makes one
PLAYOUT_DONE report. An override dwell moves its slot to
the next READY language above its own, else to the lowest, and one of language NONE to the lowest.
A delivered place whose owner no longer holds it changes the timer list alone. -/
def Obligations.OwnersActOnTheirExpiry : Prop :=
  (∀ (A : Ambient) (e : Engines) (p : TimerPlace),
      (∀ x, e.dest.entries.find? (fun y => y.place == p.id) = some x →
        (e.expireEntry A p).dest.entries = e.dest.entries.filter (fun y => y.ticket != x.ticket) ∧
        e.expireEntry A p = ((e.endEntry x).replacePrompt A x.terminal x.ticket
          ⟨.expired, some x.ticket, x.dest, x.kind, none, none, .none, none⟩).report A
            (.entryExpired x.ticket x.terminal x.dest)) ∧
      (∀ d, (e.expirePrompt d p).promptsOf d = (e.promptsOf d).filter (fun x => x.hold != some p.id) ∧
        (∀ k, k ≠ d → (e.expirePrompt d p).promptsOf k = e.promptsOf k)) ∧
      (∀ c, (e.ind.signalOf c).lanternPlace = some p.id →
        ((e.flash A c p).ind.signalOf c).lit = !(e.ind.signalOf c).lit ∧
        ((e.flash A c p).ind.signalOf c).lantern = (e.ind.signalOf c).lantern ∧
        ((e.flash A c p).ind.signalOf c).lanternPlace = (if p.interval ≠ 0 ∧ p.count ≠ 1 then some p.id else none) ∧
        (∀ k, k ≠ c → (e.flash A c p).ind.signalOf k = e.ind.signalOf k)) ∧
      (∀ c d f, (e.ind.signalOf c).gongPlace = some p.id → Tab.wf e.face.faces = true → e.faceOf d = some f →
        ∃ g, (e.stroke c p).faceOf d = some g ∧
          g.strokes = if (e.ind.signalOf c).owns c f ∧ e.eligible d f then min (f.strokes + 1) 3 else f.strokes) ∧
      (∀ c, (e.ind.signalOf c).gongPlace = some p.id → (e.stroke c p).ind.signalOf c =
        { e.ind.signalOf c with gongPlace := if p.interval ≠ 0 ∧ p.count ≠ 1 then some p.id else none }) ∧
      (∀ c, (e.ctx c).place = some p.id → ((e.ctx c).advance A.ready ((e.ctx c).accepted.getD Rec4.zero)).2 = false →
        (e.expireDwell A c p).ctx c = ((e.ctx c).advance A.ready ((e.ctx c).accepted.getD Rec4.zero)).1) ∧
      (∀ c, let r := (e.ctx c).accepted.getD Rec4.zero
        (e.ctx c).place = some p.id → ((e.ctx c).advance A.ready r).2 = true →
        (e.expireDwell A c p).ctx c = { e.ctx c with state := .done, remaining := 0, place := none, targets := [] } ∧
        (e.expireDwell A c p).timers = e.timers.release p.id ∧
        (e.expireDwell A c p).out = e.out.report A.now (.playoutDone c r.ploRepeat)) ∧
      (∀ k, (slotOf e.face.slots k).lang = none →
        (slotOf (e.rotateSlot A k).face.slots k).lang = (List.finRange 16).find? fun l => A.ready l) ∧
      (∀ k l, (slotOf e.face.slots k).lang = some l →
        (slotOf (e.rotateSlot A k).face.slots k).lang = nextReady A.ready l)) ∧
  (∀ (A : Ambient) (e : Engines) (p : TimerPlace),
      (e.dest.entries.find? (fun y => y.place == p.id) = none → e.expireEntry A p = e) ∧
      (∀ c, (e.ind.signalOf c).lanternPlace ≠ some p.id → e.flash A c p = e) ∧
      (∀ c, (e.ind.signalOf c).gongPlace ≠ some p.id → e.stroke c p = e) ∧
      (∀ d, (∀ x ∈ e.promptsOf d, x.hold ≠ some p.id) → (e.expirePrompt d p).dest = e.dest ∧
        (e.expirePrompt d p).timers = e.timers ∧ (e.expirePrompt d p).out = e.out ∧ (e.expirePrompt d p).ind = e.ind) ∧
      (∀ c, (e.ctx c).place ≠ some p.id → e.expireDwell A c p = e)) ∧
  (∀ (ready : Fin 16 → Bool) (r : Rec4) (x : Context),
      let rotation := r.ploRotation
      let first (y : Context) (z : Context) : Prop :=
        (∀ i l, rotation[i]? = some l → ready l = true → (∀ j m, j < i → rotation[j]? = some m → ready m = false) →
          z = { y with index := i, lang := some l }) ∧
        ((∀ l ∈ rotation, ready l = false) → z = { y with index := 0, lang := none })
      (∀ i l, x.index < i → rotation[i]? = some l → ready l = true →
        (∀ j m, x.index < j → j < i → rotation[j]? = some m → ready m = false) →
        x.advance ready r = ({ x with index := i, lang := some l }, false)) ∧
      ((∀ i l, x.index < i → rotation[i]? = some l → ready l = false) →
        (r.ploRepeat = 0 → first x (x.advance ready r).1 ∧ (x.advance ready r).2 = false) ∧
        (r.ploRepeat ≠ 0 → x.remaining ≤ 1 → x.advance ready r = ({ x with remaining := 0 }, true)) ∧
        (r.ploRepeat ≠ 0 → 2 ≤ x.remaining →
          first { x with remaining := x.remaining - 1 } (x.advance ready r).1 ∧ (x.advance ready r).2 = false))) ∧
  (∀ (ready : Fin 16 → Bool) (l : Fin 16),
      (nextReady ready l = none ↔ ∀ k, ready k = false) ∧
      (∀ m, nextReady ready l = some m → ready m = true ∧
        (∀ k, ready k = true → (l < m → l < k → m ≤ k) ∧ (m ≤ l → k ≤ l ∧ m ≤ k))))

/-! ## Reports -/

/-- A report joins the tail of the pending queue with the ms time at which it is made; while the queue holds 8 reports or
the tally is not 0 it is folded into the tally, which stops at 65535. When the head leaves, a tally that is not 0 becomes
one OVERRUN report.
The attention line is asserted exactly while a report is unconsumed, and released while RESET_N is low; a link's driver
is enabled only in an OUT slot of a RUNNING link out of reset. -/
def Obligations.ReportsQueueOrFold : Prop :=
  (∀ (o : Outbox) (now : BitVec 32) (ev : Event),
      (o.queue.length < 8 → o.tally = 0 → o.report now ev = ⟨o.queue ++ [⟨ev, now⟩], 0⟩) ∧
      (8 ≤ o.queue.length ∨ o.tally ≠ 0 → o.report now ev = ⟨o.queue, min (o.tally + 1) 65535⟩) ∧
      (o.tally = 0 → o.pop now = ⟨o.queue.tail, 0⟩) ∧
      (o.tally ≠ 0 → o.pop now = ⟨o.queue.tail ++ [⟨.overrun o.tally, now⟩], 0⟩)) ∧
  (∀ s : State,
      (s.attention = true ↔ s.resetLow = false ∧ s.ring.unconsumed ≠ 0) ∧
      ∀ n, (s.driverEnabled n = true ↔ s.resetLow = false ∧ (s.eng.linkOf n).running = true ∧
        (s.eng.linkOf n).setup.w0.getLsbD (s.eng.linkOf n).slot = true))

/-- The write of the head report at the write position is issued when a ring is set, no record write is in flight and the
ring has room, and not otherwise. When it completes its four words are in memory and no other byte is changed; unless a
ring setup came between, the report leaves the pending queue, the unconsumed count rises by one, and the write position
moves one slot down, from the lowest to the highest. -/
def Obligations.ReportIsWrittenOnce : Prop :=
  ∀ s : State, s.resetLow = false →
    (∀ r rest a, s.eng.out.queue = r :: rest → s.ring.writePos = some a → s.reportFlying = false →
      s.ring.unconsumed < s.ring.setup.ringSize → exec .reportWriteIssue s = .next (State.arbitrate { s with
        ring := { s.ring with waiting := s.ring.waiting ++ [.reportWrite a r.words false] } })) ∧
    (s.eng.out.queue = [] ∨ s.ring.writePos = none ∨ s.reportFlying = true ∨
      s.ring.setup.ringSize ≤ s.ring.unconsumed → exec .reportWriteIssue s = .next s) ∧
    (∀ a words void, s.path.port = some (.reportWrite a words void) → Memory.wf s.mem = true →
      ∃ mem, (∀ n k w, words[n]? = some w → k < 4 → Memory.read mem (a + 4 * n + k) = byteOf w k) ∧
        (∀ x, x < a ∨ a + 4 * words.length ≤ x → Memory.read mem x = Memory.read s.mem x) ∧
        (void = true → exec .reportWriteComplete s = .next (State.freePort { s with mem := mem })) ∧
        (void = false → exec .reportWriteComplete s = .next (State.freePort { s with
          mem := mem
          ring := { s.ring with
            unconsumed := s.ring.unconsumed + 1
            oldest := if s.ring.unconsumed = 0 then some a else s.ring.oldest
            writePos := some (if a = s.ring.setup.ringBase then
                s.ring.setup.ringBase + 16 * (s.ring.setup.ringSize - 1) else a - 16) }
          eng := { s.eng with out := s.eng.out.pop s.clock.ms } })))

/-- A mirror write is issued, with the items as they stand, when an item differs from those last written or the block has
moved and one status period has passed since the last issue; its completion writes its words and changes no other byte.
The period is the one in force now, also for an interval that began under another (the model's choice: log entry 51).
The eight words of the mirror: the unconsumed count and the overrun tally; the states of windows 0 to 3, a byte each; the
state of window 4, the bits of the RUNNING links and the timer list occupancy; the states of the eight glyph areas, two bits
each; the ms time; three words of 0. -/
def Obligations.StatusMirrorFollowsTheItems : Prop :=
  (∀ s : State, s.resetLow = false →
    let due := s.ring.mirrorMoved = true ∨ s.ring.mirrorLast ≠ some s.mirror
    let time := ∀ x, s.ring.mirrorAt = some x → s.asm.settings.statusPeriod ≤ (s.clock.ms - x).toNat
    (due → time → exec .statusMirrorWrite s = .next (State.arbitrate { s with
      ring := { s.ring with
        mirrorLast := some s.mirror, mirrorAt := some s.clock.ms, mirrorMoved := false
        waiting := s.ring.waiting ++ [.mirrorWrite (s.path.cbBase + 0x800) s.mirror] } })) ∧
    (¬ due ∨ ¬ time → exec .statusMirrorWrite s = .next s) ∧
    (∀ a words, s.path.port = some (.mirrorWrite a words) → Memory.wf s.mem = true →
      ∃ mem, exec .statusMirrorWriteComplete s = .next (State.freePort { s with mem := mem }) ∧
        (∀ n k w, words[n]? = some w → k < 4 → Memory.read mem (a + 4 * n + k) = byteOf w k) ∧
        (∀ x, x < a ∨ a + 4 * words.length ≤ x → Memory.read mem x = Memory.read s.mem x))) ∧
  (∀ s : State, ∃ u v w x : Word, s.mirror = [u, v, w, x, s.clock.ms, 0, 0, 0] ∧
    (s.ring.unconsumed < 65536 → s.eng.out.tally < 65536 →
      (u.extractLsb' 0 16).toNat = s.ring.unconsumed ∧ (u.extractLsb' 16 16).toNat = s.eng.out.tally) ∧
    (∀ k : Fin 4, (byteOf v k).toNat = match s.asm.winStateOf (k.castLE (by decide)) with
      | .disabled => 0
      | .current => 1
      | .stale => 2) ∧
    ((byteOf w 0).toNat = match s.asm.winStateOf playoutWindow with
      | .disabled => 0
      | .current => 1
      | .stale => 2) ∧
    (∀ n : Fin 8, w.getLsbD (8 + n.val) = (s.eng.linkOf n).running) ∧
    (s.eng.timers.list.length < 65536 → (w.extractLsb' 16 16).toNat = s.eng.timers.list.length) ∧
    (∀ a : Fin 8, (x.extractLsb' (2 * a.val) 2).toNat = match (s.fetch.area a).state with
      | .empty => 0
      | .loading => 1
      | .ready => 2))

/-! ## The laws that every step keeps -/

/-- Every step keeps the laws of the roster and the transmit queues: at most 32 TERMINALs, drops of 1 to 63 and no two
displays at one drop of a link; each queue holds a display once, and only ONLINE displays of its link, with the display in
flight at its head; a STOPPED link has an empty queue. So no queue holds more than 63 displays.
Every step keeps the laws of the timer list's claims: no two places with one number, no two entries with one ticket, each
entry with its ENTRY_WAIT place and each ENTRY_WAIT place with its entry, and every other holding its own. -/
def Obligations.RosterQueuesAndClaimsKeepTheirLaws : Prop :=
  (∀ s t : State, s.eng.LinksSafe → step s = .next t → t.eng.LinksSafe) ∧
  (∀ (e : Engines) (n : Fin 8), e.LinksSafe → (e.linkOf n).queue.length ≤ 63) ∧
  (∀ s t : State, s.eng.ClaimsSafe → step s = .next t → t.eng.ClaimsSafe)
end

