-- ==== Sys2Proof/Laws/Frames.lean ====
section
/-! SUPPORT. What each operation of the engines leaves as it was, field by field. -/

namespace Sys2Proof.Machine

theorem foldl_keeps {α β γ : Type} (f : β → γ) (op : β → α → β) (h : ∀ b a, f (op b a) = f b) (l : List α) (b : β) :
    f (l.foldl op b) = f b := by
  induction l generalizing b with
  | nil => rfl
  | cons a l ih => rw [List.foldl_cons, ih, h]

@[simp] theorem Engines.storeFace_ind (e : Engines) (d : Nat) (g : Face → Face) : (e.storeFace d g).ind = e.ind := rfl
@[simp] theorem Engines.storeFace_dest (e : Engines) (d : Nat) (g : Face → Face) : (e.storeFace d g).dest = e.dest := rfl
@[simp] theorem Engines.storeFace_play (e : Engines) (d : Nat) (g : Face → Face) : (e.storeFace d g).play = e.play := rfl
@[simp] theorem Engines.storeFace_link (e : Engines) (d : Nat) (g : Face → Face) : (e.storeFace d g).link = e.link := rfl
@[simp] theorem Engines.storeFace_timers (e : Engines) (d : Nat) (g : Face → Face) : (e.storeFace d g).timers = e.timers := rfl
@[simp] theorem Engines.storeFace_out (e : Engines) (d : Nat) (g : Face → Face) : (e.storeFace d g).out = e.out := rfl
@[simp] theorem Engines.onLink_ind (e : Engines) (n : Fin 8) (g : Link → Link) : (e.onLink n g).ind = e.ind := rfl
@[simp] theorem Engines.onLink_dest (e : Engines) (n : Fin 8) (g : Link → Link) : (e.onLink n g).dest = e.dest := rfl
@[simp] theorem Engines.onLink_face (e : Engines) (n : Fin 8) (g : Link → Link) : (e.onLink n g).face = e.face := rfl
@[simp] theorem Engines.onLink_play (e : Engines) (n : Fin 8) (g : Link → Link) : (e.onLink n g).play = e.play := rfl
@[simp] theorem Engines.onLink_timers (e : Engines) (n : Fin 8) (g : Link → Link) : (e.onLink n g).timers = e.timers := rfl
@[simp] theorem Engines.onLink_out (e : Engines) (n : Fin 8) (g : Link → Link) : (e.onLink n g).out = e.out := rfl
@[simp] theorem Engines.onDisplay_ind (e : Engines) (d : Nat) (g : Display → Display) : (e.onDisplay d g).ind = e.ind := rfl
@[simp] theorem Engines.onDisplay_dest (e : Engines) (d : Nat) (g : Display → Display) : (e.onDisplay d g).dest = e.dest := rfl
@[simp] theorem Engines.onDisplay_face (e : Engines) (d : Nat) (g : Display → Display) : (e.onDisplay d g).face = e.face := rfl
@[simp] theorem Engines.onDisplay_play (e : Engines) (d : Nat) (g : Display → Display) : (e.onDisplay d g).play = e.play := rfl
@[simp] theorem Engines.onDisplay_timers (e : Engines) (d : Nat) (g : Display → Display) : (e.onDisplay d g).timers = e.timers := rfl
@[simp] theorem Engines.onDisplay_out (e : Engines) (d : Nat) (g : Display → Display) : (e.onDisplay d g).out = e.out := rfl
@[simp] theorem Engines.storePrompts_ind (e : Engines) (d : Nat) (q : List Prompt) : (e.storePrompts d q).ind = e.ind := rfl
@[simp] theorem Engines.storePrompts_face (e : Engines) (d : Nat) (q : List Prompt) : (e.storePrompts d q).face = e.face := rfl
@[simp] theorem Engines.storePrompts_play (e : Engines) (d : Nat) (q : List Prompt) : (e.storePrompts d q).play = e.play := rfl
@[simp] theorem Engines.storePrompts_link (e : Engines) (d : Nat) (q : List Prompt) : (e.storePrompts d q).link = e.link := rfl
@[simp] theorem Engines.storePrompts_timers (e : Engines) (d : Nat) (q : List Prompt) : (e.storePrompts d q).timers = e.timers := rfl
@[simp] theorem Engines.storePrompts_out (e : Engines) (d : Nat) (q : List Prompt) : (e.storePrompts d q).out = e.out := rfl
@[simp] theorem Engines.setStops_ind (e : Engines) (c : Fin 48) (l : List Stop) : (e.setStops c l).ind = e.ind := rfl
@[simp] theorem Engines.setStops_face (e : Engines) (c : Fin 48) (l : List Stop) : (e.setStops c l).face = e.face := rfl
@[simp] theorem Engines.setStops_play (e : Engines) (c : Fin 48) (l : List Stop) : (e.setStops c l).play = e.play := rfl
@[simp] theorem Engines.setStops_link (e : Engines) (c : Fin 48) (l : List Stop) : (e.setStops c l).link = e.link := rfl
@[simp] theorem Engines.setStops_timers (e : Engines) (c : Fin 48) (l : List Stop) : (e.setStops c l).timers = e.timers := rfl
@[simp] theorem Engines.setStops_out (e : Engines) (c : Fin 48) (l : List Stop) : (e.setStops c l).out = e.out := rfl
@[simp] theorem Engines.onCtx_ind (e : Engines) (c : Fin 16) (g : Context → Context) : (e.onCtx c g).ind = e.ind := rfl
@[simp] theorem Engines.onCtx_dest (e : Engines) (c : Fin 16) (g : Context → Context) : (e.onCtx c g).dest = e.dest := rfl
@[simp] theorem Engines.onCtx_face (e : Engines) (c : Fin 16) (g : Context → Context) : (e.onCtx c g).face = e.face := rfl
@[simp] theorem Engines.onCtx_link (e : Engines) (c : Fin 16) (g : Context → Context) : (e.onCtx c g).link = e.link := rfl
@[simp] theorem Engines.onCtx_timers (e : Engines) (c : Fin 16) (g : Context → Context) : (e.onCtx c g).timers = e.timers := rfl
@[simp] theorem Engines.onCtx_out (e : Engines) (c : Fin 16) (g : Context → Context) : (e.onCtx c g).out = e.out := rfl
@[simp] theorem Engines.onCar_dest (e : Engines) (c : Fin 48) (g : Car → Car) : (e.onCar c g).dest = e.dest := rfl
@[simp] theorem Engines.onCar_face (e : Engines) (c : Fin 48) (g : Car → Car) : (e.onCar c g).face = e.face := rfl
@[simp] theorem Engines.onCar_play (e : Engines) (c : Fin 48) (g : Car → Car) : (e.onCar c g).play = e.play := rfl
@[simp] theorem Engines.onCar_link (e : Engines) (c : Fin 48) (g : Car → Car) : (e.onCar c g).link = e.link := rfl
@[simp] theorem Engines.onCar_timers (e : Engines) (c : Fin 48) (g : Car → Car) : (e.onCar c g).timers = e.timers := rfl
@[simp] theorem Engines.onCar_out (e : Engines) (c : Fin 48) (g : Car → Car) : (e.onCar c g).out = e.out := rfl
@[simp] theorem Engines.onSignal_dest (e : Engines) (c : Fin 48) (g : Signal → Signal) : (e.onSignal c g).dest = e.dest := rfl
@[simp] theorem Engines.onSignal_face (e : Engines) (c : Fin 48) (g : Signal → Signal) : (e.onSignal c g).face = e.face := rfl
@[simp] theorem Engines.onSignal_play (e : Engines) (c : Fin 48) (g : Signal → Signal) : (e.onSignal c g).play = e.play := rfl
@[simp] theorem Engines.onSignal_link (e : Engines) (c : Fin 48) (g : Signal → Signal) : (e.onSignal c g).link = e.link := rfl
@[simp] theorem Engines.onSignal_timers (e : Engines) (c : Fin 48) (g : Signal → Signal) : (e.onSignal c g).timers = e.timers := rfl
@[simp] theorem Engines.onSignal_out (e : Engines) (c : Fin 48) (g : Signal → Signal) : (e.onSignal c g).out = e.out := rfl
@[simp] theorem Engines.release_ind (e : Engines) (id : Option Nat) : (e.release id).ind = e.ind := rfl
@[simp] theorem Engines.release_dest (e : Engines) (id : Option Nat) : (e.release id).dest = e.dest := rfl
@[simp] theorem Engines.release_face (e : Engines) (id : Option Nat) : (e.release id).face = e.face := rfl
@[simp] theorem Engines.release_play (e : Engines) (id : Option Nat) : (e.release id).play = e.play := rfl
@[simp] theorem Engines.release_link (e : Engines) (id : Option Nat) : (e.release id).link = e.link := rfl
@[simp] theorem Engines.release_out (e : Engines) (id : Option Nat) : (e.release id).out = e.out := rfl
@[simp] theorem Engines.closeQueue_ind (e : Engines) (d : Nat) : (e.closeQueue d).ind = e.ind := rfl
@[simp] theorem Engines.closeQueue_face (e : Engines) (d : Nat) : (e.closeQueue d).face = e.face := rfl
@[simp] theorem Engines.closeQueue_play (e : Engines) (d : Nat) : (e.closeQueue d).play = e.play := rfl
@[simp] theorem Engines.closeQueue_link (e : Engines) (d : Nat) : (e.closeQueue d).link = e.link := rfl
@[simp] theorem Engines.closeQueue_timers (e : Engines) (d : Nat) : (e.closeQueue d).timers = e.timers := rfl
@[simp] theorem Engines.closeQueue_out (e : Engines) (d : Nat) : (e.closeQueue d).out = e.out := rfl
@[simp] theorem Engines.delivered_ind (e : Engines) : (e.delivered ).ind = e.ind := rfl
@[simp] theorem Engines.delivered_dest (e : Engines) : (e.delivered ).dest = e.dest := rfl
@[simp] theorem Engines.delivered_face (e : Engines) : (e.delivered ).face = e.face := rfl
@[simp] theorem Engines.delivered_play (e : Engines) : (e.delivered ).play = e.play := rfl
@[simp] theorem Engines.delivered_link (e : Engines) : (e.delivered ).link = e.link := rfl
@[simp] theorem Engines.delivered_out (e : Engines) : (e.delivered ).out = e.out := rfl
@[simp] theorem Engines.countFrame_ind (e : Engines) : (e.countFrame ).ind = e.ind := rfl
@[simp] theorem Engines.countFrame_dest (e : Engines) : (e.countFrame ).dest = e.dest := rfl
@[simp] theorem Engines.countFrame_face (e : Engines) : (e.countFrame ).face = e.face := rfl
@[simp] theorem Engines.countFrame_play (e : Engines) : (e.countFrame ).play = e.play := rfl
@[simp] theorem Engines.countFrame_timers (e : Engines) : (e.countFrame ).timers = e.timers := rfl
@[simp] theorem Engines.countFrame_out (e : Engines) : (e.countFrame ).out = e.out := rfl
@[simp] theorem Engines.setTimers_ind (e : Engines) (tm : Timers) : (e.setTimers tm).ind = e.ind := rfl
@[simp] theorem Engines.setTimers_dest (e : Engines) (tm : Timers) : (e.setTimers tm).dest = e.dest := rfl
@[simp] theorem Engines.setTimers_face (e : Engines) (tm : Timers) : (e.setTimers tm).face = e.face := rfl
@[simp] theorem Engines.setTimers_play (e : Engines) (tm : Timers) : (e.setTimers tm).play = e.play := rfl
@[simp] theorem Engines.setTimers_link (e : Engines) (tm : Timers) : (e.setTimers tm).link = e.link := rfl
@[simp] theorem Engines.setTimers_out (e : Engines) (tm : Timers) : (e.setTimers tm).out = e.out := rfl
@[simp] theorem Engines.setFaces_ind (e : Engines) (t : Tab Face) : (e.setFaces t).ind = e.ind := rfl
@[simp] theorem Engines.setFaces_dest (e : Engines) (t : Tab Face) : (e.setFaces t).dest = e.dest := rfl
@[simp] theorem Engines.setFaces_play (e : Engines) (t : Tab Face) : (e.setFaces t).play = e.play := rfl
@[simp] theorem Engines.setFaces_link (e : Engines) (t : Tab Face) : (e.setFaces t).link = e.link := rfl
@[simp] theorem Engines.setFaces_timers (e : Engines) (t : Tab Face) : (e.setFaces t).timers = e.timers := rfl
@[simp] theorem Engines.setFaces_out (e : Engines) (t : Tab Face) : (e.setFaces t).out = e.out := rfl
@[simp] theorem Engines.onSlot_ind (e : Engines) (k : Fin 4) (g : OverrideSlot → OverrideSlot) : (e.onSlot k g).ind = e.ind := rfl
@[simp] theorem Engines.onSlot_dest (e : Engines) (k : Fin 4) (g : OverrideSlot → OverrideSlot) : (e.onSlot k g).dest = e.dest := rfl
@[simp] theorem Engines.onSlot_play (e : Engines) (k : Fin 4) (g : OverrideSlot → OverrideSlot) : (e.onSlot k g).play = e.play := rfl
@[simp] theorem Engines.onSlot_link (e : Engines) (k : Fin 4) (g : OverrideSlot → OverrideSlot) : (e.onSlot k g).link = e.link := rfl
@[simp] theorem Engines.onSlot_timers (e : Engines) (k : Fin 4) (g : OverrideSlot → OverrideSlot) : (e.onSlot k g).timers = e.timers := rfl
@[simp] theorem Engines.onSlot_out (e : Engines) (k : Fin 4) (g : OverrideSlot → OverrideSlot) : (e.onSlot k g).out = e.out := rfl
@[simp] theorem Engines.setDisplays_ind (e : Engines) (t : Tab Display) : (e.setDisplays t).ind = e.ind := rfl
@[simp] theorem Engines.setDisplays_dest (e : Engines) (t : Tab Display) : (e.setDisplays t).dest = e.dest := rfl
@[simp] theorem Engines.setDisplays_face (e : Engines) (t : Tab Display) : (e.setDisplays t).face = e.face := rfl
@[simp] theorem Engines.setDisplays_play (e : Engines) (t : Tab Display) : (e.setDisplays t).play = e.play := rfl
@[simp] theorem Engines.setDisplays_timers (e : Engines) (t : Tab Display) : (e.setDisplays t).timers = e.timers := rfl
@[simp] theorem Engines.setDisplays_out (e : Engines) (t : Tab Display) : (e.setDisplays t).out = e.out := rfl
@[simp] theorem Engines.setRoster_ind (e : Engines) (t : Tab Rec4) : (e.setRoster t).ind = e.ind := rfl
@[simp] theorem Engines.setRoster_dest (e : Engines) (t : Tab Rec4) : (e.setRoster t).dest = e.dest := rfl
@[simp] theorem Engines.setRoster_face (e : Engines) (t : Tab Rec4) : (e.setRoster t).face = e.face := rfl
@[simp] theorem Engines.setRoster_play (e : Engines) (t : Tab Rec4) : (e.setRoster t).play = e.play := rfl
@[simp] theorem Engines.setRoster_timers (e : Engines) (t : Tab Rec4) : (e.setRoster t).timers = e.timers := rfl
@[simp] theorem Engines.setRoster_out (e : Engines) (t : Tab Rec4) : (e.setRoster t).out = e.out := rfl
@[simp] theorem Engines.setPrompts_ind (e : Engines) (t : Tab (List Prompt)) : (e.setPrompts t).ind = e.ind := rfl
@[simp] theorem Engines.setPrompts_face (e : Engines) (t : Tab (List Prompt)) : (e.setPrompts t).face = e.face := rfl
@[simp] theorem Engines.setPrompts_play (e : Engines) (t : Tab (List Prompt)) : (e.setPrompts t).play = e.play := rfl
@[simp] theorem Engines.setPrompts_link (e : Engines) (t : Tab (List Prompt)) : (e.setPrompts t).link = e.link := rfl
@[simp] theorem Engines.setPrompts_timers (e : Engines) (t : Tab (List Prompt)) : (e.setPrompts t).timers = e.timers := rfl
@[simp] theorem Engines.setPrompts_out (e : Engines) (t : Tab (List Prompt)) : (e.setPrompts t).out = e.out := rfl
@[simp] theorem Engines.setPlay_ind (e : Engines) (v : Vector Context 16) : (e.setPlay v).ind = e.ind := rfl
@[simp] theorem Engines.setPlay_dest (e : Engines) (v : Vector Context 16) : (e.setPlay v).dest = e.dest := rfl
@[simp] theorem Engines.setPlay_face (e : Engines) (v : Vector Context 16) : (e.setPlay v).face = e.face := rfl
@[simp] theorem Engines.setPlay_link (e : Engines) (v : Vector Context 16) : (e.setPlay v).link = e.link := rfl
@[simp] theorem Engines.setPlay_timers (e : Engines) (v : Vector Context 16) : (e.setPlay v).timers = e.timers := rfl
@[simp] theorem Engines.setPlay_out (e : Engines) (v : Vector Context 16) : (e.setPlay v).out = e.out := rfl
@[simp] theorem Engines.setGroup_dest (e : Engines) (g : Fin 8) (r : Rec8) : (e.setGroup g r).dest = e.dest := rfl
@[simp] theorem Engines.setGroup_face (e : Engines) (g : Fin 8) (r : Rec8) : (e.setGroup g r).face = e.face := rfl
@[simp] theorem Engines.setGroup_play (e : Engines) (g : Fin 8) (r : Rec8) : (e.setGroup g r).play = e.play := rfl
@[simp] theorem Engines.setGroup_link (e : Engines) (g : Fin 8) (r : Rec8) : (e.setGroup g r).link = e.link := rfl
@[simp] theorem Engines.setGroup_timers (e : Engines) (g : Fin 8) (r : Rec8) : (e.setGroup g r).timers = e.timers := rfl
@[simp] theorem Engines.setGroup_out (e : Engines) (g : Fin 8) (r : Rec8) : (e.setGroup g r).out = e.out := rfl
@[simp] theorem Engines.setLabels_dest (e : Engines) (t : Tab Rec4) : (e.setLabels t).dest = e.dest := rfl
@[simp] theorem Engines.setLabels_face (e : Engines) (t : Tab Rec4) : (e.setLabels t).face = e.face := rfl
@[simp] theorem Engines.setLabels_play (e : Engines) (t : Tab Rec4) : (e.setLabels t).play = e.play := rfl
@[simp] theorem Engines.setLabels_link (e : Engines) (t : Tab Rec4) : (e.setLabels t).link = e.link := rfl
@[simp] theorem Engines.setLabels_timers (e : Engines) (t : Tab Rec4) : (e.setLabels t).timers = e.timers := rfl
@[simp] theorem Engines.setLabels_out (e : Engines) (t : Tab Rec4) : (e.setLabels t).out = e.out := rfl
@[simp] theorem Engines.setCars_dest (e : Engines) (v : Vector Car 48) : (e.setCars v).dest = e.dest := rfl
@[simp] theorem Engines.setCars_face (e : Engines) (v : Vector Car 48) : (e.setCars v).face = e.face := rfl
@[simp] theorem Engines.setCars_play (e : Engines) (v : Vector Car 48) : (e.setCars v).play = e.play := rfl
@[simp] theorem Engines.setCars_link (e : Engines) (v : Vector Car 48) : (e.setCars v).link = e.link := rfl
@[simp] theorem Engines.setCars_timers (e : Engines) (v : Vector Car 48) : (e.setCars v).timers = e.timers := rfl
@[simp] theorem Engines.setCars_out (e : Engines) (v : Vector Car 48) : (e.setCars v).out = e.out := rfl
@[simp] theorem Engines.addEntry_ind (e : Engines) (x : Entry) : (e.addEntry x).ind = e.ind := rfl
@[simp] theorem Engines.addEntry_face (e : Engines) (x : Entry) : (e.addEntry x).face = e.face := rfl
@[simp] theorem Engines.addEntry_play (e : Engines) (x : Entry) : (e.addEntry x).play = e.play := rfl
@[simp] theorem Engines.addEntry_link (e : Engines) (x : Entry) : (e.addEntry x).link = e.link := rfl
@[simp] theorem Engines.addEntry_timers (e : Engines) (x : Entry) : (e.addEntry x).timers = e.timers := rfl
@[simp] theorem Engines.addEntry_out (e : Engines) (x : Entry) : (e.addEntry x).out = e.out := rfl
@[simp] theorem Engines.report_ind (A : Ambient) (e : Engines) (ev : Event) : (e.report A ev).ind = e.ind := rfl
@[simp] theorem Engines.report_dest (A : Ambient) (e : Engines) (ev : Event) : (e.report A ev).dest = e.dest := rfl
@[simp] theorem Engines.report_face (A : Ambient) (e : Engines) (ev : Event) : (e.report A ev).face = e.face := rfl
@[simp] theorem Engines.report_play (A : Ambient) (e : Engines) (ev : Event) : (e.report A ev).play = e.play := rfl
@[simp] theorem Engines.report_link (A : Ambient) (e : Engines) (ev : Event) : (e.report A ev).link = e.link := rfl
@[simp] theorem Engines.report_timers (A : Ambient) (e : Engines) (ev : Event) : (e.report A ev).timers = e.timers := rfl

@[simp] theorem Engines.textFilled_ind (e : Engines) (t : Tag) : (e.textFilled t).ind = e.ind := by
  unfold Engines.textFilled
  rfl

@[simp] theorem Engines.textFilled_dest (e : Engines) (t : Tag) : (e.textFilled t).dest = e.dest := by
  unfold Engines.textFilled
  rfl

@[simp] theorem Engines.textFilled_play (e : Engines) (t : Tag) : (e.textFilled t).play = e.play := by
  unfold Engines.textFilled
  rfl

@[simp] theorem Engines.textFilled_link (e : Engines) (t : Tag) : (e.textFilled t).link = e.link := by
  unfold Engines.textFilled
  rfl

@[simp] theorem Engines.textFilled_timers (e : Engines) (t : Tag) : (e.textFilled t).timers = e.timers := by
  unfold Engines.textFilled
  rfl

@[simp] theorem Engines.textFilled_out (e : Engines) (t : Tag) : (e.textFilled t).out = e.out := by
  unfold Engines.textFilled
  rfl

@[simp] theorem Engines.join_ind (e : Engines) (n : Fin 8) (d : Nat) : (e.join n d).ind = e.ind := by
  unfold Engines.join
  rfl

@[simp] theorem Engines.join_dest (e : Engines) (n : Fin 8) (d : Nat) : (e.join n d).dest = e.dest := by
  unfold Engines.join
  rfl

@[simp] theorem Engines.join_face (e : Engines) (n : Fin 8) (d : Nat) : (e.join n d).face = e.face := by
  unfold Engines.join
  rfl

@[simp] theorem Engines.join_play (e : Engines) (n : Fin 8) (d : Nat) : (e.join n d).play = e.play := by
  unfold Engines.join
  rfl

@[simp] theorem Engines.join_timers (e : Engines) (n : Fin 8) (d : Nat) : (e.join n d).timers = e.timers := by
  unfold Engines.join
  rfl

@[simp] theorem Engines.join_out (e : Engines) (n : Fin 8) (d : Nat) : (e.join n d).out = e.out := by
  unfold Engines.join
  rfl

@[simp] theorem Engines.leaveQueue_ind (e : Engines) (n : Fin 8) (d : Nat) : (e.leaveQueue n d).ind = e.ind := by
  unfold Engines.leaveQueue
  rfl

@[simp] theorem Engines.leaveQueue_dest (e : Engines) (n : Fin 8) (d : Nat) : (e.leaveQueue n d).dest = e.dest := by
  unfold Engines.leaveQueue
  rfl

@[simp] theorem Engines.leaveQueue_play (e : Engines) (n : Fin 8) (d : Nat) : (e.leaveQueue n d).play = e.play := by
  unfold Engines.leaveQueue
  rfl

@[simp] theorem Engines.leaveQueue_timers (e : Engines) (n : Fin 8) (d : Nat) : (e.leaveQueue n d).timers = e.timers := by
  unfold Engines.leaveQueue
  rfl

@[simp] theorem Engines.leaveQueue_out (e : Engines) (n : Fin 8) (d : Nat) : (e.leaveQueue n d).out = e.out := by
  unfold Engines.leaveQueue
  rfl

@[simp] theorem Engines.changeMark_ind (e : Engines) (d : Nat) (r : Bool) : (e.changeMark d r).ind = e.ind := by
  unfold Engines.changeMark
  dsimp only; (repeat' split) <;> simp

@[simp] theorem Engines.changeMark_dest (e : Engines) (d : Nat) (r : Bool) : (e.changeMark d r).dest = e.dest := by
  unfold Engines.changeMark
  dsimp only; (repeat' split) <;> simp

@[simp] theorem Engines.changeMark_play (e : Engines) (d : Nat) (r : Bool) : (e.changeMark d r).play = e.play := by
  unfold Engines.changeMark
  dsimp only; (repeat' split) <;> simp

@[simp] theorem Engines.changeMark_timers (e : Engines) (d : Nat) (r : Bool) : (e.changeMark d r).timers = e.timers := by
  unfold Engines.changeMark
  dsimp only; (repeat' split) <;> simp

@[simp] theorem Engines.changeMark_out (e : Engines) (d : Nat) (r : Bool) : (e.changeMark d r).out = e.out := by
  unfold Engines.changeMark
  dsimp only; (repeat' split) <;> simp

@[simp] theorem Engines.refreshMark_ind (e : Engines) (d : Nat) : (e.refreshMark d).ind = e.ind := by
  unfold Engines.refreshMark
  dsimp only; (repeat' split) <;> simp

@[simp] theorem Engines.refreshMark_dest (e : Engines) (d : Nat) : (e.refreshMark d).dest = e.dest := by
  unfold Engines.refreshMark
  dsimp only; (repeat' split) <;> simp

@[simp] theorem Engines.refreshMark_face (e : Engines) (d : Nat) : (e.refreshMark d).face = e.face := by
  unfold Engines.refreshMark
  dsimp only; (repeat' split) <;> simp

@[simp] theorem Engines.refreshMark_play (e : Engines) (d : Nat) : (e.refreshMark d).play = e.play := by
  unfold Engines.refreshMark
  dsimp only; (repeat' split) <;> simp

@[simp] theorem Engines.refreshMark_timers (e : Engines) (d : Nat) : (e.refreshMark d).timers = e.timers := by
  unfold Engines.refreshMark
  dsimp only; (repeat' split) <;> simp

@[simp] theorem Engines.refreshMark_out (e : Engines) (d : Nat) : (e.refreshMark d).out = e.out := by
  unfold Engines.refreshMark
  dsimp only; (repeat' split) <;> simp

@[simp] theorem Engines.updFaceFrom_ind (e : Engines) (v : Vector OverrideSlot 4) (d : Nat) (g : Face → Face) :
    (e.updFaceFrom v d g).ind = e.ind := by
  unfold Engines.updFaceFrom
  dsimp only; (repeat' split) <;> simp

@[simp] theorem Engines.updFace_ind (e : Engines) (d : Nat) (g : Face → Face) : (e.updFace d g).ind = e.ind :=
  Engines.updFaceFrom_ind e _ d g

@[simp] theorem Engines.updFaceFrom_dest (e : Engines) (v : Vector OverrideSlot 4) (d : Nat) (g : Face → Face) :
    (e.updFaceFrom v d g).dest = e.dest := by
  unfold Engines.updFaceFrom
  dsimp only; (repeat' split) <;> simp

@[simp] theorem Engines.updFace_dest (e : Engines) (d : Nat) (g : Face → Face) : (e.updFace d g).dest = e.dest :=
  Engines.updFaceFrom_dest e _ d g

@[simp] theorem Engines.updFaceFrom_play (e : Engines) (v : Vector OverrideSlot 4) (d : Nat) (g : Face → Face) :
    (e.updFaceFrom v d g).play = e.play := by
  unfold Engines.updFaceFrom
  dsimp only; (repeat' split) <;> simp

@[simp] theorem Engines.updFace_play (e : Engines) (d : Nat) (g : Face → Face) : (e.updFace d g).play = e.play :=
  Engines.updFaceFrom_play e _ d g

@[simp] theorem Engines.updFaceFrom_timers (e : Engines) (v : Vector OverrideSlot 4) (d : Nat) (g : Face → Face) :
    (e.updFaceFrom v d g).timers = e.timers := by
  unfold Engines.updFaceFrom
  dsimp only; (repeat' split) <;> simp

@[simp] theorem Engines.updFace_timers (e : Engines) (d : Nat) (g : Face → Face) : (e.updFace d g).timers = e.timers :=
  Engines.updFaceFrom_timers e _ d g

@[simp] theorem Engines.updFaceFrom_out (e : Engines) (v : Vector OverrideSlot 4) (d : Nat) (g : Face → Face) :
    (e.updFaceFrom v d g).out = e.out := by
  unfold Engines.updFaceFrom
  dsimp only; (repeat' split) <;> simp

@[simp] theorem Engines.updFace_out (e : Engines) (d : Nat) (g : Face → Face) : (e.updFace d g).out = e.out :=
  Engines.updFaceFrom_out e _ d g

@[simp] theorem Engines.updSlot_ind (e : Engines) (k : Fin 4) (g : OverrideSlot → OverrideSlot) : (e.updSlot k g).ind = e.ind := by
  unfold Engines.updSlot
  simp; apply foldl_keeps Engines.ind; intros; split <;> simp

@[simp] theorem Engines.updSlot_dest (e : Engines) (k : Fin 4) (g : OverrideSlot → OverrideSlot) : (e.updSlot k g).dest = e.dest := by
  unfold Engines.updSlot
  simp; apply foldl_keeps Engines.dest; intros; split <;> simp

@[simp] theorem Engines.updSlot_play (e : Engines) (k : Fin 4) (g : OverrideSlot → OverrideSlot) : (e.updSlot k g).play = e.play := by
  unfold Engines.updSlot
  simp; apply foldl_keeps Engines.play; intros; split <;> simp

@[simp] theorem Engines.updSlot_timers (e : Engines) (k : Fin 4) (g : OverrideSlot → OverrideSlot) : (e.updSlot k g).timers = e.timers := by
  unfold Engines.updSlot
  simp; apply foldl_keeps Engines.timers; intros; split <;> simp

@[simp] theorem Engines.updSlot_out (e : Engines) (k : Fin 4) (g : OverrideSlot → OverrideSlot) : (e.updSlot k g).out = e.out := by
  unfold Engines.updSlot
  simp; apply foldl_keeps Engines.out; intros; split <;> simp

@[simp] theorem Engines.handPrompts_ind (e : Engines) (d : Nat) : (e.handPrompts d).ind = e.ind := by
  unfold Engines.handPrompts
  simp

@[simp] theorem Engines.handPrompts_dest (e : Engines) (d : Nat) : (e.handPrompts d).dest = e.dest := by
  unfold Engines.handPrompts
  simp

@[simp] theorem Engines.handPrompts_play (e : Engines) (d : Nat) : (e.handPrompts d).play = e.play := by
  unfold Engines.handPrompts
  simp

@[simp] theorem Engines.handPrompts_timers (e : Engines) (d : Nat) : (e.handPrompts d).timers = e.timers := by
  unfold Engines.handPrompts
  simp

@[simp] theorem Engines.handPrompts_out (e : Engines) (d : Nat) : (e.handPrompts d).out = e.out := by
  unfold Engines.handPrompts
  simp

@[simp] theorem Engines.claimHold_ind (e : Engines) (A : Ambient) (d : Nat) : (e.claimHold A d).ind = e.ind := by
  unfold Engines.claimHold
  split
  · rfl
  · split <;> rfl

@[simp] theorem Engines.claimHold_face (e : Engines) (A : Ambient) (d : Nat) : (e.claimHold A d).face = e.face := by
  unfold Engines.claimHold
  split
  · rfl
  · split <;> rfl

@[simp] theorem Engines.claimHold_play (e : Engines) (A : Ambient) (d : Nat) : (e.claimHold A d).play = e.play := by
  unfold Engines.claimHold
  split
  · rfl
  · split <;> rfl

@[simp] theorem Engines.claimHold_link (e : Engines) (A : Ambient) (d : Nat) : (e.claimHold A d).link = e.link := by
  unfold Engines.claimHold
  split
  · rfl
  · split <;> rfl

@[simp] theorem Engines.placePrompt_ind (e : Engines) (A : Ambient) (d : Nat) (p : Prompt) (rest : List Prompt) : (e.placePrompt A d p rest).ind = e.ind := by
  unfold Engines.placePrompt
  split <;> simp

@[simp] theorem Engines.placePrompt_play (e : Engines) (A : Ambient) (d : Nat) (p : Prompt) (rest : List Prompt) : (e.placePrompt A d p rest).play = e.play := by
  unfold Engines.placePrompt
  split <;> simp

@[simp] theorem Engines.pushPrompt_ind (e : Engines) (A : Ambient) (d : Nat) (p : Prompt) : (e.pushPrompt A d p).ind = e.ind := by
  unfold Engines.pushPrompt
  dsimp only; (repeat' split) <;> simp

@[simp] theorem Engines.pushPrompt_play (e : Engines) (A : Ambient) (d : Nat) (p : Prompt) : (e.pushPrompt A d p).play = e.play := by
  unfold Engines.pushPrompt
  dsimp only; (repeat' split) <;> simp

@[simp] theorem Engines.replacePrompt_ind (e : Engines) (A : Ambient) (d t : Nat) (p : Prompt) : (e.replacePrompt A d t p).ind = e.ind := by
  unfold Engines.replacePrompt
  dsimp only; (repeat' split) <;> simp

@[simp] theorem Engines.replacePrompt_play (e : Engines) (A : Ambient) (d t : Nat) (p : Prompt) : (e.replacePrompt A d t p).play = e.play := by
  unfold Engines.replacePrompt
  dsimp only; (repeat' split) <;> simp

@[simp] theorem Engines.removePrompts_ind (e : Engines) (d : Nat) : (e.removePrompts d).ind = e.ind := by
  unfold Engines.removePrompts
  simp; apply foldl_keeps Engines.ind; intros; simp

@[simp] theorem Engines.removePrompts_play (e : Engines) (d : Nat) : (e.removePrompts d).play = e.play := by
  unfold Engines.removePrompts
  simp; apply foldl_keeps Engines.play; intros; simp

@[simp] theorem Engines.removePrompts_out (e : Engines) (d : Nat) : (e.removePrompts d).out = e.out := by
  unfold Engines.removePrompts
  simp; apply foldl_keeps Engines.out; intros; simp

@[simp] theorem Engines.endEntry_ind (e : Engines) (x : Entry) : (e.endEntry x).ind = e.ind := by
  unfold Engines.endEntry
  rfl

@[simp] theorem Engines.endEntry_face (e : Engines) (x : Entry) : (e.endEntry x).face = e.face := by
  unfold Engines.endEntry
  rfl

@[simp] theorem Engines.endEntry_play (e : Engines) (x : Entry) : (e.endEntry x).play = e.play := by
  unfold Engines.endEntry
  rfl

@[simp] theorem Engines.endEntry_link (e : Engines) (x : Entry) : (e.endEntry x).link = e.link := by
  unfold Engines.endEntry
  rfl

@[simp] theorem Engines.endEntry_out (e : Engines) (x : Entry) : (e.endEntry x).out = e.out := by
  unfold Engines.endEntry
  rfl

@[simp] theorem Engines.cancelTerminal_ind (e : Engines) (A : Ambient) (d : Nat) (why : Reason) : (e.cancelTerminal A d why).ind = e.ind := by
  unfold Engines.cancelTerminal
  simp; apply foldl_keeps Engines.ind; intros; simp

@[simp] theorem Engines.cancelTerminal_play (e : Engines) (A : Ambient) (d : Nat) (why : Reason) : (e.cancelTerminal A d why).play = e.play := by
  unfold Engines.cancelTerminal
  simp; apply foldl_keeps Engines.play; intros; simp

@[simp] theorem Engines.removeStops_ind (e : Engines) (c : Fin 48) (floors : List Nat) : (e.removeStops c floors).ind = e.ind := by
  unfold Engines.removeStops
  rfl

@[simp] theorem Engines.removeStops_face (e : Engines) (c : Fin 48) (floors : List Nat) : (e.removeStops c floors).face = e.face := by
  unfold Engines.removeStops
  rfl

@[simp] theorem Engines.removeStops_play (e : Engines) (c : Fin 48) (floors : List Nat) : (e.removeStops c floors).play = e.play := by
  unfold Engines.removeStops
  rfl

@[simp] theorem Engines.removeStops_link (e : Engines) (c : Fin 48) (floors : List Nat) : (e.removeStops c floors).link = e.link := by
  unfold Engines.removeStops
  rfl

@[simp] theorem Engines.removeStops_timers (e : Engines) (c : Fin 48) (floors : List Nat) : (e.removeStops c floors).timers = e.timers := by
  unfold Engines.removeStops
  rfl

@[simp] theorem Engines.removeStops_out (e : Engines) (c : Fin 48) (floors : List Nat) : (e.removeStops c floors).out = e.out := by
  unfold Engines.removeStops
  rfl

@[simp] theorem Engines.dropStops_ind (e : Engines) (A : Ambient) (c : Fin 48) : (e.dropStops A c).ind = e.ind := by
  unfold Engines.dropStops
  dsimp only; (repeat' split) <;> simp

@[simp] theorem Engines.dropStops_face (e : Engines) (A : Ambient) (c : Fin 48) : (e.dropStops A c).face = e.face := by
  unfold Engines.dropStops
  dsimp only; (repeat' split) <;> simp

@[simp] theorem Engines.dropStops_play (e : Engines) (A : Ambient) (c : Fin 48) : (e.dropStops A c).play = e.play := by
  unfold Engines.dropStops
  dsimp only; (repeat' split) <;> simp

@[simp] theorem Engines.dropStops_link (e : Engines) (A : Ambient) (c : Fin 48) : (e.dropStops A c).link = e.link := by
  unfold Engines.dropStops
  dsimp only; (repeat' split) <;> simp

@[simp] theorem Engines.dropStops_timers (e : Engines) (A : Ambient) (c : Fin 48) : (e.dropStops A c).timers = e.timers := by
  unfold Engines.dropStops
  dsimp only; (repeat' split) <;> simp

@[simp] theorem Engines.handNotice_ind (e : Engines) (d : Nat) : (e.handNotice d).ind = e.ind := by
  unfold Engines.handNotice
  simp

@[simp] theorem Engines.handNotice_dest (e : Engines) (d : Nat) : (e.handNotice d).dest = e.dest := by
  unfold Engines.handNotice
  simp

@[simp] theorem Engines.handNotice_play (e : Engines) (d : Nat) : (e.handNotice d).play = e.play := by
  unfold Engines.handNotice
  simp

@[simp] theorem Engines.handNotice_timers (e : Engines) (d : Nat) : (e.handNotice d).timers = e.timers := by
  unfold Engines.handNotice
  simp

@[simp] theorem Engines.handNotice_out (e : Engines) (d : Nat) : (e.handNotice d).out = e.out := by
  unfold Engines.handNotice
  simp

@[simp] theorem Engines.handNotices_ind (e : Engines) (ds : List Nat) : (e.handNotices ds).ind = e.ind := by
  unfold Engines.handNotices
  apply foldl_keeps Engines.ind; intros; simp

@[simp] theorem Engines.handNotices_dest (e : Engines) (ds : List Nat) : (e.handNotices ds).dest = e.dest := by
  unfold Engines.handNotices
  apply foldl_keeps Engines.dest; intros; simp

@[simp] theorem Engines.handNotices_play (e : Engines) (ds : List Nat) : (e.handNotices ds).play = e.play := by
  unfold Engines.handNotices
  apply foldl_keeps Engines.play; intros; simp

@[simp] theorem Engines.handNotices_timers (e : Engines) (ds : List Nat) : (e.handNotices ds).timers = e.timers := by
  unfold Engines.handNotices
  apply foldl_keeps Engines.timers; intros; simp

@[simp] theorem Engines.handNotices_out (e : Engines) (ds : List Nat) : (e.handNotices ds).out = e.out := by
  unfold Engines.handNotices
  apply foldl_keeps Engines.out; intros; simp

@[simp] theorem Engines.handTargets_ind (e : Engines) (c : Fin 16) : (e.handTargets c).ind = e.ind := by
  unfold Engines.handTargets
  simp

@[simp] theorem Engines.handTargets_dest (e : Engines) (c : Fin 16) : (e.handTargets c).dest = e.dest := by
  unfold Engines.handTargets
  simp

@[simp] theorem Engines.handTargets_play (e : Engines) (c : Fin 16) : (e.handTargets c).play = e.play := by
  unfold Engines.handTargets
  simp

@[simp] theorem Engines.handTargets_timers (e : Engines) (c : Fin 16) : (e.handTargets c).timers = e.timers := by
  unfold Engines.handTargets
  simp

@[simp] theorem Engines.handTargets_out (e : Engines) (c : Fin 16) : (e.handTargets c).out = e.out := by
  unfold Engines.handTargets
  simp

@[simp] theorem Engines.claimDwell_ind (e : Engines) (A : Ambient) (c : Fin 16) (n : Nat) : (e.claimDwell A c n).ind = e.ind := by
  unfold Engines.claimDwell
  dsimp only; (repeat' split) <;> simp

@[simp] theorem Engines.claimDwell_dest (e : Engines) (A : Ambient) (c : Fin 16) (n : Nat) : (e.claimDwell A c n).dest = e.dest := by
  unfold Engines.claimDwell
  dsimp only; (repeat' split) <;> simp

@[simp] theorem Engines.claimDwell_face (e : Engines) (A : Ambient) (c : Fin 16) (n : Nat) : (e.claimDwell A c n).face = e.face := by
  unfold Engines.claimDwell
  dsimp only; (repeat' split) <;> simp

@[simp] theorem Engines.claimDwell_link (e : Engines) (A : Ambient) (c : Fin 16) (n : Nat) : (e.claimDwell A c n).link = e.link := by
  unfold Engines.claimDwell
  dsimp only; (repeat' split) <;> simp

@[simp] theorem Engines.releaseDwell_ind (e : Engines) (c : Fin 16) : (e.releaseDwell c).ind = e.ind := by
  unfold Engines.releaseDwell
  rfl

@[simp] theorem Engines.releaseDwell_dest (e : Engines) (c : Fin 16) : (e.releaseDwell c).dest = e.dest := by
  unfold Engines.releaseDwell
  rfl

@[simp] theorem Engines.releaseDwell_face (e : Engines) (c : Fin 16) : (e.releaseDwell c).face = e.face := by
  unfold Engines.releaseDwell
  rfl

@[simp] theorem Engines.releaseDwell_link (e : Engines) (c : Fin 16) : (e.releaseDwell c).link = e.link := by
  unfold Engines.releaseDwell
  rfl

@[simp] theorem Engines.releaseDwell_out (e : Engines) (c : Fin 16) : (e.releaseDwell c).out = e.out := by
  unfold Engines.releaseDwell
  rfl

@[simp] theorem Engines.suspend_ind (e : Engines) (A : Ambient) (c : Fin 16) : (e.suspend A c).ind = e.ind := by
  unfold Engines.suspend
  rfl

@[simp] theorem Engines.suspend_dest (e : Engines) (A : Ambient) (c : Fin 16) : (e.suspend A c).dest = e.dest := by
  unfold Engines.suspend
  rfl

@[simp] theorem Engines.suspend_face (e : Engines) (A : Ambient) (c : Fin 16) : (e.suspend A c).face = e.face := by
  unfold Engines.suspend
  rfl

@[simp] theorem Engines.suspend_link (e : Engines) (A : Ambient) (c : Fin 16) : (e.suspend A c).link = e.link := by
  unfold Engines.suspend
  rfl

@[simp] theorem Engines.suspend_out (e : Engines) (A : Ambient) (c : Fin 16) : (e.suspend A c).out = e.out := by
  unfold Engines.suspend
  rfl

@[simp] theorem Engines.resume_ind (e : Engines) (A : Ambient) (c : Fin 16) : (e.resume A c).ind = e.ind := by
  unfold Engines.resume
  simp

@[simp] theorem Engines.resume_dest (e : Engines) (A : Ambient) (c : Fin 16) : (e.resume A c).dest = e.dest := by
  unfold Engines.resume
  simp

@[simp] theorem Engines.resume_face (e : Engines) (A : Ambient) (c : Fin 16) : (e.resume A c).face = e.face := by
  unfold Engines.resume
  simp

@[simp] theorem Engines.resume_link (e : Engines) (A : Ambient) (c : Fin 16) : (e.resume A c).link = e.link := by
  unfold Engines.resume
  simp

@[simp] theorem Engines.targetEvent_ind (e : Engines) (A : Ambient) (c : Fin 16) : (e.targetEvent A c).ind = e.ind := by
  unfold Engines.targetEvent
  dsimp only; (repeat' split) <;> simp

@[simp] theorem Engines.targetEvent_dest (e : Engines) (A : Ambient) (c : Fin 16) : (e.targetEvent A c).dest = e.dest := by
  unfold Engines.targetEvent
  dsimp only; (repeat' split) <;> simp

@[simp] theorem Engines.targetEvent_face (e : Engines) (A : Ambient) (c : Fin 16) : (e.targetEvent A c).face = e.face := by
  unfold Engines.targetEvent
  dsimp only; (repeat' split) <;> simp

@[simp] theorem Engines.targetEvent_link (e : Engines) (A : Ambient) (c : Fin 16) : (e.targetEvent A c).link = e.link := by
  unfold Engines.targetEvent
  dsimp only; (repeat' split) <;> simp

@[simp] theorem Engines.targetNotice_ind (e : Engines) (A : Ambient) (d : Nat) : (e.targetNotice A d).ind = e.ind := by
  unfold Engines.targetNotice
  dsimp only
  rw [Engines.handNotice_ind]
  refine (foldl_keeps Engines.ind _ ?_ _ _).trans (Engines.setPlay_ind _ _)
  intros
  split <;> simp

@[simp] theorem Engines.targetNotice_dest (e : Engines) (A : Ambient) (d : Nat) : (e.targetNotice A d).dest = e.dest := by
  unfold Engines.targetNotice
  dsimp only
  rw [Engines.handNotice_dest]
  refine (foldl_keeps Engines.dest _ ?_ _ _).trans (Engines.setPlay_dest _ _)
  intros
  split <;> simp

@[simp] theorem Engines.coverNotice_ind (e : Engines) (A : Ambient) (ds : List Nat) : (e.coverNotice A ds).ind = e.ind := by
  unfold Engines.coverNotice
  simp; apply foldl_keeps Engines.ind; intros; split <;> simp

@[simp] theorem Engines.coverNotice_dest (e : Engines) (A : Ambient) (ds : List Nat) : (e.coverNotice A ds).dest = e.dest := by
  unfold Engines.coverNotice
  simp; apply foldl_keeps Engines.dest; intros; split <;> simp

@[simp] theorem Engines.ctxReady_ind (e : Engines) (A : Ambient) (l : Fin 16) (c : Fin 16) : (e.ctxReady A l c).ind = e.ind := by
  unfold Engines.ctxReady
  dsimp only; (repeat' split) <;> simp

@[simp] theorem Engines.ctxReady_dest (e : Engines) (A : Ambient) (l : Fin 16) (c : Fin 16) : (e.ctxReady A l c).dest = e.dest := by
  unfold Engines.ctxReady
  dsimp only; (repeat' split) <;> simp

@[simp] theorem Engines.ctxReady_timers (e : Engines) (A : Ambient) (l : Fin 16) (c : Fin 16) : (e.ctxReady A l c).timers = e.timers := by
  unfold Engines.ctxReady
  dsimp only; (repeat' split) <;> simp

@[simp] theorem Engines.ctxReady_out (e : Engines) (A : Ambient) (l : Fin 16) (c : Fin 16) : (e.ctxReady A l c).out = e.out := by
  unfold Engines.ctxReady
  dsimp only; (repeat' split) <;> simp

@[simp] theorem Engines.onset_ind (e : Engines) (A : Ambient) (d : Nat) (k : Fin 4) (cls : DisplayClass) : (e.onset A d k cls).ind = e.ind := by
  unfold Engines.onset
  split <;> simp

@[simp] theorem Engines.onset_play (e : Engines) (A : Ambient) (d : Nat) (k : Fin 4) (cls : DisplayClass) : (e.onset A d k cls).play = e.play := by
  unfold Engines.onset
  split <;> simp

@[simp] theorem Engines.uncover_ind (e : Engines) (d : Nat) : (e.uncover d).ind = e.ind := by
  unfold Engines.uncover
  simp

@[simp] theorem Engines.uncover_dest (e : Engines) (d : Nat) : (e.uncover d).dest = e.dest := by
  unfold Engines.uncover
  simp

@[simp] theorem Engines.uncover_play (e : Engines) (d : Nat) : (e.uncover d).play = e.play := by
  unfold Engines.uncover
  simp

@[simp] theorem Engines.uncover_timers (e : Engines) (d : Nat) : (e.uncover d).timers = e.timers := by
  unfold Engines.uncover
  simp

@[simp] theorem Engines.uncover_out (e : Engines) (d : Nat) : (e.uncover d).out = e.out := by
  unfold Engines.uncover
  simp

@[simp] theorem Engines.transfer_ind (e : Engines) (v : Vector OverrideSlot 4) (d : Nat) (k : Fin 4) :
    (e.transfer v d k).ind = e.ind := by
  unfold Engines.transfer
  simp

@[simp] theorem Engines.transfer_dest (e : Engines) (v : Vector OverrideSlot 4) (d : Nat) (k : Fin 4) :
    (e.transfer v d k).dest = e.dest := by
  unfold Engines.transfer
  simp

@[simp] theorem Engines.transfer_play (e : Engines) (v : Vector OverrideSlot 4) (d : Nat) (k : Fin 4) :
    (e.transfer v d k).play = e.play := by
  unfold Engines.transfer
  simp

@[simp] theorem Engines.transfer_timers (e : Engines) (v : Vector OverrideSlot 4) (d : Nat) (k : Fin 4) :
    (e.transfer v d k).timers = e.timers := by
  unfold Engines.transfer
  simp

@[simp] theorem Engines.transfer_out (e : Engines) (v : Vector OverrideSlot 4) (d : Nat) (k : Fin 4) :
    (e.transfer v d k).out = e.out := by
  unfold Engines.transfer
  simp

@[simp] theorem Engines.moveCover_ind (e : Engines) (A : Ambient) (v : Vector OverrideSlot 4) (d : Nat)
    (old new : Option (Fin 4)) (cls : DisplayClass) : (e.moveCover A v d old new cls).ind = e.ind := by
  unfold Engines.moveCover
  split <;> (try split) <;> simp

@[simp] theorem Engines.moveCover_play (e : Engines) (A : Ambient) (v : Vector OverrideSlot 4) (d : Nat)
    (old new : Option (Fin 4)) (cls : DisplayClass) : (e.moveCover A v d old new cls).play = e.play := by
  unfold Engines.moveCover
  split <;> (try split) <;> simp

@[simp] theorem Engines.coverEventFrom_ind (e : Engines) (A : Ambient) (v : Vector OverrideSlot 4) (ds : List Nat) :
    (e.coverEventFrom A v ds).ind = e.ind := by
  unfold Engines.coverEventFrom
  dsimp only; split <;> (try simp) <;> refine (foldl_keeps Engines.ind _ ?_ _ _).trans ?_ <;> intros <;> simp

@[simp] theorem Engines.coverEvent_ind (e : Engines) (A : Ambient) (ds : List Nat) : (e.coverEvent A ds).ind = e.ind :=
  Engines.coverEventFrom_ind e A _ ds

@[simp] theorem Engines.claimOverride_ind (e : Engines) (A : Ambient) (k : Fin 4) : (e.claimOverride A k).ind = e.ind := by
  unfold Engines.claimOverride
  split <;> simp

@[simp] theorem Engines.claimOverride_dest (e : Engines) (A : Ambient) (k : Fin 4) : (e.claimOverride A k).dest = e.dest := by
  unfold Engines.claimOverride
  split <;> simp

@[simp] theorem Engines.claimOverride_play (e : Engines) (A : Ambient) (k : Fin 4) : (e.claimOverride A k).play = e.play := by
  unfold Engines.claimOverride
  split <;> simp

@[simp] theorem Engines.settlePlace_ind (e : Engines) (A : Ambient) (k : Fin 4) : (e.settlePlace A k).ind = e.ind := by
  unfold Engines.settlePlace
  dsimp only; (repeat' split) <;> simp

@[simp] theorem Engines.settlePlace_dest (e : Engines) (A : Ambient) (k : Fin 4) : (e.settlePlace A k).dest = e.dest := by
  unfold Engines.settlePlace
  dsimp only; (repeat' split) <;> simp

@[simp] theorem Engines.settlePlace_play (e : Engines) (A : Ambient) (k : Fin 4) : (e.settlePlace A k).play = e.play := by
  unfold Engines.settlePlace
  dsimp only; (repeat' split) <;> simp

@[simp] theorem Engines.acceptSlot_ind (e : Engines) (A : Ambient) (k : Fin 4) (r : Rec4) : (e.acceptSlot A k r).ind = e.ind := by
  unfold Engines.acceptSlot
  simp; refine (foldl_keeps Engines.ind _ ?_ _ _).trans ?_ <;> intros <;> (try split) <;> (try simp)

@[simp] theorem Engines.languageReady_ind (e : Engines) (A : Ambient) (l : Fin 16) : (e.languageReady A l).ind = e.ind := by
  unfold Engines.languageReady
  dsimp only
  refine (foldl_keeps Engines.ind _ ?_ _ _).trans ((foldl_keeps Engines.ind _ ?_ _ _).trans (foldl_keeps Engines.ind _ ?_ _ _))
  · intros; simp
  · intros; split <;> simp
  · intros; simp

@[simp] theorem Engines.languageReady_dest (e : Engines) (A : Ambient) (l : Fin 16) : (e.languageReady A l).dest = e.dest := by
  unfold Engines.languageReady
  dsimp only
  refine (foldl_keeps Engines.dest _ ?_ _ _).trans ((foldl_keeps Engines.dest _ ?_ _ _).trans (foldl_keeps Engines.dest _ ?_ _ _))
  · intros; simp
  · intros; split <;> simp
  · intros; simp

@[simp] theorem Engines.languageReady_timers (e : Engines) (A : Ambient) (l : Fin 16) : (e.languageReady A l).timers = e.timers := by
  unfold Engines.languageReady
  dsimp only
  refine (foldl_keeps Engines.timers _ ?_ _ _).trans ((foldl_keeps Engines.timers _ ?_ _ _).trans (foldl_keeps Engines.timers _ ?_ _ _))
  · intros; simp
  · intros; split <;> simp
  · intros; simp

@[simp] theorem Engines.languageReady_out (e : Engines) (A : Ambient) (l : Fin 16) : (e.languageReady A l).out = e.out := by
  unfold Engines.languageReady
  dsimp only
  refine (foldl_keeps Engines.out _ ?_ _ _).trans ((foldl_keeps Engines.out _ ?_ _ _).trans (foldl_keeps Engines.out _ ?_ _ _))
  · intros; simp
  · intros; split <;> simp
  · intros; simp

@[simp] theorem Engines.rotateSlot_ind (e : Engines) (A : Ambient) (k : Fin 4) : (e.rotateSlot A k).ind = e.ind := by
  unfold Engines.rotateSlot
  simp

@[simp] theorem Engines.rotateSlot_dest (e : Engines) (A : Ambient) (k : Fin 4) : (e.rotateSlot A k).dest = e.dest := by
  unfold Engines.rotateSlot
  simp

@[simp] theorem Engines.rotateSlot_play (e : Engines) (A : Ambient) (k : Fin 4) : (e.rotateSlot A k).play = e.play := by
  unfold Engines.rotateSlot
  simp

@[simp] theorem Engines.rotateSlot_timers (e : Engines) (A : Ambient) (k : Fin 4) : (e.rotateSlot A k).timers = e.timers := by
  unfold Engines.rotateSlot
  simp

@[simp] theorem Engines.rotateSlot_out (e : Engines) (A : Ambient) (k : Fin 4) : (e.rotateSlot A k).out = e.out := by
  unfold Engines.rotateSlot
  simp

@[simp] theorem Engines.rederive_ind (e : Engines) (A : Ambient) : (e.rederive A).ind = e.ind := by
  unfold Engines.rederive
  dsimp only
  refine (foldl_keeps Engines.ind _ ?_ _ _).trans ?_
  · intros; simp
  · rw [Engines.coverEvent_ind]
    apply foldl_keeps Engines.ind
    intros; simp

@[simp] theorem Engines.rehandPrompts_ind (e : Engines)  : (e.rehandPrompts).ind = e.ind := by
  unfold Engines.rehandPrompts
  apply foldl_keeps Engines.ind; intros; simp

@[simp] theorem Engines.rehandPrompts_dest (e : Engines)  : (e.rehandPrompts).dest = e.dest := by
  unfold Engines.rehandPrompts
  apply foldl_keeps Engines.dest; intros; simp

@[simp] theorem Engines.rehandPrompts_play (e : Engines)  : (e.rehandPrompts).play = e.play := by
  unfold Engines.rehandPrompts
  apply foldl_keeps Engines.play; intros; simp

@[simp] theorem Engines.rehandPrompts_timers (e : Engines)  : (e.rehandPrompts).timers = e.timers := by
  unfold Engines.rehandPrompts
  apply foldl_keeps Engines.timers; intros; simp

@[simp] theorem Engines.rehandPrompts_out (e : Engines)  : (e.rehandPrompts).out = e.out := by
  unfold Engines.rehandPrompts
  apply foldl_keeps Engines.out; intros; simp

@[simp] theorem Engines.endLantern_dest (e : Engines) (c : Fin 48) : (e.endLantern c).dest = e.dest := by
  unfold Engines.endLantern
  dsimp only; (repeat' split) <;> simp

@[simp] theorem Engines.endLantern_face (e : Engines) (c : Fin 48) : (e.endLantern c).face = e.face := by
  unfold Engines.endLantern
  dsimp only; (repeat' split) <;> simp

@[simp] theorem Engines.endLantern_play (e : Engines) (c : Fin 48) : (e.endLantern c).play = e.play := by
  unfold Engines.endLantern
  dsimp only; (repeat' split) <;> simp

@[simp] theorem Engines.endLantern_link (e : Engines) (c : Fin 48) : (e.endLantern c).link = e.link := by
  unfold Engines.endLantern
  dsimp only; (repeat' split) <;> simp

@[simp] theorem Engines.endLantern_out (e : Engines) (c : Fin 48) : (e.endLantern c).out = e.out := by
  unfold Engines.endLantern
  dsimp only; (repeat' split) <;> simp

@[simp] theorem Engines.claimLantern_dest (e : Engines) (A : Ambient) (c : Fin 48) (g : Rec8) (l : Nat) : (e.claimLantern A c g l).dest = e.dest := by
  unfold Engines.claimLantern
  split
  · rfl
  · split <;> rfl

@[simp] theorem Engines.claimLantern_face (e : Engines) (A : Ambient) (c : Fin 48) (g : Rec8) (l : Nat) : (e.claimLantern A c g l).face = e.face := by
  unfold Engines.claimLantern
  split
  · rfl
  · split <;> rfl

@[simp] theorem Engines.claimLantern_play (e : Engines) (A : Ambient) (c : Fin 48) (g : Rec8) (l : Nat) : (e.claimLantern A c g l).play = e.play := by
  unfold Engines.claimLantern
  split
  · rfl
  · split <;> rfl

@[simp] theorem Engines.claimLantern_link (e : Engines) (A : Ambient) (c : Fin 48) (g : Rec8) (l : Nat) : (e.claimLantern A c g l).link = e.link := by
  unfold Engines.claimLantern
  split
  · rfl
  · split <;> rfl

@[simp] theorem Engines.claimGong_dest (e : Engines) (A : Ambient) (c : Fin 48) (dir : Arrow) (l : Nat) : (e.claimGong A c dir l).dest = e.dest := by
  unfold Engines.claimGong
  split <;> simp

@[simp] theorem Engines.claimGong_face (e : Engines) (A : Ambient) (c : Fin 48) (dir : Arrow) (l : Nat) : (e.claimGong A c dir l).face = e.face := by
  unfold Engines.claimGong
  split <;> simp

@[simp] theorem Engines.claimGong_play (e : Engines) (A : Ambient) (c : Fin 48) (dir : Arrow) (l : Nat) : (e.claimGong A c dir l).play = e.play := by
  unfold Engines.claimGong
  split <;> simp

@[simp] theorem Engines.claimGong_link (e : Engines) (A : Ambient) (c : Fin 48) (dir : Arrow) (l : Nat) : (e.claimGong A c dir l).link = e.link := by
  unfold Engines.claimGong
  split <;> simp

@[simp] theorem Engines.startSignals_dest (e : Engines) (A : Ambient) (c : Fin 48) (r : Rec4) (g : Fin 8) : (e.startSignals A c r g).dest = e.dest := by
  unfold Engines.startSignals
  split <;> simp

@[simp] theorem Engines.startSignals_face (e : Engines) (A : Ambient) (c : Fin 48) (r : Rec4) (g : Fin 8) : (e.startSignals A c r g).face = e.face := by
  unfold Engines.startSignals
  split <;> simp

@[simp] theorem Engines.startSignals_play (e : Engines) (A : Ambient) (c : Fin 48) (r : Rec4) (g : Fin 8) : (e.startSignals A c r g).play = e.play := by
  unfold Engines.startSignals
  split <;> simp

@[simp] theorem Engines.startSignals_link (e : Engines) (A : Ambient) (c : Fin 48) (r : Rec4) (g : Fin 8) : (e.startSignals A c r g).link = e.link := by
  unfold Engines.startSignals
  split <;> simp

@[simp] theorem Engines.arrive_face (e : Engines) (A : Ambient) (c : Fin 48) (r : Rec4) (g : Fin 8) : (e.arrive A c r g).face = e.face := by
  unfold Engines.arrive
  split <;> simp

@[simp] theorem Engines.arrive_play (e : Engines) (A : Ambient) (c : Fin 48) (r : Rec4) (g : Fin 8) : (e.arrive A c r g).play = e.play := by
  unfold Engines.arrive
  split <;> simp

@[simp] theorem Engines.arrive_link (e : Engines) (A : Ambient) (c : Fin 48) (r : Rec4) (g : Fin 8) : (e.arrive A c r g).link = e.link := by
  unfold Engines.arrive
  split <;> simp

@[simp] theorem Engines.signalTests_face (e : Engines) (A : Ambient) (c : Fin 48) (r : Rec4) : (e.signalTests A c r).face = e.face := by
  unfold Engines.signalTests
  dsimp only; (repeat' split) <;> simp

@[simp] theorem Engines.signalTests_play (e : Engines) (A : Ambient) (c : Fin 48) (r : Rec4) : (e.signalTests A c r).play = e.play := by
  unfold Engines.signalTests
  dsimp only; (repeat' split) <;> simp

@[simp] theorem Engines.signalTests_link (e : Engines) (A : Ambient) (c : Fin 48) (r : Rec4) : (e.signalTests A c r).link = e.link := by
  unfold Engines.signalTests
  dsimp only; (repeat' split) <;> simp

@[simp] theorem Engines.stroke_dest (e : Engines) (c : Fin 48) (p : TimerPlace) : (e.stroke c p).dest = e.dest := by
  unfold Engines.stroke
  dsimp only
  split <;> try simp
  refine (foldl_keeps Engines.dest _ ?_ _ _).trans ?_ <;> intros <;> simp

@[simp] theorem Engines.stroke_play (e : Engines) (c : Fin 48) (p : TimerPlace) : (e.stroke c p).play = e.play := by
  unfold Engines.stroke
  dsimp only
  split <;> try simp
  refine (foldl_keeps Engines.play _ ?_ _ _).trans ?_ <;> intros <;> simp

@[simp] theorem Engines.stroke_timers (e : Engines) (c : Fin 48) (p : TimerPlace) : (e.stroke c p).timers = e.timers := by
  unfold Engines.stroke
  dsimp only
  split <;> try simp
  refine (foldl_keeps Engines.timers _ ?_ _ _).trans ?_ <;> intros <;> simp

@[simp] theorem Engines.stroke_out (e : Engines) (c : Fin 48) (p : TimerPlace) : (e.stroke c p).out = e.out := by
  unfold Engines.stroke
  dsimp only
  split <;> try simp
  refine (foldl_keeps Engines.out _ ?_ _ _).trans ?_ <;> intros <;> simp

@[simp] theorem Engines.openQueue_ind (e : Engines) (d : Nat) (cls : DisplayClass) : (e.openQueue d cls).ind = e.ind := by
  unfold Engines.openQueue
  split <;> simp

@[simp] theorem Engines.openQueue_face (e : Engines) (d : Nat) (cls : DisplayClass) : (e.openQueue d cls).face = e.face := by
  unfold Engines.openQueue
  split <;> simp

@[simp] theorem Engines.openQueue_play (e : Engines) (d : Nat) (cls : DisplayClass) : (e.openQueue d cls).play = e.play := by
  unfold Engines.openQueue
  split <;> simp

@[simp] theorem Engines.openQueue_link (e : Engines) (d : Nat) (cls : DisplayClass) : (e.openQueue d cls).link = e.link := by
  unfold Engines.openQueue
  split <;> simp

@[simp] theorem Engines.openQueue_timers (e : Engines) (d : Nat) (cls : DisplayClass) : (e.openQueue d cls).timers = e.timers := by
  unfold Engines.openQueue
  split <;> simp

@[simp] theorem Engines.openQueue_out (e : Engines) (d : Nat) (cls : DisplayClass) : (e.openQueue d cls).out = e.out := by
  unfold Engines.openQueue
  split <;> simp

@[simp] theorem Engines.cancelPoll_ind (e : Engines) (n : Fin 8) (drop : Nat) : (e.cancelPoll n drop).ind = e.ind := by
  unfold Engines.cancelPoll
  rfl

@[simp] theorem Engines.cancelPoll_dest (e : Engines) (n : Fin 8) (drop : Nat) : (e.cancelPoll n drop).dest = e.dest := by
  unfold Engines.cancelPoll
  rfl

@[simp] theorem Engines.cancelPoll_face (e : Engines) (n : Fin 8) (drop : Nat) : (e.cancelPoll n drop).face = e.face := by
  unfold Engines.cancelPoll
  rfl

@[simp] theorem Engines.cancelPoll_play (e : Engines) (n : Fin 8) (drop : Nat) : (e.cancelPoll n drop).play = e.play := by
  unfold Engines.cancelPoll
  rfl

@[simp] theorem Engines.cancelPoll_timers (e : Engines) (n : Fin 8) (drop : Nat) : (e.cancelPoll n drop).timers = e.timers := by
  unfold Engines.cancelPoll
  rfl

@[simp] theorem Engines.cancelPoll_out (e : Engines) (n : Fin 8) (drop : Nat) : (e.cancelPoll n drop).out = e.out := by
  unfold Engines.cancelPoll
  rfl

@[simp] theorem Engines.cancelIfTerminal_ind (e : Engines) (A : Ambient) (d : Nat) (cls : DisplayClass) : (e.cancelIfTerminal A d cls).ind = e.ind := by
  unfold Engines.cancelIfTerminal
  split <;> simp

@[simp] theorem Engines.cancelIfTerminal_play (e : Engines) (A : Ambient) (d : Nat) (cls : DisplayClass) : (e.cancelIfTerminal A d cls).play = e.play := by
  unfold Engines.cancelIfTerminal
  split <;> simp

@[simp] theorem Engines.createDisplay_ind (e : Engines) (A : Ambient) (d : Nat) (r : Rec4) (cls : DisplayClass) : (e.createDisplay A d r cls).ind = e.ind := by
  unfold Engines.createDisplay
  simp

@[simp] theorem Engines.removeDisplay_ind (e : Engines) (A : Ambient) (d : Nat) : (e.removeDisplay A d).ind = e.ind := by
  unfold Engines.removeDisplay
  split <;> simp

@[simp] theorem Engines.rebuildFace_ind (e : Engines) (A : Ambient) (d : Nat) (r : Rec4) (cls old : DisplayClass) : (e.rebuildFace A d r cls old).ind = e.ind := by
  unfold Engines.rebuildFace
  simp only [Engines.targetNotice_ind, Engines.coverEvent_ind, Engines.updFace_ind]
  split <;> split <;> simp

@[simp] theorem Engines.rebindDisplay_ind (e : Engines) (A : Ambient) (d : Nat) (r : Rec4) (cls : DisplayClass) (f : Face) : (e.rebindDisplay A d r cls f).ind = e.ind := by
  unfold Engines.rebindDisplay
  dsimp only; (repeat' split) <;> simp

@[simp] theorem Engines.acceptRoster_ind (e : Engines) (A : Ambient) (d : Nat) (r : Rec4) : (e.acceptRoster A d r).ind = e.ind := by
  unfold Engines.acceptRoster
  dsimp only; (repeat' split) <;> simp

@[simp] theorem Engines.clearRoster_ind (e : Engines) (A : Ambient) : (e.clearRoster A).ind = e.ind := by
  unfold Engines.clearRoster
  simp; apply foldl_keeps Engines.ind; intros; simp

@[simp] theorem Engines.unpollAll_ind (e : Engines) (n : Fin 8) : (e.unpollAll n).ind = e.ind := by
  unfold Engines.unpollAll
  apply foldl_keeps Engines.ind; intros; simp

@[simp] theorem Engines.unpollAll_dest (e : Engines) (n : Fin 8) : (e.unpollAll n).dest = e.dest := by
  unfold Engines.unpollAll
  apply foldl_keeps Engines.dest; intros; simp

@[simp] theorem Engines.unpollAll_face (e : Engines) (n : Fin 8) : (e.unpollAll n).face = e.face := by
  unfold Engines.unpollAll
  apply foldl_keeps Engines.face; intros; simp

@[simp] theorem Engines.unpollAll_play (e : Engines) (n : Fin 8) : (e.unpollAll n).play = e.play := by
  unfold Engines.unpollAll
  apply foldl_keeps Engines.play; intros; simp

@[simp] theorem Engines.unpollAll_timers (e : Engines) (n : Fin 8) : (e.unpollAll n).timers = e.timers := by
  unfold Engines.unpollAll
  apply foldl_keeps Engines.timers; intros; simp

@[simp] theorem Engines.unpollAll_out (e : Engines) (n : Fin 8) : (e.unpollAll n).out = e.out := by
  unfold Engines.unpollAll
  apply foldl_keeps Engines.out; intros; simp

@[simp] theorem Engines.startLink_ind (e : Engines) (n : Fin 8) (r : Rec4) : (e.startLink n r).ind = e.ind := by
  unfold Engines.startLink
  simp

@[simp] theorem Engines.startLink_dest (e : Engines) (n : Fin 8) (r : Rec4) : (e.startLink n r).dest = e.dest := by
  unfold Engines.startLink
  simp

@[simp] theorem Engines.startLink_face (e : Engines) (n : Fin 8) (r : Rec4) : (e.startLink n r).face = e.face := by
  unfold Engines.startLink
  simp

@[simp] theorem Engines.startLink_play (e : Engines) (n : Fin 8) (r : Rec4) : (e.startLink n r).play = e.play := by
  unfold Engines.startLink
  simp

@[simp] theorem Engines.startLink_timers (e : Engines) (n : Fin 8) (r : Rec4) : (e.startLink n r).timers = e.timers := by
  unfold Engines.startLink
  simp

@[simp] theorem Engines.startLink_out (e : Engines) (n : Fin 8) (r : Rec4) : (e.startLink n r).out = e.out := by
  unfold Engines.startLink
  simp

@[simp] theorem Engines.stopLink_ind (e : Engines) (n : Fin 8) (r : Rec4) : (e.stopLink n r).ind = e.ind := by
  unfold Engines.stopLink
  simp; apply foldl_keeps Engines.ind; intros; simp

@[simp] theorem Engines.stopLink_dest (e : Engines) (n : Fin 8) (r : Rec4) : (e.stopLink n r).dest = e.dest := by
  unfold Engines.stopLink
  simp; apply foldl_keeps Engines.dest; intros; simp

@[simp] theorem Engines.stopLink_play (e : Engines) (n : Fin 8) (r : Rec4) : (e.stopLink n r).play = e.play := by
  unfold Engines.stopLink
  simp; apply foldl_keeps Engines.play; intros; simp

@[simp] theorem Engines.stopLink_timers (e : Engines) (n : Fin 8) (r : Rec4) : (e.stopLink n r).timers = e.timers := by
  unfold Engines.stopLink
  simp; apply foldl_keeps Engines.timers; intros; simp

@[simp] theorem Engines.stopLink_out (e : Engines) (n : Fin 8) (r : Rec4) : (e.stopLink n r).out = e.out := by
  unfold Engines.stopLink
  simp; apply foldl_keeps Engines.out; intros; simp

@[simp] theorem Engines.recycleLink_ind (e : Engines) (n : Fin 8) (r : Rec4) : (e.recycleLink n r).ind = e.ind := by
  unfold Engines.recycleLink
  dsimp only; (repeat' split) <;> simp

@[simp] theorem Engines.recycleLink_dest (e : Engines) (n : Fin 8) (r : Rec4) : (e.recycleLink n r).dest = e.dest := by
  unfold Engines.recycleLink
  dsimp only; (repeat' split) <;> simp

@[simp] theorem Engines.recycleLink_face (e : Engines) (n : Fin 8) (r : Rec4) : (e.recycleLink n r).face = e.face := by
  unfold Engines.recycleLink
  dsimp only; (repeat' split) <;> simp

@[simp] theorem Engines.recycleLink_play (e : Engines) (n : Fin 8) (r : Rec4) : (e.recycleLink n r).play = e.play := by
  unfold Engines.recycleLink
  dsimp only; (repeat' split) <;> simp

@[simp] theorem Engines.recycleLink_timers (e : Engines) (n : Fin 8) (r : Rec4) : (e.recycleLink n r).timers = e.timers := by
  unfold Engines.recycleLink
  dsimp only; (repeat' split) <;> simp

@[simp] theorem Engines.recycleLink_out (e : Engines) (n : Fin 8) (r : Rec4) : (e.recycleLink n r).out = e.out := by
  unfold Engines.recycleLink
  dsimp only; (repeat' split) <;> simp

@[simp] theorem Engines.acceptLink_ind (e : Engines) (n : Fin 8) (r : Rec4) : (e.acceptLink n r).ind = e.ind := by
  unfold Engines.acceptLink
  split <;> simp

@[simp] theorem Engines.acceptLink_dest (e : Engines) (n : Fin 8) (r : Rec4) : (e.acceptLink n r).dest = e.dest := by
  unfold Engines.acceptLink
  split <;> simp

@[simp] theorem Engines.acceptLink_play (e : Engines) (n : Fin 8) (r : Rec4) : (e.acceptLink n r).play = e.play := by
  unfold Engines.acceptLink
  split <;> simp

@[simp] theorem Engines.acceptLink_timers (e : Engines) (n : Fin 8) (r : Rec4) : (e.acceptLink n r).timers = e.timers := by
  unfold Engines.acceptLink
  split <;> simp

@[simp] theorem Engines.acceptLink_out (e : Engines) (n : Fin 8) (r : Rec4) : (e.acceptLink n r).out = e.out := by
  unfold Engines.acceptLink
  split <;> simp

@[simp] theorem Engines.goodAnswer_ind (e : Engines) (A : Ambient) (n : Fin 8) (drop d fault : Nat) : (e.goodAnswer A n drop d fault).ind = e.ind := by
  unfold Engines.goodAnswer
  dsimp only; (repeat' split) <;> simp

@[simp] theorem Engines.goodAnswer_dest (e : Engines) (A : Ambient) (n : Fin 8) (drop d fault : Nat) : (e.goodAnswer A n drop d fault).dest = e.dest := by
  unfold Engines.goodAnswer
  dsimp only; (repeat' split) <;> simp

@[simp] theorem Engines.goodAnswer_face (e : Engines) (A : Ambient) (n : Fin 8) (drop d fault : Nat) : (e.goodAnswer A n drop d fault).face = e.face := by
  unfold Engines.goodAnswer
  dsimp only; (repeat' split) <;> simp

@[simp] theorem Engines.goodAnswer_play (e : Engines) (A : Ambient) (n : Fin 8) (drop d fault : Nat) : (e.goodAnswer A n drop d fault).play = e.play := by
  unfold Engines.goodAnswer
  dsimp only; (repeat' split) <;> simp

@[simp] theorem Engines.goodAnswer_timers (e : Engines) (A : Ambient) (n : Fin 8) (drop d fault : Nat) : (e.goodAnswer A n drop d fault).timers = e.timers := by
  unfold Engines.goodAnswer
  dsimp only; (repeat' split) <;> simp

@[simp] theorem Engines.miss_ind (e : Engines) (A : Ambient) (n : Fin 8) (drop d : Nat) : (e.miss A n drop d).ind = e.ind := by
  unfold Engines.miss
  dsimp only; (repeat' split) <;> simp

@[simp] theorem Engines.miss_dest (e : Engines) (A : Ambient) (n : Fin 8) (drop d : Nat) : (e.miss A n drop d).dest = e.dest := by
  unfold Engines.miss
  dsimp only; (repeat' split) <;> simp

@[simp] theorem Engines.miss_play (e : Engines) (A : Ambient) (n : Fin 8) (drop d : Nat) : (e.miss A n drop d).play = e.play := by
  unfold Engines.miss
  dsimp only; (repeat' split) <;> simp

@[simp] theorem Engines.miss_timers (e : Engines) (A : Ambient) (n : Fin 8) (drop d : Nat) : (e.miss A n drop d).timers = e.timers := by
  unfold Engines.miss
  dsimp only; (repeat' split) <;> simp

@[simp] theorem Engines.createEntry_ind (e : Engines) (A : Ambient) (d : Nat) (f : Face) (k : Keyed) (t p : Nat) : (e.createEntry A d f k t p).ind = e.ind := by
  unfold Engines.createEntry
  simp

@[simp] theorem Engines.createEntry_play (e : Engines) (A : Ambient) (d : Nat) (f : Face) (k : Keyed) (t p : Nat) : (e.createEntry A d f k t p).play = e.play := by
  unfold Engines.createEntry
  simp

@[simp] theorem Engines.refuseEntry_ind (e : Engines) (A : Ambient) (d : Nat) (k : Keyed) (why : Reason) : (e.refuseEntry A d k why).ind = e.ind := by
  unfold Engines.refuseEntry
  simp

@[simp] theorem Engines.refuseEntry_play (e : Engines) (A : Ambient) (d : Nat) (k : Keyed) (why : Reason) : (e.refuseEntry A d k why).play = e.play := by
  unfold Engines.refuseEntry
  simp

@[simp] theorem Engines.checkEntry_ind (e : Engines) (A : Ambient) (d : Nat) (f : Face) (k : Keyed) : (e.checkEntry A d f k).ind = e.ind := by
  unfold Engines.checkEntry
  dsimp only; (repeat' split) <;> simp

@[simp] theorem Engines.checkEntry_play (e : Engines) (A : Ambient) (d : Nat) (f : Face) (k : Keyed) : (e.checkEntry A d f k).play = e.play := by
  unfold Engines.checkEntry
  dsimp only; (repeat' split) <;> simp

@[simp] theorem Engines.takeEntry_ind (e : Engines) (A : Ambient) (d : Nat) (k : Keyed) : (e.takeEntry A d k).ind = e.ind := by
  unfold Engines.takeEntry
  dsimp only; (repeat' split) <;> simp

@[simp] theorem Engines.takeEntry_play (e : Engines) (A : Ambient) (d : Nat) (k : Keyed) : (e.takeEntry A d k).play = e.play := by
  unfold Engines.takeEntry
  dsimp only; (repeat' split) <;> simp

@[simp] theorem Engines.offerEntry_ind (e : Engines) (A : Ambient) (d : Nat) (t : Bool) (k : Keyed) : (e.offerEntry A d t k).ind = e.ind := by
  unfold Engines.offerEntry
  split
  · rfl
  · split <;> simp

@[simp] theorem Engines.offerEntry_play (e : Engines) (A : Ambient) (d : Nat) (t : Bool) (k : Keyed) : (e.offerEntry A d t k).play = e.play := by
  unfold Engines.offerEntry
  split
  · rfl
  · split <;> simp

@[simp] theorem Engines.giveStop_ind (e : Engines) (A : Ambient) (c : Fin 48) (f t : Nat) : (e.giveStop A c f t).ind = e.ind := by
  unfold Engines.giveStop
  dsimp only; (repeat' split) <;> simp

@[simp] theorem Engines.assignEntry_ind (e : Engines) (A : Ambient) (x : Entry) (r : Rec4) (c : Fin 48) (cr : Rec4) : (e.assignEntry A x r c cr).ind = e.ind := by
  unfold Engines.assignEntry
  simp

@[simp] theorem Engines.declineEntry_ind (e : Engines) (A : Ambient) (x : Entry) : (e.declineEntry A x).ind = e.ind := by
  unfold Engines.declineEntry
  simp

@[simp] theorem Engines.declineEntry_play (e : Engines) (A : Ambient) (x : Entry) : (e.declineEntry A x).play = e.play := by
  unfold Engines.declineEntry
  simp

@[simp] theorem Engines.judgeAssign_ind (e : Engines) (A : Ambient) (r : Rec4) : (e.judgeAssign A r).ind = e.ind := by
  unfold Engines.judgeAssign
  dsimp only; (repeat' split) <;> simp

@[simp] theorem Engines.expireEntry_ind (e : Engines) (A : Ambient) (p : TimerPlace) : (e.expireEntry A p).ind = e.ind := by
  unfold Engines.expireEntry
  split <;> simp

@[simp] theorem Engines.expireEntry_play (e : Engines) (A : Ambient) (p : TimerPlace) : (e.expireEntry A p).play = e.play := by
  unfold Engines.expireEntry
  split <;> simp

@[simp] theorem Engines.expirePrompt_ind (e : Engines) (d : Nat) (p : TimerPlace) : (e.expirePrompt d p).ind = e.ind := by
  unfold Engines.expirePrompt
  simp

@[simp] theorem Engines.expirePrompt_play (e : Engines) (d : Nat) (p : TimerPlace) : (e.expirePrompt d p).play = e.play := by
  unfold Engines.expirePrompt
  simp

@[simp] theorem Engines.expirePrompt_timers (e : Engines) (d : Nat) (p : TimerPlace) : (e.expirePrompt d p).timers = e.timers := by
  unfold Engines.expirePrompt
  simp

@[simp] theorem Engines.expirePrompt_out (e : Engines) (d : Nat) (p : TimerPlace) : (e.expirePrompt d p).out = e.out := by
  unfold Engines.expirePrompt
  simp

@[simp] theorem Engines.startCtx_ind (e : Engines) (A : Ambient) (c : Fin 16) (r : Rec4) : (e.startCtx A c r).ind = e.ind := by
  unfold Engines.startCtx
  dsimp only; (repeat' split) <;> simp

@[simp] theorem Engines.startCtx_dest (e : Engines) (A : Ambient) (c : Fin 16) (r : Rec4) : (e.startCtx A c r).dest = e.dest := by
  unfold Engines.startCtx
  dsimp only; (repeat' split) <;> simp

@[simp] theorem Engines.stopCtx_ind (e : Engines) (c : Fin 16) (r : Rec4) : (e.stopCtx c r).ind = e.ind := by
  unfold Engines.stopCtx
  simp

@[simp] theorem Engines.stopCtx_dest (e : Engines) (c : Fin 16) (r : Rec4) : (e.stopCtx c r).dest = e.dest := by
  unfold Engines.stopCtx
  simp

@[simp] theorem Engines.stopCtx_out (e : Engines) (c : Fin 16) (r : Rec4) : (e.stopCtx c r).out = e.out := by
  unfold Engines.stopCtx
  simp

@[simp] theorem Engines.acceptPlayout_ind (e : Engines) (A : Ambient) (c : Fin 16) (r : Rec4) : (e.acceptPlayout A c r).ind = e.ind := by
  unfold Engines.acceptPlayout
  split <;> simp

@[simp] theorem Engines.acceptPlayout_dest (e : Engines) (A : Ambient) (c : Fin 16) (r : Rec4) : (e.acceptPlayout A c r).dest = e.dest := by
  unfold Engines.acceptPlayout
  split <;> simp

@[simp] theorem Engines.completeCtx_ind (e : Engines) (A : Ambient) (c : Fin 16) (r : Rec4) : (e.completeCtx A c r).ind = e.ind := by
  unfold Engines.completeCtx
  simp

@[simp] theorem Engines.completeCtx_dest (e : Engines) (A : Ambient) (c : Fin 16) (r : Rec4) : (e.completeCtx A c r).dest = e.dest := by
  unfold Engines.completeCtx
  simp

@[simp] theorem Engines.expireDwell_ind (e : Engines) (A : Ambient) (c : Fin 16) (p : TimerPlace) : (e.expireDwell A c p).ind = e.ind := by
  unfold Engines.expireDwell
  dsimp only; (repeat' split) <;> simp

@[simp] theorem Engines.expireDwell_dest (e : Engines) (A : Ambient) (c : Fin 16) (p : TimerPlace) : (e.expireDwell A c p).dest = e.dest := by
  unfold Engines.expireDwell
  dsimp only; (repeat' split) <;> simp

@[simp] theorem Engines.clearPlayout_ind (e : Engines)  : (e.clearPlayout).ind = e.ind := by
  unfold Engines.clearPlayout
  simp; apply foldl_keeps Engines.ind; intros; simp

@[simp] theorem Engines.clearPlayout_dest (e : Engines)  : (e.clearPlayout).dest = e.dest := by
  unfold Engines.clearPlayout
  simp; apply foldl_keeps Engines.dest; intros; simp

@[simp] theorem Engines.clearPlayout_out (e : Engines)  : (e.clearPlayout).out = e.out := by
  unfold Engines.clearPlayout
  simp; apply foldl_keeps Engines.out; intros; simp

@[simp] theorem Engines.send_ind (e : Engines) (n : Fin 8) (fl : Option Nat) (b : Option Nat → Block) : (e.send n fl b).ind = e.ind := by
  unfold Engines.send
  rfl

@[simp] theorem Engines.send_dest (e : Engines) (n : Fin 8) (fl : Option Nat) (b : Option Nat → Block) : (e.send n fl b).dest = e.dest := by
  unfold Engines.send
  rfl

@[simp] theorem Engines.send_face (e : Engines) (n : Fin 8) (fl : Option Nat) (b : Option Nat → Block) : (e.send n fl b).face = e.face := by
  unfold Engines.send
  rfl

@[simp] theorem Engines.send_play (e : Engines) (n : Fin 8) (fl : Option Nat) (b : Option Nat → Block) : (e.send n fl b).play = e.play := by
  unfold Engines.send
  rfl

@[simp] theorem Engines.send_timers (e : Engines) (n : Fin 8) (fl : Option Nat) (b : Option Nat → Block) : (e.send n fl b).timers = e.timers := by
  unfold Engines.send
  rfl

@[simp] theorem Engines.send_out (e : Engines) (n : Fin 8) (fl : Option Nat) (b : Option Nat → Block) : (e.send n fl b).out = e.out := by
  unfold Engines.send
  rfl

@[simp] theorem Engines.sendNext_ind (e : Engines) (n : Fin 8) (fr : Frame) : (e.sendNext n fr).ind = e.ind := by
  unfold Engines.sendNext
  rfl

@[simp] theorem Engines.sendNext_dest (e : Engines) (n : Fin 8) (fr : Frame) : (e.sendNext n fr).dest = e.dest := by
  unfold Engines.sendNext
  rfl

@[simp] theorem Engines.sendNext_face (e : Engines) (n : Fin 8) (fr : Frame) : (e.sendNext n fr).face = e.face := by
  unfold Engines.sendNext
  rfl

@[simp] theorem Engines.sendNext_play (e : Engines) (n : Fin 8) (fr : Frame) : (e.sendNext n fr).play = e.play := by
  unfold Engines.sendNext
  rfl

@[simp] theorem Engines.sendNext_timers (e : Engines) (n : Fin 8) (fr : Frame) : (e.sendNext n fr).timers = e.timers := by
  unfold Engines.sendNext
  rfl

@[simp] theorem Engines.sendNext_out (e : Engines) (n : Fin 8) (fr : Frame) : (e.sendNext n fr).out = e.out := by
  unfold Engines.sendNext
  rfl

@[simp] theorem Engines.sendAbort_ind (e : Engines) (n : Fin 8) (fr : Frame) : (e.sendAbort n fr).ind = e.ind := by
  unfold Engines.sendAbort
  rfl

@[simp] theorem Engines.sendAbort_dest (e : Engines) (n : Fin 8) (fr : Frame) : (e.sendAbort n fr).dest = e.dest := by
  unfold Engines.sendAbort
  rfl

@[simp] theorem Engines.sendAbort_face (e : Engines) (n : Fin 8) (fr : Frame) : (e.sendAbort n fr).face = e.face := by
  unfold Engines.sendAbort
  rfl

@[simp] theorem Engines.sendAbort_play (e : Engines) (n : Fin 8) (fr : Frame) : (e.sendAbort n fr).play = e.play := by
  unfold Engines.sendAbort
  rfl

@[simp] theorem Engines.sendAbort_timers (e : Engines) (n : Fin 8) (fr : Frame) : (e.sendAbort n fr).timers = e.timers := by
  unfold Engines.sendAbort
  rfl

@[simp] theorem Engines.sendAbort_out (e : Engines) (n : Fin 8) (fr : Frame) : (e.sendAbort n fr).out = e.out := by
  unfold Engines.sendAbort
  rfl

@[simp] theorem Engines.buildFrame_ind (e : Engines) (f : FetchUnit) (n : Fin 8) (d : Nat) (codes : List Code) : (e.buildFrame f n d codes).ind = e.ind := by
  unfold Engines.buildFrame
  split <;> simp

@[simp] theorem Engines.buildFrame_dest (e : Engines) (f : FetchUnit) (n : Fin 8) (d : Nat) (codes : List Code) : (e.buildFrame f n d codes).dest = e.dest := by
  unfold Engines.buildFrame
  split <;> simp

@[simp] theorem Engines.buildFrame_play (e : Engines) (f : FetchUnit) (n : Fin 8) (d : Nat) (codes : List Code) : (e.buildFrame f n d codes).play = e.play := by
  unfold Engines.buildFrame
  split <;> simp

@[simp] theorem Engines.buildFrame_timers (e : Engines) (f : FetchUnit) (n : Fin 8) (d : Nat) (codes : List Code) : (e.buildFrame f n d codes).timers = e.timers := by
  unfold Engines.buildFrame
  split <;> simp

@[simp] theorem Engines.buildFrame_out (e : Engines) (f : FetchUnit) (n : Fin 8) (d : Nat) (codes : List Code) : (e.buildFrame f n d codes).out = e.out := by
  unfold Engines.buildFrame
  split <;> simp

@[simp] theorem Engines.completeFrame_ind (e : Engines) (n : Fin 8) (fr : Frame) : (e.completeFrame n fr).ind = e.ind := by
  unfold Engines.completeFrame
  split <;> simp

@[simp] theorem Engines.completeFrame_dest (e : Engines) (n : Fin 8) (fr : Frame) : (e.completeFrame n fr).dest = e.dest := by
  unfold Engines.completeFrame
  split <;> simp

@[simp] theorem Engines.completeFrame_play (e : Engines) (n : Fin 8) (fr : Frame) : (e.completeFrame n fr).play = e.play := by
  unfold Engines.completeFrame
  split <;> simp

@[simp] theorem Engines.completeFrame_timers (e : Engines) (n : Fin 8) (fr : Frame) : (e.completeFrame n fr).timers = e.timers := by
  unfold Engines.completeFrame
  split <;> simp

@[simp] theorem Engines.completeFrame_out (e : Engines) (n : Fin 8) (fr : Frame) : (e.completeFrame n fr).out = e.out := by
  unfold Engines.completeFrame
  split <;> simp

@[simp] theorem Engines.abortFrame_ind (e : Engines) (n : Fin 8) (fr : Frame) : (e.abortFrame n fr).ind = e.ind := by
  unfold Engines.abortFrame
  rfl

@[simp] theorem Engines.abortFrame_dest (e : Engines) (n : Fin 8) (fr : Frame) : (e.abortFrame n fr).dest = e.dest := by
  unfold Engines.abortFrame
  rfl

@[simp] theorem Engines.abortFrame_face (e : Engines) (n : Fin 8) (fr : Frame) : (e.abortFrame n fr).face = e.face := by
  unfold Engines.abortFrame
  rfl

@[simp] theorem Engines.abortFrame_play (e : Engines) (n : Fin 8) (fr : Frame) : (e.abortFrame n fr).play = e.play := by
  unfold Engines.abortFrame
  rfl

@[simp] theorem Engines.abortFrame_timers (e : Engines) (n : Fin 8) (fr : Frame) : (e.abortFrame n fr).timers = e.timers := by
  unfold Engines.abortFrame
  rfl

@[simp] theorem Engines.abortFrame_out (e : Engines) (n : Fin 8) (fr : Frame) : (e.abortFrame n fr).out = e.out := by
  unfold Engines.abortFrame
  rfl

@[simp] theorem Engines.serve_ind (e : Engines) (n : Fin 8) : (e.serve n).ind = e.ind := by
  unfold Engines.serve
  rfl

@[simp] theorem Engines.serve_dest (e : Engines) (n : Fin 8) : (e.serve n).dest = e.dest := by
  unfold Engines.serve
  rfl

@[simp] theorem Engines.serve_face (e : Engines) (n : Fin 8) : (e.serve n).face = e.face := by
  unfold Engines.serve
  rfl

@[simp] theorem Engines.serve_play (e : Engines) (n : Fin 8) : (e.serve n).play = e.play := by
  unfold Engines.serve
  rfl

@[simp] theorem Engines.serve_timers (e : Engines) (n : Fin 8) : (e.serve n).timers = e.timers := by
  unfold Engines.serve
  rfl

@[simp] theorem Engines.serve_out (e : Engines) (n : Fin 8) : (e.serve n).out = e.out := by
  unfold Engines.serve
  rfl

end Sys2Proof.Machine
end

