-- ==== Sys2Proof/Laws/Timers.lean ====
section
/-! SUPPORT. What the operations on the timer list and the pending report queue can do. -/

namespace Sys2Proof.Machine

theorem insertPlace_length (l : List TimerPlace) (p : TimerPlace) : (insertPlace l p).length = l.length + 1 := by
  induction l with
  | nil => rfl
  | cons q qs ih => unfold insertPlace; split <;> simp [ih]

/-- A place put into the list is the new one or was there. -/
theorem mem_insertPlace (l : List TimerPlace) (p q : TimerPlace) : q ∈ insertPlace l p ↔ q = p ∨ q ∈ l := by
  induction l with
  | nil => simp [insertPlace]
  | cons x xs ih =>
    unfold insertPlace
    split
    · simp
    · simp only [List.mem_cons, ih]
      constructor <;> rintro (h | h | h) <;> simp [h]

/-- R146: a claim is accepted with a new place in the list while there is room, and refused with nothing changed
otherwise. -/
theorem Timers.claim_spec (tm : Timers) (kind : PlaceKind) (owner : Owner) (expiry : BitVec 32) (interval count : Nat) :
    (tm.list.length < Config.timerPlaces ∧
      tm.claim kind owner expiry interval count =
        (⟨insertPlace tm.list ⟨tm.nextId, kind, owner, expiry, interval, count⟩, tm.nextId + 1⟩, some tm.nextId)) ∨
    (Config.timerPlaces ≤ tm.list.length ∧ tm.claim kind owner expiry interval count = (tm, none)) := by
  unfold Timers.claim
  split
  · exact Or.inl ⟨by assumption, rfl⟩
  · exact Or.inr ⟨by omega, rfl⟩

theorem Timers.claim_length (tm : Timers) (kind : PlaceKind) (owner : Owner) (expiry : BitVec 32) (interval count : Nat)
    (h : tm.list.length ≤ Config.timerPlaces) :
    (tm.claim kind owner expiry interval count).1.list.length ≤ Config.timerPlaces := by
  rcases tm.claim_spec kind owner expiry interval count with ⟨h', e⟩ | ⟨_, e⟩
  · rw [e]; simp only [insertPlace_length]; omega
  · rw [e]; exact h

theorem Timers.release_length (tm : Timers) (id : Nat) : (tm.release id).list.length ≤ tm.list.length :=
  List.length_filter_le _ _

theorem Timers.releaseOpt_length (tm : Timers) (id : Option Nat) : (tm.releaseOpt id).list.length ≤ tm.list.length := by
  cases id with
  | none => exact Nat.le_refl _
  | some id => exact tm.release_length id

theorem Timers.deliver_length (tm : Timers) : tm.deliver.list.length ≤ tm.list.length := by
  unfold Timers.deliver
  split
  · exact Nat.le_refl _
  · rename_i p ps h
    split <;> simp [insertPlace_length, h]

/-- R175: a report joins the queue with the tally kept, or leaves the queue as it was and folds. -/
theorem Outbox.report_spec (o : Outbox) (now : BitVec 32) (e : Event) :
    (o.queue.length < Config.reportPlaces ∧ o.tally = 0 ∧ o.report now e = { o with queue := o.queue ++ [⟨e, now⟩] }) ∨
    (¬(o.queue.length < Config.reportPlaces ∧ o.tally = 0) ∧
      o.report now e = { o with tally := min (o.tally + 1) 65535 }) := by
  unfold Outbox.report
  split
  · rename_i h; exact Or.inl ⟨h.1, h.2, rfl⟩
  · rename_i h; exact Or.inr ⟨h, rfl⟩

theorem Outbox.report_length (o : Outbox) (now : BitVec 32) (e : Event) (h : o.queue.length ≤ Config.reportPlaces) :
    (o.report now e).queue.length ≤ Config.reportPlaces := by
  rcases o.report_spec now e with ⟨h', _, r⟩ | ⟨_, r⟩
  · rw [r]; simp; omega
  · rw [r]; exact h

theorem Outbox.report_tally (o : Outbox) (now : BitVec 32) (e : Event) (h : o.tally ≤ 65535) :
    (o.report now e).tally ≤ 65535 := by
  rcases o.report_spec now e with ⟨_, _, r⟩ | ⟨_, r⟩
  · rw [r]; exact h
  · rw [r]; simp only []; omega

theorem Outbox.pop_length (o : Outbox) (now : BitVec 32) (h : o.queue.length ≤ Config.reportPlaces) :
    (o.pop now).queue.length ≤ Config.reportPlaces := by
  have h8 : Config.reportPlaces = 8 := rfl
  unfold Outbox.pop
  split <;> simp <;> omega

theorem Outbox.pop_tally (o : Outbox) (now : BitVec 32) : (o.pop now).tally = 0 := by
  unfold Outbox.pop
  split <;> simp_all

end Sys2Proof.Machine
end

