-- ==== Sys2Proof/Laws/Capacity.lean ====
section
/-! SUPPORT. Every operation of the engines keeps the capacities of their tables. -/

namespace Sys2Proof.Machine

theorem foldl_inv {α β : Type} (P : β → Prop) (op : β → α → β) (h : ∀ b a, P b → P (op b a)) (l : List α) (b : β)
    (hb : P b) : P (l.foldl op b) := by
  induction l generalizing b with
  | nil => exact hb
  | cons a l ih => exact ih _ (h _ _ hb)

theorem foldl_inv_mem {α β : Type} (P : β → Prop) (op : β → α → β) (l : List α) (h : ∀ b, ∀ a ∈ l, P b → P (op b a))
    (b : β) (hb : P b) : P (l.foldl op b) := by
  induction l generalizing b with
  | nil => exact hb
  | cons a l ih =>
    exact ih (fun b x hx => h b x (List.mem_cons_of_mem _ hx)) _ (h _ _ List.mem_cons_self hb)

namespace Engines.WithinCapacity

/-- The capacities are those of the timer list, the reports and the destination tables. -/
theorem congr {e e' : Engines} (h : e.WithinCapacity) (ht : e'.timers = e.timers) (ho : e'.out = e.out)
    (hd : e'.dest = e.dest) : e'.WithinCapacity := by
  obtain ⟨h1, h2, h3, h4, h5, h6, h7, h8, h9⟩ := h
  constructor
  · rw [ht]; exact h1
  · rw [ho]; exact h2
  · rw [ho]; exact h3
  · rw [hd]; exact h4
  · rw [hd]; exact h5
  · rw [hd]; exact h6
  · rw [hd]; exact h7
  · intro c; have := h8 c; simp only [Engines.stopsOf] at this ⊢; rw [hd]; exact this
  · intro c; have := h9 c; simp only [Engines.stopsOf] at this ⊢; rw [hd]; exact this

/-- A change of the timer list alone. -/
theorem withTimers {e e' : Engines} (h : e.WithinCapacity) (ht : e'.timers.list.length ≤ Config.timerPlaces)
    (ho : e'.out = e.out) (hd : e'.dest = e.dest) : e'.WithinCapacity := by
  obtain ⟨h1, h2, h3, h4, h5, h6, h7, h8, h9⟩ := h
  constructor
  · exact ht
  · rw [ho]; exact h2
  · rw [ho]; exact h3
  · rw [hd]; exact h4
  · rw [hd]; exact h5
  · rw [hd]; exact h6
  · rw [hd]; exact h7
  · intro c; have := h8 c; simp only [Engines.stopsOf] at this ⊢; rw [hd]; exact this
  · intro c; have := h9 c; simp only [Engines.stopsOf] at this ⊢; rw [hd]; exact this

theorem report {e : Engines} (h : e.WithinCapacity) (A : Ambient) (ev : Event) : (e.report A ev).WithinCapacity :=
  ⟨h.timers, e.out.report_length _ _ h.reports, e.out.report_tally _ _ h.tally, h.entries, h.ticketLow, h.ticketHigh,
    h.prompts, h.stops, h.ordered⟩

theorem release {e : Engines} (h : e.WithinCapacity) (id : Option Nat) : (e.release id).WithinCapacity :=
  h.withTimers (Nat.le_trans (e.timers.releaseOpt_length id) h.timers) rfl rfl

theorem delivered {e : Engines} (h : e.WithinCapacity) : e.delivered.WithinCapacity :=
  h.withTimers (Nat.le_trans e.timers.deliver_length h.timers) rfl rfl

/-- The timer list after a claim whose answer is known. -/
theorem claim_le {e : Engines} (h : e.WithinCapacity) {kind : PlaceKind} {owner : Owner} {expiry : BitVec 32}
    {interval count : Nat} {tm : Timers} {id : Option Nat}
    (hc : e.timers.claim kind owner expiry interval count = (tm, id)) : tm.list.length ≤ Config.timerPlaces := by
  have := e.timers.claim_length kind owner expiry interval count h.timers
  rw [hc] at this
  exact this

theorem promptsOf_le {e : Engines} (h : e.WithinCapacity) (d : Nat) : (e.promptsOf d).length ≤ Config.promptPlaces := by
  unfold Engines.promptsOf
  have key : ∀ (t : Tab (List Prompt)), (∀ x ∈ t, x.2.length ≤ Config.promptPlaces) →
      ((t.get d).getD []).length ≤ Config.promptPlaces := by
    intro t ht
    induction t with
    | nil => simp [Tab.get]
    | cons y ys ih =>
      unfold Tab.get
      split
      · exact ht y List.mem_cons_self
      · exact ih fun x hx => ht x (List.mem_cons_of_mem _ hx)
  exact key _ h.prompts

theorem storePrompts {e : Engines} (h : e.WithinCapacity) (d : Nat) (q : List Prompt)
    (hq : q.length ≤ Config.promptPlaces) : (e.storePrompts d q).WithinCapacity := by
  refine ⟨h.timers, h.reports, h.tally, h.entries, h.ticketLow, h.ticketHigh, ?_, h.stops, h.ordered⟩
  have key : ∀ (t : Tab (List Prompt)), (∀ x ∈ t, x.2.length ≤ Config.promptPlaces) →
      ∀ x ∈ t.modify d (fun _ => q), x.2.length ≤ Config.promptPlaces := by
    intro t ht
    induction t with
    | nil => simp [Tab.modify]
    | cons y ys ih =>
      unfold Tab.modify
      split
      · intro x hx
        rcases List.mem_cons.1 hx with rfl | hx
        · exact hq
        · exact ht x (List.mem_cons_of_mem _ hx)
      · intro x hx
        rcases List.mem_cons.1 hx with rfl | hx
        · exact ht _ List.mem_cons_self
        · exact ih (fun x hx => ht x (List.mem_cons_of_mem _ hx)) x hx
  exact key _ h.prompts

theorem setStops {e : Engines} (h : e.WithinCapacity) (c : Fin 48) (l : List Stop)
    (hl : l.length ≤ Config.stopPlaces) (ho : stopsOrdered l) : (e.setStops c l).WithinCapacity := by
  refine ⟨h.timers, h.reports, h.tally, h.entries, h.ticketLow, h.ticketHigh, h.prompts, ?_, ?_⟩
  · intro c'
    have := h.stops c'
    simp only [Engines.stopsOf, Engines.setStops, Fin.getElem_fin, Vector.getElem_set] at this ⊢
    split
    · exact hl
    · exact this
  · intro c'
    have := h.ordered c'
    simp only [Engines.stopsOf, Engines.setStops, Fin.getElem_fin, Vector.getElem_set] at this ⊢
    split
    · exact ho
    · exact this

theorem stopsOrdered_nil : stopsOrdered [] := ⟨List.Pairwise.nil, by simp⟩

theorem stopsOrdered_filter {l : List Stop} (h : stopsOrdered l) (p : Stop → Bool) : stopsOrdered (l.filter p) :=
  ⟨h.1.filter p, fun x hx => h.2 x (List.mem_filter.1 hx).1⟩

theorem setTimers {e : Engines} (h : e.WithinCapacity) (tm : Timers) (ht : tm.list.length ≤ Config.timerPlaces) :
    (e.setTimers tm).WithinCapacity := h.withTimers ht rfl rfl

theorem setFaces {e : Engines} (h : e.WithinCapacity) (t : Tab Face) : (e.setFaces t).WithinCapacity :=
  h.congr rfl rfl rfl

theorem onSlot {e : Engines} (h : e.WithinCapacity) (k : Fin 4) (g : OverrideSlot → OverrideSlot) :
    (e.onSlot k g).WithinCapacity := h.congr rfl rfl rfl

theorem setDisplays {e : Engines} (h : e.WithinCapacity) (t : Tab Display) : (e.setDisplays t).WithinCapacity :=
  h.congr rfl rfl rfl

theorem setRoster {e : Engines} (h : e.WithinCapacity) (t : Tab Rec4) : (e.setRoster t).WithinCapacity :=
  h.congr rfl rfl rfl

theorem setPlay {e : Engines} (h : e.WithinCapacity) (v : Vector Context 16) : (e.setPlay v).WithinCapacity :=
  h.congr rfl rfl rfl

theorem setGroup {e : Engines} (h : e.WithinCapacity) (g : Fin 8) (r : Rec8) : (e.setGroup g r).WithinCapacity :=
  h.congr rfl rfl rfl

theorem setLabels {e : Engines} (h : e.WithinCapacity) (t : Tab Rec4) : (e.setLabels t).WithinCapacity :=
  h.congr rfl rfl rfl

theorem setCars {e : Engines} (h : e.WithinCapacity) (v : Vector Car 48) : (e.setCars v).WithinCapacity :=
  h.congr rfl rfl rfl

theorem onLink {e : Engines} (h : e.WithinCapacity) (n : Fin 8) (g : Link → Link) : (e.onLink n g).WithinCapacity :=
  h.congr rfl rfl rfl

theorem storeFace {e : Engines} (h : e.WithinCapacity) (d : Nat) (g : Face → Face) : (e.storeFace d g).WithinCapacity :=
  h.setFaces _

theorem updFace {e : Engines} (h : e.WithinCapacity) (d : Nat) (g : Face → Face) : (e.updFace d g).WithinCapacity :=
  h.congr (by simp) (by simp) (by simp)

theorem handPrompts {e : Engines} (h : e.WithinCapacity) (d : Nat) : (e.handPrompts d).WithinCapacity :=
  h.congr (by simp) (by simp) (by simp)

theorem claimHold {e : Engines} (h : e.WithinCapacity) (A : Ambient) (d : Nat) : (e.claimHold A d).WithinCapacity := by
  unfold Engines.claimHold
  split
  · exact h
  · rename_i p q hq
    split
    · rename_i tm id hc
      have h' : (e.setTimers tm).WithinCapacity := h.setTimers tm (h.claim_le hc)
      refine h'.storePrompts d _ ?_
      have := h.promptsOf_le d
      rw [hq] at this
      simpa using this
    · exact h.report A _

theorem placePrompt {e : Engines} (h : e.WithinCapacity) (A : Ambient) (d : Nat) (p : Prompt) (rest : List Prompt)
    (hr : rest.length < Config.promptPlaces) : (e.placePrompt A d p rest).WithinCapacity := by
  unfold Engines.placePrompt
  have h1 : (e.storePrompts d (p :: rest)).WithinCapacity := h.storePrompts d _ (Nat.succ_le_of_lt hr)
  apply handPrompts
  split
  · exact h1
  · exact h1.claimHold A d

theorem pushPrompt {e : Engines} (h : e.WithinCapacity) (A : Ambient) (d : Nat) (p : Prompt) :
    (e.pushPrompt A d p).WithinCapacity := by
  unfold Engines.pushPrompt
  dsimp only
  split
  · exact h.placePrompt A d p _ (by assumption)
  · refine (h.release _).placePrompt A d p _ ?_
    have h4 : Config.promptPlaces = 4 := rfl
    have := h.promptsOf_le d
    simp only [List.length_dropLast]
    omega

theorem replacePrompt {e : Engines} (h : e.WithinCapacity) (A : Ambient) (d t : Nat) (p : Prompt) :
    (e.replacePrompt A d t p).WithinCapacity := by
  unfold Engines.replacePrompt
  dsimp only
  split
  · rename_i hany
    refine h.placePrompt A d p _ ?_
    have := h.promptsOf_le d
    obtain ⟨x, hx, hpx⟩ := List.any_eq_true.1 hany
    have := List.length_eraseP_of_mem hx hpx
    have : 0 < (e.promptsOf d).length := List.length_pos_of_mem hx
    omega
  · exact h.pushPrompt A d p

theorem removePrompts {e : Engines} (h : e.WithinCapacity) (d : Nat) : (e.removePrompts d).WithinCapacity := by
  unfold Engines.removePrompts
  dsimp only
  refine handPrompts (storePrompts ?_ d [] (by simp)) d
  exact foldl_inv Engines.WithinCapacity _ (fun b a hb => hb.release a.hold) _ _ h

theorem endEntry {e : Engines} (h : e.WithinCapacity) (x : Entry) : (e.endEntry x).WithinCapacity :=
  ⟨Nat.le_trans (e.timers.release_length x.place) h.timers, h.reports, h.tally,
    Nat.le_trans (List.length_filter_le _ _) h.entries, h.ticketLow, h.ticketHigh, h.prompts, h.stops, h.ordered⟩

theorem cancelTerminal {e : Engines} (h : e.WithinCapacity) (A : Ambient) (d : Nat) (why : Reason) :
    (e.cancelTerminal A d why).WithinCapacity := by
  unfold Engines.cancelTerminal
  dsimp only
  refine removePrompts ?_ d
  exact foldl_inv Engines.WithinCapacity _ (fun b a hb => (hb.endEntry a).report A _) _ _ h

theorem removeStops {e : Engines} (h : e.WithinCapacity) (c : Fin 48) (floors : List Nat) :
    (e.removeStops c floors).WithinCapacity :=
  h.setStops c _ (Nat.le_trans (List.length_filter_le _ _) (h.stops c)) (stopsOrdered_filter (h.ordered c) _)

theorem dropStops {e : Engines} (h : e.WithinCapacity) (A : Ambient) (c : Fin 48) :
    (e.dropStops A c).WithinCapacity := by
  unfold Engines.dropStops
  dsimp only
  split
  · exact h
  · exact (h.setStops c [] (by simp) stopsOrdered_nil).report A _

theorem onCtx {e : Engines} (h : e.WithinCapacity) (c : Fin 16) (g : Context → Context) :
    (e.onCtx c g).WithinCapacity := h.congr rfl rfl rfl

theorem claimDwell {e : Engines} (h : e.WithinCapacity) (A : Ambient) (c : Fin 16) (n : Nat) :
    (e.claimDwell A c n).WithinCapacity := by
  unfold Engines.claimDwell
  dsimp only
  split
  · rename_i tm id hc
    exact h.withTimers (h.claim_le hc) rfl rfl
  · exact (h.onCtx c _).report A _

theorem releaseDwell {e : Engines} (h : e.WithinCapacity) (c : Fin 16) : (e.releaseDwell c).WithinCapacity :=
  (h.release _).onCtx c _

theorem suspend {e : Engines} (h : e.WithinCapacity) (A : Ambient) (c : Fin 16) : (e.suspend A c).WithinCapacity := by
  unfold Engines.suspend
  exact (h.releaseDwell c).onCtx c _

theorem resume {e : Engines} (h : e.WithinCapacity) (A : Ambient) (c : Fin 16) : (e.resume A c).WithinCapacity := by
  unfold Engines.resume
  exact (h.onCtx c _).claimDwell A c _

theorem targetEvent {e : Engines} (h : e.WithinCapacity) (A : Ambient) (c : Fin 16) :
    (e.targetEvent A c).WithinCapacity := by
  unfold Engines.targetEvent
  dsimp only
  split
  · split
    · exact h.suspend A c
    · split
      · exact h.claimDwell A c _
      · exact h
  · split
    · exact h.resume A c
    · exact h
  · exact h
  · exact h

theorem handNotice {e : Engines} (h : e.WithinCapacity) (d : Nat) : (e.handNotice d).WithinCapacity :=
  h.congr (by simp) (by simp) (by simp)

theorem handNotices {e : Engines} (h : e.WithinCapacity) (ds : List Nat) : (e.handNotices ds).WithinCapacity :=
  h.congr (by simp) (by simp) (by simp)

theorem targetNotice {e : Engines} (h : e.WithinCapacity) (A : Ambient) (d : Nat) :
    (e.targetNotice A d).WithinCapacity := by
  unfold Engines.targetNotice
  dsimp only
  apply handNotice
  apply foldl_inv Engines.WithinCapacity
  · intro b c hb
    split
    · exact hb
    · exact hb.targetEvent A c
  · exact h.setPlay _

theorem coverNotice {e : Engines} (h : e.WithinCapacity) (A : Ambient) (ds : List Nat) :
    (e.coverNotice A ds).WithinCapacity := by
  unfold Engines.coverNotice
  dsimp only
  apply handNotices
  apply foldl_inv Engines.WithinCapacity
  · intro b c hb
    split
    · exact hb.targetEvent A c
    · exact hb
  · exact h

theorem onset {e : Engines} (h : e.WithinCapacity) (A : Ambient) (d : Nat) (k : Fin 4) (cls : DisplayClass) :
    (e.onset A d k cls).WithinCapacity := by
  unfold Engines.onset
  dsimp only
  split
  · exact (h.updFace d _).cancelTerminal A d _
  · exact h.updFace d _

theorem moveCover {e : Engines} (h : e.WithinCapacity) (A : Ambient) (v : Vector OverrideSlot 4) (d : Nat)
    (old new : Option (Fin 4)) (cls : DisplayClass) : (e.moveCover A v d old new cls).WithinCapacity := by
  unfold Engines.moveCover
  split
  · exact h
  · exact h.onset A d _ cls
  · exact h.updFace d _
  · split
    · exact h
    · exact h.congr (by simp) (by simp) (by simp)

theorem coverEventFrom {e : Engines} (h : e.WithinCapacity) (A : Ambient) (v : Vector OverrideSlot 4) (ds : List Nat) :
    (e.coverEventFrom A v ds).WithinCapacity := by
  unfold Engines.coverEventFrom
  dsimp only
  have h1 := foldl_inv Engines.WithinCapacity (fun e (m : CoverMove) => e.moveCover A v m.display m.old m.new m.cls)
    (fun b m hb => hb.moveCover A v m.display m.old m.new m.cls) (coverMoves e ds) e h
  split
  · exact h1
  · exact h1.coverNotice A _

theorem coverEvent {e : Engines} (h : e.WithinCapacity) (A : Ambient) (ds : List Nat) :
    (e.coverEvent A ds).WithinCapacity := h.coverEventFrom A _ ds

theorem updSlot {e : Engines} (h : e.WithinCapacity) (k : Fin 4) (g : OverrideSlot → OverrideSlot) :
    (e.updSlot k g).WithinCapacity := h.congr (by simp) (by simp) (by simp)

theorem claimOverride {e : Engines} (h : e.WithinCapacity) (A : Ambient) (k : Fin 4) :
    (e.claimOverride A k).WithinCapacity := by
  unfold Engines.claimOverride
  split
  · rename_i tm id hc
    have h' : (e.setTimers tm).WithinCapacity := h.setTimers tm (h.claim_le hc)
    exact h'.onSlot k _
  · exact h.report A _

theorem settlePlace {e : Engines} (h : e.WithinCapacity) (A : Ambient) (k : Fin 4) :
    (e.settlePlace A k).WithinCapacity := by
  unfold Engines.settlePlace
  dsimp only
  split
  · split
    · exact h
    · exact h.claimOverride A k
  · exact (h.release _).onSlot k _

theorem changeMark {e : Engines} (h : e.WithinCapacity) (d : Nat) (r : Bool) : (e.changeMark d r).WithinCapacity :=
  h.congr (by simp) (by simp) (by simp)

theorem acceptSlot {e : Engines} (h : e.WithinCapacity) (A : Ambient) (k : Fin 4) (r : Rec4) :
    (e.acceptSlot A k r).WithinCapacity := by
  unfold Engines.acceptSlot
  extract_lets before e1 e2 kept e3
  have h1 : e1.WithinCapacity := h.onSlot k _
  have h3 : e3.WithinCapacity := by
    apply foldl_inv Engines.WithinCapacity
    · intro b a hb
      split
      · exact hb.changeMark _ _
      · exact hb
    · exact h1.coverEventFrom A _ _
  exact h3.settlePlace A k

theorem languageReady {e : Engines} (h : e.WithinCapacity) (A : Ambient) (l : Fin 16) :
    (e.languageReady A l).WithinCapacity := h.congr (by simp) (by simp) (by simp)

theorem rederive {e : Engines} (h : e.WithinCapacity) (A : Ambient) : (e.rederive A).WithinCapacity := by
  unfold Engines.rederive
  dsimp only
  apply foldl_inv Engines.WithinCapacity
  · intro b d hb
    exact hb.targetNotice A d
  · apply coverEvent
    exact foldl_inv Engines.WithinCapacity _ (fun b d hb => hb.updFace d _) _ _ h

theorem rehandPrompts {e : Engines} (h : e.WithinCapacity) : e.rehandPrompts.WithinCapacity :=
  h.congr (by simp) (by simp) (by simp)

theorem onCar {e : Engines} (h : e.WithinCapacity) (c : Fin 48) (g : Car → Car) : (e.onCar c g).WithinCapacity :=
  h.congr rfl rfl rfl

theorem onSignal {e : Engines} (h : e.WithinCapacity) (c : Fin 48) (g : Signal → Signal) :
    (e.onSignal c g).WithinCapacity := h.congr rfl rfl rfl

theorem endLantern {e : Engines} (h : e.WithinCapacity) (c : Fin 48) : (e.endLantern c).WithinCapacity := by
  unfold Engines.endLantern
  dsimp only
  split
  · exact ((h.release _).release _).onSignal c _
  · exact h

theorem claimLantern {e : Engines} (h : e.WithinCapacity) (A : Ambient) (c : Fin 48) (g : Rec8) (l : Nat) :
    (e.claimLantern A c g l).WithinCapacity := by
  unfold Engines.claimLantern
  split
  · exact h
  · split
    · rename_i tm id hc
      exact onSignal (e := e.setTimers tm) (h.withTimers (h.claim_le hc) rfl rfl) c _
    · exact h.report A _

theorem claimGong {e : Engines} (h : e.WithinCapacity) (A : Ambient) (c : Fin 48) (dir : Arrow) (l : Nat) :
    (e.claimGong A c dir l).WithinCapacity := by
  unfold Engines.claimGong
  split
  · rename_i tm id hc
    exact onSignal (e := e.setTimers tm) (h.withTimers (h.claim_le hc) rfl rfl) c _
  · exact h.report A _

theorem startSignals {e : Engines} (h : e.WithinCapacity) (A : Ambient) (c : Fin 48) (r : Rec4) (g : Fin 8) :
    (e.startSignals A c r g).WithinCapacity := by
  unfold Engines.startSignals
  dsimp only
  split
  · exact h.onSignal c _
  · exact (((h.onSignal c _).onSignal c _).claimLantern A c _ _).claimGong A c _ _

theorem arrive {e : Engines} (h : e.WithinCapacity) (A : Ambient) (c : Fin 48) (r : Rec4) (g : Fin 8) :
    (e.arrive A c r g).WithinCapacity := by
  unfold Engines.arrive
  dsimp only
  split
  · exact (h.removeStops c _).startSignals A c r g
  · exact h.removeStops c _

theorem signalTests {e : Engines} (h : e.WithinCapacity) (A : Ambient) (c : Fin 48) (r : Rec4) :
    (e.signalTests A c r).WithinCapacity := by
  unfold Engines.signalTests
  extract_lets e1
  have h1 : e1.WithinCapacity := by
    show (if _ then _ else _ : Engines).WithinCapacity
    split
    · exact h
    · exact h.endLantern c
  split
  · split
    · exact h1.arrive A c r _
    · exact h1
  · exact h1

theorem acceptCar {e : Engines} (h : e.WithinCapacity) (A : Ambient) (c : Fin 48) (r : Rec4) :
    (e.acceptCar A c r).WithinCapacity := by
  unfold Engines.acceptCar
  extract_lets e1 e2 e3
  have h2 : e2.WithinCapacity := by
    show (if _ then _ else _ : Engines).WithinCapacity
    split
    · exact (h.onCar c _).dropStops A c
    · exact h.onCar c _
  exact (h2.signalTests A c r).rederive A

theorem acceptGroup {e : Engines} (h : e.WithinCapacity) (A : Ambient) (g : Fin 8) (r : Rec8) :
    (e.acceptGroup A g r).WithinCapacity := by
  unfold Engines.acceptGroup
  extract_lets was cars e1 e2 e3
  have h1 : e1.WithinCapacity := h.setGroup g r
  have h2 : e2.WithinCapacity := by
    show (if _ then _ else _ : Engines).WithinCapacity
    split
    · exact foldl_inv Engines.WithinCapacity _ (fun b c hb => hb.endLantern c) _ _ h1
    · exact h1
  have h3 : e3.WithinCapacity := foldl_inv Engines.WithinCapacity _ (fun b c hb => hb.onCar c _) _ _ h2
  exact h3.rederive A

theorem acceptLabel {e : Engines} (h : e.WithinCapacity) (A : Ambient) (f : Nat) (r : Rec4) :
    (e.acceptLabel A f r).WithinCapacity := by
  unfold Engines.acceptLabel
  exact rehandPrompts (rederive (h.setLabels _) A)

theorem clearCars {e : Engines} (h : e.WithinCapacity) (A : Ambient) : (e.clearCars A).WithinCapacity := by
  unfold Engines.clearCars
  exact rederive (setCars (foldl_inv Engines.WithinCapacity _ (fun b c hb => hb.endLantern c) _ _ h) _) A

theorem clearLabels {e : Engines} (h : e.WithinCapacity) (A : Ambient) : (e.clearLabels A).WithinCapacity := by
  unfold Engines.clearLabels
  exact rehandPrompts (rederive (h.setLabels _) A)

theorem flash {e : Engines} (h : e.WithinCapacity) (A : Ambient) (c : Fin 48) (p : TimerPlace) :
    (e.flash A c p).WithinCapacity := by
  unfold Engines.flash
  split
  · exact (h.onSignal c _).rederive A
  · exact h

theorem stroke {e : Engines} (h : e.WithinCapacity) (c : Fin 48) (p : TimerPlace) : (e.stroke c p).WithinCapacity :=
  h.congr (by simp) (by simp) (by simp)

theorem openQueue {e : Engines} (h : e.WithinCapacity) (d : Nat) (cls : DisplayClass) :
    (e.openQueue d cls).WithinCapacity := by
  unfold Engines.openQueue
  split
  · refine ⟨h.timers, h.reports, h.tally, h.entries, h.ticketLow, h.ticketHigh, ?_, h.stops, h.ordered⟩
    have key : ∀ (t : Tab (List Prompt)), (∀ x ∈ t, x.2.length ≤ Config.promptPlaces) →
        ∀ x ∈ t.put d [], x.2.length ≤ Config.promptPlaces := by
      intro t ht
      induction t with
      | nil => simp [Tab.put]
      | cons y ys ih =>
        have hy := ht y List.mem_cons_self
        have hys : ∀ x ∈ ys, x.2.length ≤ Config.promptPlaces := fun x hx => ht x (List.mem_cons_of_mem _ hx)
        unfold Tab.put
        split
        · intro x hx
          rcases List.mem_cons.1 hx with rfl | hx
          · simp
          · exact ht x hx
        · split
          · intro x hx
            rcases List.mem_cons.1 hx with rfl | hx
            · simp
            · exact hys x hx
          · intro x hx
            rcases List.mem_cons.1 hx with rfl | hx
            · exact hy
            · exact ih hys x hx
    exact key _ h.prompts
  · exact h

theorem closeQueue {e : Engines} (h : e.WithinCapacity) (d : Nat) : (e.closeQueue d).WithinCapacity :=
  ⟨h.timers, h.reports, h.tally, h.entries, h.ticketLow, h.ticketHigh,
    fun x hx => h.prompts x (List.mem_filter.1 hx).1, h.stops, h.ordered⟩

theorem leaveQueue {e : Engines} (h : e.WithinCapacity) (n : Fin 8) (d : Nat) : (e.leaveQueue n d).WithinCapacity :=
  h.congr (by simp) (by simp) (by simp)

theorem onDisplay {e : Engines} (h : e.WithinCapacity) (d : Nat) (g : Display → Display) :
    (e.onDisplay d g).WithinCapacity := h.congr rfl rfl rfl

theorem cancelIfTerminal {e : Engines} (h : e.WithinCapacity) (A : Ambient) (d : Nat) (cls : DisplayClass) :
    (e.cancelIfTerminal A d cls).WithinCapacity := by
  unfold Engines.cancelIfTerminal
  split
  · exact h.cancelTerminal A d _
  · exact h

theorem createDisplay {e : Engines} (h : e.WithinCapacity) (A : Ambient) (d : Nat) (r : Rec4) (cls : DisplayClass) :
    (e.createDisplay A d r cls).WithinCapacity := by
  unfold Engines.createDisplay
  dsimp only
  exact targetNotice (openQueue ((h.setDisplays _).setFaces _) d cls) A d

theorem removeDisplay {e : Engines} (h : e.WithinCapacity) (A : Ambient) (d : Nat) :
    (e.removeDisplay A d).WithinCapacity := by
  unfold Engines.removeDisplay
  split
  · exact h
  · rename_i f _
    dsimp only
    have h1 : (((e.leaveQueue f.link d).cancelPoll f.link f.drop).cancelIfTerminal A d f.cls).WithinCapacity :=
      cancelIfTerminal (congr (h.leaveQueue f.link d) (by simp) (by simp) (by simp)) A d f.cls
    have h2 := (h1.leaveQueue f.link d).closeQueue d
    exact ((h2.setFaces _).targetNotice A d).setDisplays _

theorem rebuildFace {e : Engines} (h : e.WithinCapacity) (A : Ambient) (d : Nat) (r : Rec4) (cls old : DisplayClass) :
    (e.rebuildFace A d r cls old).WithinCapacity := by
  unfold Engines.rebuildFace
  extract_lets e1 e2 e3 e4
  have h1 : e1.WithinCapacity := h.cancelIfTerminal A d old
  have h2 : e2.WithinCapacity := by
    show (if _ then _ else _ : Engines).WithinCapacity
    split
    · exact h1.closeQueue d
    · exact h1
  have h3 : e3.WithinCapacity := by
    show (if _ then _ else _ : Engines).WithinCapacity
    split
    · exact h2.openQueue d cls
    · exact h2
  exact ((h3.updFace d _).coverEvent A [d]).targetNotice A d

theorem rebindDisplay {e : Engines} (h : e.WithinCapacity) (A : Ambient) (d : Nat) (r : Rec4) (cls : DisplayClass)
    (f : Face) : (e.rebindDisplay A d r cls f).WithinCapacity := by
  unfold Engines.rebindDisplay
  extract_lets moved e1 e2 e3
  have h1 : e1.WithinCapacity := by
    show (if _ then _ else _ : Engines).WithinCapacity
    split
    · exact onDisplay (congr (h.leaveQueue f.link d) (by simp) (by simp) (by simp)) d _
    · exact h
  have h3 : e3.WithinCapacity := (h1.onDisplay d _).rebuildFace A d r cls f.cls
  split
  · exact h3.onDisplay d _
  · exact h3

theorem acceptRoster {e : Engines} (h : e.WithinCapacity) (A : Ambient) (d : Nat) (r : Rec4) :
    (e.acceptRoster A d r).WithinCapacity := by
  unfold Engines.acceptRoster
  dsimp only
  have h1 := h.setRoster (e.link.roster.put d r)
  split
  · exact h1.createDisplay A d r _
  · split
    · exact h1.rebindDisplay A d r _ _
    · exact h1
  · exact h1
  · exact h1.removeDisplay A d
  · exact h1

theorem clearRoster {e : Engines} (h : e.WithinCapacity) (A : Ambient) : (e.clearRoster A).WithinCapacity := by
  unfold Engines.clearRoster
  dsimp only
  exact setRoster (foldl_inv Engines.WithinCapacity _ (fun b d hb => hb.removeDisplay A d) _ _ h) _

theorem acceptLink {e : Engines} (h : e.WithinCapacity) (n : Fin 8) (r : Rec4) : (e.acceptLink n r).WithinCapacity :=
  h.congr (by simp) (by simp) (by simp)

theorem refreshMark {e : Engines} (h : e.WithinCapacity) (d : Nat) : (e.refreshMark d).WithinCapacity :=
  h.congr (by simp) (by simp) (by simp)

theorem goodAnswer {e : Engines} (h : e.WithinCapacity) (A : Ambient) (n : Fin 8) (drop d fault : Nat) :
    (e.goodAnswer A n drop d fault).WithinCapacity := by
  unfold Engines.goodAnswer
  split
  · exact h
  · rename_i x _
    extract_lets e1 e2 e3
    have h1 : e1.WithinCapacity := h.onDisplay d _
    have h2 : e2.WithinCapacity := by
      show (if _ then _ else _ : Engines).WithinCapacity
      split
      · exact h1.report A _
      · exact h1
    have h3 : e3.WithinCapacity := by
      show (if _ then _ else _ : Engines).WithinCapacity
      split
      · exact h2
      · exact h2.refreshMark d
    split
    · exact h3
    · exact (h3.onDisplay d _).report A _

theorem miss {e : Engines} (h : e.WithinCapacity) (A : Ambient) (n : Fin 8) (drop d : Nat) :
    (e.miss A n drop d).WithinCapacity := by
  unfold Engines.miss
  split
  · exact h
  · rename_i x _
    extract_lets m e1 e2 e3
    have h1 : e1.WithinCapacity := h.onDisplay d _
    have h2 : e2.WithinCapacity := h1.onDisplay d _
    have h3 : e3.WithinCapacity := (h2.leaveQueue n d).storeFace d _
    split
    · exact h1
    · split
      · exact h3.report A _
      · exact h3

theorem nextTicket_range (t : Nat) : 1 ≤ nextTicket t ∧ nextTicket t ≤ 65535 := by
  unfold nextTicket
  split <;> omega

theorem refuseEntry {e : Engines} (h : e.WithinCapacity) (A : Ambient) (d : Nat) (k : Keyed) (why : Reason) :
    (e.refuseEntry A d k why).WithinCapacity := (h.pushPrompt A d _).report A _

theorem createEntry {e : Engines} (h : e.WithinCapacity) (A : Ambient) (d : Nat) (f : Face) (k : Keyed) (t p : Nat)
    (hn : e.dest.entries.length < Config.entryPlaces) : (e.createEntry A d f k t p).WithinCapacity := by
  unfold Engines.createEntry
  dsimp only
  apply report
  apply pushPrompt
  refine ⟨h.timers, h.reports, h.tally, ?_, (nextTicket_range t).1, (nextTicket_range t).2, h.prompts, h.stops, h.ordered⟩
  simp only [Engines.addEntry, List.length_append, List.length_singleton]
  exact hn

theorem checkEntry {e : Engines} (h : e.WithinCapacity) (A : Ambient) (d : Nat) (f : Face) (k : Keyed) :
    (e.checkEntry A d f k).WithinCapacity := by
  unfold Engines.checkEntry
  split
  · exact h.report A _
  · split
    · exact h.pushPrompt A d _
    · split
      · exact h.refuseEntry A d k _
      · dsimp only
        split
        · rename_i tm place hc
          exact createEntry (h.setTimers tm (h.claim_le hc)) A d f k _ place
            (by show e.dest.entries.length < _; omega)
        · exact h.refuseEntry A d k _

theorem takeEntry {e : Engines} (h : e.WithinCapacity) (A : Ambient) (d : Nat) (k : Keyed) :
    (e.takeEntry A d k).WithinCapacity := by
  unfold Engines.takeEntry
  split
  · exact h
  · dsimp only
    apply refreshMark
    split
    · exact h.checkEntry A d _ k
    · exact h.report A _

theorem offerEntry {e : Engines} (h : e.WithinCapacity) (A : Ambient) (d : Nat) (t : Bool) (k : Keyed) :
    (e.offerEntry A d t k).WithinCapacity := by
  unfold Engines.offerEntry
  split
  · exact h
  · split
    · exact h
    · exact (h.onDisplay d _).takeEntry A d k

theorem insertStop_length (l : List Stop) (f : Nat) : (insertStop l f).length = l.length + 1 := by
  induction l with
  | nil => rfl
  | cons x xs ih => unfold insertStop; split <;> simp [ih]

theorem mem_insertStop {l : List Stop} {f : Nat} {y : Stop} (h : y ∈ insertStop l f) : y = ⟨f, 1⟩ ∨ y ∈ l := by
  induction l with
  | nil => simpa [insertStop] using h
  | cons x xs ih =>
    unfold insertStop at h
    split at h
    · rcases List.mem_cons.1 h with h | h
      · exact .inl h
      · exact .inr h
    · rcases List.mem_cons.1 h with h | h
      · exact .inr (h ▸ List.mem_cons_self)
      · rcases ih h with h | h
        · exact .inl h
        · exact .inr (List.mem_cons_of_mem _ h)

theorem insertStop_ordered {l : List Stop} {f : Nat} (h : stopsOrdered l) (hf : holdsStop l f = false) :
    stopsOrdered (insertStop l f) := by
  constructor
  · obtain ⟨hp, -⟩ := h
    induction l with
    | nil => simp [insertStop]
    | cons x xs ih =>
      simp only [holdsStop, List.any_cons, Bool.or_eq_false_iff, beq_eq_false_iff_ne] at hf
      obtain ⟨hx, hxs⟩ := hf
      have hp' := List.pairwise_cons.1 hp
      unfold insertStop
      split
      · rename_i hlt
        refine List.pairwise_cons.2 ⟨?_, hp⟩
        intro y hy
        rcases List.mem_cons.1 hy with rfl | hy
        · exact hlt
        · exact Nat.lt_trans hlt (hp'.1 y hy)
      · rename_i hnl
        refine List.pairwise_cons.2 ⟨?_, ih hxs hp'.2⟩
        intro y hy
        rcases mem_insertStop hy with rfl | hy
        · show x.floor < f
          omega
        · exact hp'.1 y hy
  · intro y hy
    rcases mem_insertStop hy with rfl | hy
    · exact ⟨Nat.le_refl 1, (by decide : 1 ≤ 255)⟩
    · exact h.2 y hy

theorem boarded_ordered {l : List Stop} (h : stopsOrdered l) (f : Nat) :
    stopsOrdered (l.map fun x => if x.floor = f then x.boarded else x) := by
  have hfl : ∀ x : Stop, (if x.floor = f then x.boarded else x).floor = x.floor := by
    intro x; split <;> rfl
  constructor
  · rw [List.pairwise_map]
    exact h.1.imp fun {a b} hab => by rw [hfl, hfl]; exact hab
  · intro y hy
    obtain ⟨x, hx, rfl⟩ := List.mem_map.1 hy
    have := h.2 x hx
    split
    · simp only [Stop.boarded]; omega
    · exact this

theorem addStop_ordered {l : List Stop} (h : stopsOrdered l) (f : Nat) : stopsOrdered (addStop l f) := by
  unfold addStop
  split
  · exact boarded_ordered h f
  · exact insertStop_ordered h (by simpa using ‹¬holdsStop l f = true›)

theorem addStop_length {l : List Stop} {f : Nat} (hl : l.length ≤ Config.stopPlaces)
    (h : holdsStop l f = true ∨ l.length < Config.stopPlaces) : (addStop l f).length ≤ Config.stopPlaces := by
  unfold addStop
  split
  · simpa using hl
  · rename_i hf
    rw [insertStop_length]
    rcases h with h | h
    · exact absurd h hf
    · exact h

theorem giveStop {e : Engines} (h : e.WithinCapacity) (A : Ambient) (c : Fin 48) (f t : Nat) :
    (e.giveStop A c f t).WithinCapacity := by
  unfold Engines.giveStop
  dsimp only
  split
  · rename_i hc
    exact (h.setStops c _ (addStop_length (h.stops c) hc) (addStop_ordered (h.ordered c) f)).rederive A
  · exact h.report A _

theorem assignEntry {e : Engines} (h : e.WithinCapacity) (A : Ambient) (x : Entry) (r : Rec4) (c : Fin 48) (cr : Rec4) :
    (e.assignEntry A x r c cr).WithinCapacity :=
  ((h.endEntry x).replacePrompt A _ _ _).giveStop A c _ _

theorem declineEntry {e : Engines} (h : e.WithinCapacity) (A : Ambient) (x : Entry) :
    (e.declineEntry A x).WithinCapacity := (h.endEntry x).replacePrompt A _ _ _

theorem judgeAssign {e : Engines} (h : e.WithinCapacity) (A : Ambient) (r : Rec4) :
    (e.judgeAssign A r).WithinCapacity := by
  unfold Engines.judgeAssign
  dsimp only
  split
  · exact h.report A _
  · split
    · exact h.report A _
    · split
      · exact h.declineEntry A _
      · split
        · exact h.report A _
        · exact h.assignEntry A _ r _ _

theorem expireEntry {e : Engines} (h : e.WithinCapacity) (A : Ambient) (p : TimerPlace) :
    (e.expireEntry A p).WithinCapacity := by
  unfold Engines.expireEntry
  split
  · exact h
  · exact ((h.endEntry _).replacePrompt A _ _ _).report A _

theorem expirePrompt {e : Engines} (h : e.WithinCapacity) (d : Nat) (p : TimerPlace) :
    (e.expirePrompt d p).WithinCapacity :=
  (h.storePrompts d _ (Nat.le_trans (List.length_filter_le _ _) (h.promptsOf_le d))).handPrompts d

theorem startCtx {e : Engines} (h : e.WithinCapacity) (A : Ambient) (c : Fin 16) (r : Rec4) :
    (e.startCtx A c r).WithinCapacity := by
  unfold Engines.startCtx
  extract_lets a e1 ts cov e2 e3 e4
  have h3 : e3.WithinCapacity := ((h.releaseDwell c).onCtx c _).onCtx c _
  have h4 : e4.WithinCapacity := by
    show (if _ then _ else _ : Engines).WithinCapacity
    split
    · exact h3
    · exact h3.claimDwell A c _
  exact h4.handNotices _

theorem stopCtx {e : Engines} (h : e.WithinCapacity) (c : Fin 16) (r : Rec4) : (e.stopCtx c r).WithinCapacity :=
  ((h.releaseDwell c).onCtx c _).handNotices _

theorem acceptPlayout {e : Engines} (h : e.WithinCapacity) (A : Ambient) (c : Fin 16) (r : Rec4) :
    (e.acceptPlayout A c r).WithinCapacity := by
  unfold Engines.acceptPlayout
  split
  · exact h.startCtx A c r
  · exact h.stopCtx c r

theorem completeCtx {e : Engines} (h : e.WithinCapacity) (A : Ambient) (c : Fin 16) (r : Rec4) :
    (e.completeCtx A c r).WithinCapacity := (((h.releaseDwell c).onCtx c _).handNotices _).report A _

theorem handTargets {e : Engines} (h : e.WithinCapacity) (c : Fin 16) : (e.handTargets c).WithinCapacity :=
  h.handNotices _

theorem expireDwell {e : Engines} (h : e.WithinCapacity) (A : Ambient) (c : Fin 16) (p : TimerPlace) :
    (e.expireDwell A c p).WithinCapacity := by
  unfold Engines.expireDwell
  dsimp only
  split
  · split
    · exact (h.onCtx c _).completeCtx A c _
    · exact (h.onCtx c _).handTargets c
  · exact h

theorem clearPlayout {e : Engines} (h : e.WithinCapacity) : e.clearPlayout.WithinCapacity := by
  unfold Engines.clearPlayout
  exact handNotices (foldl_inv Engines.WithinCapacity _ (fun b c hb => (hb.releaseDwell c).onCtx c _) _ _ h) _

theorem clearTable {e : Engines} (h : e.WithinCapacity) (A : Ambient) (w : Fin 5) :
    (e.clearTable A w).WithinCapacity := by
  unfold Engines.clearTable
  split
  · exact h.clearCars A
  · split
    · exact h.clearRoster A
    · split
      · exact h.clearLabels A
      · split
        · exact h.clearPlayout
        · exact h

theorem stopsOf_reset (c : Fin 48) (d : Destination) (h : d.stops = Vector.replicate 48 []) : d.stops[c] = [] := by
  rw [h]; simp

theorem cleared {e : Engines} (h : e.WithinCapacity) : e.cleared.WithinCapacity := by
  have hs : ∀ c : Fin 48, e.cleared.stopsOf c = [] := fun c => stopsOf_reset c _ rfl
  refine ⟨Nat.zero_le _, h.reports, h.tally, Nat.zero_le _, Nat.le_refl 1, (by decide : 1 ≤ 65535), ?_, ?_, ?_⟩
  · intro x hx; cases hx
  · intro c; rw [hs]; simp
  · intro c; rw [hs]; exact stopsOrdered_nil

theorem restartSlot {e : Engines} (h : e.WithinCapacity) (A : Ambient) (k : Fin 4) :
    (e.restartSlot A k).WithinCapacity := by
  unfold Engines.restartSlot
  dsimp only
  split
  · exact (h.updSlot k _).claimOverride A k
  · exact h.updSlot k _

theorem restarted {e : Engines} (h : e.WithinCapacity) (A : Ambient) : (e.restarted A).WithinCapacity :=
  foldl_inv Engines.WithinCapacity _ (fun _ k hb => hb.restartSlot A k) _ _ h.cleared

theorem reset : Engines.reset.WithinCapacity := by
  have hs : ∀ c : Fin 48, Engines.reset.stopsOf c = [] := fun c => stopsOf_reset c _ rfl
  refine ⟨Nat.zero_le _, Nat.zero_le _, Nat.zero_le _, Nat.zero_le _, Nat.le_refl 1, (by decide : 1 ≤ 65535), ?_, ?_, ?_⟩
  · intro x hx; cases hx
  · intro c; rw [hs]; simp
  · intro c; rw [hs]; exact stopsOrdered_nil

theorem poweredOn (e : Engines) : e.poweredOn.WithinCapacity := reset.congr rfl rfl rfl

theorem onEntryWait {e : Engines} (h : e.WithinCapacity) (A : Ambient) (p : TimerPlace) :
    (onEntryWait A e p).WithinCapacity := h.expireEntry A p

theorem onPromptHold {e : Engines} (h : e.WithinCapacity) (A : Ambient) (p : TimerPlace) :
    (onPromptHold A e p).WithinCapacity := by
  unfold Machine.onPromptHold
  split <;> first | exact h.expirePrompt _ p | exact h

theorem onLantern {e : Engines} (h : e.WithinCapacity) (A : Ambient) (p : TimerPlace) :
    (onLantern A e p).WithinCapacity := by
  unfold Machine.onLantern
  split <;> first | exact h.flash A _ p | exact h

theorem onGong {e : Engines} (h : e.WithinCapacity) (A : Ambient) (p : TimerPlace) :
    (onGong A e p).WithinCapacity := by
  unfold Machine.onGong
  split <;> first | exact h.stroke _ p | exact h

theorem onDwell {e : Engines} (h : e.WithinCapacity) (A : Ambient) (p : TimerPlace) :
    (onDwell A e p).WithinCapacity := by
  unfold Machine.onDwell
  split <;> first | exact h.expireDwell A _ p | exact h

theorem rotateSlot {e : Engines} (h : e.WithinCapacity) (A : Ambient) (k : Fin 4) :
    (e.rotateSlot A k).WithinCapacity := h.updSlot k _

theorem onOverrideDwell {e : Engines} (h : e.WithinCapacity) (A : Ambient) (p : TimerPlace) :
    (onOverrideDwell A e p).WithinCapacity := by
  unfold Machine.onOverrideDwell
  split
  · split
    · exact h.rotateSlot A _
    · exact h
  all_goals exact h

end Engines.WithinCapacity

end Sys2Proof.Machine
end

