-- ==== Sys2Proof/Laws/Kept.lean ====
section
/-! SUPPORT. What the marks, layers, prompts and contexts leave alone, each operation once: the tables of cars, groups and
labels, the stop lists, the tickets, the override slots, the roster, the displays and the links but for their queues and
frames (`firm`), and of every face its roster fields, its BASE content, floor, scope and cover (`looks`). A change of cover
keeps what is firm. -/

namespace Sys2Proof.Machine

/-- A link without its queue and its frame. -/
def Link.firm (l : Link) : Link := { l with queue := [], frame := none }

/-- What no mark, layer, prompt, context or cover changes. -/
structure Firm where
  ind : Indication
  stops : Vector (List Stop) 48
  ticket : Nat
  slots : Vector OverrideSlot 4
  roster : Tab Rec4
  displays : Tab Display
  links : Fin 8 → Link
  frames : Nat

def Engines.firm (e : Engines) : Firm :=
  ⟨e.ind, e.dest.stops, e.dest.ticket, e.face.slots, e.link.roster, e.link.displays,
    fun n => (e.linkOf n).firm, e.link.frames⟩

/-- A face without its layers above BASE, its strokes and its wait marks. -/
def Face.look (f : Face) : Face :=
  { f with prompt := [], notice := none, strokes := 0, waitText := none, waitGlyphs := [] }

def Engines.looks (e : Engines) : List (Nat × Face) := e.face.faces.map fun x => (x.1, x.2.look)

/-- `e'` keeps what `e` holds firm, and how its faces look. -/
structure Engines.Keeps (e e' : Engines) : Prop where
  firm : e'.firm = e.firm
  looks : e'.looks = e.looks

namespace Engines.Keeps

theorem refl (e : Engines) : e.Keeps e := ⟨rfl, rfl⟩

theorem trans {a b c : Engines} (h : a.Keeps b) (k : b.Keeps c) : a.Keeps c :=
  ⟨k.firm.trans h.firm, k.looks.trans h.looks⟩

theorem ind {a b : Engines} (h : a.Keeps b) : b.ind = a.ind := congrArg Firm.ind h.firm
theorem stops {a b : Engines} (h : a.Keeps b) : b.dest.stops = a.dest.stops := congrArg Firm.stops h.firm
theorem ticket {a b : Engines} (h : a.Keeps b) : b.dest.ticket = a.dest.ticket := congrArg Firm.ticket h.firm
theorem slots {a b : Engines} (h : a.Keeps b) : b.face.slots = a.face.slots := congrArg Firm.slots h.firm
theorem roster {a b : Engines} (h : a.Keeps b) : b.link.roster = a.link.roster := congrArg Firm.roster h.firm
theorem displays {a b : Engines} (h : a.Keeps b) : b.link.displays = a.link.displays := congrArg Firm.displays h.firm
theorem link {a b : Engines} (h : a.Keeps b) (n : Fin 8) : (b.linkOf n).firm = (a.linkOf n).firm :=
  congrFun (congrArg Firm.links h.firm) n

/-- A fold of operations that keep keeps. -/
theorem foldl {α : Type} (op : Engines → α → Engines) (l : List α) (h : ∀ (e : Engines) (x : α), x ∈ l → e.Keeps (op e x)) (e : Engines) :
    e.Keeps (l.foldl op e) := by
  induction l generalizing e with
  | nil => exact refl e
  | cons x l ih =>
    exact (h e x (List.mem_cons_self ..)).trans (ih (fun e y hy => h e y (List.mem_cons_of_mem x hy)) _)

/-! ## Faces and marks -/

theorem modify_looks (t : Tab Face) (d : Nat) (g : Face → Face) (hg : ∀ f, (g f).look = f.look) :
    (t.modify d g).map (fun x => (x.1, x.2.look)) = t.map fun x => (x.1, x.2.look) := by
  induction t with
  | nil => rfl
  | cons x t ih =>
    obtain ⟨k, v⟩ := x
    unfold Tab.modify
    split
    · simp [hg]
    · simp only [List.map_cons, ih]

theorem storeFace (e : Engines) (d : Nat) (g : Face → Face) (hg : ∀ f, (g f).look = f.look) : e.Keeps (e.storeFace d g) :=
  ⟨rfl, modify_looks e.face.faces d g hg⟩

theorem onLink (e : Engines) (n : Fin 8) (g : Link → Link) (hg : ∀ l, (g l).firm = l.firm) : e.Keeps (e.onLink n g) := by
  refine ⟨?_, rfl⟩
  have : (fun m => ((e.onLink n g).linkOf m).firm) = fun m => (e.linkOf m).firm := by
    funext m
    show (upd e.link.links n g)[m].firm = _
    rw [get_upd']
    split
    · exact hg _
    · rfl
  unfold Engines.firm
  rw [this]; rfl
where
  get_upd' {v : Vector Link 8} {n m : Fin 8} {g : Link → Link} :
      (upd v n g)[m] = if n = m then g v[m] else v[m] := by
    unfold upd
    simp only [Fin.getElem_fin, Vector.getElem_set]
    by_cases h : n = m
    · subst h; simp
    · have : n.val ≠ m.val := fun hv => h (Fin.ext hv)
      simp [h, this]

theorem join (e : Engines) (n : Fin 8) (d : Nat) : e.Keeps (e.join n d) := onLink e n _ fun _ => rfl

theorem leaveQueue (e : Engines) (n : Fin 8) (d : Nat) : e.Keeps (e.leaveQueue n d) := by
  unfold Engines.leaveQueue
  refine (onLink e n _ ?_).trans (storeFace _ d _ ?_)
  · exact fun _ => rfl
  · exact fun _ => rfl

theorem changeMark (e : Engines) (d : Nat) (rise : Bool) : e.Keeps (e.changeMark d rise) := by
  unfold Engines.changeMark
  split
  · exact refl e
  · rename_i f _
    have h := storeFace e d (fun f => { f with waitText := none }) fun _ => rfl
    dsimp only
    repeat' split
    · exact h.trans (onLink _ _ _ fun _ => rfl)
    · exact h.trans (onLink _ _ _ fun _ => rfl)
    · exact h
    · exact h.trans (join _ _ _)
    · exact h

theorem refreshMark (e : Engines) (d : Nat) : e.Keeps (e.refreshMark d) := by
  unfold Engines.refreshMark
  dsimp only
  repeat' split
  · exact refl e
  · exact onLink _ _ _ fun _ => rfl
  · exact refl e
  · exact join _ _ _
  · exact refl e

/-- A change of a face followed by its mark keeps what is firm. -/
theorem updFaceFrom_firm (e : Engines) (v : Vector OverrideSlot 4) (d : Nat) (g : Face → Face) :
    (e.updFaceFrom v d g).firm = e.firm := by
  unfold Engines.updFaceFrom
  dsimp only
  repeat' split
  · rfl
  · rfl
  · exact (changeMark _ d _).firm

theorem updFace_firm (e : Engines) (d : Nat) (g : Face → Face) : (e.updFace d g).firm = e.firm := updFaceFrom_firm e _ d g

theorem updFaceFrom (e : Engines) (v : Vector OverrideSlot 4) (d : Nat) (g : Face → Face)
    (hg : ∀ f, (g f).look = f.look) : e.Keeps (e.updFaceFrom v d g) := by
  unfold Engines.updFaceFrom
  dsimp only
  repeat' split
  · exact refl e
  · exact storeFace e d g hg
  · exact (storeFace e d g hg).trans (changeMark _ d _)

theorem updFace (e : Engines) (d : Nat) (g : Face → Face) (hg : ∀ f, (g f).look = f.look) : e.Keeps (e.updFace d g) :=
  updFaceFrom e _ d g hg

/-! ## Prompts -/

theorem setPrompts (e : Engines) (t : Tab (List Prompt)) : e.Keeps (e.setPrompts t) := ⟨rfl, rfl⟩
theorem storePrompts (e : Engines) (d : Nat) (q : List Prompt) : e.Keeps (e.storePrompts d q) := ⟨rfl, rfl⟩
theorem setTimers (e : Engines) (tm : Timers) : e.Keeps (e.setTimers tm) := ⟨rfl, rfl⟩
theorem release (e : Engines) (id : Option Nat) : e.Keeps (e.release id) := ⟨rfl, rfl⟩
theorem report (A : Ambient) (e : Engines) (ev : Event) : e.Keeps (e.report A ev) := ⟨rfl, rfl⟩
theorem endEntry (e : Engines) (x : Entry) : e.Keeps (e.endEntry x) := ⟨rfl, rfl⟩
theorem setPlay (e : Engines) (v : Vector Context 16) : e.Keeps (e.setPlay v) := ⟨rfl, rfl⟩
theorem onCtx (e : Engines) (c : Fin 16) (g : Context → Context) : e.Keeps (e.onCtx c g) := ⟨rfl, rfl⟩

theorem handPrompts (e : Engines) (d : Nat) : e.Keeps (e.handPrompts d) := updFace e d _ fun _ => rfl

theorem claimHold (A : Ambient) (e : Engines) (d : Nat) : e.Keeps (e.claimHold A d) := by
  unfold Engines.claimHold
  repeat' split
  · exact refl e
  · exact ⟨rfl, rfl⟩
  · exact ⟨rfl, rfl⟩

theorem placePrompt (A : Ambient) (e : Engines) (d : Nat) (p : Prompt) (rest : List Prompt) :
    e.Keeps (e.placePrompt A d p rest) := by
  unfold Engines.placePrompt
  dsimp only
  split
  · exact (storePrompts e d _).trans (handPrompts _ d)
  · exact ((storePrompts e d _).trans (claimHold A _ d)).trans (handPrompts _ d)

theorem pushPrompt (A : Ambient) (e : Engines) (d : Nat) (p : Prompt) : e.Keeps (e.pushPrompt A d p) := by
  unfold Engines.pushPrompt
  dsimp only
  split
  · exact placePrompt A e d p _
  · exact (release e _).trans (placePrompt A _ d p _)

theorem replacePrompt (A : Ambient) (e : Engines) (d t : Nat) (p : Prompt) : e.Keeps (e.replacePrompt A d t p) := by
  unfold Engines.replacePrompt
  dsimp only
  split
  · exact placePrompt A e d p _
  · exact pushPrompt A e d p

theorem removePrompts (e : Engines) (d : Nat) : e.Keeps (e.removePrompts d) := by
  unfold Engines.removePrompts
  dsimp only
  exact (foldl _ _ (fun e p _ => release e p.hold) e).trans ((storePrompts _ d []).trans (handPrompts _ d))

theorem cancelTerminal (A : Ambient) (e : Engines) (d : Nat) (why : Reason) : e.Keeps (e.cancelTerminal A d why) := by
  unfold Engines.cancelTerminal
  dsimp only
  exact (foldl _ _ (fun e x _ => (endEntry e x).trans (report A _ _)) e).trans (removePrompts _ d)

theorem rehandPrompts (e : Engines) : e.Keeps e.rehandPrompts := foldl _ _ (fun e d _ => handPrompts e d) e

/-! ## Contexts -/

theorem handNotice (e : Engines) (d : Nat) : e.Keeps (e.handNotice d) := updFace e d _ fun _ => rfl

theorem handNotices (e : Engines) (ds : List Nat) : e.Keeps (e.handNotices ds) := foldl _ _ (fun e d _ => handNotice e d) e

theorem handTargets (e : Engines) (c : Fin 16) : e.Keeps (e.handTargets c) := handNotices e _

theorem claimDwell (A : Ambient) (e : Engines) (c : Fin 16) (n : Nat) : e.Keeps (e.claimDwell A c n) := by
  unfold Engines.claimDwell
  dsimp only
  split
  · exact ⟨rfl, rfl⟩
  · exact ⟨rfl, rfl⟩

theorem releaseDwell (e : Engines) (c : Fin 16) : e.Keeps (e.releaseDwell c) := ⟨rfl, rfl⟩

theorem suspend (A : Ambient) (e : Engines) (c : Fin 16) : e.Keeps (e.suspend A c) := ⟨rfl, rfl⟩

theorem resume (A : Ambient) (e : Engines) (c : Fin 16) : e.Keeps (e.resume A c) := by
  unfold Engines.resume
  exact (onCtx e c _).trans (claimDwell A _ c _)

theorem targetEvent (A : Ambient) (e : Engines) (c : Fin 16) : e.Keeps (e.targetEvent A c) := by
  unfold Engines.targetEvent
  dsimp only
  repeat' split
  all_goals first
    | exact refl e
    | exact suspend A e c
    | exact resume A e c
    | exact claimDwell A e c _

theorem targetNotice (A : Ambient) (e : Engines) (d : Nat) : e.Keeps (e.targetNotice A d) := by
  unfold Engines.targetNotice
  dsimp only
  refine (setPlay e _).trans ((foldl _ _ ?_ _).trans (handNotice _ d))
  intro e c _
  split
  · exact refl e
  · exact targetEvent A e c

theorem coverNotice (A : Ambient) (e : Engines) (ds : List Nat) : e.Keeps (e.coverNotice A ds) := by
  unfold Engines.coverNotice
  dsimp only
  refine (foldl _ _ ?_ _).trans (handNotices _ ds)
  intro e c _
  split
  · exact targetEvent A e c
  · exact refl e

/-! ## Cover -/

theorem onset_firm (A : Ambient) (e : Engines) (d : Nat) (k : Fin 4) (cls : DisplayClass) :
    (e.onset A d k cls).firm = e.firm := by
  unfold Engines.onset
  dsimp only
  split
  · exact (cancelTerminal A _ d _).firm.trans (updFace_firm e d _)
  · exact updFace_firm e d _

theorem moveCover_firm (A : Ambient) (e : Engines) (v : Vector OverrideSlot 4) (d : Nat) (old new : Option (Fin 4))
    (cls : DisplayClass) : (e.moveCover A v d old new cls).firm = e.firm := by
  unfold Engines.moveCover
  repeat' split
  · rfl
  · exact onset_firm A e d _ cls
  · exact updFace_firm e d _
  · rfl
  · exact updFaceFrom_firm e v d _

theorem coverEventFrom_firm (A : Ambient) (e : Engines) (v : Vector OverrideSlot 4) (ds : List Nat) :
    (e.coverEventFrom A v ds).firm = e.firm := by
  unfold Engines.coverEventFrom
  dsimp only
  have h := foldl_keeps Engines.firm (fun e (m : CoverMove) => e.moveCover A v m.display m.old m.new m.cls)
    (fun e m => moveCover_firm A e v m.display m.old m.new m.cls) (coverMoves e ds) e
  split
  · exact h
  · exact (coverNotice A _ _).firm.trans h

theorem coverEvent_firm (A : Ambient) (e : Engines) (ds : List Nat) : (e.coverEvent A ds).firm = e.firm :=
  coverEventFrom_firm A e _ ds

/-- Deriving BASE content anew keeps all that is firm. -/
theorem rederive_firm (A : Ambient) (e : Engines) : (e.rederive A).firm = e.firm := by
  unfold Engines.rederive
  dsimp only
  refine (foldl _ _ (fun e d _ => targetNotice A e d) _).firm.trans ((coverEvent_firm A _ _).trans ?_)
  exact foldl_keeps Engines.firm _ (fun b d => updFace_firm b d _) _ _

end Engines.Keeps

end Sys2Proof.Machine
end

