-- ==== Sys2Proof/Laws/Tables.lean ====
section
/-! SUPPORT. What a sparse table and a fixed table hold after each of their operations. -/

namespace Sys2Proof.Machine

theorem Tab.get_put {α : Type} (t : Tab α) (k : Nat) (v : α) (x : Nat) :
    (t.put k v).get x = if x = k then some v else t.get x := by
  induction t with
  | nil => simp [Tab.put, Tab.get, eq_comm]
  | cons c t ih =>
    obtain ⟨j, w⟩ := c
    unfold Tab.put
    by_cases h1 : k < j
    · rw [if_pos h1, Tab.get]
      simp only [eq_comm]
    · rw [if_neg h1]
      by_cases h2 : k = j
      · subst h2
        rw [if_pos rfl, Tab.get, Tab.get]
        by_cases hx : k = x
        · rw [if_pos hx, if_pos hx.symm]
        · rw [if_neg hx, if_neg (fun h => hx h.symm), if_neg hx]
      · rw [if_neg h2, Tab.get, ih, Tab.get]
        by_cases hx : j = x
        · subst hx
          rw [if_pos rfl, if_neg (fun h => h2 h.symm), if_pos rfl]
        · rw [if_neg hx, if_neg hx]

theorem Tab.get_erase {α : Type} (t : Tab α) (k x : Nat) :
    (t.erase k).get x = if x = k then none else t.get x := by
  induction t with
  | nil => simp [Tab.erase, Tab.get]
  | cons c t ih =>
    obtain ⟨j, w⟩ := c
    unfold Tab.erase at ih ⊢
    by_cases hj : j = k
    · subst hj
      rw [List.filter_cons_of_neg (by simp), ih, Tab.get]
      by_cases hx : x = j
      · rw [if_pos hx, if_pos hx]
      · rw [if_neg hx, if_neg hx, if_neg (fun h => hx h.symm)]
    · rw [List.filter_cons_of_pos (by simpa using hj), Tab.get, ih, Tab.get]
      by_cases hx : j = x
      · subst hx
        rw [if_pos rfl, if_neg hj, if_pos rfl]
      · rw [if_neg hx, if_neg hx]

theorem Tab.get_modify {α : Type} (t : Tab α) (k : Nat) (g : α → α) (x : Nat) :
    (t.modify k g).get x = if x = k then (t.get x).map g else t.get x := by
  induction t with
  | nil => simp [Tab.modify, Tab.get]
  | cons c t ih =>
    obtain ⟨j, w⟩ := c
    unfold Tab.modify
    by_cases hj : j = k
    · subst hj
      rw [if_pos rfl, Tab.get, Tab.get]
      by_cases hx : j = x
      · subst hx; simp
      · rw [if_neg hx, if_neg hx, if_neg (fun h => hx h.symm)]
    · rw [if_neg hj, Tab.get, ih, Tab.get]
      by_cases hx : j = x
      · subst hx
        rw [if_pos rfl, if_neg hj, if_pos rfl]
      · rw [if_neg hx, if_neg hx]

theorem Tab.get_isSome_of_mem {α : Type} (t : Tab α) {x : Nat × α} (h : x ∈ t) : (t.get x.1).isSome = true := by
  induction t with
  | nil => cases h
  | cons c t ih =>
    obtain ⟨j, w⟩ := c
    rw [Tab.get]
    split
    · rfl
    · rcases List.mem_cons.1 h with rfl | h
      · exact absurd rfl ‹_›
      · exact ih h

theorem Tab.mem_keys_of_get {α : Type} (t : Tab α) {k : Nat} {v : α} (h : t.get k = some v) : k ∈ t.keys := by
  induction t with
  | nil => cases h
  | cons c t ih =>
    obtain ⟨j, w⟩ := c
    rw [Tab.get] at h
    split at h
    · rename_i hj; exact hj ▸ List.mem_cons_self
    · exact List.mem_cons_of_mem _ (ih h)

theorem Tab.risingFrom_iff {α : Type} (t : Tab α) (lo : Option Nat) :
    Tab.risingFrom lo t = true ↔ (∀ l, lo = some l → ∀ x ∈ t, l < x.1) ∧ (t.map Prod.fst).Pairwise (· < ·) := by
  induction t generalizing lo with
  | nil => simp [Tab.risingFrom]
  | cons c t ih =>
    obtain ⟨k, v⟩ := c
    have ht := ih (some k)
    simp only [Tab.risingFrom, Bool.and_eq_true, ht, List.map_cons, List.pairwise_cons, List.mem_cons, Option.some.injEq,
      forall_eq', List.mem_map, forall_exists_index, and_imp, forall_apply_eq_imp_iff₂]
    constructor
    · rintro ⟨h1, h2, h3⟩
      refine ⟨?_, fun a ha => h2 a ha, h3⟩
      rintro l rfl x (rfl | hx)
      · simpa using h1
      · have h1 : l < k := by simpa using h1
        exact Nat.lt_trans h1 (h2 x hx)
    · rintro ⟨h1, h2, h3⟩
      refine ⟨?_, h2, h3⟩
      cases lo with
      | none => rfl
      | some l => simpa using h1 l rfl (k, v) (Or.inl rfl)

/-- The canonical form of a table: its keys are strictly rising. -/
theorem Tab.wf_iff {α : Type} (t : Tab α) : Tab.wf t = true ↔ (t.map Prod.fst).Pairwise (· < ·) := by
  unfold Tab.wf
  rw [Tab.risingFrom_iff]
  simp

theorem Tab.map_modify {α : Type} (t : Tab α) (k : Nat) (g : α → α) :
    (t.modify k g).map Prod.fst = t.map Prod.fst := by
  induction t with
  | nil => rfl
  | cons c t ih =>
    obtain ⟨j, w⟩ := c
    unfold Tab.modify
    split
    · rfl
    · simp only [List.map_cons, ih]

theorem Tab.wf_modify {α : Type} {t : Tab α} (h : t.wf = true) (k : Nat) (g : α → α) : (t.modify k g).wf = true := by
  rw [Tab.wf_iff, Tab.map_modify]
  exact (Tab.wf_iff t).1 h

theorem Tab.wf_erase {α : Type} {t : Tab α} (h : t.wf = true) (k : Nat) : (t.erase k).wf = true := by
  rw [Tab.wf_iff] at h ⊢
  exact h.sublist (List.filter_sublist.map _)

theorem Tab.mem_put {α : Type} {t : Tab α} {k : Nat} {v : α} {x : Nat × α} (h : x ∈ t.put k v) : x = (k, v) ∨ x ∈ t := by
  induction t with
  | nil => exact Or.inl (by simpa [Tab.put] using h)
  | cons c t ih =>
    obtain ⟨j, w⟩ := c
    unfold Tab.put at h
    split at h
    · exact List.mem_cons.1 h
    · split at h
      · rcases List.mem_cons.1 h with h | h
        · exact Or.inl h
        · exact Or.inr (List.mem_cons_of_mem _ h)
      · rcases List.mem_cons.1 h with h | h
        · exact Or.inr (h ▸ List.mem_cons_self)
        · rcases ih h with h | h
          · exact Or.inl h
          · exact Or.inr (List.mem_cons_of_mem _ h)

theorem Tab.wf_put {α : Type} {t : Tab α} (h : t.wf = true) (k : Nat) (v : α) : (t.put k v).wf = true := by
  rw [Tab.wf_iff] at h ⊢
  induction t with
  | nil => simp [Tab.put]
  | cons c t ih =>
    obtain ⟨j, w⟩ := c
    rw [List.map_cons, List.pairwise_cons] at h
    unfold Tab.put
    split
    · rename_i hk
      rw [List.map_cons, List.pairwise_cons, List.map_cons, List.pairwise_cons]
      refine ⟨?_, h⟩
      intro a ha
      rcases List.mem_cons.1 ha with rfl | ha
      · exact hk
      · exact Nat.lt_trans hk (h.1 a ha)
    · split
      · rename_i hk
        subst hk
        rw [List.map_cons, List.pairwise_cons]
        exact h
      · rw [List.map_cons, List.pairwise_cons]
        refine ⟨?_, ih h.2⟩
        intro a ha
        obtain ⟨x, hx, rfl⟩ := List.mem_map.1 ha
        rcases Tab.mem_put hx with rfl | hx
        · show j < k
          omega
        · exact h.1 _ (List.mem_map_of_mem hx)

/-- Every element of a table in canonical form is what its key reads. -/
theorem Tab.get_of_mem {α : Type} {t : Tab α} (h : t.wf = true) {x : Nat × α} (hx : x ∈ t) : t.get x.1 = some x.2 := by
  rw [Tab.wf_iff] at h
  induction t with
  | nil => cases hx
  | cons c t ih =>
    obtain ⟨j, w⟩ := c
    rw [List.map_cons, List.pairwise_cons] at h
    rcases List.mem_cons.1 hx with rfl | hx
    · simp [Tab.get]
    · have := h.1 x.1 (List.mem_map_of_mem hx)
      rw [Tab.get, if_neg (by omega)]
      exact ih h.2 hx

theorem Tab.mem_of_get {α : Type} {t : Tab α} {k : Nat} {v : α} (h : t.get k = some v) : (k, v) ∈ t := by
  induction t with
  | nil => cases h
  | cons c t ih =>
    obtain ⟨j, w⟩ := c
    rw [Tab.get] at h
    split at h
    · rename_i hj
      cases h; subst hj; exact List.mem_cons_self
    · exact List.mem_cons_of_mem _ (ih h)

/-- How many elements of a table in canonical form meet a test: those at other keys, and the one at a key. -/
theorem Tab.count_at {α : Type} {t : Tab α} (h : t.wf = true) (p : α → Bool) (k : Nat) :
    (t.filter fun x => p x.2).length =
      (t.filter fun x => x.1 != k && p x.2).length + if (t.get k).any p then 1 else 0 := by
  rw [Tab.wf_iff] at h
  induction t with
  | nil => rfl
  | cons c t ih =>
    obtain ⟨j, w⟩ := c
    rw [List.map_cons, List.pairwise_cons] at h
    have ht := ih h.2
    by_cases hj : j = k
    · subst hj
      have hrest : (t.filter fun x => x.1 != j && p x.2) = t.filter fun x => p x.2 := by
        apply List.filter_congr
        intro x hx
        have := h.1 x.1 (List.mem_map_of_mem hx)
        have hne : (x.1 != j) = true := by simpa using (by omega : x.1 ≠ j)
        rw [hne, Bool.true_and]
      have hget : Tab.get ((j, w) :: t) j = some w := by simp [Tab.get]
      rw [hget]
      simp only [List.filter_cons, bne_self_eq_false, Bool.false_and, Bool.false_eq_true, if_false, Option.any_some, hrest]
      split <;> simp
    · have hget : Tab.get ((j, w) :: t) k = Tab.get t k := by rw [Tab.get, if_neg hj]
      have hne : (j != k) = true := by simpa using hj
      rw [hget]
      simp only [List.filter_cons, hne, Bool.true_and]
      split
      · simp only [List.length_cons, ht]; omega
      · exact ht

/-- The elements at other keys are those that were there. -/
theorem Tab.others_put {α : Type} (t : Tab α) (k : Nat) (v : α) (p : Nat × α → Bool) :
    (t.put k v).filter (fun x => x.1 != k && p x) = t.filter fun x => x.1 != k && p x := by
  induction t with
  | nil => simp [Tab.put]
  | cons c t ih =>
    obtain ⟨j, w⟩ := c
    unfold Tab.put
    split
    · simp
    · split
      · rename_i hk; subst hk; simp
      · simp only [List.filter_cons, ih]

theorem Tab.others_modify {α : Type} (t : Tab α) (k : Nat) (g : α → α) (p : Nat × α → Bool) :
    (t.modify k g).filter (fun x => x.1 != k && p x) = t.filter fun x => x.1 != k && p x := by
  induction t with
  | nil => rfl
  | cons c t ih =>
    obtain ⟨j, w⟩ := c
    unfold Tab.modify
    split
    · rename_i hk; subst hk; simp
    · simp only [List.filter_cons, ih]

/-- The element at an index of a fixed table after one has been changed. -/
theorem get_upd {α : Type} {n : Nat} (v : Vector α n) (i j : Fin n) (f : α → α) :
    (upd v i f)[j] = if i = j then f v[j] else v[j] := by
  unfold upd
  simp only [Fin.getElem_fin, Vector.getElem_set]
  by_cases h : i = j
  · subst h; simp
  · rw [if_neg h, if_neg (fun hh => h (Fin.ext hh))]

end Sys2Proof.Machine
end

