-- ==== Sys2Proof/Laws/Claims.lean ====
section
/-! SUPPORT. What the timer list keeps of the claims made on it, and every operation of the engines keeps the laws of the
claims (`ClaimsSafe`). -/

namespace Sys2Proof.Machine

/-! ## The timer list -/

/-- Every place of the later list stood in the earlier one under its number, with its kind and owner, or was claimed
since. -/
structure Timers.Ext (tm tm' : Timers) : Prop where
  next : tm.nextId ≤ tm'.nextId
  old : ∀ p ∈ tm'.list, (∃ q ∈ tm.list, q.id = p.id ∧ q.kind = p.kind ∧ q.owner = p.owner) ∨ tm.nextId ≤ p.id

namespace Timers

theorem Ext.refl (tm : Timers) : Ext tm tm := ⟨Nat.le_refl _, fun p hp => Or.inl ⟨p, hp, rfl, rfl, rfl⟩⟩

theorem Ext.trans {a b c : Timers} (h : Ext a b) (k : Ext b c) : Ext a c := by
  refine ⟨Nat.le_trans h.next k.next, fun p hp => ?_⟩
  rcases k.old p hp with ⟨q, hq, h1, h2, h3⟩ | hn
  · rcases h.old q hq with ⟨r, hr, k1, k2, k3⟩ | hm
    · exact Or.inl ⟨r, hr, k1.trans h1, k2.trans h2, k3.trans h3⟩
    · exact Or.inr (h1 ▸ hm)
  · exact Or.inr (Nat.le_trans h.next hn)

/-- A place that is gone never comes back under its number. -/
theorem Ext.gone {a b : Timers} (h : Ext a b) {id : Nat} (hid : id < a.nextId) (hg : ∀ p ∈ a.list, p.id ≠ id) :
    ∀ p ∈ b.list, p.id ≠ id := by
  intro p hp hx
  rcases h.old p hp with ⟨q, hq, h1, _, _⟩ | hn
  · exact hg q hq (h1.trans hx)
  · omega

theorem gives_none (tm : Timers) (kind : PlaceKind) (owner : Owner) : tm.gives kind owner none := fun _ h => by cases h

theorem gives.ext {a b : Timers} {kind : PlaceKind} {owner : Owner} {held : Option Nat} (h : a.gives kind owner held)
    (k : Ext a b) : b.gives kind owner held := by
  intro id hid
  obtain ⟨h1, h2⟩ := h id hid
  refine ⟨Nat.lt_of_lt_of_le h1 k.next, fun p hp hpid => ?_⟩
  rcases k.old p hp with ⟨q, hq, k1, k2, k3⟩ | hn
  · obtain ⟨h3, h4⟩ := h2 q hq (k1.trans hpid)
    exact ⟨k2 ▸ h3, k3 ▸ h4⟩
  · omega

theorem ext_release (tm : Timers) (id : Nat) : Ext tm (tm.release id) :=
  ⟨Nat.le_refl _, fun p hp => Or.inl ⟨p, (List.mem_filter.1 hp).1, rfl, rfl, rfl⟩⟩

theorem ext_releaseOpt (tm : Timers) : ∀ id : Option Nat, Ext tm (tm.releaseOpt id)
  | none => Ext.refl tm
  | some id => ext_release tm id

theorem ext_claim {tm tm' : Timers} {kind : PlaceKind} {owner : Owner} {expiry : BitVec 32} {interval count : Nat}
    {id : Option Nat} (hc : tm.claim kind owner expiry interval count = (tm', id)) : Ext tm tm' := by
  rcases tm.claim_spec kind owner expiry interval count with ⟨_, h⟩ | ⟨_, h⟩
  · rw [h] at hc
    cases hc
    refine ⟨Nat.le_succ _, fun p hp => ?_⟩
    rcases (mem_insertPlace _ _ _).1 hp with rfl | hp
    · exact Or.inr (Nat.le_refl _)
    · exact Or.inl ⟨p, hp, rfl, rfl, rfl⟩
  · rw [h] at hc
    cases hc
    exact Ext.refl tm

theorem ext_deliver (tm : Timers) : Ext tm tm.deliver := by
  unfold Timers.deliver
  split
  · exact Ext.refl tm
  · rename_i p ps hl
    split
    · refine ⟨Nat.le_refl _, fun q hq => Or.inl ?_⟩
      rcases (mem_insertPlace _ _ _).1 hq with rfl | hq
      · exact ⟨p, by rw [hl]; exact List.mem_cons_self, rfl, rfl, rfl⟩
      · exact ⟨q, by rw [hl]; exact List.mem_cons_of_mem _ hq, rfl, rfl, rfl⟩
    · exact ⟨Nat.le_refl _, fun q hq => Or.inl ⟨q, by rw [hl]; exact List.mem_cons_of_mem _ hq, rfl, rfl, rfl⟩⟩

end Timers

theorem insertPlace_perm (l : List TimerPlace) (p : TimerPlace) : (insertPlace l p).Perm (p :: l) := by
  induction l with
  | nil => exact List.Perm.refl _
  | cons q qs ih =>
    unfold insertPlace
    split
    · exact List.Perm.refl _
    · exact (List.Perm.cons q ih).trans (List.Perm.swap p q qs)

/-! ## The laws, kept -/

namespace Engines.ClaimsSafe

/-- The laws speak of the timer list, the entries, the prompt queues, the signals, the contexts and the slots. -/
theorem congr {e e' : Engines} (h : e.ClaimsSafe) (ht : e'.timers = e.timers) (hd : e'.dest = e.dest)
    (hi : e'.ind.signals = e.ind.signals) (hy : e'.play = e.play) (hs : e'.face.slots = e.face.slots) :
    e'.ClaimsSafe := by
  constructor
  · rw [ht]; exact h.fresh
  · rw [ht]; exact h.once
  · rw [hd]; exact h.tickets
  · rw [hd, ht]; exact h.placed
  · rw [hd, ht]; exact h.waiting
  · intro d x hx; rw [ht]; refine h.prompts d x ?_; unfold Engines.promptsOf at hx ⊢; rw [← hd]; exact hx
  · intro c; rw [ht]; unfold Indication.signalOf; rw [hi]; exact h.lanterns c
  · intro c; rw [ht]; unfold Indication.signalOf; rw [hi]; exact h.gongs c
  · intro c; rw [ht]; unfold Engines.ctx; rw [hy]; exact h.contexts c
  · intro k; rw [ht]; rw [hs]; exact h.slots k

/-- Another timer list that keeps the claims of the entries. -/
theorem withTimers {e : Engines} (h : e.ClaimsSafe) {tm : Timers} (k : e.timers.Ext tm)
    (hf : ∀ p ∈ tm.list, p.id < tm.nextId) (ho : (tm.list.map TimerPlace.id).Nodup)
    (hp : ∀ x ∈ e.dest.entries, ∃ p ∈ tm.list, p.id = x.place ∧ p.kind = .entryWait ∧ p.owner = .ticket x.ticket)
    (hw : ∀ p ∈ tm.list, p.kind = .entryWait → ∃ x ∈ e.dest.entries, x.place = p.id) :
    (e.setTimers tm).ClaimsSafe :=
  ⟨hf, ho, h.tickets, hp, hw, fun d x hx => (h.prompts d x hx).ext k, fun c => (h.lanterns c).ext k,
    fun c => (h.gongs c).ext k, fun c => (h.contexts c).ext k, fun s => (h.slots s).ext k⟩

/-- A release of a holding that is no entry's. -/
theorem release {e : Engines} (h : e.ClaimsSafe) {kind : PlaceKind} {owner : Owner} {held : Option Nat}
    (hg : e.timers.gives kind owner held) (hk : kind ≠ .entryWait) : (e.release held).ClaimsSafe := by
  cases held with
  | none => exact h.congr rfl rfl rfl rfl rfl
  | some id =>
    have hgi := (hg id rfl).2
    refine h.withTimers (e.timers.ext_release id) ?_ ?_ ?_ ?_
    · exact fun p hp => h.fresh p (List.mem_filter.1 hp).1
    · exact h.once.sublist (List.filter_sublist.map _)
    · intro x hx
      obtain ⟨p, hp, h1, h2, h3⟩ := h.placed x hx
      refine ⟨p, List.mem_filter.2 ⟨hp, ?_⟩, h1, h2, h3⟩
      rw [bne_iff_ne]
      intro hid
      exact hk ((hgi p hp hid).1.symm.trans h2)
    · exact fun p hp => h.waiting p (List.mem_filter.1 hp).1

/-- A claim that is accepted and is no entry's. -/
theorem claim {e : Engines} (h : e.ClaimsSafe) {kind : PlaceKind} {owner : Owner} {expiry : BitVec 32}
    {interval count : Nat} {tm : Timers} {id : Nat} (hc : e.timers.claim kind owner expiry interval count = (tm, some id))
    (hk : kind ≠ .entryWait) : (e.setTimers tm).ClaimsSafe ∧ tm.gives kind owner (some id) := by
  have k := Timers.ext_claim hc
  rcases e.timers.claim_spec kind owner expiry interval count with ⟨_, hs⟩ | ⟨_, hs⟩
  · rw [hs] at hc
    cases hc
    refine ⟨h.withTimers k ?_ ?_ ?_ ?_, ?_⟩
    · intro p hp
      rcases (mem_insertPlace _ _ _).1 hp with rfl | hp
      · exact Nat.lt_succ_self _
      · exact Nat.lt_succ_of_lt (h.fresh p hp)
    · refine ((insertPlace_perm _ _).map TimerPlace.id).nodup_iff.2 (List.nodup_cons.2 ⟨?_, h.once⟩)
      intro hm
      obtain ⟨p, hp, hid⟩ := List.mem_map.1 hm
      have := h.fresh p hp
      dsimp only at hid
      omega
    · intro x hx
      obtain ⟨p, hp, hr⟩ := h.placed x hx
      exact ⟨p, (mem_insertPlace _ _ _).2 (Or.inr hp), hr⟩
    · intro p hp hkind
      rcases (mem_insertPlace _ _ _).1 hp with rfl | hp
      · exact absurd hkind hk
      · exact h.waiting p hp hkind
    · intro id' hid'
      cases hid'
      refine ⟨Nat.lt_succ_self _, fun p hp hpid => ?_⟩
      rcases (mem_insertPlace _ _ _).1 hp with rfl | hp
      · exact ⟨rfl, rfl⟩
      · have := h.fresh p hp
        omega
  · rw [hs] at hc; cases hc

theorem report {e : Engines} (h : e.ClaimsSafe) (A : Ambient) (ev : Event) : (e.report A ev).ClaimsSafe :=
  h.congr rfl rfl rfl rfl rfl

theorem updFaceFrom {e : Engines} (h : e.ClaimsSafe) (v : Vector OverrideSlot 4) (d : Nat) (g : Face → Face) :
    (e.updFaceFrom v d g).ClaimsSafe := by
  refine h.congr (by simp) (by simp) (by simp) (by simp) ?_
  unfold Engines.updFaceFrom
  dsimp only
  split
  · rfl
  · split
    · rfl
    · exact (Keeps.changeMark _ _ _).slots

theorem updFace {e : Engines} (h : e.ClaimsSafe) (d : Nat) (g : Face → Face) : (e.updFace d g).ClaimsSafe :=
  h.updFaceFrom _ d g

/-! ## Prompts -/

theorem promptsOf_storePrompts (e : Engines) (d c : Nat) (q : List Prompt) :
    (e.storePrompts d q).promptsOf c = if c = d then (e.dest.prompts.get d).elim [] (fun _ => q) else e.promptsOf c := by
  have : (e.storePrompts d q).dest.prompts.get c =
      if c = d then (e.dest.prompts.get c).map fun _ => q else e.dest.prompts.get c := Tab.get_modify _ _ _ _
  unfold Engines.promptsOf
  rw [this]
  by_cases h : c = d
  · subst h
    rw [if_pos rfl, if_pos rfl]
    cases e.dest.prompts.get c <;> rfl
  · rw [if_neg h, if_neg h]

/-- A prompt queue whose holds are its own. -/
theorem storePrompts {e : Engines} (h : e.ClaimsSafe) (d : Nat) (q : List Prompt)
    (hq : ∀ x ∈ q, e.timers.gives .promptHold (.prompt d) x.hold) : (e.storePrompts d q).ClaimsSafe := by
  refine ⟨h.fresh, h.once, h.tickets, h.placed, h.waiting, fun c x hx => ?_, h.lanterns, h.gongs, h.contexts, h.slots⟩
  rw [promptsOf_storePrompts] at hx
  split at hx
  · rename_i hcd; subst hcd
    cases hg : e.dest.prompts.get c with
    | none => rw [hg] at hx; cases hx
    | some l => rw [hg] at hx; exact hq x hx
  · exact h.prompts c x hx

theorem handPrompts {e : Engines} (h : e.ClaimsSafe) (d : Nat) : (e.handPrompts d).ClaimsSafe := h.updFace d _

theorem claimHold {e : Engines} (h : e.ClaimsSafe) (A : Ambient) (d : Nat) : (e.claimHold A d).ClaimsSafe := by
  unfold Engines.claimHold
  split
  · exact h
  · rename_i p q hq
    split
    · rename_i tm id hc
      obtain ⟨h1, hg⟩ := h.claim hc (by decide)
      refine h1.storePrompts d _ fun x hx => ?_
      rcases List.mem_cons.1 hx with rfl | hx
      · exact hg
      · exact h1.prompts d x (by show x ∈ e.promptsOf d; rw [hq]; exact List.mem_cons_of_mem _ hx)
    · exact h.report A _

theorem placePrompt {e : Engines} (h : e.ClaimsSafe) (A : Ambient) (d : Nat) {p : Prompt} {rest : List Prompt}
    (hp : p.hold = none) (hr : ∀ x ∈ rest, x ∈ e.promptsOf d) : (e.placePrompt A d p rest).ClaimsSafe := by
  unfold Engines.placePrompt
  have h1 : (e.storePrompts d (p :: rest)).ClaimsSafe := h.storePrompts d _ fun x hx => by
    rcases List.mem_cons.1 hx with rfl | hx
    · rw [hp]; exact Timers.gives_none _ _ _
    · exact h.prompts d x (hr x hx)
  apply handPrompts
  split
  · exact h1
  · exact h1.claimHold A d

theorem pushPrompt {e : Engines} (h : e.ClaimsSafe) (A : Ambient) (d : Nat) {p : Prompt} (hp : p.hold = none) :
    (e.pushPrompt A d p).ClaimsSafe := by
  unfold Engines.pushPrompt
  dsimp only
  split
  · exact h.placePrompt A d hp fun x hx => hx
  · have hg : e.timers.gives .promptHold (.prompt d) ((e.promptsOf d).getLast?.bind Prompt.hold) := by
      cases hl : (e.promptsOf d).getLast? with
      | none => exact Timers.gives_none _ _ _
      | some x => exact h.prompts d x (List.mem_of_getLast? hl)
    exact (h.release hg (by decide)).placePrompt A d hp fun x hx => (List.dropLast_sublist _).subset hx

theorem replacePrompt {e : Engines} (h : e.ClaimsSafe) (A : Ambient) (d t : Nat) {p : Prompt} (hp : p.hold = none) :
    (e.replacePrompt A d t p).ClaimsSafe := by
  unfold Engines.replacePrompt
  dsimp only
  split
  · exact h.placePrompt A d hp fun x hx => List.mem_of_mem_eraseP hx
  · exact h.pushPrompt A d hp

theorem removePrompts {e : Engines} (h : e.ClaimsSafe) (d : Nat) : (e.removePrompts d).ClaimsSafe := by
  unfold Engines.removePrompts
  have key : ∀ (l : List Prompt) (b : Engines), (∀ x ∈ l, x ∈ b.promptsOf d) → b.ClaimsSafe →
      (l.foldl (fun b (p : Prompt) => b.release p.hold) b).ClaimsSafe := by
    intro l
    induction l with
    | nil => exact fun b _ hb => hb
    | cons x l ih =>
      intro b hl hb
      exact ih _ (fun y hy => hl y (List.mem_cons_of_mem _ hy))
        (hb.release (hb.prompts d x (hl x List.mem_cons_self)) (by decide))
  exact ((key (e.promptsOf d) e (fun x hx => hx) h).storePrompts d [] (by simp)).handPrompts d

/-! ## Entries -/

theorem ticket_inj {e : Engines} (h : e.ClaimsSafe) {x y : Entry} (hx : x ∈ e.dest.entries) (hy : y ∈ e.dest.entries)
    (ht : x.ticket = y.ticket) : x = y := by
  have := h.tickets
  unfold List.Nodup at this
  rw [List.pairwise_map] at this
  by_cases hxy : x = y
  · exact hxy
  · have key : ∀ {l : List Entry}, l.Pairwise (fun a b => a.ticket ≠ b.ticket) → x ∈ l → y ∈ l → x = y := by
      intro l hl hx hy
      induction l with
      | nil => cases hx
      | cons z l ih =>
        rw [List.pairwise_cons] at hl
        rcases List.mem_cons.1 hx with hx | hx <;> rcases List.mem_cons.1 hy with hy | hy
        · rw [hx, hy]
        · exact absurd (hx ▸ ht) (hl.1 y hy)
        · exact absurd (hy ▸ ht).symm (hl.1 x hx)
        · exact ih hl.2 hx hy
    exact key this hx hy

theorem place_inj {e : Engines} (h : e.ClaimsSafe) {p q : TimerPlace} (hp : p ∈ e.timers.list) (hq : q ∈ e.timers.list)
    (hid : p.id = q.id) : p = q := by
  have := h.once
  unfold List.Nodup at this
  rw [List.pairwise_map] at this
  have key : ∀ {l : List TimerPlace}, l.Pairwise (fun a b => a.id ≠ b.id) → p ∈ l → q ∈ l → p = q := by
    intro l hl hx hy
    induction l with
    | nil => cases hx
    | cons z l ih =>
      rw [List.pairwise_cons] at hl
      rcases List.mem_cons.1 hx with hx | hx <;> rcases List.mem_cons.1 hy with hy | hy
      · rw [hx, hy]
      · exact absurd (hx ▸ hid) (hl.1 q hy)
      · exact absurd (hy ▸ hid).symm (hl.1 p hx)
      · exact ih hl.2 hx hy
  exact key this hp hq

theorem endEntry {e : Engines} (h : e.ClaimsSafe) {x : Entry} (hx : x ∈ e.dest.entries) : (e.endEntry x).ClaimsSafe := by
  have k := e.timers.ext_release x.place
  obtain ⟨px, hpx, hpx1, hpx2, hpx3⟩ := h.placed x hx
  refine ⟨?_, ?_, ?_, ?_, ?_, fun d y hy => (h.prompts d y hy).ext k, fun c => (h.lanterns c).ext k,
    fun c => (h.gongs c).ext k, fun c => (h.contexts c).ext k, fun s => (h.slots s).ext k⟩
  · exact fun p hp => h.fresh p (List.mem_filter.1 hp).1
  · exact h.once.sublist (List.filter_sublist.map _)
  · exact h.tickets.sublist (List.filter_sublist.map _)
  · intro y hy
    obtain ⟨hy, hne⟩ := List.mem_filter.1 hy
    obtain ⟨p, hp, h1, h2, h3⟩ := h.placed y hy
    refine ⟨p, List.mem_filter.2 ⟨hp, ?_⟩, h1, h2, h3⟩
    rw [bne_iff_ne] at hne ⊢
    intro hid
    have := h.place_inj hp hpx (hid.trans hpx1.symm)
    subst this
    rw [hpx3] at h3
    injection h3 with ht
    exact hne ht.symm
  · intro p hp hkind
    obtain ⟨hp, hne⟩ := List.mem_filter.1 hp
    obtain ⟨y, hy, hyp⟩ := h.waiting p hp hkind
    refine ⟨y, List.mem_filter.2 ⟨hy, ?_⟩, hyp⟩
    rw [bne_iff_ne] at hne ⊢
    intro ht
    have := h.ticket_inj hy hx ht
    subst this
    exact hne hyp.symm

theorem cancelTerminal {e : Engines} (h : e.ClaimsSafe) (A : Ambient) (d : Nat) (why : Reason) :
    (e.cancelTerminal A d why).ClaimsSafe := by
  unfold Engines.cancelTerminal
  have key : ∀ (l : List Entry) (b : Engines), (∀ x ∈ l, x ∈ b.dest.entries) → (l.map Entry.ticket).Nodup →
      b.ClaimsSafe →
      (l.foldl (fun b (x : Entry) => (b.endEntry x).report A (.entryCancelled x.ticket d why)) b).ClaimsSafe := by
    intro l
    induction l with
    | nil => exact fun b _ _ hb => hb
    | cons x l ih =>
      intro b hl hn hb
      rw [List.map_cons, List.nodup_cons] at hn
      refine ih _ (fun y hy => ?_) hn.2 ((hb.endEntry (hl x List.mem_cons_self)).report A _)
      refine List.mem_filter.2 ⟨hl y (List.mem_cons_of_mem _ hy), ?_⟩
      rw [bne_iff_ne]
      intro ht
      exact hn.1 (ht ▸ List.mem_map_of_mem hy)
  refine removePrompts (key _ e (fun x hx => (List.mem_filter.1 hx).1) ?_ h) d
  exact h.tickets.sublist (List.filter_sublist.map _)

/-! ## Contexts -/

/-- The contexts change, and each holds what it held or nothing. -/
theorem setPlay {e : Engines} (h : e.ClaimsSafe) (v : Vector Context 16)
    (hv : ∀ c, (ctxOf v c).place = none ∨ (ctxOf v c).place = (e.ctx c).place) : (e.setPlay v).ClaimsSafe := by
  refine ⟨h.fresh, h.once, h.tickets, h.placed, h.waiting, h.prompts, h.lanterns, h.gongs, fun c => ?_, h.slots⟩
  show e.timers.gives _ _ (ctxOf v c).place
  rcases hv c with hc | hc
  · rw [hc]; exact Timers.gives_none _ _ _
  · rw [hc]; exact h.contexts c

theorem ctxOf_upd (v : Vector Context 16) (c i : Fin 16) (g : Context → Context) :
    ctxOf (upd v c g) i = if c = i then g (ctxOf v i) else ctxOf v i := get_upd v c i g

theorem onCtx {e : Engines} (h : e.ClaimsSafe) (c : Fin 16) (g : Context → Context)
    (hg : ∀ x, (g x).place = none ∨ (g x).place = x.place) : (e.onCtx c g).ClaimsSafe := by
  refine h.setPlay _ fun i => ?_
  rw [ctxOf_upd]
  split
  · exact hg _
  · exact Or.inr rfl

/-- A context takes a place that is its own. -/
theorem giveCtx {e : Engines} (h : e.ClaimsSafe) (c : Fin 16) (id : Nat)
    (hg : e.timers.gives .dwell (.context c) (some id)) :
    (e.onCtx c fun x => { x with place := some id }).ClaimsSafe := by
  refine ⟨h.fresh, h.once, h.tickets, h.placed, h.waiting, h.prompts, h.lanterns, h.gongs, fun i => ?_, h.slots⟩
  show e.timers.gives _ _ (ctxOf (upd e.play c _) i).place
  rw [ctxOf_upd]
  split
  · rename_i hc; subst hc; exact hg
  · exact h.contexts i

theorem claimDwell {e : Engines} (h : e.ClaimsSafe) (A : Ambient) (c : Fin 16) (n : Nat) :
    (e.claimDwell A c n).ClaimsSafe := by
  unfold Engines.claimDwell
  dsimp only
  split
  · rename_i tm id hc
    obtain ⟨h1, hg⟩ := h.claim hc (by decide)
    exact h1.giveCtx c id hg
  · exact (h.onCtx c _ fun _ => Or.inl rfl).report A _

theorem releaseDwell {e : Engines} (h : e.ClaimsSafe) (c : Fin 16) : (e.releaseDwell c).ClaimsSafe :=
  (h.release (h.contexts c) (by decide)).onCtx c _ fun _ => Or.inl rfl

theorem suspend {e : Engines} (h : e.ClaimsSafe) (A : Ambient) (c : Fin 16) : (e.suspend A c).ClaimsSafe := by
  unfold Engines.suspend
  exact (h.releaseDwell c).onCtx c _ fun _ => Or.inr rfl

theorem resume {e : Engines} (h : e.ClaimsSafe) (A : Ambient) (c : Fin 16) : (e.resume A c).ClaimsSafe := by
  unfold Engines.resume
  have h1 := h.onCtx c (fun x => { x with state := .playing }) fun _ => Or.inr rfl
  exact h1.claimDwell A c _

theorem targetEvent {e : Engines} (h : e.ClaimsSafe) (A : Ambient) (c : Fin 16) : (e.targetEvent A c).ClaimsSafe := by
  unfold Engines.targetEvent
  dsimp only
  split
  · split
    · exact h.suspend A c
    · split
      · exact h.claimDwell A c _
      · exact h
  · split
    · exact h.resume A c
    · exact h
  · exact h
  · exact h

theorem handNotice {e : Engines} (h : e.ClaimsSafe) (d : Nat) : (e.handNotice d).ClaimsSafe := h.updFace d _

theorem handNotices {e : Engines} (h : e.ClaimsSafe) (ds : List Nat) : (e.handNotices ds).ClaimsSafe :=
  foldl_inv Engines.ClaimsSafe _ (fun _ d hb => hb.handNotice d) _ _ h

theorem handTargets {e : Engines} (h : e.ClaimsSafe) (c : Fin 16) : (e.handTargets c).ClaimsSafe := h.handNotices _

theorem retarget_place (t : Tab Face) (d : Nat) (x : Context) : (retarget t d x).place = x.place := by
  unfold retarget
  split <;> rfl

theorem targetNotice {e : Engines} (h : e.ClaimsSafe) (A : Ambient) (d : Nat) : (e.targetNotice A d).ClaimsSafe := by
  unfold Engines.targetNotice
  dsimp only
  apply handNotice
  apply foldl_inv Engines.ClaimsSafe
  · intro b c hb
    split
    · exact hb
    · exact hb.targetEvent A c
  · refine h.setPlay _ fun c => Or.inr ?_
    apply foldl_inv (fun v : Vector Context 16 => (ctxOf v c).place = (e.ctx c).place)
    · intro v i hv
      rw [ctxOf_upd]
      split
      · rw [retarget_place]; exact hv
      · exact hv
    · rfl

theorem coverNotice {e : Engines} (h : e.ClaimsSafe) (A : Ambient) (ds : List Nat) : (e.coverNotice A ds).ClaimsSafe := by
  unfold Engines.coverNotice
  dsimp only
  apply handNotices
  apply foldl_inv Engines.ClaimsSafe
  · intro b c hb
    split
    · exact hb.targetEvent A c
    · exact hb
  · exact h

/-! ## Cover -/

theorem onset {e : Engines} (h : e.ClaimsSafe) (A : Ambient) (d : Nat) (k : Fin 4) (cls : DisplayClass) :
    (e.onset A d k cls).ClaimsSafe := by
  unfold Engines.onset
  have h1 := h.updFace d (fun f => { f with cover := some k, strokes := 0 })
  dsimp only
  split
  · exact h1.cancelTerminal A d _
  · exact h1

theorem moveCover {e : Engines} (h : e.ClaimsSafe) (A : Ambient) (v : Vector OverrideSlot 4) (d : Nat)
    (old new : Option (Fin 4)) (cls : DisplayClass) : (e.moveCover A v d old new cls).ClaimsSafe := by
  unfold Engines.moveCover
  split
  · exact h
  · exact h.onset A d _ cls
  · exact h.updFace d _
  · split
    · exact h
    · exact h.updFaceFrom v d _

theorem coverEventFrom {e : Engines} (h : e.ClaimsSafe) (A : Ambient) (v : Vector OverrideSlot 4) (ds : List Nat) :
    (e.coverEventFrom A v ds).ClaimsSafe := by
  unfold Engines.coverEventFrom
  dsimp only
  have h1 := foldl_inv Engines.ClaimsSafe (fun e (m : CoverMove) => e.moveCover A v m.display m.old m.new m.cls)
    (fun b m hb => hb.moveCover A v m.display m.old m.new m.cls) (coverMoves e ds) e h
  split
  · exact h1
  · exact h1.coverNotice A _

theorem coverEvent {e : Engines} (h : e.ClaimsSafe) (A : Ambient) (ds : List Nat) : (e.coverEvent A ds).ClaimsSafe :=
  h.coverEventFrom A _ ds

theorem slotOf_upd (v : Vector OverrideSlot 4) (k i : Fin 4) (g : OverrideSlot → OverrideSlot) :
    slotOf (upd v k g) i = if k = i then g (slotOf v i) else slotOf v i := get_upd v k i g

/-- A slot changes, and holds what it held or nothing. -/
theorem onSlot {e : Engines} (h : e.ClaimsSafe) (k : Fin 4) (g : OverrideSlot → OverrideSlot)
    (hg : ∀ x, (g x).place = none ∨ (g x).place = x.place) : (e.onSlot k g).ClaimsSafe := by
  refine ⟨h.fresh, h.once, h.tickets, h.placed, h.waiting, h.prompts, h.lanterns, h.gongs, h.contexts, fun i => ?_⟩
  show e.timers.gives _ _ (slotOf (upd e.face.slots k g) i).place
  rw [slotOf_upd]
  split
  · rcases hg (slotOf e.face.slots i) with hx | hx
    · rw [hx]; exact Timers.gives_none _ _ _
    · rw [hx]; exact h.slots i
  · exact h.slots i

theorem changeMark {e : Engines} (h : e.ClaimsSafe) (d : Nat) (rise : Bool) : (e.changeMark d rise).ClaimsSafe :=
  h.congr (by simp) (by simp) (by simp) (by simp) (Keeps.changeMark e d rise).slots

theorem refreshMark {e : Engines} (h : e.ClaimsSafe) (d : Nat) : (e.refreshMark d).ClaimsSafe :=
  h.congr (by simp) (by simp) (by simp) (by simp) (Keeps.refreshMark e d).slots

theorem updSlot {e : Engines} (h : e.ClaimsSafe) (k : Fin 4) (g : OverrideSlot → OverrideSlot)
    (hg : ∀ x, (g x).place = none ∨ (g x).place = x.place) : (e.updSlot k g).ClaimsSafe := by
  unfold Engines.updSlot
  dsimp only
  refine foldl_inv Engines.ClaimsSafe _ (fun b x hb => ?_) _ _ (h.onSlot k g hg)
  split
  · exact hb
  · exact hb.changeMark _ _

theorem claimOverride {e : Engines} (h : e.ClaimsSafe) (A : Ambient) (k : Fin 4) : (e.claimOverride A k).ClaimsSafe := by
  unfold Engines.claimOverride
  split
  · rename_i tm id hc
    obtain ⟨h1, hg⟩ := h.claim hc (by decide)
    refine ⟨h1.fresh, h1.once, h1.tickets, h1.placed, h1.waiting, h1.prompts, h1.lanterns, h1.gongs, h1.contexts,
      fun i => ?_⟩
    show tm.gives _ _ (slotOf (upd e.face.slots k _) i).place
    rw [slotOf_upd]
    split
    · rename_i hi; subst hi; exact hg
    · exact h1.slots i
  · exact h.report A _

theorem settlePlace {e : Engines} (h : e.ClaimsSafe) (A : Ambient) (k : Fin 4) : (e.settlePlace A k).ClaimsSafe := by
  unfold Engines.settlePlace
  dsimp only
  split
  · split
    · exact h
    · exact h.claimOverride A k
  · exact (h.release (h.slots k) (by decide)).onSlot k _ fun _ => Or.inl rfl

theorem acceptSlot {e : Engines} (h : e.ClaimsSafe) (A : Ambient) (k : Fin 4) (r : Rec4) :
    (e.acceptSlot A k r).ClaimsSafe := by
  unfold Engines.acceptSlot
  extract_lets before e1 e2 kept e3
  have h1 : e1.ClaimsSafe := h.onSlot k _ fun _ => Or.inr rfl
  have h3 : e3.ClaimsSafe := by
    apply foldl_inv Engines.ClaimsSafe
    · intro b a hb
      split
      · exact hb.changeMark _ _
      · exact hb
    · exact h1.coverEventFrom A _ _
  exact h3.settlePlace A k

theorem atFirst_place (ready : Fin 16 → Bool) (rot : List (Fin 16)) (x : Context) : (x.atFirst ready rot).place = x.place := by
  unfold Context.atFirst
  split <;> rfl

theorem ctxReady {e : Engines} (h : e.ClaimsSafe) (A : Ambient) (l c : Fin 16) : (e.ctxReady A l c).ClaimsSafe := by
  unfold Engines.ctxReady
  dsimp only
  split
  · exact (h.onCtx c _ fun x => Or.inr (atFirst_place _ _ x)).handTargets c
  · exact h

theorem languageReady {e : Engines} (h : e.ClaimsSafe) (A : Ambient) (l : Fin 16) : (e.languageReady A l).ClaimsSafe := by
  unfold Engines.languageReady
  dsimp only
  apply foldl_inv Engines.ClaimsSafe _ fun b c hb => hb.ctxReady A l c
  apply foldl_inv Engines.ClaimsSafe _ fun b k hb => ?_
  · exact foldl_inv Engines.ClaimsSafe _ (fun b d hb => hb.refreshMark d) _ _ h
  · split
    · exact hb.updSlot k _ fun _ => Or.inr rfl
    · exact hb

theorem rotateSlot {e : Engines} (h : e.ClaimsSafe) (A : Ambient) (k : Fin 4) : (e.rotateSlot A k).ClaimsSafe :=
  h.updSlot k _ fun _ => Or.inr rfl

/-! ## Indication -/

theorem rederive {e : Engines} (h : e.ClaimsSafe) (A : Ambient) : (e.rederive A).ClaimsSafe := by
  unfold Engines.rederive
  dsimp only
  apply foldl_inv Engines.ClaimsSafe
  · intro b d hb
    exact hb.targetNotice A d
  · apply coverEvent
    apply foldl_inv Engines.ClaimsSafe
    · intro b d hb
      exact hb.updFace d _
    · exact h

theorem rehandPrompts {e : Engines} (h : e.ClaimsSafe) : e.rehandPrompts.ClaimsSafe :=
  foldl_inv Engines.ClaimsSafe _ (fun _ d hb => hb.handPrompts d) _ _ h

theorem signalOf_onSignal (e : Engines) (c i : Fin 48) (g : Signal → Signal) :
    (e.onSignal c g).ind.signalOf i = if c = i then g (e.ind.signalOf i) else e.ind.signalOf i := get_upd e.ind.signals c i g

/-- A signal changes, and holds places that are its own. -/
theorem onSignal {e : Engines} (h : e.ClaimsSafe) (c : Fin 48) (g : Signal → Signal)
    (hl : e.timers.gives .lantern (.car c) (g (e.ind.signalOf c)).lanternPlace)
    (hg : e.timers.gives .gong (.car c) (g (e.ind.signalOf c)).gongPlace) : (e.onSignal c g).ClaimsSafe := by
  refine ⟨h.fresh, h.once, h.tickets, h.placed, h.waiting, h.prompts, fun i => ?_, fun i => ?_, h.contexts, h.slots⟩
  · rw [signalOf_onSignal]
    split
    · rename_i hi; subst hi; exact hl
    · exact h.lanterns i
  · rw [signalOf_onSignal]
    split
    · rename_i hi; subst hi; exact hg
    · exact h.gongs i

theorem endLantern {e : Engines} (h : e.ClaimsSafe) (c : Fin 48) : (e.endLantern c).ClaimsSafe := by
  unfold Engines.endLantern
  dsimp only
  split
  · have h1 := h.release (h.lanterns c) (by decide)
    have h2 := h1.release (h1.gongs c) (by decide)
    exact h2.onSignal c _ (Timers.gives_none _ _ _) (Timers.gives_none _ _ _)
  · exact h

theorem claimLantern {e : Engines} (h : e.ClaimsSafe) (A : Ambient) (c : Fin 48) (g : Rec8) (l : Nat) :
    (e.claimLantern A c g l).ClaimsSafe := by
  unfold Engines.claimLantern
  split
  · exact h
  · split
    · rename_i tm id hc
      obtain ⟨h1, hg⟩ := h.claim hc (by decide)
      exact h1.onSignal c _ hg (h1.gongs c)
    · exact h.report A _

theorem claimGong {e : Engines} (h : e.ClaimsSafe) (A : Ambient) (c : Fin 48) (dir : Arrow) (l : Nat) :
    (e.claimGong A c dir l).ClaimsSafe := by
  unfold Engines.claimGong
  split
  · rename_i tm id hc
    obtain ⟨h1, hg⟩ := h.claim hc (by decide)
    exact h1.onSignal c _ (h1.lanterns c) hg
  · exact h.report A _

theorem startSignals {e : Engines} (h : e.ClaimsSafe) (A : Ambient) (c : Fin 48) (r : Rec4) (gi : Fin 8) :
    (e.startSignals A c r gi).ClaimsSafe := by
  unfold Engines.startSignals
  dsimp only
  have h1 := h.onSignal c
    (fun x => { x with landing := some r.carPosition, two := (e.ind.groupOf gi).double, group := some gi })
    (h.lanterns c) (h.gongs c)
  split
  · exact h1
  · refine claimGong (claimLantern (onSignal h1 c _ ?_ ?_) A c _ _) A c _ _
    · exact h1.lanterns c
    · exact h1.gongs c

theorem removeStops {e : Engines} (h : e.ClaimsSafe) (c : Fin 48) (fl : List Nat) : (e.removeStops c fl).ClaimsSafe :=
  ⟨h.fresh, h.once, h.tickets, h.placed, h.waiting, h.prompts, h.lanterns, h.gongs, h.contexts, h.slots⟩

theorem setStops {e : Engines} (h : e.ClaimsSafe) (c : Fin 48) (l : List Stop) : (e.setStops c l).ClaimsSafe :=
  ⟨h.fresh, h.once, h.tickets, h.placed, h.waiting, h.prompts, h.lanterns, h.gongs, h.contexts, h.slots⟩

theorem dropStops {e : Engines} (h : e.ClaimsSafe) (A : Ambient) (c : Fin 48) : (e.dropStops A c).ClaimsSafe := by
  unfold Engines.dropStops
  dsimp only
  split
  · exact h
  · exact (h.setStops c []).report A _

theorem arrive {e : Engines} (h : e.ClaimsSafe) (A : Ambient) (c : Fin 48) (r : Rec4) (g : Fin 8) :
    (e.arrive A c r g).ClaimsSafe := by
  unfold Engines.arrive
  dsimp only
  split
  · exact (h.removeStops c _).startSignals A c r g
  · exact h.removeStops c _

theorem signalTests {e : Engines} (h : e.ClaimsSafe) (A : Ambient) (c : Fin 48) (r : Rec4) :
    (e.signalTests A c r).ClaimsSafe := by
  unfold Engines.signalTests
  dsimp only
  have h1 : (if (e.ind.signalOf c).keptBy r then e else e.endLantern c).ClaimsSafe := by
    split
    · exact h
    · exact h.endLantern c
  generalize (if (e.ind.signalOf c).keptBy r then e else e.endLantern c) = b at h1
  split
  · split
    · exact h1.arrive A c r _
    · exact h1
  · exact h1

theorem acceptCar {e : Engines} (h : e.ClaimsSafe) (A : Ambient) (c : Fin 48) (r : Rec4) :
    (e.acceptCar A c r).ClaimsSafe := by
  unfold Engines.acceptCar
  dsimp only
  have h1 : (e.onCar c (e.ind.taken r)).ClaimsSafe := h.congr rfl rfl rfl rfl rfl
  apply rederive
  apply signalTests
  split
  · exact h1.dropStops A c
  · exact h1

theorem acceptGroup {e : Engines} (h : e.ClaimsSafe) (A : Ambient) (g : Fin 8) (r : Rec8) :
    (e.acceptGroup A g r).ClaimsSafe := by
  unfold Engines.acceptGroup
  dsimp only
  apply rederive
  have h1 : (e.setGroup g r).ClaimsSafe := h.congr rfl rfl rfl rfl rfl
  apply foldl_inv Engines.ClaimsSafe
  · intro b c hb
    exact hb.congr rfl rfl rfl rfl rfl
  · split
    · exact foldl_inv Engines.ClaimsSafe _ (fun b c hb => hb.endLantern c) _ _ h1
    · exact h1

theorem acceptLabel {e : Engines} (h : e.ClaimsSafe) (A : Ambient) (f : Nat) (r : Rec4) :
    (e.acceptLabel A f r).ClaimsSafe := by
  have h1 : (e.setLabels (e.ind.labels.put f r)).ClaimsSafe := h.congr rfl rfl rfl rfl rfl
  exact (h1.rederive A).rehandPrompts

theorem clearCars {e : Engines} (h : e.ClaimsSafe) (A : Ambient) : (e.clearCars A).ClaimsSafe := by
  have h1 := foldl_inv Engines.ClaimsSafe Engines.endLantern (fun b c hb => hb.endLantern c) (List.finRange 48) e h
  unfold Engines.clearCars
  generalize (List.finRange 48).foldl Engines.endLantern e = b at h1
  have h2 : (b.setCars (Vector.replicate 48 Car.reset)).ClaimsSafe := h1.congr rfl rfl rfl rfl rfl
  exact h2.rederive A

theorem clearLabels {e : Engines} (h : e.ClaimsSafe) (A : Ambient) : (e.clearLabels A).ClaimsSafe := by
  have h1 : (e.setLabels []).ClaimsSafe := h.congr rfl rfl rfl rfl rfl
  exact (h1.rederive A).rehandPrompts

theorem flash {e : Engines} (h : e.ClaimsSafe) (A : Ambient) (c : Fin 48) (p : TimerPlace) :
    (e.flash A c p).ClaimsSafe := by
  unfold Engines.flash
  split
  · refine rederive (h.onSignal c _ ?_ (h.gongs c)) A
    dsimp only
    split
    · exact h.lanterns c
    · exact Timers.gives_none _ _ _
  · exact h

theorem stroke {e : Engines} (h : e.ClaimsSafe) (c : Fin 48) (p : TimerPlace) : (e.stroke c p).ClaimsSafe := by
  unfold Engines.stroke
  dsimp only
  split
  · generalize (e.face.faces.filter fun y => (e.ind.signalOf c).owns c y.2 && e.eligible y.1 y.2).map Prod.fst = ds
    have h1 := foldl_inv Engines.ClaimsSafe
      (fun b d => b.updFace d fun f => { f with strokes := min (f.strokes + 1) 3 }) (fun b d hb => hb.updFace d _) ds e h
    refine h1.onSignal c _ (h1.lanterns c) ?_
    dsimp only
    split
    · exact h1.gongs c
    · exact Timers.gives_none _ _ _
  · exact h

/-! ## The roster and the links -/

theorem leaveQueue {e : Engines} (h : e.ClaimsSafe) (n : Fin 8) (d : Nat) : (e.leaveQueue n d).ClaimsSafe :=
  h.congr rfl rfl rfl rfl rfl

theorem onDisplay {e : Engines} (h : e.ClaimsSafe) (d : Nat) (g : Display → Display) : (e.onDisplay d g).ClaimsSafe :=
  h.congr rfl rfl rfl rfl rfl

theorem openQueue {e : Engines} (h : e.ClaimsSafe) (d : Nat) (cls : DisplayClass) : (e.openQueue d cls).ClaimsSafe := by
  unfold Engines.openQueue
  split
  · refine ⟨h.fresh, h.once, h.tickets, h.placed, h.waiting, fun c x hx => ?_, h.lanterns, h.gongs, h.contexts, h.slots⟩
    have : (e.setPrompts (e.dest.prompts.put d [])).promptsOf c = if c = d then [] else e.promptsOf c := by
      show ((e.dest.prompts.put d []).get c).getD [] = _
      rw [Tab.get_put]
      split <;> rfl
    rw [this] at hx
    split at hx
    · cases hx
    · exact h.prompts c x hx
  · exact h

theorem closeQueue {e : Engines} (h : e.ClaimsSafe) (d : Nat) : (e.closeQueue d).ClaimsSafe := by
  refine ⟨h.fresh, h.once, h.tickets, h.placed, h.waiting, fun c x hx => ?_, h.lanterns, h.gongs, h.contexts, h.slots⟩
  have : (e.closeQueue d).promptsOf c = if c = d then [] else e.promptsOf c := by
    show ((e.dest.prompts.erase d).get c).getD [] = _
    rw [Tab.get_erase]
    split <;> rfl
  rw [this] at hx
  split at hx
  · cases hx
  · exact h.prompts c x hx

theorem cancelIfTerminal {e : Engines} (h : e.ClaimsSafe) (A : Ambient) (d : Nat) (cls : DisplayClass) :
    (e.cancelIfTerminal A d cls).ClaimsSafe := by
  unfold Engines.cancelIfTerminal
  split
  · exact h.cancelTerminal A d _
  · exact h

theorem createDisplay {e : Engines} (h : e.ClaimsSafe) (A : Ambient) (d : Nat) (r : Rec4) (cls : DisplayClass) :
    (e.createDisplay A d r cls).ClaimsSafe := by
  unfold Engines.createDisplay
  extract_lets e1 e2
  have h2 : e2.ClaimsSafe := h.congr rfl rfl rfl rfl rfl
  exact (h2.openQueue d cls).targetNotice A d

theorem removeDisplay {e : Engines} (h : e.ClaimsSafe) (A : Ambient) (d : Nat) : (e.removeDisplay A d).ClaimsSafe := by
  unfold Engines.removeDisplay
  split
  · exact h
  · rename_i f hf
    dsimp only
    have h0 : ((e.leaveQueue f.link d).cancelPoll f.link f.drop).ClaimsSafe := h.congr rfl rfl rfl rfl rfl
    have h1 := h0.cancelIfTerminal A d f.cls
    generalize ((e.leaveQueue f.link d).cancelPoll f.link f.drop).cancelIfTerminal A d f.cls = e1 at h1
    have h2 := (h1.leaveQueue f.link d).closeQueue d
    generalize (e1.leaveQueue f.link d).closeQueue d = e2 at h2
    have h3 : (e2.setFaces (e2.face.faces.erase d)).ClaimsSafe := h2.congr rfl rfl rfl rfl rfl
    have h4 := h3.targetNotice A d
    generalize (e2.setFaces (e2.face.faces.erase d)).targetNotice A d = e3 at h4
    exact h4.congr rfl rfl rfl rfl rfl

theorem rebuildFace {e : Engines} (h : e.ClaimsSafe) (A : Ambient) (d : Nat) (r : Rec4) (cls old : DisplayClass) :
    (e.rebuildFace A d r cls old).ClaimsSafe := by
  unfold Engines.rebuildFace
  dsimp only
  have h1 := h.cancelIfTerminal A d old
  generalize e.cancelIfTerminal A d old = e1 at h1
  have h2 : (if old = .terminal ∧ cls ≠ .terminal then e1.closeQueue d else e1).ClaimsSafe := by
    split
    · exact h1.closeQueue d
    · exact h1
  generalize (if old = .terminal ∧ cls ≠ .terminal then e1.closeQueue d else e1) = e2 at h2
  have h3 : (if old ≠ .terminal then e2.openQueue d cls else e2).ClaimsSafe := by
    split
    · exact h2.openQueue d cls
    · exact h2
  generalize (if old ≠ .terminal then e2.openQueue d cls else e2) = e3 at h3
  exact ((h3.updFace d _).coverEvent A [d]).targetNotice A d

theorem rebindDisplay {e : Engines} (h : e.ClaimsSafe) (A : Ambient) (d : Nat) (r : Rec4) (cls : DisplayClass) (f : Face) :
    (e.rebindDisplay A d r cls f).ClaimsSafe := by
  unfold Engines.rebindDisplay
  dsimp only
  split
  · have h1 : ((((e.leaveQueue f.link d).cancelPoll f.link f.drop).onDisplay d
        fun x => { x with liveness := .unpolled }).onDisplay d fun x => { x with toggle := none }).ClaimsSafe :=
      h.congr rfl rfl rfl rfl rfl
    exact (h1.rebuildFace A d r cls f.cls).onDisplay d _
  · exact (h.onDisplay d _).rebuildFace A d r cls f.cls

theorem acceptRoster {e : Engines} (h : e.ClaimsSafe) (A : Ambient) (d : Nat) (r : Rec4) :
    (e.acceptRoster A d r).ClaimsSafe := by
  unfold Engines.acceptRoster
  have h1 : (e.setRoster (e.link.roster.put d r)).ClaimsSafe := h.congr rfl rfl rfl rfl rfl
  dsimp only
  split
  · exact h1.createDisplay A d r _
  · split
    · exact h1.rebindDisplay A d r _ _
    · exact h1
  · exact h1
  · exact h1.removeDisplay A d
  · exact h1

theorem clearRoster {e : Engines} (h : e.ClaimsSafe) (A : Ambient) : (e.clearRoster A).ClaimsSafe := by
  have h1 := foldl_inv Engines.ClaimsSafe (fun b d => b.removeDisplay A d) (fun b d hb => hb.removeDisplay A d)
    (Tab.keys e.face.faces) e h
  exact h1.congr rfl rfl rfl rfl rfl

theorem unpollAll_slots (e : Engines) (n : Fin 8) : (e.unpollAll n).face.slots = e.face.slots := by simp

theorem acceptLink {e : Engines} (h : e.ClaimsSafe) (n : Fin 8) (r : Rec4) : (e.acceptLink n r).ClaimsSafe := by
  refine h.congr (by simp) (by simp) (by simp) (by simp) ?_
  unfold Engines.acceptLink
  split
  · rfl
  · unfold Engines.stopLink
    dsimp only
    rw [unpollAll_slots]
    apply foldl_inv (fun b : Engines => b.face.slots = e.face.slots)
    · exact fun b d hb => hb
    · rfl
  · unfold Engines.startLink
    rw [unpollAll_slots]; rfl
  · unfold Engines.recycleLink
    dsimp only
    split <;> rfl

theorem goodAnswer {e : Engines} (h : e.ClaimsSafe) (A : Ambient) (n : Fin 8) (drop d fault : Nat) :
    (e.goodAnswer A n drop d fault).ClaimsSafe :=
  h.congr (by simp) (by simp) (by simp) (by simp) (by simp)

theorem miss {e : Engines} (h : e.ClaimsSafe) (A : Ambient) (n : Fin 8) (drop d : Nat) :
    (e.miss A n drop d).ClaimsSafe := by
  refine h.congr (by simp) (by simp) (by simp) (by simp) ?_
  unfold Engines.miss
  dsimp only
  repeat' split
  all_goals rfl

/-! ## New entries (R40, R41) -/

/-- The ticket some steps after one: every 65535 of them in a row are different. -/
theorem repeat_nextTicket (t k : Nat) : Nat.repeat nextTicket (k + 1) t = 1 + (min t 65535 + k) % 65535 := by
  induction k with
  | zero =>
    show nextTicket t = _
    unfold nextTicket
    split <;> omega
  | succ k ih =>
    show nextTicket (Nat.repeat nextTicket (k + 1) t) = _
    rw [ih]
    unfold nextTicket
    split <;> omega

theorem repeat_nextTicket_inj {t i j : Nat} (hij : i < j) (hj : j < 65535) :
    Nat.repeat nextTicket i t ≠ Nat.repeat nextTicket j t := by
  obtain ⟨j, rfl⟩ : ∃ m, j = m + 1 := ⟨j - 1, by omega⟩
  rw [repeat_nextTicket]
  cases i with
  | zero =>
    show t ≠ _
    omega
  | succ i =>
    rw [repeat_nextTicket]
    omega

theorem repeat_nextTicket_shift (t k : Nat) :
    Nat.repeat nextTicket k (nextTicket t) = Nat.repeat nextTicket (k + 1) t := by
  induction k with
  | zero => rfl
  | succ k ih =>
    show nextTicket (Nat.repeat nextTicket k (nextTicket t)) = nextTicket (Nat.repeat nextTicket (k + 1) t)
    rw [ih]

theorem freeTicket_held (es : List Entry) (n t : Nat) (h : holdsTicket es (freeTicket es n t) = true) :
    ∀ k ≤ n, holdsTicket es (Nat.repeat nextTicket k t) = true := by
  induction n generalizing t with
  | zero =>
    intro k hk
    obtain rfl : k = 0 := by omega
    exact h
  | succ n ih =>
    unfold freeTicket at h
    split at h
    · rename_i ht
      intro k hk
      cases k with
      | zero => exact ht
      | succ k => rw [← repeat_nextTicket_shift]; exact ih _ h k (by omega)
    · rename_i ht; exact absurd h ht

theorem length_le_of_subset {α : Type} [DecidableEq α] {l m : List α} (hn : l.Nodup) (hs : l ⊆ m) :
    l.length ≤ m.length := by
  induction l generalizing m with
  | nil => exact Nat.zero_le _
  | cons x l ih =>
    rw [List.nodup_cons] at hn
    have hx : x ∈ m := hs List.mem_cons_self
    have := ih (m := m.erase x) hn.2 fun y hy => by
      have hne : y ≠ x := fun hyx => hn.1 (hyx ▸ hy)
      exact (List.mem_erase_of_ne hne).2 (hs (List.mem_cons_of_mem _ hy))
    rw [List.length_erase_of_mem hx] at this
    have := List.length_pos_of_mem hx
    rw [List.length_cons]
    omega

/-- The ticket found is held by no entry of a table that is not longer than its cycle (R40). -/
theorem freeTicket_free (es : List Entry) (t : Nat) (hl : es.length < 65534) :
    holdsTicket es (freeTicket es es.length t) = false := by
  rw [Bool.eq_false_iff]
  intro hc
  have hall := freeTicket_held es es.length t hc
  have hn : ((List.range (es.length + 1)).map fun k => Nat.repeat nextTicket k t).Nodup := by
    unfold List.Nodup
    rw [List.pairwise_map]
    refine (List.pairwise_lt_range (n := es.length + 1)).imp_of_mem fun {i j} _ hj hij => ?_
    rw [List.mem_range] at hj
    exact repeat_nextTicket_inj hij (by omega)
  have := length_le_of_subset hn (m := es.map Entry.ticket) fun x hx => by
    obtain ⟨k, hk, rfl⟩ := List.mem_map.1 hx
    rw [List.mem_range] at hk
    have := hall k (by omega)
    unfold holdsTicket at this
    obtain ⟨y, hy, hyt⟩ := List.any_eq_true.1 this
    rw [beq_iff_eq] at hyt
    exact List.mem_map.2 ⟨y, hy, hyt⟩
  rw [List.length_map, List.length_map, List.length_range] at this
  omega

/-- A new entry with the place claimed for it. -/
theorem addEntry {e : Engines} (h : e.ClaimsSafe) {tm : Timers} {id ticket : Nat} {expiry : BitVec 32}
    (hc : e.timers.claim .entryWait (.ticket ticket) expiry 0 0 = (tm, some id)) (x : Entry) (hx : x.ticket = ticket)
    (hid : x.place = id) (hfree : holdsTicket e.dest.entries ticket = false) :
    ((e.setTimers tm).addEntry x).ClaimsSafe := by
  have k := Timers.ext_claim hc
  rcases e.timers.claim_spec .entryWait (.ticket ticket) expiry 0 0 with ⟨_, hs⟩ | ⟨_, hs⟩
  · rw [hs] at hc
    cases hc
    refine ⟨?_, ?_, ?_, ?_, ?_, fun d y hy => (h.prompts d y hy).ext k, fun c => (h.lanterns c).ext k,
      fun c => (h.gongs c).ext k, fun c => (h.contexts c).ext k, fun s => (h.slots s).ext k⟩
    · intro p hp
      rcases (mem_insertPlace _ _ _).1 hp with rfl | hp
      · exact Nat.lt_succ_self _
      · exact Nat.lt_succ_of_lt (h.fresh p hp)
    · refine ((insertPlace_perm _ _).map TimerPlace.id).nodup_iff.2 (List.nodup_cons.2 ⟨?_, h.once⟩)
      intro hm
      obtain ⟨p, hp, hid⟩ := List.mem_map.1 hm
      have := h.fresh p hp
      dsimp only at hid
      omega
    · show ((e.dest.entries ++ [x]).map Entry.ticket).Nodup
      rw [List.map_append, List.nodup_append]
      refine ⟨h.tickets, by simp, ?_⟩
      intro a ha b hb
      simp only [List.map_cons, List.map_nil, List.mem_singleton] at hb
      subst hb
      obtain ⟨y, hy, rfl⟩ := List.mem_map.1 ha
      intro ht
      have : holdsTicket e.dest.entries ticket = true := by
        unfold holdsTicket
        exact List.any_eq_true.2 ⟨y, hy, by rw [beq_iff_eq, ht, hx]⟩
      rw [hfree] at this; cases this
    · intro y hy
      rcases List.mem_append.1 hy with hy | hy
      · obtain ⟨p, hp, hr⟩ := h.placed y hy
        exact ⟨p, (mem_insertPlace _ _ _).2 (Or.inr hp), hr⟩
      · simp only [List.mem_singleton] at hy
        subst hy
        exact ⟨_, (mem_insertPlace _ _ _).2 (Or.inl rfl), hid.symm, rfl, by rw [hx]⟩
    · intro p hp hk
      rcases (mem_insertPlace _ _ _).1 hp with rfl | hp
      · exact ⟨x, List.mem_append_right _ List.mem_cons_self, hid⟩
      · obtain ⟨y, hy, hr⟩ := h.waiting p hp hk
        exact ⟨y, List.mem_append_left _ hy, hr⟩
  · rw [hs] at hc; cases hc

theorem refuseEntry {e : Engines} (h : e.ClaimsSafe) (A : Ambient) (d : Nat) (k : Keyed) (why : Reason) :
    (e.refuseEntry A d k why).ClaimsSafe := (h.pushPrompt A d rfl).report A _

theorem checkEntry {e : Engines} (h : e.ClaimsSafe) (A : Ambient) (d : Nat) (f : Face) (k : Keyed) :
    (e.checkEntry A d f k).ClaimsSafe := by
  unfold Engines.checkEntry
  split
  · exact h.report A _
  · split
    · exact h.pushPrompt A d rfl
    · split
      · exact h.refuseEntry A d k _
      · rename_i hl
        have h64 : Config.entryPlaces = 64 := rfl
        dsimp only
        split
        · rename_i tm id hc
          have h1 := h.addEntry hc ⟨_, d, f.bindB, k.dest, k.kind, id⟩ rfl rfl
            (freeTicket_free e.dest.entries e.dest.ticket (by omega))
          unfold Engines.createEntry
          exact (h1.pushPrompt A d rfl).report A _
        · exact h.refuseEntry A d k _

theorem takeEntry {e : Engines} (h : e.ClaimsSafe) (A : Ambient) (d : Nat) (k : Keyed) :
    (e.takeEntry A d k).ClaimsSafe := by
  unfold Engines.takeEntry
  split
  · exact h
  · dsimp only
    apply refreshMark
    split
    · exact h.checkEntry A d _ k
    · exact h.report A _

theorem offerEntry {e : Engines} (h : e.ClaimsSafe) (A : Ambient) (d : Nat) (t : Bool) (k : Keyed) :
    (e.offerEntry A d t k).ClaimsSafe := by
  unfold Engines.offerEntry
  split
  · exact h
  · split
    · exact h
    · exact (h.onDisplay d _).takeEntry A d k

theorem giveStop {e : Engines} (h : e.ClaimsSafe) (A : Ambient) (c : Fin 48) (f t : Nat) :
    (e.giveStop A c f t).ClaimsSafe := by
  unfold Engines.giveStop
  dsimp only
  split
  · exact (h.setStops c _).rederive A
  · exact h.report A _

theorem judgeAssign {e : Engines} (h : e.ClaimsSafe) (A : Ambient) (r : Rec4) : (e.judgeAssign A r).ClaimsSafe := by
  unfold Engines.judgeAssign
  dsimp only
  split
  · exact h.report A _
  · rename_i x hx
    have hm : x ∈ e.dest.entries := List.mem_of_find?_eq_some hx
    split
    · exact h.report A _
    · split
      · exact (h.endEntry hm).replacePrompt A _ _ rfl
      · split
        · exact h.report A _
        · exact ((h.endEntry hm).replacePrompt A _ _ rfl).giveStop A _ _ _

/-! ## Deliveries -/

/-- The delivery of a place that is no entry's keeps the laws. -/
theorem delivered {e : Engines} (h : e.ClaimsSafe) {p : TimerPlace} {ps : List TimerPlace} (hl : e.timers.list = p :: ps)
    (hk : p.kind ≠ .entryWait) : e.delivered.ClaimsSafe := by
  have k := e.timers.ext_deliver
  have hperm : ∀ q ∈ ps, q ∈ e.timers.deliver.list := by
    intro q hq
    unfold Timers.deliver
    rw [hl]
    dsimp only
    split
    · exact (mem_insertPlace _ _ _).2 (Or.inr hq)
    · exact hq
  refine h.withTimers k ?_ ?_ ?_ ?_
  · intro q hq
    have hn : e.timers.deliver.nextId = e.timers.nextId := by
      unfold Timers.deliver
      split
      · rfl
      · split <;> rfl
    rw [hn]
    rcases k.old q hq with ⟨r, hr, h1, _, _⟩ | hx
    · rw [← h1]; exact h.fresh r hr
    · unfold Timers.deliver at hq
      rw [hl] at hq
      dsimp only at hq
      split at hq
      · rcases (mem_insertPlace _ _ _).1 hq with rfl | hq
        · exact h.fresh p (by rw [hl]; exact List.mem_cons_self)
        · exact h.fresh q (by rw [hl]; exact List.mem_cons_of_mem _ hq)
      · exact h.fresh q (by rw [hl]; exact List.mem_cons_of_mem _ hq)
  · have ho := h.once
    rw [hl] at ho
    unfold Timers.deliver
    rw [hl]
    dsimp only
    split
    · exact ((insertPlace_perm _ _).map TimerPlace.id).nodup_iff.2 ho
    · exact (List.nodup_cons.1 ho).2
  · intro x hx
    obtain ⟨q, hq, h1, h2, h3⟩ := h.placed x hx
    rw [hl] at hq
    rcases List.mem_cons.1 hq with rfl | hq
    · exact absurd h2 hk
    · exact ⟨q, hperm q hq, h1, h2, h3⟩
  · intro q hq hkind
    unfold Timers.deliver at hq
    rw [hl] at hq
    dsimp only at hq
    split at hq
    · rcases (mem_insertPlace _ _ _).1 hq with rfl | hq
      · exact absurd hkind hk
      · exact h.waiting q (by rw [hl]; exact List.mem_cons_of_mem _ hq) hkind
    · exact h.waiting q (by rw [hl]; exact List.mem_cons_of_mem _ hq) hkind

theorem insertPlace_filter (l : List TimerPlace) (p : TimerPlace) (f : TimerPlace → Bool) (hf : f p = false) :
    (insertPlace l p).filter f = l.filter f := by
  induction l with
  | nil => simp [insertPlace, hf]
  | cons q qs ih =>
    unfold insertPlace
    split
    · simp [hf]
    · simp only [List.filter_cons, ih]

/-- An entry whose place has been delivered ends as it would have ended with its place in the list. -/
theorem endEntry_delivered {e : Engines} {p : TimerPlace} {ps : List TimerPlace} (hl : e.timers.list = p :: ps) {x : Entry}
    (hx : x.place = p.id) : e.delivered.endEntry x = e.endEntry x := by
  have : e.timers.deliver.release x.place = e.timers.release x.place := by
    unfold Timers.deliver Timers.release
    rw [hl]
    dsimp only
    split
    · rw [insertPlace_filter _ _ _ (by simp [TimerPlace.next, hx])]
      simp [hx]
    · simp [hx]
  unfold Engines.endEntry Engines.delivered
  dsimp only
  rw [this]

/-- ENTRY_WAIT_EXPIRY keeps the laws: the delivered place and its entry go together (R42, R49). -/
theorem onEntryWait {e : Engines} (h : e.ClaimsSafe) (A : Ambient) {p : TimerPlace} {ps : List TimerPlace}
    (hl : e.timers.list = p :: ps) (hk : p.kind = .entryWait) : (onEntryWait A e.delivered p).ClaimsSafe := by
  unfold Machine.onEntryWait Engines.expireEntry
  obtain ⟨y, hy, hyp⟩ := h.waiting p (by rw [hl]; exact List.mem_cons_self) hk
  cases hf : e.dest.entries.find? (fun x => x.place == p.id) with
  | none =>
    have := List.find?_eq_none.1 hf y hy
    rw [hyp] at this
    simp at this
  | some x =>
    have hm : x ∈ e.dest.entries := List.mem_of_find?_eq_some hf
    have hx : x.place = p.id := by simpa using List.find?_some hf
    show (match e.dest.entries.find? (fun x => x.place == p.id) with | none => _ | some x => _ : Engines).ClaimsSafe
    rw [hf]
    dsimp only
    rw [endEntry_delivered hl hx]
    exact ((h.endEntry hm).replacePrompt A _ _ rfl).report A _

theorem expirePrompt {e : Engines} (h : e.ClaimsSafe) (d : Nat) (p : TimerPlace) : (e.expirePrompt d p).ClaimsSafe :=
  (h.storePrompts d _ fun x hx => h.prompts d x (List.mem_filter.1 hx).1).handPrompts d

/-! ## Playout -/

theorem resetCtx {e : Engines} (h : e.ClaimsSafe) (c : Fin 16) (g : Context → Context)
    (hg : ∀ x, (g x).place = none ∨ (g x).place = x.place) : ((e.releaseDwell c).onCtx c g).ClaimsSafe :=
  (h.releaseDwell c).onCtx c g hg

theorem startCtx {e : Engines} (h : e.ClaimsSafe) (A : Ambient) (c : Fin 16) (r : Rec4) : (e.startCtx A c r).ClaimsSafe := by
  unfold Engines.startCtx
  dsimp only
  apply handNotices
  split
  · refine onCtx (onCtx (h.releaseDwell c) c _ ?_) c _ ?_
    · intro x; exact Or.inr rfl
    · intro x; exact Or.inr (atFirst_place _ _ x)
  · refine claimDwell (onCtx (onCtx (h.releaseDwell c) c _ ?_) c _ ?_) A c _
    · intro x; exact Or.inr rfl
    · intro x; exact Or.inr (atFirst_place _ _ x)

theorem stopCtx {e : Engines} (h : e.ClaimsSafe) (c : Fin 16) (r : Rec4) : (e.stopCtx c r).ClaimsSafe :=
  handNotices (h.resetCtx c _ fun _ => Or.inl rfl) _

theorem acceptPlayout {e : Engines} (h : e.ClaimsSafe) (A : Ambient) (c : Fin 16) (r : Rec4) :
    (e.acceptPlayout A c r).ClaimsSafe := by
  unfold Engines.acceptPlayout
  split
  · exact h.startCtx A c r
  · exact h.stopCtx c r

theorem advance_place (ready : Fin 16 → Bool) (r : Rec4) (x : Context) : (x.advance ready r).1.place = x.place := by
  unfold Context.advance
  dsimp only
  repeat' split
  · rfl
  · exact atFirst_place _ _ x
  · rfl
  · exact atFirst_place _ _ _

theorem expireDwell {e : Engines} (h : e.ClaimsSafe) (A : Ambient) (c : Fin 16) (p : TimerPlace) :
    (e.expireDwell A c p).ClaimsSafe := by
  unfold Engines.expireDwell
  dsimp only
  split
  · have h1 : (e.onCtx c fun _ => ((e.ctx c).advance A.ready ((e.ctx c).accepted.getD Rec4.zero)).1).ClaimsSafe := by
      refine h.setPlay _ fun i => ?_
      rw [ctxOf_upd]
      split
      · rename_i hi; subst hi; exact Or.inr (advance_place _ _ _)
      · exact Or.inr rfl
    split
    · unfold Engines.completeCtx
      have h2 := h1.resetCtx c (fun x => { x with state := .done, targets := [] }) fun _ => Or.inr rfl
      exact (h2.handNotices _).report A _
    · exact h1.handTargets c
  · exact h

theorem clearPlayout {e : Engines} (h : e.ClaimsSafe) : e.clearPlayout.ClaimsSafe := by
  unfold Engines.clearPlayout
  refine handNotices ?_ _
  have := foldl_inv Engines.ClaimsSafe (fun b c => (b.releaseDwell c).onCtx c fun _ => Context.reset)
    (fun b c hb => hb.resetCtx c _ fun _ => Or.inl rfl) (List.finRange 16) e h
  exact this

/-! ## Clearing, restart and reset -/

theorem clearTable {e : Engines} (h : e.ClaimsSafe) (A : Ambient) (w : Fin 5) : (e.clearTable A w).ClaimsSafe := by
  unfold Engines.clearTable
  split
  · exact h.clearCars A
  · split
    · exact h.clearRoster A
    · split
      · exact h.clearLabels A
      · split
        · exact h.clearPlayout
        · exact h

theorem cleared {e : Engines} (h : e.ClaimsSafe) : e.cleared.ClaimsSafe := by
  have hsig : ∀ c : Fin 48, e.cleared.ind.signalOf c = Signal.reset := fun c => by
    show (Vector.replicate 48 Signal.reset)[c] = _
    simp
  have hctx : ∀ c : Fin 16, e.cleared.ctx c = Context.reset := fun c => by
    show (Vector.replicate 16 Context.reset)[c] = _
    simp
  refine ⟨?_, List.nodup_nil, List.nodup_nil, ?_, ?_, ?_, ?_, ?_, ?_, ?_⟩
  · intro p hp; cases hp
  · intro x hx; cases hx
  · intro p hp; cases hp
  · intro d x hx; cases hx
  · intro c; rw [hsig]; exact Timers.gives_none _ _ _
  · intro c; rw [hsig]; exact Timers.gives_none _ _ _
  · intro c; rw [hctx]; exact Timers.gives_none _ _ _
  · exact fun k => (h.slots k).ext ⟨Nat.le_refl _, fun p hp => by cases hp⟩

theorem restartSlot {e : Engines} (h : e.ClaimsSafe) (A : Ambient) (k : Fin 4) : (e.restartSlot A k).ClaimsSafe := by
  unfold Engines.restartSlot
  have h1 := h.updSlot k (fun x => { x with lang := none, place := none }) fun _ => Or.inl rfl
  dsimp only
  split
  · exact h1.claimOverride A k
  · exact h1

theorem restarted {e : Engines} (h : e.ClaimsSafe) (A : Ambient) : (e.restarted A).ClaimsSafe :=
  foldl_inv Engines.ClaimsSafe (fun b k => b.restartSlot A k) (fun _ k hb => hb.restartSlot A k) (List.finRange 4) _ h.cleared

theorem reset : Engines.reset.ClaimsSafe := by
  have hsig : ∀ c : Fin 48, Engines.reset.ind.signalOf c = Signal.reset := fun c => by
    show (Vector.replicate 48 Signal.reset)[c] = _
    simp
  have hctx : ∀ c : Fin 16, Engines.reset.ctx c = Context.reset := fun c => by
    show (Vector.replicate 16 Context.reset)[c] = _
    simp
  have hslot : ∀ k : Fin 4, slotOf Engines.reset.face.slots k = ⟨Rec4.zero, none, none⟩ := fun k => by
    show (Vector.replicate 4 (⟨Rec4.zero, none, none⟩ : OverrideSlot))[k] = _
    simp
  refine ⟨?_, List.nodup_nil, List.nodup_nil, ?_, ?_, ?_, ?_, ?_, ?_, ?_⟩
  · intro p hp; cases hp
  · intro x hx; cases hx
  · intro p hp; cases hp
  · intro d x hx; cases hx
  · intro c; rw [hsig]; exact Timers.gives_none _ _ _
  · intro c; rw [hsig]; exact Timers.gives_none _ _ _
  · intro c; rw [hctx]; exact Timers.gives_none _ _ _
  · intro k; rw [hslot]; exact Timers.gives_none _ _ _

theorem poweredOn (e : Engines) : e.poweredOn.ClaimsSafe := reset.congr rfl rfl rfl rfl rfl

end Engines.ClaimsSafe

/-! ## What the hand-off of BASE content does to the timer list -/

namespace Engines

theorem ext_foldl {α : Type} (g : Engines → α → Engines) (hg : ∀ e a, Timers.Ext e.timers (g e a).timers) (l : List α)
    (e : Engines) : Timers.Ext e.timers (l.foldl g e).timers :=
  foldl_inv (fun b : Engines => Timers.Ext e.timers b.timers) g (fun b a hb => hb.trans (hg b a)) l e (Timers.Ext.refl _)

theorem ext_updFace (e : Engines) (d : Nat) (g : Face → Face) : Timers.Ext e.timers (e.updFace d g).timers := by
  rw [show (e.updFace d g).timers = e.timers by simp]
  exact Timers.Ext.refl _

theorem ext_claimDwell (A : Ambient) (e : Engines) (c : Fin 16) (n : Nat) :
    Timers.Ext e.timers (e.claimDwell A c n).timers := by
  unfold Engines.claimDwell
  dsimp only
  split
  · rename_i tm id hc
    exact Timers.ext_claim hc
  · exact Timers.Ext.refl _

theorem ext_releaseDwell (e : Engines) (c : Fin 16) : Timers.Ext e.timers (e.releaseDwell c).timers :=
  Timers.ext_releaseOpt _ _

theorem ext_targetEvent (A : Ambient) (e : Engines) (c : Fin 16) : Timers.Ext e.timers (e.targetEvent A c).timers := by
  unfold Engines.targetEvent
  dsimp only
  split
  · split
    · exact ext_releaseDwell e c
    · split
      · exact ext_claimDwell A e c _
      · exact Timers.Ext.refl _
  · split
    · exact ext_claimDwell A (e.onCtx c fun x => { x with state := .playing }) c _
    · exact Timers.Ext.refl _
  · exact Timers.Ext.refl _
  · exact Timers.Ext.refl _

theorem ext_targetNotice (A : Ambient) (e : Engines) (d : Nat) : Timers.Ext e.timers (e.targetNotice A d).timers := by
  unfold Engines.targetNotice
  extract_lets old e1 e2
  refine Timers.Ext.trans ?_ (ext_updFace e2 d _)
  rw [← Engines.setPlay_timers e ((List.finRange 16).foldl (fun p c => upd p c (retarget e.face.faces d)) e.play)]
  refine ext_foldl _ (fun b c => ?_) _ _
  split
  · exact Timers.Ext.refl _
  · exact ext_targetEvent A b c

theorem ext_coverNotice (A : Ambient) (e : Engines) (ds : List Nat) : Timers.Ext e.timers (e.coverNotice A ds).timers := by
  unfold Engines.coverNotice
  extract_lets e1
  refine Timers.Ext.trans ?_ (ext_foldl _ (fun b d => ext_updFace b d _) ds e1)
  refine ext_foldl _ (fun b c => ?_) _ _
  split
  · exact ext_targetEvent A b c
  · exact Timers.Ext.refl _

theorem ext_cancelTerminal (A : Ambient) (e : Engines) (d : Nat) (why : Reason) :
    Timers.Ext e.timers (e.cancelTerminal A d why).timers := by
  unfold Engines.cancelTerminal
  extract_lets mine e1
  have h1 : Timers.Ext e.timers e1.timers := ext_foldl _ (fun b x => Timers.ext_release _ _) mine e
  refine h1.trans ?_
  unfold Engines.removePrompts
  extract_lets q e2
  exact (ext_foldl _ (fun b p => Timers.ext_releaseOpt _ _) q e1).trans (ext_updFace (e2.storePrompts d []) d _)

theorem ext_moveCover (A : Ambient) (e : Engines) (v : Vector OverrideSlot 4) (d : Nat) (old new : Option (Fin 4))
    (cls : DisplayClass) : Timers.Ext e.timers (e.moveCover A v d old new cls).timers := by
  unfold Engines.moveCover
  split
  · exact Timers.Ext.refl _
  · unfold Engines.onset
    dsimp only
    split
    · exact (ext_updFace e d _).trans (ext_cancelTerminal A _ d _)
    · exact ext_updFace e d _
  · exact ext_updFace e d _
  · split
    · exact Timers.Ext.refl _
    · unfold Engines.transfer
      rw [show (e.updFaceFrom v d _).timers = e.timers by simp]
      exact Timers.Ext.refl _

theorem ext_coverEventFrom (A : Ambient) (e : Engines) (v : Vector OverrideSlot 4) (ds : List Nat) :
    Timers.Ext e.timers (e.coverEventFrom A v ds).timers := by
  unfold Engines.coverEventFrom
  extract_lets moves e1 named
  have h1 : Timers.Ext e.timers e1.timers := ext_foldl _ (fun b m => ext_moveCover A b v _ _ _ _) moves e
  split
  · exact h1
  · exact h1.trans (ext_coverNotice A e1 named)

/-- Deriving BASE content anew brings no released place back. -/
theorem ext_rederive (A : Ambient) (e : Engines) : Timers.Ext e.timers (e.rederive A).timers := by
  unfold Engines.rederive
  extract_lets moved e1 e2
  have h1 : Timers.Ext e.timers e1.timers := ext_foldl _ (fun b d => ext_updFace b d _) _ e
  exact (h1.trans (ext_coverEventFrom A e1 _ moved)).trans (ext_foldl _ (fun b d => ext_targetNotice A b d) moved e2)

end Engines

end Sys2Proof.Machine
end

