-- ==== Sys2Proof/Laws/Commits.lean ====
section
/-! SUPPORT. What a commit does, once for every record: nothing when it is equal, one report when it is refused, its
owner's action when it is accepted (R165). -/

namespace Sys2Proof.Machine

/-- Out of reset a step answers its function's state. -/
theorem whenUp_next {s : State} (f : State → State) (h : s.resetLow = false) : whenUp s f = .next (f s) := by
  simp [whenUp, h]

theorem State.judge_equal {α : Type} [DecidableEq α] (s : State) (p : RecordPlace) (staged : α) (ac : Option α)
    (why : Option Reason) (f : State → State) (h : (ac == some staged) = true) :
    s.judge p staged ac why f = s.handedOver := by
  unfold State.judge; rw [if_pos (by simpa using h)]

theorem State.judge_refused {α : Type} [DecidableEq α] (s : State) (p : RecordPlace) (staged : α) (ac : Option α)
    (why : Reason) (f : State → State) (h : (ac == some staged) = false) :
    s.judge p staged ac (some why) f = s.handedOver.refuseRecord p why := by
  unfold State.judge; rw [if_neg (by simpa using h)]

theorem State.judge_accepted {α : Type} [DecidableEq α] (s : State) (p : RecordPlace) (staged : α) (ac : Option α)
    (f : State → State) (h : (ac == some staged) = false) : s.judge p staged ac none f = f s.handedOver := by
  unfold State.judge; rw [if_neg (by simpa using h)]

theorem beq_flip {α : Type} [DecidableEq α] {a b : α} (h : (a == b) = false) : (some b == some a) = false := by
  simp only [beq_eq_false_iff_ne, ne_eq, Option.some.injEq] at h ⊢
  exact fun e => h e.symm

theorem toFin_val {n : Nat} (c : Fin n) : toFin n c.val = some c := by
  unfold toFin; rw [dif_pos c.isLt]

theorem State.handedSlot_eq {s : State} {w : Fin 5} {slot : Nat} (h : s.asm.handed = some (.window w slot)) :
    s.handedSlot w = some slot := by
  unfold State.handedSlot; rw [h]; simp

/-- An accepted car record is taken by the Indication Engine. -/
theorem exec_carCommit_accepted {s : State} {c : Fin 48} (h : s.accepts (.window carWindow c)) :
    exec .carCommit s =
      .next (s.handedOver.engines fun A e => e.acceptCar A c (s.stagedSlot carWindow c)) := by
  obtain ⟨hr, hh, hs, hc⟩ := h
  show execCarCommit s = _
  unfold execCarCommit; rw [whenUp_next _ hr]; unfold State.carCommit
  rw [State.handedSlot_eq hh]
  simp only [Option.bind_some, toFin_val]
  have hs' : ((s.eng.ind.carOf c).accepted == some (s.stagedSlot carWindow c)) = false := by
    simpa [State.sameAsAccepted, State.sameSlot, toFin_val] using hs
  have hc' : checkCar s.eng.ind (s.stagedSlot carWindow c) = none := by
    simpa [State.checkRecord, State.checkSlotRecord] using hc
  unfold State.commitCar
  dsimp only
  rw [hc', State.judge_accepted _ _ _ _ _ hs']

/-- An assignment with valid values is judged by the Destination Engine. -/
theorem exec_assignCommit_accepted {s : State} {slot : Nat} (h : s.accepts (.window assignWindow slot)) :
    exec .assignCommit s =
      .next (s.handedOver.engines fun A e => e.judgeAssign A (s.stagedSlot assignWindow slot)) := by
  obtain ⟨hr, hh, _, hc⟩ := h
  show execAssignCommit s = _
  unfold execAssignCommit; rw [whenUp_next _ hr]; unfold State.assignCommit
  rw [State.handedSlot_eq hh]
  have hc' : checkAssign (s.stagedSlot assignWindow slot) = none := by
    simpa [State.checkRecord, State.checkSlotRecord, carWindow, assignWindow] using hc
  unfold State.commitAssign
  dsimp only
  rw [hc']

/-- An accepted roster record is taken by the Link Controller. -/
theorem exec_rosterCommit_accepted {s : State} {d : Nat} (h : s.accepts (.window rosterWindow d)) :
    exec .rosterCommit s =
      .next (s.handedOver.engines fun A e => e.acceptRoster A d (s.stagedSlot rosterWindow d)) := by
  obtain ⟨hr, hh, hs, hc⟩ := h
  show execRosterCommit s = _
  unfold execRosterCommit; rw [whenUp_next _ hr]; unfold State.rosterCommit
  rw [State.handedSlot_eq hh]
  have hs' : (s.eng.link.roster.get d == some (s.stagedSlot rosterWindow d)) = false := hs
  have hc' : checkRoster s.eng d (s.stagedSlot rosterWindow d) = none := hc
  unfold State.commitRoster
  dsimp only
  rw [hc', State.judge_accepted _ _ _ _ _ hs']

/-- An accepted label record is taken by the Indication Engine. -/
theorem exec_labelCommit_accepted {s : State} {f : Nat} (h : s.accepts (.window labelWindow f)) :
    exec .labelCommit s =
      .next (s.handedOver.engines fun A e => e.acceptLabel A f (s.stagedSlot labelWindow f)) := by
  obtain ⟨hr, hh, hs, hc⟩ := h
  show execLabelCommit s = _
  unfold execLabelCommit; rw [whenUp_next _ hr]; unfold State.labelCommit
  rw [State.handedSlot_eq hh]
  have hs' : (s.eng.ind.labels.get f == some (s.stagedSlot labelWindow f)) = false := hs
  have hc' : checkLabel (s.stagedSlot labelWindow f) = none := hc
  unfold State.commitLabel
  dsimp only
  rw [hc', State.judge_accepted _ _ _ _ _ hs']

/-- An accepted playout record is taken by the Playout Engine. -/
theorem exec_playoutCommit_accepted {s : State} {c : Fin 16} (h : s.accepts (.window playoutWindow c)) :
    exec .playoutCommit s =
      .next (s.handedOver.engines fun A e => e.acceptPlayout A c (s.stagedSlot playoutWindow c)) := by
  obtain ⟨hr, hh, hs, hc⟩ := h
  show execPlayoutCommit s = _
  unfold execPlayoutCommit; rw [whenUp_next _ hr]; unfold State.playoutCommit
  rw [State.handedSlot_eq hh]
  simp only [Option.bind_some, toFin_val]
  have hs' : ((s.eng.ctx c).accepted == some (s.stagedSlot playoutWindow c)) = false := by
    simpa [State.sameAsAccepted, State.sameSlot, toFin_val, carWindow, assignWindow, rosterWindow, labelWindow,
      playoutWindow] using hs
  have hc' : checkPlayout (s.stagedSlot playoutWindow c) = none := by
    simpa [State.checkRecord, State.checkSlotRecord, carWindow, assignWindow, rosterWindow, labelWindow,
      playoutWindow] using hc
  unfold State.commitPlayout
  dsimp only
  rw [hc', State.judge_accepted _ _ _ _ _ hs']

/-- An accepted relocation record moves the control block. -/
theorem exec_relocationCommit_accepted {s : State} (h : s.accepts .relocation) :
    exec .relocationCommit s = .next (s.handedOver.relocate (s.staged4 0)) := by
  obtain ⟨hr, hh, hs, hc⟩ := h
  show execRelocationCommit s = _
  unfold execRelocationCommit; rw [whenUp_next _ hr]; unfold State.relocationCommit; rw [hh]; dsimp only
  rw [show checkRelocation s.path (s.staged4 0) = none from hc, State.judge_accepted _ _ _ _ _ (beq_flip hs)]

/-- An accepted descriptor sets its window. -/
theorem exec_descriptorCommit_accepted {s : State} {w : Fin 5} (h : s.accepts (.descriptor w)) :
    exec .descriptorCommit s = .next (s.handedOver.acceptDescriptor w (s.staged4 (descriptorOffset w))) := by
  obtain ⟨hr, hh, hs, hc⟩ := h
  show execDescriptorCommit s = _
  unfold execDescriptorCommit; rw [whenUp_next _ hr]; unfold State.descriptorCommit; rw [hh]; dsimp only
  rw [show checkDescriptor s.path w (s.staged4 (descriptorOffset w)) = none from hc,
    State.judge_accepted _ _ _ _ _ (beq_flip hs)]

/-- An accepted settings record comes into force. -/
theorem exec_settingsCommit_accepted {s : State} (h : s.accepts .settings) :
    exec .settingsCommit s = .next (s.handedOver.acceptSettings (s.staged8 0x40)) := by
  obtain ⟨hr, hh, hs, hc⟩ := h
  show execSettingsCommit s = _
  unfold execSettingsCommit; rw [whenUp_next _ hr]; unfold State.settingsCommit; rw [hh]; dsimp only
  rw [show checkSettings (s.staged8 0x40) = none from hc, State.judge_accepted _ _ _ _ _ (beq_flip hs)]

/-- An accepted group record is taken by the Indication Engine. -/
theorem exec_groupCommit_accepted {s : State} {g : Fin 8} (h : s.accepts (.group g)) :
    exec .groupCommit s =
      .next (s.handedOver.engines fun A e => e.acceptGroup A g (s.staged8 (groupOffset g))) := by
  obtain ⟨hr, hh, hs, hc⟩ := h
  show execGroupCommit s = _
  unfold execGroupCommit; rw [whenUp_next _ hr]; unfold State.groupCommit; rw [hh]; dsimp only
  rw [show checkGroup (s.staged8 (groupOffset g)) = none from hc, State.judge_accepted _ _ _ _ _ (beq_flip hs)]

/-- An accepted link setup is taken by the Link Controller. -/
theorem exec_linkSetupCommit_accepted {s : State} {n : Fin 8} (h : s.accepts (.linkSetup n)) :
    exec .linkSetupCommit s =
      .next (s.handedOver.engines fun _ e => e.acceptLink n (s.staged4 (linkOffset n))) := by
  obtain ⟨hr, hh, hs, hc⟩ := h
  show execLinkSetupCommit s = _
  unfold execLinkSetupCommit; rw [whenUp_next _ hr]; unfold State.linkSetupCommit; rw [hh]; dsimp only
  rw [show checkLink (s.staged4 (linkOffset n)) = none from hc, State.judge_accepted _ _ _ _ _ (beq_flip hs)]

/-- An accepted override slot record is taken by the Face Table. -/
theorem exec_overrideSlotCommit_accepted {s : State} {k : Fin 4} (h : s.accepts (.overrideSlot k)) :
    exec .overrideSlotCommit s =
      .next (s.handedOver.engines fun A e => e.acceptSlot A k (s.staged4 (slotOffset k))) := by
  obtain ⟨hr, hh, hs, hc⟩ := h
  show execOverrideSlotCommit s = _
  unfold execOverrideSlotCommit; rw [whenUp_next _ hr]; unfold State.overrideSlotCommit; rw [hh]; dsimp only
  rw [show checkSlot (s.staged4 (slotOffset k)) = none from hc, State.judge_accepted _ _ _ _ _ (beq_flip hs)]

/-- An accepted language record is taken by the Fetch Unit. -/
theorem exec_languageCommit_accepted {s : State} {l : Fin 16} (h : s.accepts (.language l)) :
    exec .languageCommit s = .next (s.handedOver.acceptLanguage l (s.staged4 (languageOffset l))) := by
  obtain ⟨hr, hh, hs, hc⟩ := h
  show execLanguageCommit s = _
  unfold execLanguageCommit; rw [whenUp_next _ hr]; unfold State.languageCommit; rw [hh]; dsimp only
  rw [show checkLanguage (s.staged4 (languageOffset l)) = none from hc, State.judge_accepted _ _ _ _ _ (beq_flip hs)]

/-- An accepted ring setup starts an empty ring. -/
theorem exec_ringSetupCommit_accepted {s : State} (h : s.accepts .ringSetup) :
    exec .ringSetupCommit s = .next (s.handedOver.acceptRing (s.staged4 0x3C0)) := by
  obtain ⟨hr, hh, hs, hc⟩ := h
  show execRingSetupCommit s = _
  unfold execRingSetupCommit; rw [whenUp_next _ hr]; unfold State.ringSetupCommit; rw [hh]; dsimp only
  rw [show checkRing (s.staged4 0x3C0) = none from hc, State.judge_accepted _ _ _ _ _ (beq_flip hs)]

end Sys2Proof.Machine
end

