-- ==== Sys2Proof/Laws/Content.lean ====
section
/-! SUPPORT. What a burst, the items of a sweep read, a delivered glyph, the head of a frame and the check hold, and what a
CHANGE mark does to a queued display: one lemma for each, so that no proof unfolds them again. -/

namespace Sys2Proof.Machine

/-! ## Bursts and sweep reads -/

/-- A burst length is one of 8, 4, 2 and 1, aligned to its own size and within what is left. -/
theorem burstWords_fits {next left : Nat} (h : next % 4 = 0) (h1 : 1 ≤ left) :
    burstWords next left ∈ [8, 4, 2, 1] ∧ next % (4 * burstWords next left) = 0 ∧ burstWords next left ≤ left := by
  unfold burstWords
  split
  · refine ⟨by simp, ?_, ?_⟩ <;> omega
  · split
    · refine ⟨by simp, ?_, ?_⟩ <;> omega
    · split
      · refine ⟨by simp, ?_, ?_⟩ <;> omega
      · refine ⟨by simp, ?_, ?_⟩ <;> omega

/-- No longer burst would do. -/
theorem burstWords_largest {next left n : Nat} (hn : n ∈ [8, 4, 2, 1]) (ha : next % (4 * n) = 0) (hl : n ≤ left) :
    n ≤ burstWords next left := by
  simp only [List.mem_cons, List.not_mem_nil, or_false] at hn
  unfold burstWords
  rcases hn with rfl | rfl | rfl | rfl <;> split <;> (try omega) <;> split <;> (try omega) <;> split <;> omega

/-- Item `n` of a run of sweep words. -/
theorem sweepItems_get (w : Fin 5) (base records : Word) (l : List Word) : ∀ addr n : Nat,
    (sweepItems w base records addr l)[n]? = (l[n]?).map fun x =>
      Item.mk x (addr + 4 * n) 0xF
        (.window w ((addr + 4 * n - base.toNat) / 16) ((addr + 4 * n - base.toNat) % 16 / 4) base records) := by
  induction l with
  | nil => intro addr n; simp [sweepItems]
  | cons x l ih =>
    intro addr n
    cases n with
    | zero => simp [sweepItems]
    | succ n =>
      simp only [sweepItems, List.getElem?_cons_succ]
      rw [ih, show addr + 4 + 4 * n = addr + 4 * (n + 1) by omega]

/-! ## Glyphs -/

/-- The area and the number a glyph is stored under. -/
theorem storeGlyph_area (f : FetchUnit) (a b : Fin 8) (g : Nat) (bytes : List Byte) :
    (f.storeGlyph a g bytes).area b =
      if b = if g < 256 then a else oddArea a then { f.area b with glyphs := (f.area b).glyphs.put (g % 256) bytes }
      else f.area b := by
  show (upd f.areas _ _)[b] = _
  rw [get_upd]
  by_cases h : b = if g < 256 then a else oddArea a
  · rw [if_pos h, if_pos h.symm]; rfl
  · rw [if_neg h, if_neg fun x => h x.symm]; rfl

/-- A request list with one load of an area gives that load. -/
theorem load_of_filter {f : FetchUnit} {a : Fin 8} {src pitch count progress : Nat}
    (h : f.requests.filter (Request.loads a) = [.glyph a src pitch count progress]) :
    f.load a = some (src, pitch, count, progress) := by
  unfold FetchUnit.load
  generalize f.requests = l at h
  induction l with
  | nil => cases h
  | cons q l ih =>
    cases q with
    | text t => exact ih h
    | sweep w m => exact ih h
    | glyph b s p c g =>
      by_cases hb : b = a
      · subst hb
        simp only [List.filter_cons, Request.loads, beq_self_eq_true, if_true, List.cons.injEq] at h
        obtain ⟨h, _⟩ := h
        cases h
        simp
      · simp only [List.filter_cons, Request.loads, beq_iff_eq, hb, if_false] at h
        simp only [List.findSome?_cons, hb, if_false]
        exact ih h

/-! ## Frames and the check -/

theorem pad16_head {a b : List Byte} (ha : a.length = 8) (hb : b.length ≤ 8) :
    pad16 (a ++ b) = a ++ b ++ List.replicate (8 - b.length) 0 := by
  unfold pad16
  rw [List.take_append, List.take_of_length_le (by simp; omega), List.take_replicate, List.length_append, ha]
  congr 2
  omega

/-- A FACE_MATRIX frame with three bytes of its own and at most eight of its items. -/
theorem matrixFrame_eq (layer : Layer) (arrow : Arrow) (items : Nat) {own per : List Byte} (cells : List (List Byte))
    (ho : own.length = 3) (hp : per.length ≤ 8) : matrixFrame layer arrow items own per cells =
      [byteOfNat layer.code, byteOfNat cells.length, byteOfNat arrow.code, byteOfNat items, 0] ++ own ++ per ++
        List.replicate (8 - per.length) 0 ++ cells.flatten := by
  unfold matrixFrame
  rw [pad16_head (by simp [ho]) hp]

theorem crc_append (l : List Byte) (x : Byte) : crc (l ++ [x]) = crcByte (crc l) x := by
  unfold crc
  rw [List.foldl_append]
  rfl

theorem crcBit_eq (r : BitVec 16) (b : Bool) :
    crcBit r b = if r.getLsbD 15 = b then r <<< 1 else (r <<< 1) ^^^ 0x1021 := by
  unfold crcBit
  simp

/-! ## The mark of a queued display -/

/-- A CHANGE mark of an ONLINE display that is queued and not in flight moves it when its visible layer has become OVERRIDE,
and touches no link otherwise. -/
theorem changeMark_queued {e : Engines} {d : Nat} {f : Face} (rise : Bool) (hf : e.faceOf d = some f)
    (ho : e.online d = true) (hi : (e.linkOf f.link).inFlight ≠ some d) (hq : d ∈ (e.linkOf f.link).queue) :
    let c := e.storeFace d fun f => { f with waitText := none }
    e.changeMark d rise = if rise then c.onLink f.link fun l => { l with queue := promoted c l d } else c := by
  intro c
  have h1 : c.online d = true := ho
  have h2 : ¬ (c.linkOf f.link).inFlight = some d := hi
  have h3 : (c.linkOf f.link).queue.contains d = true := List.contains_iff_mem.2 hq
  unfold Engines.changeMark
  rw [hf]
  dsimp only
  rw [if_pos h1, if_neg h2, if_pos h3]

end Sys2Proof.Machine
end

