-- ==== Sys2Proof/Laws/Derived.lean ====
section
/-! SUPPORT. Every operation of the engines leaves each face showing what its class, its binding and the covering slots give
(`FacesDerived`). -/

namespace Sys2Proof.Machine

/-! ## The look of a face -/

/-- A face of the table without its layers above BASE, its strokes and its wait marks. -/
def Engines.lookOf (e : Engines) (d : Nat) : Option Face := (e.faceOf d).map Face.look

theorem lookOf_keeps {e e' : Engines} (k : e.Keeps e') (d : Nat) : e'.lookOf d = e.lookOf d := by
  have key : ∀ {t u : Tab Face}, t.map (fun x => (x.1, x.2.look)) = u.map (fun x => (x.1, x.2.look)) →
      (t.get d).map Face.look = (u.get d).map Face.look := by
    intro t
    induction t with
    | nil =>
      intro u h
      cases u with
      | nil => rfl
      | cons y u => simp at h
    | cons x t ih =>
      intro u h
      cases u with
      | nil => simp at h
      | cons y u =>
        simp only [List.map_cons, List.cons.injEq, Prod.mk.injEq] at h
        obtain ⟨⟨hk, hf⟩, ht⟩ := h
        obtain ⟨kx, fx⟩ := x
        obtain ⟨ky, fy⟩ := y
        dsimp only at hk hf
        subst hk
        unfold Tab.get
        split
        · simp [hf]
        · exact ih ht
  exact key k.looks

theorem lookOf_updFaceFrom (e : Engines) (v : Vector OverrideSlot 4) (d c : Nat) (g : Face → Face) :
    (e.updFaceFrom v d g).lookOf c = if c = d then (e.faceOf d).map (fun f => (g f).look) else e.lookOf c := by
  have hs : (e.storeFace d g).lookOf c = if c = d then (e.faceOf d).map (fun f => (g f).look) else e.lookOf c := by
    have : (e.storeFace d g).faceOf c = if c = d then (e.faceOf c).map g else e.faceOf c := Tab.get_modify _ _ _ _
    unfold Engines.lookOf
    rw [this]
    by_cases h : c = d
    · subst h
      rw [if_pos rfl, if_pos rfl, Option.map_map]
      rfl
    · rw [if_neg h, if_neg h]
  unfold Engines.updFaceFrom
  split
  · rename_i hn
    rw [hn]
    split
    · rename_i h; subst h; unfold Engines.lookOf; rw [hn]; rfl
    · rfl
  · dsimp only
    split
    · exact hs
    · exact (lookOf_keeps (Engines.Keeps.changeMark _ d _) c).trans hs

theorem lookOf_updFace (e : Engines) (d c : Nat) (g : Face → Face) :
    (e.updFace d g).lookOf c = if c = d then (e.faceOf d).map (fun f => (g f).look) else e.lookOf c :=
  lookOf_updFaceFrom e _ d c g

/-- What the faces are derived from: the cars, groups, labels and signals, and the stop lists. -/
def Engines.sources (e : Engines) : Indication × Vector (List Stop) 48 := (e.ind, e.dest.stops)

theorem sources_firm {e e' : Engines} (h : e'.firm = e.firm) : e'.sources = e.sources := by
  have h1 := congrArg Firm.ind h
  have h2 := congrArg Firm.stops h
  unfold Engines.sources
  exact Prod.ext h1 h2

theorem deriveBase_sources {A : Ambient} {e e' : Engines} (h : e'.sources = e.sources) (f : Face) :
    deriveBase A e' f = deriveBase A e f := by
  have h1 : e'.ind = e.ind := congrArg Prod.fst h
  have h2 : e'.dest.stops = e.dest.stops := congrArg Prod.snd h
  have h3 : ∀ c deck, carMatrixBase e' c deck = carMatrixBase e c deck := by
    intro c deck
    unfold carMatrixBase Engines.stopsOf
    rw [h1, h2]
  unfold deriveBase
  simp only [h1, h3]

theorem refreshed_sources {A : Ambient} {e e' : Engines} (h : e'.sources = e.sources) (f : Face) :
    refreshed A e' f = refreshed A e f := by
  have h1 : e'.ind = e.ind := congrArg Prod.fst h
  unfold refreshed
  rw [deriveBase_sources h, h1]

/-- Deriving anew looks at the class and the bindings alone. -/
theorem refreshed_look (A : Ambient) (e : Engines) (f : Face) : (refreshed A e f).look = refreshed A e f.look := rfl

theorem refreshed_twice (A : Ambient) (e : Engines) (f : Face) : refreshed A e (refreshed A e f) = refreshed A e f := rfl

/-! ## The covering slot -/

/-- The records of the slots, which alone decide the cover. -/
def slotRecords (v : Vector OverrideSlot 4) (k : Fin 4) : Rec4 := (slotOf v k).record

theorem coverOf_records {v w : Vector OverrideSlot 4} (h : slotRecords v = slotRecords w) (f : Face) :
    coverOf v f = coverOf w f := by
  unfold coverOf
  congr 1
  funext k
  exact congrArg (fun r : Rec4 => r.covers f) (congrFun h k)

/-- Every face holds the covering slot that the records give it. -/
def Engines.Covered (e : Engines) : Prop := ∀ d f, e.lookOf d = some f → f.cover = coverOf e.face.slots f

namespace Engines.FacesDerived

theorem iff_look (A : Ambient) (e : Engines) : e.FacesDerived A ↔ ∀ d f, e.lookOf d = some f →
    f.base = deriveBase A e f ∧ f.floor = deriveFloor e.ind f ∧ f.scope = deriveScope e.ind f ∧
      f.cover = coverOf e.face.slots f := by
  constructor
  · intro h d f hf
    unfold Engines.lookOf at hf
    obtain ⟨g, hg, rfl⟩ := Option.map_eq_some_iff.1 hf
    exact ⟨h.base d g hg, h.floor d g hg, h.scope d g hg, h.cover d g hg⟩
  · intro h
    have key : ∀ d g, e.faceOf d = some g → _ := fun d g hg => h d g.look (by unfold Engines.lookOf; rw [hg]; rfl)
    exact ⟨fun d g hg => (key d g hg).1, fun d g hg => (key d g hg).2.1, fun d g hg => (key d g hg).2.2.1,
      fun d g hg => (key d g hg).2.2.2⟩

theorem covered {A : Ambient} {e : Engines} (h : e.FacesDerived A) : e.Covered :=
  fun d f hf => ((iff_look A e).1 h d f hf).2.2.2

/-- The law goes by the idle message, the sources, the looks and the slot records. -/
theorem congr {A B : Ambient} {e e' : Engines} (h : e.FacesDerived A) (hA : B.settings = A.settings)
    (hs : e'.sources = e.sources) (hr : slotRecords e'.face.slots = slotRecords e.face.slots)
    (hl : ∀ d, e'.lookOf d = e.lookOf d) : e'.FacesDerived B := by
  rw [iff_look] at h ⊢
  intro d f hf
  obtain ⟨h1, h2, h3, h4⟩ := h d f ((hl d).symm.trans hf)
  have hi : e'.ind = e.ind := congrArg Prod.fst hs
  have hb : deriveBase B e f = deriveBase A e f := by unfold deriveBase; rw [hA]
  refine ⟨?_, ?_, ?_, ?_⟩
  · rw [deriveBase_sources hs, hb]; exact h1
  · rw [hi]; exact h2
  · rw [hi]; exact h3
  · rw [coverOf_records hr]; exact h4

theorem keeps {A : Ambient} {e e' : Engines} (h : e.FacesDerived A) (k : e.Keeps e') : e'.FacesDerived A :=
  h.congr rfl (sources_firm k.firm) (by rw [k.slots]) (lookOf_keeps k)

/-! ## Changes of cover -/

/-- One move of cover: the display gets its new slot, and nothing else of any look changes. -/
theorem lookOf_moveCover (A : Ambient) (e : Engines) (v : Vector OverrideSlot 4) (d c : Nat) {old new : Option (Fin 4)}
    (cls : DisplayClass) (hne : old ≠ new) :
    (e.moveCover A v d old new cls).lookOf c =
      if c = d then (e.lookOf d).map (fun f => { f with cover := new }) else e.lookOf c := by
  have hset : ∀ (g : Face → Face) (new : Option (Fin 4)), (∀ f, (g f).look = { f.look with cover := new }) →
      (e.faceOf d).map (fun f => (g f).look) = (e.lookOf d).map (fun f => { f with cover := new }) := by
    intro g new hg
    unfold Engines.lookOf
    rw [Option.map_map]
    congr 1
    funext f
    exact hg f
  unfold Engines.moveCover
  split
  · exact absurd rfl hne
  · rename_i k
    unfold Engines.onset
    have h1 := lookOf_updFace e d c (fun f => { f with cover := some k, strokes := 0 })
    rw [hset _ (some k) fun _ => rfl] at h1
    dsimp only
    split
    · exact (lookOf_keeps (Keeps.cancelTerminal A _ d _) c).trans h1
    · exact h1
  · have h1 := lookOf_updFace e d c (fun f => { f with cover := none })
    rw [hset _ none fun _ => rfl] at h1
    exact h1
  · rename_i a k
    split
    · rename_i hak; exact absurd (congrArg some hak) hne
    · have h1 := lookOf_updFaceFrom e v d c (fun f => { f with cover := some k })
      rw [hset _ (some k) fun _ => rfl] at h1
      exact h1

/-- The moves of a list, carried out: each display named gets the slot its move names. -/
theorem lookOf_moves (A : Ambient) (v : Vector OverrideSlot 4) (new : Nat → Option (Fin 4)) (c : Nat) :
    ∀ (l : List CoverMove) (e : Engines), (∀ m ∈ l, m.old ≠ m.new ∧ m.new = new m.display) →
    (l.foldl (fun e (m : CoverMove) => e.moveCover A v m.display m.old m.new m.cls) e).lookOf c =
      if c ∈ l.map CoverMove.display then (e.lookOf c).map (fun f => { f with cover := new c }) else e.lookOf c
  | [], e, _ => by simp
  | m :: l, e, h => by
    obtain ⟨hne, hnew⟩ := h m List.mem_cons_self
    rw [List.foldl_cons, lookOf_moves A v new c l _ fun x hx => h x (List.mem_cons_of_mem _ hx),
      lookOf_moveCover A e v m.display c m.cls hne]
    by_cases hc : c = m.display
    · subst hc
      have hr : m.display ∈ (m :: l).map CoverMove.display := List.mem_cons_self
      rw [if_pos rfl, if_pos hr, hnew, Option.map_map]
      split
      · congr 1
      · rfl
    · rw [if_neg hc]
      have : c ∈ (m :: l).map CoverMove.display ↔ c ∈ l.map CoverMove.display := by simp [hc]
      simp only [this]

/-- A cover event: the displays it names get the covering slot that the records now give them. -/
theorem lookOf_coverEventFrom (A : Ambient) (e : Engines) (v : Vector OverrideSlot 4) (ds : List Nat) (c : Nat) :
    (e.coverEventFrom A v ds).lookOf c =
      if c ∈ ds then (e.lookOf c).map (fun f => { f with cover := coverOf e.face.slots f }) else e.lookOf c := by
  have hmem : ∀ m ∈ coverMoves e ds, m.old ≠ m.new ∧ m.display ∈ ds ∧
      ∃ f, e.faceOf m.display = some f ∧ m.old = f.cover ∧ m.new = coverOf e.face.slots f := by
    intro m hm
    unfold coverMoves at hm
    obtain ⟨hm, hne⟩ := List.mem_filter.1 hm
    obtain ⟨d, hd, hdm⟩ := List.mem_filterMap.1 hm
    obtain ⟨f, hf, rfl⟩ := Option.map_eq_some_iff.1 hdm
    exact ⟨by simpa using hne, hd, f, hf, rfl, rfl⟩
  have h1 := lookOf_moves A v (fun d => (e.faceOf d).bind fun f => coverOf e.face.slots f) c (coverMoves e ds) e
    fun m hm => by
      obtain ⟨hne, _, f, hf, _, hnew⟩ := hmem m hm
      refine ⟨hne, ?_⟩
      rw [hf]
      exact hnew
  have h2 : (e.coverEventFrom A v ds).lookOf c = ((coverMoves e ds).foldl
      (fun e (m : CoverMove) => e.moveCover A v m.display m.old m.new m.cls) e).lookOf c := by
    unfold Engines.coverEventFrom
    dsimp only
    split
    · rfl
    · exact lookOf_keeps (Keeps.coverNotice A _ _) c
  rw [h2, h1]
  cases hf : e.faceOf c with
  | none =>
    have : e.lookOf c = none := by unfold Engines.lookOf; rw [hf]; rfl
    rw [this]
    simp
  | some f =>
    have hlook : e.lookOf c = some f.look := by unfold Engines.lookOf; rw [hf]; rfl
    rw [hlook]
    have hsame : coverOf e.face.slots f.look = coverOf e.face.slots f := rfl
    by_cases hd : c ∈ ds
    · rw [if_pos hd]
      by_cases hm : c ∈ (coverMoves e ds).map CoverMove.display
      · rw [if_pos hm]
        rfl
      · rw [if_neg hm]
        have : f.cover = coverOf e.face.slots f := by
          refine Classical.byContradiction fun hne => hm ?_
          refine List.mem_map.2 ⟨⟨c, f.cls, f.cover, coverOf e.face.slots f⟩, ?_, rfl⟩
          unfold coverMoves
          refine List.mem_filter.2 ⟨List.mem_filterMap.2 ⟨c, hd, by rw [hf]; rfl⟩, by simpa using hne⟩
        show some f.look = some { f.look with cover := coverOf e.face.slots f.look }
        rw [hsame, ← this]
        rfl
    · rw [if_neg hd]
      have : c ∉ (coverMoves e ds).map CoverMove.display := by
        intro hm
        obtain ⟨m, hm', hx⟩ := List.mem_map.1 hm
        exact hd (hx ▸ (hmem m hm').2.1)
      rw [if_neg this]

/-! ## Deriving anew -/

theorem lookOf_refresh (A : Ambient) (c : Nat) (e0 : Engines) : ∀ (l : List Nat) (e : Engines), e.sources = e0.sources →
    (l.foldl (fun acc d => acc.updFace d (refreshed A acc)) e).lookOf c =
      if c ∈ l then (e.lookOf c).map (refreshed A e0) else e.lookOf c
  | [], e, _ => by simp
  | d :: l, e, h => by
    have h1 : (e.updFace d (refreshed A e)).sources = e0.sources := (sources_firm (Keeps.updFace_firm e d _)).trans h
    rw [List.foldl_cons, lookOf_refresh A c e0 l _ h1, lookOf_updFace]
    have h2 : (e.faceOf d).map (fun f => (refreshed A e f).look) = (e.lookOf d).map (refreshed A e0) := by
      unfold Engines.lookOf
      rw [Option.map_map]
      congr 1
      funext f
      rw [refreshed_look, refreshed_sources h]
      rfl
    by_cases hc : c = d
    · subst hc
      rw [if_pos rfl, h2, if_pos List.mem_cons_self, Option.map_map]
      split
      · congr 1
      · rfl
    · rw [if_neg hc]
      have : c ∈ d :: l ↔ c ∈ l := by simp [hc]
      simp only [this]

/-- Deriving anew settles every face, if each held its covering slot before. -/
theorem rederive {e : Engines} (h : e.Covered) (A : Ambient) : (e.rederive A).FacesDerived A := by
  unfold Engines.rederive
  extract_lets moved e1 e2
  have hk : e2.Keeps (moved.foldl (fun acc d => acc.targetNotice A d) e2) :=
    Keeps.foldl _ _ (fun b d _ => Keeps.targetNotice A b d) _
  refine keeps ?_ hk
  have hs1 : e1.firm = e.firm := foldl_keeps Engines.firm _ (fun b d => Keeps.updFace_firm b d _) _ _
  have hs2 : e2.firm = e.firm := (Keeps.coverEvent_firm A e1 moved).trans hs1
  have hslots : e1.face.slots = e.face.slots := congrArg Firm.slots hs1
  have hslots2 : e2.face.slots = e.face.slots := congrArg Firm.slots hs2
  have hsrc : e2.sources = e.sources := sources_firm hs2
  have hi : e2.ind = e.ind := congrArg Prod.fst hsrc
  rw [iff_look]
  intro d f2 hf2
  have hl2 : e2.lookOf d = _ := lookOf_coverEventFrom A e1 e1.face.slots moved d
  have hl1 : e1.lookOf d = _ := lookOf_refresh A d e (Tab.keys e.face.faces) e rfl
  rw [hl1, hslots] at hl2
  cases hf : e.faceOf d with
  | none =>
    have : e.lookOf d = none := by unfold Engines.lookOf; rw [hf]; rfl
    rw [this] at hl2
    simp only [Option.map_none, ite_self] at hl2
    rw [hl2] at hf2; cases hf2
  | some f =>
    have hlook : e.lookOf d = some f.look := by unfold Engines.lookOf; rw [hf]; rfl
    have hkey : d ∈ Tab.keys e.face.faces := Tab.mem_keys_of_get _ hf
    rw [if_pos hkey, hlook] at hl2
    simp only [Option.map_some] at hl2
    rw [deriveBase_sources hsrc, hi, hslots2]
    split at hl2
    · rw [hl2] at hf2
      cases hf2
      exact ⟨rfl, rfl, rfl, rfl⟩
    · rename_i hm
      rw [hl2] at hf2
      cases hf2
      refine ⟨rfl, rfl, rfl, ?_⟩
      have hc := h d f.look hlook
      have hnm : ¬(deriveFloor e.ind f ≠ f.floor ∨ deriveScope e.ind f ≠ f.scope) := by
        intro hx
        refine hm (List.mem_map.2 ⟨(d, f), List.mem_filter.2 ⟨Tab.mem_of_get hf, by simpa using hx⟩, rfl⟩)
      rw [not_or, Classical.not_not, Classical.not_not] at hnm
      have hc' : f.cover = coverOf e.face.slots f := hc
      show f.cover = coverOf e.face.slots (refreshed A e f.look)
      rw [hc']
      have hcov : ∀ r : Rec4, r.covers (refreshed A e f.look) = r.covers f := by
        intro r
        have h1 : (refreshed A e f.look).floor = f.floor := hnm.1
        have h2 : (refreshed A e f.look).scope = f.scope := hnm.2
        have h3 : (refreshed A e f.look).cls = f.cls := rfl
        unfold Rec4.covers
        rw [h1, h2, h3]
      unfold coverOf
      congr 1
      funext k
      exact (hcov _).symm

/-! ## The operations -/

theorem covered_face {e e' : Engines} (h : e.Covered) (hf : e'.face = e.face) : e'.Covered := by
  intro d f hd
  have : e'.lookOf d = e.lookOf d := by unfold Engines.lookOf Engines.faceOf; rw [hf]
  rw [this] at hd
  rw [hf]
  exact h d f hd

/-- An operation that changes only what the laws do not go by. -/
theorem of_face {A : Ambient} {e e' : Engines} (h : e.FacesDerived A) (hf : e'.face = e.face) (hi : e'.ind = e.ind)
    (hs : e'.dest.stops = e.dest.stops) : e'.FacesDerived A := by
  refine h.congr rfl ?_ (by rw [hf]) fun d => ?_
  · unfold Engines.sources; rw [hi, hs]
  · unfold Engines.lookOf Engines.faceOf; rw [hf]

theorem acceptCar {A : Ambient} {e : Engines} (h : e.FacesDerived A) (c : Fin 48) (r : Rec4) :
    (e.acceptCar A c r).FacesDerived A := by
  unfold Engines.acceptCar
  dsimp only
  refine rederive (covered_face h.covered ?_) A
  simp only [signalTests_face]
  split
  · simp
  · rfl

theorem acceptGroup {A : Ambient} {e : Engines} (h : e.FacesDerived A) (g : Fin 8) (r : Rec8) :
    (e.acceptGroup A g r).FacesDerived A := by
  unfold Engines.acceptGroup
  dsimp only
  refine rederive (covered_face h.covered ?_) A
  have h1 : ∀ (l : List (Fin 48)) (b : Engines), (l.foldl (fun acc c => acc.onCar c acc.ind.derived) b).face = b.face :=
    fun l b => foldl_keeps Engines.face (fun (acc : Engines) c => acc.onCar c acc.ind.derived) (fun _ _ => rfl) l b
  rw [h1]
  split
  · exact foldl_keeps Engines.face Engines.endLantern (fun b c => by simp) _ _
  · rfl

theorem rehandPrompts {A : Ambient} {e : Engines} (h : e.FacesDerived A) : e.rehandPrompts.FacesDerived A :=
  h.keeps (Keeps.rehandPrompts e)

theorem acceptLabel {A : Ambient} {e : Engines} (h : e.FacesDerived A) (f : Nat) (r : Rec4) :
    (e.acceptLabel A f r).FacesDerived A :=
  rehandPrompts (rederive (covered_face (e' := e.setLabels (e.ind.labels.put f r)) h.covered rfl) A)

theorem clearCars {A : Ambient} {e : Engines} (h : e.FacesDerived A) : (e.clearCars A).FacesDerived A := by
  have h1 := foldl_keeps Engines.face Engines.endLantern (fun b c => by simp) (List.finRange 48) e
  unfold Engines.clearCars
  generalize (List.finRange 48).foldl Engines.endLantern e = b at h1
  exact rederive (covered_face (e' := b.setCars (Vector.replicate 48 Car.reset)) h.covered h1) A

theorem clearLabels {A : Ambient} {e : Engines} (h : e.FacesDerived A) : (e.clearLabels A).FacesDerived A :=
  rehandPrompts (rederive (covered_face (e' := e.setLabels []) h.covered rfl) A)

theorem flash {A : Ambient} {e : Engines} (h : e.FacesDerived A) (c : Fin 48) (p : TimerPlace) :
    (e.flash A c p).FacesDerived A := by
  unfold Engines.flash
  split
  · exact rederive (covered_face (e' := e.onSignal c _) h.covered rfl) A
  · exact h

/-- The place of a gong is no part of what a display shows. -/
theorem live_signals {i j : Indication} (hc : j.cars = i.cars) (hg : j.groups = i.groups) (c : Fin 48) :
    j.live c = i.live c := by
  have h1 : ∀ c, j.carOf c = i.carOf c := fun c => by unfold Indication.carOf; rw [hc]
  have h2 : ∀ g, j.groupOf g = i.groupOf g := fun g => by unfold Indication.groupOf; rw [hg]
  unfold Indication.live
  simp only [h1, h2]

/-- A change of signals that no display can tell. -/
theorem of_signals {A : Ambient} {e e' : Engines} (h : e.FacesDerived A) (hf : ∀ d, e'.lookOf d = e.lookOf d)
    (hr : e'.face.slots = e.face.slots) (hc : e'.ind.cars = e.ind.cars) (hg : e'.ind.groups = e.ind.groups)
    (hl : e'.ind.labels = e.ind.labels) (hs : ∀ c l, (e'.ind.signalOf c).show l = (e.ind.signalOf c).show l)
    (hd : e'.dest.stops = e.dest.stops) : e'.FacesDerived A := by
  have h1 : ∀ c, e'.ind.carOf c = e.ind.carOf c := fun c => by unfold Indication.carOf; rw [hc]
  have h2 : ∀ g, e'.ind.groupOf g = e.ind.groupOf g := fun g => by unfold Indication.groupOf; rw [hg]
  have h3 : ∀ c, e'.ind.live c = e.ind.live c := live_signals hc hg
  have h4 : ∀ f, segmentOfFloor e'.ind f = segmentOfFloor e.ind f := fun f => by
    cases f <;> simp [segmentOfFloor, hl]
  have h5 : ∀ f, nameOfFloor e'.ind f = nameOfFloor e.ind f := fun f => by unfold nameOfFloor; rw [hl]
  have h6 : ∀ c deck, carMatrixBase e' c deck = carMatrixBase e c deck := by
    intro c deck
    unfold carMatrixBase Engines.stopsOf
    simp only [h1, h3, h5, hl, hd]
  have h7 : ∀ g l, hallMatrixBase e'.ind g l = hallMatrixBase e.ind g l := by
    intro g l
    unfold hallMatrixBase hallEntry
    simp only [h1, h2, h5]
  have hb : ∀ f, deriveBase A e' f = deriveBase A e f := by
    intro f
    unfold deriveBase
    simp only [h1, h3, h4, h6, h7, hs]
  have hfl : ∀ f, deriveFloor e'.ind f = deriveFloor e.ind f := by
    intro f
    unfold deriveFloor
    simp only [h2, h3]
  have hsc : ∀ f, deriveScope e'.ind f = deriveScope e.ind f := by
    intro f
    unfold deriveScope
    simp only [h1, h2]
  rw [iff_look] at h ⊢
  intro d f hx
  rw [hb, hfl, hsc, hr]
  exact h d f ((hf d).symm.trans hx)

theorem stroke {A : Ambient} {e : Engines} (h : e.FacesDerived A) (c : Fin 48) (p : TimerPlace) :
    (e.stroke c p).FacesDerived A := by
  unfold Engines.stroke
  dsimp only
  split
  · generalize (e.face.faces.filter fun y => (e.ind.signalOf c).owns c y.2 && e.eligible y.1 y.2).map Prod.fst = ds
    have k : e.Keeps (ds.foldl (fun b d => b.updFace d fun f => { f with strokes := min (f.strokes + 1) 3 }) e) :=
      Keeps.foldl (fun (b : Engines) d => b.updFace d fun f => { f with strokes := min (f.strokes + 1) 3 }) ds
        (fun b d _ => Keeps.updFace b d _ fun _ => rfl) e
    refine (h.keeps k).of_signals (fun _ => rfl) rfl rfl rfl rfl (fun i l => ?_) rfl
    have : ∀ (b : Engines) (g : Signal → Signal), (b.onSignal c g).ind.signalOf i =
        if c = i then g (b.ind.signalOf i) else b.ind.signalOf i := fun b g => get_upd b.ind.signals c i g
    rw [this]
    split <;> rfl
  · exact h

theorem acceptSlot {A : Ambient} {e : Engines} (h : e.FacesDerived A) (k : Fin 4) (r : Rec4) :
    (e.acceptSlot A k r).FacesDerived A := by
  unfold Engines.acceptSlot
  extract_lets before e1 e2 kept e3
  have hs2 : e2.firm = e1.firm := Keeps.coverEventFrom_firm A e1 before _
  have k3 : e2.Keeps e3 := by
    refine Keeps.foldl _ _ (fun b x _ => ?_) _
    split
    · exact Keeps.changeMark _ _ _
    · exact Keeps.refl _
  have hslots2 : e2.face.slots = e1.face.slots := congrArg Firm.slots hs2
  have h2 : e2.FacesDerived A := by
    rw [iff_look]
    intro d f hf
    have hl2 : e2.lookOf d = _ := lookOf_coverEventFrom A e1 before (Tab.keys e1.face.faces) d
    have hl1 : e1.lookOf d = e.lookOf d := rfl
    have hsrc : e2.sources = e.sources := (sources_firm hs2 : e2.sources = e1.sources)
    have hi : e2.ind = e.ind := congrArg Prod.fst hsrc
    rw [hl1] at hl2
    cases hx : e.faceOf d with
    | none =>
      have : e.lookOf d = none := by unfold Engines.lookOf; rw [hx]; rfl
      rw [this] at hl2
      simp only [Option.map_none, ite_self] at hl2
      rw [hl2] at hf; cases hf
    | some g =>
      have hlook : e.lookOf d = some g.look := by unfold Engines.lookOf; rw [hx]; rfl
      have hkey : d ∈ Tab.keys e1.face.faces := Tab.mem_keys_of_get _ hx
      obtain ⟨b1, b2, b3, _⟩ := (iff_look A e).1 h d g.look hlook
      rw [if_pos hkey, hlook] at hl2
      rw [hl2] at hf
      simp only [Option.map_some, Option.some.injEq] at hf
      subst hf
      rw [deriveBase_sources hsrc, hi, hslots2]
      exact ⟨b1, b2, b3, rfl⟩
  have h3 : e3.FacesDerived A := h2.keeps k3
  unfold Engines.settlePlace
  dsimp only
  have hrec : ∀ (b : Engines) (g : OverrideSlot → OverrideSlot), (∀ x, (g x).record = x.record) →
      slotRecords (b.onSlot k g).face.slots = slotRecords b.face.slots := by
    intro b g hg
    funext i
    show (upd b.face.slots k g)[i].record = _
    rw [get_upd]
    split
    · exact hg _
    · rfl
  split
  · split
    · exact h3
    · unfold Engines.claimOverride
      split
      · rename_i tm id _
        exact h3.congr rfl rfl (hrec (e3.setTimers tm) _ fun _ => rfl) fun _ => rfl
      · exact h3.of_face rfl rfl rfl
  · exact h3.congr rfl rfl (hrec (e3.release _) _ fun _ => rfl) fun _ => rfl

/-! ## The roster -/

theorem createDisplay {A : Ambient} {e : Engines} (h : e.FacesDerived A) (d : Nat) (r : Rec4) (cls : DisplayClass) :
    (e.createDisplay A d r cls).FacesDerived A := by
  unfold Engines.createDisplay
  extract_lets e1 e2
  have h1 : e1.FacesDerived A := h.of_face rfl rfl rfl
  have h2 : e2.FacesDerived A := by
    rw [iff_look]
    intro c f hf
    have hg : e2.faceOf c = if c = d then some (createdFace A e1 r cls) else e1.faceOf c := Tab.get_put _ _ _ _
    unfold Engines.lookOf at hf
    rw [hg] at hf
    split at hf
    · cases hf
      exact ⟨rfl, rfl, rfl, rfl⟩
    · exact (iff_look A e1).1 h1 c f hf
  have h3 : (e2.openQueue d cls).FacesDerived A := by
    unfold Engines.openQueue
    split
    · exact h2.of_face rfl rfl rfl
    · exact h2
  exact h3.keeps (Keeps.targetNotice A _ d)

theorem cancelIfTerminal {A : Ambient} {e : Engines} (h : e.FacesDerived A) (d : Nat) (cls : DisplayClass) :
    (e.cancelIfTerminal A d cls).FacesDerived A := by
  unfold Engines.cancelIfTerminal
  split
  · exact h.keeps (Keeps.cancelTerminal A e d _)
  · exact h

theorem removeDisplay {A : Ambient} {e : Engines} (h : e.FacesDerived A) (d : Nat) :
    (e.removeDisplay A d).FacesDerived A := by
  unfold Engines.removeDisplay
  split
  · exact h
  · rename_i f hf
    dsimp only
    have h0 : ((e.leaveQueue f.link d).cancelPoll f.link f.drop).FacesDerived A :=
      (h.keeps (Keeps.leaveQueue e f.link d)).of_face rfl rfl rfl
    have h1 := h0.cancelIfTerminal d f.cls
    generalize ((e.leaveQueue f.link d).cancelPoll f.link f.drop).cancelIfTerminal A d f.cls = e1 at h1
    have h2 : ((e1.leaveQueue f.link d).closeQueue d).FacesDerived A :=
      (h1.keeps (Keeps.leaveQueue e1 f.link d)).of_face rfl rfl rfl
    generalize (e1.leaveQueue f.link d).closeQueue d = e2 at h2
    have h3 : (e2.setFaces (e2.face.faces.erase d)).FacesDerived A := by
      rw [iff_look]
      intro c g hg
      have hx : (e2.setFaces (e2.face.faces.erase d)).faceOf c = if c = d then none else e2.faceOf c := Tab.get_erase _ _ _
      unfold Engines.lookOf at hg
      rw [hx] at hg
      split at hg
      · cases hg
      · exact (iff_look A e2).1 h2 c g hg
    have h4 := h3.keeps (Keeps.targetNotice A _ d)
    generalize (e2.setFaces (e2.face.faces.erase d)).targetNotice A d = e3 at h4
    exact h4.of_face rfl rfl rfl

theorem rebuildFace {A : Ambient} {e : Engines} (h : e.FacesDerived A) (d : Nat) (r : Rec4) (cls old : DisplayClass) :
    (e.rebuildFace A d r cls old).FacesDerived A := by
  unfold Engines.rebuildFace
  dsimp only
  have h1 := h.cancelIfTerminal d old
  generalize e.cancelIfTerminal A d old = e1 at h1
  have h2 : (if old = .terminal ∧ cls ≠ .terminal then e1.closeQueue d else e1).FacesDerived A := by
    split
    · exact h1.of_face rfl rfl rfl
    · exact h1
  generalize (if old = .terminal ∧ cls ≠ .terminal then e1.closeQueue d else e1) = e2 at h2
  have h3 : (if old ≠ .terminal then e2.openQueue d cls else e2).FacesDerived A := by
    split
    · unfold Engines.openQueue
      split
      · exact h2.of_face rfl rfl rfl
      · exact h2
    · exact h2
  generalize (if old ≠ .terminal then e2.openQueue d cls else e2) = e3 at h3
  refine keeps ?_ (Keeps.targetNotice A _ d)
  have hf4 : (e3.updFace d (rebuilt A e3 r cls)).firm = e3.firm := Keeps.updFace_firm e3 d _
  have hf5 : ((e3.updFace d (rebuilt A e3 r cls)).coverEvent A [d]).firm = e3.firm :=
    (Keeps.coverEvent_firm A _ [d]).trans hf4
  have hsrc := sources_firm hf5
  have hi : ((e3.updFace d (rebuilt A e3 r cls)).coverEvent A [d]).ind = e3.ind := congrArg Prod.fst hsrc
  have hsl : ((e3.updFace d (rebuilt A e3 r cls)).coverEvent A [d]).face.slots = e3.face.slots :=
    congrArg Firm.slots hf5
  have hsl4 : (e3.updFace d (rebuilt A e3 r cls)).face.slots = e3.face.slots := congrArg Firm.slots hf4
  rw [iff_look]
  intro c f hf
  rw [deriveBase_sources hsrc, hi, hsl]
  have hl : ((e3.updFace d (rebuilt A e3 r cls)).coverEvent A [d]).lookOf c = _ :=
    lookOf_coverEventFrom A (e3.updFace d (rebuilt A e3 r cls)) _ [d] c
  rw [lookOf_updFace, hsl4] at hl
  rw [hl] at hf
  by_cases hc : c = d
  · subst hc
    rw [if_pos (by simp), if_pos rfl] at hf
    cases hg : e3.faceOf c with
    | none => rw [hg] at hf; cases hf
    | some g =>
      rw [hg] at hf
      cases hf
      exact ⟨rfl, rfl, rfl, rfl⟩
  · rw [if_neg (by simpa using hc), if_neg hc] at hf
    exact (iff_look A e3).1 h3 c f hf

theorem onDisplay {A : Ambient} {e : Engines} (h : e.FacesDerived A) (d : Nat) (g : Display → Display) :
    (e.onDisplay d g).FacesDerived A := h.of_face rfl rfl rfl

theorem rebindDisplay {A : Ambient} {e : Engines} (h : e.FacesDerived A) (d : Nat) (r : Rec4) (cls : DisplayClass)
    (f : Face) : (e.rebindDisplay A d r cls f).FacesDerived A := by
  unfold Engines.rebindDisplay
  dsimp only
  split
  · have h0 : ((e.leaveQueue f.link d).cancelPoll f.link f.drop).FacesDerived A :=
      (h.keeps (Keeps.leaveQueue e f.link d)).of_face rfl rfl rfl
    exact (((h0.onDisplay d _).onDisplay d _).rebuildFace d r cls f.cls).onDisplay d _
  · exact (h.onDisplay d _).rebuildFace d r cls f.cls

theorem acceptRoster {A : Ambient} {e : Engines} (h : e.FacesDerived A) (d : Nat) (r : Rec4) :
    (e.acceptRoster A d r).FacesDerived A := by
  unfold Engines.acceptRoster
  have h1 : (e.setRoster (e.link.roster.put d r)).FacesDerived A := h.of_face rfl rfl rfl
  dsimp only
  split
  · exact h1.createDisplay d r _
  · split
    · exact h1.rebindDisplay d r _ _
    · exact h1
  · exact h1
  · exact h1.removeDisplay d
  · exact h1

theorem clearRoster {A : Ambient} {e : Engines} (h : e.FacesDerived A) : (e.clearRoster A).FacesDerived A := by
  have h1 := foldl_inv (Engines.FacesDerived A) (fun b d => b.removeDisplay A d) (fun b d hb => hb.removeDisplay d)
    (Tab.keys e.face.faces) e h
  exact h1.of_face rfl rfl rfl

/-- With no face there is nothing to derive. -/
theorem of_empty (A : Ambient) {e : Engines} (hf : e.face.faces = []) : e.FacesDerived A := by
  rw [iff_look]
  intro d f hd
  have : e.lookOf d = none := by unfold Engines.lookOf Engines.faceOf; rw [hf]; rfl
  rw [this] at hd; cases hd

end Engines.FacesDerived

end Sys2Proof.Machine
end

