-- ==== Sys2Proof/Laws/Fetch.lean ====
section
/-! SUPPORT. Which operations of the Fetch Unit leave the issued sweep reads as they are, and what the others do to the
places they are promised. -/

namespace Sys2Proof.Machine.FetchUnit

theorem foldl_sweepReads {α : Type} (op : FetchUnit → α → FetchUnit) (h : ∀ f a, (op f a).sweepReads = f.sweepReads)
    (l : List α) (f : FetchUnit) : (l.foldl op f).sweepReads = f.sweepReads := by
  induction l generalizing f with
  | nil => rfl
  | cons a l ih => rw [List.foldl_cons, ih, h]

@[simp] theorem setChannel_sweepReads (f : FetchUnit) (ch : Fin 4) (j : Option Job) :
    (f.setChannel ch j).sweepReads = f.sweepReads := rfl

@[simp] theorem onLine_sweepReads (f : FetchUnit) (i : Fin 32) (g : Line → Line) :
    (f.onLine i g).sweepReads = f.sweepReads := rfl

@[simp] theorem onArea_sweepReads (f : FetchUnit) (a : Fin 8) (g : Area → Area) :
    (f.onArea a g).sweepReads = f.sweepReads := rfl

@[simp] theorem requestText_sweepReads (f : FetchUnit) (t : Tag) : (f.requestText t).sweepReads = f.sweepReads := by
  unfold requestText
  split
  · rfl
  · split <;> rfl

theorem lookup_sweepReads (f f' : FetchUnit) (t : Tag) (codes : List Code) (h : f.lookup t = some (codes, f')) :
    f'.sweepReads = f.sweepReads := by
  unfold lookup at h
  split at h
  · cases h
  · split at h
    · cases h; rfl
    · cases h

@[simp] theorem completeFill_sweepReads (f : FetchUnit) (ch : Fin 4) (t : Tag) (i : Fin 32) (codes : List Code) :
    (f.completeFill ch t i codes).1.sweepReads = f.sweepReads := by
  unfold completeFill
  split <;> rfl

@[simp] theorem take_sweepReads (f : FetchUnit) (w : Vector Rec4 5) (ch : Fin 4) (r : Request) :
    (f.take w ch r).1.sweepReads = f.sweepReads := by
  cases r with
  | sweep k m => rfl
  | text t =>
    unfold take
    dsimp only
    split
    · rw [completeFill_sweepReads]; rfl
    · rfl
  | glyph a s p c g => rfl

@[simp] theorem messageDone_sweepReads (f : FetchUnit) (ch : Fin 4) (t : Tag) (i : Fin 32) (got : List Word) :
    (f.messageDone ch t i got).1.sweepReads = f.sweepReads := by
  unfold messageDone
  split
  · exact completeFill_sweepReads f ch t i []
  · rfl

@[simp] theorem lengthDone_sweepReads (f : FetchUnit) (ch : Fin 4) (t : Tag) (i : Fin 32) (str : Nat) (w : Word) :
    (f.lengthDone ch t i str w).1.sweepReads = f.sweepReads := by
  unfold lengthDone
  extract_lets al len f1
  split
  · rw [completeFill_sweepReads]; rfl
  · split
    · rw [completeFill_sweepReads]; rfl
    · rfl

@[simp] theorem textDone_sweepReads (f : FetchUnit) (ch : Fin 4) : (f.textDone ch).1.sweepReads = f.sweepReads := by
  unfold textDone
  split <;> simp

@[simp] theorem storeGlyph_sweepReads (f : FetchUnit) (a : Fin 8) (g : Nat) (b : List Byte) :
    (f.storeGlyph a g b).sweepReads = f.sweepReads := rfl

@[simp] theorem setProgress_sweepReads (f : FetchUnit) (a : Fin 8) (n : Nat) :
    (f.setProgress a n).sweepReads = f.sweepReads := rfl

@[simp] theorem deliver_sweepReads (f : FetchUnit) (ch : Fin 4) (w : List Word) :
    (f.deliver ch w).sweepReads = f.sweepReads := by
  unfold deliver
  split
  · rfl
  · dsimp only
    split
    · rfl
    · split <;> rfl
  · rfl
  · rfl

@[simp] theorem requeueLoad_sweepReads (f : FetchUnit) (a : Fin 8) : (f.requeueLoad a).sweepReads = f.sweepReads := rfl

@[simp] theorem makeReady_sweepReads (f : FetchUnit) (l : List (Fin 8)) : (f.makeReady l).sweepReads = f.sweepReads := by
  unfold makeReady
  apply foldl_sweepReads
  intros; rfl

@[simp] theorem glyphDone_sweepReads (f : FetchUnit) (ch : Fin 4) : (f.glyphDone ch).1.sweepReads = f.sweepReads := by
  unfold glyphDone
  repeat' split
  all_goals simp

@[simp] theorem stopLoads_sweepReads (f : FetchUnit) (l : List (Fin 8)) : (f.stopLoads l).sweepReads = f.sweepReads := by
  apply foldl_sweepReads
  intro g ch
  repeat' split
  all_goals rfl

@[simp] theorem restartLoad_sweepReads (f : FetchUnit) (a : Fin 8) : (f.restartLoad a).sweepReads = f.sweepReads := by
  unfold restartLoad
  dsimp only
  split <;> simp

@[simp] theorem snoopLine_sweepReads (f : FetchUnit) (b : List Nat) (i : Fin 32) :
    (f.snoopLine b i).sweepReads = f.sweepReads := by
  unfold snoopLine
  repeat' split
  all_goals rfl

@[simp] theorem snoop_sweepReads (f : FetchUnit) (b : List Nat) : (f.snoop b).sweepReads = f.sweepReads := by
  unfold snoop
  dsimp only
  rw [foldl_sweepReads _ (fun _ _ => by simp), foldl_sweepReads _ (fun _ _ => by simp)]

@[simp] theorem emptyAreas_sweepReads (f : FetchUnit) (l : List (Fin 8)) : (f.emptyAreas l).sweepReads = f.sweepReads := by
  unfold emptyAreas
  apply foldl_sweepReads
  intros; rfl

@[simp] theorem abandonLoads_sweepReads (f : FetchUnit) (l : List (Fin 8)) :
    (f.abandonLoads l).sweepReads = f.sweepReads := by
  unfold abandonLoads
  rw [stopLoads_sweepReads]

@[simp] theorem startLoad_sweepReads (f : FetchUnit) (a : Fin 8) (src pitch count : Nat) :
    (f.startLoad a src pitch count).sweepReads = f.sweepReads := by
  unfold startLoad
  dsimp only
  split
  · simp
  · refine (foldl_sweepReads _ ?_ _ _).trans ?_
    · intros; rfl
    · simp

@[simp] theorem askSweep_sweepReads (f : FetchUnit) (w : Fin 5) : (f.askSweep w).sweepReads = f.sweepReads := by
  unfold askSweep
  split
  · split <;> rfl
  · rfl

/-- A withdrawal keeps the promised places: the issued reads complete as usual (R123). -/
theorem withdrawSweep_counts (f : FetchUnit) (w : Fin 5) :
    (f.withdrawSweep w).sweepReads.map SweepRead.count = f.sweepReads.map SweepRead.count := by
  unfold withdrawSweep
  dsimp only
  rw [foldl_sweepReads]
  · rw [List.map_map]
    apply List.map_congr_left
    intro r _
    simp only [Function.comp, SweepRead.withdraw]
    split <;> rfl
  · intro g ch
    repeat' split
    all_goals rfl

@[simp] theorem rerunSweep_sweepReads (f : FetchUnit) (v : Vector Rec4 5) (ch : Fin 4) (w : Fin 5) :
    (f.rerunSweep v ch w).sweepReads = f.sweepReads := rfl

theorem issueSweep_sweepReads (f : FetchUnit) (ch : Fin 4) (w : Fin 5) (next stop : Nat) (b r : Word) :
    (f.issueSweep ch w next stop b r).sweepReads =
      f.sweepReads ++ [⟨w, next, burstWords next ((stop - next) / 4), b, r, .live⟩] := rfl

end Sys2Proof.Machine.FetchUnit
end

