-- ==== Sys2Proof/Laws/Links.lean ====
section
/-! SUPPORT. Every operation of the engines keeps the laws of the roster and the transmit queues (`LinksSafe`). -/

namespace Sys2Proof.Machine

/-! ## Tables of faces -/

/-- The roster fields of a face that the links go by. -/
def Face.spot (f : Face) : DisplayClass × Fin 8 × Nat := (f.cls, f.link, f.drop)

/-- The spots of two tables with the same spots agree, key by key. -/
theorem spots_get : ∀ {t u : Tab Face}, t.map (fun x => (x.1, x.2.spot)) = u.map (fun x => (x.1, x.2.spot)) →
    ∀ d, (t.get d).map Face.spot = (u.get d).map Face.spot
  | [], [], _, _ => rfl
  | [], _ :: _, h, _ => by simp at h
  | _ :: _, [], h, _ => by simp at h
  | (k, f) :: t, (j, g) :: u, h, d => by
    simp only [List.map_cons, List.cons.injEq, Prod.mk.injEq] at h
    obtain ⟨⟨rfl, hfg⟩, ht⟩ := h
    unfold Tab.get
    split
    · simp [hfg]
    · exact spots_get ht d

theorem modify_spots (t : Tab Face) (d : Nat) (g : Face → Face) (hg : ∀ f, (g f).spot = f.spot) :
    (t.modify d g).map (fun x => (x.1, x.2.spot)) = t.map fun x => (x.1, x.2.spot) := by
  induction t with
  | nil => rfl
  | cons x t ih =>
    obtain ⟨k, v⟩ := x
    unfold Tab.modify
    split
    · simp [hg]
    · simp only [List.map_cons, ih]

/-! ## Queues -/

theorem mem_behindLast (p : Nat → Bool) (q : List Nat) (d x : Nat) : x ∈ behindLast p q d ↔ x = d ∨ x ∈ q := by
  induction q with
  | nil => simp [behindLast]
  | cons y ys ih =>
    unfold behindLast
    split
    · simp only [List.mem_cons]
      constructor <;> rintro (h | h | h) <;> simp [h]
    · simp only [List.mem_cons, ih]
      constructor <;> rintro (h | h | h) <;> simp [h]

theorem nodup_behindLast (p : Nat → Bool) {q : List Nat} {d : Nat} (hq : q.Nodup) (hd : d ∉ q) :
    (behindLast p q d).Nodup := by
  induction q with
  | nil => simp [behindLast]
  | cons y ys ih =>
    rw [List.nodup_cons] at hq
    rw [List.mem_cons, not_or] at hd
    unfold behindLast
    split
    · simp only [List.nodup_cons, List.mem_cons, not_or]
      exact ⟨⟨fun h => hd.1 h.symm, hq.1⟩, hd.2, hq.2⟩
    · rw [List.nodup_cons, mem_behindLast]
      refine ⟨?_, ih hq.2 hd.2⟩
      rintro (h | h)
      · exact hd.1 h.symm
      · exact hq.1 h

theorem head_behindLast (p : Nat → Bool) {q : List Nat} (d : Nat) (hq : q ≠ []) :
    (behindLast p q d).head? = q.head? := by
  cases q with
  | nil => exact absurd rfl hq
  | cons y ys =>
    unfold behindLast
    split <;> rfl

theorem mem_joinOverride (p : Nat → Bool) (fly : Option Nat) (q : List Nat) (d x : Nat) :
    x ∈ joinOverride p fly q d ↔ x = d ∨ x ∈ q := by
  unfold joinOverride
  split
  · exact mem_behindLast p q d x
  · split
    · exact mem_behindLast _ q d x
    · exact List.mem_cons

theorem nodup_joinOverride (p : Nat → Bool) (fly : Option Nat) {q : List Nat} {d : Nat} (hq : q.Nodup) (hd : d ∉ q) :
    (joinOverride p fly q d).Nodup := by
  unfold joinOverride
  split
  · exact nodup_behindLast p hq hd
  · split
    · exact nodup_behindLast _ hq hd
    · exact List.nodup_cons.2 ⟨hd, hq⟩

/-- The display in flight stays at the head when another joins. -/
theorem head_joinOverride (p : Nat → Bool) {x : Nat} {q : List Nat} (d : Nat) (hx : q.head? = some x) :
    (joinOverride p (some x) q d).head? = some x := by
  have hq : q ≠ [] := by rintro rfl; cases hx
  unfold joinOverride
  split
  · rw [head_behindLast p d hq, hx]
  · rw [head_behindLast _ d hq, hx]

theorem mem_joined (e : Engines) (l : Link) (d x : Nat) : x ∈ joined e l d ↔ x = d ∨ x ∈ l.queue := by
  unfold joined
  split
  · exact mem_joinOverride _ _ _ _ _
  · simp only [List.mem_append, List.mem_singleton]; exact Or.comm

theorem nodup_joined (e : Engines) {l : Link} {d : Nat} (hq : l.queue.Nodup) (hd : d ∉ l.queue) :
    (joined e l d).Nodup := by
  unfold joined
  split
  · exact nodup_joinOverride _ _ hq hd
  · rw [List.nodup_append]
    exact ⟨hq, by simp, fun a ha b hb => by simp at hb; subst hb; rintro rfl; exact hd ha⟩

theorem head_joined (e : Engines) {l : Link} {x : Nat} (d : Nat) (hx : l.queue.head? = some x)
    (hf : l.inFlight = some x) : (joined e l d).head? = some x := by
  unfold joined
  split
  · rw [hf]; exact head_joinOverride _ d hx
  · cases h : l.queue with
    | nil => rw [h] at hx; cases hx
    | cons y ys => rw [h] at hx; exact hx

theorem mem_promoted (e : Engines) (l : Link) {d x : Nat} (hd : d ∈ l.queue) (h : x ∈ promoted e l d) : x ∈ l.queue := by
  unfold promoted at h
  dsimp only at h
  split at h
  · rw [mem_joinOverride] at h
    rcases h with rfl | h
    · exact hd
    · exact List.mem_of_mem_erase h
  · exact h

theorem nodup_promoted (e : Engines) {l : Link} (d : Nat) (hq : l.queue.Nodup) : (promoted e l d).Nodup := by
  unfold promoted
  dsimp only
  split
  · exact nodup_joinOverride _ _ (hq.erase d) (by rw [hq.mem_erase_iff]; exact fun h => h.1 rfl)
  · exact hq

theorem head_promoted (e : Engines) {l : Link} {x d : Nat} (hx : l.queue.head? = some x) (hf : l.inFlight = some x)
    (hd : x ≠ d) : (promoted e l d).head? = some x := by
  unfold promoted
  dsimp only
  split
  · rw [hf]
    apply head_joinOverride
    cases h : l.queue with
    | nil => rw [h] at hx; cases hx
    | cons y ys =>
      rw [h] at hx
      cases hx
      rw [List.erase_cons, if_neg (by simpa using hd)]
      rfl
  · exact hx

/-! ## The laws, kept -/

theorem Engines.linkOf_onLink (e : Engines) (n m : Fin 8) (g : Link → Link) :
    (e.onLink n g).linkOf m = if n = m then g (e.linkOf m) else e.linkOf m := get_upd e.link.links n m g

namespace Engines.LinksSafe

/-- `e'` has the displays, the roster fields and the run states of `e`. -/
structure Same (e e' : Engines) : Prop where
  spots : e'.face.faces.map (fun x => (x.1, x.2.spot)) = e.face.faces.map fun x => (x.1, x.2.spot)
  online : ∀ d, e'.online d = e.online d
  running : ∀ n, (e'.linkOf n).running = (e.linkOf n).running

theorem Same.refl (e : Engines) : Same e e := ⟨rfl, fun _ => rfl, fun _ => rfl⟩

theorem Same.trans {a b c : Engines} (h : Same a b) (k : Same b c) : Same a c :=
  ⟨k.spots.trans h.spots, fun d => (k.online d).trans (h.online d), fun n => (k.running n).trans (h.running n)⟩

theorem Same.of_keeps {e e' : Engines} (k : e.Keeps e') : Same e e' := by
  refine ⟨?_, fun d => by unfold Engines.online; rw [k.displays], fun n => ?_⟩
  · have h := congrArg (List.map fun x : Nat × Face => (x.1, x.2.spot)) k.looks
    simp only [Engines.looks, List.map_map] at h
    exact h
  · have h := congrArg Link.running (k.link n)
    exact h

theorem Same.storeFace (e : Engines) (d : Nat) (g : Face → Face) (hg : ∀ f, (g f).spot = f.spot) :
    Same e (e.storeFace d g) := ⟨modify_spots e.face.faces d g hg, fun _ => rfl, fun _ => rfl⟩

theorem Same.spot {e e' : Engines} (k : Same e e') {d : Nat} {f : Face} (hf : e'.faceOf d = some f) :
    ∃ g, e.faceOf d = some g ∧ g.spot = f.spot := by
  have := spots_get k.spots d
  unfold Engines.faceOf at hf
  rw [hf] at this
  cases hg : e.faceOf d with
  | none => unfold Engines.faceOf at hg; rw [hg] at this; cases this
  | some g => unfold Engines.faceOf at hg; rw [hg] at this; exact ⟨g, rfl, by simpa using this.symm⟩

theorem Same.symm {e e' : Engines} (k : Same e e') : Same e' e :=
  ⟨k.spots.symm, fun d => (k.online d).symm, fun n => (k.running n).symm⟩

/-- What the laws say of a link whose queue and frame have changed, in the terms of the state before. -/
structure QueueSafe (e : Engines) (n : Fin 8) (l : Link) : Prop where
  once : l.queue.Nodup
  members : ∀ d ∈ l.queue, e.online d = true ∧ ∃ f, e.faceOf d = some f ∧ f.link = n
  flying : ∀ fr, l.frame = some fr → l.queue.head? = some fr.display
  stopped : l.running = false → l.queue = []

theorem queueSafe {e : Engines} (h : e.LinksSafe) (n : Fin 8) : QueueSafe e n (e.linkOf n) :=
  ⟨h.once n, h.members n, h.flying n, fun hr => (h.stopped n hr).1⟩

/-- Operations that keep the displays, the roster fields and the run states need only keep the queues. -/
theorem of_same {e e' : Engines} (h : e.LinksSafe) (k : Same e e') (hq : ∀ n, QueueSafe e n (e'.linkOf n)) :
    e'.LinksSafe := by
  constructor
  · have hk := congrArg (List.map Prod.fst) k.spots
    simp only [List.map_map, Function.comp_def] at hk
    rw [Tab.wf_iff]
    exact (congrArg (List.Pairwise (· < ·)) hk).mpr ((Tab.wf_iff _).1 h.faces)
  · have h1 := congrArg (fun l => (l.filter fun x : Nat × DisplayClass × Fin 8 × Nat => x.2.1 == .terminal).length) k.spots
    simp only [List.filter_map, List.length_map, Function.comp_def, Face.spot] at h1
    rw [h1]; exact h.terminals
  · intro d f hf
    obtain ⟨g, hg, hs⟩ := k.spot hf
    have := h.drops d g hg
    simp only [Face.spot, Prod.mk.injEq] at hs
    omega
  · intro c d f g hf hg hl hd
    obtain ⟨f', hf', hs1⟩ := k.spot hf
    obtain ⟨g', hg', hs2⟩ := k.spot hg
    simp only [Face.spot, Prod.mk.injEq] at hs1 hs2
    exact h.apart c d f' g' hf' hg' (by rw [hs1.2.1, hs2.2.1, hl]) (by rw [hs1.2.2, hs2.2.2, hd])
  · exact fun n => (hq n).once
  · intro n d hd
    obtain ⟨h1, f, hf, hl⟩ := (hq n).members d hd
    refine ⟨(k.online d).trans h1, ?_⟩
    obtain ⟨g, hg, hs⟩ := k.symm.spot hf
    simp only [Face.spot, Prod.mk.injEq] at hs
    exact ⟨g, hg, hs.2.1.trans hl⟩
  · exact fun n => (hq n).flying
  · intro n hr
    refine ⟨(hq n).stopped hr, ?_⟩
    intro d f hf hl
    obtain ⟨g, hg, hs⟩ := k.spot hf
    simp only [Face.spot, Prod.mk.injEq] at hs
    rw [k.online]
    exact (h.stopped n ((k.running n).symm.trans hr)).2 d g hg (hs.2.1.trans hl)

/-- Operations that keep the displays, the roster fields and every link. -/
theorem of_links {e e' : Engines} (h : e.LinksSafe) (k : Same e e') (hl : ∀ n, e'.linkOf n = e.linkOf n) :
    e'.LinksSafe := h.of_same k fun n => by rw [hl]; exact h.queueSafe n

/-- Operations that leave the faces and the links alone. -/
theorem congr {e e' : Engines} (h : e.LinksSafe) (hf : e'.face = e.face) (hl : e'.link = e.link) : e'.LinksSafe := by
  refine h.of_links ⟨by rw [hf], fun d => by unfold Engines.online; rw [hl], fun n => ?_⟩ fun n => ?_
  · unfold Engines.linkOf; rw [hl]
  · unfold Engines.linkOf; rw [hl]

/-- A change of one link's queue and frame. -/
theorem onLink {e : Engines} (h : e.LinksSafe) (n : Fin 8) (g : Link → Link) (hg : ∀ l, (g l).running = l.running)
    (hq : QueueSafe e n (g (e.linkOf n))) : (e.onLink n g).LinksSafe := by
  refine h.of_same ⟨rfl, fun _ => rfl, fun m => ?_⟩ fun m => ?_
  · rw [Engines.linkOf_onLink]; split
    · exact hg _
    · rfl
  · rw [Engines.linkOf_onLink]
    split
    · rename_i hm; subst hm; exact hq
    · exact h.queueSafe m

/-- A change of a link that leaves its queue, its frame's display and its run state alone. -/
theorem onLink_same {e : Engines} (h : e.LinksSafe) (n : Fin 8) (g : Link → Link) (hr : ∀ l, (g l).running = l.running)
    (hq : ∀ l, (g l).queue = l.queue) (hf : ∀ fr, (g (e.linkOf n)).frame = some fr →
      (e.linkOf n).inFlight = some fr.display) : (e.onLink n g).LinksSafe := by
  refine h.onLink n g hr ⟨?_, ?_, ?_, ?_⟩
  · rw [hq]; exact h.once n
  · rw [hq]; exact h.members n
  · intro fr hfr
    have := hf fr hfr
    rw [hq]
    unfold Link.inFlight at this
    cases hl : (e.linkOf n).frame with
    | none => rw [hl] at this; cases this
    | some fr' =>
      rw [hl] at this
      have hd : fr'.display = fr.display := by simpa using this
      rw [← hd]; exact h.flying n fr' hl
  · intro hs
    rw [hq]
    exact (h.stopped n ((hr _).symm.trans hs)).1

theorem storeFace {e : Engines} (h : e.LinksSafe) (d : Nat) (g : Face → Face) (hg : ∀ f, (g f).spot = f.spot) :
    (e.storeFace d g).LinksSafe := h.of_links (Same.storeFace e d g hg) fun _ => rfl

/-! ## Joining and leaving -/

/-- An ONLINE display of a link that is not queued joins the queue. -/
theorem join {e : Engines} (h : e.LinksSafe) {n : Fin 8} {d : Nat} {f : Face} (hon : e.online d = true)
    (hf : e.faceOf d = some f) (hl : f.link = n) (hd : d ∉ (e.linkOf n).queue) : (e.join n d).LinksSafe := by
  refine h.onLink n _ (fun _ => rfl) ⟨?_, ?_, ?_, ?_⟩
  · exact nodup_joined e (h.once n) hd
  · intro x hx
    rcases (mem_joined e _ d x).1 hx with rfl | hx
    · exact ⟨hon, f, hf, hl⟩
    · exact h.members n x hx
  · intro fr hfr
    exact head_joined e d (h.flying n fr hfr) (by unfold Link.inFlight; rw [show (e.linkOf n).frame = some fr from hfr]; rfl)
  · intro hr
    have := (h.stopped n hr).2 d f hf hl
    rw [hon] at this; cases this

/-- A display leaves a queue. -/
theorem leaveQueue {e : Engines} (h : e.LinksSafe) (n : Fin 8) (d : Nat) : (e.leaveQueue n d).LinksSafe := by
  unfold Engines.leaveQueue
  refine storeFace ?_ d _ ?_
  · refine h.onLink n _ (fun _ => rfl) ⟨?_, ?_, ?_, ?_⟩
    · exact (h.once n).erase d
    · exact fun x hx => h.members n x (List.mem_of_mem_erase hx)
    · intro fr hfr
      dsimp only at hfr ⊢
      split at hfr
      · cases hfr
      · rename_i hne
        have hh := h.flying n fr hfr
        have hne' : fr.display ≠ d := by
          rintro rfl
          exact hne (by unfold Link.inFlight; rw [hfr]; rfl)
        cases hq : (e.linkOf n).queue with
        | nil => rw [hq] at hh; cases hh
        | cons y ys =>
          rw [hq] at hh
          cases hh
          rw [List.erase_cons, if_neg (by simpa using hne')]
          rfl
    · intro hr
      show ((e.linkOf n).queue.erase d) = []
      rw [(h.stopped n hr).1]; rfl
  · intro f; rfl

/-- After it has left, a display is not queued. -/
theorem leaveQueue_not_mem {e : Engines} (h : e.LinksSafe) (n : Fin 8) (d : Nat) :
    d ∉ ((e.leaveQueue n d).linkOf n).queue := by
  unfold Engines.leaveQueue
  show d ∉ ((Engines.onLink _ _ _).linkOf n).queue
  rw [Engines.linkOf_onLink, if_pos rfl]
  show d ∉ (e.linkOf n).queue.erase d
  rw [(h.once n).mem_erase_iff]
  exact fun x => x.1 rfl

/-! ## Marks -/

theorem inFlight_map {l : Link} {g : Frame → Frame} (hg : ∀ fr, (g fr).display = fr.display) {fr : Frame}
    (h : l.frame.map g = some fr) : l.inFlight = some fr.display := by
  unfold Link.inFlight
  cases hl : l.frame with
  | none => rw [hl] at h; cases h
  | some x =>
    rw [hl] at h
    simp only [Option.map_some, Option.some.injEq] at h
    subst h
    simp [hg]

theorem changeMark {e : Engines} (h : e.LinksSafe) (d : Nat) (rise : Bool) : (e.changeMark d rise).LinksSafe := by
  unfold Engines.changeMark
  split
  · exact h
  · rename_i f hf
    extract_lets e1 l
    have h1 : e1.LinksSafe := h.storeFace d _ fun _ => rfl
    have hf1 : ∃ g, e1.faceOf d = some g ∧ g.link = f.link :=
      ⟨{ f with waitText := none }, by
        show (e.face.faces.modify d _).get d = _
        rw [Tab.get_modify, if_pos rfl, show e.face.faces.get d = some f from hf]
        rfl, rfl⟩
    split
    · rename_i hon
      split
      · exact h1.onLink_same _ _ (fun _ => rfl) (fun _ => rfl) fun fr hfr =>
          inFlight_map (g := Frame.overtaken) (fun _ => rfl) hfr
      · rename_i hfl
        split
        · rename_i hmem
          have hmem : d ∈ (e1.linkOf f.link).queue := by simpa using hmem
          split
          · refine h1.onLink _ _ (fun _ => rfl) ⟨?_, ?_, ?_, ?_⟩
            · exact nodup_promoted e1 d (h1.once _)
            · exact fun x hx => h1.members _ x (mem_promoted e1 _ hmem hx)
            · intro fr hfr
              have hin : (e1.linkOf f.link).inFlight = some fr.display := by
                unfold Link.inFlight; rw [show (e1.linkOf f.link).frame = some fr from hfr]; rfl
              refine head_promoted e1 (h1.flying _ fr hfr) hin ?_
              rintro hd
              rw [hd] at hin
              exact hfl hin
            · intro hr
              have := (h1.stopped _ hr).1
              rw [this] at hmem; cases hmem
          · exact h1
        · rename_i hmem
          obtain ⟨g, hg, hl⟩ := hf1
          exact h1.join hon hg hl (by simpa using hmem)
    · exact h1

theorem refreshMark {e : Engines} (h : e.LinksSafe) (d : Nat) : (e.refreshMark d).LinksSafe := by
  unfold Engines.refreshMark
  split
  · exact h
  · rename_i f hf
    split
    · rename_i hon
      dsimp only
      split
      · exact h.onLink_same _ _ (fun _ => rfl) (fun _ => rfl) fun fr hfr =>
          inFlight_map (g := fun fr => { fr with refresh := true }) (fun _ => rfl) hfr
      · split
        · exact h
        · rename_i hmem
          exact h.join hon hf rfl (by simpa using hmem)
    · exact h

theorem updFaceFrom {e : Engines} (h : e.LinksSafe) (v : Vector OverrideSlot 4) (d : Nat) (g : Face → Face)
    (hg : ∀ f, (g f).spot = f.spot) : (e.updFaceFrom v d g).LinksSafe := by
  unfold Engines.updFaceFrom
  split
  · exact h
  · dsimp only
    split
    · exact h.storeFace d g hg
    · exact (h.storeFace d g hg).changeMark d _

theorem updFace {e : Engines} (h : e.LinksSafe) (d : Nat) (g : Face → Face) (hg : ∀ f, (g f).spot = f.spot) :
    (e.updFace d g).LinksSafe := h.updFaceFrom _ d g hg

theorem onSlot {e : Engines} (h : e.LinksSafe) (k : Fin 4) (g : OverrideSlot → OverrideSlot) : (e.onSlot k g).LinksSafe :=
  h.of_links ⟨rfl, fun _ => rfl, fun _ => rfl⟩ fun _ => rfl

theorem updSlot {e : Engines} (h : e.LinksSafe) (k : Fin 4) (g : OverrideSlot → OverrideSlot) :
    (e.updSlot k g).LinksSafe := by
  unfold Engines.updSlot
  dsimp only
  refine foldl_inv Engines.LinksSafe _ (fun b x hb => ?_) _ _ (h.onSlot k g)
  split
  · exact hb
  · exact hb.changeMark _ _

theorem textFilled {e : Engines} (h : e.LinksSafe) (t : Tag) : (e.textFilled t).LinksSafe := by
  refine h.of_links ⟨?_, fun _ => rfl, fun _ => rfl⟩ fun _ => rfl
  show (List.map _ (List.map _ _)) = _
  rw [List.map_map]
  apply List.map_congr_left
  intro x _
  simp only [Function.comp_def]
  split <;> rfl

/-! ## Prompts, notices and covers -/

theorem handPrompts {e : Engines} (h : e.LinksSafe) (d : Nat) : (e.handPrompts d).LinksSafe := h.updFace d _ fun _ => rfl

theorem claimHold {e : Engines} (h : e.LinksSafe) (A : Ambient) (d : Nat) : (e.claimHold A d).LinksSafe :=
  h.congr (by simp) (by simp)

theorem placePrompt {e : Engines} (h : e.LinksSafe) (A : Ambient) (d : Nat) (p : Prompt) (rest : List Prompt) :
    (e.placePrompt A d p rest).LinksSafe := by
  unfold Engines.placePrompt
  have h1 : (e.storePrompts d (p :: rest)).LinksSafe := h.congr rfl rfl
  apply handPrompts
  split
  · exact h1
  · exact h1.claimHold A d

theorem release {e : Engines} (h : e.LinksSafe) (id : Option Nat) : (e.release id).LinksSafe := h.congr rfl rfl

theorem report {e : Engines} (h : e.LinksSafe) (A : Ambient) (ev : Event) : (e.report A ev).LinksSafe := h.congr rfl rfl

theorem pushPrompt {e : Engines} (h : e.LinksSafe) (A : Ambient) (d : Nat) (p : Prompt) :
    (e.pushPrompt A d p).LinksSafe := by
  unfold Engines.pushPrompt
  dsimp only
  split
  · exact h.placePrompt A d p _
  · exact (h.release _).placePrompt A d p _

theorem replacePrompt {e : Engines} (h : e.LinksSafe) (A : Ambient) (d t : Nat) (p : Prompt) :
    (e.replacePrompt A d t p).LinksSafe := by
  unfold Engines.replacePrompt
  dsimp only
  split
  · exact h.placePrompt A d p _
  · exact h.pushPrompt A d p

theorem removePrompts {e : Engines} (h : e.LinksSafe) (d : Nat) : (e.removePrompts d).LinksSafe := by
  unfold Engines.removePrompts
  dsimp only
  exact handPrompts (congr (e' := Engines.storePrompts _ d []) (foldl_inv Engines.LinksSafe
    (fun b (a : Prompt) => b.release a.hold) (fun b a hb => hb.release a.hold) (e.promptsOf d) e h) rfl rfl) d

theorem endEntry {e : Engines} (h : e.LinksSafe) (x : Entry) : (e.endEntry x).LinksSafe := h.congr rfl rfl

theorem cancelTerminal {e : Engines} (h : e.LinksSafe) (A : Ambient) (d : Nat) (why : Reason) :
    (e.cancelTerminal A d why).LinksSafe := by
  unfold Engines.cancelTerminal
  dsimp only
  refine removePrompts ?_ d
  exact foldl_inv Engines.LinksSafe _ (fun b a hb => (hb.endEntry a).report A _) _ _ h

theorem handNotice {e : Engines} (h : e.LinksSafe) (d : Nat) : (e.handNotice d).LinksSafe := h.updFace d _ fun _ => rfl

theorem handNotices {e : Engines} (h : e.LinksSafe) (ds : List Nat) : (e.handNotices ds).LinksSafe :=
  foldl_inv Engines.LinksSafe _ (fun _ d hb => hb.handNotice d) _ _ h

theorem targetEvent {e : Engines} (h : e.LinksSafe) (A : Ambient) (c : Fin 16) : (e.targetEvent A c).LinksSafe :=
  h.congr (by simp) (by simp)

theorem setPlay {e : Engines} (h : e.LinksSafe) (v : Vector Context 16) : (e.setPlay v).LinksSafe := h.congr rfl rfl

theorem onCtx {e : Engines} (h : e.LinksSafe) (c : Fin 16) (g : Context → Context) : (e.onCtx c g).LinksSafe :=
  h.congr rfl rfl

theorem targetNotice {e : Engines} (h : e.LinksSafe) (A : Ambient) (d : Nat) : (e.targetNotice A d).LinksSafe := by
  unfold Engines.targetNotice
  dsimp only
  apply handNotice
  apply foldl_inv Engines.LinksSafe
  · intro b c hb
    split
    · exact hb
    · exact hb.targetEvent A c
  · exact h.setPlay _

theorem coverNotice {e : Engines} (h : e.LinksSafe) (A : Ambient) (ds : List Nat) : (e.coverNotice A ds).LinksSafe := by
  unfold Engines.coverNotice
  dsimp only
  apply handNotices
  apply foldl_inv Engines.LinksSafe
  · intro b c hb
    split
    · exact hb.targetEvent A c
    · exact hb
  · exact h

theorem onset {e : Engines} (h : e.LinksSafe) (A : Ambient) (d : Nat) (k : Fin 4) (cls : DisplayClass) :
    (e.onset A d k cls).LinksSafe := by
  unfold Engines.onset
  have h1 := h.updFace d (fun f => { f with cover := some k, strokes := 0 }) fun _ => rfl
  dsimp only
  split
  · exact h1.cancelTerminal A d _
  · exact h1

theorem moveCover {e : Engines} (h : e.LinksSafe) (A : Ambient) (v : Vector OverrideSlot 4) (d : Nat)
    (old new : Option (Fin 4)) (cls : DisplayClass) : (e.moveCover A v d old new cls).LinksSafe := by
  unfold Engines.moveCover
  split
  · exact h
  · exact h.onset A d _ cls
  · exact h.updFace d _ fun _ => rfl
  · split
    · exact h
    · exact h.updFaceFrom v d _ fun _ => rfl

theorem coverEventFrom {e : Engines} (h : e.LinksSafe) (A : Ambient) (v : Vector OverrideSlot 4) (ds : List Nat) :
    (e.coverEventFrom A v ds).LinksSafe := by
  unfold Engines.coverEventFrom
  dsimp only
  have h1 := foldl_inv Engines.LinksSafe (fun e (m : CoverMove) => e.moveCover A v m.display m.old m.new m.cls)
    (fun b m hb => hb.moveCover A v m.display m.old m.new m.cls) (coverMoves e ds) e h
  split
  · exact h1
  · exact h1.coverNotice A _

theorem coverEvent {e : Engines} (h : e.LinksSafe) (A : Ambient) (ds : List Nat) : (e.coverEvent A ds).LinksSafe :=
  h.coverEventFrom A _ ds

theorem claimOverride {e : Engines} (h : e.LinksSafe) (A : Ambient) (k : Fin 4) : (e.claimOverride A k).LinksSafe := by
  unfold Engines.claimOverride
  split
  · rename_i tm id _
    have h1 : (e.setTimers tm).LinksSafe := h.congr rfl rfl
    exact h1.onSlot k _
  · exact h.report A _

theorem settlePlace {e : Engines} (h : e.LinksSafe) (A : Ambient) (k : Fin 4) : (e.settlePlace A k).LinksSafe := by
  unfold Engines.settlePlace
  dsimp only
  split
  · split
    · exact h
    · exact h.claimOverride A k
  · exact (h.release _).onSlot k _

theorem acceptSlot {e : Engines} (h : e.LinksSafe) (A : Ambient) (k : Fin 4) (r : Rec4) :
    (e.acceptSlot A k r).LinksSafe := by
  unfold Engines.acceptSlot
  extract_lets before e1 e2 kept e3
  have h1 : e1.LinksSafe := h.onSlot k _
  have h3 : e3.LinksSafe := by
    apply foldl_inv Engines.LinksSafe
    · intro b a hb
      split
      · exact hb.changeMark _ _
      · exact hb
    · exact h1.coverEventFrom A _ _
  exact h3.settlePlace A k

theorem handTargets {e : Engines} (h : e.LinksSafe) (c : Fin 16) : (e.handTargets c).LinksSafe := h.handNotices _

theorem ctxReady {e : Engines} (h : e.LinksSafe) (A : Ambient) (l c : Fin 16) : (e.ctxReady A l c).LinksSafe := by
  unfold Engines.ctxReady
  dsimp only
  split
  · exact (h.onCtx c _).handTargets c
  · exact h

theorem languageReady {e : Engines} (h : e.LinksSafe) (A : Ambient) (l : Fin 16) : (e.languageReady A l).LinksSafe := by
  unfold Engines.languageReady
  dsimp only
  apply foldl_inv Engines.LinksSafe _ fun b c hb => hb.ctxReady A l c
  apply foldl_inv Engines.LinksSafe _ fun b k hb => ?_
  · exact foldl_inv Engines.LinksSafe _ (fun b d hb => hb.refreshMark d) _ _ h
  · split
    · exact hb.updSlot k _
    · exact hb

theorem rotateSlot {e : Engines} (h : e.LinksSafe) (A : Ambient) (k : Fin 4) : (e.rotateSlot A k).LinksSafe :=
  h.updSlot k _

/-! ## Indication -/

theorem rederive {e : Engines} (h : e.LinksSafe) (A : Ambient) : (e.rederive A).LinksSafe := by
  unfold Engines.rederive
  dsimp only
  apply foldl_inv Engines.LinksSafe
  · intro b d hb
    exact hb.targetNotice A d
  · apply coverEvent
    apply foldl_inv Engines.LinksSafe
    · intro b d hb
      exact hb.updFace d _ fun _ => rfl
    · exact h

theorem rehandPrompts {e : Engines} (h : e.LinksSafe) : e.rehandPrompts.LinksSafe :=
  foldl_inv Engines.LinksSafe _ (fun _ d hb => hb.handPrompts d) _ _ h

theorem signalTests {e : Engines} (h : e.LinksSafe) (A : Ambient) (c : Fin 48) (r : Rec4) :
    (e.signalTests A c r).LinksSafe := h.congr (by simp) (by simp)

theorem acceptCar {e : Engines} (h : e.LinksSafe) (A : Ambient) (c : Fin 48) (r : Rec4) :
    (e.acceptCar A c r).LinksSafe := by
  unfold Engines.acceptCar
  dsimp only
  apply rederive
  apply signalTests
  split
  · exact h.congr (by simp) (by simp)
  · exact h.congr rfl rfl

theorem endLantern {e : Engines} (h : e.LinksSafe) (c : Fin 48) : (e.endLantern c).LinksSafe :=
  h.congr (by simp) (by simp)

theorem acceptGroup {e : Engines} (h : e.LinksSafe) (A : Ambient) (g : Fin 8) (r : Rec8) :
    (e.acceptGroup A g r).LinksSafe := by
  unfold Engines.acceptGroup
  dsimp only
  apply rederive
  have h1 : (e.setGroup g r).LinksSafe := h.congr rfl rfl
  apply foldl_inv Engines.LinksSafe
  · intro b c hb
    exact hb.congr rfl rfl
  · split
    · exact foldl_inv Engines.LinksSafe _ (fun b c hb => hb.endLantern c) _ _ h1
    · exact h1

theorem acceptLabel {e : Engines} (h : e.LinksSafe) (A : Ambient) (f : Nat) (r : Rec4) :
    (e.acceptLabel A f r).LinksSafe := by
  have h1 : (e.setLabels (e.ind.labels.put f r)).LinksSafe := h.congr rfl rfl
  exact (h1.rederive A).rehandPrompts

theorem clearCars {e : Engines} (h : e.LinksSafe) (A : Ambient) : (e.clearCars A).LinksSafe := by
  have h1 := foldl_inv Engines.LinksSafe Engines.endLantern (fun b c hb => hb.endLantern c) (List.finRange 48) e h
  unfold Engines.clearCars
  generalize (List.finRange 48).foldl Engines.endLantern e = b at h1
  have h2 : (b.setCars (Vector.replicate 48 Car.reset)).LinksSafe := h1.congr rfl rfl
  exact h2.rederive A

theorem clearLabels {e : Engines} (h : e.LinksSafe) (A : Ambient) : (e.clearLabels A).LinksSafe := by
  have h1 : (e.setLabels []).LinksSafe := h.congr rfl rfl
  exact (h1.rederive A).rehandPrompts

theorem flash {e : Engines} (h : e.LinksSafe) (A : Ambient) (c : Fin 48) (p : TimerPlace) :
    (e.flash A c p).LinksSafe := by
  unfold Engines.flash
  split
  · exact rederive (congr (e' := e.onSignal c _) h rfl rfl) A
  · exact h

theorem stroke {e : Engines} (h : e.LinksSafe) (c : Fin 48) (p : TimerPlace) : (e.stroke c p).LinksSafe := by
  unfold Engines.stroke
  dsimp only
  split
  · refine congr (foldl_inv Engines.LinksSafe (fun b d => b.updFace d _)
      (fun b d hb => hb.updFace d (fun f => { f with strokes := min (f.strokes + 1) 3 }) fun _ => rfl) _ e h) rfl rfl
  · exact h

/-! ## Entries and contexts -/

theorem giveStop {e : Engines} (h : e.LinksSafe) (A : Ambient) (c : Fin 48) (f t : Nat) : (e.giveStop A c f t).LinksSafe := by
  unfold Engines.giveStop
  dsimp only
  split
  · exact rederive (congr (e' := e.setStops c _) h rfl rfl) A
  · exact h.report A _

theorem judgeAssign {e : Engines} (h : e.LinksSafe) (A : Ambient) (r : Rec4) : (e.judgeAssign A r).LinksSafe := by
  unfold Engines.judgeAssign
  dsimp only
  split
  · exact h.report A _
  · split
    · exact h.report A _
    · split
      · exact (h.endEntry _).replacePrompt A _ _ _
      · split
        · exact h.report A _
        · exact ((h.endEntry _).replacePrompt A _ _ _).giveStop A _ _ _

theorem checkEntry {e : Engines} (h : e.LinksSafe) (A : Ambient) (d : Nat) (f : Face) (k : Keyed) :
    (e.checkEntry A d f k).LinksSafe := by
  unfold Engines.checkEntry
  split
  · exact h.report A _
  · split
    · exact h.pushPrompt A d _
    · split
      · exact (h.pushPrompt A d _).report A _
      · dsimp only
        split
        · refine report (pushPrompt ?_ A d _) A _
          exact h.congr rfl rfl
        · exact (h.pushPrompt A d _).report A _

theorem takeEntry {e : Engines} (h : e.LinksSafe) (A : Ambient) (d : Nat) (k : Keyed) : (e.takeEntry A d k).LinksSafe := by
  unfold Engines.takeEntry
  split
  · exact h
  · dsimp only
    apply refreshMark
    split
    · exact h.checkEntry A d _ k
    · exact h.report A _

theorem expireEntry {e : Engines} (h : e.LinksSafe) (A : Ambient) (p : TimerPlace) : (e.expireEntry A p).LinksSafe := by
  unfold Engines.expireEntry
  split
  · exact h
  · exact ((h.endEntry _).replacePrompt A _ _ _).report A _

theorem expirePrompt {e : Engines} (h : e.LinksSafe) (d : Nat) (p : TimerPlace) : (e.expirePrompt d p).LinksSafe :=
  handPrompts (congr (e' := e.storePrompts d _) h rfl rfl) d

theorem startCtx {e : Engines} (h : e.LinksSafe) (A : Ambient) (c : Fin 16) (r : Rec4) : (e.startCtx A c r).LinksSafe := by
  unfold Engines.startCtx
  dsimp only
  apply handNotices
  split
  · exact h.congr (by simp) (by simp)
  · exact h.congr (by simp) (by simp)

theorem stopCtx {e : Engines} (h : e.LinksSafe) (c : Fin 16) (r : Rec4) : (e.stopCtx c r).LinksSafe :=
  handNotices (h.congr (by simp) (by simp)) _

theorem acceptPlayout {e : Engines} (h : e.LinksSafe) (A : Ambient) (c : Fin 16) (r : Rec4) :
    (e.acceptPlayout A c r).LinksSafe := by
  unfold Engines.acceptPlayout
  split
  · exact h.startCtx A c r
  · exact h.stopCtx c r

theorem expireDwell {e : Engines} (h : e.LinksSafe) (A : Ambient) (c : Fin 16) (p : TimerPlace) :
    (e.expireDwell A c p).LinksSafe := by
  unfold Engines.expireDwell
  dsimp only
  split
  · split
    · unfold Engines.completeCtx
      refine report (handNotices ?_ _) A _
      exact h.congr (by simp) (by simp)
    · exact (h.onCtx c _).handTargets c
  · exact h

theorem clearPlayout {e : Engines} (h : e.LinksSafe) : e.clearPlayout.LinksSafe := by
  unfold Engines.clearPlayout
  exact handNotices (foldl_inv Engines.LinksSafe _ (fun b c hb => hb.congr (by simp) (by simp)) _ _ h) _

/-! ## The table of faces -/

/-- Displays that change no liveness. -/
theorem Same.displays (e : Engines) (t : Tab Display) (ht : ∀ d, (t.get d).map Display.liveness =
    (e.link.displays.get d).map Display.liveness) : Same e (e.setDisplays t) := by
  refine ⟨rfl, fun d => ?_, fun _ => rfl⟩
  have hd := ht d
  have ht : (e.setDisplays t).link.displays = t := rfl
  unfold Engines.online
  rw [ht]
  cases h1 : t.get d <;> cases h2 : e.link.displays.get d <;> rw [h1, h2] at hd <;> simp at hd
  simp [hd]

theorem Same.onDisplay (e : Engines) (d : Nat) (g : Display → Display) (hg : ∀ x, (g x).liveness = x.liveness) :
    Same e (e.onDisplay d g) := by
  refine Same.displays e _ fun c => ?_
  rw [Tab.get_modify]
  split
  · rw [Option.map_map]
    congr 1
    funext x
    exact hg x
  · rfl

/-- A change of one display that is in no queue, or stays ONLINE, or comes ONLINE on a RUNNING link. -/
theorem of_display {e e' : Engines} (h : e.LinksSafe) (d : Nat) (hf : e'.face = e.face)
    (hl : ∀ n, e'.linkOf n = e.linkOf n) (ho : ∀ c, c ≠ d → e'.online c = e.online c)
    (hup : e'.online d = true → e.online d = true ∨ ∀ f, e.faceOf d = some f → (e.linkOf f.link).running = true)
    (hdown : e'.online d = false → ∀ n, d ∉ (e.linkOf n).queue) : e'.LinksSafe := by
  have hfo : ∀ c, e'.faceOf c = e.faceOf c := fun c => by unfold Engines.faceOf; rw [hf]
  constructor
  · rw [hf]; exact h.faces
  · rw [hf]; exact h.terminals
  · intro c f hc; rw [hfo] at hc; exact h.drops c f hc
  · intro c c' f g hc hc' h1 h2; rw [hfo] at hc hc'; exact h.apart c c' f g hc hc' h1 h2
  · intro n; rw [hl]; exact h.once n
  · intro n c hc
    rw [hl] at hc
    obtain ⟨h1, f, hcf, hn⟩ := h.members n c hc
    refine ⟨?_, f, by rw [hfo]; exact hcf, hn⟩
    by_cases hcd : c = d
    · subst hcd
      cases hx : e'.online c with
      | true => rfl
      | false => exact absurd hc (hdown hx n)
    · rw [ho c hcd]; exact h1
  · intro n fr hfr; rw [hl] at hfr ⊢; exact h.flying n fr hfr
  · intro n hr
    rw [hl] at hr ⊢
    refine ⟨(h.stopped n hr).1, fun c f hc hn => ?_⟩
    rw [hfo] at hc
    have hoff := (h.stopped n hr).2 c f hc hn
    by_cases hcd : c = d
    · subst hcd
      cases hx : e'.online c with
      | false => rfl
      | true =>
        rcases hup hx with h1 | h1
        · rw [h1] at hoff; cases hoff
        · have := h1 f hc; rw [hn, hr] at this; cases this
    · rw [ho c hcd]; exact hoff

/-- A change of the face of one display. -/
theorem of_face {e e' : Engines} (h : e.LinksSafe) (d : Nat) (hl : e'.link = e.link)
    (wf : Tab.wf e'.face.faces = true)
    (ht : (e'.face.faces.filter fun x => x.2.cls == .terminal).length ≤ Config.terminalPlaces)
    (ho : ∀ c, c ≠ d → e'.faceOf c = e.faceOf c)
    (hnew : ∀ f, e'.faceOf d = some f → (1 ≤ f.drop ∧ f.drop ≤ 63) ∧
      (∀ c g, c ≠ d → e.faceOf c = some g → g.link = f.link → g.drop ≠ f.drop) ∧
      (e.online d = false ∨ ∃ g, e.faceOf d = some g ∧ g.link = f.link))
    (hgone : e'.faceOf d = none → ∀ n, d ∉ (e.linkOf n).queue) : e'.LinksSafe := by
  have hln : ∀ n, e'.linkOf n = e.linkOf n := fun n => by unfold Engines.linkOf; rw [hl]
  have hon : ∀ c, e'.online c = e.online c := fun c => by unfold Engines.online; rw [hl]
  refine ⟨wf, ht, ?_, ?_, ?_, ?_, ?_, ?_⟩
  · intro c f hc
    by_cases hcd : c = d
    · subst hcd; exact (hnew f hc).1
    · rw [ho c hcd] at hc; exact h.drops c f hc
  · intro c c' f g hc hc' h1 h2
    by_cases hcd : c = d
    · subst hcd
      by_cases hcd' : c' = c
      · exact hcd'.symm
      · rw [ho c' hcd'] at hc'
        exact absurd h2.symm ((hnew f hc).2.1 c' g hcd' hc' h1.symm)
    · by_cases hcd' : c' = d
      · subst hcd'
        rw [ho c hcd] at hc
        exact absurd h2 ((hnew g hc').2.1 c f hcd hc h1)
      · rw [ho c hcd] at hc
        rw [ho c' hcd'] at hc'
        exact h.apart c c' f g hc hc' h1 h2
  · intro n; rw [hln]; exact h.once n
  · intro n c hc
    rw [hln] at hc
    obtain ⟨h1, f, hcf, hn⟩ := h.members n c hc
    refine ⟨by rw [hon]; exact h1, ?_⟩
    by_cases hcd : c = d
    · subst hcd
      cases hx : e'.faceOf c with
      | none => exact absurd hc (hgone hx n)
      | some f' =>
        rcases (hnew f' hx).2.2 with h2 | ⟨g, hg, h2⟩
        · rw [h1] at h2; cases h2
        · rw [hcf] at hg; cases hg; exact ⟨f', rfl, h2.symm.trans hn⟩
    · exact ⟨f, by rw [ho c hcd]; exact hcf, hn⟩
  · intro n fr hfr; rw [hln] at hfr ⊢; exact h.flying n fr hfr
  · intro n hr
    rw [hln] at hr ⊢
    refine ⟨(h.stopped n hr).1, fun c f hc hn => ?_⟩
    rw [hon]
    by_cases hcd : c = d
    · subst hcd
      rcases (hnew f hc).2.2 with h2 | ⟨g, hg, h2⟩
      · exact h2
      · exact (h.stopped n hr).2 c g hg (h2.trans hn)
    · rw [ho c hcd] at hc; exact (h.stopped n hr).2 c f hc hn

/-- A class, a link and a drop are free for a display (the checks of R125). -/
structure Fits (e : Engines) (d : Nat) (cls : DisplayClass) (n : Fin 8) (drop : Nat) : Prop where
  range : 1 ≤ drop ∧ drop ≤ 63
  apart : ∀ c g, c ≠ d → e.faceOf c = some g → g.link = n → g.drop ≠ drop
  room : cls = .terminal → otherTerminals e.face.faces d < Config.terminalPlaces

theorem otherTerminals_spots {t u : Tab Face} (d : Nat)
    (h : t.map (fun x => (x.1, x.2.spot)) = u.map fun x => (x.1, x.2.spot)) :
    otherTerminals t d = otherTerminals u d := by
  have := congrArg (fun l => (l.filter fun x : Nat × DisplayClass × Fin 8 × Nat =>
    x.1 != d && x.2.1 == .terminal).length) h
  simpa only [List.filter_map, List.length_map, Function.comp_def, Face.spot, otherTerminals] using this

theorem Fits.of_same {e e' : Engines} {d : Nat} {cls : DisplayClass} {n : Fin 8} {drop : Nat}
    (k : Fits e d cls n drop) (hs : Same e e') : Fits e' d cls n drop := by
  refine ⟨k.range, ?_, ?_⟩
  · intro c g hcd hg hl hd
    obtain ⟨g', hg', hsp⟩ := hs.spot hg
    simp only [Face.spot, Prod.mk.injEq] at hsp
    exact k.apart c g' hcd hg' (hsp.2.1.trans hl) (hsp.2.2.trans hd)
  · intro hc
    rw [otherTerminals_spots d hs.spots]
    exact k.room hc

/-- A roster record that makes a display PRESENT and passes its checks fits. -/
theorem Fits.of_check {e : Engines} (h : e.LinksSafe) {d : Nat} {r : Rec4} {cls : DisplayClass}
    (hc : checkRoster e d r = none) (hp : r.rosPresent = true) (hcls : r.rosClass = some cls) :
    Fits e d cls r.rosLink r.rosDrop := by
  unfold checkRoster at hc
  rw [hcls] at hc
  simp only [hp] at hc
  split at hc
  · cases hc
  split at hc
  · rename_i hx; exact absurd trivial hx
  split at hc
  · cases hc
  rename_i hr
  split at hc
  · cases hc
  rename_i hd
  split at hc
  · cases hc
  rename_i ht
  refine ⟨by omega, ?_, ?_⟩
  · intro c g hcd hg hl hdr
    refine hd ?_
    unfold dropTaken
    rw [List.any_eq_true]
    exact ⟨(c, g), Tab.mem_of_get hg, by simp [hcd, hl, hdr]⟩
  · intro hcl
    rw [Classical.not_and_iff_not_or_not, Classical.not_and_iff_not_or_not] at ht
    rcases ht with ht | ht | ht
    · exact absurd hcl ht
    · have hcount := Tab.count_at h.faces (fun f : Face => f.cls == .terminal) d
      have hmax := h.terminals
      simp only [Classical.not_not] at ht
      unfold Engines.isTerminal Engines.faceOf at ht
      cases hg : e.face.faces.get d with
      | none => rw [hg] at ht; cases ht
      | some f =>
        rw [hg] at ht hcount
        have : (Option.any (fun f : Face => f.cls == .terminal) (some f)) = true := ht
        rw [this, if_pos rfl] at hcount
        unfold otherTerminals
        omega
    · omega

/-- A face table with a display's face stored, in a place that fits. -/
theorem terminals_le {e : Engines} {t : Tab Face} {d : Nat} (wf : Tab.wf t = true)
    (ho : t.filter (fun x => x.1 != d && x.2.cls == .terminal) =
      e.face.faces.filter fun x => x.1 != d && x.2.cls == .terminal)
    (hr : ∀ f, t.get d = some f → f.cls = .terminal → otherTerminals e.face.faces d < Config.terminalPlaces)
    (hm : otherTerminals e.face.faces d ≤ Config.terminalPlaces) :
    (t.filter fun x => x.2.cls == .terminal).length ≤ Config.terminalPlaces := by
  rw [Tab.count_at wf (fun f : Face => f.cls == .terminal) d, ho]
  unfold otherTerminals at hr hm
  split
  · rename_i hx
    cases hg : t.get d with
    | none => rw [hg] at hx; cases hx
    | some f =>
      rw [hg] at hx
      have := hr f hg (by simpa using hx)
      omega
  · omega

theorem others_le {e : Engines} (h : e.LinksSafe) (d : Nat) : otherTerminals e.face.faces d ≤ Config.terminalPlaces := by
  have hcount := Tab.count_at h.faces (fun f : Face => f.cls == .terminal) d
  have hmax := h.terminals
  unfold otherTerminals
  omega

/-- A stored face in a place that fits. -/
theorem respot {e : Engines} (h : e.LinksSafe) {d : Nat} {f : Face} (hf : e.faceOf d = some f) (g : Face → Face)
    (k : Fits e d (g f).cls (g f).link (g f).drop) (hl : e.online d = false ∨ f.link = (g f).link) :
    (e.storeFace d g).LinksSafe := by
  have hget : ∀ c, (e.storeFace d g).faceOf c = if c = d then (e.faceOf c).map g else e.faceOf c :=
    fun c => Tab.get_modify _ _ _ _
  have hnew : (e.storeFace d g).faceOf d = some (g f) := by rw [hget, if_pos rfl, hf]; rfl
  refine h.of_face d rfl (Tab.wf_modify h.faces d g) ?_ (fun c hc => by rw [hget, if_neg hc]) ?_ ?_
  · refine terminals_le (e := e) (d := d) (Tab.wf_modify h.faces d g) (Tab.others_modify _ _ _ _) ?_ (h.others_le d)
    intro f' hf' hc
    have : f' = g f := by
      have : (e.storeFace d g).faceOf d = some f' := hf'
      rw [hnew] at this; cases this; rfl
    subst this
    exact k.room hc
  · intro f' hf'
    rw [hnew] at hf'
    cases hf'
    refine ⟨k.range, k.apart, ?_⟩
    rcases hl with hl | hl
    · exact Or.inl hl
    · exact Or.inr ⟨f, hf, hl⟩
  · intro hn; rw [hnew] at hn; cases hn

/-- A face put into the table for a display that is not ONLINE. -/
theorem putFace {e : Engines} (h : e.LinksSafe) {d : Nat} {f : Face} (k : Fits e d f.cls f.link f.drop)
    (hon : e.online d = false) : (e.setFaces (e.face.faces.put d f)).LinksSafe := by
  have hget : ∀ c, (e.setFaces (e.face.faces.put d f)).faceOf c = if c = d then some f else e.faceOf c :=
    fun c => Tab.get_put _ _ _ _
  have hnew : (e.setFaces (e.face.faces.put d f)).faceOf d = some f := by rw [hget, if_pos rfl]
  refine h.of_face d rfl (Tab.wf_put h.faces d f) ?_ (fun c hc => by rw [hget, if_neg hc]) ?_ ?_
  · refine terminals_le (e := e) (d := d) (Tab.wf_put h.faces d f) (Tab.others_put _ _ _ _) ?_ (h.others_le d)
    intro f' hf' hc
    have : (e.setFaces (e.face.faces.put d f)).faceOf d = some f' := hf'
    rw [hnew] at this; cases this
    exact k.room hc
  · intro f' hf'
    rw [hnew] at hf'
    cases hf'
    exact ⟨k.range, k.apart, Or.inl hon⟩
  · intro hn; rw [hnew] at hn; cases hn

/-- A face taken out of the table for a display that is in no queue. -/
theorem eraseFace {e : Engines} (h : e.LinksSafe) {d : Nat} (hq : ∀ n, d ∉ (e.linkOf n).queue) :
    (e.setFaces (e.face.faces.erase d)).LinksSafe := by
  have hget : ∀ c, (e.setFaces (e.face.faces.erase d)).faceOf c = if c = d then none else e.faceOf c :=
    fun c => Tab.get_erase _ _ _
  refine h.of_face d rfl (Tab.wf_erase h.faces d) ?_ (fun c hc => by rw [hget, if_neg hc]) ?_ (fun _ => hq)
  · refine Nat.le_trans ?_ h.terminals
    exact (List.filter_sublist.filter _).length_le
  · intro f hf; rw [hget, if_pos rfl] at hf; cases hf

/-- A display that is not ONLINE is in no queue. -/
theorem not_mem {e : Engines} (h : e.LinksSafe) {d : Nat} (hd : e.online d = false) (n : Fin 8) :
    d ∉ (e.linkOf n).queue := by
  intro hm
  have := (h.members n d hm).1
  rw [hd] at this; cases this

/-- A display is queued on its own link alone. -/
theorem not_mem_other {e : Engines} (h : e.LinksSafe) {d : Nat} {f : Face} (hf : e.faceOf d = some f) {n : Fin 8}
    (hn : n ≠ f.link) : d ∉ (e.linkOf n).queue := by
  intro hm
  obtain ⟨_, g, hg, hl⟩ := h.members n d hm
  rw [hf] at hg; cases hg
  exact hn hl.symm

theorem Same.changeMark (e : Engines) (d : Nat) (rise : Bool) : Same e (e.changeMark d rise) :=
  Same.of_keeps (Keeps.changeMark e d rise)

theorem Same.leaveQueue (e : Engines) (n : Fin 8) (d : Nat) : Same e (e.leaveQueue n d) :=
  Same.of_keeps (Keeps.leaveQueue e n d)

theorem Same.cancelPoll (e : Engines) (n : Fin 8) (drop : Nat) : Same e (e.cancelPoll n drop) := by
  refine ⟨rfl, fun _ => rfl, fun m => ?_⟩
  unfold Engines.cancelPoll
  rw [Engines.linkOf_onLink]
  split <;> rfl

theorem Same.cancelIfTerminal (A : Ambient) (e : Engines) (d : Nat) (cls : DisplayClass) :
    Same e (e.cancelIfTerminal A d cls) := by
  unfold Engines.cancelIfTerminal
  split
  · exact Same.of_keeps (Keeps.cancelTerminal A e d _)
  · exact Same.refl e

theorem cancelPoll {e : Engines} (h : e.LinksSafe) (n : Fin 8) (drop : Nat) : (e.cancelPoll n drop).LinksSafe := by
  refine h.onLink_same n _ (fun _ => rfl) (fun _ => rfl) fun fr hfr => ?_
  unfold Link.inFlight
  rw [show (e.linkOf n).frame = some fr from hfr]
  rfl

theorem cancelIfTerminal {e : Engines} (h : e.LinksSafe) (A : Ambient) (d : Nat) (cls : DisplayClass) :
    (e.cancelIfTerminal A d cls).LinksSafe := by
  unfold Engines.cancelIfTerminal
  split
  · exact h.cancelTerminal A d _
  · exact h

theorem openQueue {e : Engines} (h : e.LinksSafe) (d : Nat) (cls : DisplayClass) : (e.openQueue d cls).LinksSafe := by
  unfold Engines.openQueue
  split
  · exact h.congr rfl rfl
  · exact h

theorem closeQueue {e : Engines} (h : e.LinksSafe) (d : Nat) : (e.closeQueue d).LinksSafe := h.congr rfl rfl

/-! ## The roster -/

theorem Fits.congr {e e' : Engines} {d : Nat} {cls : DisplayClass} {n : Fin 8} {drop : Nat}
    (k : Fits e d cls n drop) (hf : e'.face = e.face) : Fits e' d cls n drop :=
  ⟨k.range, fun c g hcd hg => k.apart c g hcd (by unfold Engines.faceOf at hg ⊢; rw [hf] at hg; exact hg),
    fun hc => by rw [hf]; exact k.room hc⟩

theorem online_onDisplay (e : Engines) (d c : Nat) (g : Display → Display) :
    (e.onDisplay d g).online c = if c = d then (e.link.displays.get d).any (fun x => (g x).liveness == .online)
      else e.online c := by
  have ht : (e.onDisplay d g).link.displays.get c = if c = d then (e.link.displays.get c).map g
      else e.link.displays.get c := Tab.get_modify _ _ _ _
  unfold Engines.online
  rw [ht]
  by_cases h : c = d
  · subst h
    rw [if_pos rfl, if_pos rfl]
    cases e.link.displays.get c <;> rfl
  · rw [if_neg h, if_neg h]

theorem online_setDisplays (e : Engines) (t : Tab Display) (c : Nat) :
    (e.setDisplays t).online c = (t.get c).any (fun x => x.liveness == .online) := by
  have ht : (e.setDisplays t).link.displays = t := rfl
  unfold Engines.online
  rw [ht]
  cases t.get c <;> rfl

/-- A display with no face is in no queue. -/
theorem not_mem_gone {e : Engines} (h : e.LinksSafe) {d : Nat} (hd : e.faceOf d = none) (n : Fin 8) :
    d ∉ (e.linkOf n).queue := by
  intro hm
  obtain ⟨_, g, hg, _⟩ := h.members n d hm
  rw [hd] at hg; cases hg

theorem createDisplay {e : Engines} (h : e.LinksSafe) (A : Ambient) {d : Nat} {r : Rec4} {cls : DisplayClass}
    (hd : e.faceOf d = none) (k : Fits e d cls r.rosLink r.rosDrop) : (e.createDisplay A d r cls).LinksSafe := by
  unfold Engines.createDisplay
  extract_lets e1 e2
  have hon : ∀ c, e1.online c = if c = d then false else e.online c := by
    intro c
    show (Engines.setDisplays e _).online c = _
    rw [online_setDisplays, Tab.get_put]
    split
    · rfl
    · unfold Engines.online; cases e.link.displays.get c <;> rfl
  have h1 : e1.LinksSafe := by
    refine h.of_display d rfl (fun _ => rfl) (fun c hc => by rw [hon, if_neg hc]) (fun hx => ?_) fun _ => h.not_mem_gone hd
    rw [hon, if_pos rfl] at hx; cases hx
  have h2 : e2.LinksSafe := h1.putFace (f := createdFace A e1 r cls) (k.congr rfl) (by rw [hon, if_pos rfl])
  exact (h2.openQueue d cls).targetNotice A d

theorem Same.faceOf {e e' : Engines} (k : Same e e') {d : Nat} {f : Face} (hf : e.faceOf d = some f) :
    ∃ g, e'.faceOf d = some g ∧ g.link = f.link := by
  obtain ⟨g, hg, hs⟩ := k.symm.spot hf
  simp only [Face.spot, Prod.mk.injEq] at hs
  exact ⟨g, hg, hs.2.1⟩

theorem Same.faceOf_none {e e' : Engines} (k : Same e e') {d : Nat} (hf : e.faceOf d = none) : e'.faceOf d = none := by
  cases h : e'.faceOf d with
  | none => rfl
  | some f =>
    obtain ⟨g, hg, _⟩ := k.spot h
    rw [hf] at hg; cases hg

theorem removeDisplay {e : Engines} (h : e.LinksSafe) (A : Ambient) (d : Nat) : (e.removeDisplay A d).LinksSafe := by
  unfold Engines.removeDisplay
  split
  · exact h
  · rename_i f hf
    dsimp only
    have k0 : Same e ((e.leaveQueue f.link d).cancelPoll f.link f.drop) :=
      (Same.leaveQueue e f.link d).trans (Same.cancelPoll _ _ _)
    have k1 := k0.trans (Same.cancelIfTerminal A _ d f.cls)
    have h1 := ((h.leaveQueue f.link d).cancelPoll f.link f.drop).cancelIfTerminal A d f.cls
    generalize ((e.leaveQueue f.link d).cancelPoll f.link f.drop).cancelIfTerminal A d f.cls = e1 at k1 h1
    have k2 : Same e (e1.leaveQueue f.link d) := k1.trans (Same.leaveQueue _ _ _)
    have h2 : (e1.leaveQueue f.link d).LinksSafe := h1.leaveQueue f.link d
    have hq : ∀ n, d ∉ ((e1.leaveQueue f.link d).linkOf n).queue := by
      intro n
      by_cases hn : n = f.link
      · subst hn; exact h1.leaveQueue_not_mem f.link d
      · obtain ⟨g, hg, hl⟩ := k2.faceOf hf
        exact h2.not_mem_other hg (by rw [hl]; exact hn)
    have h3 : ((e1.leaveQueue f.link d).closeQueue d).LinksSafe := h2.closeQueue d
    have hq3 : ∀ n, d ∉ (((e1.leaveQueue f.link d).closeQueue d).linkOf n).queue := hq
    generalize (e1.leaveQueue f.link d).closeQueue d = e3 at h3 hq3
    have h4 : (e3.setFaces (e3.face.faces.erase d)).LinksSafe := h3.eraseFace hq3
    have hg4 : (e3.setFaces (e3.face.faces.erase d)).faceOf d = none := by
      show (e3.face.faces.erase d).get d = none
      rw [Tab.get_erase, if_pos rfl]
    generalize e3.setFaces (e3.face.faces.erase d) = e4 at h4 hg4
    have h5 : (e4.targetNotice A d).LinksSafe := h4.targetNotice A d
    have hg5 : (e4.targetNotice A d).faceOf d = none := (Same.of_keeps (Keeps.targetNotice A e4 d)).faceOf_none hg4
    generalize e4.targetNotice A d = e5 at h5 hg5
    refine h5.of_display d rfl (fun _ => rfl) (fun c hc => ?_) (fun hx => ?_) fun _ => h5.not_mem_gone hg5
    · rw [online_setDisplays, Tab.get_erase, if_neg hc]
      unfold Engines.online; cases e5.link.displays.get c <;> rfl
    · rw [online_setDisplays, Tab.get_erase, if_pos rfl] at hx; cases hx

theorem updFace_respot {e : Engines} (h : e.LinksSafe) {d : Nat} {f : Face} (hf : e.faceOf d = some f) (g : Face → Face)
    (k : Fits e d (g f).cls (g f).link (g f).drop) (hl : e.online d = false ∨ f.link = (g f).link) :
    (e.updFace d g).LinksSafe := by
  have h1 := h.respot hf g k hl
  unfold Engines.updFace Engines.updFaceFrom
  rw [hf]
  dsimp only
  split
  · exact h1
  · exact h1.changeMark d _

theorem rebuildFace {e : Engines} (h : e.LinksSafe) (A : Ambient) {d : Nat} {r : Rec4} {cls : DisplayClass}
    (old : DisplayClass) {f : Face} (hf : e.faceOf d = some f) (k : Fits e d cls r.rosLink r.rosDrop)
    (hl : e.online d = false ∨ f.link = r.rosLink) : (e.rebuildFace A d r cls old).LinksSafe := by
  unfold Engines.rebuildFace
  extract_lets e1 e2 e3 e4
  have h1 : e1.LinksSafe := h.cancelIfTerminal A d old
  have s1 : Same e e1 := Same.cancelIfTerminal A e d old
  have h2 : e2.LinksSafe := by
    show (if _ then _ else _ : Engines).LinksSafe
    split
    · exact h1.closeQueue d
    · exact h1
  have f2 : e2.face = e1.face ∧ e2.link = e1.link := by
    show (if _ then _ else _ : Engines).face = _ ∧ (if _ then _ else _ : Engines).link = _
    split <;> exact ⟨rfl, rfl⟩
  have h3 : e3.LinksSafe := by
    show (if _ then _ else _ : Engines).LinksSafe
    split
    · exact h2.openQueue d cls
    · exact h2
  have f3 : e3.face = e1.face ∧ e3.link = e1.link := by
    refine ⟨Eq.trans ?_ f2.1, Eq.trans ?_ f2.2⟩
    · show (if _ then _ else _ : Engines).face = _
      split
      · unfold Engines.openQueue; split <;> rfl
      · rfl
    · show (if _ then _ else _ : Engines).link = _
      split
      · unfold Engines.openQueue; split <;> rfl
      · rfl
  obtain ⟨g, hg, hgl⟩ := s1.faceOf hf
  have hg3 : e3.faceOf d = some g := by unfold Engines.faceOf at hg ⊢; rw [f3.1]; exact hg
  have hon : e3.online d = e.online d := by
    rw [← s1.online d]; unfold Engines.online; rw [f3.2]
  have h4 : e4.LinksSafe := by
    refine h3.updFace_respot hg3 _ ((k.of_same s1).congr f3.1) ?_
    rcases hl with hl | hl
    · exact Or.inl (hon.trans hl)
    · exact Or.inr (hgl.trans hl)
  exact (h4.coverEvent A [d]).targetNotice A d

theorem rebuildFace_displays (A : Ambient) (e : Engines) (d : Nat) (r : Rec4) (cls old : DisplayClass) :
    (e.rebuildFace A d r cls old).link.displays = e.link.displays := by
  unfold Engines.rebuildFace
  dsimp only
  rw [(Keeps.targetNotice A _ d).displays]
  refine (congrArg Firm.displays (Keeps.coverEvent_firm A _ [d])).trans ?_
  have hu : ∀ (e : Engines) (g : Face → Face), (e.updFace d g).link.displays = e.link.displays :=
    fun e g => congrArg Firm.displays (Keeps.updFace_firm e d g)
  have ho : ∀ e : Engines, (e.openQueue d cls).link.displays = e.link.displays := by
    intro e; unfold Engines.openQueue; split <;> rfl
  have hc : ∀ e : Engines, (e.closeQueue d).link.displays = e.link.displays := fun _ => rfl
  have ht : (e.cancelIfTerminal A d old).link.displays = e.link.displays := by
    unfold Engines.cancelIfTerminal
    split
    · exact (Keeps.cancelTerminal A e d _).displays
    · rfl
  refine (hu _ _).trans ?_
  split <;> (try rw [ho]) <;> split <;> (try rw [hc]) <;> exact ht

theorem rebindDisplay {e : Engines} (h : e.LinksSafe) (A : Ambient) {d : Nat} {r : Rec4} {cls : DisplayClass} {f : Face}
    (hf : e.faceOf d = some f) (k : Fits e d cls r.rosLink r.rosDrop) : (e.rebindDisplay A d r cls f).LinksSafe := by
  have hoff : ∀ (b : Engines), b.LinksSafe → b.online d = false →
      (b.onDisplay d fun _ => Display.fresh).LinksSafe := by
    intro b hb hx
    refine hb.of_display d rfl (fun _ => rfl) (fun c hc => by rw [online_onDisplay, if_neg hc]) (fun hy => ?_)
      fun _ => hb.not_mem hx
    rw [online_onDisplay, if_pos rfl] at hy
    cases hd : b.link.displays.get d <;> rw [hd] at hy <;> cases hy
  unfold Engines.rebindDisplay
  dsimp only
  split
  · rename_i hm
    have h1 : ((e.leaveQueue f.link d).cancelPoll f.link f.drop).LinksSafe := (h.leaveQueue f.link d).cancelPoll _ _
    have s1 : Same e ((e.leaveQueue f.link d).cancelPoll f.link f.drop) :=
      (Same.leaveQueue e f.link d).trans (Same.cancelPoll _ _ _)
    have hq : ∀ n, d ∉ (((e.leaveQueue f.link d).cancelPoll f.link f.drop).linkOf n).queue := by
      intro n
      by_cases hn : n = f.link
      · subst hn
        have := h.leaveQueue_not_mem f.link d
        unfold Engines.cancelPoll
        rw [Engines.linkOf_onLink, if_pos rfl]
        exact this
      · obtain ⟨g, hg, hl⟩ := s1.faceOf hf
        exact h1.not_mem_other hg (by rw [hl]; exact hn)
    generalize (e.leaveQueue f.link d).cancelPoll f.link f.drop = b at h1 s1 hq
    have hb : (b.onDisplay d fun x => { x with liveness := .unpolled }).online d = false := by
      rw [online_onDisplay, if_pos rfl]
      cases b.link.displays.get d <;> rfl
    have h2 : (b.onDisplay d fun x => { x with liveness := .unpolled }).LinksSafe := by
      refine h1.of_display d rfl (fun _ => rfl) (fun c hc => by rw [online_onDisplay, if_neg hc]) (fun hx => ?_)
        fun _ => hq
      rw [hb] at hx; cases hx
    obtain ⟨g, hg, hgl⟩ := s1.faceOf hf
    have k2 := (k.of_same s1).congr (e' := b.onDisplay d fun x => { x with liveness := .unpolled }) rfl
    have hg2 : (b.onDisplay d fun x => { x with liveness := .unpolled }).faceOf d = some g := hg
    generalize (b.onDisplay d fun x => { x with liveness := .unpolled }) = b2 at hb h2 k2 hg2
    have s3 : Same b2 (b2.onDisplay d fun x => { x with toggle := none }) := Same.onDisplay b2 d _ fun _ => rfl
    have h3 : (b2.onDisplay d fun x => { x with toggle := none }).LinksSafe := h2.of_links s3 fun _ => rfl
    have hon3 : (b2.onDisplay d fun x => { x with toggle := none }).online d = false := (s3.online d).trans hb
    refine hoff _ (h3.rebuildFace A f.cls hg2 (k2.congr rfl) (Or.inl hon3)) ?_
    rw [← hon3]
    unfold Engines.online
    rw [rebuildFace_displays]
  · rename_i hm
    have hlink : f.link = r.rosLink := by
      simp only [Bool.or_eq_true, bne_iff_ne, not_or, Classical.not_not] at hm
      exact hm.1
    have s3 : Same e (e.onDisplay d fun x => { x with toggle := none }) := Same.onDisplay e d _ fun _ => rfl
    have h3 : (e.onDisplay d fun x => { x with toggle := none }).LinksSafe := h.of_links s3 fun _ => rfl
    exact h3.rebuildFace A f.cls (f := f) hf (k.congr rfl) (Or.inr hlink)

theorem acceptRoster {e : Engines} (h : e.LinksSafe) (A : Ambient) {d : Nat} {r : Rec4}
    (hc : checkRoster e d r = none) : (e.acceptRoster A d r).LinksSafe := by
  unfold Engines.acceptRoster
  have s1 : Same e (e.setRoster (e.link.roster.put d r)) := ⟨rfl, fun _ => rfl, fun _ => rfl⟩
  have h1 : (e.setRoster (e.link.roster.put d r)).LinksSafe := h.of_links s1 fun _ => rfl
  dsimp only
  split
  · rename_i hp hcls hf
    exact h1.createDisplay A hf ((Fits.of_check h hc hp hcls).congr rfl)
  · rename_i hp hcls hf
    split
    · exact h1.rebindDisplay A hf ((Fits.of_check h hc hp hcls).congr rfl)
    · exact h1
  · exact h1
  · exact h1.removeDisplay A d
  · exact h1

theorem clearRoster {e : Engines} (h : e.LinksSafe) (A : Ambient) : (e.clearRoster A).LinksSafe := by
  have h1 := foldl_inv Engines.LinksSafe (fun b d => b.removeDisplay A d) (fun b d hb => hb.removeDisplay A d)
    (Tab.keys e.face.faces) e h
  exact h1.of_links ⟨rfl, fun _ => rfl, fun _ => rfl⟩ fun _ => rfl

/-! ## Link setup -/

theorem face_unpollAll (e : Engines) (n : Fin 8) : (e.unpollAll n).face = e.face := by simp

theorem links_unpollAll (e : Engines) (n : Fin 8) : ∀ m, (e.unpollAll n).linkOf m = e.linkOf m := by
  intro m
  unfold Engines.unpollAll
  apply foldl_inv (fun b : Engines => b.linkOf m = e.linkOf m)
  · exact fun b d hb => hb
  · rfl

theorem online_unpollAll (e : Engines) (n : Fin 8) (c : Nat) :
    (e.unpollAll n).online c = (!(e.onThisLink n).contains c && e.online c) := by
  unfold Engines.unpollAll
  generalize e.onThisLink n = l
  induction l generalizing e with
  | nil => simp
  | cons d l ih =>
    rw [List.foldl_cons, ih, online_onDisplay]
    by_cases hc : c = d
    · subst hc
      rw [if_pos rfl]
      have : Option.any (fun x : Display => Liveness.unpolled == .online) (e.link.displays.get c) = false := by
        cases e.link.displays.get c <;> rfl
      rw [this]
      simp
    · rw [if_neg hc]
      simp [hc]

/-- A link that starts or stops begins with an empty queue and its displays UNPOLLED. -/
theorem emptied {e : Engines} (h : e.LinksSafe) (n : Fin 8) (g : Link → Link) (hq : (g (e.linkOf n)).queue = [])
    (hf : (g (e.linkOf n)).frame = none) : ((e.onLink n g).unpollAll n).LinksSafe := by
  have hface : ((e.onLink n g).unpollAll n).face = e.face := face_unpollAll _ n
  have hfo : ∀ c, ((e.onLink n g).unpollAll n).faceOf c = e.faceOf c := fun c => by
    unfold Engines.faceOf; rw [hface]
  have hlink : ∀ m, ((e.onLink n g).unpollAll n).linkOf m = if n = m then g (e.linkOf m) else e.linkOf m := fun m => by
    rw [links_unpollAll, Engines.linkOf_onLink]
  have hon : ∀ c, ((e.onLink n g).unpollAll n).online c = (!(e.onThisLink n).contains c && e.online c) :=
    fun c => online_unpollAll (e.onLink n g) n c
  have hthis : ∀ c f, e.faceOf c = some f → ((e.onThisLink n).contains c = true ↔ f.link = n) := by
    intro c f hc
    simp only [Engines.onThisLink, List.contains_iff_mem, List.mem_map, List.mem_filter, beq_iff_eq, Prod.exists]
    constructor
    · rintro ⟨c', f', ⟨hm, hl⟩, rfl⟩
      have := Tab.get_of_mem h.faces hm
      unfold Engines.faceOf at hc
      rw [hc] at this; cases this; exact hl
    · intro hl; exact ⟨c, f, ⟨Tab.mem_of_get hc, hl⟩, rfl⟩
  constructor
  · rw [hface]; exact h.faces
  · rw [hface]; exact h.terminals
  · intro c f hc; rw [hfo] at hc; exact h.drops c f hc
  · intro c c' f f' hc hc'; rw [hfo] at hc hc'; exact h.apart c c' f f' hc hc'
  · intro m; rw [hlink]; split
    · rename_i hm; subst hm; rw [hq]; exact List.nodup_nil
    · exact h.once m
  · intro m c hm
    rw [hlink] at hm
    split at hm
    · rename_i hx; subst hx; rw [hq] at hm; cases hm
    · rename_i hx
      obtain ⟨h1, f, hcf, hl⟩ := h.members m c hm
      refine ⟨?_, f, by rw [hfo]; exact hcf, hl⟩
      rw [hon, h1, Bool.and_true, Bool.not_eq_true']
      cases hc : (e.onThisLink n).contains c with
      | false => rfl
      | true => exact absurd (((hthis c f hcf).1 hc).symm.trans hl) hx
  · intro m fr hfr
    rw [hlink] at hfr ⊢
    split at hfr
    · rename_i hm; subst hm; rw [hf] at hfr; cases hfr
    · rename_i hm; rw [if_neg hm]; exact h.flying m fr hfr
  · intro m hr
    rw [hlink] at hr ⊢
    split at hr
    · rename_i hm; subst hm
      rw [if_pos rfl]
      refine ⟨hq, fun c f hc hl => ?_⟩
      rw [hfo] at hc
      rw [hon, (hthis c f hc).2 hl]
      rfl
    · rename_i hm
      rw [if_neg hm]
      refine ⟨(h.stopped m hr).1, fun c f hc hl => ?_⟩
      rw [hfo] at hc
      rw [hon, (h.stopped m hr).2 c f hc hl, Bool.and_false]

theorem acceptLink {e : Engines} (h : e.LinksSafe) (n : Fin 8) (r : Rec4) : (e.acceptLink n r).LinksSafe := by
  unfold Engines.acceptLink
  split
  · refine h.onLink_same n _ (fun _ => rfl) (fun _ => rfl) fun fr hfr => ?_
    unfold Link.inFlight
    rw [show (e.linkOf n).frame = some fr from hfr]; rfl
  · unfold Engines.stopLink
    dsimp only
    have h1 := foldl_inv Engines.LinksSafe (fun b d => b.leaveQueue n d) (fun b d hb => hb.leaveQueue n d)
      (e.linkOf n).queue e h
    exact h1.emptied n _ rfl rfl
  · rename_i hrun
    unfold Engines.startLink
    exact h.emptied n _ (h.stopped n hrun).1 rfl
  · rename_i hrun
    unfold Engines.recycleLink
    dsimp only
    have h1 : (e.onLink n fun l => { l.atStart with setup := r }).LinksSafe := by
      refine h.onLink_same n _ (fun _ => rfl) (fun _ => rfl) fun fr hfr => ?_
      cases hfr
    split
    · rename_i d hd
      have hq1 : ((e.onLink n fun l => { l.atStart with setup := r }).linkOf n).queue = (e.linkOf n).queue := by
        show ((Engines.onLink _ _ _).linkOf n).queue = _
        rw [Engines.linkOf_onLink, if_pos rfl]; rfl
      have hf1 : ((e.onLink n fun l => { l.atStart with setup := r }).linkOf n).frame = none := by
        show ((Engines.onLink _ _ _).linkOf n).frame = _
        rw [Engines.linkOf_onLink, if_pos rfl]; rfl
      have hm : d ∈ (e.linkOf n).queue := by
        obtain ⟨fr, hfr, hfd⟩ : ∃ fr, (e.linkOf n).frame = some fr ∧ fr.display = d := by
          have hd' : (e.linkOf n).inFlight = some d := hd
          unfold Link.inFlight at hd'
          cases hx : (e.linkOf n).frame with
          | none => rw [hx] at hd'; cases hd'
          | some fr => rw [hx] at hd'; exact ⟨fr, rfl, by simpa using hd'⟩
        have := h.flying n fr hfr
        rw [hfd] at this
        exact List.mem_of_mem_head? this
      obtain ⟨hon, f, hcf, hl⟩ := h.members n d hm
      have h2 : ((e.onLink n fun l => { l.atStart with setup := r }).onLink n fun l => { l with queue := l.queue.erase d }).LinksSafe := by
        refine h1.onLink n _ (fun _ => rfl) ⟨(h1.once n).erase d, ?_, ?_, ?_⟩
        · exact fun x hx => h1.members n x (List.mem_of_mem_erase hx)
        · intro fr hfr
          rw [show ((e.onLink n fun l => { l.atStart with setup := r }).linkOf n).frame = some fr from hfr] at hf1; cases hf1
        · intro hr
          show ((e.onLink n fun l => { l.atStart with setup := r }).linkOf n).queue.erase d = []
          rw [(h1.stopped n hr).1]; rfl
      refine h2.join hon (f := f) hcf hl ?_
      rw [Engines.linkOf_onLink, if_pos rfl]
      show d ∉ ((e.onLink n fun l => { l.atStart with setup := r }).linkOf n).queue.erase d
      rw [(h1.once n).mem_erase_iff]
      exact fun x => x.1 rfl
    · exact h1

/-! ## Answers and misses -/

theorem serve {e : Engines} (h : e.LinksSafe) (n : Fin 8) : (e.serve n).LinksSafe := by
  refine h.onLink_same n _ (fun _ => rfl) (fun _ => rfl) fun fr hfr => ?_
  unfold Link.inFlight
  rw [show (e.linkOf n).frame = some fr from hfr]; rfl

theorem advanced {e : Engines} (h : e.LinksSafe) (n : Fin 8) : (e.onLink n Link.advanced).LinksSafe := by
  refine h.onLink_same n _ (fun _ => rfl) (fun _ => rfl) fun fr hfr => ?_
  unfold Link.inFlight
  rw [show (e.linkOf n).frame = some fr from hfr]; rfl

/-- A display whose link runs comes ONLINE. -/
theorem comeOnline {e : Engines} (h : e.LinksSafe) {d : Nat} {f : Face} (hf : e.faceOf d = some f)
    (hr : (e.linkOf f.link).running = true) (g : Display → Display) (hg : ∀ x, (g x).liveness = .online) :
    (e.onDisplay d g).LinksSafe := by
  refine h.of_display d rfl (fun _ => rfl) (fun c hc => by rw [online_onDisplay, if_neg hc])
    (fun _ => Or.inr fun f' hf' => by rw [hf] at hf'; cases hf'; exact hr) fun hx => ?_
  rw [online_onDisplay, if_pos rfl] at hx
  refine h.not_mem ?_
  unfold Engines.online
  cases hd : e.link.displays.get d with
  | none => rfl
  | some x =>
    rw [hd] at hx
    simp only [Option.any_some, hg] at hx
    cases hx

theorem goodAnswer {e : Engines} (h : e.LinksSafe) (A : Ambient) (n : Fin 8) (drop : Nat) {d : Nat} (fault : Nat)
    {f : Face} (hf : e.faceOf d = some f) (hr : (e.linkOf f.link).running = true) :
    (e.goodAnswer A n drop d fault).LinksSafe := by
  unfold Engines.goodAnswer
  split
  · exact h
  · rename_i x hx
    have h1 := h.comeOnline hf hr (fun x => { x with misses := 0, liveness := .online }) fun _ => rfl
    dsimp only
    generalize (e.onDisplay d fun x => { x with misses := 0, liveness := .online }) = e1 at h1
    have h2 : (if x.liveness = .offline then e1.report A (.displayBack d n drop) else e1).LinksSafe := by
      split
      · exact h1.report A _
      · exact h1
    generalize (if x.liveness = .offline then e1.report A (.displayBack d n drop) else e1) = e2 at h2
    have h3 : (if x.liveness = .online then e2 else e2.refreshMark d).LinksSafe := by
      split
      · exact h2
      · exact h2.refreshMark d
    generalize (if x.liveness = .online then e2 else e2.refreshMark d) = e3 at h3
    split
    · exact h3
    · refine report ?_ A _
      exact h3.of_links (Same.onDisplay e3 d _ fun _ => rfl) fun _ => rfl

theorem miss {e : Engines} (h : e.LinksSafe) (A : Ambient) {n : Fin 8} (drop : Nat) {d : Nat} {f : Face}
    (hf : e.faceOf d = some f) (hl : f.link = n) : (e.miss A n drop d).LinksSafe := by
  unfold Engines.miss
  split
  · exact h
  · rename_i x hx
    dsimp only
    have h1 : (e.onDisplay d fun y => { y with misses := min (x.misses + 1) 3 }).LinksSafe :=
      h.of_links (Same.onDisplay e d _ fun _ => rfl) fun _ => rfl
    have hf1 : (e.onDisplay d fun y => { y with misses := min (x.misses + 1) 3 }).faceOf d = some f := hf
    generalize (e.onDisplay d fun y => { y with misses := min (x.misses + 1) 3 }) = e1 at h1 hf1
    split
    · exact h1
    · have s2 : Same e1 (e1.leaveQueue n d) := Same.leaveQueue e1 n d
      have h2 := h1.leaveQueue n d
      have hq : ∀ m, d ∉ ((e1.leaveQueue n d).linkOf m).queue := by
        intro m
        by_cases hm : m = n
        · subst hm; exact h1.leaveQueue_not_mem m d
        · obtain ⟨g, hg, hgl⟩ := s2.faceOf hf1
          exact h2.not_mem_other hg (by rw [hgl, hl]; exact hm)
      have h3 : ((e1.leaveQueue n d).onDisplay d fun y => { y with liveness := .offline }).LinksSafe := by
        refine h2.of_display d rfl (fun _ => rfl) (fun c hc => by rw [online_onDisplay, if_neg hc]) (fun hy => ?_)
          fun _ => hq
        rw [online_onDisplay, if_pos rfl] at hy
        cases hd : (e1.leaveQueue n d).link.displays.get d <;> rw [hd] at hy <;> cases hy
      have h4 : (((e1.onDisplay d fun y => { y with liveness := .offline }).leaveQueue n d).storeFace d
          fun f => { f with strokes := 0 }).LinksSafe := h3.storeFace d _ fun _ => rfl
      split
      · exact h4.report A _
      · exact h4

theorem offerEntry {e : Engines} (h : e.LinksSafe) (A : Ambient) (d : Nat) (t : Bool) (k : Keyed) :
    (e.offerEntry A d t k).LinksSafe := by
  unfold Engines.offerEntry
  split
  · exact h
  · split
    · exact h
    · have h1 := h.of_links (Same.onDisplay e d (fun x => { x with toggle := some t }) fun _ => rfl) fun _ => rfl
      exact h1.takeEntry A d k

/-! ## Blocks and frames -/

theorem send {e : Engines} (h : e.LinksSafe) (n : Fin 8) (fl : Option Nat) (b : Option Nat → Block) :
    (e.send n fl b).LinksSafe := by
  unfold Engines.send
  dsimp only
  refine h.onLink_same n _ (fun _ => rfl) (fun _ => rfl) fun fr hfr => ?_
  unfold Link.inFlight
  rw [show (e.linkOf n).frame = some fr from hfr]; rfl

theorem inFlight_send (e : Engines) (n : Fin 8) (fl : Option Nat) (b : Option Nat → Block) :
    ((e.send n fl b).linkOf n).inFlight = (e.linkOf n).inFlight := by
  unfold Engines.send
  dsimp only
  rw [Engines.linkOf_onLink, if_pos rfl]
  rfl

theorem sendNext {e : Engines} (h : e.LinksSafe) {n : Fin 8} {fr : Frame} (hf : (e.linkOf n).inFlight = some fr.display) :
    (e.sendNext n fr).LinksSafe := by
  unfold Engines.sendNext
  dsimp only
  refine (h.send n _ _).onLink_same n _ (fun _ => rfl) (fun _ => rfl) fun fr' hfr => ?_
  rw [inFlight_send, hf]
  cases hfr
  rfl

theorem sendAbort {e : Engines} (h : e.LinksSafe) {n : Fin 8} {fr : Frame} (hf : (e.linkOf n).inFlight = some fr.display) :
    (e.sendAbort n fr).LinksSafe := by
  unfold Engines.sendAbort
  dsimp only
  refine (h.send n _ _).onLink_same n _ (fun _ => rfl) (fun _ => rfl) fun fr' hfr => ?_
  rw [inFlight_send, hf]
  cases hfr
  rfl

/-- A walk keeps the laws and the links, and finds a display of the queue. -/
theorem walkQueue {e : Engines} (h : e.LinksSafe) (q : List Nat) (f : FetchUnit) :
    (walkQueue q f e).eng.LinksSafe ∧ (Machine.walkQueue q f e).eng.link = e.link ∧
      ∀ d codes, (Machine.walkQueue q f e).found = some (d, codes) → d ∈ q := by
  induction q generalizing e f with
  | nil => exact ⟨h, rfl, fun d codes hx => by cases hx⟩
  | cons x q ih =>
    have tail : ∀ {e' : Engines} (f' : FetchUnit), e'.LinksSafe → e'.link = e.link →
        (Machine.walkQueue q f' e').eng.LinksSafe ∧ (Machine.walkQueue q f' e').eng.link = e.link ∧
          ∀ d codes, (Machine.walkQueue q f' e').found = some (d, codes) → d ∈ x :: q := by
      intro e' f' h' hl
      obtain ⟨h1, h2, h3⟩ := ih h' f'
      exact ⟨h1, h2.trans hl, fun d codes hx => List.mem_cons_of_mem _ (h3 d codes hx)⟩
    have here : ∀ (f' : FetchUnit) (cs : List Code), (⟨f', e, some (x, cs)⟩ : Walk).eng.LinksSafe ∧
        (⟨f', e, some (x, cs)⟩ : Walk).eng.link = e.link ∧
          ∀ d codes, (⟨f', e, some (x, cs)⟩ : Walk).found = some (d, codes) → d ∈ x :: q := by
      intro f' cs
      refine ⟨h, rfl, fun d codes hx => ?_⟩
      cases hx
      exact List.mem_cons_self
    unfold Machine.walkQueue
    split
    · exact tail f h rfl
    · split
      · exact tail f h rfl
      · split
        · exact here _ _
        · split
          · exact here _ _
          · exact tail _ (h.storeFace x _ fun _ => rfl) rfl

theorem buildFrame {e : Engines} (h : e.LinksSafe) (f : FetchUnit) {n : Fin 8} {d : Nat} (codes : List Code)
    (hd : d ∈ (e.linkOf n).queue) : (e.buildFrame f n d codes).LinksSafe := by
  unfold Engines.buildFrame
  split
  · exact h
  · rename_i face hface
    dsimp only
    have s1 : ∀ g : Face → Face, (∀ f, (g f).spot = f.spot) → ((e.storeFace d g).countFrame).LinksSafe ∧
        ((e.storeFace d g).countFrame).linkOf n = e.linkOf n := fun g hg =>
      ⟨(h.storeFace d g hg).of_links ⟨rfl, fun _ => rfl, fun _ => rfl⟩ fun _ => rfl, rfl⟩
    obtain ⟨h1, hl⟩ := s1 (fun x => { x with waitText := none, waitGlyphs := (face.visible e.face.slots).waits f.ready })
      fun _ => rfl
    generalize ((e.storeFace d fun x => { x with
      waitText := none, waitGlyphs := (face.visible e.face.slots).waits f.ready }).countFrame) = e1 at h1 hl
    refine sendNext ?_ ?_
    · refine h1.onLink n _ (fun _ => rfl) ⟨?_, ?_, ?_, ?_⟩
      · show (d :: (e1.linkOf n).queue.erase d).Nodup
        rw [List.nodup_cons, (h1.once n).mem_erase_iff]
        exact ⟨fun x => x.1 rfl, (h1.once n).erase d⟩
      · intro x hx
        rcases List.mem_cons.1 hx with rfl | hx
        · exact h1.members n x (by rw [hl]; exact hd)
        · exact h1.members n x (List.mem_of_mem_erase hx)
      · intro fr hfr
        cases hfr; rfl
      · intro hr
        have := (h1.stopped n hr).1
        rw [hl] at this
        rw [this] at hd; cases hd
    · rw [Engines.linkOf_onLink, if_pos rfl]; rfl

theorem outSlotStep {e : Engines} (h : e.LinksSafe) (n : Fin 8) (f : FetchUnit) :
    (outSlotStep n f e).2.LinksSafe := by
  unfold Machine.outSlotStep
  split
  · rename_i fr hfr
    have hin : (e.linkOf n).inFlight = some fr.display := by unfold Link.inFlight; rw [hfr]; rfl
    dsimp only
    split
    · exact h.sendAbort hin
    · exact h.sendNext hin
  · obtain ⟨h1, h2, h3⟩ := h.walkQueue (e.linkOf n).queue f
    dsimp only
    split
    · rename_i d codes hx
      refine h1.buildFrame _ codes ?_
      have hl : ((Machine.walkQueue (e.linkOf n).queue f e).eng.linkOf n) = e.linkOf n := congrArg (·.links[n]) h2
      rw [hl]
      exact h3 d codes hx
    · exact h1.send n _ _

/-- The frame in flight ends: its display leaves the queue. -/
theorem endFrame {e : Engines} (h : e.LinksSafe) {n : Fin 8} {fr : Frame} (hfr : (e.linkOf n).frame = some fr) :
    (e.onLink n fun l => { l with frame := none, queue := l.queue.erase fr.display }).LinksSafe ∧
      e.online fr.display = true ∧ (∃ f, e.faceOf fr.display = some f ∧ f.link = n) ∧
      fr.display ∉ ((e.onLink n fun l => { l with frame := none, queue := l.queue.erase fr.display }).linkOf n).queue := by
  have hm : fr.display ∈ (e.linkOf n).queue := List.mem_of_mem_head? (h.flying n fr hfr)
  refine ⟨h.onLink n _ (fun _ => rfl) ⟨(h.once n).erase _, ?_, ?_, ?_⟩, (h.members n _ hm).1, (h.members n _ hm).2, ?_⟩
  · exact fun x hx => h.members n x (List.mem_of_mem_erase hx)
  · intro fr' hx; cases hx
  · intro hr
    show (e.linkOf n).queue.erase fr.display = []
    rw [(h.stopped n hr).1]; rfl
  · rw [Engines.linkOf_onLink, if_pos rfl]
    show fr.display ∉ (e.linkOf n).queue.erase fr.display
    rw [(h.once n).mem_erase_iff]
    exact fun x => x.1 rfl

theorem completeFrame {e : Engines} (h : e.LinksSafe) {n : Fin 8} {fr : Frame} (hfr : (e.linkOf n).frame = some fr) :
    (e.completeFrame n fr).LinksSafe := by
  obtain ⟨h1, hon, ⟨f, hf, hl⟩, hq⟩ := h.endFrame hfr
  unfold Engines.completeFrame
  dsimp only
  have hf1 : (e.onLink n fun l => { l with frame := none, queue := l.queue.erase fr.display }).faceOf fr.display = some f := hf
  have hon1 : (e.onLink n fun l => { l with frame := none, queue := l.queue.erase fr.display }).online fr.display = true := hon
  generalize (e.onLink n fun l => { l with frame := none, queue := l.queue.erase fr.display }) = b at h1 hq hf1 hon1
  have s2 : Same b (b.storeFace fr.display fun x => { x with strokes := x.strokes - fr.strokes }) :=
    Same.storeFace b _ _ fun _ => rfl
  have h2 := h1.storeFace fr.display (fun x => { x with strokes := x.strokes - fr.strokes }) fun _ => rfl
  split
  · obtain ⟨g, hg, hgl⟩ := s2.faceOf hf1
    exact h2.join ((s2.online _).trans hon1) hg (hgl.trans hl) hq
  · exact h2

theorem abortFrame {e : Engines} (h : e.LinksSafe) {n : Fin 8} {fr : Frame} (hfr : (e.linkOf n).frame = some fr) :
    (e.abortFrame n fr).LinksSafe := by
  obtain ⟨h1, hon, ⟨f, hf, hl⟩, hq⟩ := h.endFrame hfr
  exact h1.join hon hf hl hq

/-! ## Clearing, restart and reset -/

theorem clearTable {e : Engines} (h : e.LinksSafe) (A : Ambient) (w : Fin 5) : (e.clearTable A w).LinksSafe := by
  unfold Engines.clearTable
  split
  · exact h.clearCars A
  · split
    · exact h.clearRoster A
    · split
      · exact h.clearLabels A
      · split
        · exact h.clearPlayout
        · exact h

/-- With no face and no queue the laws hold. -/
theorem of_empty {e : Engines} (hf : e.face.faces = []) (hq : ∀ n, (e.linkOf n).queue = [] ∧ (e.linkOf n).frame = none) :
    e.LinksSafe := by
  have hn : ∀ d, e.faceOf d = none := fun d => by unfold Engines.faceOf; rw [hf]; rfl
  constructor
  · rw [hf]; rfl
  · rw [hf]; exact Nat.zero_le _
  · intro d f hd; rw [hn] at hd; cases hd
  · intro c d f g hc; rw [hn] at hc; cases hc
  · intro n; rw [(hq n).1]; exact List.nodup_nil
  · intro n d hd; rw [(hq n).1] at hd; cases hd
  · intro n fr hfr; rw [(hq n).2] at hfr; cases hfr
  · intro n _; exact ⟨(hq n).1, fun d f hd => by rw [hn] at hd; cases hd⟩

theorem fold_upd (g : Link → Link) (l : List (Fin 8)) (v : Vector Link 8) (P : Link → Prop) (hg : ∀ x, P (g x))
    (n : Fin 8) (hn : n ∈ l ∨ P v[n]) : P (l.foldl (fun v n => upd v n g) v)[n] := by
  induction l generalizing v with
  | nil => rcases hn with hn | hn
           · cases hn
           · exact hn
  | cons m l ih =>
    apply ih
    by_cases h : m = n
    · refine Or.inr ?_
      rw [get_upd, if_pos h]; exact hg _
    · rcases hn with hn | hn
      · rcases List.mem_cons.1 hn with hx | hx
        · exact absurd hx.symm h
        · exact Or.inl hx
      · refine Or.inr ?_
        rw [get_upd, if_neg h]; exact hn

theorem cleared (e : Engines) : e.cleared.LinksSafe := by
  refine of_empty rfl fun n => ?_
  refine fold_upd Link.restarted (List.finRange 8) e.link.links (fun l => l.queue = [] ∧ l.frame = none) (fun l => ?_) n
    (Or.inl (List.mem_finRange n))
  unfold Link.restarted
  split <;> exact ⟨rfl, rfl⟩

theorem restartSlot {e : Engines} (h : e.LinksSafe) (A : Ambient) (k : Fin 4) : (e.restartSlot A k).LinksSafe := by
  unfold Engines.restartSlot
  dsimp only
  split
  · exact (h.updSlot k _).claimOverride A k
  · exact h.updSlot k _

theorem restarted (e : Engines) (A : Ambient) : (e.restarted A).LinksSafe :=
  foldl_inv Engines.LinksSafe (fun b k => b.restartSlot A k) (fun _ k hb => hb.restartSlot A k) (List.finRange 4) _ (cleared e)

theorem reset : Engines.reset.LinksSafe := by
  refine of_empty rfl fun n => ?_
  have : Engines.reset.linkOf n = Link.reset := by
    show (Vector.replicate 8 Link.reset)[n] = _
    simp
  rw [this]
  exact ⟨rfl, rfl⟩

theorem poweredOn (e : Engines) : e.poweredOn.LinksSafe :=
  reset.of_links ⟨rfl, fun _ => rfl, fun _ => rfl⟩ fun _ => rfl

/-! ## Deliveries -/

theorem delivered {e : Engines} (h : e.LinksSafe) : e.delivered.LinksSafe := h.congr rfl rfl

theorem onPromptHold {e : Engines} (h : e.LinksSafe) (A : Ambient) (p : TimerPlace) :
    (onPromptHold A e p).LinksSafe := by
  unfold Machine.onPromptHold
  split <;> first | exact h.expirePrompt _ p | exact h

theorem onLantern {e : Engines} (h : e.LinksSafe) (A : Ambient) (p : TimerPlace) : (onLantern A e p).LinksSafe := by
  unfold Machine.onLantern
  split <;> first | exact h.flash A _ p | exact h

theorem onGong {e : Engines} (h : e.LinksSafe) (A : Ambient) (p : TimerPlace) : (onGong A e p).LinksSafe := by
  unfold Machine.onGong
  split <;> first | exact h.stroke _ p | exact h

theorem onDwell {e : Engines} (h : e.LinksSafe) (A : Ambient) (p : TimerPlace) : (onDwell A e p).LinksSafe := by
  unfold Machine.onDwell
  split <;> first | exact h.expireDwell A _ p | exact h

theorem onOverrideDwell {e : Engines} (h : e.LinksSafe) (A : Ambient) (p : TimerPlace) :
    (onOverrideDwell A e p).LinksSafe := by
  unfold Machine.onOverrideDwell
  split
  · split
    · exact h.rotateSlot A _
    · exact h
  all_goals exact h

theorem length_le_of_nodup (n : Nat) {l : List Nat} (hn : l.Nodup) (hl : ∀ x ∈ l, 1 ≤ x ∧ x ≤ n) : l.length ≤ n := by
  induction n generalizing l with
  | zero =>
    cases l with
    | nil => exact Nat.le_refl _
    | cons x l => have := hl x List.mem_cons_self; omega
  | succ n ih =>
    have := ih (hn.erase (n + 1)) fun x hx => by
      rw [hn.mem_erase_iff] at hx
      have := hl x hx.2
      omega
    rw [List.length_erase] at this
    split at this <;> omega

/-- A queue holds at most 63 displays (R138): each stands at its own drop of the link. -/
theorem queue_le {e : Engines} (h : e.LinksSafe) (n : Fin 8) : (e.linkOf n).queue.length ≤ 63 := by
  have hinj : ∀ c ∈ (e.linkOf n).queue, ∀ d ∈ (e.linkOf n).queue, e.dropOf c = e.dropOf d → c = d := by
    intro c hc d hd hcd
    obtain ⟨_, f, hf, hfl⟩ := h.members n c hc
    obtain ⟨_, g, hg, hgl⟩ := h.members n d hd
    unfold Engines.dropOf at hcd
    rw [hf, hg] at hcd
    exact h.apart c d f g hf hg (hfl.trans hgl.symm) hcd
  have hnd : ((e.linkOf n).queue.map e.dropOf).Nodup := by
    unfold List.Nodup
    rw [List.pairwise_map]
    exact (h.once n).imp_of_mem fun hc hd hne heq => hne (hinj _ hc _ hd heq)
  have := length_le_of_nodup 63 hnd fun x hx => by
    obtain ⟨d, hd, rfl⟩ := List.mem_map.1 hx
    obtain ⟨_, f, hf, _⟩ := h.members n d hd
    have := h.drops d f hf
    unfold Engines.dropOf
    rw [hf]
    exact this
  simpa using this

end Engines.LinksSafe

end Sys2Proof.Machine
end

