-- ==== Sys2Proof/Laws/Memory.lean ====
section
/-! SUPPORT. Host memory: every operation keeps the canonical form, and what a byte reads as after each. -/

namespace Sys2Proof.Machine

/-! ## The canonical form as pairs -/

/-- Every entry stands above an address, in rising order, and none holds the unwritten byte. -/
def Memory.above (lo : Nat) : List Host.Cell → Prop
  | [] => True
  | (k, v) :: t => lo ≤ k ∧ v ≠ Config.unwrittenByte ∧ Memory.above (k + 1) t

theorem Memory.above_weaken {lo lo' : Nat} (m : List Host.Cell) (h : Memory.above lo m) (hl : lo' ≤ lo) :
    Memory.above lo' m := by
  cases m with
  | nil => trivial
  | cons c t => exact ⟨Nat.le_trans hl h.1, h.2.1, h.2.2⟩

theorem Memory.wf_iff (m : List Host.Cell) : Memory.wf m = true ↔ Memory.above 0 m := by
  have key : ∀ (t : List Host.Cell) (lo : Nat),
      (Tab.risingFrom (some lo) t = true ∧ Memory.noDefault t = true) ↔ Memory.above (lo + 1) t := by
    intro t
    induction t with
    | nil => intro lo; simp [Tab.risingFrom, Memory.noDefault, Memory.above]
    | cons c t ih =>
      intro lo
      obtain ⟨k, v⟩ := c
      have := ih k
      simp only [Tab.risingFrom, Memory.noDefault, Memory.above, List.all_cons, Bool.and_eq_true, decide_eq_true_eq,
        bne_iff_ne, ne_eq] at this ⊢
      constructor
      · rintro ⟨⟨h1, h2⟩, h3, h4⟩
        exact ⟨h1, h3, this.1 ⟨h2, h4⟩⟩
      · rintro ⟨h1, h2, h3⟩
        have := this.2 h3
        exact ⟨⟨h1, this.1⟩, h2, this.2⟩
  cases m with
  | nil => simp [Memory.wf, Tab.wf, Tab.risingFrom, Memory.noDefault, Memory.above]
  | cons c t =>
    obtain ⟨k, v⟩ := c
    have := key t k
    simp only [Memory.wf, Tab.wf, Tab.risingFrom, Memory.noDefault, Memory.above, List.all_cons, Bool.and_eq_true,
      Bool.true_and, bne_iff_ne, ne_eq, Nat.zero_le, true_and] at this ⊢
    constructor
    · rintro ⟨h2, h3, h4⟩
      exact ⟨h3, this.1 ⟨h2, h4⟩⟩
    · rintro ⟨h3, h4⟩
      have := this.2 h4
      exact ⟨this.1, h3, this.2⟩

theorem Memory.read_above {lo a : Nat} (m : List Host.Cell) (h : Memory.above lo m) (ha : a < lo) :
    Memory.read m a = Config.unwrittenByte := by
  induction m generalizing lo with
  | nil => rfl
  | cons c t ih =>
    obtain ⟨k, v⟩ := c
    unfold Memory.read
    rw [if_neg (by have := h.1; omega)]
    exact ih h.2.2 (by have := h.1; omega)

/-! ## One byte -/

theorem Memory.write_above {lo : Nat} (m : List Host.Cell) (h : Memory.above lo m) (a : Nat) (b : Byte) (ha : lo ≤ a) :
    Memory.above lo (Memory.write m a b) := by
  induction m generalizing lo with
  | nil =>
    unfold Memory.write
    split
    · trivial
    · exact ⟨ha, by assumption, trivial⟩
  | cons c t ih =>
    obtain ⟨k, v⟩ := c
    obtain ⟨h1, h2, h3⟩ := h
    unfold Memory.write
    split
    · split
      · exact ⟨h1, h2, h3⟩
      · exact ⟨ha, by assumption, by omega, h2, h3⟩
    · split
      · split
        · exact Memory.above_weaken t h3 (by omega)
        · exact ⟨ha, by assumption, Memory.above_weaken t h3 (by omega)⟩
      · exact ⟨h1, h2, ih h3 (by omega)⟩

theorem Memory.write_wf (m : List Host.Cell) (a : Nat) (b : Byte) (h : Memory.wf m = true) :
    Memory.wf (Memory.write m a b) = true :=
  (Memory.wf_iff _).2 (Memory.write_above m ((Memory.wf_iff m).1 h) a b (Nat.zero_le a))

theorem Memory.read_write_above {lo : Nat} (m : List Host.Cell) (h : Memory.above lo m) (a : Nat) (b : Byte) (x : Nat) :
    Memory.read (Memory.write m a b) x = if x = a then b else Memory.read m x := by
  induction m generalizing lo with
  | nil =>
    unfold Memory.write
    by_cases hb : b = Config.unwrittenByte
    · rw [if_pos hb]; simp [Memory.read, hb]
    · rw [if_neg hb]; simp [Memory.read, eq_comm]
  | cons c t ih =>
    obtain ⟨k, v⟩ := c
    obtain ⟨h1, h2, h3⟩ := h
    unfold Memory.write
    by_cases hlt : a < k
    · rw [if_pos hlt]
      by_cases hb : b = Config.unwrittenByte
      · rw [if_pos hb]
        by_cases hx : x = a
        · subst hx
          rw [if_pos rfl, hb]
          exact Memory.read_above (lo := k) _ ⟨Nat.le_refl k, h2, h3⟩ hlt
        · rw [if_neg hx]
      · rw [if_neg hb]
        by_cases hx : x = a
        · subst hx; simp [Memory.read]
        · rw [if_neg hx, Memory.read, if_neg (fun h => hx h.symm)]
    · rw [if_neg hlt]
      by_cases hk : a = k
      · subst hk
        rw [if_pos rfl]
        by_cases hb : b = Config.unwrittenByte
        · rw [if_pos hb]
          by_cases hx : x = a
          · subst hx
            rw [if_pos rfl, hb]
            exact Memory.read_above t h3 (by omega)
          · rw [if_neg hx]
            conv => rhs; rw [Memory.read, if_neg (fun h => hx h.symm)]
        · rw [if_neg hb]
          by_cases hx : x = a
          · subst hx; simp [Memory.read]
          · rw [if_neg hx, Memory.read, if_neg (fun h => hx h.symm), Memory.read, if_neg (fun h => hx h.symm)]
      · rw [if_neg hk, Memory.read, ih h3, Memory.read]
        by_cases hx : k = x
        · subst hx
          rw [if_pos rfl, if_neg (fun h => hk h.symm), if_pos rfl]
        · rw [if_neg hx, if_neg hx]

/-- What a byte reads as after one byte has been written. -/
theorem Memory.read_write (m : List Host.Cell) (h : Memory.wf m = true) (a : Nat) (b : Byte) (x : Nat) :
    Memory.read (Memory.write m a b) x = if x = a then b else Memory.read m x :=
  Memory.read_write_above m ((Memory.wf_iff m).1 h) a b x

/-! ## Lanes, beats, bursts -/

theorem Memory.writeLane_wf (m : List Host.Cell) (a : Nat) (b : Beat) (n : Nat) (h : Memory.wf m = true) :
    Memory.wf (Memory.writeLane m a b n) = true := by
  unfold Memory.writeLane
  split
  · exact Memory.write_wf m _ _ h
  · exact h

theorem Memory.read_writeLane (m : List Host.Cell) (h : Memory.wf m = true) (a : Nat) (b : Beat) (n x : Nat) :
    Memory.read (Memory.writeLane m a b n) x =
      if b.lanes.getLsbD n = true ∧ x = a + n then byteOf b.word n else Memory.read m x := by
  unfold Memory.writeLane
  by_cases hl : b.lanes.getLsbD n = true
  · rw [if_pos hl, Memory.read_write m h]
    simp [hl]
  · rw [if_neg hl, if_neg (fun h => hl h.1)]

theorem Memory.writeBeat_wf (m : List Host.Cell) (a : Nat) (b : Beat) (h : Memory.wf m = true) :
    Memory.wf (Memory.writeBeat m a b) = true :=
  Memory.writeLane_wf _ a b 3 (Memory.writeLane_wf _ a b 2 (Memory.writeLane_wf _ a b 1 (Memory.writeLane_wf _ a b 0 h)))

/-- What a byte reads as after one beat: the beat's byte on an enabled lane, else what it read as before. -/
theorem Memory.read_writeBeat (m : List Host.Cell) (h : Memory.wf m = true) (a : Nat) (b : Beat) (x : Nat) :
    Memory.read (Memory.writeBeat m a b) x =
      if a ≤ x ∧ x < a + 4 ∧ b.lanes.getLsbD (x - a) = true then byteOf b.word (x - a) else Memory.read m x := by
  have h0 := Memory.writeLane_wf m a b 0 h
  have h1 := Memory.writeLane_wf _ a b 1 h0
  have h2 := Memory.writeLane_wf _ a b 2 h1
  unfold Memory.writeBeat
  rw [Memory.read_writeLane _ h2, Memory.read_writeLane _ h1, Memory.read_writeLane _ h0, Memory.read_writeLane _ h]
  by_cases hx : a ≤ x ∧ x < a + 4
  · have : x = a ∨ x = a + 1 ∨ x = a + 2 ∨ x = a + 3 := by omega
    rcases this with rfl | rfl | rfl | rfl <;> simp
  · rw [if_neg (by omega), if_neg (by omega), if_neg (by omega), if_neg (by omega), if_neg (fun h => hx ⟨h.1, h.2.1⟩)]

theorem Memory.writeBeats_wf (m : List Host.Cell) (a : Nat) (bs : List Beat) (h : Memory.wf m = true) :
    Memory.wf (Memory.writeBeats m a bs) = true := by
  induction bs generalizing m a with
  | nil => exact h
  | cons b bs ih => exact ih _ _ (Memory.writeBeat_wf m a b h)

/-- A burst leaves every byte outside it as it was. -/
theorem Memory.read_writeBeats_outside (m : List Host.Cell) (h : Memory.wf m = true) (a : Nat) (bs : List Beat) (x : Nat)
    (hx : x < a ∨ a + 4 * bs.length ≤ x) : Memory.read (Memory.writeBeats m a bs) x = Memory.read m x := by
  induction bs generalizing m a with
  | nil => rfl
  | cons b bs ih =>
    have hl : (b :: bs).length = bs.length + 1 := rfl
    unfold Memory.writeBeats
    rw [ih _ (Memory.writeBeat_wf m a b h) _ (by omega), Memory.read_writeBeat m h, if_neg (by omega)]

/-- What a byte inside a burst reads as: the beat's byte on an enabled lane, else what it read as before. -/
theorem Memory.read_writeBeats_inside (m : List Host.Cell) (h : Memory.wf m = true) (a : Nat) (bs : List Beat)
    (n : Nat) (b : Beat) (k : Nat) (hb : bs[n]? = some b) (hk : k < 4) :
    Memory.read (Memory.writeBeats m a bs) (a + 4 * n + k) =
      if b.lanes.getLsbD k then byteOf b.word k else Memory.read m (a + 4 * n + k) := by
  induction bs generalizing m a n with
  | nil => simp at hb
  | cons c cs ih =>
    unfold Memory.writeBeats
    cases n with
    | zero =>
      simp at hb; subst hb
      rw [Memory.read_writeBeats_outside _ (Memory.writeBeat_wf _ _ _ h) _ _ _ (by omega), Memory.read_writeBeat _ h]
      have : a + 4 * 0 + k - a = k := by omega
      rw [this]
      by_cases hl : c.lanes.getLsbD k = true
      · rw [if_pos ⟨by omega, by omega, hl⟩, if_pos hl]
      · rw [if_neg (fun h => hl h.2.2), if_neg hl]
    | succ n =>
      have := ih (Memory.writeBeat m a c) (Memory.writeBeat_wf _ _ _ h) (a + 4) n (by simpa using hb)
      rw [show a + 4 + 4 * n + k = a + 4 * (n + 1) + k by omega] at this
      have away : ¬ (a ≤ a + 4 * (n + 1) + k ∧ a + 4 * (n + 1) + k < a + 4 ∧
          c.lanes.getLsbD (a + 4 * (n + 1) + k - a) = true) := by omega
      rw [this, Memory.read_writeBeat _ h, if_neg away]

theorem Memory.writeWords_wf (m : List Host.Cell) (a : Nat) (ws : List Word) (h : Memory.wf m = true) :
    Memory.wf (Memory.writeWords m a ws) = true := Memory.writeBeats_wf m a _ h

/-- A run of words leaves every byte outside it as it was. -/
theorem Memory.read_writeWords_outside (m : List Host.Cell) (h : Memory.wf m = true) (a : Nat) (ws : List Word) (x : Nat)
    (hx : x < a ∨ a + 4 * ws.length ≤ x) : Memory.read (Memory.writeWords m a ws) x = Memory.read m x :=
  Memory.read_writeBeats_outside m h a _ x (by simpa using hx)

/-! ## Lanes of a word -/

/-- The bytes of a word made of four bytes. -/
theorem byteOf_wordOf (b0 b1 b2 b3 : Byte) :
    byteOf (wordOf b0 b1 b2 b3) 0 = b0 ∧ byteOf (wordOf b0 b1 b2 b3) 1 = b1 ∧ byteOf (wordOf b0 b1 b2 b3) 2 = b2 ∧
      byteOf (wordOf b0 b1 b2 b3) 3 = b3 := by
  unfold byteOf wordOf
  refine ⟨?_, ?_, ?_, ?_⟩ <;> apply BitVec.eq_of_getLsbD_eq <;> intro i hi
  all_goals simp only [BitVec.getLsbD_extractLsb', BitVec.getLsbD_append]
  · simp [hi]
  · have h1 : ¬ (8 * 1 + i < 8) := by omega
    have h3 : 8 * 1 + i - 8 = i := by omega
    simp [hi, h1, h3]
  · have h1 : ¬ (8 * 2 + i < 8) := by omega
    have h2 : ¬ (8 * 2 + i - 8 < 8) := by omega
    have h3 : 8 * 2 + i - 8 - 8 = i := by omega
    simp [hi, h1, h2, h3]
  · have h1 : ¬ (8 * 3 + i < 8) := by omega
    have h2 : ¬ (8 * 3 + i - 8 < 8) := by omega
    have h3 : ¬ (8 * 3 + i - 8 - 8 < 8) := by omega
    have h4 : 8 * 3 + i - 8 - 8 - 8 = i := by omega
    simp [hi, h1, h2, h3, h4]

/-- A merge takes the bytes of the enabled lanes and leaves the others. -/
theorem byteOf_mergeLanes (old new : Word) (lanes : BitVec 4) (n : Nat) (h : n < 4) :
    byteOf (mergeLanes old new lanes) n = if lanes.getLsbD n then byteOf new n else byteOf old n := by
  have : n = 0 ∨ n = 1 ∨ n = 2 ∨ n = 3 := by omega
  unfold mergeLanes
  rcases this with rfl | rfl | rfl | rfl
  · exact (byteOf_wordOf _ _ _ _).1
  · exact (byteOf_wordOf _ _ _ _).2.1
  · exact (byteOf_wordOf _ _ _ _).2.2.1
  · exact (byteOf_wordOf _ _ _ _).2.2.2

end Sys2Proof.Machine
end

