-- ==== Sys2Proof/Laws/State.lean ====
section
/-! SUPPORT. What each operation of the part leaves as it was, field by field of State. -/

namespace Sys2Proof.Machine

@[simp] theorem State.engines_pending (s : State) (f : Ambient → Engines → Engines) : (s.engines f).pending = s.pending := rfl

@[simp] theorem State.engines_resetLow (s : State) (f : Ambient → Engines → Engines) : (s.engines f).resetLow = s.resetLow := rfl

@[simp] theorem State.engines_mem (s : State) (f : Ambient → Engines → Engines) : (s.engines f).mem = s.mem := rfl

@[simp] theorem State.engines_path (s : State) (f : Ambient → Engines → Engines) : (s.engines f).path = s.path := rfl

@[simp] theorem State.engines_asm (s : State) (f : Ambient → Engines → Engines) : (s.engines f).asm = s.asm := rfl

@[simp] theorem State.engines_fetch (s : State) (f : Ambient → Engines → Engines) : (s.engines f).fetch = s.fetch := rfl

@[simp] theorem State.engines_clock (s : State) (f : Ambient → Engines → Engines) : (s.engines f).clock = s.clock := rfl

@[simp] theorem State.engines_ring (s : State) (f : Ambient → Engines → Engines) : (s.engines f).ring = s.ring := rfl

@[simp] theorem State.report_pending (s : State) (ev : Event) : (s.report ev).pending = s.pending := rfl

@[simp] theorem State.report_resetLow (s : State) (ev : Event) : (s.report ev).resetLow = s.resetLow := rfl

@[simp] theorem State.report_mem (s : State) (ev : Event) : (s.report ev).mem = s.mem := rfl

@[simp] theorem State.report_path (s : State) (ev : Event) : (s.report ev).path = s.path := rfl

@[simp] theorem State.report_asm (s : State) (ev : Event) : (s.report ev).asm = s.asm := rfl

@[simp] theorem State.report_fetch (s : State) (ev : Event) : (s.report ev).fetch = s.fetch := rfl

@[simp] theorem State.report_clock (s : State) (ev : Event) : (s.report ev).clock = s.clock := rfl

@[simp] theorem State.report_ring (s : State) (ev : Event) : (s.report ev).ring = s.ring := rfl

@[simp] theorem State.refuseRecord_pending (s : State) (p : RecordPlace) (why : Reason) : (s.refuseRecord p why).pending = s.pending := rfl

@[simp] theorem State.refuseRecord_resetLow (s : State) (p : RecordPlace) (why : Reason) : (s.refuseRecord p why).resetLow = s.resetLow := rfl

@[simp] theorem State.refuseRecord_mem (s : State) (p : RecordPlace) (why : Reason) : (s.refuseRecord p why).mem = s.mem := rfl

@[simp] theorem State.refuseRecord_path (s : State) (p : RecordPlace) (why : Reason) : (s.refuseRecord p why).path = s.path := rfl

@[simp] theorem State.refuseRecord_asm (s : State) (p : RecordPlace) (why : Reason) : (s.refuseRecord p why).asm = s.asm := rfl

@[simp] theorem State.refuseRecord_fetch (s : State) (p : RecordPlace) (why : Reason) : (s.refuseRecord p why).fetch = s.fetch := rfl

@[simp] theorem State.refuseRecord_clock (s : State) (p : RecordPlace) (why : Reason) : (s.refuseRecord p why).clock = s.clock := rfl

@[simp] theorem State.refuseRecord_ring (s : State) (p : RecordPlace) (why : Reason) : (s.refuseRecord p why).ring = s.ring := rfl

@[simp] theorem State.handedOver_pending (s : State) : (s.handedOver).pending = s.pending := rfl

@[simp] theorem State.handedOver_resetLow (s : State) : (s.handedOver).resetLow = s.resetLow := rfl

@[simp] theorem State.handedOver_mem (s : State) : (s.handedOver).mem = s.mem := rfl

@[simp] theorem State.handedOver_path (s : State) : (s.handedOver).path = s.path := rfl

@[simp] theorem State.handedOver_fetch (s : State) : (s.handedOver).fetch = s.fetch := rfl

@[simp] theorem State.handedOver_clock (s : State) : (s.handedOver).clock = s.clock := rfl

@[simp] theorem State.handedOver_ring (s : State) : (s.handedOver).ring = s.ring := rfl

@[simp] theorem State.handedOver_eng (s : State) : (s.handedOver).eng = s.eng := rfl

@[simp] theorem State.poweredOn_pending (s : State) : (s.poweredOn).pending = s.pending := rfl

@[simp] theorem State.poweredOn_mem (s : State) : (s.poweredOn).mem = s.mem := rfl

@[simp] theorem State.resetFall_pending (s : State) : (s.resetFall).pending = s.pending := rfl

@[simp] theorem State.resetFall_mem (s : State) : (s.resetFall).mem = s.mem := rfl

@[simp] theorem State.resetFall_asm (s : State) : (s.resetFall).asm = s.asm := rfl

@[simp] theorem State.resetFall_fetch (s : State) : (s.resetFall).fetch = s.fetch := rfl

@[simp] theorem State.resetFall_clock (s : State) : (s.resetFall).clock = s.clock := rfl

@[simp] theorem State.resetFall_ring (s : State) : (s.resetFall).ring = s.ring := rfl

@[simp] theorem State.resetFall_eng (s : State) : (s.resetFall).eng = s.eng := rfl

@[simp] theorem State.usTick_pending (s : State) : (s.usTick).pending = s.pending := rfl

@[simp] theorem State.usTick_resetLow (s : State) : (s.usTick).resetLow = s.resetLow := rfl

@[simp] theorem State.usTick_mem (s : State) : (s.usTick).mem = s.mem := rfl

@[simp] theorem State.usTick_asm (s : State) : (s.usTick).asm = s.asm := rfl

@[simp] theorem State.usTick_fetch (s : State) : (s.usTick).fetch = s.fetch := rfl

@[simp] theorem State.usTick_ring (s : State) : (s.usTick).ring = s.ring := rfl

@[simp] theorem State.usTick_eng (s : State) : (s.usTick).eng = s.eng := rfl

@[simp] theorem State.msTick_pending (s : State) : (s.msTick).pending = s.pending := by
  unfold State.msTick
  extract_lets l; split <;> rfl

@[simp] theorem State.msTick_resetLow (s : State) : (s.msTick).resetLow = s.resetLow := by
  unfold State.msTick
  extract_lets l; split <;> rfl

@[simp] theorem State.msTick_mem (s : State) : (s.msTick).mem = s.mem := by
  unfold State.msTick
  extract_lets l; split <;> rfl

@[simp] theorem State.msTick_path (s : State) : (s.msTick).path = s.path := by
  unfold State.msTick
  extract_lets l; split <;> rfl

@[simp] theorem State.msTick_asm (s : State) : (s.msTick).asm = s.asm := by
  unfold State.msTick
  extract_lets l; split <;> rfl

@[simp] theorem State.msTick_fetch (s : State) : (s.msTick).fetch = s.fetch := by
  unfold State.msTick
  extract_lets l; split <;> rfl

@[simp] theorem State.msTick_ring (s : State) : (s.msTick).ring = s.ring := by
  unfold State.msTick
  extract_lets l; split <;> rfl

@[simp] theorem State.msTick_eng (s : State) : (s.msTick).eng = s.eng := by
  unfold State.msTick
  extract_lets l; split <;> rfl

@[simp] theorem State.servePart_pending (s : State) : (s.servePart).pending = s.pending := by
  unfold State.servePart
  (repeat' split) <;> simp

@[simp] theorem State.servePart_resetLow (s : State) : (s.servePart).resetLow = s.resetLow := by
  unfold State.servePart
  (repeat' split) <;> simp

@[simp] theorem State.servePart_mem (s : State) : (s.servePart).mem = s.mem := by
  unfold State.servePart
  (repeat' split) <;> simp

@[simp] theorem State.servePart_asm (s : State) : (s.servePart).asm = s.asm := by
  unfold State.servePart
  (repeat' split) <;> simp

@[simp] theorem State.servePart_clock (s : State) : (s.servePart).clock = s.clock := by
  unfold State.servePart
  (repeat' split) <;> simp

@[simp] theorem State.servePart_eng (s : State) : (s.servePart).eng = s.eng := by
  unfold State.servePart
  (repeat' split) <;> simp

@[simp] theorem State.arbitrate_pending (s : State) : (s.arbitrate).pending = s.pending := by
  unfold State.arbitrate
  (repeat' split) <;> simp

@[simp] theorem State.arbitrate_resetLow (s : State) : (s.arbitrate).resetLow = s.resetLow := by
  unfold State.arbitrate
  (repeat' split) <;> simp

@[simp] theorem State.arbitrate_mem (s : State) : (s.arbitrate).mem = s.mem := by
  unfold State.arbitrate
  (repeat' split) <;> simp

@[simp] theorem State.arbitrate_asm (s : State) : (s.arbitrate).asm = s.asm := by
  unfold State.arbitrate
  (repeat' split) <;> simp

@[simp] theorem State.arbitrate_clock (s : State) : (s.arbitrate).clock = s.clock := by
  unfold State.arbitrate
  (repeat' split) <;> simp

@[simp] theorem State.arbitrate_eng (s : State) : (s.arbitrate).eng = s.eng := by
  unfold State.arbitrate
  (repeat' split) <;> simp

@[simp] theorem State.freePort_pending (s : State) : (s.freePort).pending = s.pending := by
  unfold State.freePort
  simp

@[simp] theorem State.freePort_resetLow (s : State) : (s.freePort).resetLow = s.resetLow := by
  unfold State.freePort
  simp

@[simp] theorem State.freePort_mem (s : State) : (s.freePort).mem = s.mem := by
  unfold State.freePort
  simp

@[simp] theorem State.freePort_asm (s : State) : (s.freePort).asm = s.asm := by
  unfold State.freePort
  simp

@[simp] theorem State.freePort_clock (s : State) : (s.freePort).clock = s.clock := by
  unfold State.freePort
  simp

@[simp] theorem State.freePort_eng (s : State) : (s.freePort).eng = s.eng := by
  unfold State.freePort
  simp

@[simp] theorem State.forward_pending (s : State) (a : Access) : (s.forward a).pending = s.pending := by
  unfold State.forward
  simp

@[simp] theorem State.forward_resetLow (s : State) (a : Access) : (s.forward a).resetLow = s.resetLow := by
  unfold State.forward
  simp

@[simp] theorem State.forward_mem (s : State) (a : Access) : (s.forward a).mem = s.mem := by
  unfold State.forward
  simp

@[simp] theorem State.forward_asm (s : State) (a : Access) : (s.forward a).asm = s.asm := by
  unfold State.forward
  simp

@[simp] theorem State.forward_clock (s : State) (a : Access) : (s.forward a).clock = s.clock := by
  unfold State.forward
  simp

@[simp] theorem State.forward_eng (s : State) (a : Access) : (s.forward a).eng = s.eng := by
  unfold State.forward
  simp

@[simp] theorem State.issue_pending (s : State) (a : Access) : (s.issue a).pending = s.pending := by
  unfold State.issue
  simp

@[simp] theorem State.issue_resetLow (s : State) (a : Access) : (s.issue a).resetLow = s.resetLow := by
  unfold State.issue
  simp

@[simp] theorem State.issue_mem (s : State) (a : Access) : (s.issue a).mem = s.mem := by
  unfold State.issue
  simp

@[simp] theorem State.issue_asm (s : State) (a : Access) : (s.issue a).asm = s.asm := by
  unfold State.issue
  simp

@[simp] theorem State.issue_clock (s : State) (a : Access) : (s.issue a).clock = s.clock := by
  unfold State.issue
  simp

@[simp] theorem State.issue_eng (s : State) (a : Access) : (s.issue a).eng = s.eng := by
  unfold State.issue
  simp

@[simp] theorem State.staleCause_pending (s : State) (w : Fin 5) : (s.staleCause w).pending = s.pending := rfl

@[simp] theorem State.staleCause_resetLow (s : State) (w : Fin 5) : (s.staleCause w).resetLow = s.resetLow := rfl

@[simp] theorem State.staleCause_mem (s : State) (w : Fin 5) : (s.staleCause w).mem = s.mem := rfl

@[simp] theorem State.staleCause_path (s : State) (w : Fin 5) : (s.staleCause w).path = s.path := rfl

@[simp] theorem State.staleCause_clock (s : State) (w : Fin 5) : (s.staleCause w).clock = s.clock := rfl

@[simp] theorem State.staleCause_ring (s : State) (w : Fin 5) : (s.staleCause w).ring = s.ring := rfl

@[simp] theorem State.staleCause_eng (s : State) (w : Fin 5) : (s.staleCause w).eng = s.eng := rfl

@[simp] theorem State.makeStale_pending (s : State) (w : Fin 5) : (s.makeStale w).pending = s.pending := by
  unfold State.makeStale
  split <;> simp

@[simp] theorem State.makeStale_resetLow (s : State) (w : Fin 5) : (s.makeStale w).resetLow = s.resetLow := by
  unfold State.makeStale
  split <;> simp

@[simp] theorem State.makeStale_mem (s : State) (w : Fin 5) : (s.makeStale w).mem = s.mem := by
  unfold State.makeStale
  split <;> simp

@[simp] theorem State.makeStale_path (s : State) (w : Fin 5) : (s.makeStale w).path = s.path := by
  unfold State.makeStale
  split <;> simp

@[simp] theorem State.makeStale_clock (s : State) (w : Fin 5) : (s.makeStale w).clock = s.clock := by
  unfold State.makeStale
  split <;> simp

@[simp] theorem State.makeStale_ring (s : State) (w : Fin 5) : (s.makeStale w).ring = s.ring := by
  unfold State.makeStale
  split <;> simp

@[simp] theorem State.makeStale_eng (s : State) (w : Fin 5) : (s.makeStale w).eng = s.eng := by
  unfold State.makeStale
  split <;> simp

@[simp] theorem State.withdrawSweep_pending (s : State) (w : Fin 5) : (s.withdrawSweep w).pending = s.pending := rfl

@[simp] theorem State.withdrawSweep_resetLow (s : State) (w : Fin 5) : (s.withdrawSweep w).resetLow = s.resetLow := rfl

@[simp] theorem State.withdrawSweep_mem (s : State) (w : Fin 5) : (s.withdrawSweep w).mem = s.mem := rfl

@[simp] theorem State.withdrawSweep_clock (s : State) (w : Fin 5) : (s.withdrawSweep w).clock = s.clock := rfl

@[simp] theorem State.withdrawSweep_ring (s : State) (w : Fin 5) : (s.withdrawSweep w).ring = s.ring := rfl

@[simp] theorem State.withdrawSweep_eng (s : State) (w : Fin 5) : (s.withdrawSweep w).eng = s.eng := rfl

@[simp] theorem State.loseOn_pending (s : State) (items : List Item) (w : Fin 5) : (s.loseOn items w).pending = s.pending := by
  unfold State.loseOn
  (repeat' split) <;> simp

@[simp] theorem State.loseOn_resetLow (s : State) (items : List Item) (w : Fin 5) : (s.loseOn items w).resetLow = s.resetLow := by
  unfold State.loseOn
  (repeat' split) <;> simp

@[simp] theorem State.loseOn_mem (s : State) (items : List Item) (w : Fin 5) : (s.loseOn items w).mem = s.mem := by
  unfold State.loseOn
  (repeat' split) <;> simp

@[simp] theorem State.loseOn_path (s : State) (items : List Item) (w : Fin 5) : (s.loseOn items w).path = s.path := by
  unfold State.loseOn
  (repeat' split) <;> simp

@[simp] theorem State.loseOn_clock (s : State) (items : List Item) (w : Fin 5) : (s.loseOn items w).clock = s.clock := by
  unfold State.loseOn
  (repeat' split) <;> simp

@[simp] theorem State.loseOn_ring (s : State) (items : List Item) (w : Fin 5) : (s.loseOn items w).ring = s.ring := by
  unfold State.loseOn
  (repeat' split) <;> simp

@[simp] theorem State.takeWrite_pending (s : State) (a : Nat) (b : List Beat) : (s.takeWrite a b).pending = s.pending := by
  unfold State.takeWrite
  dsimp only; (repeat' split) <;> simp

@[simp] theorem State.takeWrite_resetLow (s : State) (a : Nat) (b : List Beat) : (s.takeWrite a b).resetLow = s.resetLow := by
  unfold State.takeWrite
  dsimp only; (repeat' split) <;> simp

@[simp] theorem State.takeWrite_mem (s : State) (a : Nat) (b : List Beat) : (s.takeWrite a b).mem = s.mem := by
  unfold State.takeWrite
  dsimp only; (repeat' split) <;> simp

@[simp] theorem State.takeWrite_asm (s : State) (a : Nat) (b : List Beat) : (s.takeWrite a b).asm = s.asm := by
  unfold State.takeWrite
  dsimp only; (repeat' split) <;> simp

@[simp] theorem State.takeWrite_clock (s : State) (a : Nat) (b : List Beat) : (s.takeWrite a b).clock = s.clock := by
  unfold State.takeWrite
  dsimp only; (repeat' split) <;> simp

@[simp] theorem State.takeWrite_eng (s : State) (a : Nat) (b : List Beat) : (s.takeWrite a b).eng = s.eng := by
  unfold State.takeWrite
  dsimp only; (repeat' split) <;> simp

@[simp] theorem State.takeRead_pending (s : State) (a n : Nat) : (s.takeRead a n).pending = s.pending := by
  unfold State.takeRead
  split <;> simp

@[simp] theorem State.takeRead_resetLow (s : State) (a n : Nat) : (s.takeRead a n).resetLow = s.resetLow := by
  unfold State.takeRead
  split <;> simp

@[simp] theorem State.takeRead_mem (s : State) (a n : Nat) : (s.takeRead a n).mem = s.mem := by
  unfold State.takeRead
  split <;> simp

@[simp] theorem State.takeRead_asm (s : State) (a n : Nat) : (s.takeRead a n).asm = s.asm := by
  unfold State.takeRead
  split <;> simp

@[simp] theorem State.takeRead_clock (s : State) (a n : Nat) : (s.takeRead a n).clock = s.clock := by
  unfold State.takeRead
  split <;> simp

@[simp] theorem State.takeRead_eng (s : State) (a n : Nat) : (s.takeRead a n).eng = s.eng := by
  unfold State.takeRead
  split <;> simp

@[simp] theorem State.writeDone_pending (s : State) (a : Nat) (b : List Beat) (i : List Item) : (s.writeDone a b i).pending = s.pending := rfl

@[simp] theorem State.writeDone_resetLow (s : State) (a : Nat) (b : List Beat) (i : List Item) : (s.writeDone a b i).resetLow = s.resetLow := rfl

@[simp] theorem State.writeDone_path (s : State) (a : Nat) (b : List Beat) (i : List Item) : (s.writeDone a b i).path = s.path := rfl

@[simp] theorem State.writeDone_clock (s : State) (a : Nat) (b : List Beat) (i : List Item) : (s.writeDone a b i).clock = s.clock := rfl

@[simp] theorem State.writeDone_ring (s : State) (a : Nat) (b : List Beat) (i : List Item) : (s.writeDone a b i).ring = s.ring := rfl

@[simp] theorem State.writeDone_eng (s : State) (a : Nat) (b : List Beat) (i : List Item) : (s.writeDone a b i).eng = s.eng := rfl

@[simp] theorem State.readDone_pending (s : State) (a n : Nat) : (s.readDone a n).pending = s.pending := rfl

@[simp] theorem State.readDone_resetLow (s : State) (a n : Nat) : (s.readDone a n).resetLow = s.resetLow := rfl

@[simp] theorem State.readDone_mem (s : State) (a n : Nat) : (s.readDone a n).mem = s.mem := rfl

@[simp] theorem State.readDone_asm (s : State) (a n : Nat) : (s.readDone a n).asm = s.asm := rfl

@[simp] theorem State.readDone_fetch (s : State) (a n : Nat) : (s.readDone a n).fetch = s.fetch := rfl

@[simp] theorem State.readDone_clock (s : State) (a n : Nat) : (s.readDone a n).clock = s.clock := rfl

@[simp] theorem State.readDone_eng (s : State) (a n : Nat) : (s.readDone a n).eng = s.eng := rfl

@[simp] theorem State.unhold_pending (s : State) (h : Held) (i : List Item) : (s.unhold h i).pending = s.pending := by
  unfold State.unhold
  simp

@[simp] theorem State.unhold_resetLow (s : State) (h : Held) (i : List Item) : (s.unhold h i).resetLow = s.resetLow := by
  unfold State.unhold
  simp

@[simp] theorem State.unhold_mem (s : State) (h : Held) (i : List Item) : (s.unhold h i).mem = s.mem := by
  unfold State.unhold
  simp

@[simp] theorem State.unhold_asm (s : State) (h : Held) (i : List Item) : (s.unhold h i).asm = s.asm := by
  unfold State.unhold
  simp

@[simp] theorem State.unhold_clock (s : State) (h : Held) (i : List Item) : (s.unhold h i).clock = s.clock := by
  unfold State.unhold
  simp

@[simp] theorem State.unhold_eng (s : State) (h : Held) (i : List Item) : (s.unhold h i).eng = s.eng := by
  unfold State.unhold
  simp

@[simp] theorem State.endSweep_pending (s : State) (x : SweepEnd) : (s.endSweep x).pending = s.pending := by
  unfold State.endSweep
  split <;> simp

@[simp] theorem State.endSweep_resetLow (s : State) (x : SweepEnd) : (s.endSweep x).resetLow = s.resetLow := by
  unfold State.endSweep
  split <;> simp

@[simp] theorem State.endSweep_mem (s : State) (x : SweepEnd) : (s.endSweep x).mem = s.mem := by
  unfold State.endSweep
  split <;> simp

@[simp] theorem State.endSweep_path (s : State) (x : SweepEnd) : (s.endSweep x).path = s.path := by
  unfold State.endSweep
  split <;> simp

@[simp] theorem State.endSweep_fetch (s : State) (x : SweepEnd) : (s.endSweep x).fetch = s.fetch := by
  unfold State.endSweep
  split <;> simp

@[simp] theorem State.endSweep_clock (s : State) (x : SweepEnd) : (s.endSweep x).clock = s.clock := by
  unfold State.endSweep
  split <;> simp

@[simp] theorem State.endSweep_ring (s : State) (x : SweepEnd) : (s.endSweep x).ring = s.ring := by
  unfold State.endSweep
  split <;> simp

@[simp] theorem State.intakeDrain_pending (s : State) : (s.intakeDrain).pending = s.pending := by
  unfold State.intakeDrain
  extract_lets l; split <;> rfl

@[simp] theorem State.intakeDrain_resetLow (s : State) : (s.intakeDrain).resetLow = s.resetLow := by
  unfold State.intakeDrain
  extract_lets l; split <;> rfl

@[simp] theorem State.intakeDrain_mem (s : State) : (s.intakeDrain).mem = s.mem := by
  unfold State.intakeDrain
  extract_lets l; split <;> rfl

@[simp] theorem State.intakeDrain_path (s : State) : (s.intakeDrain).path = s.path := by
  unfold State.intakeDrain
  extract_lets l; split <;> rfl

@[simp] theorem State.intakeDrain_fetch (s : State) : (s.intakeDrain).fetch = s.fetch := by
  unfold State.intakeDrain
  extract_lets l; split <;> rfl

@[simp] theorem State.intakeDrain_clock (s : State) : (s.intakeDrain).clock = s.clock := by
  unfold State.intakeDrain
  extract_lets l; split <;> rfl

@[simp] theorem State.intakeDrain_ring (s : State) : (s.intakeDrain).ring = s.ring := by
  unfold State.intakeDrain
  extract_lets l; split <;> rfl

@[simp] theorem State.intakeDrain_eng (s : State) : (s.intakeDrain).eng = s.eng := by
  unfold State.intakeDrain
  extract_lets l; split <;> rfl

@[simp] theorem State.sweepCompletion_pending (s : State) : (s.sweepCompletion).pending = s.pending := by
  unfold State.sweepCompletion
  (repeat' split) <;> simp

@[simp] theorem State.sweepCompletion_resetLow (s : State) : (s.sweepCompletion).resetLow = s.resetLow := by
  unfold State.sweepCompletion
  (repeat' split) <;> simp

@[simp] theorem State.sweepCompletion_mem (s : State) : (s.sweepCompletion).mem = s.mem := by
  unfold State.sweepCompletion
  (repeat' split) <;> simp

@[simp] theorem State.sweepCompletion_path (s : State) : (s.sweepCompletion).path = s.path := by
  unfold State.sweepCompletion
  (repeat' split) <;> simp

@[simp] theorem State.sweepCompletion_fetch (s : State) : (s.sweepCompletion).fetch = s.fetch := by
  unfold State.sweepCompletion
  (repeat' split) <;> simp

@[simp] theorem State.sweepCompletion_clock (s : State) : (s.sweepCompletion).clock = s.clock := by
  unfold State.sweepCompletion
  (repeat' split) <;> simp

@[simp] theorem State.sweepCompletion_ring (s : State) : (s.sweepCompletion).ring = s.ring := by
  unfold State.sweepCompletion
  (repeat' split) <;> simp

@[simp] theorem State.relocate_pending (s : State) (r : Rec4) : (s.relocate r).pending = s.pending := rfl

@[simp] theorem State.relocate_resetLow (s : State) (r : Rec4) : (s.relocate r).resetLow = s.resetLow := rfl

@[simp] theorem State.relocate_mem (s : State) (r : Rec4) : (s.relocate r).mem = s.mem := rfl

@[simp] theorem State.relocate_asm (s : State) (r : Rec4) : (s.relocate r).asm = s.asm := rfl

@[simp] theorem State.relocate_fetch (s : State) (r : Rec4) : (s.relocate r).fetch = s.fetch := rfl

@[simp] theorem State.relocate_clock (s : State) (r : Rec4) : (s.relocate r).clock = s.clock := rfl

@[simp] theorem State.relocate_eng (s : State) (r : Rec4) : (s.relocate r).eng = s.eng := rfl

@[simp] theorem State.clearWindow_pending (s : State) (w : Fin 5) : (s.clearWindow w).pending = s.pending := rfl

@[simp] theorem State.clearWindow_resetLow (s : State) (w : Fin 5) : (s.clearWindow w).resetLow = s.resetLow := rfl

@[simp] theorem State.clearWindow_mem (s : State) (w : Fin 5) : (s.clearWindow w).mem = s.mem := rfl

@[simp] theorem State.clearWindow_path (s : State) (w : Fin 5) : (s.clearWindow w).path = s.path := rfl

@[simp] theorem State.clearWindow_fetch (s : State) (w : Fin 5) : (s.clearWindow w).fetch = s.fetch := rfl

@[simp] theorem State.clearWindow_clock (s : State) (w : Fin 5) : (s.clearWindow w).clock = s.clock := rfl

@[simp] theorem State.clearWindow_ring (s : State) (w : Fin 5) : (s.clearWindow w).ring = s.ring := rfl

@[simp] theorem State.setWindow_pending (s : State) (w : Fin 5) (r : Rec4) : (s.setWindow w r).pending = s.pending := rfl

@[simp] theorem State.setWindow_resetLow (s : State) (w : Fin 5) (r : Rec4) : (s.setWindow w r).resetLow = s.resetLow := rfl

@[simp] theorem State.setWindow_mem (s : State) (w : Fin 5) (r : Rec4) : (s.setWindow w r).mem = s.mem := rfl

@[simp] theorem State.setWindow_asm (s : State) (w : Fin 5) (r : Rec4) : (s.setWindow w r).asm = s.asm := rfl

@[simp] theorem State.setWindow_fetch (s : State) (w : Fin 5) (r : Rec4) : (s.setWindow w r).fetch = s.fetch := rfl

@[simp] theorem State.setWindow_clock (s : State) (w : Fin 5) (r : Rec4) : (s.setWindow w r).clock = s.clock := rfl

@[simp] theorem State.setWindow_ring (s : State) (w : Fin 5) (r : Rec4) : (s.setWindow w r).ring = s.ring := rfl

@[simp] theorem State.setWindow_eng (s : State) (w : Fin 5) (r : Rec4) : (s.setWindow w r).eng = s.eng := rfl

@[simp] theorem State.dropEnds_pending (s : State) (w : Fin 5) : (s.dropEnds w).pending = s.pending := rfl

@[simp] theorem State.dropEnds_resetLow (s : State) (w : Fin 5) : (s.dropEnds w).resetLow = s.resetLow := rfl

@[simp] theorem State.dropEnds_mem (s : State) (w : Fin 5) : (s.dropEnds w).mem = s.mem := rfl

@[simp] theorem State.dropEnds_path (s : State) (w : Fin 5) : (s.dropEnds w).path = s.path := rfl

@[simp] theorem State.dropEnds_fetch (s : State) (w : Fin 5) : (s.dropEnds w).fetch = s.fetch := rfl

@[simp] theorem State.dropEnds_clock (s : State) (w : Fin 5) : (s.dropEnds w).clock = s.clock := rfl

@[simp] theorem State.dropEnds_ring (s : State) (w : Fin 5) : (s.dropEnds w).ring = s.ring := rfl

@[simp] theorem State.dropEnds_eng (s : State) (w : Fin 5) : (s.dropEnds w).eng = s.eng := rfl

@[simp] theorem State.quietSweep_pending (s : State) (w : Fin 5) : (s.quietSweep w).pending = s.pending := by
  unfold State.quietSweep
  split <;> simp

@[simp] theorem State.quietSweep_resetLow (s : State) (w : Fin 5) : (s.quietSweep w).resetLow = s.resetLow := by
  unfold State.quietSweep
  split <;> simp

@[simp] theorem State.quietSweep_mem (s : State) (w : Fin 5) : (s.quietSweep w).mem = s.mem := by
  unfold State.quietSweep
  split <;> simp

@[simp] theorem State.quietSweep_clock (s : State) (w : Fin 5) : (s.quietSweep w).clock = s.clock := by
  unfold State.quietSweep
  split <;> simp

@[simp] theorem State.quietSweep_ring (s : State) (w : Fin 5) : (s.quietSweep w).ring = s.ring := by
  unfold State.quietSweep
  split <;> simp

@[simp] theorem State.quietSweep_eng (s : State) (w : Fin 5) : (s.quietSweep w).eng = s.eng := by
  unfold State.quietSweep
  split <;> simp

@[simp] theorem State.rewindow_pending (s : State) (w : Fin 5) (r : Rec4) : (s.rewindow w r).pending = s.pending := by
  unfold State.rewindow
  (repeat' split) <;> simp

@[simp] theorem State.rewindow_resetLow (s : State) (w : Fin 5) (r : Rec4) : (s.rewindow w r).resetLow = s.resetLow := by
  unfold State.rewindow
  (repeat' split) <;> simp

@[simp] theorem State.rewindow_mem (s : State) (w : Fin 5) (r : Rec4) : (s.rewindow w r).mem = s.mem := by
  unfold State.rewindow
  (repeat' split) <;> simp

@[simp] theorem State.rewindow_clock (s : State) (w : Fin 5) (r : Rec4) : (s.rewindow w r).clock = s.clock := by
  unfold State.rewindow
  (repeat' split) <;> simp

@[simp] theorem State.rewindow_ring (s : State) (w : Fin 5) (r : Rec4) : (s.rewindow w r).ring = s.ring := by
  unfold State.rewindow
  (repeat' split) <;> simp

@[simp] theorem State.acceptDescriptor_pending (s : State) (w : Fin 5) (r : Rec4) : (s.acceptDescriptor w r).pending = s.pending := by
  unfold State.acceptDescriptor
  dsimp only; split <;> simp

@[simp] theorem State.acceptDescriptor_resetLow (s : State) (w : Fin 5) (r : Rec4) : (s.acceptDescriptor w r).resetLow = s.resetLow := by
  unfold State.acceptDescriptor
  dsimp only; split <;> simp

@[simp] theorem State.acceptDescriptor_mem (s : State) (w : Fin 5) (r : Rec4) : (s.acceptDescriptor w r).mem = s.mem := by
  unfold State.acceptDescriptor
  dsimp only; split <;> simp

@[simp] theorem State.acceptDescriptor_clock (s : State) (w : Fin 5) (r : Rec4) : (s.acceptDescriptor w r).clock = s.clock := by
  unfold State.acceptDescriptor
  dsimp only; split <;> simp

@[simp] theorem State.acceptDescriptor_ring (s : State) (w : Fin 5) (r : Rec4) : (s.acceptDescriptor w r).ring = s.ring := by
  unfold State.acceptDescriptor
  dsimp only; split <;> simp

@[simp] theorem State.acceptSettings_pending (s : State) (r : Rec8) : (s.acceptSettings r).pending = s.pending := rfl

@[simp] theorem State.acceptSettings_resetLow (s : State) (r : Rec8) : (s.acceptSettings r).resetLow = s.resetLow := rfl

@[simp] theorem State.acceptSettings_mem (s : State) (r : Rec8) : (s.acceptSettings r).mem = s.mem := rfl

@[simp] theorem State.acceptSettings_path (s : State) (r : Rec8) : (s.acceptSettings r).path = s.path := rfl

@[simp] theorem State.acceptSettings_fetch (s : State) (r : Rec8) : (s.acceptSettings r).fetch = s.fetch := rfl

@[simp] theorem State.acceptSettings_ring (s : State) (r : Rec8) : (s.acceptSettings r).ring = s.ring := rfl

@[simp] theorem State.acceptLanguage_pending (s : State) (l : Fin 16) (r : Rec4) : (s.acceptLanguage l r).pending = s.pending := by
  unfold State.acceptLanguage
  extract_lets l; split <;> rfl

@[simp] theorem State.acceptLanguage_resetLow (s : State) (l : Fin 16) (r : Rec4) : (s.acceptLanguage l r).resetLow = s.resetLow := by
  unfold State.acceptLanguage
  extract_lets l; split <;> rfl

@[simp] theorem State.acceptLanguage_mem (s : State) (l : Fin 16) (r : Rec4) : (s.acceptLanguage l r).mem = s.mem := by
  unfold State.acceptLanguage
  extract_lets l; split <;> rfl

@[simp] theorem State.acceptLanguage_path (s : State) (l : Fin 16) (r : Rec4) : (s.acceptLanguage l r).path = s.path := by
  unfold State.acceptLanguage
  extract_lets l; split <;> rfl

@[simp] theorem State.acceptLanguage_asm (s : State) (l : Fin 16) (r : Rec4) : (s.acceptLanguage l r).asm = s.asm := by
  unfold State.acceptLanguage
  extract_lets l; split <;> rfl

@[simp] theorem State.acceptLanguage_clock (s : State) (l : Fin 16) (r : Rec4) : (s.acceptLanguage l r).clock = s.clock := by
  unfold State.acceptLanguage
  extract_lets l; split <;> rfl

@[simp] theorem State.acceptLanguage_ring (s : State) (l : Fin 16) (r : Rec4) : (s.acceptLanguage l r).ring = s.ring := by
  unfold State.acceptLanguage
  extract_lets l; split <;> rfl

@[simp] theorem State.acceptRing_pending (s : State) (r : Rec4) : (s.acceptRing r).pending = s.pending := rfl

@[simp] theorem State.acceptRing_resetLow (s : State) (r : Rec4) : (s.acceptRing r).resetLow = s.resetLow := rfl

@[simp] theorem State.acceptRing_mem (s : State) (r : Rec4) : (s.acceptRing r).mem = s.mem := rfl

@[simp] theorem State.acceptRing_asm (s : State) (r : Rec4) : (s.acceptRing r).asm = s.asm := rfl

@[simp] theorem State.acceptRing_fetch (s : State) (r : Rec4) : (s.acceptRing r).fetch = s.fetch := rfl

@[simp] theorem State.acceptRing_clock (s : State) (r : Rec4) : (s.acceptRing r).clock = s.clock := rfl

@[simp] theorem State.acceptRing_eng (s : State) (r : Rec4) : (s.acceptRing r).eng = s.eng := rfl

@[simp] theorem State.restartFetch_pending (s : State) : (s.restartFetch).pending = s.pending := rfl

@[simp] theorem State.restartFetch_resetLow (s : State) : (s.restartFetch).resetLow = s.resetLow := rfl

@[simp] theorem State.restartFetch_mem (s : State) : (s.restartFetch).mem = s.mem := rfl

@[simp] theorem State.restartFetch_clock (s : State) : (s.restartFetch).clock = s.clock := rfl

@[simp] theorem State.restartFetch_ring (s : State) : (s.restartFetch).ring = s.ring := rfl

@[simp] theorem State.restartFetch_eng (s : State) : (s.restartFetch).eng = s.eng := rfl

@[simp] theorem State.beginLoad_pending (s : State) (a : Fin 8) (r : Rec4) : (s.beginLoad a r).pending = s.pending := rfl

@[simp] theorem State.beginLoad_resetLow (s : State) (a : Fin 8) (r : Rec4) : (s.beginLoad a r).resetLow = s.resetLow := rfl

@[simp] theorem State.beginLoad_mem (s : State) (a : Fin 8) (r : Rec4) : (s.beginLoad a r).mem = s.mem := rfl

@[simp] theorem State.beginLoad_asm (s : State) (a : Fin 8) (r : Rec4) : (s.beginLoad a r).asm = s.asm := rfl

@[simp] theorem State.beginLoad_clock (s : State) (a : Fin 8) (r : Rec4) : (s.beginLoad a r).clock = s.clock := rfl

@[simp] theorem State.beginLoad_ring (s : State) (a : Fin 8) (r : Rec4) : (s.beginLoad a r).ring = s.ring := rfl

@[simp] theorem State.beginLoad_eng (s : State) (a : Fin 8) (r : Rec4) : (s.beginLoad a r).eng = s.eng := rfl

@[simp] theorem State.sweep_pending (s : State) (r : Rec4) : (s.sweep r).pending = s.pending := by
  unfold State.sweep
  split <;> simp

@[simp] theorem State.sweep_resetLow (s : State) (r : Rec4) : (s.sweep r).resetLow = s.resetLow := by
  unfold State.sweep
  split <;> simp

@[simp] theorem State.sweep_mem (s : State) (r : Rec4) : (s.sweep r).mem = s.mem := by
  unfold State.sweep
  split <;> simp

@[simp] theorem State.sweep_path (s : State) (r : Rec4) : (s.sweep r).path = s.path := by
  unfold State.sweep
  split <;> simp

@[simp] theorem State.sweep_clock (s : State) (r : Rec4) : (s.sweep r).clock = s.clock := by
  unfold State.sweep
  split <;> simp

@[simp] theorem State.sweep_ring (s : State) (r : Rec4) : (s.sweep r).ring = s.ring := by
  unfold State.sweep
  split <;> simp

@[simp] theorem State.loadGlyphs_pending (s : State) (r : Rec4) : (s.loadGlyphs r).pending = s.pending := by
  unfold State.loadGlyphs
  split <;> simp

@[simp] theorem State.loadGlyphs_resetLow (s : State) (r : Rec4) : (s.loadGlyphs r).resetLow = s.resetLow := by
  unfold State.loadGlyphs
  split <;> simp

@[simp] theorem State.loadGlyphs_mem (s : State) (r : Rec4) : (s.loadGlyphs r).mem = s.mem := by
  unfold State.loadGlyphs
  split <;> simp

@[simp] theorem State.loadGlyphs_asm (s : State) (r : Rec4) : (s.loadGlyphs r).asm = s.asm := by
  unfold State.loadGlyphs
  split <;> simp

@[simp] theorem State.loadGlyphs_clock (s : State) (r : Rec4) : (s.loadGlyphs r).clock = s.clock := by
  unfold State.loadGlyphs
  split <;> simp

@[simp] theorem State.loadGlyphs_ring (s : State) (r : Rec4) : (s.loadGlyphs r).ring = s.ring := by
  unfold State.loadGlyphs
  split <;> simp

@[simp] theorem State.tellFilled_pending (s : State) (t : Option Tag) : (s.tellFilled t).pending = s.pending := by
  unfold State.tellFilled
  split <;> simp

@[simp] theorem State.tellFilled_resetLow (s : State) (t : Option Tag) : (s.tellFilled t).resetLow = s.resetLow := by
  unfold State.tellFilled
  split <;> simp

@[simp] theorem State.tellFilled_mem (s : State) (t : Option Tag) : (s.tellFilled t).mem = s.mem := by
  unfold State.tellFilled
  split <;> simp

@[simp] theorem State.tellFilled_path (s : State) (t : Option Tag) : (s.tellFilled t).path = s.path := by
  unfold State.tellFilled
  split <;> simp

@[simp] theorem State.tellFilled_asm (s : State) (t : Option Tag) : (s.tellFilled t).asm = s.asm := by
  unfold State.tellFilled
  split <;> simp

@[simp] theorem State.tellFilled_fetch (s : State) (t : Option Tag) : (s.tellFilled t).fetch = s.fetch := by
  unfold State.tellFilled
  split <;> simp

@[simp] theorem State.tellFilled_clock (s : State) (t : Option Tag) : (s.tellFilled t).clock = s.clock := by
  unfold State.tellFilled
  split <;> simp

@[simp] theorem State.tellFilled_ring (s : State) (t : Option Tag) : (s.tellFilled t).ring = s.ring := by
  unfold State.tellFilled
  split <;> simp

@[simp] theorem State.bankReady_pending (s : State) (a : Fin 8) (n : Nat) : (s.bankReady a n).pending = s.pending := rfl

@[simp] theorem State.bankReady_resetLow (s : State) (a : Fin 8) (n : Nat) : (s.bankReady a n).resetLow = s.resetLow := rfl

@[simp] theorem State.bankReady_mem (s : State) (a : Fin 8) (n : Nat) : (s.bankReady a n).mem = s.mem := rfl

@[simp] theorem State.bankReady_path (s : State) (a : Fin 8) (n : Nat) : (s.bankReady a n).path = s.path := rfl

@[simp] theorem State.bankReady_asm (s : State) (a : Fin 8) (n : Nat) : (s.bankReady a n).asm = s.asm := rfl

@[simp] theorem State.bankReady_fetch (s : State) (a : Fin 8) (n : Nat) : (s.bankReady a n).fetch = s.fetch := rfl

@[simp] theorem State.bankReady_clock (s : State) (a : Fin 8) (n : Nat) : (s.bankReady a n).clock = s.clock := rfl

@[simp] theorem State.bankReady_ring (s : State) (a : Fin 8) (n : Nat) : (s.bankReady a n).ring = s.ring := rfl

@[simp] theorem State.tellReady_pending (s : State) (x : Option (Fin 8 × Nat)) : (s.tellReady x).pending = s.pending := by
  unfold State.tellReady
  split <;> simp

@[simp] theorem State.tellReady_resetLow (s : State) (x : Option (Fin 8 × Nat)) : (s.tellReady x).resetLow = s.resetLow := by
  unfold State.tellReady
  split <;> simp

@[simp] theorem State.tellReady_mem (s : State) (x : Option (Fin 8 × Nat)) : (s.tellReady x).mem = s.mem := by
  unfold State.tellReady
  split <;> simp

@[simp] theorem State.tellReady_path (s : State) (x : Option (Fin 8 × Nat)) : (s.tellReady x).path = s.path := by
  unfold State.tellReady
  split <;> simp

@[simp] theorem State.tellReady_asm (s : State) (x : Option (Fin 8 × Nat)) : (s.tellReady x).asm = s.asm := by
  unfold State.tellReady
  split <;> simp

@[simp] theorem State.tellReady_fetch (s : State) (x : Option (Fin 8 × Nat)) : (s.tellReady x).fetch = s.fetch := by
  unfold State.tellReady
  split <;> simp

@[simp] theorem State.tellReady_clock (s : State) (x : Option (Fin 8 × Nat)) : (s.tellReady x).clock = s.clock := by
  unfold State.tellReady
  split <;> simp

@[simp] theorem State.tellReady_ring (s : State) (x : Option (Fin 8 × Nat)) : (s.tellReady x).ring = s.ring := by
  unfold State.tellReady
  split <;> simp

@[simp] theorem State.channelTake_pending (s : State) (ch : Fin 4) : (s.channelTake ch).pending = s.pending := by
  unfold State.channelTake
  split <;> simp

@[simp] theorem State.channelTake_resetLow (s : State) (ch : Fin 4) : (s.channelTake ch).resetLow = s.resetLow := by
  unfold State.channelTake
  split <;> simp

@[simp] theorem State.channelTake_mem (s : State) (ch : Fin 4) : (s.channelTake ch).mem = s.mem := by
  unfold State.channelTake
  split <;> simp

@[simp] theorem State.channelTake_asm (s : State) (ch : Fin 4) : (s.channelTake ch).asm = s.asm := by
  unfold State.channelTake
  split <;> simp

@[simp] theorem State.channelTake_clock (s : State) (ch : Fin 4) : (s.channelTake ch).clock = s.clock := by
  unfold State.channelTake
  split <;> simp

@[simp] theorem State.sweepReadIssue_pending (s : State) (ch : Fin 4) : (s.sweepReadIssue ch).pending = s.pending := by
  unfold State.sweepReadIssue
  (repeat' split) <;> simp

@[simp] theorem State.sweepReadIssue_resetLow (s : State) (ch : Fin 4) : (s.sweepReadIssue ch).resetLow = s.resetLow := by
  unfold State.sweepReadIssue
  (repeat' split) <;> simp

@[simp] theorem State.sweepReadIssue_mem (s : State) (ch : Fin 4) : (s.sweepReadIssue ch).mem = s.mem := by
  unfold State.sweepReadIssue
  (repeat' split) <;> simp

@[simp] theorem State.sweepReadIssue_asm (s : State) (ch : Fin 4) : (s.sweepReadIssue ch).asm = s.asm := by
  unfold State.sweepReadIssue
  (repeat' split) <;> simp

@[simp] theorem State.sweepReadIssue_clock (s : State) (ch : Fin 4) : (s.sweepReadIssue ch).clock = s.clock := by
  unfold State.sweepReadIssue
  (repeat' split) <;> simp

@[simp] theorem State.sweepReadIssue_eng (s : State) (ch : Fin 4) : (s.sweepReadIssue ch).eng = s.eng := by
  unfold State.sweepReadIssue
  (repeat' split) <;> simp

@[simp] theorem State.sweepReadEnd_pending (s : State) (w : Fin 5) : (s.sweepReadEnd w).pending = s.pending := by
  unfold State.sweepReadEnd
  (repeat' split) <;> simp

@[simp] theorem State.sweepReadEnd_resetLow (s : State) (w : Fin 5) : (s.sweepReadEnd w).resetLow = s.resetLow := by
  unfold State.sweepReadEnd
  (repeat' split) <;> simp

@[simp] theorem State.sweepReadEnd_mem (s : State) (w : Fin 5) : (s.sweepReadEnd w).mem = s.mem := by
  unfold State.sweepReadEnd
  (repeat' split) <;> simp

@[simp] theorem State.sweepReadEnd_path (s : State) (w : Fin 5) : (s.sweepReadEnd w).path = s.path := by
  unfold State.sweepReadEnd
  (repeat' split) <;> simp

@[simp] theorem State.sweepReadEnd_clock (s : State) (w : Fin 5) : (s.sweepReadEnd w).clock = s.clock := by
  unfold State.sweepReadEnd
  (repeat' split) <;> simp

@[simp] theorem State.sweepReadEnd_ring (s : State) (w : Fin 5) : (s.sweepReadEnd w).ring = s.ring := by
  unfold State.sweepReadEnd
  (repeat' split) <;> simp

@[simp] theorem State.sweepReadEnd_eng (s : State) (w : Fin 5) : (s.sweepReadEnd w).eng = s.eng := by
  unfold State.sweepReadEnd
  (repeat' split) <;> simp

@[simp] theorem State.sweepDelivered_pending (s : State) (r : SweepRead) : (s.sweepDelivered r).pending = s.pending := by
  unfold State.sweepDelivered
  split <;> simp

@[simp] theorem State.sweepDelivered_resetLow (s : State) (r : SweepRead) : (s.sweepDelivered r).resetLow = s.resetLow := by
  unfold State.sweepDelivered
  split <;> simp

@[simp] theorem State.sweepDelivered_mem (s : State) (r : SweepRead) : (s.sweepDelivered r).mem = s.mem := by
  unfold State.sweepDelivered
  split <;> simp

@[simp] theorem State.sweepDelivered_path (s : State) (r : SweepRead) : (s.sweepDelivered r).path = s.path := by
  unfold State.sweepDelivered
  split <;> simp

@[simp] theorem State.sweepDelivered_clock (s : State) (r : SweepRead) : (s.sweepDelivered r).clock = s.clock := by
  unfold State.sweepDelivered
  split <;> simp

@[simp] theorem State.sweepDelivered_ring (s : State) (r : SweepRead) : (s.sweepDelivered r).ring = s.ring := by
  unfold State.sweepDelivered
  split <;> simp

@[simp] theorem State.sweepDelivered_eng (s : State) (r : SweepRead) : (s.sweepDelivered r).eng = s.eng := by
  unfold State.sweepDelivered
  split <;> simp

@[simp] theorem State.textTransferComplete_pending (s : State) (ch : Fin 4) : (s.textTransferComplete ch).pending = s.pending := by
  unfold State.textTransferComplete
  simp

@[simp] theorem State.textTransferComplete_resetLow (s : State) (ch : Fin 4) : (s.textTransferComplete ch).resetLow = s.resetLow := by
  unfold State.textTransferComplete
  simp

@[simp] theorem State.textTransferComplete_mem (s : State) (ch : Fin 4) : (s.textTransferComplete ch).mem = s.mem := by
  unfold State.textTransferComplete
  simp

@[simp] theorem State.textTransferComplete_asm (s : State) (ch : Fin 4) : (s.textTransferComplete ch).asm = s.asm := by
  unfold State.textTransferComplete
  simp

@[simp] theorem State.textTransferComplete_clock (s : State) (ch : Fin 4) : (s.textTransferComplete ch).clock = s.clock := by
  unfold State.textTransferComplete
  simp

@[simp] theorem State.glyphTransferComplete_pending (s : State) (ch : Fin 4) : (s.glyphTransferComplete ch).pending = s.pending := by
  unfold State.glyphTransferComplete
  simp

@[simp] theorem State.glyphTransferComplete_resetLow (s : State) (ch : Fin 4) : (s.glyphTransferComplete ch).resetLow = s.resetLow := by
  unfold State.glyphTransferComplete
  simp

@[simp] theorem State.glyphTransferComplete_mem (s : State) (ch : Fin 4) : (s.glyphTransferComplete ch).mem = s.mem := by
  unfold State.glyphTransferComplete
  simp

@[simp] theorem State.glyphTransferComplete_asm (s : State) (ch : Fin 4) : (s.glyphTransferComplete ch).asm = s.asm := by
  unfold State.glyphTransferComplete
  simp

@[simp] theorem State.glyphTransferComplete_clock (s : State) (ch : Fin 4) : (s.glyphTransferComplete ch).clock = s.clock := by
  unfold State.glyphTransferComplete
  simp

@[simp] theorem State.fetchDelivered_pending (s : State) (ch : Fin 4) (a n : Nat) (d : Bool) : (s.fetchDelivered ch a n d).pending = s.pending := by
  unfold State.fetchDelivered
  split <;> simp

@[simp] theorem State.fetchDelivered_resetLow (s : State) (ch : Fin 4) (a n : Nat) (d : Bool) : (s.fetchDelivered ch a n d).resetLow = s.resetLow := by
  unfold State.fetchDelivered
  split <;> simp

@[simp] theorem State.fetchDelivered_mem (s : State) (ch : Fin 4) (a n : Nat) (d : Bool) : (s.fetchDelivered ch a n d).mem = s.mem := by
  unfold State.fetchDelivered
  split <;> simp

@[simp] theorem State.fetchDelivered_path (s : State) (ch : Fin 4) (a n : Nat) (d : Bool) : (s.fetchDelivered ch a n d).path = s.path := by
  unfold State.fetchDelivered
  split <;> simp

@[simp] theorem State.fetchDelivered_asm (s : State) (ch : Fin 4) (a n : Nat) (d : Bool) : (s.fetchDelivered ch a n d).asm = s.asm := by
  unfold State.fetchDelivered
  split <;> simp

@[simp] theorem State.fetchDelivered_clock (s : State) (ch : Fin 4) (a n : Nat) (d : Bool) : (s.fetchDelivered ch a n d).clock = s.clock := by
  unfold State.fetchDelivered
  split <;> simp

@[simp] theorem State.fetchDelivered_ring (s : State) (ch : Fin 4) (a n : Nat) (d : Bool) : (s.fetchDelivered ch a n d).ring = s.ring := by
  unfold State.fetchDelivered
  split <;> simp

@[simp] theorem State.fetchDelivered_eng (s : State) (ch : Fin 4) (a n : Nat) (d : Bool) : (s.fetchDelivered ch a n d).eng = s.eng := by
  unfold State.fetchDelivered
  split <;> simp

@[simp] theorem State.outSlot_pending (s : State) (n : Fin 8) : (s.outSlot n).pending = s.pending := by
  unfold State.outSlot
  extract_lets l; split <;> rfl

@[simp] theorem State.outSlot_resetLow (s : State) (n : Fin 8) : (s.outSlot n).resetLow = s.resetLow := by
  unfold State.outSlot
  extract_lets l; split <;> rfl

@[simp] theorem State.outSlot_mem (s : State) (n : Fin 8) : (s.outSlot n).mem = s.mem := by
  unfold State.outSlot
  extract_lets l; split <;> rfl

@[simp] theorem State.outSlot_path (s : State) (n : Fin 8) : (s.outSlot n).path = s.path := by
  unfold State.outSlot
  extract_lets l; split <;> rfl

@[simp] theorem State.outSlot_asm (s : State) (n : Fin 8) : (s.outSlot n).asm = s.asm := by
  unfold State.outSlot
  extract_lets l; split <;> rfl

@[simp] theorem State.outSlot_clock (s : State) (n : Fin 8) : (s.outSlot n).clock = s.clock := by
  unfold State.outSlot
  extract_lets l; split <;> rfl

@[simp] theorem State.outSlot_ring (s : State) (n : Fin 8) : (s.outSlot n).ring = s.ring := by
  unfold State.outSlot
  extract_lets l; split <;> rfl

@[simp] theorem State.frameComplete_pending (s : State) (n : Fin 8) : (s.frameComplete n).pending = s.pending := by
  unfold State.frameComplete
  split <;> simp

@[simp] theorem State.frameComplete_resetLow (s : State) (n : Fin 8) : (s.frameComplete n).resetLow = s.resetLow := by
  unfold State.frameComplete
  split <;> simp

@[simp] theorem State.frameComplete_mem (s : State) (n : Fin 8) : (s.frameComplete n).mem = s.mem := by
  unfold State.frameComplete
  split <;> simp

@[simp] theorem State.frameComplete_path (s : State) (n : Fin 8) : (s.frameComplete n).path = s.path := by
  unfold State.frameComplete
  split <;> simp

@[simp] theorem State.frameComplete_asm (s : State) (n : Fin 8) : (s.frameComplete n).asm = s.asm := by
  unfold State.frameComplete
  split <;> simp

@[simp] theorem State.frameComplete_fetch (s : State) (n : Fin 8) : (s.frameComplete n).fetch = s.fetch := by
  unfold State.frameComplete
  split <;> simp

@[simp] theorem State.frameComplete_clock (s : State) (n : Fin 8) : (s.frameComplete n).clock = s.clock := by
  unfold State.frameComplete
  split <;> simp

@[simp] theorem State.frameComplete_ring (s : State) (n : Fin 8) : (s.frameComplete n).ring = s.ring := by
  unfold State.frameComplete
  split <;> simp

@[simp] theorem State.abortBlockSent_pending (s : State) (n : Fin 8) : (s.abortBlockSent n).pending = s.pending := by
  unfold State.abortBlockSent
  split <;> simp

@[simp] theorem State.abortBlockSent_resetLow (s : State) (n : Fin 8) : (s.abortBlockSent n).resetLow = s.resetLow := by
  unfold State.abortBlockSent
  split <;> simp

@[simp] theorem State.abortBlockSent_mem (s : State) (n : Fin 8) : (s.abortBlockSent n).mem = s.mem := by
  unfold State.abortBlockSent
  split <;> simp

@[simp] theorem State.abortBlockSent_path (s : State) (n : Fin 8) : (s.abortBlockSent n).path = s.path := by
  unfold State.abortBlockSent
  split <;> simp

@[simp] theorem State.abortBlockSent_asm (s : State) (n : Fin 8) : (s.abortBlockSent n).asm = s.asm := by
  unfold State.abortBlockSent
  split <;> simp

@[simp] theorem State.abortBlockSent_fetch (s : State) (n : Fin 8) : (s.abortBlockSent n).fetch = s.fetch := by
  unfold State.abortBlockSent
  split <;> simp

@[simp] theorem State.abortBlockSent_clock (s : State) (n : Fin 8) : (s.abortBlockSent n).clock = s.clock := by
  unfold State.abortBlockSent
  split <;> simp

@[simp] theorem State.abortBlockSent_ring (s : State) (n : Fin 8) : (s.abortBlockSent n).ring = s.ring := by
  unfold State.abortBlockSent
  split <;> simp

@[simp] theorem State.statusAnswer_pending (s : State) (n : Fin 8) (h : List LinkChar) : (s.statusAnswer n h).pending = s.pending := by
  unfold State.statusAnswer
  (repeat' split) <;> simp

@[simp] theorem State.statusAnswer_resetLow (s : State) (n : Fin 8) (h : List LinkChar) : (s.statusAnswer n h).resetLow = s.resetLow := by
  unfold State.statusAnswer
  (repeat' split) <;> simp

@[simp] theorem State.statusAnswer_mem (s : State) (n : Fin 8) (h : List LinkChar) : (s.statusAnswer n h).mem = s.mem := by
  unfold State.statusAnswer
  (repeat' split) <;> simp

@[simp] theorem State.statusAnswer_path (s : State) (n : Fin 8) (h : List LinkChar) : (s.statusAnswer n h).path = s.path := by
  unfold State.statusAnswer
  (repeat' split) <;> simp

@[simp] theorem State.statusAnswer_asm (s : State) (n : Fin 8) (h : List LinkChar) : (s.statusAnswer n h).asm = s.asm := by
  unfold State.statusAnswer
  (repeat' split) <;> simp

@[simp] theorem State.statusAnswer_fetch (s : State) (n : Fin 8) (h : List LinkChar) : (s.statusAnswer n h).fetch = s.fetch := by
  unfold State.statusAnswer
  (repeat' split) <;> simp

@[simp] theorem State.statusAnswer_clock (s : State) (n : Fin 8) (h : List LinkChar) : (s.statusAnswer n h).clock = s.clock := by
  unfold State.statusAnswer
  (repeat' split) <;> simp

@[simp] theorem State.statusAnswer_ring (s : State) (n : Fin 8) (h : List LinkChar) : (s.statusAnswer n h).ring = s.ring := by
  unfold State.statusAnswer
  (repeat' split) <;> simp

@[simp] theorem State.entryAnswer_pending (s : State) (n : Fin 8) (h : List LinkChar) : (s.entryAnswer n h).pending = s.pending := by
  unfold State.entryAnswer
  (repeat' split) <;> simp

@[simp] theorem State.entryAnswer_resetLow (s : State) (n : Fin 8) (h : List LinkChar) : (s.entryAnswer n h).resetLow = s.resetLow := by
  unfold State.entryAnswer
  (repeat' split) <;> simp

@[simp] theorem State.entryAnswer_mem (s : State) (n : Fin 8) (h : List LinkChar) : (s.entryAnswer n h).mem = s.mem := by
  unfold State.entryAnswer
  (repeat' split) <;> simp

@[simp] theorem State.entryAnswer_path (s : State) (n : Fin 8) (h : List LinkChar) : (s.entryAnswer n h).path = s.path := by
  unfold State.entryAnswer
  (repeat' split) <;> simp

@[simp] theorem State.entryAnswer_asm (s : State) (n : Fin 8) (h : List LinkChar) : (s.entryAnswer n h).asm = s.asm := by
  unfold State.entryAnswer
  (repeat' split) <;> simp

@[simp] theorem State.entryAnswer_fetch (s : State) (n : Fin 8) (h : List LinkChar) : (s.entryAnswer n h).fetch = s.fetch := by
  unfold State.entryAnswer
  (repeat' split) <;> simp

@[simp] theorem State.entryAnswer_clock (s : State) (n : Fin 8) (h : List LinkChar) : (s.entryAnswer n h).clock = s.clock := by
  unfold State.entryAnswer
  (repeat' split) <;> simp

@[simp] theorem State.entryAnswer_ring (s : State) (n : Fin 8) (h : List LinkChar) : (s.entryAnswer n h).ring = s.ring := by
  unfold State.entryAnswer
  (repeat' split) <;> simp

@[simp] theorem State.inSlotMiss_pending (s : State) (n : Fin 8) (h : List LinkChar) : (s.inSlotMiss n h).pending = s.pending := by
  unfold State.inSlotMiss
  (repeat' split) <;> simp

@[simp] theorem State.inSlotMiss_resetLow (s : State) (n : Fin 8) (h : List LinkChar) : (s.inSlotMiss n h).resetLow = s.resetLow := by
  unfold State.inSlotMiss
  (repeat' split) <;> simp

@[simp] theorem State.inSlotMiss_mem (s : State) (n : Fin 8) (h : List LinkChar) : (s.inSlotMiss n h).mem = s.mem := by
  unfold State.inSlotMiss
  (repeat' split) <;> simp

@[simp] theorem State.inSlotMiss_path (s : State) (n : Fin 8) (h : List LinkChar) : (s.inSlotMiss n h).path = s.path := by
  unfold State.inSlotMiss
  (repeat' split) <;> simp

@[simp] theorem State.inSlotMiss_asm (s : State) (n : Fin 8) (h : List LinkChar) : (s.inSlotMiss n h).asm = s.asm := by
  unfold State.inSlotMiss
  (repeat' split) <;> simp

@[simp] theorem State.inSlotMiss_fetch (s : State) (n : Fin 8) (h : List LinkChar) : (s.inSlotMiss n h).fetch = s.fetch := by
  unfold State.inSlotMiss
  (repeat' split) <;> simp

@[simp] theorem State.inSlotMiss_clock (s : State) (n : Fin 8) (h : List LinkChar) : (s.inSlotMiss n h).clock = s.clock := by
  unfold State.inSlotMiss
  (repeat' split) <;> simp

@[simp] theorem State.inSlotMiss_ring (s : State) (n : Fin 8) (h : List LinkChar) : (s.inSlotMiss n h).ring = s.ring := by
  unfold State.inSlotMiss
  (repeat' split) <;> simp

@[simp] theorem State.slotAdvance_pending (s : State) (n : Fin 8) : (s.slotAdvance n).pending = s.pending := by
  unfold State.slotAdvance
  split <;> simp

@[simp] theorem State.slotAdvance_resetLow (s : State) (n : Fin 8) : (s.slotAdvance n).resetLow = s.resetLow := by
  unfold State.slotAdvance
  split <;> simp

@[simp] theorem State.slotAdvance_mem (s : State) (n : Fin 8) : (s.slotAdvance n).mem = s.mem := by
  unfold State.slotAdvance
  split <;> simp

@[simp] theorem State.slotAdvance_path (s : State) (n : Fin 8) : (s.slotAdvance n).path = s.path := by
  unfold State.slotAdvance
  split <;> simp

@[simp] theorem State.slotAdvance_asm (s : State) (n : Fin 8) : (s.slotAdvance n).asm = s.asm := by
  unfold State.slotAdvance
  split <;> simp

@[simp] theorem State.slotAdvance_fetch (s : State) (n : Fin 8) : (s.slotAdvance n).fetch = s.fetch := by
  unfold State.slotAdvance
  split <;> simp

@[simp] theorem State.slotAdvance_clock (s : State) (n : Fin 8) : (s.slotAdvance n).clock = s.clock := by
  unfold State.slotAdvance
  split <;> simp

@[simp] theorem State.slotAdvance_ring (s : State) (n : Fin 8) : (s.slotAdvance n).ring = s.ring := by
  unfold State.slotAdvance
  split <;> simp

@[simp] theorem State.deliver_pending (s : State) (k : PlaceKind) (act : Ambient → Engines → TimerPlace → Engines) : (s.deliver k act).pending = s.pending := by
  unfold State.deliver
  split <;> simp

@[simp] theorem State.deliver_resetLow (s : State) (k : PlaceKind) (act : Ambient → Engines → TimerPlace → Engines) : (s.deliver k act).resetLow = s.resetLow := by
  unfold State.deliver
  split <;> simp

@[simp] theorem State.deliver_mem (s : State) (k : PlaceKind) (act : Ambient → Engines → TimerPlace → Engines) : (s.deliver k act).mem = s.mem := by
  unfold State.deliver
  split <;> simp

@[simp] theorem State.deliver_path (s : State) (k : PlaceKind) (act : Ambient → Engines → TimerPlace → Engines) : (s.deliver k act).path = s.path := by
  unfold State.deliver
  split <;> simp

@[simp] theorem State.deliver_asm (s : State) (k : PlaceKind) (act : Ambient → Engines → TimerPlace → Engines) : (s.deliver k act).asm = s.asm := by
  unfold State.deliver
  split <;> simp

@[simp] theorem State.deliver_fetch (s : State) (k : PlaceKind) (act : Ambient → Engines → TimerPlace → Engines) : (s.deliver k act).fetch = s.fetch := by
  unfold State.deliver
  split <;> simp

@[simp] theorem State.deliver_clock (s : State) (k : PlaceKind) (act : Ambient → Engines → TimerPlace → Engines) : (s.deliver k act).clock = s.clock := by
  unfold State.deliver
  split <;> simp

@[simp] theorem State.deliver_ring (s : State) (k : PlaceKind) (act : Ambient → Engines → TimerPlace → Engines) : (s.deliver k act).ring = s.ring := by
  unfold State.deliver
  split <;> simp

@[simp] theorem State.countReport_pending (s : State) (a : Nat) : (s.countReport a).pending = s.pending := rfl

@[simp] theorem State.countReport_resetLow (s : State) (a : Nat) : (s.countReport a).resetLow = s.resetLow := rfl

@[simp] theorem State.countReport_mem (s : State) (a : Nat) : (s.countReport a).mem = s.mem := rfl

@[simp] theorem State.countReport_path (s : State) (a : Nat) : (s.countReport a).path = s.path := rfl

@[simp] theorem State.countReport_asm (s : State) (a : Nat) : (s.countReport a).asm = s.asm := rfl

@[simp] theorem State.countReport_fetch (s : State) (a : Nat) : (s.countReport a).fetch = s.fetch := rfl

@[simp] theorem State.countReport_clock (s : State) (a : Nat) : (s.countReport a).clock = s.clock := rfl

@[simp] theorem State.partWrite_pending (s : State) (a : Nat) (w : List Word) : (s.partWrite a w).pending = s.pending := rfl

@[simp] theorem State.partWrite_resetLow (s : State) (a : Nat) (w : List Word) : (s.partWrite a w).resetLow = s.resetLow := rfl

@[simp] theorem State.partWrite_path (s : State) (a : Nat) (w : List Word) : (s.partWrite a w).path = s.path := rfl

@[simp] theorem State.partWrite_asm (s : State) (a : Nat) (w : List Word) : (s.partWrite a w).asm = s.asm := rfl

@[simp] theorem State.partWrite_fetch (s : State) (a : Nat) (w : List Word) : (s.partWrite a w).fetch = s.fetch := rfl

@[simp] theorem State.partWrite_clock (s : State) (a : Nat) (w : List Word) : (s.partWrite a w).clock = s.clock := rfl

@[simp] theorem State.partWrite_ring (s : State) (a : Nat) (w : List Word) : (s.partWrite a w).ring = s.ring := rfl

@[simp] theorem State.partWrite_eng (s : State) (a : Nat) (w : List Word) : (s.partWrite a w).eng = s.eng := rfl

@[simp] theorem State.reportIssue_pending (s : State) : (s.reportIssue).pending = s.pending := by
  unfold State.reportIssue
  (repeat' split) <;> simp

@[simp] theorem State.reportIssue_resetLow (s : State) : (s.reportIssue).resetLow = s.resetLow := by
  unfold State.reportIssue
  (repeat' split) <;> simp

@[simp] theorem State.reportIssue_mem (s : State) : (s.reportIssue).mem = s.mem := by
  unfold State.reportIssue
  (repeat' split) <;> simp

@[simp] theorem State.reportIssue_asm (s : State) : (s.reportIssue).asm = s.asm := by
  unfold State.reportIssue
  (repeat' split) <;> simp

@[simp] theorem State.reportIssue_clock (s : State) : (s.reportIssue).clock = s.clock := by
  unfold State.reportIssue
  (repeat' split) <;> simp

@[simp] theorem State.reportIssue_eng (s : State) : (s.reportIssue).eng = s.eng := by
  unfold State.reportIssue
  (repeat' split) <;> simp

@[simp] theorem State.mirrorIssue_pending (s : State) : (s.mirrorIssue).pending = s.pending := by
  unfold State.mirrorIssue
  split <;> simp

@[simp] theorem State.mirrorIssue_resetLow (s : State) : (s.mirrorIssue).resetLow = s.resetLow := by
  unfold State.mirrorIssue
  split <;> simp

@[simp] theorem State.mirrorIssue_mem (s : State) : (s.mirrorIssue).mem = s.mem := by
  unfold State.mirrorIssue
  split <;> simp

@[simp] theorem State.mirrorIssue_asm (s : State) : (s.mirrorIssue).asm = s.asm := by
  unfold State.mirrorIssue
  split <;> simp

@[simp] theorem State.mirrorIssue_clock (s : State) : (s.mirrorIssue).clock = s.clock := by
  unfold State.mirrorIssue
  split <;> simp

@[simp] theorem State.mirrorIssue_eng (s : State) : (s.mirrorIssue).eng = s.eng := by
  unfold State.mirrorIssue
  split <;> simp

end Sys2Proof.Machine
end

