-- ==== Sys2Proof/Laws/PathSafe.lean ====
section
/-! SUPPORT. What the downstream arbiter does, and that each action of the part keeps the bookkeeping of the memory
path. -/

namespace Sys2Proof.Machine

/-! ## The arbiter (R161) -/

/-- The part's own side is served from the Report Writer's queue first, then from the reads of the channels. -/
theorem State.servePart_cases (s : State) :
    (∃ a rest, s.ring.waiting = a :: rest ∧
      s.servePart = { s with
        path := { s.path with port := some a, passOver := 0 }, ring := { s.ring with waiting := rest } }) ∨
    (∃ a, s.ring.waiting = [] ∧ a ∈ s.fetch.reads ∧
      s.servePart = { s with path := { s.path with port := some a, passOver := 0 }, fetch := s.fetch.served a }) ∨
    s.servePart = s := by
  unfold State.servePart
  split
  · rename_i a rest h; exact .inl ⟨a, rest, h, rfl⟩
  · rename_i h
    split
    · rename_i a rest h'
      exact .inr (.inl ⟨a, h, by rw [h']; exact List.mem_cons_self, rfl⟩)
    · exact .inr (.inr rfl)

/-- The arbiter serves the host's transaction, serves the part's own side, or leaves things as they are. -/
theorem State.arbitrate_cases (s : State) :
    (∃ a n, s.path.port = none ∧ s.path.waiting = some a ∧
      (n = s.path.passOver ∨ (s.path.passOver < Config.passOverLimit ∧ n = s.path.passOver + 1)) ∧
      s.arbitrate = { s with path := { s.path with port := some a, waiting := none, passOver := n } }) ∨
    (s.path.port = none ∧ s.arbitrate = s.servePart) ∨ s.arbitrate = s := by
  unfold State.arbitrate
  split
  · exact .inr (.inr rfl)
  · rename_i hp hw; exact .inr (.inl ⟨hp, rfl⟩)
  · rename_i a hp hw
    split
    · split
      · rename_i hlt
        exact .inl ⟨a, _, hp, hw, .inr ⟨hlt, rfl⟩, rfl⟩
      · exact .inr (.inl ⟨hp, rfl⟩)
    · exact .inl ⟨a, _, hp, hw, .inl rfl, rfl⟩

/-- What the fetch side offers is an issued sweep read, or a read burst of a text or glyph channel. -/
theorem FetchUnit.reads_cases (f : FetchUnit) {a : Access} (h : a ∈ f.reads) :
    (∃ r, a = .sweepRead r ∧ r ∈ f.sweepReads) ∨ (∃ ch addr n, a = .fetchRead ch addr n false) := by
  have hch : ∀ ch, f.channelRead ch = some a → ∃ ch addr n, a = .fetchRead ch addr n false := by
    intro ch hc
    unfold FetchUnit.channelRead at hc
    repeat' split at hc
    all_goals first | (cases hc; exact ⟨_, _, _, rfl⟩) | cases hc
  unfold FetchUnit.reads at h
  rcases List.mem_append.1 h with h | h
  · obtain ⟨r, hr, rfl⟩ := List.mem_map.1 h
    exact .inl ⟨r, rfl, (List.mem_filter.1 hr).1⟩
  · obtain ⟨q, -, hq⟩ := List.mem_flatMap.1 h
    cases q with
    | sweep w m =>
      obtain ⟨r, hr, rfl⟩ := List.mem_map.1 hq
      exact .inl ⟨r, rfl, (List.mem_filter.1 hr).1⟩
    | text t =>
      obtain ⟨ch, -, hc⟩ := List.mem_filterMap.1 hq
      exact .inr (hch ch hc)
    | glyph b s p c g =>
      obtain ⟨ch, -, hc⟩ := List.mem_filterMap.1 hq
      exact .inr (hch ch hc)

theorem sum_erase_le (l : List SweepRead) (r : SweepRead) (h : r ∈ l) :
    r.count + ((l.erase r).map SweepRead.count).sum = (l.map SweepRead.count).sum := by
  induction l with
  | nil => cases h
  | cons x xs ih =>
    by_cases hx : x = r
    · subst hx; simp
    · rw [List.erase_cons_tail (by simpa using hx)]
      have := ih ((List.mem_cons.1 h).resolve_left (fun h => hx h.symm))
      simp only [List.map_cons, List.sum_cons]
      omega

theorem promisedOpt_none : promisedOpt none = 0 := rfl

/-- Serving the fetch side promises no place anew. -/
theorem FetchUnit.served_promised (f : FetchUnit) {a : Access} (h : a ∈ f.reads) :
    a.promised + ((f.served a).sweepReads.map SweepRead.count).sum ≤ (f.sweepReads.map SweepRead.count).sum := by
  rcases f.reads_cases h with ⟨r, rfl, hr⟩ | ⟨ch, addr, n, rfl⟩
  · have := sum_erase_le f.sweepReads r hr
    simp only [Access.promised, FetchUnit.served]
    split <;> omega
  · simp [Access.promised, FetchUnit.served]

/-- The arbiter promises no place anew. -/
theorem State.arbitrate_promised (s : State) (h : ∀ a ∈ s.ring.waiting, a.isOwnWrite = true) :
    s.arbitrate.promised ≤ s.promised := by
  have hown : ∀ a : Access, a.isOwnWrite = true → a.promised = 0 := by
    intro a ha; cases a <;> first | rfl | cases ha
  rcases s.arbitrate_cases with ⟨a, n, hp, hw, -, e⟩ | ⟨hp, e⟩ | e
  · rw [e]; simp only [State.promised, hp, hw]; simp [promisedOpt]
  · rw [e]
    rcases s.servePart_cases with ⟨a, rest, hr, e'⟩ | ⟨a, -, hm, e'⟩ | e'
    · rw [e']
      have := hown a (h a (by rw [hr]; exact List.mem_cons_self))
      simp only [State.promised, hp, promisedOpt]
      omega
    · rw [e']
      have := s.fetch.served_promised hm
      simp only [State.promised, hp, promisedOpt]
      omega
    · exact Nat.le_of_eq (by rw [e'])
  · exact Nat.le_of_eq (by rw [e])

/-! ## The bookkeeping -/

namespace State.PathSafe

/-- What is promised may fall, the rest stands. -/
theorem mono {s t : State} (h : s.PathSafe) (hw : t.path.waiting = s.path.waiting)
    (hh : t.path.held ≠ none → s.path.held ≠ none ∨ s.path.waiting = none) (hr : t.ring.waiting = s.ring.waiting)
    (hp : t.asm.intake.length + t.promised ≤ s.asm.intake.length + s.promised)
    (hn : t.path.passOver = s.path.passOver) : t.PathSafe :=
  ⟨by rw [hw]; exact h.host, fun hd => by rw [hw]; exact (hh hd).elim h.alone id, by rw [hr]; exact h.own, Nat.le_trans hp h.room, by rw [hn]; exact h.passOver⟩

/-- An action that leaves the path, the intake queue and the issued reads alone. -/
theorem same {s t : State} (h : s.PathSafe) (hp : t.path = s.path) (hr : t.ring.waiting = s.ring.waiting)
    (hi : t.asm.intake = s.asm.intake) (hf : t.fetch.sweepReads = s.fetch.sweepReads) : t.PathSafe :=
  h.mono (by rw [hp]) (fun hd => .inl (by rw [← hp]; exact hd)) hr (by simp only [State.promised]; exact Nat.le_of_eq (by rw [hp, hi, hf])) (by rw [hp])

theorem servePart {s : State} (h : s.PathSafe) (hport : s.path.port = none) : s.servePart.PathSafe := by
  have hown : ∀ a : Access, a.isOwnWrite = true → a.promised = 0 := by
    intro a ha; cases a <;> first | rfl | cases ha
  have hroom := h.room
  rcases s.servePart_cases with ⟨a, rest, hr, e⟩ | ⟨a, hr, hm, e⟩ | e
  · have h0 := hown a (h.own a (by rw [hr]; exact List.mem_cons_self))
    rw [e]
    refine ⟨h.host, h.alone, fun b hb => h.own b (by rw [hr]; exact List.mem_cons_of_mem _ hb), ?_, Nat.zero_le _⟩
    simp only [State.promised, hport, promisedOpt] at hroom ⊢
    omega
  · have := s.fetch.served_promised hm
    rw [e]
    refine ⟨h.host, h.alone, h.own, ?_, Nat.zero_le _⟩
    simp only [State.promised, hport, promisedOpt] at hroom ⊢
    omega
  · rw [e]; exact h

theorem arbitrate {s : State} (h : s.PathSafe) : s.arbitrate.PathSafe := by
  rcases s.arbitrate_cases with ⟨a, n, hp, hw, hn, e⟩ | ⟨hp, e⟩ | e
  · rw [e]
    refine ⟨fun b hb => (by cases hb), fun _ => rfl, h.own, ?_, ?_⟩
    · have := h.room
      simp only [State.promised, hp, hw, promisedOpt] at this ⊢
      omega
    · have := h.passOver
      rcases hn with rfl | ⟨hlt, rfl⟩
      · exact this
      · exact hlt
  · rw [e]; exact h.servePart hp
  · rw [e]; exact h

theorem freePort {s : State} (h : s.PathSafe) : s.freePort.PathSafe :=
  arbitrate (h.mono rfl .inl rfl (by simp only [State.promised, promisedOpt]; omega) rfl)

/-- A host transaction is handed to the arbiter with the places it needs. -/
theorem forward {s : State} (h : s.PathSafe) (a : Access) (ha : a.isHost = true) (hh : s.path.held = none)
    (hn : s.asm.intake.length + s.promised + a.promised ≤ Config.intakePlaces) : (s.forward a).PathSafe := by
  apply arbitrate
  refine ⟨fun b hb => (by cases hb; exact ha), fun hd => absurd hh hd, h.own, ?_, h.passOver⟩
  simp only [State.promised, promisedOpt] at hn ⊢
  omega

/-- A write of the Report Writer joins its queue. -/
theorem issue {s : State} (h : s.PathSafe) (a : Access) (ha : a.isOwnWrite = true) : (s.issue a).PathSafe := by
  apply arbitrate
  refine ⟨h.host, h.alone, ?_, h.room, h.passOver⟩
  intro b hb
  rcases List.mem_append.1 hb with hb | hb
  · exact h.own b hb
  · rw [List.mem_singleton.1 hb]; exact ha

theorem engines {s : State} (h : s.PathSafe) (f : Ambient → Engines → Engines) : (s.engines f).PathSafe :=
  h.same rfl rfl rfl rfl

theorem report {s : State} (h : s.PathSafe) (ev : Event) : (s.report ev).PathSafe := h.same rfl rfl rfl rfl

theorem handedOver {s : State} (h : s.PathSafe) : s.handedOver.PathSafe := h.same rfl rfl rfl rfl

theorem staleCause {s : State} (h : s.PathSafe) (w : Fin 5) : (s.staleCause w).PathSafe :=
  h.same rfl rfl rfl (by simp [State.staleCause])

theorem makeStale {s : State} (h : s.PathSafe) (w : Fin 5) : (s.makeStale w).PathSafe := by
  unfold State.makeStale
  split
  · exact h
  · exact h.staleCause w

theorem promisedOpt_withdraw (w : Fin 5) (o : Option Access) : promisedOpt (withdrawPort w o) = promisedOpt o := by
  unfold withdrawPort
  split
  · simp only [promisedOpt, Access.promised, SweepRead.withdraw]
    split
    · rename_i h; simp [h.2]
    · rfl
  · rfl

theorem withdrawSweep {s : State} (h : s.PathSafe) (w : Fin 5) : (s.withdrawSweep w).PathSafe :=
  h.mono rfl .inl rfl (by
    simp only [State.promised, State.withdrawSweep, FetchUnit.withdrawSweep_counts, promisedOpt_withdraw]
    exact Nat.le_refl _) rfl

theorem loseOn {s : State} (h : s.PathSafe) (items : List Item) (w : Fin 5) : (s.loseOn items w).PathSafe := by
  unfold State.loseOn
  split
  · exact h
  · split
    · exact h.engines _
    · exact h.makeStale w

theorem takeWrite {s : State} (h : s.PathSafe) (a : Nat) (b : List Beat) : (s.takeWrite a b).PathSafe := by
  unfold State.takeWrite
  dsimp only
  split
  · rename_i hf
    simp only [State.upstreamFree, Bool.and_eq_true, Option.isNone_iff_eq_none] at hf
    split
    · exact h.mono rfl (fun _ => .inr hf.2) rfl (Nat.le_refl _) rfl
    · rename_i hn
      refine h.forward _ rfl hf.1 ?_
      have := h.room
      have h32 : Config.intakePlaces = 32 := rfl
      simp only [State.unpromised, Access.promised] at hn ⊢
      omega
  · exact h

theorem takeRead {s : State} (h : s.PathSafe) (a n : Nat) : (s.takeRead a n).PathSafe := by
  unfold State.takeRead
  split
  · rename_i hf
    simp only [State.upstreamFree, Bool.and_eq_true, Option.isNone_iff_eq_none] at hf
    exact h.forward _ rfl hf.1 h.room
  · exact h

theorem unhold {s : State} (h : s.PathSafe) (hd : Held) (items : List Item)
    (hn : s.asm.intake.length + s.promised + items.length ≤ Config.intakePlaces) : (s.unhold hd items).PathSafe := by
  unfold State.unhold
  have h1 : ({ s with path := { s.path with held := none } } : State).PathSafe :=
    h.mono rfl (fun hd => absurd rfl hd) rfl (Nat.le_refl _) rfl
  exact h1.forward _ rfl rfl hn

theorem holdoffEnd {s : State} (h : s.PathSafe) : s.holdoffEnd.PathSafe := by
  unfold State.holdoffEnd
  split
  · split
    · rename_i hle
      refine h.unhold _ _ ?_
      have := h.room
      have h32 : Config.intakePlaces = 32 := rfl
      simp only [State.unpromised] at hle
      omega
    · exact h
  · exact h

theorem holdoffExpiry {s : State} (h : s.PathSafe) : s.holdoffExpiry.PathSafe := by
  unfold State.holdoffExpiry
  split
  · split
    · rename_i hd _ _
      have h1 : (s.unhold hd []).PathSafe := h.unhold hd [] (by simpa using h.room)
      generalize s.unhold hd [] = s1 at h1
      generalize List.finRange 5 = l
      induction l generalizing s1 with
      | nil => exact h1
      | cons w l ih => exact ih _ (h1.loseOn hd.items w)
    · exact h
  · exact h

/-- The words of a completed host write take the places they were promised. -/
theorem hostWriteComplete {s : State} (h : s.PathSafe) : s.hostWriteComplete.PathSafe := by
  unfold State.hostWriteComplete
  split
  · rename_i addr beats items hp
    apply arbitrate
    refine ⟨h.host, h.alone, h.own, ?_, h.passOver⟩
    have := h.room
    simp only [State.promised, hp, promisedOpt, Access.promised, State.writeDone, FetchUnit.snoop_sweepReads,
      List.length_append] at this ⊢
    omega
  all_goals exact h

theorem hostReadComplete {s : State} (h : s.PathSafe) : s.hostReadComplete.PathSafe := by
  unfold State.hostReadComplete
  split
  · rename_i addr count hp
    refine freePort (h.mono rfl .inl ?_ (Nat.le_refl _) rfl)
    simp only [State.readDone]
    have key : ∀ (n : Nat) (r : Ring) (a : Nat), (r.compare a n).waiting = r.waiting := by
      intro n
      induction n with
      | zero => intro r a; rfl
      | succ n ih =>
        intro r a
        unfold Ring.compare
        rw [ih]
        split <;> rfl
    exact key _ _ _
  all_goals exact h

theorem intakeDrain {s : State} (h : s.PathSafe) : s.intakeDrain.PathSafe := by
  unfold State.intakeDrain
  split
  · rename_i i rest _ hi
    refine h.mono rfl .inl rfl ?_ rfl
    have key : ∀ a : Assembler, (a.takeItem s.path i).intake = a.intake := by
      intro a
      unfold Assembler.takeItem
      repeat' split
      all_goals rfl
    show (Assembler.takeItem _ _ _).intake.length + s.promised ≤ _
    rw [key, hi]
    simp only [List.length_cons]
    omega
  all_goals exact h

theorem sweepItems_length (w : Fin 5) (b r : Word) (a : Nat) (l : List Word) :
    (sweepItems w b r a l).length = l.length := by
  induction l generalizing a with
  | nil => rfl
  | cons x xs ih => simp [sweepItems, ih]

theorem readWords_length (m : List Host.Cell) (a n : Nat) : (Memory.readWords m a n).length = n := by
  induction n generalizing a with
  | zero => rfl
  | succ n ih => simp [Memory.readWords, ih]

theorem sweepReadEnd_room (s : State) (w : Fin 5) :
    (s.sweepReadEnd w).asm.intake = s.asm.intake ∧ (s.sweepReadEnd w).fetch.sweepReads = s.fetch.sweepReads := by
  unfold State.sweepReadEnd
  split
  · exact ⟨rfl, rfl⟩
  · split
    · exact ⟨rfl, rfl⟩
    · exact ⟨rfl, rfl⟩

/-- The words of a completed sweep read take the places they were promised. -/
theorem sweepReadComplete {s : State} (h : s.PathSafe) : s.sweepReadComplete.PathSafe := by
  unfold State.sweepReadComplete
  split
  · rename_i r hp
    apply arbitrate
    have hroom := h.room
    have hlen : (r.items s.mem).length = r.count := by
      unfold SweepRead.items
      rw [sweepItems_length, readWords_length]
    refine ⟨by simpa using h.host, by simpa using h.alone, by simpa using h.own, ?_, by simpa using h.passOver⟩
    simp only [State.promised, hp, promisedOpt, Access.promised, State.sweepDelivered_path] at hroom ⊢
    unfold State.sweepDelivered
    dsimp only
    split
    · rename_i hs; simp only [hs, if_true] at hroom ⊢; omega
    · rename_i hs
      rw [if_neg (by rw [hs]; decide)] at hroom
      simp only [List.length_append, hlen]
      omega
    · rename_i hs
      rw [if_neg (by rw [hs]; decide)] at hroom
      rw [(sweepReadEnd_room _ _).1, (sweepReadEnd_room _ _).2]
      simp only [List.length_append, hlen]
      omega
  all_goals exact h

theorem burstWords_le (next left : Nat) : burstWords next left ≤ 8 := by
  unfold burstWords
  repeat' split
  all_goals omega

/-- A sweep read is issued only while 16 places are unpromised, and it asks for at most 8 (R123, R156). -/
theorem sweepReadIssue {s : State} (h : s.PathSafe) (ch : Fin 4) : (s.sweepReadIssue ch).PathSafe := by
  unfold State.sweepReadIssue
  split
  · rename_i w next stop b r _
    split
    · rename_i hc
      apply arbitrate
      refine ⟨h.host, h.alone, h.own, ?_, h.passOver⟩
      have h1 := h.room
      have h2 := hc.2.2
      have h3 := burstWords_le next ((stop - next) / 4)
      have h16 : Config.sweepRoom = 16 := rfl
      have h32 : Config.intakePlaces = 32 := rfl
      simp only [State.promised, State.unpromised, FetchUnit.issueSweep_sweepReads, List.map_append, List.sum_append,
        List.map_cons, List.map_nil, List.sum_cons, List.sum_nil] at h1 h2 ⊢
      omega
    · exact h
  all_goals exact h

theorem reportIssue {s : State} (h : s.PathSafe) : s.reportIssue.PathSafe := by
  unfold State.reportIssue
  split
  · split
    · exact h.issue _ rfl
    · exact h
  all_goals exact h

theorem mirrorIssue {s : State} (h : s.PathSafe) : s.mirrorIssue.PathSafe := by
  unfold State.mirrorIssue
  split
  · exact issue (h.same (t := { s with ring := { s.ring with
      mirrorLast := some s.mirror, mirrorAt := some s.clock.ms, mirrorMoved := false } }) rfl rfl rfl rfl) _ rfl
  · exact h

theorem reportComplete {s : State} (h : s.PathSafe) : s.reportComplete.PathSafe := by
  unfold State.reportComplete
  split
  · dsimp only
    split
    · exact freePort (h.same rfl rfl rfl rfl)
    · exact freePort (h.same rfl rfl rfl rfl)
  all_goals exact h

theorem mirrorComplete {s : State} (h : s.PathSafe) : s.mirrorComplete.PathSafe := by
  unfold State.mirrorComplete
  split
  · exact freePort (h.same rfl rfl rfl rfl)
  all_goals exact h

theorem fetchReadComplete {s : State} (h : s.PathSafe) : s.fetchReadComplete.PathSafe := by
  unfold State.fetchReadComplete
  split
  · refine freePort ?_
    unfold State.fetchDelivered
    split
    · exact h
    · exact h.same rfl rfl rfl (by simp)
  all_goals exact h

theorem tellFilled {s : State} (h : s.PathSafe) (t : Option Tag) : (s.tellFilled t).PathSafe :=
  h.same (by simp) (by simp) (by simp) (by simp)

theorem tellReady {s : State} (h : s.PathSafe) (x : Option (Fin 8 × Nat)) : (s.tellReady x).PathSafe :=
  h.same (by simp) (by simp) (by simp) (by simp)

theorem channelTake {s : State} (h : s.PathSafe) (ch : Fin 4) : (s.channelTake ch).PathSafe := by
  unfold State.channelTake
  split
  · rename_i r _ _
    exact arbitrate (tellFilled (h.same (t := { s with fetch := (s.fetch.take s.path.windows ch r).1 }) rfl rfl rfl
      (by simp)) _)
  all_goals exact h

theorem textTransferComplete {s : State} (h : s.PathSafe) (ch : Fin 4) : (s.textTransferComplete ch).PathSafe :=
  arbitrate (tellFilled (h.same (t := { s with fetch := (s.fetch.textDone ch).1 }) rfl rfl rfl (by simp)) _)

theorem glyphTransferComplete {s : State} (h : s.PathSafe) (ch : Fin 4) : (s.glyphTransferComplete ch).PathSafe :=
  arbitrate (tellReady (h.same (t := { s with fetch := (s.fetch.glyphDone ch).1 }) rfl rfl rfl (by simp)) _)

theorem rewindow {s : State} (h : s.PathSafe) (w : Fin 5) (r : Rec4) : (s.rewindow w r).PathSafe := by
  unfold State.rewindow
  extract_lets s1
  have h1 : s1.PathSafe := h.same rfl rfl rfl rfl
  split
  · exact (h1.withdrawSweep w).same rfl rfl rfl rfl
  · split
    · exact h1.same rfl rfl rfl rfl
    · refine staleCause ?_ w
      unfold State.quietSweep
      split
      · exact h1.withdrawSweep w
      · exact h1.same rfl rfl rfl rfl

theorem acceptDescriptor {s : State} (h : s.PathSafe) (w : Fin 5) (r : Rec4) : (s.acceptDescriptor w r).PathSafe := by
  unfold State.acceptDescriptor
  extract_lets old s1
  have h1 : (s.setWindow w r).PathSafe := h.mono rfl .inl rfl (Nat.le_refl _) rfl
  split
  · exact h1
  · exact h1.rewindow w r

theorem relocate {s : State} (h : s.PathSafe) (r : Rec4) : (s.relocate r).PathSafe :=
  h.mono rfl .inl rfl (Nat.le_refl _) rfl

theorem voided_isOwnWrite (a : Access) : a.voided.isOwnWrite = a.isOwnWrite := by cases a <;> rfl

theorem promisedOpt_voided (o : Option Access) : promisedOpt (o.map Access.voided) = promisedOpt o := by
  cases o with
  | none => rfl
  | some a => cases a <;> rfl

theorem acceptRing {s : State} (h : s.PathSafe) (r : Rec4) : (s.acceptRing r).PathSafe := by
  refine ⟨h.host, h.alone, ?_, ?_, h.passOver⟩
  · intro a ha
    obtain ⟨b, hb, rfl⟩ := List.mem_map.1 ha
    rw [voided_isOwnWrite]; exact h.own b hb
  · have := h.room
    simp only [State.promised, State.acceptRing, promisedOpt_voided] at this ⊢
    exact this

theorem promisedOpt_abandonPort (o : Option Access) : promisedOpt (abandonPort o) ≤ promisedOpt o := by
  unfold abandonPort
  split
  · simp only [promisedOpt, Access.promised, if_true]; exact Nat.zero_le _
  · exact Nat.le_refl _
  · exact Nat.le_refl _

theorem restartFetch {s : State} (h : s.PathSafe) : s.restartFetch.PathSafe :=
  h.mono rfl .inl rfl (by
    have := promisedOpt_abandonPort s.path.port
    simp only [State.promised, State.restartFetch, FetchUnit.restarted, FetchUnit.reset, List.map_nil, List.sum_nil]
    omega) rfl

theorem restart {s : State} (h : s.PathSafe) : s.restart.PathSafe := by
  unfold State.restart
  refine engines ?_ _
  have h1 := h.restartFetch.engines fun A e => e.restarted A
  generalize s.restartFetch.engines (fun A e => e.restarted A) = s1 at h1
  generalize stateWindows = l
  induction l generalizing s1 with
  | nil => exact h1
  | cons w l ih => exact ih _ (h1.makeStale w)

theorem promisedOpt_discardFor (p : Fin 4 → Bool) (o : Option Access) : promisedOpt (discardFor p o) = promisedOpt o := by
  unfold discardFor
  split <;> rfl

theorem beginLoad {s : State} (h : s.PathSafe) (a : Fin 8) (r : Rec4) : (s.beginLoad a r).PathSafe :=
  h.mono rfl .inl rfl (by
    simp only [State.promised, State.beginLoad, promisedOpt_discardFor, FetchUnit.startLoad_sweepReads]
    exact Nat.le_refl _) rfl

theorem walkQueue_sweepReads (l : List Nat) (f : FetchUnit) (e : Engines) :
    (walkQueue l f e).fetch.sweepReads = f.sweepReads := by
  induction l generalizing f e with
  | nil => rfl
  | cons d ds ih =>
    unfold walkQueue
    split
    · exact ih f e
    · split
      · exact ih f e
      · split
        · rfl
        · split
          · rename_i codes f' hl
            exact f.lookup_sweepReads f' _ codes hl
          · rw [ih]; simp

theorem outSlot {s : State} (h : s.PathSafe) (n : Fin 8) : (s.outSlot n).PathSafe := by
  refine h.same (by simp) (by simp) (by simp) ?_
  unfold State.outSlot
  dsimp only
  split
  · unfold outSlotStep
    split
    · rfl
    · dsimp only
      split <;> exact walkQueue_sweepReads _ _ _
  · rfl

end State.PathSafe

end Sys2Proof.Machine
end

