-- ==== Sys2Proof/Laws/PerInstr.lean ====
section
/-! SUPPORT. The statements made of every command, one lemma for each: what the well-formedness check says of it. -/

namespace Sys2Proof.Laws.WellFormedness

/-- What section 10.1 asks of a command's operands: an upstream burst has 1, 2, 4 or 8 words and is aligned to its size. -/
def Fits : Instr → Prop
  | .upstreamWrite addr beats => beats.length ∈ [1, 2, 4, 8] ∧ addr.toNat % (4 * beats.length) = 0
  | .upstreamRead addr count => count ∈ [1, 2, 4, 8] ∧ addr.toNat % (4 * count) = 0
  | _ => True

/-- The check accepts a command exactly when its operands are as section 10.1 asks. -/
def Statement (i : Instr) : Prop := i.wf = true ↔ Fits i

theorem burstOk_iff (addr n : Nat) : burstOk addr n = true ↔ n ∈ [1, 2, 4, 8] ∧ addr % (4 * n) = 0 := by
  simp [burstOk, burstSize, Bool.or_eq_true, or_assoc]

theorem powerOnReset : Statement .powerOnReset := iff_of_true rfl trivial

theorem usTick : Statement .usTick := iff_of_true rfl trivial

theorem msTick : Statement .msTick := iff_of_true rfl trivial

theorem upstreamWrite (addr : BitVec 26) (beats : List Beat) : Statement (.upstreamWrite addr beats) := burstOk_iff addr.toNat beats.length

theorem upstreamRead (addr : BitVec 26) (count : Nat) : Statement (.upstreamRead addr count) := burstOk_iff addr.toNat count

theorem hostWriteComplete : Statement .hostWriteComplete := iff_of_true rfl trivial

theorem hostReadComplete : Statement .hostReadComplete := iff_of_true rfl trivial

theorem holdoffEnd : Statement .holdoffEnd := iff_of_true rfl trivial

theorem holdoffExpiry : Statement .holdoffExpiry := iff_of_true rfl trivial

theorem intakeDrain : Statement .intakeDrain := iff_of_true rfl trivial

theorem carCommit : Statement .carCommit := iff_of_true rfl trivial

theorem assignCommit : Statement .assignCommit := iff_of_true rfl trivial

theorem rosterCommit : Statement .rosterCommit := iff_of_true rfl trivial

theorem labelCommit : Statement .labelCommit := iff_of_true rfl trivial

theorem playoutCommit : Statement .playoutCommit := iff_of_true rfl trivial

theorem relocationCommit : Statement .relocationCommit := iff_of_true rfl trivial

theorem descriptorCommit : Statement .descriptorCommit := iff_of_true rfl trivial

theorem settingsCommit : Statement .settingsCommit := iff_of_true rfl trivial

theorem groupCommit : Statement .groupCommit := iff_of_true rfl trivial

theorem linkSetupCommit : Statement .linkSetupCommit := iff_of_true rfl trivial

theorem overrideSlotCommit : Statement .overrideSlotCommit := iff_of_true rfl trivial

theorem languageCommit : Statement .languageCommit := iff_of_true rfl trivial

theorem ringSetupCommit : Statement .ringSetupCommit := iff_of_true rfl trivial

theorem restart : Statement .restart := iff_of_true rfl trivial

theorem sweep : Statement .sweep := iff_of_true rfl trivial

theorem loadGlyphs : Statement .loadGlyphs := iff_of_true rfl trivial

theorem badOpcode : Statement .badOpcode := iff_of_true rfl trivial

theorem fetchChannelTake (channel : Fin 4) : Statement (.fetchChannelTake channel) := iff_of_true rfl trivial

theorem sweepReadIssue (channel : Fin 4) : Statement (.sweepReadIssue channel) := iff_of_true rfl trivial

theorem sweepReadComplete : Statement .sweepReadComplete := iff_of_true rfl trivial

theorem sweepCompletion : Statement .sweepCompletion := iff_of_true rfl trivial

theorem textFillTransferComplete (channel : Fin 4) : Statement (.textFillTransferComplete channel) := iff_of_true rfl trivial

theorem glyphTransferComplete (channel : Fin 4) : Statement (.glyphTransferComplete channel) := iff_of_true rfl trivial

theorem outSlot (link : Fin 8) : Statement (.outSlot link) := iff_of_true rfl trivial

theorem frameComplete (link : Fin 8) : Statement (.frameComplete link) := iff_of_true rfl trivial

theorem abortBlockSent (link : Fin 8) : Statement (.abortBlockSent link) := iff_of_true rfl trivial

theorem statusAnswer (link : Fin 8) (heard : List LinkChar) : Statement (.statusAnswer link heard) := iff_of_true rfl trivial

theorem entryAnswer (link : Fin 8) (heard : List LinkChar) : Statement (.entryAnswer link heard) := iff_of_true rfl trivial

theorem inSlotMiss (link : Fin 8) (heard : List LinkChar) : Statement (.inSlotMiss link heard) := iff_of_true rfl trivial

theorem entryWaitExpiry : Statement .entryWaitExpiry := iff_of_true rfl trivial

theorem promptHoldExpiry : Statement .promptHoldExpiry := iff_of_true rfl trivial

theorem lanternExpiry : Statement .lanternExpiry := iff_of_true rfl trivial

theorem gongExpiry : Statement .gongExpiry := iff_of_true rfl trivial

theorem dwellExpiry : Statement .dwellExpiry := iff_of_true rfl trivial

theorem overrideDwellExpiry : Statement .overrideDwellExpiry := iff_of_true rfl trivial

theorem reportWriteIssue : Statement .reportWriteIssue := iff_of_true rfl trivial

theorem reportWriteComplete : Statement .reportWriteComplete := iff_of_true rfl trivial

theorem statusMirrorWrite : Statement .statusMirrorWrite := iff_of_true rfl trivial

theorem resetNFall : Statement .resetNFall := iff_of_true rfl trivial

theorem slotPositionAdvance (link : Fin 8) : Statement (.slotPositionAdvance link) := iff_of_true rfl trivial

theorem fetchReadComplete : Statement .fetchReadComplete := iff_of_true rfl trivial

theorem statusMirrorWriteComplete : Statement .statusMirrorWriteComplete := iff_of_true rfl trivial

end Sys2Proof.Laws.WellFormedness
end

