-- ==== Sys2Proof/Laws/RingSafe.lean ====
section
/-! SUPPORT. Each action of the part keeps the bookkeeping of the report ring. -/

namespace Sys2Proof.Machine

namespace State.RingSafe

/-- The record writes that count, on the port and in the Report Writer's queue. -/
def counted (port : Option Access) (waiting : List Access) : Nat :=
  (waiting.filter Access.counts).length + (port.toList.filter Access.counts).length

theorem counted_host (a : Access) (h : a.isHost = true) (l : List Access) : counted (some a) l = counted none l := by
  cases a <;> first | (simp [counted, Access.counts]; done) | cases h

theorem counted_shift (a : Access) (l : List Access) : counted (some a) l = counted none (a :: l) := by
  simp only [counted, Option.toList_some, Option.toList_none, List.filter_nil, List.length_nil]
  cases h : a.counts <;> simp [h]

theorem counted_reads (f : FetchUnit) {a : Access} (h : a ∈ f.reads) (l : List Access) :
    counted (some a) l = counted none l := by
  rcases f.reads_cases h with ⟨r, rfl, -⟩ | ⟨ch, addr, n, rfl⟩ <;> simp [counted, Access.counts]

/-- The ring stands and the record writes that count do not grow. -/
theorem mono {s t : State} (h : s.RingSafe) (hw : t.path.waiting = s.path.waiting)
    (hc : counted t.path.port t.ring.waiting ≤ counted s.path.port s.ring.waiting)
    (hu : t.ring.unconsumed = s.ring.unconsumed) (hs : t.ring.setup = s.ring.setup) (ho : t.ring.oldest = s.ring.oldest) :
    t.RingSafe :=
  ⟨by rw [hw]; exact h.host, Nat.le_trans hc h.one,
    by rw [hu, hs]; exact Nat.le_trans (Nat.add_le_add_left hc _) h.room, by rw [ho, hu]; exact h.oldest⟩

/-- An action that leaves the host's side, the port and the ring alone. -/
theorem same {s t : State} (h : s.RingSafe) (hw : t.path.waiting = s.path.waiting) (hp : t.path.port = s.path.port)
    (hr : t.ring = s.ring) : t.RingSafe :=
  h.mono hw (Nat.le_of_eq (by rw [hp, hr])) (by rw [hr]) (by rw [hr]) (by rw [hr])

theorem servePart {s : State} (h : s.RingSafe) (hport : s.path.port = none) : s.servePart.RingSafe := by
  rcases s.servePart_cases with ⟨a, rest, hr, e⟩ | ⟨a, hr, hm, e⟩ | e
  · rw [e]
    exact h.mono (t := { s with
        path := { s.path with port := some a, passOver := 0 }, ring := { s.ring with waiting := rest } }) rfl
      (Nat.le_of_eq (by rw [counted_shift, hport, hr])) rfl rfl rfl
  · rw [e]
    exact h.mono (t := { s with path := { s.path with port := some a, passOver := 0 }, fetch := s.fetch.served a }) rfl
      (Nat.le_of_eq (by rw [counted_reads _ hm, hport])) rfl rfl rfl
  · rw [e]; exact h

theorem arbitrate {s : State} (h : s.RingSafe) : s.arbitrate.RingSafe := by
  rcases s.arbitrate_cases with ⟨a, n, hp, hw, hn, e⟩ | ⟨hp, e⟩ | e
  · rw [e]
    have hc : counted (some a) s.ring.waiting = s.countingWrites := by
      rw [counted_host a (h.host a hw)]; simp only [State.countingWrites, hp]; rfl
    refine ⟨fun b hb => (by cases hb), ?_, ?_, h.oldest⟩
    · show counted (some a) s.ring.waiting ≤ 1
      rw [hc]; exact h.one
    · show s.ring.unconsumed + counted (some a) s.ring.waiting ≤ _
      rw [hc]; exact h.room
  · rw [e]; exact h.servePart hp
  · rw [e]; exact h

/-- The port becomes free: no write counts more than before. -/
theorem counted_none (p : Option Access) (l : List Access) : counted none l ≤ counted p l := by
  simp only [counted, Option.toList_none, List.filter_nil, List.length_nil]; omega

theorem freePort {s : State} (h : s.RingSafe) : s.freePort.RingSafe :=
  arbitrate (h.mono rfl (counted_none _ _) rfl rfl rfl)

theorem forward {s : State} (h : s.RingSafe) (a : Access) (ha : a.isHost = true) : (s.forward a).RingSafe := by
  apply arbitrate
  exact ⟨fun b hb => (by cases hb; exact ha), h.one, h.room, h.oldest⟩

theorem report {s : State} (h : s.RingSafe) (ev : Event) : (s.report ev).RingSafe := h.same rfl rfl rfl

theorem handedOver {s : State} (h : s.RingSafe) : s.handedOver.RingSafe := h.same rfl rfl rfl

theorem engines {s : State} (h : s.RingSafe) (f : Ambient → Engines → Engines) : (s.engines f).RingSafe :=
  h.same rfl rfl rfl

theorem staleCause {s : State} (h : s.RingSafe) (w : Fin 5) : (s.staleCause w).RingSafe := h.same rfl rfl rfl

theorem makeStale {s : State} (h : s.RingSafe) (w : Fin 5) : (s.makeStale w).RingSafe :=
  h.same (by simp) (by simp) (by simp)

theorem loseOn {s : State} (h : s.RingSafe) (items : List Item) (w : Fin 5) : (s.loseOn items w).RingSafe :=
  h.same (by simp) (by simp) (by simp)

theorem takeWrite {s : State} (h : s.RingSafe) (a : Nat) (b : List Beat) : (s.takeWrite a b).RingSafe := by
  unfold State.takeWrite
  dsimp only
  split
  · split
    · exact h.same rfl rfl rfl
    · exact h.forward _ rfl
  · exact h

theorem takeRead {s : State} (h : s.RingSafe) (a n : Nat) : (s.takeRead a n).RingSafe := by
  unfold State.takeRead
  split
  · exact h.forward _ rfl
  · exact h

theorem unhold {s : State} (h : s.RingSafe) (hd : Held) (items : List Item) : (s.unhold hd items).RingSafe := by
  unfold State.unhold
  exact forward (h.same (t := { s with path := { s.path with held := none } }) rfl rfl rfl) _ rfl

theorem holdoffEnd {s : State} (h : s.RingSafe) : s.holdoffEnd.RingSafe := by
  unfold State.holdoffEnd
  split
  · split
    · exact h.unhold _ _
    · exact h
  · exact h

theorem holdoffExpiry {s : State} (h : s.RingSafe) : s.holdoffExpiry.RingSafe := by
  unfold State.holdoffExpiry
  split
  · split
    · rename_i hd _ _
      have h1 : (s.unhold hd []).RingSafe := h.unhold hd []
      generalize s.unhold hd [] = s1 at h1
      generalize List.finRange 5 = l
      induction l generalizing s1 with
      | nil => exact h1
      | cons w l ih => exact ih _ (h1.loseOn hd.items w)
    · exact h
  · exact h

theorem hostWriteComplete {s : State} (h : s.RingSafe) : s.hostWriteComplete.RingSafe := by
  unfold State.hostWriteComplete
  split
  · exact freePort (h.same rfl rfl rfl)
  all_goals exact h

/-! ## Consumption (R174) -/

/-- A run of words read by the host keeps what the ring knows of itself, and only lowers the unconsumed count. -/
theorem compare_keeps (n : Nat) (r : Ring) (a : Nat) (h : r.oldest = none ↔ r.unconsumed = 0) :
    ((r.compare a n).oldest = none ↔ (r.compare a n).unconsumed = 0) ∧ (r.compare a n).unconsumed ≤ r.unconsumed ∧
      (r.compare a n).setup = r.setup ∧ (r.compare a n).waiting = r.waiting := by
  induction n generalizing r a with
  | zero => exact ⟨h, Nat.le_refl _, rfl, rfl⟩
  | succ n ih =>
    unfold Ring.compare
    split
    · rename_i hw
      have hsome : r.oldest ≠ none := by
        intro hn; simp [Ring.watched, hn] at hw
      have h0 : r.unconsumed ≠ 0 := fun hz => hsome (h.2 hz)
      have hc : r.consume.oldest = none ↔ r.consume.unconsumed = 0 := by
        unfold Ring.consume
        dsimp only
        split
        · simp [*]
        · simp [*]
      have := ih r.consume (a + 4) hc
      refine ⟨this.1, Nat.le_trans this.2.1 (Nat.sub_le _ _), this.2.2.1, this.2.2.2⟩
    · exact ih r (a + 4) h

theorem hostReadComplete {s : State} (h : s.RingSafe) : s.hostReadComplete.RingSafe := by
  unfold State.hostReadComplete
  split
  · rename_i addr count hp
    apply freePort
    have := compare_keeps count s.ring addr h.oldest
    have hc : (s.readDone addr count).countingWrites = s.countingWrites := by
      simp only [State.countingWrites, State.readDone]; rw [this.2.2.2]
    refine ⟨h.host, by rw [hc]; exact h.one, ?_, this.1⟩
    rw [hc]
    show (s.ring.compare addr count).unconsumed + _ ≤ (s.ring.compare addr count).setup.ringSize
    rw [this.2.2.1]
    exact Nat.le_trans (Nat.add_le_add_right this.2.1 _) h.room
  all_goals exact h

/-! ## Record writes (R172, R173) -/

theorem counts_report {l : List Access} (h : l.any Access.isReportWrite = false) : l.filter Access.counts = [] := by
  rw [List.filter_eq_nil_iff]
  intro a ha
  have := List.any_eq_false.1 h a ha
  cases a <;> simp_all [Access.isReportWrite, Access.counts]

/-- With no record write in flight none counts. -/
theorem counting_zero {s : State} (h : s.reportFlying = false) : s.countingWrites = 0 := by
  simp only [State.reportFlying, Bool.or_eq_false_iff] at h
  have h2 : s.path.port.toList.any Access.isReportWrite = false := by
    cases hp : s.path.port with
    | none => rfl
    | some a => rw [hp] at h; simpa using h.2
  simp [State.countingWrites, counts_report h.1, counts_report h2]

theorem issue {s : State} (h : s.RingSafe) (a : Access)
    (hc : s.countingWrites = 0 ∧ s.ring.unconsumed < s.ring.setup.ringSize ∨ a.counts = false) :
    (s.issue a).RingSafe := by
  apply arbitrate
  have hl : ∀ p, counted p (s.ring.waiting ++ [a]) = counted p s.ring.waiting + (if a.counts then 1 else 0) := by
    intro p
    simp only [counted, List.filter_append, List.length_append]
    cases h : a.counts <;> simp [h]; omega
  have h1 := h.one
  have h2 := h.room
  refine ⟨h.host, ?_, ?_, h.oldest⟩
  · show counted s.path.port (s.ring.waiting ++ [a]) ≤ 1
    rw [hl]
    show s.countingWrites + _ ≤ 1
    rcases hc with ⟨hc, -⟩ | hc
    · split <;> omega
    · rw [hc]; simpa using h1
  · show s.ring.unconsumed + counted s.path.port (s.ring.waiting ++ [a]) ≤ s.ring.setup.ringSize
    rw [hl]
    show s.ring.unconsumed + (s.countingWrites + _) ≤ _
    rcases hc with ⟨hc, hr⟩ | hc
    · split <;> omega
    · rw [hc]; simpa using h2

theorem reportIssue {s : State} (h : s.RingSafe) : s.reportIssue.RingSafe := by
  unfold State.reportIssue
  split
  · split
    · rename_i hc
      simp only [Bool.and_eq_true, Bool.not_eq_true', decide_eq_true_eq] at hc
      exact h.issue _ (.inl ⟨counting_zero hc.1, hc.2⟩)
    · exact h
  all_goals exact h

theorem mirrorIssue {s : State} (h : s.RingSafe) : s.mirrorIssue.RingSafe := by
  unfold State.mirrorIssue
  split
  · exact issue (h.mono (t := { s with ring := { s.ring with
      mirrorLast := some s.mirror, mirrorAt := some s.clock.ms, mirrorMoved := false } }) rfl (Nat.le_refl _) rfl rfl rfl)
      _ (.inr rfl)
  · exact h

theorem reportComplete {s : State} (h : s.RingSafe) : s.reportComplete.RingSafe := by
  unfold State.reportComplete
  split
  · rename_i a words void hp
    dsimp only
    split
    · exact freePort (h.same rfl rfl rfl)
    · rename_i hv
      have hv : void = false := by simpa using hv
      subst hv
      have hcnt : s.countingWrites = counted none s.ring.waiting + 1 := by
        simp only [State.countingWrites, hp, counted]; simp [Access.counts]
      have h1 := h.one
      have h2 := h.room
      apply arbitrate
      refine ⟨h.host, ?_, ?_, ?_⟩
      · show counted none s.ring.waiting ≤ 1
        omega
      · show s.ring.unconsumed + 1 + counted none s.ring.waiting ≤ s.ring.setup.ringSize
        omega
      · show (if s.ring.unconsumed = 0 then some a else s.ring.oldest) = none ↔ s.ring.unconsumed + 1 = 0
        constructor
        · intro hn
          split at hn
          · cases hn
          · exact absurd (h.oldest.1 hn) ‹_›
        · intro hn; omega
  all_goals exact h

theorem mirrorComplete {s : State} (h : s.RingSafe) : s.mirrorComplete.RingSafe := by
  unfold State.mirrorComplete
  split
  · exact freePort (h.same rfl rfl rfl)
  all_goals exact h

theorem counted_voided (p : Option Access) (l : List Access) :
    counted (p.map Access.voided) (l.map Access.voided) = 0 := by
  have hv : ∀ a : Access, a.voided.counts = false := by intro a; cases a <;> rfl
  have hl : (l.map Access.voided).filter Access.counts = [] := by
    rw [List.filter_eq_nil_iff]
    intro a ha
    obtain ⟨b, -, rfl⟩ := List.mem_map.1 ha
    simp [hv]
  cases p <;> simp [counted, hl, hv]

theorem acceptRing {s : State} (h : s.RingSafe) (r : Rec4) : (s.acceptRing r).RingSafe := by
  have h0 : (s.acceptRing r).countingWrites = 0 := counted_voided _ _
  refine ⟨h.host, by rw [h0]; exact Nat.zero_le _, by rw [h0]; exact Nat.zero_le _, ?_⟩
  simp [State.acceptRing]

/-! ## The other actions -/

theorem sweepReadComplete {s : State} (h : s.RingSafe) : s.sweepReadComplete.RingSafe := by
  unfold State.sweepReadComplete
  split
  · exact freePort (h.same (by simp) (by simp) (by simp))
  all_goals exact h

theorem fetchReadComplete {s : State} (h : s.RingSafe) : s.fetchReadComplete.RingSafe := by
  unfold State.fetchReadComplete
  split
  · exact freePort (h.same (by simp) (by simp) (by simp))
  all_goals exact h

theorem sweepReadIssue {s : State} (h : s.RingSafe) (ch : Fin 4) : (s.sweepReadIssue ch).RingSafe := by
  unfold State.sweepReadIssue
  split
  · split
    · exact arbitrate (h.same rfl rfl rfl)
    · exact h
  all_goals exact h

theorem channelTake {s : State} (h : s.RingSafe) (ch : Fin 4) : (s.channelTake ch).RingSafe := by
  unfold State.channelTake
  split
  · exact arbitrate (h.same (by simp) (by simp) (by simp))
  all_goals exact h

theorem textTransferComplete {s : State} (h : s.RingSafe) (ch : Fin 4) : (s.textTransferComplete ch).RingSafe :=
  arbitrate (h.same (by simp) (by simp) (by simp))

theorem glyphTransferComplete {s : State} (h : s.RingSafe) (ch : Fin 4) : (s.glyphTransferComplete ch).RingSafe :=
  arbitrate (h.same (by simp) (by simp) (by simp))

theorem counted_withdraw (w : Fin 5) (p : Option Access) (l : List Access) :
    counted (withdrawPort w p) l = counted p l := by
  unfold withdrawPort
  split
  · simp [counted, Access.counts]
  · rfl

theorem withdrawSweep {s : State} (h : s.RingSafe) (w : Fin 5) : (s.withdrawSweep w).RingSafe :=
  h.mono rfl (by show counted (withdrawPort w s.path.port) _ ≤ _; exact Nat.le_of_eq (by rw [counted_withdraw]; rfl)) rfl rfl rfl

theorem rewindow {s : State} (h : s.RingSafe) (w : Fin 5) (r : Rec4) : (s.rewindow w r).RingSafe := by
  unfold State.rewindow
  extract_lets s1
  have h1 : s1.RingSafe := h.same rfl rfl rfl
  split
  · exact (h1.withdrawSweep w).same rfl rfl rfl
  · split
    · exact h1.same rfl rfl rfl
    · refine same (s := s1.quietSweep w) ?_ rfl rfl rfl
      unfold State.quietSweep
      split
      · exact h1.withdrawSweep w
      · exact h1.same rfl rfl rfl

theorem acceptDescriptor {s : State} (h : s.RingSafe) (w : Fin 5) (r : Rec4) : (s.acceptDescriptor w r).RingSafe := by
  unfold State.acceptDescriptor
  dsimp only
  have h1 : (s.setWindow w r).RingSafe := h.same rfl rfl rfl
  split
  · exact h1
  · exact h1.rewindow w r

theorem relocate {s : State} (h : s.RingSafe) (r : Rec4) : (s.relocate r).RingSafe :=
  h.mono rfl (Nat.le_refl _) rfl rfl rfl

theorem counted_abandon (p : Option Access) (l : List Access) : counted (abandonPort p) l = counted p l := by
  unfold abandonPort
  split
  · simp [counted, Access.counts]
  · simp [counted, Access.counts]
  · rfl

theorem restart {s : State} (h : s.RingSafe) : s.restart.RingSafe := by
  unfold State.restart
  have h1 : (s.restartFetch.engines fun A e => e.restarted A).RingSafe :=
    h.mono rfl (by show counted (abandonPort s.path.port) _ ≤ _; exact Nat.le_of_eq (by rw [counted_abandon]; rfl)) rfl rfl rfl
  refine report ?_ _
  generalize s.restartFetch.engines (fun A e => e.restarted A) = s1 at h1
  generalize stateWindows = l
  induction l generalizing s1 with
  | nil => exact h1
  | cons w l ih => exact ih _ (h1.makeStale w)

theorem counted_discard (f : Fin 4 → Bool) (p : Option Access) (l : List Access) :
    counted (discardFor f p) l = counted p l := by
  unfold discardFor
  split
  · simp [counted, Access.counts]
  · rfl

theorem beginLoad {s : State} (h : s.RingSafe) (a : Fin 8) (r : Rec4) : (s.beginLoad a r).RingSafe := by
  unfold State.beginLoad
  extract_lets stopped
  exact h.mono rfl (Nat.le_of_eq (counted_discard stopped s.path.port s.ring.waiting)) rfl rfl rfl

theorem resetFall {s : State} (h : s.RingSafe) : s.resetFall.RingSafe := by
  have h1 : s.resetFall.countingWrites ≤ s.countingWrites := counted_none _ _
  exact ⟨fun a ha => (by cases ha), Nat.le_trans h1 h.one, Nat.le_trans (Nat.add_le_add_left h1 _) h.room, h.oldest⟩

end State.RingSafe

end Sys2Proof.Machine
end

