-- ==== Sys2Proof/Tests/Slice0.lean ====
section
/-! SUPPORT. The row's own tests: the smoke test of the well-formedness check, small steps, and for every statement of
Certificates/Slice0/Obligations.lean a state and operands that meet its hypotheses, clause by clause. -/

namespace Sys2Proof.Tests

open Sys2Proof.Machine

/-! ## Well-formedness -/

def beat (w : Word) : Beat := ⟨w, 0xF⟩

theorem test_wf_accepts_one_word : (Instr.upstreamWrite 4 [beat 1]).wf = true := by decide
theorem test_wf_accepts_eight_words : (Instr.upstreamRead 0x20 8).wf = true := by decide
theorem test_wf_refuses_no_word : (Instr.upstreamWrite 0 []).wf = false := by decide
theorem test_wf_refuses_three_words : (Instr.upstreamRead 0 3).wf = false := by decide
theorem test_wf_refuses_sixteen_words : (Instr.upstreamRead 0 16).wf = false := by decide
theorem test_wf_refuses_unaligned_word : (Instr.upstreamWrite 2 [beat 1]).wf = false := by decide
theorem test_wf_refuses_burst_off_its_size : (Instr.upstreamRead 8 4).wf = false := by decide
theorem test_no_word_spells_a_command : decodeTableWord 32 0 = none := rfl

/-! ## States to start from -/

/-- The part after reset, with a change of the memory path, the assembler, the fetch unit, the engines. -/
def onPath (f : MemPath → MemPath) (s : State) : State := { s with path := f s.path }
def onAsm (f : Assembler → Assembler) (s : State) : State := { s with asm := f s.asm }
def onFetch (f : FetchUnit → FetchUnit) (s : State) : State := { s with fetch := f s.fetch }
def onEng (f : Engines → Engines) (s : State) : State := { s with eng := f s.eng }
def onRing (f : Ring → Ring) (s : State) : State := { s with ring := f s.ring }

def atPort (a : Access) : State := onPath (fun p => { p with port := some a }) State.reset

/-- A record handed out, with its words in staging. -/
def handSlot (w : Fin 5) (slot : Nat) (r : Rec4) (s : State) : State :=
  onAsm (fun a => { a with
    handed := some (.window w slot)
    winStage := a.winStage.set w
      [(4 * slot, r.w0), (4 * slot + 1, r.w1), (4 * slot + 2, r.w2), (4 * slot + 3, r.w3)] }) s

def hand4 (p : RecordPlace) (off : Nat) (r : Rec4) (s : State) : State :=
  onAsm (fun a => { a with
    handed := some p, cbStage := [(off, r.w0), (off + 4, r.w1), (off + 8, r.w2), (off + 12, r.w3)] }) s

def hand8 (p : RecordPlace) (off : Nat) (r : Rec8) (s : State) : State :=
  onAsm (fun a => { a with
    handed := some p
    cbStage := [(off, r.w0), (off + 4, r.w1), (off + 8, r.w2), (off + 12, r.w3), (off + 16, r.w4), (off + 20, r.w5),
      (off + 24, r.w6), (off + 28, r.w7)] }) s

/-- Group 0, PRESENT, with landings 0 to 9 on floors 0 to 9. -/
def group0 : Rec8 := ⟨0, 0x00000900, 0xFF, 0xFF, 0xFF, 500, 4, 1⟩

/-- A car record of group 0 that goes up next, by its w3: position, motion, door. -/
def carRecord (w3 : Word) : Rec4 := ⟨0x00314100, 0x00010000, 0xFF, w3⟩

/-- Group 0 with car 0 on an accepted record. -/
def withCar (w3 : Word) : State :=
  onEng (fun e => { e with ind := { e.ind with
    groups := e.ind.groups.set 0 group0
    cars := e.ind.cars.set 0 ⟨some (carRecord w3), none, some 3, none⟩ } }) State.reset

/-- Car 0's lantern runs at landing 3. -/
def lanternUp (lantern gong : Option Nat) (s : State) : State :=
  onEng (fun e => { e with ind := { e.ind with
    signals := e.ind.signals.set 0 ⟨.up, true, some 3, false, some 0, lantern, gong⟩ } }) s

/-- A terminal on floor 2 with the zone of group 0, drop 1 of link 0. -/
def terminalFace : Face :=
  ⟨.terminal, 1, 2, 0, 1, some 2, 1, .terminal 0, [], none, none, 0, none, []⟩

/-- A hall segment display of car 0 at landing 3, drop 1 of link 0. -/
def hallFace : Face :=
  ⟨.hallSegment, 0, 3, 0, 1, some 3, 1, .hallSegment 0 .none (.off none), [], none, none, 0, none, []⟩

/-- Display 0 with a face, a liveness and a miss count. -/
def withFace (f : Face) (x : Display) (s : State) : State :=
  onEng (fun e => { e with
    face := { e.face with faces := [(0, f)] }
    link := { e.link with displays := [(0, x)] }
    dest := { e.dest with prompts := if f.cls = .terminal then [(0, [])] else [] } }) s

def onlineDisplay : Display := ⟨.online, 0, 0, none⟩

/-- The entry with ticket 7 of terminal 0 for floor 5, its place 0 and its WAITING prompt. -/
def withEntry (s : State) : State :=
  onEng (fun e => { e with
    dest := { e.dest with
      entries := [⟨7, 0, 2, 5, .standard, 0⟩]
      prompts := [(0, [⟨.waiting, some 7, 5, .standard, none, none, .none, none⟩])] }
    timers := ⟨[⟨0, .entryWait, .ticket 7, 0, 0, 0⟩], 1⟩ }) (withFace terminalFace onlineDisplay s)

/-- A RUNNING link 0 at a slot, OUT slots even, IN slots odd, 48 characters. -/
def link0 (slot : Nat) : Link :=
  ⟨⟨0x55555555, 0xAAAAAAAA, 0x00003000, 1⟩, true, slot, [], none, none, none, false, none⟩

def withLink (l : Link) (s : State) : State :=
  onEng (fun e => { e with link := { e.link with links := e.link.links.set 0 l } }) s

/-! ## The machine as a whole -/

theorem test_hyp_StepTakesFrontCommand :
    ({ State.reset with pending := [.usTick, .msTick] } : State).pending = .usTick :: [.msTick] := rfl

theorem test_hyp_EmptyQueueIsOneReferenceCycle :
    State.reset.pending = [] ∧ ({ State.reset with resetLow := true } : State).resetLow = true ∧
    State.reset.clock.refCount + 1 < State.reset.asm.settings.divider ∧
    State.reset.asm.settings.divider ≤ ({ State.reset with clock := ⟨24, 999, 0⟩ } : State).clock.refCount + 1 := by
  decide

theorem test_step_of_the_empty_queue_counts_a_cycle :
    step State.reset = .next { State.reset with clock := ⟨1, 0, 0⟩ } := rfl

theorem test_hyp_MemoryStaysCanonical :
    Memory.wf [(3, 5), (9, 1)] = true ∧ ∃ t, step { State.reset with mem := [(3, 5), (9, 1)] } = .next t :=
  ⟨by decide, _, rfl⟩

theorem test_hyp_IntakeNeverOverflows :
    (atPort (.hostWrite 0 [beat 1] [⟨1, 0, 0xF, .control 0⟩])).PathSafe ∧
      ∃ t, step (atPort (.hostWrite 0 [beat 1] [⟨1, 0, 0xF, .control 0⟩])) = .next t :=
  ⟨⟨(by intro a h; cases h), (by intro h; exact absurd rfl h), (by intro a h; cases h), by decide, by decide⟩, _, rfl⟩

/-- A ring of 16 slots, a record write in flight and 15 records unconsumed. -/
def ringBusy : State :=
  onRing (fun r => { r with setup := ⟨0x1000, 0, 0, 16⟩, writePos := some 0x1000, unconsumed := 15, oldest := some 0x10F0 })
    (atPort (.reportWrite 0x1000 [1, 2, 3, 4] false))

theorem test_hyp_ReportRingNeverOverflows : ringBusy.RingSafe ∧ ∃ t, step ringBusy = .next t :=
  ⟨⟨(by intro a h; cases h), by decide, by decide, by decide⟩, _, rfl⟩

theorem test_hyp_TablesStayWithinCapacity :
    (withEntry State.reset).eng.WithinCapacity ∧ ∃ t, step (withEntry State.reset) = .next t :=
  ⟨⟨by decide, by decide, by decide, by decide, by decide, by decide, by decide, by decide,
    fun c => ⟨by revert c; decide, by revert c; decide⟩⟩, _, rfl⟩

/-- A request list with every partition full. -/
def fullRequests : FetchUnit :=
  { FetchUnit.reset with requests :=
      [.sweep 0 false, .sweep 2 false, .sweep 3 true, .sweep 4 false, .glyph 0 0 32 1 0, .glyph 1 0 32 1 0,
        .glyph 2 0 32 1 0, .glyph 3 0 32 1 0] ++ (List.range 8).map fun n => .text ⟨4 * n, 0⟩ }

theorem test_hyp_TablesStayWithinCapacity_requests :
    fullRequests.RequestsSafe ∧ ∃ t, step (onFetch (fun _ => fullRequests) State.reset) = .next t :=
  ⟨⟨by decide, by decide, by decide, by decide⟩, _, rfl⟩

theorem test_hyp_OnlyWriteCompletionsChangeMemory :
    Instr.usTick ≠ .hostWriteComplete ∧ Instr.usTick ≠ .reportWriteComplete ∧
      Instr.usTick ≠ .statusMirrorWriteComplete ∧ ∃ t, exec .usTick State.reset = .next t :=
  ⟨by decide, by decide, by decide, _, rfl⟩

theorem test_hyp_AcceptedRecordsChangeOnlyByTheirCommits :
    (∃ t, exec .usTick State.reset = .next t) ∧ ∀ c ∈ [Instr.powerOnReset, .settingsCommit, .descriptorCommit,
      .relocationCommit, .ringSetupCommit, .languageCommit, .groupCommit, .linkSetupCommit, .overrideSlotCommit, .restart,
      .carCommit, .labelCommit, .rosterCommit, .playoutCommit], Instr.usTick ≠ c :=
  ⟨⟨_, rfl⟩, by decide⟩

theorem test_hyp_ResetLowStopsTheOtherCommands :
    ({ State.reset with resetLow := true } : State).resetLow = true ∧ Instr.usTick.wf = true ∧
      Instr.usTick ≠ .powerOnReset ∧ Instr.usTick ≠ .resetNFall := by decide

theorem test_hyp_CommandsAnswerNextUnlessIllFormed :
    (Instr.upstreamRead 0 8).wf = true ∧ burstOk (0#26).toNat 3 = false ∧ burstOk (4#26).toNat 2 = false := by decide

/-! ## Reset and clock -/

theorem test_power_on_reset_ends_reset_low :
    exec .powerOnReset { State.reset with resetLow := true } = .next State.reset := rfl

theorem test_reset_fall_drops_the_access :
    exec .resetNFall (atPort (.hostRead 0 1)) = .next { State.reset with resetLow := true } := rfl

theorem test_hyp_TicksRaiseTheirCounts :
    State.reset.resetLow = false ∧ State.reset.clock.usCount < 1000 ∧
      1000 ≤ ({ State.reset with clock := ⟨0, 1000, 0⟩ } : State).clock.usCount := by decide

/-! ## The memory path -/

/-- Eight words of the CAR window, watched, with the intake queue nearly full. -/
def fullIntake : State :=
  onPath (fun p => { p with windows := p.windows.set 0 ⟨0x2000, 0, 0, 48⟩ })
    (onAsm (fun a => { a with intake := List.replicate 25 ⟨0, 0, 0xF, .control 0⟩ }) State.reset)

theorem test_hyp_UpstreamTransactionsAreHeldOrForwarded :
    (fullIntake.resetLow = false ∧ burstOk (0x2000#26).toNat (List.replicate 8 (beat 7)).length = true ∧
      fullIntake.upstreamFree = true ∧
      fullIntake.unpromised < (captured fullIntake.path (0x2000#26).toNat (List.replicate 8 (beat 7))).length) ∧
    (captured fullIntake.path (0x2000#26).toNat [beat 7]).length ≤ fullIntake.unpromised ∧
    (onPath (fun p => { p with waiting := some (.hostRead 0 1) }) State.reset).upstreamFree = false := by decide

def waitingRead (own : List Access) (n : Nat) : State :=
  onRing (fun r => { r with waiting := own })
    (onPath (fun p => { p with waiting := some (.hostRead 0 1), passOver := n }) State.reset)

theorem test_hyp_ArbiterServesInOrder :
    (atPort (.hostRead 0 1)).path.port ≠ none ∧
    ((waitingRead [] 0).path.port = none ∧ (waitingRead [] 0).path.waiting = some (.hostRead 0 1) ∧
      (waitingRead [] 0).partWaits = false) ∧
    ((waitingRead [.mirrorWrite 0 []] 7).partWaits = true ∧ (waitingRead [.mirrorWrite 0 []] 7).path.passOver < 8) ∧
    (8 ≤ (waitingRead [.mirrorWrite 0 []] 8).path.passOver ∧
      (waitingRead [.mirrorWrite 0 []] 8).ring.waiting = .mirrorWrite 0 [] :: []) ∧
    ((onFetch (fun f => { f with sweepReads := [⟨0, 0, 8, 0, 48, .withdrawn⟩] }) State.reset).ring.waiting = [] ∧
      (onFetch (fun f => { f with sweepReads := [⟨0, 0, 8, 0, 48, .withdrawn⟩] }) State.reset).fetch.reads =
        .sweepRead ⟨0, 0, 8, 0, 48, .withdrawn⟩ :: []) ∧
    (State.reset.path.port = none ∧ State.reset.path.waiting = none ∧ State.reset.partWaits = false) := by decide

/-- A line that watches the bytes from 100h. -/
def watching (x : LineState) : FetchUnit :=
  { FetchUnit.reset with lines := FetchUnit.reset.lines.set 0 ⟨x, ⟨0x100, 0⟩, [], some (0x200, 98)⟩ }

theorem test_hyp_HostWriteCompleteStoresItsLanes :
    ((atPort (.hostWrite 0 [⟨0x11223344, 0x5⟩] [])).resetLow = false ∧
      Memory.wf (atPort (.hostWrite 0 [⟨0x11223344, 0x5⟩] [])).mem = true ∧
      (atPort (.hostWrite 0 [⟨0x11223344, 0x5⟩] [])).path.port = some (.hostWrite 0 [⟨0x11223344, 0x5⟩] []) ∧
      [(⟨0x11223344, 0x5⟩ : Beat)][0]? = some ⟨0x11223344, 0x5⟩) ∧
    ((watching .valid).line 0).hit (writtenBytes 0x200 [beat 1]) = true ∧
    ((watching .valid).line 0).hit (writtenBytes 0x300 [beat 1]) = false := by decide

/-- Area 0 loads 2 glyphs of pitch 64 from 4000h on channel 1, area 1 one glyph from 8000h. -/
def twoLoads : FetchUnit :=
  { FetchUnit.reset with
    requests := [.glyph 0 0x4000 64 2 1, .glyph 1 0x8000 32 1 0]
    channels := FetchUnit.reset.channels.set 1 (some (.glyph 0 2 [7])) }

theorem test_hyp_HostWriteCompleteStoresItsLanes_loads :
    twoLoads.requests.filter (Request.loads 0) = [.glyph 0 0x4000 64 2 1] ∧ twoLoads.loadsOn [0] 1 = true ∧
    ([0x405F].any (inSource 0x4000 64 2) = true ∧ [0x405F].any (inSource 0x8000 32 1) = false) ∧
    [0x4020, 0x403F, 0x4060].any (inSource 0x4000 64 2) = false ∧ 32 ≤ 64 := by decide +kernel

theorem test_a_hit_load_starts_again :
    (twoLoads.snoop [0x405F]).requests = [.glyph 1 0x8000 32 1 0, .glyph 0 0x4000 64 2 0] ∧
      (twoLoads.snoop [0x405F]).channel 1 = none := by decide +kernel

/-- The host reads the oldest record of a ring of 16 at 1000h, in the lowest slot or in the next. -/
def readingOldest (a n : Nat) : State :=
  onRing (fun r => { r with setup := ⟨0x1000, 0, 0, 16⟩, unconsumed := n, oldest := some a }) (atPort (.hostRead a 4))

theorem test_hyp_HostReadCompleteConsumesTheOldest :
    ((readingOldest 0x1000 2).resetLow = false ∧ (readingOldest 0x1000 2).path.port = some (.hostRead 0x1000 4) ∧
      (readingOldest 0x1000 2).ring.oldest = some 0x1000 ∧ 3 < 4 ∧ 0x1000 + 12 = 0x1000 + 4 * 3 ∧
      16 ≤ (readingOldest 0x1000 2).ring.setup.ringSize) ∧
    ((readingOldest 0x1010 1).ring.oldest = some 0x1010 ∧ (readingOldest 0x1010 1).ring.unconsumed - 1 = 0) ∧
    (∀ k, k < 1 → (atPort (.hostRead 0 1)).ring.oldest.map (· + 12) ≠ some (0 + 4 * k)) := by
  refine ⟨by decide, by decide, ?_⟩
  intro k _ h
  cases h

/-- A burst held with one word of the ASSIGN window and one of the CAR window, its timer at `t` of 64. -/
def holding (t : Nat) : State :=
  onPath (fun p => { p with held := some ⟨0x2000, [beat 1, beat 2],
      [⟨1, 0x2000, 0xF, .window 1 0 0 0x2000 1⟩, ⟨2, 0x2004, 0xF, .window 0 0 0 0x2004 1⟩], some ⟨64, t⟩⟩ })
    (onAsm (fun a => { a with winState := a.winState.set 0 .current }) State.reset)

theorem test_hyp_HoldsEndByRoomOrByLoss :
    (∃ h, (holding 64).path.held = some h ∧ (holding 64).resetLow = false ∧ h.items.length ≤ (holding 64).unpromised ∧
      h.timer = some ⟨64, 64⟩ ∧ itemsIn h.items 0 ≠ [] ∧ (holding 64).asm.winStateOf 0 ≠ .disabled ∧
      itemsIn h.items 2 = [] ∧ itemsIn h.items assignWindow = [⟨1, 0x2000, 0xF, .window 1 0 0 0x2000 1⟩]) ∧
    (∃ h, (holding 63).path.held = some h ∧ ∀ x, h.timer = some x → x.ticks < x.limit) ∧
    (∃ h, (onAsm (fun a => { a with intake := List.replicate 31 ⟨0, 0, 0xF, .control 0⟩ }) (holding 0)).path.held = some h ∧
      (onAsm (fun a => { a with intake := List.replicate 31 ⟨0, 0, 0xF, .control 0⟩ }) (holding 0)).unpromised <
        h.items.length) :=
  ⟨⟨_, rfl, by decide⟩, ⟨_, rfl, by intro x h; cases h; decide⟩, ⟨_, rfl, by decide⟩⟩

/-! ## The Record Assembler -/

def drained (i : Item) : State :=
  onPath (fun p => { p with windows := p.windows.set 0 ⟨0x2000, 0, 0, 48⟩ })
    (onAsm (fun a => { a with intake := [i] }) State.reset)

theorem test_hyp_IntakeDrainMergesOneItem :
    ((drained ⟨9, 0x200C, 0x3, .window 0 0 3 0x2000 48⟩).asm.handed = none ∧
      (drained ⟨9, 0x200C, 0x3, .window 0 0 3 0x2000 48⟩).asm.intake = ⟨9, 0x200C, 0x3, .window 0 0 3 0x2000 48⟩ :: [] ∧
      ((drained ⟨9, 0x200C, 0x3, .window 0 0 3 0x2000 48⟩).path.window 0).w0 = 0x2000 ∧
      ((drained ⟨9, 0x200C, 0x3, .window 0 0 3 0x2000 48⟩).path.window 0).w3 = 48) ∧
    ((drained ⟨9, 0x300C, 0x3, .window 0 0 3 0x3000 48⟩).path.window 0).w0 ≠ 0x3000 ∧
    (cbRecord 0 = some (.relocation, 0, 4) ∧ cbRecord 0x5C = some (.settings, 0x40, 8) ∧
      cbRecord 0x3CC = some (.ringSetup, 0x3C0, 4)) ∧
    (hand4 .relocation 0 ⟨0, 0, 0, 0⟩ State.reset).asm.handed ≠ none := by decide

def sweepOver (ahead : Nat) (asked : List Request) : State :=
  onFetch (fun f => { f with requests := asked })
    (onAsm (fun a => { a with sweepEnds := [⟨0, 48, ahead⟩] }) State.reset)

theorem test_hyp_SweepCompletionMakesTheWindowCurrent :
    ((sweepOver 0 []).asm.handed = none ∧ (sweepOver 0 []).asm.sweepEnds = ⟨0, 48, 0⟩ :: [] ∧
      (sweepOver 0 []).fetch.requests.any (Request.sweepsWindow 0) = false) ∧
    (sweepOver 0 [.sweep 0 false]).fetch.requests.any (Request.sweepsWindow 0) = true ∧
    (sweepOver 3 []).asm.sweepEnds = ⟨0, 48, 3⟩ :: [] := by decide

theorem test_sweep_completion_makes_the_window_current : ∃ t, exec .sweepCompletion (sweepOver 0 []) = .next t ∧
    t.asm.winStateOf 0 = .current ∧ t.eng.out = ⟨[⟨.sweepDone 0 48, 0⟩], 0⟩ := ⟨_, rfl, by decide⟩

/-! ## Commits -/

theorem test_hyp_EqualCommitsDoNothing :
    ((hand8 .settings 0x40 settingsReset State.reset).resetLow = false ∧
      (hand8 .settings 0x40 settingsReset State.reset).asm.handed = some .settings ∧
      (hand8 .settings 0x40 settingsReset State.reset).sameAsAccepted .settings = true) ∧
    (commitCommand .relocation ≠ commitCommand .settings ∧ RecordPlace.relocation ≠ .command) := by decide

/-- An assignment of ticket, car and destination to terminal 0's entry, with car 0 at landing 3. -/
def assigning (ticket car dest kind : Word) : State :=
  handSlot 1 0 ⟨ticket, car, dest, kind⟩ (withEntry (withCar 3))

theorem test_hyp_RefusedCommitsOnlyReport :
    ((hand8 .settings 0x40 ⟨7, 64, 100, 20, 8, 4, 0, 400⟩ State.reset).sameAsAccepted .settings = false ∧
      (hand8 .settings 0x40 ⟨7, 64, 100, 20, 8, 4, 0, 400⟩ State.reset).checkRecord .settings = some .badValue) ∧
    (assigning 8 0 5 0).accepts (.window assignWindow 0) ∧ (assigning 7 1 5 0).accepts (.window assignWindow 0) ∧
    (assigning 8 0 5 0).eng.dest.entries.find? (fun y => y.ticket == 8) = none ∧
    (assigning 7 0 6 0).accepts (.window assignWindow 0) ∧ ((assigning 7 0 6 0).stagedSlot assignWindow 0).asnDest ≠ 5 ∧
    judgeCar (assigning 7 1 5 0).eng ((assigning 7 1 5 0).eng.zoneOf 0) 1 = .error .badCar := by
  unfold State.accepts
  exact ⟨by decide, by decide, by decide, by decide, by decide, by decide, rfl⟩

theorem test_hyp_CarCommitTakesTheRecord :
    ((handSlot 0 0 (carRecord 0x00010003) (withCar 3)).accepts (.window carWindow 0) ∧
      isArrival (carRecord 0x00010003) (some .closed) = true ∧ (carRecord 0x00010003).carInService = true ∧
      (carRecord 0x00010003).carGroup = some 0 ∧ (carRecord 0x00010003).arrowNext ≠ .none) ∧
    ((handSlot 0 0 (carRecord 5) (lanternUp none none (withCar 0x00010003))).accepts (.window carWindow 0) ∧
      isArrival (carRecord 5) (some .opening) = false ∧
      (Signal.mk .up true (some 3) false (some 0) none none).running = true ∧
      (Signal.mk .up true (some 3) false (some 0) none none).keptBy (carRecord 5) = false) ∧
    ((handSlot 0 0 (carRecord 0x00020003) (lanternUp none none (withCar 0x00010003))).accepts (.window carWindow 0) ∧
      isArrival (carRecord 0x00020003) (some .opening) = false ∧
      (Signal.mk .up true (some 3) false (some 0) none none).keptBy (carRecord 0x00020003) = true) ∧
    ((handSlot 0 0 (carRecord 4) (withCar 3)).accepts (.window carWindow 0) ∧
      ((withCar 3).eng.ind.signalOf 0).running = false) := by
  unfold State.accepts
  decide

theorem test_car_arrival_lights_the_lantern :
    ∃ t, exec .carCommit (handSlot 0 0 (carRecord 0x00010003) (withCar 3)) = .next t ∧
      (t.eng.ind.signalOf 0).lantern = .up ∧ t.eng.timers.list.length = 2 := ⟨_, rfl, by decide⟩

/-- Car 0 with two stops. -/
def withStops (s : State) : State :=
  onEng (fun e => { e with dest := { e.dest with stops := e.dest.stops.set 0 [⟨3, 2⟩, ⟨5, 1⟩] } }) s

/-- 128 places, none of them a car's. -/
def fullTimers (s : State) : State :=
  onEng (fun e => { e with timers := ⟨(List.range 128).map fun n => ⟨n, .promptHold, .prompt 0, 9, 0, 0⟩, 128⟩ }) s

theorem test_hyp_CarCommitTakesTheRecord_places :
    (let s := handSlot 0 0 ⟨0x00314100, 0x00010003, 0xFF, 0x00010003⟩ (withStops (withCar 3));
      s.accepts (.window carWindow 0) ∧ (s.stagedSlot carWindow 0).carOutOfService = true ∧ s.eng.stopsOf 0 ≠ [] ∧
        isArrival (s.stagedSlot carWindow 0) (some .closed) = true ∧ (s.stagedSlot carWindow 0).carInService = false) ∧
    (let s := handSlot 0 0 ⟨0x00314100, 0, 0xFF, 0x00010003⟩ (withCar 3);
      s.accepts (.window carWindow 0) ∧ isArrival (s.stagedSlot carWindow 0) (some .closed) = true ∧
        (s.stagedSlot carWindow 0).carInService = true ∧ (s.stagedSlot carWindow 0).arrowNext = .none) ∧
    (let s := handSlot 0 0 (carRecord 5) (lanternUp (some 0) (some 1)
        (onEng (fun e => { e with timers := ⟨[⟨1, .gong, .car 0, 0, 400, 1⟩, ⟨0, .lantern, .car 0, 500, 500, 8⟩], 2⟩ })
          (withCar 0x00010003)));
      s.accepts (.window carWindow 0) ∧ ((s.eng.ind.signalOf 0).running && !(s.eng.ind.signalOf 0).keptBy (carRecord 5)) = true ∧
        (s.eng.ind.signalOf 0).lanternPlace = some 0 ∧ (s.eng.ind.signalOf 0).gongPlace = some 1 ∧
        1 < s.eng.timers.nextId) ∧
    (handSlot 0 0 (carRecord 0x00010003) (fullTimers (withCar 3))).accepts (.window carWindow 0) := by
  unfold State.accepts
  decide

theorem test_car_arrival_with_no_direction_claims_nothing :
    ∃ t, exec .carCommit (handSlot 0 0 ⟨0x00314100, 0, 0xFF, 0x00010003⟩ (withCar 3)) = .next t ∧
      t.eng.ind.signalOf 0 = ⟨.none, true, some 3, false, some 0, none, none⟩ ∧ t.eng.timers.list = [] :=
  ⟨_, rfl, by decide⟩

theorem test_refused_claims_are_told_in_order :
    ∃ t, exec .carCommit (handSlot 0 0 (carRecord 0x00010003) (fullTimers (withCar 3))) = .next t ∧
      t.eng.out.queue.map Report.event = [.timerRefused 0 .lantern 3 0, .timerRefused 0 .gong 3 0] := ⟨_, rfl, by decide +kernel⟩

/-- A face with what the Indication Engine gives it. -/
def shownIn (e : Engines) (f : Face) : Face := refreshed State.reset.ambient e f

theorem test_hyp_FacesShowWhatTheirClassGives :
    (let s := withFace (shownIn (withCar 3).eng hallFace) onlineDisplay (withCar 3);
      s.eng.FacesDerived s.ambient ∧ ∃ t, step s = .next t) ∧
    (hallFace.bindA = (0 : Fin 48).val ∧ ((withCar 3).eng.ind.carOf 0).accepted = some (carRecord 3) ∧
      (carRecord 3).carGroup = some 0 ∧ ((withCar 3).eng.ind.groupOf 0).groupPresent = true) ∧
    (∀ r g, (State.reset.eng.ind.carOf 47).accepted = some r → r.carGroup = some g →
      (State.reset.eng.ind.groupOf g).groupPresent = false) ∧
    (State.reset.eng.ind.groupOf 7).groupPresent = false ∧
    ((Signal.mk .none true (some 3) true (some 0) none none).landing = some 3 ∧ 4 = 3 + 1) := by
  refine ⟨⟨?_, _, rfl⟩, by decide, (by intro r g h; cases h), by decide, by decide⟩
  have key : ∀ d f, Engines.faceOf (withFace (shownIn (withCar 3).eng hallFace) onlineDisplay (withCar 3)).eng d = some f →
      f = shownIn (withCar 3).eng hallFace := by
    intro d f h
    unfold Engines.faceOf at h
    change Tab.get [(0, shownIn (withCar 3).eng hallFace)] d = some f at h
    unfold Tab.get at h
    split at h
    · exact (Option.some.inj h).symm
    · cases h
  refine ⟨fun d f h => ?_, fun d f h => ?_, fun d f h => ?_, fun d f h => ?_⟩ <;> rw [key d f h] <;> decide

theorem test_the_lantern_of_a_car_that_announces_nothing_is_shown_lit :
    Signal.show ⟨.none, true, some 3, true, some 0, none, none⟩ 4 = .off (some true) ∧
    Signal.show ⟨.none, true, some 3, false, some 0, none, none⟩ 4 = .off none := by decide

theorem test_hyp_AssignCommitGivesTheStop :
    ((assigning 7 0 5 0).accepts (.window assignWindow 0) ∧
      (assigning 7 0 5 0).eng.dest.entries.find? (fun y => y.ticket == 7) = some ⟨7, 0, 2, 5, .standard, 0⟩ ∧
      ((assigning 7 0 5 0).stagedSlot assignWindow 0).asnDest = 5 ∧
      ((assigning 7 0 5 0).stagedSlot assignWindow 0).asnDecline = false) ∧
    judgeCar (assigning 7 0 5 0).eng ((assigning 7 0 5 0).eng.zoneOf 0) 0 = .ok (0, carRecord 3) ∧
    stopsOrdered [⟨3, 255⟩, ⟨9, 1⟩] ∧ holdsStop [⟨3, 255⟩, ⟨9, 1⟩] 5 = false := by
  refine ⟨?_, rfl, ?_, by decide⟩
  · unfold State.accepts; decide
  · unfold stopsOrdered; decide

theorem test_hyp_DeclineRefusesTheEntry :
    ((assigning 7 0 5 1).accepts (.window assignWindow 0) ∧
      ((assigning 7 0 5 1).stagedSlot assignWindow 0).asnDecline = true ∧
      (assigning 7 0 5 1).eng.dest.entries.find? (fun y => y.ticket == 7) = some ⟨7, 0, 2, 5, .standard, 0⟩ ∧
      ((assigning 7 0 5 1).stagedSlot assignWindow 0).asnDest = 5 ∧
      ((assigning 7 0 5 1).eng.dest.prompts.get 0).isSome = true ∧
      (∃ p ∈ (assigning 7 0 5 1).eng.timers.list, p.id = 0) ∧ (assigning 7 0 5 1).eng.timers.list.length ≤ 128) ∧
    (assigning 8 0 5 1).accepts (.window assignWindow 0) ∧
    (assigning 8 0 5 1).eng.dest.entries.find? (fun y => y.ticket == 8) = none := by
  unfold State.accepts
  decide

theorem test_hyp_RosterCommitCreatesAndRemoves :
    ((handSlot 2 0 ⟨0x00000100, 0, 3, 1⟩ State.reset).accepts (.window rosterWindow 0) ∧
      (Rec4.mk 0x00000100 0 3 1).rosPresent = true ∧ (Rec4.mk 0x00000100 0 3 1).rosClass = some .hallSegment ∧
      (handSlot 2 0 ⟨0x00000100, 0, 3, 1⟩ State.reset).eng.faceOf 0 = none) ∧
    ((handSlot 2 0 ⟨0, 0, 0, 0⟩ (withEntry State.reset)).accepts (.window rosterWindow 0) ∧
      (Rec4.mk 0 0 0 0).rosPresent = false ∧
      (handSlot 2 0 ⟨0, 0, 0, 0⟩ (withEntry State.reset)).eng.faceOf 0 = some terminalFace) := by
  unfold State.accepts
  decide

theorem test_hyp_LabelCommitTakesTheRecord :
    (handSlot 3 255 ⟨0x31, 0x31, 0, 0x0101⟩ State.reset).accepts (.window labelWindow 255) := by
  unfold State.accepts
  decide

theorem test_hyp_PlayoutCommitStartsAndStops :
    ((handSlot 4 0 ⟨0x100, 0xFF000000, 0x05100000, 0x0102⟩ State.reset).accepts (.window playoutWindow 0) ∧
      (Rec4.mk 0x100 0xFF000000 0x05100000 0x0102).ploActionCode = 1) ∧
    ((handSlot 4 15 ⟨0, 0, 0, 0⟩ State.reset).accepts (.window playoutWindow 15) ∧
      (Rec4.mk 0 0 0 0).ploActionCode = 0) ∧
    (let f : Face := { terminalFace with cover := some 0 };
      (!(targetsOf [(0, f)] ⟨0x100, 0xFF000401, 0x05100000, 0x0102⟩).isEmpty &&
        allCovered [(0, f)] (targetsOf [(0, f)] ⟨0x100, 0xFF000401, 0x05100000, 0x0102⟩)) = true) := by
  unfold State.accepts
  decide

/-- Context 0 plays message 100h in languages 0 and 1 on the TERMINALs of group 0, all floors, a dwell of 5 s. -/
def playRecord : Rec4 := ⟨0x100, 0xFF000401, 0x05200020, 0x0100⟩

def playing (x : CtxState) (lang : Option (Fin 16)) (place : Option Nat) (s : State) : State :=
  onEng (fun e => { e with play := e.play.set 0 ⟨x, some playRecord, 0, lang, 0, place, 700, [0]⟩ }) s

theorem test_hyp_PlayoutCommitStartsAndStops_notices :
    (let s := handSlot 4 1 playRecord (withFace terminalFace onlineDisplay State.reset);
      s.accepts (.window playoutWindow 1) ∧ (s.stagedSlot playoutWindow 1).ploActionCode = 1 ∧
        0 ∈ targetsOf s.eng.face.faces playRecord) ∧
    (let s := handSlot 4 0 ⟨0, 0, 0, 0⟩ (playing .playing none none (withEntry State.reset));
      s.accepts (.window playoutWindow 0) ∧ 0 ∈ (s.eng.ctx 0).targets) := by
  unfold State.accepts
  decide

theorem test_start_hands_the_notice :
    ∃ t, exec .playoutCommit (handSlot 4 1 playRecord (withFace terminalFace onlineDisplay State.reset)) = .next t ∧
      (t.eng.faceOf 0).bind Face.notice = some ⟨1, 0x100, none, [0, 1]⟩ := ⟨_, rfl, by decide⟩

theorem test_hyp_RelocationAndRingComeIntoForce :
    (hand4 .relocation 0 ⟨0, 0, 0, 0x00010000⟩ State.reset).accepts .relocation ∧
    (hand4 .ringSetup 0x3C0 ⟨0x1000, 0, 0, 16⟩ State.reset).accepts .ringSetup ∧
    (hand4 .ringSetup 0x3C0 ⟨0, 0, 0, 0⟩ ringBusy).accepts .ringSetup := by
  unfold State.accepts
  decide

theorem test_hyp_DescriptorCommitSetsTheWindow :
    (hand4 (.descriptor 0) 0x80 ⟨0, 7, 0, 0⟩ State.reset).accepts (.descriptor 0) ∧
    (hand4 (.descriptor 0) 0x80 ⟨0x2000, 0, 0, 48⟩ State.reset).accepts (.descriptor 0) ∧
    (hand4 (.descriptor 1) 0x90 ⟨0x2000, 0, 0, 1⟩ State.reset).accepts (.descriptor assignWindow) ∧
    (hand4 (.descriptor 0) 0x80 ⟨0, 0, 0, 0⟩ fullIntake).accepts (.descriptor 0) := by
  unfold State.accepts
  decide

theorem test_hyp_SettingsCommitComesIntoForce :
    (hand8 .settings 0x40 ⟨8, 64, 100, 20, 8, 4, 0x100, 400⟩ State.reset).accepts .settings := by
  unfold State.accepts
  decide

theorem test_hyp_GroupCommitTakesTheRecord :
    (hand8 (.group 0) 0x100 { group0 with w7 := 0 } (withCar 3)).accepts (.group 0) ∧
    ((withCar 3).eng.ind.carOf 0).group = some 0 ∧ ((withCar 3).eng.ind.carOf 0).accepted = some (carRecord 3) ∧
    ((withCar 3).eng.ind.carOf 1).group ≠ some 0 ∧ ((withCar 3).eng.ind.groupOf 0).groupPresent = true ∧
    (hand8 (.group 0) 0x100 { group0 with w6 := 5 } (withCar 3)).accepts (.group 0) ∧
    ({ group0 with w6 := 5 } : Rec8).groupPresent = true := by
  unfold State.accepts
  decide

theorem test_hyp_LinkSetupCommitRunsTheLink :
    ((hand4 (.linkSetup 0) 0x200 ⟨1, 2, 0x00003000, 1⟩ (withFace hallFace onlineDisplay State.reset)).accepts
        (.linkSetup 0) ∧ (Rec4.mk 1 2 0x00003000 1).lnkRun = true ∧ (State.reset.eng.linkOf 0).running = false) ∧
    ((hand4 (.linkSetup 0) 0x200 ⟨0, 0, 0, 0⟩ (withLink (link0 4) State.reset)).accepts (.linkSetup 0) ∧
      (Rec4.mk 0 0 0 0).lnkRun = false ∧ ((withLink (link0 4) State.reset).eng.linkOf 0).running = true) ∧
    (hand4 (.linkSetup 0) 0x200 ⟨1, 2, 0x00003000, 1⟩ (withLink (link0 4) State.reset)).accepts (.linkSetup 0) := by
  unfold State.accepts
  decide

/-- Slot 0 in force over group 0, floors 0 to 9. -/
def slotRecord : Rec4 := ⟨0x00090001, 0x34333231, 0, 1⟩

theorem test_hyp_OverrideSlotCommitSetsTheCover :
    ((hand4 (.overrideSlot 0) 0x280 slotRecord (withFace hallFace onlineDisplay State.reset)).accepts (.overrideSlot 0) ∧
      slotRecord.ovrInForce = true ∧ (slotOf State.reset.eng.face.slots 0).record.ovrInForce = false) ∧
    (let s := onEng (fun e => { e with face := { e.face with slots := e.face.slots.set 0 ⟨slotRecord, none, none⟩ } }) State.reset;
      (hand4 (.overrideSlot 0) 0x280 ⟨0, 0, 0, 0⟩ s).accepts (.overrideSlot 0) ∧
        (slotOf s.eng.face.slots 0).record.ovrInForce = true ∧ (Rec4.mk 0 0 0 0).ovrInForce = false) := by
  unfold State.accepts
  decide

/-- Area 0 is READY. -/
def areaReady : State := onFetch (fun f => { f with areas := f.areas.set 0 ⟨.ready, .single, 1, []⟩ }) State.reset

theorem test_hyp_LanguageCommitTakesTheRecord :
    ((hand4 (.language 0) 0x2C0 ⟨0, 0, 0, 0⟩ areaReady).accepts (.language 0) ∧ areaReady.fetch.ready 0 = false) ∧
    (hand4 (.language 15) 0x3B0 ⟨0, 0, 0, 7⟩ areaReady).accepts (.language 15) := by
  unfold State.accepts
  decide

/-! ## Commands of the command record -/

def commanded (w0 w1 w2 w3 : Word) (s : State) : State := hand4 .command 0x10 ⟨w0, w1, w2, w3⟩ s

theorem test_hyp_RestartClearsTheTables :
    (commanded 0 0 0 1 State.reset).resetLow = false ∧ (commanded 0 0 0 1 State.reset).asm.handed = some .command ∧
      ((commanded 0 0 0 1 State.reset).staged4 0x10).cmdOpcode = 1 := by decide

theorem test_hyp_SweepCommandMakesTheWindowStale :
    let s := onAsm (fun a => { a with winState := a.winState.set 0 .current }) State.reset;
    ((commanded 5 0 0 2 s).asm.handed = some .command ∧ ((commanded 5 0 0 2 s).staged4 0x10).cmdOpcode = 2 ∧
      4 < ((commanded 5 0 0 2 s).staged4 0x10).cmdWindow) ∧
    ((commanded 1 0 0 2 s).staged4 0x10).cmdWindow = 1 ∧
    (((commanded 4 0 0 2 s).staged4 0x10).cmdWindow = 4 ∧ s.asm.winStateOf 4 = .disabled) ∧
    (((commanded 0 0 0 2 s).staged4 0x10).cmdWindow = 0 ∧ s.asm.winStateOf 0 ≠ .disabled ∧
      s.fetch.requests.any (Request.sweepsWindow 0) = false) ∧
    (let f : FetchUnit := { s.fetch with requests := [.sweep 0 false] };
      f.requests.any (Request.sweepsWindow 0) = true ∧ f.active (.sweep 0 false) = false ∧
      ({ f with channels := f.channels.set 0 (some (.sweep 0 0 16 0 1)) } : FetchUnit).active (.sweep 0 false) = true) := by
  decide

theorem test_hyp_LoadGlyphsOfNoneEmptiesTheBank :
    (commanded 7 0 0 3 areaReady).resetLow = false ∧ (commanded 7 0 0 3 areaReady).asm.handed = some .command ∧
      ((commanded 7 0 0 3 areaReady).staged4 0x10).cmdOpcode = 3 ∧
      ((commanded 7 0 0 3 areaReady).staged4 0x10).cmdArea = (7 : Fin 8).val ∧
      ((commanded 7 0 0 3 areaReady).staged4 0x10).cmdCount = 0 ∧
      (let f := onFetch (fun f => { f with areas := f.areas.set 1 ⟨.ready, .upper, 512, []⟩ }) State.reset;
        (f.fetch.area 1).role ≠ .single ∧ (1 : Fin 8) ∈ f.fetch.bankOf 1) ∧
      (let s := onFetch (fun f => { f with langs := f.langs.set 0 ⟨0, 0, 0, 0⟩ }) areaReady;
        (s.fetch.lang 0).langArea = some 0 ∧ (0 : Fin 8) ∈ s.fetch.bankOf 0) := by decide

theorem test_hyp_LoadGlyphsBeginsTheLoad :
    (commanded 0 0x4000 0x00200101 3 areaReady).resetLow = false ∧
    (commanded 0 0x4000 0x00200101 3 areaReady).asm.handed = some .command ∧
    ((commanded 0 0x4000 0x00200101 3 areaReady).staged4 0x10).cmdOpcode = 3 ∧
    ((commanded 0 0x4000 0x00200101 3 areaReady).staged4 0x10).cmdCount = 257 ∧
    areaReady.fetch.checkLoad ⟨0, 0x4000, 0x00200101, 3⟩ = .ok 0 ∧
    areaReady.fetch.checkLoad ⟨1, 0x4000, 0x00200101, 3⟩ = .error .badArea ∧
    ((commanded 0 0 0 4 State.reset).staged4 0x10).cmdOpcode ≠ 3 :=
  ⟨by decide, by decide, by decide, by decide, rfl, rfl, by decide⟩

/-! ## The Fetch Unit -/

def asked (r : Request) : State :=
  onPath (fun p => { p with windows := p.windows.set 0 ⟨0x2000, 0, 0, 48⟩ })
    (onFetch (fun f => { f with requests := [r] }) State.reset)

theorem test_hyp_ChannelTakesTheFirstWaiting :
    ((asked (.sweep 0 false)).resetLow = false ∧ (asked (.sweep 0 false)).fetch.channel 3 = none ∧
      (asked (.sweep 0 false)).fetch.nextWaiting = some (.sweep 0 false)) ∧
    (asked (.glyph 0 0 32 257 0)).fetch.nextWaiting = some (.glyph 0 0 32 257 0) ∧
    ((asked (.text ⟨0x100, 0⟩)).fetch.nextWaiting = some (.text ⟨0x100, 0⟩) ∧ (Tag.mk 0x100 0).pastTop = false) ∧
    ((asked (.text ⟨0x3FFFFFC, 0⟩)).fetch.nextWaiting = some (.text ⟨0x3FFFFFC, 0⟩) ∧
      (Tag.mk 0x3FFFFFC 0).pastTop = true) := by decide

def sweeping (next : Nat) (rerun : Bool) : State :=
  onFetch (fun f => { f with
    requests := [.sweep 0 rerun], channels := f.channels.set 0 (some (.sweep 0 next 0x2300 0x2000 48)) }) State.reset

def sweepAtPort (next : Nat) (rerun : Bool) (x : ReadStatus) : State :=
  onPath (fun p => { p with port := some (.sweepRead ⟨0, 0x22E0, 8, 0x2000, 48, x⟩) }) (sweeping next rerun)

theorem test_hyp_SweepReadsFillTheIntake :
    ((sweeping 0x2000 false).resetLow = false ∧
      (sweeping 0x2000 false).fetch.channel 0 = some (.sweep 0 0x2000 0x2300 0x2000 48) ∧
      (sweeping 0x2000 false).path.held = none ∧ 16 ≤ (sweeping 0x2000 false).unpromised) ∧
    (sweeping 0x2300 false).fetch.channel 0 = some (.sweep 0 0x2300 0x2300 0x2000 48) ∧
    (onAsm (fun a => { a with intake := List.replicate 17 ⟨0, 0, 0xF, .control 0⟩ }) (sweeping 0x2000 false)).unpromised < 16 ∧
    (sweepAtPort 0x2300 false .abandoned).path.port = some (.sweepRead ⟨0, 0x22E0, 8, 0x2000, 48, .abandoned⟩) ∧
    (sweepAtPort 0x2000 false .live).fetch.sweptOut 0 = none ∧
    ((sweepAtPort 0x2300 false .live).fetch.sweptOut 0 = some (0, 48) ∧
      (sweepAtPort 0x2300 false .live).fetch.rerunMarked 0 = false) ∧
    ((sweepAtPort 0x2300 true .live).fetch.sweptOut 0 = some (0, 48) ∧
      (sweepAtPort 0x2300 true .live).fetch.rerunMarked 0 = true) := by decide

/-- A load of area 0 on channel 1 at the end of its first transfer, or of its last. -/
def loading (stop count progress : Nat) : State :=
  onFetch (fun f => { f with
    requests := [.glyph 0 0x4000 32 count progress], channels := f.channels.set 1 (some (.glyph 0 stop [])) }) State.reset

theorem test_hyp_FetchReadsReachTheirChannel :
    ((atPort (.fetchRead 0 0x100 8 true)).path.port = some (.fetchRead 0 0x100 8 true) ∧
      (atPort (.fetchRead 0 0x100 8 false)).path.port = some (.fetchRead 0 0x100 8 false) ∧
      (onFetch (fun f => f.setChannel 0 (some (messageJob ⟨0x100, 0⟩ 0))) State.reset).fetch.channel 0 =
        some (.text ⟨0x100, 0⟩ 0 .message 0x100 17 [] 0 0 [])) ∧
    ((loading 256 257 256).fetch.channel 1 = some (.glyph 0 256 []) ∧
      (loading 256 257 256).fetch.load 0 = some (0x4000, 32, 257, 256)) ∧
    (loading 257 257 257).fetch.load 0 = some (0x4000, 32, 257, 257) ∧
    (loading 256 256 255).fetch.load 0 = some (0x4000, 32, 256, 255) := by decide

/-- A text fill of line 0 on channel 0 at the end of a transfer. -/
def filling (x : LineState) (stage : TextStage) (got : List Word) (str : Nat) : State :=
  onFetch (fun f => { f with
    lines := f.lines.set 0 ⟨x, ⟨0x100, 0⟩, [], none⟩
    requests := [.text ⟨0x100, 0⟩]
    channels := f.channels.set 0 (some (.text ⟨0x100, 0⟩ 0 stage 0x144 0 got str 0 [])) }) State.reset

theorem test_hyp_TextFillMakesTheLineValid :
    (((filling .filling .message [0] 0).fetch.line 0).state = .filling ∧ stringPointer ⟨0x100, 0⟩ [0] = none ∧
      (filling .filling .message [0] 0).fetch.channel 0 =
        some (.text ⟨0x100, 0⟩ 0 .message 0x144 0 [0] 0 0 [])) ∧
    ((filling .fillingStale .code [0x00420041] 0x200).fetch.line 0).state = .fillingStale ∧
    (filling .fillingStale .code [0x00420041] 0x200).fetch.channel 0 =
      some (.text ⟨0x100, 0⟩ 0 .code 0x144 0 [0x00420041] 0x200 0 []) ∧
    stringPointer ⟨0x100, 0⟩ [1, 0x202] = some 0x202 ∧
    ((filling .filling .length [0x00410003] 0x200).fetch.channel 0 =
        some (.text ⟨0x100, 0⟩ 0 .length 0x144 0 [0x00410003] 0x200 0 []) ∧
      0x200 + 2 + 2 * min 48 (bitsN (0x00410003 : Word) 0 16) ≤ Config.addressSpace ∧
      1 < min 48 (bitsN (0x00410003 : Word) 0 16)) := by decide

/-! ## The display links -/

/-- A frame of display 0 of 48 bytes, its next block of index `k`. -/
def frame0 (k : Nat) (abort : Bool) (closing : Closing) : Frame :=
  ⟨0, .matrix, List.replicate 48 0, k, 0, abort, false, closing⟩

def linkWith (slot : Nat) (fr : Option Frame) (queue : List Nat) : State :=
  withLink { link0 slot with frame := fr, queue := queue } (withFace hallFace onlineDisplay State.reset)

theorem test_hyp_OutSlotSendsOneBlock :
    ((linkWith 1 none []).eng.linkOf 0).inOut = false ∧
    (((linkWith 0 (some (frame0 1 false .none)) [0]).eng.linkOf 0).inOut = true ∧
      ((linkWith 0 (some (frame0 1 false .none)) [0]).eng.linkOf 0).served = false ∧
      ((linkWith 0 (some (frame0 1 false .none)) [0]).eng.linkOf 0).frame = some (frame0 1 false .none) ∧
      (frame0 1 false .none).abortDue = false) ∧
    (((linkWith 0 (some (frame0 1 true .none)) [0]).eng.linkOf 0).frame = some (frame0 1 true .none) ∧
      (frame0 1 true .none).abortDue = true) ∧
    (((linkWith 30 none []).eng.linkOf 0).inOut = true ∧ ((linkWith 30 none []).eng.linkOf 0).frame = none ∧
      ((linkWith 30 none []).eng.linkOf 0).queue = []) := by decide

/-- Terminal 0 at the head of link 0's queue with a message as its idle text. -/
def idleText : State :=
  withLink { link0 0 with queue := [0] } (withFace { terminalFace with base := .terminal 0x100 } onlineDisplay State.reset)

theorem test_hyp_OutSlotWalksTheQueue :
    (((linkWith 0 none [0, 9]).eng.linkOf 0).inOut = true ∧ ((linkWith 0 none [0, 9]).eng.linkOf 0).served = false ∧
      ((linkWith 0 none [0, 9]).eng.linkOf 0).frame = none ∧ ((linkWith 0 none [0, 9]).eng.linkOf 0).queue = 0 :: [9] ∧
      (linkWith 0 none [0, 9]).eng.faceOf 0 = some hallFace ∧ hallFace.waitText = none ∧
      (hallFace.visible State.reset.eng.face.slots).line = none) ∧
    ((idleText.eng.linkOf 0).inOut = true ∧ (idleText.eng.linkOf 0).served = false ∧
      (idleText.eng.linkOf 0).frame = none ∧ (idleText.eng.linkOf 0).queue = [0] ∧
      idleText.eng.faceOf 0 = some { terminalFace with base := .terminal 0x100 } ∧
      Face.awaits { terminalFace with base := .terminal 0x100 } idleText.fetch = false ∧
      (Face.visible idleText.eng.face.slots { terminalFace with base := .terminal 0x100 }).line = some ⟨0x100, 0⟩ ∧
      idleText.fetch.lookup ⟨0x100, 0⟩ = none) := by decide

/-- Display 0 shows an override, display 9 does not. -/
def overEng : Engines :=
  (onEng (fun e => { e with face := { e.face with faces := [(0, { hallFace with cover := some 0 }), (9, hallFace)] } })
    State.reset).eng

theorem test_hyp_FrameEndsWithItsLastBlock :
    ((linkWith 0 (some (frame0 2 false .last)) [0]).resetLow = false ∧
      ((linkWith 0 (some (frame0 2 false .last)) [0]).eng.linkOf 0).frame = some (frame0 2 false .last) ∧
      (frame0 2 false .last).closing = .last ∧ (frame0 2 true .abort).closing = .abort) ∧
    (overEng.showsOverride 9 = false ∧ overEng.showsOverride 0 = true) ∧
    (Link.queue { link0 0 with queue := [9] }).any overEng.showsOverride = false ∧
    (Link.inFlight { link0 0 with queue := [9] } = none ∧
      Link.inFlight { link0 0 with queue := [9], frame := some { frame0 1 false .none with display := 9 } } = some 9) ∧
    (Link.queue { link0 0 with queue := [9, 0, 9] } = [9] ++ 0 :: [9] ∧ ([9] : List Nat).any overEng.showsOverride = false) := by
  decide

/-- A good STATUS answer of drop 1 with fault code 5, and a good ENTRY answer for floor 5 with toggle 1. -/
def heardOf (data : List Byte) : List LinkChar :=
  match data ++ checkBytes data with
  | a :: rest => ⟨a, true, true⟩ :: rest.map fun b => ⟨b, false, true⟩
  | [] => []

/-- Display 0 designated in IN slot 1 of link 0. -/
def polled (x : Display) (f : Face) : State :=
  withLink { link0 1 with pending := some 1 } (withFace f x (withCar 3))

theorem test_hyp_GoodAnswersKeepTheDisplayOnline :
    ((polled ⟨.offline, 3, 0, none⟩ hallFace).resetLow = false ∧
      (polled ⟨.offline, 3, 0, none⟩ hallFace).eng.awaited 0 = some (1, 0) ∧
      goodAnswerIn (heardOf [1, 1, 5]) 1 = some (.status 5) ∧
      (polled ⟨.offline, 3, 0, none⟩ hallFace).eng.link.displays.get 0 = some ⟨.offline, 3, 0, none⟩) ∧
    ((polled ⟨.online, 0, 0, some true⟩ terminalFace).eng.awaited 0 = some (1, 0) ∧
      goodAnswerIn (heardOf [1, 2, 5, 2]) 1 = some (.entry 5 .standard true 0) ∧
      (polled ⟨.online, 0, 0, some true⟩ terminalFace).eng.link.displays.get 0 = some ⟨.online, 0, 0, some true⟩) := by
  decide +kernel

theorem test_hyp_OnlyTerminalsEnter :
    ((withFace hallFace onlineDisplay State.reset).eng.faceOf 0 = some hallFace ∧ hallFace.cls ≠ .terminal ∧
      (255 : Nat) < 256 ∧
      (withFace hallFace ⟨.online, 0, 0, some true⟩ State.reset).eng.link.displays.get 0 = some ⟨.online, 0, 0, some true⟩) ∧
    ((withFace terminalFace onlineDisplay State.reset).eng.faceOf 0 = some terminalFace ∧ terminalFace.cls = .terminal) := by
  decide

/-- Floors 2 and 5 with selectable labels, group 0 and terminal 0. -/
def keyedAt : Engines :=
  (onEng (fun e => { e with ind := { e.ind with labels := [(2, ⟨0, 0, 0, 0x0101⟩), (5, ⟨0, 0, 0, 0x0101⟩)] } })
    (withFace terminalFace onlineDisplay (withCar 3))).eng

theorem test_hyp_EntryChecksAreTakenInOrder :
    (Face.cover { terminalFace with cover := some 0 } ≠ none ∧ terminalFace.cover = none) ∧
    (selectable keyedAt.ind 5 = true ∧ 5 ≠ terminalFace.bindB ∧
      zoneServes keyedAt.ind terminalFace.zone terminalFace.bindB 5 = true) ∧
    selectable keyedAt.ind 6 = false ∧ keyedAt.dest.entries.length < 64 ∧ keyedAt.timers.list.length < 128 ∧
    64 ≤ (List.replicate 64 (⟨7, 0, 2, 5, .standard, 0⟩ : Entry)).length ∧
    128 ≤ (List.replicate 128 (⟨0, .entryWait, .ticket 7, 0, 0, 0⟩ : TimerPlace)).length := by
  decide +kernel

theorem test_keyed_entry_takes_the_ticket :
    (keyedAt.checkEntry State.reset.ambient 0 terminalFace ⟨5, .standard⟩).dest.entries = [⟨1, 0, 2, 5, .standard, 0⟩] := by
  decide

theorem test_hyp_InSlotMissCountsToOffline :
    ((polled ⟨.online, 2, 0, none⟩ hallFace).resetLow = false ∧
      (polled ⟨.online, 2, 0, none⟩ hallFace).eng.awaited 0 = some (1, 0) ∧ goodAnswerIn [] 1 = none ∧
      (polled ⟨.online, 2, 0, none⟩ hallFace).eng.link.displays.get 0 = some ⟨.online, 2, 0, none⟩) ∧
    (polled ⟨.offline, 3, 0, none⟩ hallFace).eng.awaited 0 = some (1, 0) ∧
    (polled ⟨.online, 1, 0, none⟩ hallFace).eng.awaited 0 = some (1, 0) := by decide

theorem test_hyp_SlotAdvancesThroughTheCycle :
    let atEnd := withLink { link0 31 with pending := none } State.reset;
    (atEnd.resetLow = false ∧ (atEnd.eng.linkOf 0).running = true ∧ atEnd.eng.slotOver 0 = true) ∧
    (State.reset.eng.linkOf 0).running = false ∧ (withLink (link0 0) State.reset).eng.slotOver 0 = false := by decide

/-! ## The timer list -/

def placeOf (kind : PlaceKind) (owner : Owner) (expiry : BitVec 32) (interval count : Nat) : TimerPlace :=
  ⟨0, kind, owner, expiry, interval, count⟩

def timed (p : TimerPlace) (s : State) : State := onEng (fun e => { e with timers := ⟨[p], 1⟩ }) s

theorem test_hyp_RemainingTimeIsSavedAtSuspension :
    let p := placeOf .dwell (.context 0) 5 1000 0;
    let e := (timed p (onEng (fun e => { e with play := e.play.set 0 { Context.reset with place := some 0 } }) State.reset)).eng;
    e.timers.list.find? (fun q => q.id == p.id) = some p ∧ (e.ctx 0).place = some p.id ∧
      ((5 : BitVec 32) - p.expiry).toNat < 2147483648 ∧ 2147483648 ≤ ((4 : BitVec 32) - p.expiry).toNat ∧
      (e.ctx 0).saved = 0 ∧ e.timers.list.length < 128 := by decide

theorem test_hyp_ExpiriesDeliverTheDueHead :
    (∀ p ∈ [placeOf .entryWait (.ticket 7) 0 0 0, placeOf .promptHold (.prompt 0) 0 0 0, placeOf .lantern (.car 0) 0 500 4,
        placeOf .gong (.car 0) 0 400 0, placeOf .dwell (.context 0) 0 1000 0], (timed p State.reset).resetLow = false ∧
          (timed p State.reset).eng.timers.list = p :: [] ∧ reached (timed p State.reset).clock.ms p.expiry = true) ∧
    (let s := timed (placeOf .overrideDwell (.slot 0) 0 5000 0)
        (onEng (fun e => { e with face := { e.face with slots := e.face.slots.set 0 ⟨slotRecord, none, some 0⟩ } }) State.reset);
      (slotOf s.eng.face.slots 0).place = some 0 ∧ s.eng.timers.due s.clock.ms ≠ none) ∧
    (timed (placeOf .gong (.car 0) 1 400 2) State.reset).eng.timers.due 0 = none ∧
    ((placeOf .gong (.car 0) 0 400 1).interval ≠ 0 ∧ (placeOf .gong (.car 0) 0 400 1).count = 1 ∧
      2 ≤ (placeOf .gong (.car 0) 0 400 2).count) := by decide

theorem test_hyp_OwnersActOnTheirExpiry :
    (withEntry State.reset).eng.dest.entries.find? (fun y => y.place == 0) = some ⟨7, 0, 2, 5, .standard, 0⟩ ∧
    ((lanternUp (some 0) (some 1) (withCar 3)).eng.ind.signalOf 0).lanternPlace = some 0 ∧
    (((lanternUp (some 1) (some 0) (withFace hallFace onlineDisplay (withCar 3))).eng.ind.signalOf 0).gongPlace = some 0 ∧
      Tab.wf (withFace hallFace onlineDisplay (withCar 3)).eng.face.faces = true ∧
      (withFace hallFace onlineDisplay (withCar 3)).eng.faceOf 0 = some hallFace) ∧
    (let e := (onEng (fun e => { e with play := e.play.set 0 ⟨.playing, some ⟨0x100, 0xFF000000, 0x05100000, 0x0100⟩,
        0, none, 0, some 0, 0, []⟩ }) State.reset).eng;
      (e.ctx 0).place = some 0 ∧
        ((e.ctx 0).advance State.reset.fetch.ready ((e.ctx 0).accepted.getD Rec4.zero)).2 = false) ∧
    (slotOf (onEng (fun e => { e with face := { e.face with
      slots := e.face.slots.set 0 ⟨slotRecord, some 0, some 0⟩ } }) State.reset).eng.face.slots 0).lang = some 0 ∧
    (State.reset.eng.dest.entries.find? (fun y => y.place == 0) = none ∧
      (State.reset.eng.ind.signalOf 0).lanternPlace ≠ some 0 ∧ (State.reset.eng.ind.signalOf 0).gongPlace ≠ some 0 ∧
      (State.reset.eng.ctx 0).place ≠ some 0) := by decide

/-! ## Reports -/

theorem test_hyp_ReportsQueueOrFold :
    ((Outbox.mk [] 0).queue.length < 8 ∧ (Outbox.mk [] 0).tally = 0) ∧ (Outbox.mk [] 1).tally ≠ 0 ∧
    8 ≤ (Outbox.mk (List.replicate 8 ⟨.commandDone 1, 0⟩) 0).queue.length := by decide

def reporting (n : Nat) : State :=
  onRing (fun r => { r with setup := ⟨0x1000, 0, 0, 16⟩, writePos := some 0x10F0, unconsumed := n })
    (onEng (fun e => { e with out := ⟨[⟨.commandDone 1, 0⟩], 0⟩ }) State.reset)

theorem test_hyp_ReportIsWrittenOnce :
    ((reporting 15).resetLow = false ∧ (reporting 15).eng.out.queue = ⟨.commandDone 1, 0⟩ :: [] ∧
      (reporting 15).ring.writePos = some 0x10F0 ∧ (reporting 15).reportFlying = false ∧
      (reporting 15).ring.unconsumed < (reporting 15).ring.setup.ringSize) ∧
    (reporting 16).ring.setup.ringSize ≤ (reporting 16).ring.unconsumed ∧
    (ringBusy.path.port = some (.reportWrite 0x1000 [1, 2, 3, 4] false) ∧ Memory.wf ringBusy.mem = true) := by decide

theorem test_hyp_StatusMirrorFollowsTheItems :
    (State.reset.resetLow = false ∧ State.reset.ring.mirrorLast ≠ some State.reset.mirror ∧
      State.reset.ring.mirrorAt = none) ∧
    (let s := onRing (fun r => { r with mirrorMoved := true, mirrorAt := some 0 }) State.reset;
      s.ring.mirrorMoved = true ∧ ¬ s.asm.settings.statusPeriod ≤ (s.clock.ms - 0).toNat ∧
        s.asm.settings.statusPeriod ≤ ((100 : BitVec 32) - 0).toNat) ∧
    ((atPort (.mirrorWrite 0x3FFF800 [1, 2])).path.port = some (.mirrorWrite 0x3FFF800 [1, 2]) ∧
      Memory.wf (atPort (.mirrorWrite 0x3FFF800 [1, 2])).mem = true) := by decide

/-! ## States that keep the laws of the roster, the queues and the claims -/

/-- What `Timers.gives` asks, as a check. -/
def givesTo (tm : Timers) (kind : PlaceKind) (owner : Owner) : Option Nat → Bool
  | none => true
  | some id => id < tm.nextId && tm.list.all fun p => p.id != id || (p.kind == kind && p.owner == owner)

theorem gives_of {tm : Timers} {kind : PlaceKind} {owner : Owner} {held : Option Nat}
    (h : givesTo tm kind owner held = true) : tm.gives kind owner held := by
  intro id hid
  subst hid
  unfold givesTo at h
  rw [Bool.and_eq_true, decide_eq_true_eq, List.all_eq_true] at h
  refine ⟨h.1, fun p hp hpid => ?_⟩
  have := h.2 p hp
  simpa [hpid] using this

/-- The laws of the claims, as a check. -/
theorem claims_of {e : Engines} (h : ∀ p ∈ e.timers.list, p.id < e.timers.nextId)
    (h1 : (e.timers.list.map TimerPlace.id).Nodup) (h2 : (e.dest.entries.map Entry.ticket).Nodup)
    (h3 : ∀ x ∈ e.dest.entries, ∃ p ∈ e.timers.list, p.id = x.place ∧ p.kind = .entryWait ∧ p.owner = .ticket x.ticket)
    (h4 : ∀ p ∈ e.timers.list, p.kind = .entryWait → ∃ x ∈ e.dest.entries, x.place = p.id)
    (h5 : ∀ y ∈ e.dest.prompts, ∀ x ∈ y.2, givesTo e.timers .promptHold (.prompt y.1) x.hold = true)
    (h6 : ∀ c, givesTo e.timers .lantern (.car c) (e.ind.signalOf c).lanternPlace = true)
    (h7 : ∀ c, givesTo e.timers .gong (.car c) (e.ind.signalOf c).gongPlace = true)
    (h8 : ∀ c, givesTo e.timers .dwell (.context c) (e.ctx c).place = true)
    (h9 : ∀ k, givesTo e.timers .overrideDwell (.slot k) (slotOf e.face.slots k).place = true) : e.ClaimsSafe := by
  refine ⟨h, h1, h2, h3, h4, fun d x hx => ?_, fun c => gives_of (h6 c), fun c => gives_of (h7 c),
    fun c => gives_of (h8 c), fun k => gives_of (h9 k)⟩
  unfold Engines.promptsOf at hx
  cases hq : e.dest.prompts.get d with
  | none => rw [hq] at hx; cases hx
  | some q => rw [hq] at hx; exact gives_of (h5 _ (Tab.mem_of_get hq) x hx)

/-- The laws of the roster and the transmit queues, as a check. -/
theorem links_of {e : Engines} (h : Tab.wf e.face.faces = true)
    (h1 : (e.face.faces.filter fun x => x.2.cls == .terminal).length ≤ Config.terminalPlaces)
    (h2 : ∀ x ∈ e.face.faces, 1 ≤ x.2.drop ∧ x.2.drop ≤ 63)
    (h3 : ∀ x ∈ e.face.faces, ∀ y ∈ e.face.faces, x.2.link = y.2.link → x.2.drop = y.2.drop → x.1 = y.1)
    (h4 : ∀ n, (e.linkOf n).queue.Nodup)
    (h5 : ∀ n, ∀ d ∈ (e.linkOf n).queue, e.online d = true ∧ (e.faceOf d).any (fun f => f.link == n) = true)
    (h6 : ∀ n, (e.linkOf n).frame.all (fun fr => (e.linkOf n).queue.head? == some fr.display) = true)
    (h7 : ∀ n, (e.linkOf n).running = false →
      (e.linkOf n).queue = [] ∧ ∀ x ∈ e.face.faces, x.2.link = n → e.online x.1 = false) : e.LinksSafe := by
  refine ⟨h, h1, fun d f hf => h2 _ (Tab.mem_of_get hf),
    fun c d f g hf hg hl hd => h3 _ (Tab.mem_of_get hf) _ (Tab.mem_of_get hg) hl hd, h4, fun n d hd => ?_, fun n fr hfr => ?_,
    fun n hn => ⟨(h7 n hn).1, fun d f hf hl => (h7 n hn).2 _ (Tab.mem_of_get hf) hl⟩⟩
  · refine ⟨(h5 n d hd).1, ?_⟩
    have := (h5 n d hd).2
    cases hf : e.faceOf d with
    | none => rw [hf] at this; cases this
    | some f => rw [hf] at this; exact ⟨f, rfl, by simpa using this⟩
  · have := h6 n
    rw [hfr] at this
    simpa using this

/-- Terminal 0, ONLINE on a RUNNING link with its frame in flight, with an entry and its prompt. -/
def openTerminal : State := withLink { link0 0 with queue := [0], frame := some (frame0 1 false .none) } (withEntry State.reset)

/-- The same under slot 0, without the entry. -/
def coveredTerminal : State :=
  onEng (fun e => { e with face := { e.face with slots := e.face.slots.set 0 ⟨slotRecord, none, none⟩ } })
    (withLink { link0 0 with queue := [0], frame := some (frame0 1 false .none) }
      (withFace { terminalFace with cover := some 0 } onlineDisplay State.reset))

theorem openTerminal_links : openTerminal.eng.LinksSafe :=
  links_of (by decide) (by decide) (by decide) (by decide) (by decide) (by decide) (by decide) (by decide)

theorem openTerminal_claims : openTerminal.eng.ClaimsSafe :=
  claims_of (by decide) (by decide) (by decide) (by decide) (by decide) (by decide) (by decide) (by decide) (by decide)
    (by decide)

theorem coveredTerminal_links : coveredTerminal.eng.LinksSafe :=
  links_of (by decide) (by decide) (by decide) (by decide) (by decide) (by decide) (by decide) (by decide)

theorem coveredTerminal_claims : coveredTerminal.eng.ClaimsSafe :=
  claims_of (by decide) (by decide) (by decide) (by decide) (by decide) (by decide) (by decide) (by decide) (by decide)
    (by decide)

theorem test_hyp_RosterQueuesAndClaimsKeepTheirLaws :
    openTerminal.eng.LinksSafe ∧ openTerminal.eng.ClaimsSafe ∧ ∃ t, step openTerminal = .next t :=
  ⟨openTerminal_links, openTerminal_claims, _, rfl⟩
theorem test_hyp_RosterCommitCreatesAndRemoves_rebinds :
    ((handSlot 2 0 ⟨0x00000200, 0, 4, 1⟩ (linkWith 0 none [0])).accepts (.window rosterWindow 0) ∧
      (Rec4.mk 0x00000200 0 4 1).rosPresent = true ∧ (Rec4.mk 0x00000200 0 4 1).rosClass = some .hallSegment ∧
      (linkWith 0 none [0]).eng.faceOf 0 = some hallFace ∧
      (linkWith 0 none [0]).eng.link.displays.get 0 = some onlineDisplay ∧
      hallFace.drop ≠ (Rec4.mk 0x00000200 0 4 1).rosDrop) ∧
    ((handSlot 2 0 ⟨0x00040100, 1, 4, 1⟩ (playing .playing none none (withEntry State.reset))).accepts
        (.window rosterWindow 0) ∧
      terminalFace.bindB ≠ (Rec4.mk 0x00040100 1 4 1).rosBindB ∧ terminalFace.link = (Rec4.mk 0x00040100 1 4 1).rosLink ∧
      terminalFace.drop = (Rec4.mk 0x00040100 1 4 1).rosDrop ∧
      ((playing .playing none none (withEntry State.reset)).eng.ctx 0).active = true ∧
      ((playing .playing none none (withEntry State.reset)).eng.ctx 0).targets.Nodup) := by
  unfold State.accepts
  decide

/-- Context 0 plays on terminal 0, with the place of its dwell. -/
def playingOpen : State :=
  onEng (fun e => { e with
    timers := ⟨[⟨0, .entryWait, .ticket 7, 0, 0, 0⟩, ⟨1, .dwell, .context 0, 100, 5000, 0⟩], 2⟩ })
    (playing .playing none (some 1) openTerminal)

/-- Slot 0 comes into force over an open terminal, and goes out of force over a covered one. -/
def onset (s : State) : State := hand4 (.overrideSlot 0) 0x280 slotRecord s
def release (s : State) : State := hand4 (.overrideSlot 0) 0x280 ⟨0, 0, 0, 0⟩ s

theorem onset_claims : (onset playingOpen).eng.ClaimsSafe :=
  claims_of (by decide) (by decide) (by decide) (by decide) (by decide) (by decide) (by decide) (by decide) (by decide)
    (by decide)

theorem release_claims : (release (playing .suspended none none coveredTerminal)).eng.ClaimsSafe :=
  claims_of (by decide) (by decide) (by decide) (by decide) (by decide) (by decide) (by decide) (by decide) (by decide)
    (by decide)

theorem test_hyp_OverrideSlotCommitSetsTheCover_onset :
    (onset openTerminal).accepts (.overrideSlot 0) ∧ (onset openTerminal).eng.timers.list.length ≤ 111 ∧
    (onset openTerminal).eng.LinksSafe ∧ (onset openTerminal).eng.ClaimsSafe ∧
    (onset openTerminal).eng.faceOf 0 = some terminalFace ∧ (onset openTerminal).eng.online 0 = true ∧
    ((onset openTerminal).eng.linkOf terminalFace.link).frame = some (frame0 1 false .none) ∧
    ∃ t, exec .overrideSlotCommit (onset openTerminal) = .next t ∧
      t.eng.out.queue.map Report.event = [.entryCancelled 7 0 .override] ∧
      (t.eng.linkOf 0).frame = some (frame0 1 true .none) ∧ t.eng.dest.entries = [] ∧ t.eng.timers.list.length = 1 :=
  ⟨by unfold State.accepts; decide, by decide, openTerminal_links, openTerminal_claims, rfl, rfl, rfl, _, rfl, by decide +kernel⟩

theorem test_hyp_OverrideSlotCommitSetsTheCover_release :
    (release coveredTerminal).accepts (.overrideSlot 0) ∧ (release coveredTerminal).eng.timers.list.length ≤ 111 ∧
    (release coveredTerminal).eng.LinksSafe ∧ (release coveredTerminal).eng.ClaimsSafe ∧
    (release coveredTerminal).eng.online 0 = true ∧
    ∃ t, exec .overrideSlotCommit (release coveredTerminal) = .next t ∧ t.eng.faceOf 0 = some terminalFace ∧
      (t.eng.linkOf 0).queue = [0] ∧ (t.eng.linkOf 0).frame = some (frame0 1 true .none) :=
  ⟨by unfold State.accepts; decide, by decide, coveredTerminal_links, coveredTerminal_claims, rfl, _, rfl, by decide +kernel⟩

theorem test_hyp_RemainingTimeIsSavedAtSuspension_commits :
    ((onset playingOpen).accepts (.overrideSlot 0) ∧ (onset playingOpen).eng.ClaimsSafe ∧
      ((onset playingOpen).eng.ctx 0).state = .playing ∧ ((onset playingOpen).eng.ctx 0).targets = [0] ∧
      ∃ t, exec .overrideSlotCommit (onset playingOpen) = .next t ∧ (t.eng.ctx 0).state = .suspended ∧
        (t.eng.ctx 0).saved = 100) ∧
    ((release (playing .suspended none none coveredTerminal)).accepts (.overrideSlot 0) ∧
      (release (playing .suspended none none coveredTerminal)).eng.ClaimsSafe ∧
      ((release (playing .suspended none none coveredTerminal)).eng.ctx 0).state = .suspended ∧
      ∃ t, exec .overrideSlotCommit (release (playing .suspended none none coveredTerminal)) = .next t ∧
        (t.eng.ctx 0).state = .playing ∧ (t.eng.ctx 0).place = some 0 ∧
        t.eng.timers.list = [⟨0, .dwell, .context 0, 700, 5000, 0⟩]) :=
  ⟨⟨by unfold State.accepts; decide, onset_claims, rfl, rfl, _, rfl, by decide +kernel⟩,
    by unfold State.accepts; decide, release_claims, rfl, _, rfl, by decide +kernel⟩

/-- Language 0 becomes READY with slot 0 in force and context 0 waiting for a language. -/
def becomesReady : State :=
  hand4 (.language 0) 0x2C0 ⟨0, 0, 0, 0⟩ (playing .playing none none
    (onEng (fun e => { e with face := { e.face with slots := e.face.slots.set 0 ⟨slotRecord, none, none⟩ } }) areaReady))

theorem test_hyp_LanguageCommitTakesTheRecord_ready :
    becomesReady.accepts (.language 0) ∧ becomesReady.fetch.ready 0 = false ∧
    (slotOf becomesReady.eng.face.slots 0).record.ovrInForce = true ∧ (slotOf becomesReady.eng.face.slots 0).lang = none ∧
    (becomesReady.eng.ctx 0).active = true ∧ (becomesReady.eng.ctx 0).lang = none ∧
    (0 : Fin 16) ∈ ((becomesReady.eng.ctx 0).accepted.getD Rec4.zero).ploRotation ∧
    ∃ t, exec .languageCommit becomesReady = .next t ∧ t.fetch.ready 0 = true ∧
      (slotOf t.eng.face.slots 0).lang = some 0 ∧ (t.eng.ctx 0).lang = some 0 := by
  refine ⟨by unfold State.accepts; decide, by decide, by decide, by decide, by decide, by decide, by decide, _, rfl, by decide +kernel⟩

/-- The engines with display 0 at drop 1 of link 0 in a slot, the last designated drop `turn`. -/
def designating (slot : Nat) (turn : Option Nat) : Engines :=
  (withLink { link0 slot with turn := turn } (withFace hallFace onlineDisplay State.reset)).eng

theorem test_hyp_OutSlotSendsOneBlock_designation :
    ((designating 1 none).linkOf 0).setup.w1.getLsbD ((1 + 1) % 32) = false ∧
    ((designating 30 none).linkOf 0).setup.w1.getLsbD ((30 + 1) % 32) = true ∧
    (designating 30 none).designate 0 none = some 1 ∧ (designating 30 none).designate 0 (some 0) = none ∧
    ((designating 0 (some 0)).linkOf 0).turn = some 0 ∧ (designating 0 (some 0)).designate 0 none = some 1 ∧
    ((designating 0 (some 1)).linkOf 0).turn = some 1 ∧ (designating 0 (some 1)).designate 0 none = some 1 := by decide

/-- Display 9 waits for text that is coming; display 0 behind it shows text that the cache holds. -/
def hitBehind : State :=
  onFetch (fun f => { f with
      requests := [.text ⟨0x300, 0⟩], lines := f.lines.set 3 ⟨.valid, ⟨0x100, 0⟩, [65], none⟩ })
    (onEng (fun e => { e with face := { e.face with faces :=
        [(0, { terminalFace with base := .terminal 0x100 }),
          (9, { terminalFace with drop := 2, waitText := some ⟨0x300, 0⟩ })] } })
      (withLink { link0 0 with queue := [9, 0] } State.reset))

/-- Display 0 shows text that is not in the cache; display 9 behind it needs none. -/
def missAhead : State :=
  onEng (fun e => { e with face := { e.face with faces :=
      [(0, { terminalFace with base := .terminal 0x100 }), (9, { hallFace with drop := 2 })] } })
    (withLink { link0 0 with queue := [0, 9] } State.reset)

theorem test_hyp_OutSlotWalksTheQueue_passes_over :
    ((hitBehind.eng.linkOf 0).inOut = true ∧ (hitBehind.eng.linkOf 0).served = false ∧
      (hitBehind.eng.linkOf 0).frame = none ∧ (hitBehind.eng.linkOf 0).queue = [9] ++ 0 :: [] ∧ 0 ∉ [9] ∧
      (hitBehind.eng.faceOf 9).any (fun g => g.awaits hitBehind.fetch) = true ∧
      hitBehind.eng.faceOf 0 = some { terminalFace with base := .terminal 0x100 } ∧
      Face.awaits { terminalFace with base := .terminal 0x100 } hitBehind.fetch = false ∧
      (Face.visible hitBehind.eng.face.slots { terminalFace with base := .terminal 0x100 }).line = some ⟨0x100, 0⟩ ∧
      hitBehind.fetch.lineOf ⟨0x100, 0⟩ = some 3 ∧ (hitBehind.fetch.line 3).state = .valid) ∧
    ((missAhead.eng.linkOf 0).inOut = true ∧ (missAhead.eng.linkOf 0).served = false ∧
      (missAhead.eng.linkOf 0).frame = none ∧ (missAhead.eng.linkOf 0).queue = 0 :: 9 :: [] ∧
      missAhead.eng.faceOf 0 = some { terminalFace with base := .terminal 0x100 } ∧
      Face.awaits { terminalFace with base := .terminal 0x100 } missAhead.fetch = false ∧
      (Face.visible missAhead.eng.face.slots { terminalFace with base := .terminal 0x100 }).line = some ⟨0x100, 0⟩ ∧
      missAhead.fetch.lookup ⟨0x100, 0⟩ = none ∧ missAhead.eng.faceOf 9 = some { hallFace with drop := 2 } ∧
      Face.waitText { hallFace with drop := 2 } = none ∧
      (Face.visible missAhead.eng.face.slots { hallFace with drop := 2 }).line = none) := by decide

/-- Terminal 0 with `n` WAITING prompts, 63 entries and 127 places. -/
def nearlyFull (n : Nat) : Engines :=
  { keyedAt with
    dest := { keyedAt.dest with
      entries := List.replicate 63 ⟨7, 0, 2, 5, .standard, 0⟩
      prompts := [(0, List.replicate n ⟨.waiting, some 7, 5, .standard, none, none, .none, none⟩)] }
    timers := ⟨List.replicate 127 ⟨0, .entryWait, .ticket 7, 0, 0, 0⟩, 1⟩ }

theorem test_hyp_EntryChecksAreTakenInOrder_boundary :
    terminalFace.cover = none ∧ selectable (nearlyFull 3).ind 5 = true ∧ 5 ≠ terminalFace.bindB ∧
    zoneServes (nearlyFull 3).ind terminalFace.zone terminalFace.bindB 5 = true ∧
    (nearlyFull 3).dest.entries.length = 63 ∧ (nearlyFull 3).timers.list.length = 127 ∧
    (nearlyFull 3).dest.prompts.get 0 =
      some (List.replicate 3 ⟨.waiting, some 7, 5, .standard, none, none, .none, none⟩) ∧
    (nearlyFull 4).dest.prompts.get 0 =
      some (List.replicate 4 ⟨.waiting, some 7, 5, .standard, none, none, .none, none⟩) ∧
    PromptKind.invalid ≠ .waiting := by
  decide +kernel

theorem test_hyp_ExpiriesDeliverTheDueHead_other_kind :
    ((timed (placeOf .gong (.car 0) 0 400 0) State.reset).eng.timers.list = placeOf .gong (.car 0) 0 400 0 :: [] ∧
      reached State.reset.clock.ms (placeOf .gong (.car 0) 0 400 0).expiry = true ∧
      (placeOf .gong (.car 0) 0 400 0).kind ≠ .lantern) ∧
    ((timed (placeOf .overrideDwell (.slot 0) 0 5000 0) State.reset).eng.timers.due 0 ≠ none ∧
      (slotOf State.reset.eng.face.slots 0).place ≠ some 0) ∧
    (let l := [placeOf .gong (.car 0) 5 400 0, placeOf .gong (.car 1) 9 400 0];
      (∀ p ∈ placeOf .lantern (.car 2) 5 500 1 :: l, (p.expiry - (0xFFFFFFFF : BitVec 32)).toNat < 2147483648) ∧
      l.Pairwise (fun a b => (a.expiry - (0xFFFFFFFF : BitVec 32)).toNat ≤ (b.expiry - (0xFFFFFFFF : BitVec 32)).toNat)) := by
  decide

/-- Context 0 at index `i` of its rotation with a remaining count, its record repeated `n` times. -/
def context (n : Word) (i remaining : Nat) : Context :=
  ⟨.playing, some { playRecord with w3 := n }, i, some 0, remaining, some 0, 0, [0]⟩

/-- Language 1 alone is READY. -/
def onlyOne (l : Fin 16) : Bool := l == 1

theorem test_hyp_OwnersActOnTheirExpiry_dwell :
    (let e := (onEng (fun e => { e with play := e.play.set 0 (context 0x0101 1 1) }) State.reset).eng;
      (e.ctx 0).place = some 0 ∧ ((e.ctx 0).advance State.reset.fetch.ready ((e.ctx 0).accepted.getD Rec4.zero)).2 = true) ∧
    ((context 0x0100 0 0).index < 1 ∧ playRecord.ploRotation[1]? = some 1 ∧ onlyOne 1 = true ∧
      (∀ j m, (context 0x0100 0 0).index < j → j < 1 → playRecord.ploRotation[j]? = some m → onlyOne m = false)) ∧
    (∀ i l, (context 0x0100 1 0).index < i → playRecord.ploRotation[i]? = some l → State.reset.fetch.ready l = false) ∧
    (Rec4.ploRepeat { playRecord with w3 := 0x0100 } = 0 ∧ Rec4.ploRepeat { playRecord with w3 := 0x0102 } ≠ 0 ∧
      (context 0x0102 1 1).remaining ≤ 1 ∧ 2 ≤ (context 0x0102 1 2).remaining) ∧
    (slotOf State.reset.eng.face.slots 0).lang = none ∧
    (∀ x ∈ State.reset.eng.promptsOf 0, x.hold ≠ some 0) := by
  refine ⟨by decide, ⟨by decide, by decide, by decide, ?_⟩, ?_, by decide, by decide, by decide⟩
  · intro j m h1 h2
    have : (context 0x0100 0 0).index = 0 := rfl
    omega
  · intro _ l _ _
    have h : ∀ l, State.reset.fetch.ready l = false := by decide
    exact h l

theorem test_hyp_StatusMirrorFollowsTheItems_counts :
    State.reset.ring.unconsumed < 65536 ∧ State.reset.eng.out.tally < 65536 ∧
      State.reset.eng.timers.list.length < 65536 := by decide

/-! ## Targets, checks and marks -/

theorem test_hyp_UpstreamTransactionsAreHeldOrForwarded_targets :
    (targetAt fullIntake.path 0x2000 = some (.window 0 0 0 0x2000 48) ∧
      targetAt fullIntake.path 0x22FC = some (.window 0 47 3 0x2000 48) ∧ targetAt fullIntake.path 0x2300 = none) ∧
    (targetAt fullIntake.path 0x3FFF01C = some (.control 0x1C) ∧ targetAt fullIntake.path 0x3FFF020 = none ∧
      targetAt fullIntake.path 0x3FFF0CC = some (.control 0xCC) ∧ targetAt fullIntake.path 0x3FFF0D0 = none ∧
      targetAt fullIntake.path 0x3FFF3CC = some (.control 0x3CC) ∧ targetAt fullIntake.path 0x3FFF3D0 = none) ∧
    (∀ k : Fin 5, (fullIntake.path.window k).w0.toNat ≤ 0x22FC ∧
      0x22FC < (fullIntake.path.window k).w0.toNat + 16 * (fullIntake.path.window k).w3.toNat → k = 0) := by decide +kernel

theorem test_codes_that_no_value_names :
    Arrow.ofCode 3 = none ∧ WalkHint.ofCode 4 = none ∧ Door.ofCode 4 = none ∧ LoadState.ofCode 3 = none ∧
      ServiceMode.ofCode 6 = none ∧ DisplayClass.ofCode 5 = none := by decide

/-- Group 0 with no used span. -/
def spanless : Indication :=
  { (withCar 3).eng.ind with groups := (withCar 3).eng.ind.groups.set 0 { group0 with w1 := 0xFF } }

theorem test_hyp_RefusedCommitsOnlyReport_cars :
    checkCar (withCar 3).eng.ind (carRecord 0x00010303) = some .badValue ∧
    checkCar (withCar 3).eng.ind (carRecord 10) = some .badLanding ∧
    checkCar (withCar 3).eng.ind { carRecord 3 with w0 := 0x00314101 } = some .noGroup ∧
    checkCar spanless (carRecord 3) = some .badLanding ∧ checkCar spanless (carRecord 0xFF) = none ∧
    (judgeCar (withCar 3).eng 1 48 matches .error .badCar) = true ∧ (judgeCar (withCar 3).eng 1 47 matches .error .badCar) = true ∧
    (judgeCar (withCar 3).eng 2 0 matches .error .badCar) = true ∧ (judgeCar (withCar 3).eng 1 0 matches .ok _) = true ∧
    ((withCar 3).eng.ind.carOf 0).accepted = some (carRecord 3) ∧ byteN (carRecord 3).w0 0 = (0 : Fin 8).val := by
  decide +kernel

theorem test_hyp_RefusedCommitsOnlyReport_records :
    checkAssign ⟨1, 0x300, 255, 0⟩ = none ∧ checkAssign ⟨1, 0x400, 255, 0⟩ = some .badValue ∧
    checkAssign ⟨1, 0x400, 255, 1⟩ = none ∧ checkAssign ⟨0, 0, 0, 0⟩ = some .badValue ∧
    checkSlot ⟨0, 0, 0, 0x201⟩ = none ∧ checkSlot ⟨0, 0, 0, 0x301⟩ = some .badValue ∧ checkSlot ⟨0x100, 0, 0, 1⟩ = some .badValue ∧
    checkPlayout playRecord = none ∧ checkPlayout { playRecord with w2 := 0x05200200 } = some .badValue ∧
    checkGroup { group0 with w2 := 0x00140A0A } = none ∧ checkGroup { group0 with w2 := 0x00140909 } = some .badSpans ∧
    checkGroup { group0 with w2 := 0x00090A0A } = some .badSpans ∧ checkGroup { group0 with w5 := 99 } = some .badValue ∧
    checkLink ⟨1, 2, 0x00006002, 1⟩ = none ∧ checkLink ⟨1, 3, 0x00006002, 1⟩ = some .badSlots ∧
    checkLanguage ⟨0, 0, 0, 9⟩ = some .badValue ∧ checkRing ⟨0x3FFC000, 0, 0, 1024⟩ = none ∧
    checkRing ⟨0x3FFC010, 0, 0, 1024⟩ = some .badValue ∧
    checkRoster (withFace terminalFace onlineDisplay State.reset).eng 5 ⟨0x00040100, 0, 0, 1⟩ = some .duplicateDrop ∧
    checkRoster (withFace terminalFace onlineDisplay State.reset).eng 5 ⟨0x00030200, 8, 0, 1⟩ = some .badBinding ∧
    checkRelocation fullIntake.path ⟨0, 0, 0, 0x2000⟩ = some .badWindow ∧
    checkDescriptor fullIntake.path 1 ⟨0x22F0, 0, 0, 1⟩ = some .badWindow ∧
    checkDescriptor fullIntake.path 1 ⟨0x2300, 0, 0, 256⟩ = none := by
  decide +kernel

/-- A hall display of car 0, ONLINE on a RUNNING link. -/
def hallOnLink : State := withLink (link0 0) (withFace (shownIn (withCar 3).eng hallFace) onlineDisplay (withCar 3))

theorem test_hyp_CarCommitTakesTheRecord_marks :
    (handSlot 0 0 (carRecord 0x00010003) hallOnLink).accepts (.window carWindow 0) ∧
    (handSlot 0 0 (carRecord 0x00010003) hallOnLink).eng.LinksSafe ∧
    (handSlot 0 0 (carRecord 0x00010003) hallOnLink).eng.online 0 = true ∧
    ∃ t, exec .carCommit (handSlot 0 0 (carRecord 0x00010003) hallOnLink) = .next t ∧ (t.eng.linkOf 0).queue = [0] :=
  ⟨by unfold State.accepts; decide, links_of (by decide) (by decide) (by decide) (by decide) (by decide) (by decide)
    (by decide) (by decide), rfl, _, rfl, by decide +kernel⟩

theorem test_hyp_PlayoutCommitStartsAndStops_marks :
    (handSlot 4 1 playRecord openTerminal).accepts (.window playoutWindow 1) ∧
    (handSlot 4 1 playRecord openTerminal).eng.LinksSafe ∧ (handSlot 4 1 playRecord openTerminal).eng.online 0 = true ∧
    ∃ t, exec .playoutCommit (handSlot 4 1 playRecord openTerminal) = .next t ∧
      (t.eng.linkOf 0).frame = some (frame0 1 true .none) :=
  ⟨by unfold State.accepts; decide, openTerminal_links, rfl, _, rfl, by decide +kernel⟩

theorem test_hyp_EntryChecksAreTakenInOrder_marks :
    openTerminal.eng.LinksSafe ∧ openTerminal.eng.faceOf 0 = some terminalFace ∧ openTerminal.eng.online 0 = true ∧
    ((openTerminal.eng.pushPrompt State.reset.ambient 0 ⟨.invalid, none, 9, .standard, none, none, .none, none⟩).linkOf 0).frame =
      some (frame0 1 true .none) :=
  ⟨openTerminal_links, rfl, rfl, by decide +kernel⟩

theorem test_hyp_LoadGlyphsBeginsTheLoad_checks :
    7 < byteN (Rec4.mk 8 0x4000 0x00200001 3).w0 0 ∧
    byteN (Rec4.mk 1 0x4000 0x00200101 3).w0 0 = (1 : Fin 8).val ∧
    (areaReady.fetch.checkLoad ⟨8, 0x4000, 0x00200001, 3⟩ matches .error .badArea) = true ∧
    (areaReady.fetch.checkLoad ⟨0, 0x4000, 0x00200201, 3⟩ matches .error .badCount) = true ∧
    (areaReady.fetch.checkLoad ⟨0, 0x4000, 0x001C0001, 3⟩ matches .error .badPitch) = true ∧
    (areaReady.fetch.checkLoad ⟨0, 0x3FFFFE0, 0x00200001, 3⟩ matches .ok _) = true ∧
    (areaReady.fetch.checkLoad ⟨0, 0x3FFFFE4, 0x00200001, 3⟩ matches .error .badSource) = true := by
  decide +kernel

/-- Display 0, OFFLINE, designated in IN slot 1 of link 0. -/
def offlinePolled : State := polled ⟨.offline, 3, 0, none⟩ terminalFace

theorem test_hyp_GoodAnswersKeepTheDisplayOnline_queue :
    offlinePolled.eng.LinksSafe ∧ offlinePolled.eng.awaited 0 = some (1, 0) ∧
    (offlinePolled.eng.faceOf 0).any (fun f => f.cls == .terminal) = true ∧
    goodAnswerIn (heardOf [1, 1, 5]) 1 = some (.status 5) ∧
    (∃ t, exec (.statusAnswer 0 (heardOf [1, 1, 5])) offlinePolled = .next t ∧ (t.eng.linkOf 0).queue = [0]) ∧
    ∃ t, exec (.entryAnswer 0 (heardOf [1, 2, 5, 2])) offlinePolled = .next t ∧ (t.eng.linkOf 0).queue = [0] :=
  ⟨links_of (by decide) (by decide) (by decide) (by decide) (by decide) (by decide) (by decide) (by decide), rfl, rfl,
    by decide +kernel, ⟨_, rfl, by decide +kernel⟩, _, rfl, by decide +kernel⟩

/-! ## Clauses of the deck floors, the label's frame, the full stop list, the glyphs, the frames and the moves ahead -/

/-- Every face is derived, as a check. -/
theorem derived_of {A : Ambient} {e : Engines} (h : ∀ x ∈ e.face.faces, x.2.base = deriveBase A e x.2 ∧
    x.2.floor = deriveFloor e.ind x.2 ∧ x.2.scope = deriveScope e.ind x.2 ∧ x.2.cover = coverOf e.face.slots x.2) :
    e.FacesDerived A :=
  ⟨fun _ _ hf => (h _ (Tab.mem_of_get hf)).1, fun _ _ hf => (h _ (Tab.mem_of_get hf)).2.1,
    fun _ _ hf => (h _ (Tab.mem_of_get hf)).2.2.1, fun _ _ hf => (h _ (Tab.mem_of_get hf)).2.2.2⟩

/-- A SINGLE and a DOUBLE group with a floor for landing 127 alone, and one with landings 0 to 9. -/
def topGroup (deck : Word) : Rec8 := ⟨deck, 0x00407F7F, 0xFF, 0xFF, 0xFF, 500, 4, 1⟩

theorem test_hyp_CarCommitTakesTheRecord_floors :
    (byteN (carRecord 127).w3 0 = 127 ∧ lowerFloor (topGroup 0) (carRecord 127) = some 64 ∧
      upperFloor (topGroup 0) (carRecord 127) = none ∧ upperFloor (topGroup 1) (carRecord 127) = none) ∧
    (byteN (carRecord 254).w3 0 = 254 ∧ lowerFloor group0 (carRecord 254) = none) ∧
    127 < byteN (carRecord 128).w3 0 ∧ lowerFloor (topGroup 0) (carRecord 128) = none := by decide

theorem test_hyp_GroupCommitTakesTheRecord_floors :
    lowerFloor group0 (carRecord 3) = some 3 ∧ upperFloor group0 (carRecord 3) = none ∧
    upperFloor { group0 with w0 := 1 } (carRecord 3) = some 4 ∧ upperFloor { group0 with w0 := 1 } (carRecord 9) = none ∧
    upperFloor { group0 with w0 := 1 } (carRecord 255) = none := by decide

/-- Floor 3 gets a label while the hall display of car 0 shows that floor. -/
def labelled : State := handSlot 3 3 ⟨0x31, 0x31, 0, 0x0101⟩ hallOnLink

theorem test_hyp_LabelCommitTakesTheRecord_frame :
    labelled.accepts (.window labelWindow 3) ∧ labelled.eng.FacesDerived labelled.ambient ∧ labelled.eng.LinksSafe ∧
    (labelled.eng.faceOf 0).isSome = true ∧ labelled.eng.dest.prompts.get 0 = none ∧ labelled.eng.online 0 = true ∧
    ∃ t, exec .labelCommit labelled = .next t ∧ (t.eng.linkOf 0).queue = [0] :=
  ⟨by unfold State.accepts; decide, derived_of (by decide), links_of (by decide) (by decide) (by decide) (by decide)
    (by decide) (by decide) (by decide) (by decide), rfl, rfl, rfl, _, rfl, by decide +kernel⟩

/-- Floor 5 gets a label while terminal 0 waits for it, with its frame in flight. -/
def promptLabelled : State := handSlot 3 5 ⟨0x31, 0x31, 0, 0x0101⟩ openTerminal

theorem test_hyp_LabelCommitTakesTheRecord_prompts :
    promptLabelled.accepts (.window labelWindow 5) ∧ promptLabelled.eng.FacesDerived promptLabelled.ambient ∧
    (promptLabelled.eng.dest.prompts.get 0).isSome = true ∧
    ∃ t, exec .labelCommit promptLabelled = .next t ∧ (t.eng.linkOf 0).frame = some (frame0 1 true .none) :=
  ⟨by unfold State.accepts; decide, derived_of (by decide), rfl, _, rfl, by decide +kernel⟩

/-- Terminal 0's entry is assigned to car 0, which holds `n` stops from floor `first` up. -/
def assigningTo (first n : Nat) : State :=
  onEng (fun e => { e with dest := { e.dest with
    stops := e.dest.stops.set 0 ((List.range n).map fun k => ⟨first + k, 1⟩) } }) (assigning 7 0 5 0)

theorem test_hyp_AssignCommitGivesTheStop_full :
    (assigningTo 10 16).accepts (.window assignWindow 0) ∧ (assigningTo 10 16).eng.FacesDerived (assigningTo 10 16).ambient ∧
    ((assigningTo 10 16).eng.dest.prompts.get 0).isSome = true ∧
    (∃ p ∈ (assigningTo 10 16).eng.timers.list, p.id = 0) ∧ (assigningTo 10 16).eng.timers.list.length ≤ 128 ∧
    ((∀ y ∈ (assigningTo 10 16).eng.stopsOf 0, y.floor ≠ 5) ∧ ((assigningTo 10 16).eng.stopsOf 0).length = 16) ∧
    (∃ t, exec .assignCommit (assigningTo 10 16) = .next t ∧ t.eng.out.queue.map Report.event = [.stopListFull 0 5 7] ∧
      t.eng.stopsOf 0 = (assigningTo 10 16).eng.stopsOf 0) ∧
    (∃ t, exec .assignCommit (assigningTo 10 15) = .next t ∧ t.eng.out.queue = [] ∧ (t.eng.stopsOf 0).length = 16) ∧
    ∃ t, exec .assignCommit (assigningTo 5 16) = .next t ∧ t.eng.out.queue = [] ∧ (t.eng.stopsOf 0).length = 16 :=
  ⟨by unfold State.accepts; decide, derived_of (by decide), rfl, by decide, by decide, by decide +kernel,
    ⟨_, rfl, by decide +kernel⟩, ⟨_, rfl, by decide +kernel⟩, _, rfl, by decide +kernel⟩

theorem test_hyp_SweepReadsFillTheIntake_items :
    (burstWords 0x22E0 8 = 8 ∧ burstWords 0x22E0 7 = 4 ∧ burstWords 0x22E4 8 = 1 ∧ burstWords 0x3FFFFFC 1 = 1) ∧
    (SweepRead.items ⟨0, 0x22E0, 8, 0x2000, 48, .live⟩ [])[0]? = some ⟨0, 0x22E0, 0xF, .window 0 46 0 0x2000 48⟩ ∧
    (SweepRead.items ⟨0, 0x22E0, 8, 0x2000, 48, .live⟩ [])[7]? = some ⟨0, 0x22FC, 0xF, .window 0 47 3 0x2000 48⟩ := by
  decide +kernel

/-- A load of 512 glyphs at area 0 on channel 1, `n` words of its next glyph read. -/
def gathering (progress n : Nat) : FetchUnit :=
  { FetchUnit.reset with
    requests := [.text ⟨0x100, 0⟩, .glyph 0 0x4000 32 512 progress]
    channels := FetchUnit.reset.channels.set 1 (some (.glyph 0 512 (List.replicate n 5))) }

theorem test_hyp_FetchReadsReachTheirChannel_glyphs :
    ((gathering 255 7).channel 1 = some (.glyph 0 512 (List.replicate 7 5)) ∧
      (gathering 255 7).requests.filter (Request.loads 0) = [.glyph 0 0x4000 32 512 255]) ∧
    (((gathering 255 6).deliver 1 [5]).channel 1 = some (.glyph 0 512 (List.replicate 7 5)) ∧
      ((gathering 255 6).deliver 1 [5]).areas = FetchUnit.reset.areas) ∧
    ((((gathering 255 7).deliver 1 [5]).area 0).glyphs.get 255).map List.length = some 32 ∧
    ((((gathering 256 7).deliver 1 [5]).area 1).glyphs.get 0).map List.length = some 32 ∧
    ((((gathering 511 0).deliver 1 (List.replicate 8 5)).area 1).glyphs.get 255).map List.length = some 32 ∧
    ((gathering 511 7).deliver 1 [5]).requests = [.text ⟨0x100, 0⟩, .glyph 0 0x4000 32 512 512] := by decide +kernel

theorem test_hyp_FetchReadsReachTheirChannel_reads :
    (gathering 2 4).channelRead 1 = some (.fetchRead 1 0x4050 4 false) ∧ (gathering 512 0).channelRead 1 = none ∧
    ((gathering 2 4).setChannel 1 (some (.text ⟨0x100, 0⟩ 0 .message 0x140 1 [] 0 0 []))).channelRead 1 =
      some (.fetchRead 1 0x140 1 false) ∧
    ((gathering 2 4).setChannel 1 (some (.text ⟨0x100, 0⟩ 0 .message 0x144 0 [] 0 0 []))).channelRead 1 = none ∧
    ((gathering 2 4).setChannel 1 (some (.sweep 0 0x2000 0x2300 0x2000 48))).channelRead 1 = none ∧
    (gathering 2 4).channel 0 = none := by decide +kernel

/-- The check of the nine characters 1 to 9 is 29B1h. -/
theorem test_check_of_nine_digits : checkBytes [0x31, 0x32, 0x33, 0x34, 0x35, 0x36, 0x37, 0x38, 0x39] = [0xB1, 0x29] := by
  decide +kernel

theorem test_hyp_OutSlotWalksTheQueue_frames :
    Visible.frame FetchUnit.reset 0 [] (.base (.hallSegment 0x34333231 .down (.up true)) 3) =
      (.segment, [0, 0x31, 0x32, 0x33, 0x34, 2, 1, 1, 3, 0, 0, 0, 0, 0, 0, 0]) ∧
    (Visible.frame FetchUnit.reset 0 [] (.prompt [⟨.assigned, 5, none, .accessible, some (65, 66), .right⟩])).2.take 16 =
      [1, 6, 0, 1, 0, 0, 0, 0, 0x29, 0, 0, 0, 0, 0, 0, 0] ∧
    (List.replicate 8 (HallEntry.mk (65, 66) none .up true true true)).length ≤ 8 ∧
    (List.replicate 8 (PromptShow.mk .waiting 5 none .standard none .none)).length ≤ 8 := by decide +kernel

/-- A language 0 whose bank of 257 glyphs is READY, with glyphs 255 and 256. -/
def pairReady : FetchUnit :=
  { FetchUnit.reset with
    langs := FetchUnit.reset.langs.set 0 ⟨0, 0, 0, 1⟩
    areas := (FetchUnit.reset.areas.set 0 ⟨.ready, .lower, 257, [(255, [1])]⟩).set 1 ⟨.ready, .upper, 257, [(0, [2])]⟩ }

theorem test_hyp_OutSlotWalksTheQueue_cells :
    (FetchUnit.reset.lang 0).langArea = none ∧ (pairReady.lang 0).langArea = some 1 ∧ (pairReady.area 1).state = .ready ∧
    pairReady.cell 0 255 = [1] ∧ pairReady.cell 0 256 = [2] ∧ pairReady.cell 0 257 = List.replicate 32 0 := by decide +kernel

/-- Displays 0, 5 and 7, drops 1 to 3 of link 0, queued behind 7 with 7 in flight. -/
def queuedThree : Engines :=
  (onEng (fun e => { e with
    face := { e.face with faces := [(0, hallFace), (5, { hallFace with drop := 2 }), (7, { hallFace with drop := 3 })] }
    link := { e.link with displays := [(0, onlineDisplay), (5, onlineDisplay), (7, onlineDisplay)] } })
    (withLink { link0 0 with queue := [7, 5, 0], frame := some { frame0 1 false .none with display := 7 } } State.reset)).eng

theorem test_hyp_FrameEndsWithItsLastBlock_rise :
    (queuedThree.faceOf 0 = some hallFace ∧ queuedThree.online 0 = true ∧ 0 ∈ (queuedThree.linkOf 0).queue ∧
      (queuedThree.linkOf 0).inFlight = some 7 ∧ (hallFace.visible queuedThree.face.slots).layer = .base ∧
      (Face.visible queuedThree.face.slots { hallFace with cover := some 0 }).layer = .override) ∧
    ((queuedThree.updFaceFrom queuedThree.face.slots 0 fun f => { f with cover := some 0 }).linkOf 0).queue = [7, 0, 5] ∧
    ((queuedThree.updFaceFrom queuedThree.face.slots 0 fun f => { f with strokes := 1 }).linkOf 0).queue = [7, 5, 0] ∧
    promoted overEng { link0 0 with queue := [9, 0] } 9 = [9, 0] ∧
    promoted overEng { link0 0 with queue := [0, 7, 9] } 9 = [0, 9, 7] ∧
    promoted overEng { link0 0 with queue := [7, 9] } 9 = [9, 7] ∧
    promoted overEng { link0 0 with queue := [7, 5, 9], frame := some { frame0 1 false .none with display := 7 } } 9 =
      [7, 9, 5] := by decide +kernel

end Sys2Proof.Tests
end

/-! SUPPORT. Every step keeps every face derived (`Engines.FacesDerived`), first the operations of the engines, then the
actions of the part. -/

namespace Sys2Proof.Machine

/-! ## Engines: what keeps the faces derived -/

/-- A change of a slot that keeps its record changes no slot record. -/
theorem slotRecords_onSlot (e : Engines) (k : Fin 4) (g : OverrideSlot → OverrideSlot) (hg : ∀ x, (g x).record = x.record) :
    slotRecords (e.onSlot k g).face.slots = slotRecords e.face.slots := by
  funext i
  show (upd e.face.slots k g)[i].record = _
  rw [get_upd]
  split
  · exact hg _
  · rfl

namespace Engines.Keeps

theorem startCtx (A : Ambient) (e : Engines) (c : Fin 16) (r : Rec4) : e.Keeps (e.startCtx A c r) := by
  unfold Engines.startCtx
  extract_lets _ e1 targets covered e2 e3 e4
  have h4 : e3.Keeps e4 := by
    show e3.Keeps (if covered then e3 else e3.claimDwell A c r.ploDwell)
    split
    · exact refl e3
    · exact claimDwell A e3 c _
  exact ((releaseDwell e c).trans ((onCtx e1 c _).trans (onCtx e2 c _))).trans (h4.trans (handNotices e4 _))

theorem stopCtx (e : Engines) (c : Fin 16) (r : Rec4) : e.Keeps (e.stopCtx c r) :=
  ((releaseDwell e c).trans (onCtx _ c _)).trans (handNotices _ _)

theorem acceptPlayout (A : Ambient) (e : Engines) (c : Fin 16) (r : Rec4) : e.Keeps (e.acceptPlayout A c r) := by
  unfold Engines.acceptPlayout
  split
  · exact startCtx A e c r
  · exact stopCtx e c r

theorem clearPlayout (e : Engines) : e.Keeps e.clearPlayout :=
  (foldl _ _ (fun b c _ => (releaseDwell b c).trans (onCtx _ c _)) e).trans (handNotices _ _)

theorem expireDwell (A : Ambient) (e : Engines) (c : Fin 16) (p : TimerPlace) : e.Keeps (e.expireDwell A c p) := by
  unfold Engines.expireDwell
  extract_lets x r next e1
  have h1 : e.Keeps e1 := onCtx e c _
  split
  · split
    · exact h1.trans ((((releaseDwell e1 c).trans (onCtx _ c _)).trans (handNotices _ _)).trans (report A _ _))
    · exact h1.trans (handTargets e1 c)
  · exact refl e

theorem ctxReady (A : Ambient) (e : Engines) (l c : Fin 16) : e.Keeps (e.ctxReady A l c) := by
  unfold Engines.ctxReady
  dsimp only
  split
  · exact (onCtx e c _).trans (handTargets _ c)
  · exact refl e

theorem expireEntry (A : Ambient) (e : Engines) (p : TimerPlace) : e.Keeps (e.expireEntry A p) := by
  unfold Engines.expireEntry
  split
  · exact refl e
  · exact ((endEntry e _).trans (replacePrompt A _ _ _ _)).trans (report A _ _)

theorem expirePrompt (e : Engines) (d : Nat) (p : TimerPlace) : e.Keeps (e.expirePrompt d p) :=
  (storePrompts e d _).trans (handPrompts _ d)

theorem textFilled (e : Engines) (t : Tag) : e.Keeps (e.textFilled t) := by
  refine ⟨rfl, ?_⟩
  show (List.map _ (List.map _ _)) = _
  rw [List.map_map]
  refine List.map_congr_left fun x _ => ?_
  simp only [Function.comp_def]
  split <;> rfl

theorem walkQueue (q : List Nat) : ∀ (f : FetchUnit) (e : Engines), e.Keeps (walkQueue q f e).eng := by
  induction q with
  | nil => exact fun f e => refl e
  | cons d ds ih =>
    intro f e
    unfold Machine.walkQueue
    split
    · exact ih f e
    · split
      · exact ih f e
      · split
        · exact refl e
        · split
          · exact refl e
          · exact (storeFace e d (fun x => { x with waitText := some _ }) fun _ => rfl).trans (ih _ _)

end Engines.Keeps

namespace Engines.FacesDerived

theorem report {A : Ambient} {e : Engines} (h : e.FacesDerived A) (ev : Event) : (e.report A ev).FacesDerived A :=
  h.keeps (Keeps.report A e ev)

theorem delivered {A : Ambient} {e : Engines} (h : e.FacesDerived A) : e.delivered.FacesDerived A := h.of_face rfl rfl rfl

/-! ### Override slots -/

theorem updSlot {A : Ambient} {e : Engines} (h : e.FacesDerived A) (k : Fin 4) (g : OverrideSlot → OverrideSlot)
    (hg : ∀ x, (g x).record = x.record) : (e.updSlot k g).FacesDerived A := by
  unfold Engines.updSlot
  extract_lets before e1
  have h1 : e1.FacesDerived A := h.congr rfl rfl (slotRecords_onSlot e k g hg) fun _ => rfl
  refine foldl_inv (Engines.FacesDerived A) _ (fun b x hb => ?_) _ _ h1
  split
  · exact hb
  · exact hb.keeps (Keeps.changeMark b _ _)

theorem claimOverride {A : Ambient} {e : Engines} (h : e.FacesDerived A) (k : Fin 4) :
    (e.claimOverride A k).FacesDerived A := by
  unfold Engines.claimOverride
  split
  · rename_i tm id _
    exact h.congr rfl rfl (slotRecords_onSlot (e.setTimers tm) k _ fun _ => rfl) fun _ => rfl
  · exact h.report _

theorem rotateSlot {A : Ambient} {e : Engines} (h : e.FacesDerived A) (k : Fin 4) : (e.rotateSlot A k).FacesDerived A :=
  h.updSlot k _ fun _ => rfl

theorem languageReady {A : Ambient} {e : Engines} (h : e.FacesDerived A) (l : Fin 16) :
    (e.languageReady A l).FacesDerived A := by
  unfold Engines.languageReady
  extract_lets waiting e1 e2
  have h1 : e1.FacesDerived A := h.keeps (Keeps.foldl _ _ (fun b d _ => Keeps.refreshMark b d) e)
  have h2 : e2.FacesDerived A := by
    refine foldl_inv (Engines.FacesDerived A) _ (fun b k hb => ?_) _ _ h1
    dsimp only
    split
    · exact hb.updSlot k _ fun _ => rfl
    · exact hb
  exact h2.keeps (Keeps.foldl _ _ (fun b c _ => Keeps.ctxReady A b l c) e2)

/-- At restart no face is left. -/
theorem restarted (A : Ambient) (e : Engines) : (e.restarted A).FacesDerived A := by
  refine foldl_inv (Engines.FacesDerived A) _ (fun b k hb => ?_) _ _ (of_empty A rfl)
  unfold Engines.restartSlot
  have h1 := hb.updSlot k (fun x => { x with lang := none, place := none }) fun _ => rfl
  dsimp only
  split
  · exact h1.claimOverride k
  · exact h1

/-! ### Entries -/

theorem giveStop {A : Ambient} {e : Engines} (h : e.FacesDerived A) (c : Fin 48) (f t : Nat) :
    (e.giveStop A c f t).FacesDerived A := by
  unfold Engines.giveStop
  dsimp only
  split
  · exact rederive (covered_face (e' := e.setStops c _) h.covered rfl) A
  · exact h.report _

theorem judgeAssign {A : Ambient} {e : Engines} (h : e.FacesDerived A) (r : Rec4) :
    (e.judgeAssign A r).FacesDerived A := by
  have hp : ∀ (x : Entry) (p : Prompt), ((e.endEntry x).replacePrompt A x.terminal x.ticket p).FacesDerived A :=
    fun x p => h.keeps ((Keeps.endEntry e x).trans (Keeps.replacePrompt A _ _ _ p))
  unfold Engines.judgeAssign
  dsimp only
  split
  · exact h.report _
  · split
    · exact h.report _
    · split
      · exact hp _ _
      · split
        · exact h.report _
        · exact (hp _ _).giveStop _ _ _

theorem pushPrompt {A : Ambient} {e : Engines} (h : e.FacesDerived A) (d : Nat) (p : Prompt) :
    (e.pushPrompt A d p).FacesDerived A := h.keeps (Keeps.pushPrompt A e d p)

theorem checkEntry {A : Ambient} {e : Engines} (h : e.FacesDerived A) (d : Nat) (f : Face) (k : Keyed) :
    (e.checkEntry A d f k).FacesDerived A := by
  have hrefuse : ∀ why, (e.refuseEntry A d k why).FacesDerived A := fun why => (h.pushPrompt d _).report _
  unfold Engines.checkEntry
  split
  · exact h.report _
  · split
    · exact h.pushPrompt d _
    · split
      · exact hrefuse _
      · dsimp only
        split
        · rename_i tm place _
          have hadd : ∀ x, ((e.setTimers tm).addEntry x).FacesDerived A := fun x => h.of_face rfl rfl rfl
          exact ((hadd _).pushPrompt d _).report _
        · exact hrefuse _

theorem offerEntry {A : Ambient} {e : Engines} (h : e.FacesDerived A) (d : Nat) (toggle : Bool) (k : Keyed) :
    (e.offerEntry A d toggle k).FacesDerived A := by
  unfold Engines.offerEntry
  split
  · exact h
  · split
    · exact h
    · have h1 := h.onDisplay d fun x => { x with toggle := some toggle }
      unfold Engines.takeEntry
      split
      · exact h1
      · dsimp only
        refine keeps ?_ (Keeps.refreshMark _ d)
        split
        · exact h1.checkEntry d _ k
        · exact h1.report _

/-! ### Links -/

/-- An operation on the links or the displays alone. -/
theorem of_link {A : Ambient} {e e' : Engines} (h : e.FacesDerived A) (he : e' = { e with link := e'.link }) :
    e'.FacesDerived A := by
  rw [he]
  exact h.of_face rfl rfl rfl

theorem onLink {A : Ambient} {e : Engines} (h : e.FacesDerived A) (n : Fin 8) (g : Link → Link) :
    (e.onLink n g).FacesDerived A := h.of_link rfl

theorem goodAnswer {A : Ambient} {e : Engines} (h : e.FacesDerived A) (n : Fin 8) (drop d fault : Nat) :
    (e.goodAnswer A n drop d fault).FacesDerived A :=
  h.of_face (by simp) (by simp) (by simp)

theorem miss {A : Ambient} {e : Engines} (h : e.FacesDerived A) (n : Fin 8) (drop d : Nat) :
    (e.miss A n drop d).FacesDerived A := by
  unfold Engines.miss
  split
  · exact h
  · rename_i x _
    extract_lets misses e1 e2 e3
    have h1 : e1.FacesDerived A := h.onDisplay d _
    have h3 : e3.FacesDerived A :=
      (h1.onDisplay d _).keeps ((Keeps.leaveQueue e2 n d).trans (Keeps.storeFace _ d _ fun _ => rfl))
    split
    · exact h1
    · split
      · exact h3.report _
      · exact h3

theorem acceptLink {A : Ambient} {e : Engines} (h : e.FacesDerived A) (n : Fin 8) (r : Rec4) :
    (e.acceptLink n r).FacesDerived A := by
  unfold Engines.acceptLink
  split
  · exact h.onLink n _
  · have h1 : ((e.linkOf n).queue.foldl (fun acc d => acc.leaveQueue n d) e).FacesDerived A :=
      h.keeps (Keeps.foldl _ _ (fun b d _ => Keeps.leaveQueue b n d) e)
    unfold Engines.stopLink
    exact h1.of_face (by simp) (by simp) (by simp)
  · exact h.of_face (by simp) (by simp) (by simp)
  · exact h.of_face (by simp) (by simp) (by simp)

theorem completeFrame {A : Ambient} {e : Engines} (h : e.FacesDerived A) (n : Fin 8) (fr : Frame) :
    (e.completeFrame n fr).FacesDerived A := by
  unfold Engines.completeFrame
  extract_lets e1 e2
  have h2 : e2.FacesDerived A := (h.onLink n _).keeps (Keeps.storeFace e1 fr.display _ fun _ => rfl)
  split
  · exact h2.keeps (Keeps.join e2 n _)
  · exact h2

theorem outSlotStep {A : Ambient} {e : Engines} (h : e.FacesDerived A) (n : Fin 8) (f : FetchUnit) :
    (outSlotStep n f e).2.FacesDerived A := by
  unfold Machine.outSlotStep
  split
  · dsimp only
    split
    · exact h.of_face (by simp) (by simp) (by simp)
    · exact h.of_face (by simp) (by simp) (by simp)
  · extract_lets w
    have hw : w.eng.FacesDerived A := h.keeps (Keeps.walkQueue _ f e)
    split
    · dsimp only
      unfold Engines.buildFrame
      split
      · exact hw
      · rename_i d codes _ _ face _
        have h1 := hw.keeps (Keeps.storeFace w.eng d (fun x => { x with
          waitText := none, waitGlyphs := (face.visible w.eng.face.slots).waits w.fetch.ready }) fun _ => rfl)
        exact h1.of_face (by simp) (by simp) (by simp)
    · exact hw.of_face (by simp) (by simp) (by simp)

end Engines.FacesDerived

/-! ## The part: what keeps the faces derived -/

/-- Every face of the part shows what the accepted settings, its class, its binding and the covering slots give. -/
def State.Derived (s : State) : Prop := s.eng.FacesDerived s.ambient

namespace State.Derived

theorem congr {s t : State} (h : s.Derived) (he : t.eng = s.eng) (hs : t.asm.settings = s.asm.settings) : t.Derived := by
  unfold State.Derived
  rw [he]
  exact Engines.FacesDerived.congr h hs rfl rfl fun _ => rfl

/-- What the engines do under the ambient they read. -/
theorem engines {s : State} {f : Ambient → Engines → Engines} (hf : (f s.ambient s.eng).FacesDerived s.ambient) :
    (s.engines f).Derived := hf

theorem report {s : State} (h : s.Derived) (ev : Event) : (s.report ev).Derived := engines (Engines.FacesDerived.report h ev)

theorem handedOver {s : State} (h : s.Derived) : s.handedOver.Derived := h.congr rfl rfl

theorem setFetch {s : State} (h : s.Derived) (f : FetchUnit) : State.Derived { s with fetch := f } := h.congr rfl rfl

/-- A commit keeps the faces derived when its acceptance does. -/
theorem judge {α : Type} [DecidableEq α] {s : State} (h : s.Derived) (p : RecordPlace) (staged : α) (ac : Option α)
    (check : Option Reason) {accept : State → State} (hf : s.handedOver.Derived → (accept s.handedOver).Derived) :
    (s.judge p staged ac check accept).Derived := by
  unfold State.judge
  split
  · exact h.handedOver
  · split
    · exact h.handedOver.report _
    · exact hf h.handedOver

theorem whenUp {s t : State} {f : State → State} (h : s.Derived) (hf : (f s).Derived) (ht : whenUp s f = .next t) :
    t.Derived := by
  unfold Machine.whenUp at ht
  cases ht
  split
  · exact h
  · exact hf

/-! ### The clock, the memory path and the Record Assembler -/

theorem usTick {s : State} (h : s.Derived) : s.usTick.Derived := h.congr rfl rfl

theorem msTick {s : State} (h : s.Derived) : s.msTick.Derived := h.congr (by simp) (by simp)

theorem refCycle {s : State} (h : s.Derived) : s.refCycle.Derived := by
  unfold State.refCycle
  split
  · exact h
  · split
    · exact h.congr rfl rfl
    · exact h.usTick.msTick

theorem poweredOn (s : State) : s.poweredOn.Derived := Engines.FacesDerived.of_empty _ rfl

theorem freePort {s : State} (h : s.Derived) : s.freePort.Derived := h.congr (by simp) (by simp)

theorem arbitrate {s : State} (h : s.Derived) : s.arbitrate.Derived := h.congr (by simp) (by simp)

theorem hostWriteComplete {s : State} (h : s.Derived) : s.hostWriteComplete.Derived := by
  unfold State.hostWriteComplete
  split
  · rename_i addr beats items _
    have h1 : (s.writeDone addr beats items).Derived := h.congr rfl rfl
    exact h1.freePort
  all_goals exact h

theorem hostReadComplete {s : State} (h : s.Derived) : s.hostReadComplete.Derived := by
  unfold State.hostReadComplete
  split
  · rename_i addr count _
    have h1 : (s.readDone addr count).Derived := h.congr rfl rfl
    exact h1.freePort
  all_goals exact h

theorem unhold {s : State} (h : s.Derived) (x : Held) (items : List Item) : (s.unhold x items).Derived :=
  h.congr (by simp) (by simp)

theorem holdoffEnd {s : State} (h : s.Derived) : s.holdoffEnd.Derived := by
  unfold State.holdoffEnd
  split
  · split
    · exact h.unhold _ _
    · exact h
  · exact h

theorem staleCause {s : State} (h : s.Derived) (w : Fin 5) : (s.staleCause w).Derived := h.congr rfl rfl

theorem makeStale {s : State} (h : s.Derived) (w : Fin 5) : (s.makeStale w).Derived := by
  unfold State.makeStale
  split
  · exact h
  · exact h.staleCause w

theorem loseOn {s : State} (h : s.Derived) (items : List Item) (w : Fin 5) : (s.loseOn items w).Derived := by
  unfold State.loseOn
  split
  · exact h
  · split
    · exact h.report _
    · exact h.makeStale w

theorem holdoffExpiry {s : State} (h : s.Derived) : s.holdoffExpiry.Derived := by
  unfold State.holdoffExpiry
  split
  · split
    · exact foldl_inv State.Derived _ (fun b w hb => hb.loseOn _ w) _ _ (h.unhold _ _)
    · exact h
  · exact h

theorem takeItem_settings (a : Assembler) (p : MemPath) (i : Item) : (a.takeItem p i).settings = a.settings := by
  unfold Assembler.takeItem
  split
  · split <;> rfl
  · split <;> rfl

theorem intakeDrain {s : State} (h : s.Derived) : s.intakeDrain.Derived := by
  refine h.congr (by simp) ?_
  unfold State.intakeDrain
  split
  · exact takeItem_settings _ _ _
  · rfl
  · rfl

theorem sweepCompletion {s : State} (h : s.Derived) : s.sweepCompletion.Derived := by
  unfold State.sweepCompletion
  split
  · rename_i x rest _ _
    split
    · unfold State.endSweep
      split
      · exact h.congr rfl rfl
      · exact report (h.congr rfl rfl) _
    · exact h
  · exact h
  · exact h

/-! ### Commits -/

theorem carCommit {s : State} (h : s.Derived) : s.carCommit.Derived := by
  unfold State.carCommit
  split
  · exact h.judge _ _ _ _ fun hs => engines (hs.acceptCar _ _)
  · exact h

theorem assignCommit {s : State} (h : s.Derived) : s.assignCommit.Derived := by
  unfold State.assignCommit
  split
  · unfold State.commitAssign
    dsimp only
    split
    · exact h.handedOver.report _
    · exact engines (h.handedOver.judgeAssign _)
  · exact h

theorem rosterCommit {s : State} (h : s.Derived) : s.rosterCommit.Derived := by
  unfold State.rosterCommit
  split
  · exact h.judge _ _ _ _ fun hs => engines (hs.acceptRoster _ _)
  · exact h

theorem labelCommit {s : State} (h : s.Derived) : s.labelCommit.Derived := by
  unfold State.labelCommit
  split
  · exact h.judge _ _ _ _ fun hs => engines (hs.acceptLabel _ _)
  · exact h

theorem playoutCommit {s : State} (h : s.Derived) : s.playoutCommit.Derived := by
  unfold State.playoutCommit
  split
  · exact h.judge _ _ _ _ fun hs => engines (hs.keeps (Engines.Keeps.acceptPlayout _ _ _ _))
  · exact h

theorem relocationCommit {s : State} (h : s.Derived) : s.relocationCommit.Derived := by
  unfold State.relocationCommit
  split
  · exact h.judge _ _ _ _ fun hs => hs.congr rfl rfl
  · exact h

theorem clearWindow {s : State} (h : s.Derived) (w : Fin 5) : (s.clearWindow w).Derived := by
  have hc : (s.eng.clearTable s.ambient w).FacesDerived s.ambient := by
    unfold Engines.clearTable
    split
    · exact Engines.FacesDerived.clearCars h
    · split
      · exact Engines.FacesDerived.clearRoster h
      · split
        · exact Engines.FacesDerived.clearLabels h
        · split
          · exact Engines.FacesDerived.keeps h (Engines.Keeps.clearPlayout _)
          · exact h
  exact congr (s := s.engines fun A e => e.clearTable A w) (engines hc) rfl rfl

theorem withdrawSweep {s : State} (h : s.Derived) (w : Fin 5) : (s.withdrawSweep w).Derived := h.congr rfl rfl

theorem quietSweep {s : State} (h : s.Derived) (w : Fin 5) : (s.quietSweep w).Derived := by
  unfold State.quietSweep
  split
  · exact h.withdrawSweep w
  · exact h.congr rfl rfl

theorem rewindow {s : State} (h : s.Derived) (w : Fin 5) (r : Rec4) : (s.rewindow w r).Derived := by
  have hc := h.clearWindow w
  unfold State.rewindow
  dsimp only
  split
  · exact (hc.withdrawSweep w).congr rfl rfl
  · split
    · exact hc.congr rfl rfl
    · exact (hc.quietSweep w).staleCause w

theorem descriptorCommit {s : State} (h : s.Derived) : s.descriptorCommit.Derived := by
  unfold State.descriptorCommit
  split
  · rename_i w _
    refine h.judge _ _ _ _ fun hs => ?_
    have h1 : (s.handedOver.setWindow w (s.staged4 (descriptorOffset w))).Derived := hs.congr rfl rfl
    unfold State.acceptDescriptor
    dsimp only
    split
    · exact h1
    · exact h1.rewindow w _
  · exact h

theorem settingsCommit {s : State} (h : s.Derived) : s.settingsCommit.Derived := by
  unfold State.settingsCommit
  split
  · exact h.judge _ _ _ _ fun hs => engines (Engines.FacesDerived.rederive hs.covered _)
  · exact h

theorem groupCommit {s : State} (h : s.Derived) : s.groupCommit.Derived := by
  unfold State.groupCommit
  split
  · exact h.judge _ _ _ _ fun hs => engines (hs.acceptGroup _ _)
  · exact h

theorem linkSetupCommit {s : State} (h : s.Derived) : s.linkSetupCommit.Derived := by
  unfold State.linkSetupCommit
  split
  · exact h.judge _ _ _ _ fun hs => engines (hs.acceptLink _ _)
  · exact h

theorem overrideSlotCommit {s : State} (h : s.Derived) : s.overrideSlotCommit.Derived := by
  unfold State.overrideSlotCommit
  split
  · exact h.judge _ _ _ _ fun hs => engines (hs.acceptSlot _ _)
  · exact h

theorem acceptLanguage {s : State} (h : s.Derived) (l : Fin 16) (r : Rec4) : (s.acceptLanguage l r).Derived := by
  have h1 := h.setFetch { s.fetch with langs := s.fetch.langs.set l r }
  unfold State.acceptLanguage
  dsimp only
  split
  · exact engines (Engines.FacesDerived.languageReady h1 l)
  · exact h1

theorem languageCommit {s : State} (h : s.Derived) : s.languageCommit.Derived := by
  unfold State.languageCommit
  split
  · exact h.judge _ _ _ _ fun hs => hs.acceptLanguage _ _
  · exact h

theorem ringSetupCommit {s : State} (h : s.Derived) : s.ringSetupCommit.Derived := by
  unfold State.ringSetupCommit
  split
  · exact h.judge _ _ _ _ fun hs => hs.congr rfl rfl
  · exact h

/-! ### Commands of the command record -/

theorem restart (s : State) : s.restart.Derived := by
  have h1 : (s.restartFetch.engines fun A e => e.restarted A).Derived := engines (Engines.FacesDerived.restarted _ _)
  exact report (foldl_inv State.Derived State.makeStale (fun _ w hb => hb.makeStale w) stateWindows _ h1) _

theorem restartCommand {s : State} (h : s.Derived) : s.restartCommand.Derived := by
  unfold State.restartCommand
  split
  · split
    · exact restart _
    · exact h
  · exact h

theorem sweepCommand {s : State} (h : s.Derived) : s.sweepCommand.Derived := by
  unfold State.sweepCommand
  split
  · split
    · unfold State.sweep
      split
      · exact h.handedOver.report _
      · exact (h.handedOver.staleCause _).report _
    · exact h
  · exact h

theorem loadGlyphsCommand {s : State} (h : s.Derived) : s.loadGlyphsCommand.Derived := by
  unfold State.loadGlyphsCommand
  split
  · split
    · rename_i r _ _
      unfold State.loadGlyphs
      split
      · exact h.handedOver.report _
      · rename_i a _
        have h1 : (s.handedOver.beginLoad a r).Derived := h.congr rfl rfl
        exact h1.report _
    · exact h
  · exact h

theorem badOpcode {s : State} (h : s.Derived) : s.badOpcode.Derived := by
  unfold State.badOpcode
  split
  · split
    · exact h
    · exact h.handedOver.report _
  · exact h

/-! ### The Fetch Unit -/

theorem tellFilled {s : State} (h : s.Derived) (t : Option Tag) : (s.tellFilled t).Derived := by
  unfold State.tellFilled
  split
  · exact engines (Engines.FacesDerived.keeps h (Engines.Keeps.textFilled _ _))
  · exact h

theorem channelTake {s : State} (h : s.Derived) (ch : Fin 4) : (s.channelTake ch).Derived := by
  unfold State.channelTake
  split
  · exact ((h.setFetch _).tellFilled _).arbitrate
  · exact h
  · exact h

theorem sweepReadEnd {s : State} (h : s.Derived) (w : Fin 5) : (s.sweepReadEnd w).Derived := by
  unfold State.sweepReadEnd
  split
  · exact h
  · split
    · exact h.congr rfl rfl
    · exact h.congr rfl rfl

theorem sweepReadComplete {s : State} (h : s.Derived) : s.sweepReadComplete.Derived := by
  unfold State.sweepReadComplete
  split
  · rename_i r _
    refine freePort ?_
    have h1 : State.Derived { s with asm := { s.asm with intake := s.asm.intake ++ r.items s.mem } } := h.congr rfl rfl
    unfold State.sweepDelivered
    dsimp only
    split
    · exact h
    · exact h1
    · exact h1.sweepReadEnd _
  all_goals exact h

theorem textTransferComplete {s : State} (h : s.Derived) (ch : Fin 4) : (s.textTransferComplete ch).Derived :=
  ((h.setFetch _).tellFilled _).arbitrate

theorem bankReady {s : State} (h : s.Derived) (a : Fin 8) (count : Nat) : (s.bankReady a count).Derived :=
  engines (foldl_inv (Engines.FacesDerived _) _ (fun _ l hb => hb.languageReady l) _ _ (h.report _))

theorem glyphTransferComplete {s : State} (h : s.Derived) (ch : Fin 4) : (s.glyphTransferComplete ch).Derived := by
  unfold State.glyphTransferComplete
  refine arbitrate ?_
  have h1 := h.setFetch (s.fetch.glyphDone ch).1
  unfold State.tellReady
  split
  · exact h1.bankReady _ _
  · exact h1

theorem fetchReadComplete {s : State} (h : s.Derived) : s.fetchReadComplete.Derived := by
  unfold State.fetchReadComplete
  split
  · rename_i ch addr count discard _
    have h1 : (s.fetchDelivered ch addr count discard).Derived := h.congr (by simp) (by simp)
    exact h1.freePort
  all_goals exact h

/-! ### The display links -/

theorem outSlot {s : State} (h : s.Derived) (n : Fin 8) : (s.outSlot n).Derived := by
  unfold State.outSlot
  dsimp only
  split
  · exact Engines.FacesDerived.congr (Engines.FacesDerived.outSlotStep h n s.fetch) rfl rfl rfl fun _ => rfl
  · exact h

theorem frameComplete {s : State} (h : s.Derived) (n : Fin 8) : (s.frameComplete n).Derived := by
  unfold State.frameComplete
  split
  · exact engines (Engines.FacesDerived.completeFrame h n _)
  · exact h

theorem abortBlockSent {s : State} (h : s.Derived) (n : Fin 8) : (s.abortBlockSent n).Derived := by
  unfold State.abortBlockSent
  split
  · exact engines (Engines.FacesDerived.of_face h (by simp) (by simp) (by simp))
  · exact h

theorem statusAnswer {s : State} (h : s.Derived) (n : Fin 8) (heard : List LinkChar) : (s.statusAnswer n heard).Derived := by
  unfold State.statusAnswer
  split
  · split
    · exact engines (Engines.FacesDerived.goodAnswer (Engines.FacesDerived.onLink h n _) n _ _ _)
    · exact h
    · exact h
  · exact h

theorem entryAnswer {s : State} (h : s.Derived) (n : Fin 8) (heard : List LinkChar) : (s.entryAnswer n heard).Derived := by
  unfold State.entryAnswer
  split
  · split
    · exact engines (Engines.FacesDerived.offerEntry
        (Engines.FacesDerived.goodAnswer (Engines.FacesDerived.onLink h n _) n _ _ _) _ _ _)
    · exact h
    · exact h
  · exact h

theorem inSlotMiss {s : State} (h : s.Derived) (n : Fin 8) (heard : List LinkChar) : (s.inSlotMiss n heard).Derived := by
  unfold State.inSlotMiss
  split
  · split
    · exact h
    · exact engines (Engines.FacesDerived.miss (Engines.FacesDerived.onLink h n _) n _ _)
  · exact h

theorem slotAdvance {s : State} (h : s.Derived) (n : Fin 8) : (s.slotAdvance n).Derived := by
  unfold State.slotAdvance
  split
  · exact engines (Engines.FacesDerived.onLink h n _)
  · exact h

/-! ### Deliveries and reports -/

/-- A delivery keeps the faces derived when its owner's action does. -/
theorem deliver {s : State} (h : s.Derived) (k : PlaceKind) {act : Ambient → Engines → TimerPlace → Engines}
    (hact : ∀ (A : Ambient) (e : Engines) (p : TimerPlace), e.FacesDerived A → (act A e p).FacesDerived A) :
    (s.deliver k act).Derived := by
  unfold State.deliver
  split
  · exact engines (hact _ _ _ (Engines.FacesDerived.delivered h))
  · exact h

theorem onPromptHold (A : Ambient) (e : Engines) (p : TimerPlace) (h : e.FacesDerived A) :
    (onPromptHold A e p).FacesDerived A := by
  unfold Machine.onPromptHold
  split
  · exact h.keeps (Engines.Keeps.expirePrompt e _ p)
  all_goals exact h

theorem onLantern (A : Ambient) (e : Engines) (p : TimerPlace) (h : e.FacesDerived A) : (onLantern A e p).FacesDerived A := by
  unfold Machine.onLantern
  split
  · exact h.flash _ p
  all_goals exact h

theorem onGong (A : Ambient) (e : Engines) (p : TimerPlace) (h : e.FacesDerived A) : (onGong A e p).FacesDerived A := by
  unfold Machine.onGong
  split
  · exact h.stroke _ p
  all_goals exact h

theorem onDwell (A : Ambient) (e : Engines) (p : TimerPlace) (h : e.FacesDerived A) : (onDwell A e p).FacesDerived A := by
  unfold Machine.onDwell
  split
  · exact h.keeps (Engines.Keeps.expireDwell A e _ p)
  all_goals exact h

theorem onOverrideDwell (A : Ambient) (e : Engines) (p : TimerPlace) (h : e.FacesDerived A) :
    (onOverrideDwell A e p).FacesDerived A := by
  unfold Machine.onOverrideDwell
  split
  · split
    · exact h.rotateSlot _
    · exact h
  all_goals exact h

theorem reportComplete {s : State} (h : s.Derived) : s.reportComplete.Derived := by
  unfold State.reportComplete
  split
  · rename_i a words void _
    have h1 : (s.partWrite a words).Derived := h.congr rfl rfl
    refine freePort ?_
    split
    · exact h1
    · exact Engines.FacesDerived.of_face h1 rfl rfl rfl
  all_goals exact h

theorem mirrorComplete {s : State} (h : s.Derived) : s.mirrorComplete.Derived := by
  unfold State.mirrorComplete
  split
  · rename_i a words _
    have h1 : (s.partWrite a words).Derived := h.congr rfl rfl
    exact h1.freePort
  all_goals exact h

/-! ### Every command -/

theorem exec {s t : State} (h : s.Derived) (c : Instr) (ht : exec c s = .next t) : t.Derived := by
  cases c with
  | powerOnReset => cases ht; exact poweredOn s
  | usTick => exact h.whenUp h.usTick ht
  | msTick => exact h.whenUp h.msTick ht
  | upstreamWrite addr beats =>
    replace ht : execUpstreamWrite addr beats s = .next t := ht
    unfold execUpstreamWrite at ht
    split at ht
    · exact h.whenUp (h.congr (by simp) (by simp)) ht
    · cases ht
  | upstreamRead addr count =>
    replace ht : execUpstreamRead addr count s = .next t := ht
    unfold execUpstreamRead at ht
    split at ht
    · exact h.whenUp (h.congr (by simp) (by simp)) ht
    · cases ht
  | hostWriteComplete => exact h.whenUp h.hostWriteComplete ht
  | hostReadComplete => exact h.whenUp h.hostReadComplete ht
  | holdoffEnd => exact h.whenUp h.holdoffEnd ht
  | holdoffExpiry => exact h.whenUp h.holdoffExpiry ht
  | intakeDrain => exact h.whenUp h.intakeDrain ht
  | carCommit => exact h.whenUp h.carCommit ht
  | assignCommit => exact h.whenUp h.assignCommit ht
  | rosterCommit => exact h.whenUp h.rosterCommit ht
  | labelCommit => exact h.whenUp h.labelCommit ht
  | playoutCommit => exact h.whenUp h.playoutCommit ht
  | relocationCommit => exact h.whenUp h.relocationCommit ht
  | descriptorCommit => exact h.whenUp h.descriptorCommit ht
  | settingsCommit => exact h.whenUp h.settingsCommit ht
  | groupCommit => exact h.whenUp h.groupCommit ht
  | linkSetupCommit => exact h.whenUp h.linkSetupCommit ht
  | overrideSlotCommit => exact h.whenUp h.overrideSlotCommit ht
  | languageCommit => exact h.whenUp h.languageCommit ht
  | ringSetupCommit => exact h.whenUp h.ringSetupCommit ht
  | restart => exact h.whenUp h.restartCommand ht
  | sweep => exact h.whenUp h.sweepCommand ht
  | loadGlyphs => exact h.whenUp h.loadGlyphsCommand ht
  | badOpcode => exact h.whenUp h.badOpcode ht
  | fetchChannelTake ch => exact h.whenUp (f := fun s => s.channelTake ch) (h.channelTake ch) ht
  | sweepReadIssue ch => exact h.whenUp (f := fun s => s.sweepReadIssue ch) (h.congr (by simp) (by simp)) ht
  | sweepReadComplete => exact h.whenUp h.sweepReadComplete ht
  | sweepCompletion => exact h.whenUp h.sweepCompletion ht
  | textFillTransferComplete ch => exact h.whenUp (f := fun s => s.textTransferComplete ch) (h.textTransferComplete ch) ht
  | glyphTransferComplete ch => exact h.whenUp (f := fun s => s.glyphTransferComplete ch) (h.glyphTransferComplete ch) ht
  | outSlot n => exact h.whenUp (f := fun s => s.outSlot n) (h.outSlot n) ht
  | frameComplete n => exact h.whenUp (f := fun s => s.frameComplete n) (h.frameComplete n) ht
  | abortBlockSent n => exact h.whenUp (f := fun s => s.abortBlockSent n) (h.abortBlockSent n) ht
  | statusAnswer n heard => exact h.whenUp (f := fun s => s.statusAnswer n heard) (h.statusAnswer n heard) ht
  | entryAnswer n heard => exact h.whenUp (f := fun s => s.entryAnswer n heard) (h.entryAnswer n heard) ht
  | inSlotMiss n heard => exact h.whenUp (f := fun s => s.inSlotMiss n heard) (h.inSlotMiss n heard) ht
  | entryWaitExpiry =>
    exact h.whenUp (f := fun s => s.deliver .entryWait onEntryWait)
      (h.deliver .entryWait fun A e p he => he.keeps (Engines.Keeps.expireEntry A e p)) ht
  | promptHoldExpiry => exact h.whenUp (f := fun s => s.deliver .promptHold Machine.onPromptHold) (h.deliver .promptHold onPromptHold) ht
  | lanternExpiry => exact h.whenUp (f := fun s => s.deliver .lantern Machine.onLantern) (h.deliver .lantern onLantern) ht
  | gongExpiry => exact h.whenUp (f := fun s => s.deliver .gong Machine.onGong) (h.deliver .gong onGong) ht
  | dwellExpiry => exact h.whenUp (f := fun s => s.deliver .dwell Machine.onDwell) (h.deliver .dwell onDwell) ht
  | overrideDwellExpiry => exact h.whenUp (f := fun s => s.deliver .overrideDwell Machine.onOverrideDwell) (h.deliver .overrideDwell onOverrideDwell) ht
  | reportWriteIssue => exact h.whenUp (f := State.reportIssue) (h.congr (by simp) (by simp)) ht
  | reportWriteComplete => exact h.whenUp h.reportComplete ht
  | statusMirrorWrite => exact h.whenUp (f := State.mirrorIssue) (h.congr (by simp) (by simp)) ht
  | resetNFall => cases ht; exact h.congr rfl rfl
  | slotPositionAdvance n => exact h.whenUp (f := fun s => s.slotAdvance n) (h.slotAdvance n) ht
  | fetchReadComplete => exact h.whenUp h.fetchReadComplete ht
  | statusMirrorWriteComplete => exact h.whenUp h.mirrorComplete ht

theorem step {s t : State} (h : s.Derived) (ht : step s = .next t) : t.Derived := by
  unfold Machine.step at ht
  split at ht
  · cases ht
    exact h.refCycle
  · rename_i c rest _
    exact State.Derived.exec (s := { s with pending := rest }) (h.congr rfl rfl) c ht

end State.Derived
end Sys2Proof.Machine

/-! SUPPORT. What a display shows by its class and binding, in the words of the records (R17 to R20, R22, R81). -/

namespace Sys2Proof.Machine

theorem labelOf_eq (labels : Tab Rec4) (f : Nat) : labelOf labels f = (labels.get f).filter Rec4.labPresent := by
  unfold labelOf
  cases labels.get f with
  | none => rfl
  | some r => simp [Option.filter]

/-- The label of a floor that may be none. -/
def labelAt (labels : Tab Rec4) (floor : Option Nat) : Option Rec4 := (floor.bind labels.get).filter Rec4.labPresent

theorem nameOfFloor_eq (i : Indication) (floor : Option Nat) :
    nameOfFloor i floor = (labelAt i.labels floor).map Rec4.labMatrix := by
  cases floor with
  | none => rfl
  | some f => exact congrArg (Option.map Rec4.labMatrix) (labelOf_eq i.labels f)

theorem matrixName_eq (labels : Tab Rec4) (f : Nat) :
    matrixName labels f = (labelAt labels (some f)).map Rec4.labMatrix :=
  congrArg (Option.map Rec4.labMatrix) (labelOf_eq labels f)

theorem segmentOfFloor_eq (i : Indication) (floor : Option Nat) :
    segmentOfFloor i floor = ((labelAt i.labels floor).map Rec4.labSegment).getD 0 := by
  cases floor with
  | none => rfl
  | some f =>
    have h : labelAt i.labels (some f) = labelOf i.labels f := (labelOf_eq i.labels f).symm
    unfold segmentOfFloor segmentName
    rw [h]
    cases hlab : labelOf i.labels f <;> simp [hlab]

theorem highlight_eq (shown : List Nat) (target : Option Nat) :
    highlight shown target = target.bind fun x => if x ∈ shown then some (shown.idxOf x) else none := by
  cases target with
  | none => rfl
  | some x => simp [highlight]

/-- A car that is PRESENT in a PRESENT group is live with its records. -/
theorem live_eq_some {i : Indication} {c : Fin 48} {r : Rec4} {g : Fin 8} (hr : (i.carOf c).accepted = some r)
    (hg : r.carGroup = some g) (hp : (i.groupOf g).groupPresent = true) : i.live c = some (r, i.groupOf g) := by
  have hcar : (i.carOf c).group = some g := by unfold Car.group; rw [hr]; exact hg
  unfold Indication.live
  rw [hr, hcar]
  simp [hp]

/-- A car that is ABSENT, or in no PRESENT group, is not live. -/
theorem live_eq_none {i : Indication} {c : Fin 48} (h : ∀ r g, (i.carOf c).accepted = some r → r.carGroup = some g →
    (i.groupOf g).groupPresent = false) : i.live c = none := by
  unfold Indication.live
  split
  · rename_i r g hr hg
    have hg' : r.carGroup = some g := by unfold Car.group at hg; rw [hr] at hg; exact hg
    simp [h r g hr hg']
  · rfl

theorem deriveScope_car {i : Indication} {f : Face} {c : Fin 48} {r : Rec4} {g : Fin 8} (hb : f.bindA = c.val)
    (hcls : f.cls = .hallSegment ∨ f.cls = .carSegment ∨ f.cls = .carMatrix)
    (hr : (i.carOf c).accepted = some r) (hg : r.carGroup = some g) : deriveScope i f = 1#8 <<< g.val := by
  have hcar : (i.carOf c).group = some g := by unfold Car.group; rw [hr]; exact hg
  unfold deriveScope
  rcases hcls with h | h | h <;> simp [h, hb, toFin_val, hcar, maskOf]

section LiveCar

variable {A : Ambient} {e : Engines} {f : Face} {c : Fin 48} {r : Rec4} {g : Rec8}

theorem deriveBase_hallSegment (hcls : f.cls = .hallSegment) (hb : f.bindA = c.val) (hl : e.ind.live c = some (r, g)) :
    deriveBase A e f = .hallSegment (segmentOfFloor e.ind (e.ind.carOf c).lower) r.arrow
      ((e.ind.signalOf c).show f.bindB) := by
  unfold deriveBase; simp [hcls, hb, toFin_val, hl]

theorem deriveFloor_hallSegment (hcls : f.cls = .hallSegment) (hb : f.bindA = c.val) (hl : e.ind.live c = some (r, g)) :
    deriveFloor e.ind f = g.floorOf f.bindB := by
  unfold deriveFloor; simp [hcls, hb, toFin_val, hl]

theorem deriveBase_carSegment (hcls : f.cls = .carSegment) (hb : f.bindA = c.val) (hl : e.ind.live c = some (r, g)) :
    deriveBase A e f = .carSegment (segmentOfFloor e.ind
      (if f.bindB = 0 then (e.ind.carOf c).lower else (e.ind.carOf c).upper)) r.arrow := by
  unfold deriveBase; simp [hcls, hb, toFin_val, hl]

theorem deriveBase_carMatrix (hcls : f.cls = .carMatrix) (hb : f.bindA = c.val) (hl : e.ind.live c = some (r, g)) :
    deriveBase A e f = .carMatrix (some
      { name := r.carName
        position := nameOfFloor e.ind (if f.bindB = 0 then (e.ind.carOf c).lower else (e.ind.carOf c).upper)
        arrow := r.arrow
        stops := (shownStops (e.stopsOf c) r.arrow).map (matrixName e.ind.labels)
        target := highlight (shownStops (e.stopsOf c) r.arrow) (targetFloor g r f.bindB)
        mode := byteOf r.w1 0
        load := byteOf r.w1 1 }) := by
  unfold deriveBase; simp [hcls, hb, toFin_val, carMatrixBase, hl]

end LiveCar

/-- A display of a car that is not live is blank. -/
theorem deriveBase_blank {A : Ambient} {e : Engines} {f : Face} {c : Fin 48} (hb : f.bindA = c.val)
    (hl : e.ind.live c = none) :
    (f.cls = .hallSegment → deriveBase A e f = .hallSegment 0 .none (.off none) ∧ deriveFloor e.ind f = none) ∧
    (f.cls = .carSegment → deriveBase A e f = .carSegment 0 .none) ∧
    (f.cls = .carMatrix → deriveBase A e f = .carMatrix none) := by
  refine ⟨fun h => ⟨?_, ?_⟩, fun h => ?_, fun h => ?_⟩
  · unfold deriveBase; simp [h, hb, toFin_val, hl]
  · unfold deriveFloor; simp [h, hb, toFin_val, hl]
  · unfold deriveBase; simp [h, hb, toFin_val, hl]
  · unfold deriveBase; simp [h, hb, toFin_val, carMatrixBase, hl]

/-- The PRESENT cars of a group with their records, in ascending car number. -/
def listedCars (i : Indication) (g : Fin 8) : List (Fin 48 × Rec4) :=
  (List.finRange 48).filterMap fun c =>
    ((i.carOf c).accepted.filter fun r => r.carGroup == some g).map fun r => (c, r)

theorem hallMatrixBase_present {i : Indication} {g : Fin 8} (landing : Nat) (hp : (i.groupOf g).groupPresent = true) :
    hallMatrixBase i g landing = .hallMatrix (((listedCars i g).take 8).map fun x =>
      hallEntry i landing (i.carOf x.1) x.2) := by
  unfold hallMatrixBase listedCars
  rw [if_pos hp, List.map_take, List.map_filterMap]
  congr 2
  refine congrArg (List.filterMap · _) (funext fun c => ?_)
  cases (i.carOf c).accepted with
  | none => rfl
  | some r => by_cases hg : r.carGroup = some g <;> simp [Option.filter, hg]

theorem signal_show_own {x : Signal} {n l : Nat} (hl : x.landing = some l) (hn : n = l ∨ (x.two = true ∧ n = l + 1)) :
    x.show n = match x.lantern with
      | .none => .off (some x.lit)
      | .up => .up x.lit
      | .down => .down x.lit := by
  have hmine : (n == l || (x.two && n == l + 1)) = true := by simpa using hn
  unfold Signal.show
  simp only [hl, hmine, if_true] <;> rfl

theorem signal_show_elsewhere {x : Signal} {n : Nat}
    (h : ∀ l, x.landing = some l → n ≠ l ∧ (x.two = true → n ≠ l + 1)) : x.show n = .off none := by
  unfold Signal.show
  cases hl : x.landing with
  | none => rfl
  | some l =>
    obtain ⟨hne, htwo⟩ := h l hl
    have hmine : ¬ (n == l || (x.two && n == l + 1)) = true := by
      simp only [Bool.or_eq_true, Bool.and_eq_true, beq_iff_eq]
      rintro (hn | ⟨ht, hn⟩)
      · exact hne hn
      · exact htwo ht hn
    simp only [if_neg hmine]

/-- Settles O25: every step keeps the faces derived (`State.Derived.step`), and each class shows what its lemma above
says. -/
theorem facesShowWhatTheirClassGives : Obligations.FacesShowWhatTheirClassGives := by
  refine ⟨fun s t h ht => State.Derived.step h ht, ?_, ?_, ?_, ?_, ?_⟩
  · intro A e f c r g hb hr hg hp label codes name car deck arrow group floors target
    have hl := live_eq_some hr hg hp
    have hstops : shownStops (e.stopsOf c) r.arrow = floors := rfl
    have htarget : targetFloor group r f.bindB = target := rfl
    refine ⟨fun h => ⟨?_, deriveFloor_hallSegment h hb hl, deriveScope_car hb (.inl h) hr hg⟩,
      fun h => ⟨?_, by unfold deriveFloor; rw [h], deriveScope_car hb (.inr (.inl h)) hr hg⟩,
      fun h => ⟨?_, by unfold deriveFloor; rw [h], deriveScope_car hb (.inr (.inr h)) hr hg⟩⟩
    · rw [deriveBase_hallSegment h hb hl, segmentOfFloor_eq]
      rfl
    · rw [deriveBase_carSegment h hb hl, segmentOfFloor_eq]
      rfl
    · have hname : matrixName e.ind.labels = fun x => name (some x) := funext fun x => matrixName_eq _ x
      rw [deriveBase_carMatrix h hb hl, nameOfFloor_eq, hstops, htarget, highlight_eq, hname]
      rfl
  · exact fun A e f c hb h => deriveBase_blank hb (live_eq_none h)
  · intro A e f g hcls hb name listed
    refine ⟨fun hp => ⟨?_, ?_, ?_⟩, fun hp => ⟨?_, ?_, ?_⟩⟩
    · have hbase : deriveBase A e f = hallMatrixBase e.ind g f.bindB := by
        unfold deriveBase; simp [hcls, hb, toFin_val]
      rw [hbase, hallMatrixBase_present _ hp]
      unfold hallEntry
      simp only [nameOfFloor_eq]
      rfl
    · unfold deriveFloor; simp [hcls, hb, toFin_val]
    · unfold deriveScope; simp [hcls, hb, toFin_val, hp, maskOf]
    · unfold deriveBase hallMatrixBase; simp [hcls, hb, toFin_val, hp]
    · unfold deriveFloor Rec8.floorOf; simp [hcls, hb, toFin_val, hp]
    · unfold deriveScope; simp [hcls, hb, toFin_val, hp]
  · intro A e f hcls
    refine ⟨?_, ?_, ?_⟩
    · unfold deriveBase; rw [hcls]
    · unfold deriveFloor; rw [hcls]
    · unfold deriveScope; rw [hcls]
  · exact fun x n => ⟨fun l hl hn => signal_show_own hl hn, fun h => signal_show_elsewhere h⟩

end Sys2Proof.Machine

/-! SUPPORT. Power-on values, group records, and the floors of landings and decks (R1 to R5, R9). -/

namespace Sys2Proof.Machine

/-! ## Power-on values -/

/-- A table that has one value at power-on has it at every index. -/
theorem get_replicate {α : Type} {n : Nat} (x : α) (i : Fin n) : (Vector.replicate n x)[i] = x :=
  Vector.getElem_replicate _

/-- Settles O3: the tables of the part are uniform at power-on (`get_replicate`), everything else is its literal value. -/
theorem resetLeavesPowerOnValues : Obligations.ResetLeavesPowerOnValues := by
  have hsetup : ∀ n, State.reset.eng.linkOf n = Link.reset := get_replicate Link.reset
  have hcar : ∀ c, State.reset.eng.ind.carOf c = Car.reset := get_replicate Car.reset
  have hctx : ∀ c, State.reset.eng.ctx c = Context.reset := get_replicate Context.reset
  have hline : ∀ i, State.reset.fetch.line i = Line.reset := get_replicate Line.reset
  exact ⟨rfl, get_replicate Rec4.zero, rfl, rfl, rfl, rfl, get_replicate WinState.disabled, rfl, rfl, rfl, rfl,
    get_replicate [], fun c => congrArg Car.accepted (hcar c), get_replicate Signal.reset, get_replicate Rec8.zero, rfl, rfl,
    get_replicate (OverrideSlot.mk Rec4.zero none none), fun c => congrArg Context.state (hctx c),
    fun n => congrArg Link.running (hsetup n), get_replicate (Rec4.mk 0 0 0 8), fun i => congrArg Line.state (hline i),
    get_replicate Area.reset, rfl, get_replicate none, rfl, rfl, rfl, rfl, rfl⟩

/-! ## Floors -/

/-- The deck floors of a record by its position (R9). -/
theorem deckFloors (g : Rec8) (r : Rec4) :
    (byteN r.w3 0 ≤ 127 → lowerFloor g r = g.floorOf (byteN r.w3 0) ∧
      upperFloor g r = if byteN g.w0 0 = 1 then g.floorOf (byteN r.w3 0 + 1) else none) ∧
    (127 < byteN r.w3 0 → lowerFloor g r = none ∧ upperFloor g r = none) := by
  refine ⟨fun h => ?_, fun h => ?_⟩
  · have hl : r.carLanding = some (byteN r.w3 0) := if_pos h
    have hd : g.double = decide (byteN g.w0 0 = 1) := rfl
    unfold lowerFloor upperFloor
    rw [hl, hd]
    exact ⟨rfl, by simp [Rec8.floorOpt]⟩
  · have hl : r.carLanding = none := if_neg (Nat.not_le.2 h)
    unfold lowerFloor upperFloor
    rw [hl]
    exact ⟨rfl, by simp [Rec8.floorOpt]⟩

/-- A span word holds a landing: its first landing is not NONE, and the landing lies from its first to its last. -/
def holdsLanding (w : Word) (l : Nat) : Prop := byteN w 0 ≠ 255 ∧ byteN w 0 ≤ l ∧ l ≤ byteN w 1

/-- The floor that a span word gives a landing. -/
theorem spanOf_floor_eq_some (w : Word) (l x : Nat) :
    ((spanOf w).bind fun p => p.floor l) = some x ↔ holdsLanding w l ∧ x = byteN w 2 + (l - byteN w 0) := by
  unfold spanOf holdsLanding
  by_cases h : byteN w 0 = 255
  · simp [h]
  · rw [if_neg h]
    simp only [Option.bind_some, Span.floor, Option.ite_none_right_eq_some, Option.some.injEq, ne_eq, h, not_false_eq_true,
      true_and, eq_comm (b := x)]

theorem findSome_filterMap {α β γ : Type} (f : α → Option β) (g : β → Option γ) (l : List α) :
    (l.filterMap f).findSome? g = l.findSome? fun x => (f x).bind g := by
  induction l with
  | nil => rfl
  | cons x l ih => cases hx : f x <;> simp [hx, List.findSome?_cons, ih]

/-- The floor of a landing in a group record: that of the first used span that holds it (R3). -/
theorem floorOf_eq (r : Rec8) (l : Nat) : r.floorOf l =
    if byteN r.w7 0 = 1 then [r.w1, r.w2, r.w3, r.w4].findSome? fun w => (spanOf w).bind fun p => p.floor l else none := by
  unfold Rec8.floorOf Rec8.spans
  rw [findSome_filterMap]
  simp [Rec8.groupPresent, Rec8.groupStateCode]

theorem floorOf_eq_some {r : Rec8} {l x : Nat} (h : r.floorOf l = some x) :
    ∃ w ∈ [r.w1, r.w2, r.w3, r.w4], holdsLanding w l ∧ x = byteN w 2 + (l - byteN w 0) := by
  rw [floorOf_eq] at h
  split at h
  · obtain ⟨w, hw, hx⟩ := List.exists_of_findSome?_eq_some h
    exact ⟨w, hw, (spanOf_floor_eq_some w l x).1 hx⟩
  · cases h

theorem floorOf_eq_none_iff (r : Rec8) (l : Nat) :
    r.floorOf l = none ↔ byteN r.w7 0 ≠ 1 ∨ ∀ w ∈ [r.w1, r.w2, r.w3, r.w4], ¬ holdsLanding w l := by
  have hnone : ∀ w, ((spanOf w).bind fun p => p.floor l) = none ↔ ¬ holdsLanding w l := by
    intro w
    rw [Option.eq_none_iff_forall_ne_some]
    refine ⟨fun h hw => h _ ((spanOf_floor_eq_some w l _).2 ⟨hw, rfl⟩), fun h x hx => ?_⟩
    exact h ((spanOf_floor_eq_some w l x).1 hx).1
  rw [floorOf_eq]
  by_cases hp : byteN r.w7 0 = 1
  · rw [if_pos hp, List.findSome?_eq_none_iff]
    simp only [hnone, hp, ne_eq, not_true_eq_false, false_or]
  · simp [hp]

/-! ## Cars, signals and groups after a change -/

theorem carOf_onCar (e : Engines) (c k : Fin 48) (g : Car → Car) :
    (e.onCar c g).ind.carOf k = if c = k then g (e.ind.carOf k) else e.ind.carOf k := get_upd e.ind.cars c k g

theorem signalOf_onSignal (e : Engines) (c k : Fin 48) (g : Signal → Signal) :
    (e.onSignal c g).ind.signalOf k = if c = k then g (e.ind.signalOf k) else e.ind.signalOf k :=
  get_upd e.ind.signals c k g

theorem groupOf_setGroup (e : Engines) (g k : Fin 8) (r : Rec8) :
    (e.setGroup g r).ind.groupOf k = if g = k then r else e.ind.groupOf k := get_upd e.ind.groups g k fun _ => r

/-- Deriving BASE content anew keeps the sources, the override slots and the ticket counter. -/
theorem rederive_stops (A : Ambient) (e : Engines) : (e.rederive A).dest.stops = e.dest.stops :=
  congrArg Firm.stops (Engines.Keeps.rederive_firm A e)

theorem rederive_slots (A : Ambient) (e : Engines) : (e.rederive A).face.slots = e.face.slots :=
  congrArg Firm.slots (Engines.Keeps.rederive_firm A e)

theorem rederive_ticket (A : Ambient) (e : Engines) : (e.rederive A).dest.ticket = e.dest.ticket :=
  congrArg Firm.ticket (Engines.Keeps.rederive_firm A e)

theorem derived_of_group (i : Indication) {x : Car} {r : Rec4} {g : Fin 8} (hr : x.accepted = some r)
    (hg : r.carGroup = some g) :
    i.derived x = { x with lower := lowerFloor (i.groupOf g) r, upper := upperFloor (i.groupOf g) r } := by
  have hx : x.group = some g := by unfold Car.group; rw [hr]; exact hg
  unfold Indication.derived
  rw [hr, hx]

theorem derived_of_groups {i j : Indication} (h : j.groups = i.groups) (x : Car) : j.derived x = i.derived x := by
  have hg : ∀ g, j.groupOf g = i.groupOf g := fun g => by unfold Indication.groupOf; rw [h]
  unfold Indication.derived
  simp only [hg]

/-- Deriving the deck floors looks at neither of them. -/
theorem derived_derived (i : Indication) (x : Car) : i.derived (i.derived x) = i.derived x := by
  unfold Indication.derived Car.group
  cases hx : x.accepted with
  | none => rfl
  | some r => cases hg : r.carGroup <;> simp [hg]

/-! ## The end of a lantern -/

theorem running_reset : Signal.reset.running = false := rfl

theorem endLantern_signalOf (e : Engines) (c k : Fin 48) : (e.endLantern c).ind.signalOf k =
    if c = k ∧ (e.ind.signalOf c).running = true then Signal.reset else e.ind.signalOf k := by
  unfold Engines.endLantern
  dsimp only
  by_cases hr : (e.ind.signalOf c).running = true
  · rw [if_pos hr, signalOf_onSignal]
    simp [hr]
  · rw [if_neg hr, if_neg fun h => hr h.2]

/-- The end of a lantern leaves cars, groups and labels alone. -/
theorem endLantern_ind (e : Engines) (c : Fin 48) :
    (e.endLantern c).ind = { e.ind with signals := (e.endLantern c).ind.signals } := by
  unfold Engines.endLantern
  dsimp only
  split <;> rfl

theorem foldl_endLantern_ind (l : List (Fin 48)) (e : Engines) : (l.foldl Engines.endLantern e).ind =
    { e.ind with signals := (l.foldl Engines.endLantern e).ind.signals } := by
  induction l generalizing e with
  | nil => rfl
  | cons c l ih => rw [List.foldl_cons, ih, endLantern_ind]

theorem foldl_endLantern_running (l : List (Fin 48)) (e : Engines) (k : Fin 48)
    (h : k ∈ l ∨ (e.ind.signalOf k).running = false) :
    ((l.foldl Engines.endLantern e).ind.signalOf k).running = false := by
  induction l generalizing e with
  | nil => exact h.resolve_left List.not_mem_nil
  | cons c l ih =>
    rw [List.foldl_cons]
    refine ih _ ?_
    rw [endLantern_signalOf]
    split
    · exact .inr running_reset
    · rename_i hc
      rcases h with hk | hk
      · rcases List.mem_cons.1 hk with rfl | hk
        · exact .inr (by simpa using hc)
        · exact .inl hk
      · exact .inr hk

theorem foldl_endLantern_other (l : List (Fin 48)) (e : Engines) {k : Fin 48} (h : k ∉ l) :
    (l.foldl Engines.endLantern e).ind.signalOf k = e.ind.signalOf k := by
  induction l generalizing e with
  | nil => rfl
  | cons c l ih =>
    rw [List.mem_cons, not_or] at h
    rw [List.foldl_cons, ih _ h.2, endLantern_signalOf, if_neg fun hc => h.1 hc.1.symm]

/-! ## Deck floors derived anew -/

theorem foldl_derived_ind (l : List (Fin 48)) (e : Engines) :
    (l.foldl (fun acc c => acc.onCar c acc.ind.derived) e).ind =
      { e.ind with cars := (l.foldl (fun acc c => acc.onCar c acc.ind.derived) e).ind.cars } := by
  induction l generalizing e with
  | nil => rfl
  | cons c l ih => rw [List.foldl_cons, ih]; rfl

theorem foldl_derived_carOf (l : List (Fin 48)) (e : Engines) (k : Fin 48) :
    (l.foldl (fun acc c => acc.onCar c acc.ind.derived) e).ind.carOf k =
      if k ∈ l then e.ind.derived (e.ind.carOf k) else e.ind.carOf k := by
  induction l generalizing e with
  | nil => rfl
  | cons c l ih =>
    have hd : ∀ x, (e.onCar c e.ind.derived).ind.derived x = e.ind.derived x := derived_of_groups rfl
    rw [List.foldl_cons, ih, hd, carOf_onCar]
    by_cases hc : c = k
    · subst hc
      simp [derived_derived]
    · have hm : k ∈ c :: l ↔ k ∈ l := by simp [Ne.symm hc]
      simp only [if_neg hc, hm]

theorem mem_carsOf (i : Indication) (g : Fin 8) (c : Fin 48) : c ∈ carsOf i g ↔ (i.carOf c).group = some g := by
  simp [carsOf]

/-! ## An accepted group record -/

/-- An accepted group record, and the lanterns it ends: those of the cars of a group that was PRESENT. -/
def groupEnded (e : Engines) (g : Fin 8) (r : Rec8) : Engines :=
  if (e.ind.groupOf g).groupPresent && !r.groupPresent then (carsOf e.ind g).foldl Engines.endLantern (e.setGroup g r)
  else e.setGroup g r

/-- An accepted group record before BASE content is derived anew: the deck floors follow the ended lanterns. -/
def groupTaken (e : Engines) (g : Fin 8) (r : Rec8) : Engines :=
  (carsOf e.ind g).foldl (fun acc c => acc.onCar c acc.ind.derived) (groupEnded e g r)

theorem acceptGroup_eq (A : Ambient) (e : Engines) (g : Fin 8) (r : Rec8) :
    e.acceptGroup A g r = (groupTaken e g r).rederive A := rfl

theorem groupEnded_ind (e : Engines) (g : Fin 8) (r : Rec8) :
    (groupEnded e g r).ind = { (e.setGroup g r).ind with signals := (groupEnded e g r).ind.signals } := by
  unfold groupEnded
  split
  · exact foldl_endLantern_ind _ _
  · rfl

theorem groupTaken_ind (e : Engines) (g : Fin 8) (r : Rec8) : (groupTaken e g r).ind =
    { (e.setGroup g r).ind with signals := (groupEnded e g r).ind.signals, cars := (groupTaken e g r).ind.cars } := by
  unfold groupTaken
  rw [foldl_derived_ind, groupEnded_ind]

theorem groupTaken_groupOf (e : Engines) (g k : Fin 8) (r : Rec8) :
    (groupTaken e g r).ind.groupOf k = if g = k then r else e.ind.groupOf k := by
  rw [groupTaken_ind]
  exact groupOf_setGroup e g k r

theorem groupTaken_signalOf (e : Engines) (g : Fin 8) (r : Rec8) (c : Fin 48) :
    (groupTaken e g r).ind.signalOf c = (groupEnded e g r).ind.signalOf c := by
  rw [groupTaken_ind]
  rfl

/-- The cars of the group, and they alone, have their deck floors derived from its new record. -/
theorem groupTaken_carOf (e : Engines) (g : Fin 8) (r : Rec8) (c : Fin 48) : (groupTaken e g r).ind.carOf c =
    if (e.ind.carOf c).group = some g then (e.setGroup g r).ind.derived (e.ind.carOf c) else e.ind.carOf c := by
  have hcar : (groupEnded e g r).ind.carOf c = e.ind.carOf c := by rw [groupEnded_ind]; rfl
  have hd : (groupEnded e g r).ind.derived (e.ind.carOf c) = (e.setGroup g r).ind.derived (e.ind.carOf c) :=
    derived_of_groups (by rw [groupEnded_ind]) _
  unfold groupTaken
  rw [foldl_derived_carOf, hcar, hd]
  simp only [mem_carsOf]

/-- Only the lanterns of the group's cars can end. -/
theorem groupEnded_signalOf_other (e : Engines) (g : Fin 8) (r : Rec8) {c : Fin 48} (h : (e.ind.carOf c).group ≠ some g) :
    (groupEnded e g r).ind.signalOf c = e.ind.signalOf c := by
  unfold groupEnded
  split
  · exact foldl_endLantern_other _ _ fun hm => h ((mem_carsOf _ _ _).1 hm)
  · rfl

theorem groupEnded_running (e : Engines) (g : Fin 8) (r : Rec8) {c : Fin 48} (h : (e.ind.carOf c).group = some g)
    (hwas : (e.ind.groupOf g).groupPresent = true) (hr : r.groupPresent = false) :
    ((groupEnded e g r).ind.signalOf c).running = false := by
  unfold groupEnded
  rw [if_pos (by simp [hwas, hr])]
  exact foldl_endLantern_running _ _ _ (.inl ((mem_carsOf _ _ _).2 h))

theorem groupEnded_present (e : Engines) (g : Fin 8) {r : Rec8} (hr : r.groupPresent = true) :
    groupEnded e g r = e.setGroup g r := by
  unfold groupEnded
  rw [if_neg (by simp [hr])]

theorem groupTaken_face_dest (e : Engines) (g : Fin 8) (r : Rec8) :
    (groupTaken e g r).face = e.face ∧ (groupTaken e g r).dest = e.dest := by
  have hended : (groupEnded e g r).face = e.face ∧ (groupEnded e g r).dest = e.dest := by
    unfold groupEnded
    split
    · exact ⟨foldl_keeps Engines.face Engines.endLantern (by simp) _ _,
        foldl_keeps Engines.dest Engines.endLantern (by simp) _ _⟩
    · exact ⟨rfl, rfl⟩
  unfold groupTaken
  exact ⟨(foldl_keeps Engines.face (fun (acc : Engines) c => acc.onCar c acc.ind.derived) (fun _ _ => rfl) _ _).trans hended.1,
    (foldl_keeps Engines.dest (fun (acc : Engines) c => acc.onCar c acc.ind.derived) (fun _ _ => rfl) _ _).trans hended.2⟩

/-- Deriving BASE content anew keeps the sources: the part holds of groups, cars and signals what `groupTaken` gives. -/
theorem acceptGroup_ind (A : Ambient) (e : Engines) (g : Fin 8) (r : Rec8) :
    (e.acceptGroup A g r).ind = (groupTaken e g r).ind := Engines.rederive_ind _ _

section AcceptGroup

variable (A : Ambient) (e : Engines) (g : Fin 8) (r : Rec8)

theorem acceptGroup_groupOf (k : Fin 8) :
    (e.acceptGroup A g r).ind.groupOf k = if g = k then r else e.ind.groupOf k := by
  rw [acceptGroup_ind, groupTaken_groupOf]

theorem acceptGroup_labels : (e.acceptGroup A g r).ind.labels = e.ind.labels := by
  rw [acceptGroup_ind, groupTaken_ind]; rfl

theorem acceptGroup_stops : (e.acceptGroup A g r).dest.stops = e.dest.stops := by
  rw [acceptGroup_eq, rederive_stops, (groupTaken_face_dest e g r).2]

theorem acceptGroup_slots : (e.acceptGroup A g r).face.slots = e.face.slots := by
  rw [acceptGroup_eq, rederive_slots, (groupTaken_face_dest e g r).1]

variable {A e g r}

/-- A car of another group, or of none, is left alone. -/
theorem acceptGroup_other {c : Fin 48} (hc : (e.ind.carOf c).group ≠ some g) :
    (e.acceptGroup A g r).ind.carOf c = e.ind.carOf c ∧
      (e.acceptGroup A g r).ind.signalOf c = e.ind.signalOf c := by
  rw [acceptGroup_ind, groupTaken_carOf, if_neg hc, groupTaken_signalOf, groupEnded_signalOf_other _ _ _ hc]
  exact ⟨rfl, rfl⟩

/-- A car of the group has the deck floors that its record and the new group record give. -/
theorem acceptGroup_carOf {c : Fin 48} {a : Rec4} (hc : (e.ind.carOf c).group = some g)
    (ha : (e.ind.carOf c).accepted = some a) : (e.acceptGroup A g r).ind.carOf c =
      { e.ind.carOf c with lower := lowerFloor r a, upper := upperFloor r a } := by
  have hag : a.carGroup = some g := by unfold Car.group at hc; rw [ha] at hc; exact hc
  rw [acceptGroup_ind, groupTaken_carOf, if_pos hc, derived_of_group _ ha hag, groupOf_setGroup, if_pos rfl]

theorem acceptGroup_running {c : Fin 48} (hc : (e.ind.carOf c).group = some g)
    (hwas : (e.ind.groupOf g).groupPresent = true) (hr : r.groupPresent = false) :
    ((e.acceptGroup A g r).ind.signalOf c).running = false := by
  rw [acceptGroup_ind, groupTaken_signalOf]
  exact groupEnded_running _ _ _ hc hwas hr

theorem acceptGroup_signalOf (hr : r.groupPresent = true) (c : Fin 48) :
    (e.acceptGroup A g r).ind.signalOf c = e.ind.signalOf c := by
  rw [acceptGroup_ind, groupTaken_signalOf, groupEnded_present _ _ hr]
  rfl

end AcceptGroup

/-- Settles O34: what an accepted group record does to the groups, the cars and the signals is said by the lemmas on
`acceptGroup`; the floors are `floorOf_eq_none_iff`, `floorOf_eq_some` and `deckFloors`. -/
theorem groupCommitTakesTheRecord : Obligations.GroupCommitTakesTheRecord := by
  refine ⟨fun s g h => ?_, fun r l => ⟨floorOf_eq_none_iff r l, fun x => floorOf_eq_some⟩, deckFloors⟩
  exact ⟨_, exec_groupCommit_accepted h, rfl, (acceptGroup_groupOf _ _ _ _ g).trans (if_pos rfl),
    fun k hk => (acceptGroup_groupOf _ _ _ _ k).trans (if_neg hk.symm), acceptGroup_labels _ _ _ _,
    acceptGroup_stops _ _ _ _, acceptGroup_slots _ _ _ _, fun c => acceptGroup_other,
    fun c a hc ha => ⟨acceptGroup_carOf hc ha, acceptGroup_running hc, fun hr => acceptGroup_signalOf hr c⟩⟩

end Sys2Proof.Machine

/-! SUPPORT. The marks of one display: its place in its link's queue and its frame in flight after each operation, as against
its visible content (R74, R75, R136, R138). -/

namespace Sys2Proof.Machine

/-! ## Seats -/

/-- What a link holds of a display: whether it is queued, and its frame in flight. -/
structure Seat where
  queued : Bool
  frame : Option Frame

/-- A seat after a CHANGE mark: queued, and its frame in flight to be aborted. -/
def Seat.marked (p : Seat) : Seat := ⟨true, p.frame.map Frame.overtaken⟩

theorem Seat.marked_marked (p : Seat) : p.marked.marked = p.marked := by
  have hfr : ∀ fr : Frame, fr.overtaken.overtaken = fr.overtaken := by
    intro fr
    unfold Frame.overtaken
    by_cases hc : fr.closing = .last <;> simp [hc]
  unfold Seat.marked
  cases p.frame <;> simp [hfr]

def Link.seat (l : Link) (d : Nat) : Seat := ⟨decide (d ∈ l.queue), l.frame.filter fun fr => fr.display == d⟩

def Engines.seat (e : Engines) (n : Fin 8) (d : Nat) : Seat := (e.linkOf n).seat d

theorem seat_onLink (e : Engines) (n m : Fin 8) (g : Link → Link) (d : Nat) :
    (e.onLink n g).seat m d = if n = m then (g (e.linkOf m)).seat d else e.seat m d := by
  unfold Engines.seat
  rw [Engines.linkOf_onLink]
  split <;> rfl

/-- A change of a link that keeps the seat of a display there keeps its seats on every link. -/
theorem seat_onLink_of_eq (e : Engines) {n : Fin 8} {g : Link → Link} {d : Nat}
    (h : (g (e.linkOf n)).seat d = (e.linkOf n).seat d) (m : Fin 8) : (e.onLink n g).seat m d = e.seat m d := by
  rw [seat_onLink]
  split
  · rename_i hm; subst hm; exact h
  · rfl

theorem inFlight_eq_some {l : Link} {d : Nat} : l.inFlight = some d ↔ ∃ fr, l.frame = some fr ∧ fr.display = d := by
  unfold Link.inFlight
  rw [Option.map_eq_some_iff]

/-- A display not in flight has no frame in its seat. -/
theorem seat_frame_none {l : Link} {d : Nat} (h : l.inFlight ≠ some d) : (l.seat d).frame = none := by
  unfold Link.seat
  cases hl : l.frame with
  | none => rfl
  | some fr =>
    have hd : fr.display ≠ d := fun hd => h (inFlight_eq_some.2 ⟨fr, hl, hd⟩)
    simp [Option.filter, hd]

theorem filter_map_overtaken (x : Option Frame) (d : Nat) :
    (x.map Frame.overtaken).filter (fun fr => fr.display == d) =
      (x.filter fun fr => fr.display == d).map Frame.overtaken := by
  cases x with
  | none => rfl
  | some fr =>
    have hd : fr.overtaken.display = fr.display := rfl
    by_cases h : fr.display = d <;> simp [Option.filter, hd, h]

/-- A promotion keeps the other displays of the queue. -/
theorem mem_promoted_iff (e : Engines) {l : Link} {c x : Nat} (hc : c ∈ l.queue) : x ∈ promoted e l c ↔ x ∈ l.queue := by
  refine ⟨mem_promoted e l hc, fun hx => ?_⟩
  unfold promoted
  dsimp only
  split
  · rw [mem_joinOverride]
    by_cases hxc : x = c
    · exact .inl hxc
    · exact .inr ((List.mem_erase_of_ne hxc).2 hx)
  · exact hx

/-! ## A CHANGE mark -/

theorem faceOf_storeFace (e : Engines) (c d : Nat) (g : Face → Face) :
    (e.storeFace c g).faceOf d = if d = c then (e.faceOf d).map g else e.faceOf d := Tab.get_modify _ _ _ _

/-- The mark of another display changes no seat. -/
theorem seat_changeMark_other (e : Engines) {c d : Nat} (hcd : c ≠ d) (rise : Bool) (n : Fin 8) :
    (e.changeMark c rise).seat n d = e.seat n d := by
  unfold Engines.changeMark
  split
  · rfl
  · rename_i f _
    extract_lets e1 l
    have h1 : ∀ m, e1.seat m d = e.seat m d := fun _ => rfl
    split
    · split
      · rename_i hfly
        obtain ⟨fr, hfr, hc⟩ := inFlight_eq_some.1 hfly
        refine (seat_onLink_of_eq e1 ?_ n).trans (h1 n)
        have hfr' : (e1.linkOf f.link).frame = some fr := hfr
        have hd : fr.display ≠ d := by rwa [hc]
        have hd' : fr.overtaken.display ≠ d := hd
        unfold Link.seat
        simp [hfr', Option.filter, hd, hd']
      · split
        · rename_i hmem
          have hmem : c ∈ (e1.linkOf f.link).queue := by simpa using hmem
          split
          · refine (seat_onLink_of_eq e1 ?_ n).trans (h1 n)
            unfold Link.seat
            simp only [mem_promoted_iff e1 hmem]
          · exact h1 n
        · refine (seat_onLink_of_eq e1 ?_ n).trans (h1 n)
          unfold Link.seat
          simp only [mem_joined, hcd.symm, false_or]
    · exact h1 n

/-- The mark of an ONLINE display: it is queued on its link, and its frame in flight is overtaken. -/
theorem seat_changeMark_self {e : Engines} (h : e.LinksSafe) {d : Nat} {f : Face} (hf : e.faceOf d = some f)
    (hon : e.online d = true) (rise : Bool) : (e.changeMark d rise).seat f.link d = (e.seat f.link d).marked := by
  unfold Engines.changeMark
  rw [hf]
  dsimp only
  generalize he1 : e.storeFace d (fun f => { f with waitText := none }) = e1
  have hlink : e1.linkOf f.link = e.linkOf f.link := by rw [← he1]; rfl
  have hon1 : e1.online d = true := by rw [← he1]; exact hon
  have hseat : e1.seat f.link d = e.seat f.link d := by unfold Engines.seat; rw [hlink]
  rw [if_pos hon1, hlink]
  by_cases hfly : (e.linkOf f.link).inFlight = some d
  · obtain ⟨fr, hfr, hd⟩ := inFlight_eq_some.1 hfly
    have hmem : d ∈ (e.linkOf f.link).queue := by
      have := h.flying f.link fr hfr
      rw [hd] at this
      exact List.mem_of_mem_head? this
    rw [if_pos hfly, seat_onLink, if_pos rfl, hlink]
    unfold Engines.seat Link.seat Seat.marked
    simp only [hmem, decide_true, filter_map_overtaken]
  · rw [if_neg hfly]
    have hnone : (e.seat f.link d).frame = none := seat_frame_none hfly
    have hmarked : ∀ p : Seat, p.queued = true → p.frame = none → p = (e.seat f.link d).marked := by
      intro p hq hp
      obtain ⟨q, x⟩ := p
      unfold Seat.marked
      rw [hnone]
      cases hq
      cases hp
      rfl
    by_cases hmem : d ∈ (e.linkOf f.link).queue
    · rw [if_pos (by simpa using hmem)]
      cases rise with
      | true =>
        rw [if_pos rfl, seat_onLink, if_pos rfl, hlink]
        refine hmarked _ ?_ hnone
        exact decide_eq_true ((mem_promoted_iff e1 hmem).2 hmem)
      | false =>
        rw [if_neg Bool.false_ne_true, hseat]
        exact hmarked _ (decide_eq_true hmem) hnone
    · rw [if_neg (by simpa using hmem)]
      unfold Engines.join
      rw [seat_onLink, if_pos rfl, hlink]
      exact hmarked _ (decide_eq_true ((mem_joined _ _ _ _).2 (.inl rfl))) hnone

/-! ## Operations on other displays -/

/-- What concerns a display stands: its face, its seat on every link, its liveness, and the override slots. -/
structure Engines.Spares (d : Nat) (e e' : Engines) : Prop where
  face : e'.faceOf d = e.faceOf d
  seat : ∀ n, e'.seat n d = e.seat n d
  slots : e'.face.slots = e.face.slots
  online : e'.online d = e.online d

namespace Engines.Spares

variable {d : Nat}

theorem refl (e : Engines) : Spares d e e := ⟨rfl, fun _ => rfl, rfl, rfl⟩

theorem trans {a b c : Engines} (h : Spares d a b) (k : Spares d b c) : Spares d a c :=
  ⟨k.face.trans h.face, fun n => (k.seat n).trans (h.seat n), k.slots.trans h.slots, k.online.trans h.online⟩

/-- An operation on neither faces nor links spares every display. -/
theorem of_eq {e e' : Engines} (hf : e'.face = e.face) (hl : e'.link = e.link) : Spares d e e' := by
  refine ⟨?_, fun n => ?_, by rw [hf], ?_⟩
  · unfold Engines.faceOf; rw [hf]
  · unfold Engines.seat Engines.linkOf; rw [hl]
  · unfold Engines.online; rw [hl]

theorem foldl {α : Type} (op : Engines → α → Engines) (l : List α) (h : ∀ (e : Engines) (x : α), x ∈ l → Spares d e (op e x))
    (e : Engines) : Spares d e (l.foldl op e) := by
  refine foldl_inv_mem (fun b => Spares d e b) op l (fun b x hx hb => hb.trans (h b x hx)) e (refl e)

theorem storeFace (e : Engines) {c : Nat} (hcd : c ≠ d) (g : Face → Face) : Spares d e (e.storeFace c g) :=
  ⟨by rw [faceOf_storeFace, if_neg hcd.symm], fun _ => rfl, rfl, rfl⟩

theorem changeMark (e : Engines) {c : Nat} (hcd : c ≠ d) (rise : Bool) : Spares d e (e.changeMark c rise) := by
  refine ⟨?_, seat_changeMark_other e hcd rise, (Keeps.changeMark e c rise).slots, ?_⟩
  · have hface : (e.changeMark c rise).faceOf d = (e.storeFace c fun f => { f with waitText := none }).faceOf d ∨
        (e.changeMark c rise).faceOf d = e.faceOf d := by
      unfold Engines.changeMark
      split
      · exact .inr rfl
      · refine .inl ?_
        dsimp only
        repeat' split
        all_goals rfl
    rcases hface with h | h
    · rw [h, faceOf_storeFace, if_neg hcd.symm]
    · exact h
  · unfold Engines.online
    rw [(Keeps.changeMark e c rise).displays]

theorem updFaceFrom (e : Engines) (v : Vector OverrideSlot 4) {c : Nat} (hcd : c ≠ d) (g : Face → Face) :
    Spares d e (e.updFaceFrom v c g) := by
  unfold Engines.updFaceFrom
  split
  · exact refl e
  · dsimp only
    split
    · exact storeFace e hcd g
    · exact (storeFace e hcd g).trans (changeMark _ hcd _)

theorem updFace (e : Engines) {c : Nat} (hcd : c ≠ d) (g : Face → Face) : Spares d e (e.updFace c g) :=
  updFaceFrom e _ hcd g

theorem handPrompts (e : Engines) {c : Nat} (hcd : c ≠ d) : Spares d e (e.handPrompts c) := updFace e hcd _

theorem handNotice (e : Engines) {c : Nat} (hcd : c ≠ d) : Spares d e (e.handNotice c) := updFace e hcd _

theorem targetEvent (A : Ambient) (e : Engines) (c : Fin 16) : Spares d e (e.targetEvent A c) :=
  of_eq (by simp) (by simp)

end Engines.Spares

/-- The contexts with a display put into or taken out of their target sets (R97). -/
def retargetedPlay (e : Engines) (d : Nat) : Vector Context 16 :=
  (List.finRange 16).foldl (fun p c => upd p c (retarget e.face.faces d)) e.play

/-- A target notice without its choice of the owner: the target sets, and the tests of the contexts whose set changed
(R97). -/
def retargeted (A : Ambient) (e : Engines) (d : Nat) : Engines :=
  (List.finRange 16).foldl
    (fun acc c => if (ctxOf (retargetedPlay e d) c).targets = (ctxOf e.play c).targets then acc else acc.targetEvent A c)
    (e.setPlay (retargetedPlay e d))

theorem targetNotice_eq (A : Ambient) (e : Engines) (d : Nat) : e.targetNotice A d = (retargeted A e d).handNotice d := rfl

/-- The tests of the contexts that target a display of a cover notice: the notice without its choice of the owners (R97). -/
def coverTested (A : Ambient) (e : Engines) (ds : List Nat) : Engines :=
  (List.finRange 16).foldl (fun acc c => if (acc.ctx c).targets.any ds.contains then acc.targetEvent A c else acc) e

theorem coverNotice_eq (A : Ambient) (e : Engines) (ds : List Nat) :
    e.coverNotice A ds = (coverTested A e ds).handNotices ds := rfl

/-- A terminal's entries cancelled: the cancellation before its prompts are removed and their layer handed (R52, R62). -/
def cancelled (A : Ambient) (e : Engines) (d : Nat) (why : Reason) : Engines :=
  let ended := (e.dest.entries.filter fun x => x.terminal == d).foldl
    (fun e x => (e.endEntry x).report A (.entryCancelled x.ticket d why)) e
  ((ended.promptsOf d).foldl (fun e p => e.release p.hold) ended).storePrompts d []

theorem cancelTerminal_eq (A : Ambient) (e : Engines) (d : Nat) (why : Reason) :
    e.cancelTerminal A d why = (cancelled A e d why).handPrompts d := rfl

theorem retargeted_face (A : Ambient) (e : Engines) (d : Nat) : (retargeted A e d).face = e.face := by
  unfold retargeted
  rw [foldl_keeps Engines.face _ fun b c => by split <;> simp]
  simp

theorem retargeted_link (A : Ambient) (e : Engines) (d : Nat) : (retargeted A e d).link = e.link := by
  unfold retargeted
  rw [foldl_keeps Engines.link _ fun b c => by split <;> simp]
  simp

theorem coverTested_face (A : Ambient) (e : Engines) (ds : List Nat) : (coverTested A e ds).face = e.face :=
  foldl_keeps Engines.face _ (fun b c => by split <;> simp) _ e

theorem coverTested_link (A : Ambient) (e : Engines) (ds : List Nat) : (coverTested A e ds).link = e.link :=
  foldl_keeps Engines.link _ (fun b c => by split <;> simp) _ e

theorem cancelled_face (A : Ambient) (e : Engines) (d : Nat) (why : Reason) : (cancelled A e d why).face = e.face := by
  unfold cancelled
  dsimp only
  rw [Engines.storePrompts_face, foldl_keeps Engines.face _ fun b p => by simp, foldl_keeps Engines.face _ fun b x => by simp]

theorem cancelled_link (A : Ambient) (e : Engines) (d : Nat) (why : Reason) : (cancelled A e d why).link = e.link := by
  unfold cancelled
  dsimp only
  rw [Engines.storePrompts_link, foldl_keeps Engines.link _ fun b p => by simp, foldl_keeps Engines.link _ fun b x => by simp]

namespace Engines.Spares

variable {d : Nat}

theorem retargeted (A : Ambient) (e : Engines) (c : Nat) : Spares d e (retargeted A e c) :=
  of_eq (retargeted_face A e c) (retargeted_link A e c)

theorem coverTested (A : Ambient) (e : Engines) (ds : List Nat) : Spares d e (coverTested A e ds) :=
  of_eq (coverTested_face A e ds) (coverTested_link A e ds)

theorem cancelled (A : Ambient) (e : Engines) (c : Nat) (why : Reason) : Spares d e (cancelled A e c why) :=
  of_eq (cancelled_face A e c why) (cancelled_link A e c why)

theorem targetNotice (A : Ambient) (e : Engines) {c : Nat} (hcd : c ≠ d) : Spares d e (e.targetNotice A c) :=
  (retargeted A e c).trans (handNotice _ hcd)

theorem cancelTerminal (A : Ambient) (e : Engines) {c : Nat} (hcd : c ≠ d) (why : Reason) :
    Spares d e (e.cancelTerminal A c why) :=
  (cancelled A e c why).trans (handPrompts _ hcd)

theorem moveCover (A : Ambient) (e : Engines) (v : Vector OverrideSlot 4) {c : Nat} (hcd : c ≠ d)
    (old new : Option (Fin 4)) (cls : DisplayClass) : Spares d e (e.moveCover A v c old new cls) := by
  unfold Engines.moveCover
  split
  · exact refl e
  · unfold Engines.onset
    dsimp only
    split
    · exact (updFace e hcd _).trans (cancelTerminal A _ hcd _)
    · exact updFace e hcd _
  · exact updFace e hcd _
  · split
    · exact refl e
    · exact updFaceFrom e v hcd _

end Engines.Spares

/-! ## Following one display -/

/-- The face of a display is `f` but for its WAITING_TEXT, which stands or has been cleared. -/
def Engines.Holds (e : Engines) (d : Nat) (wait : Option Tag) (f : Face) : Prop :=
  ∃ w, (w = wait ∨ w = none) ∧ e.faceOf d = some { f with waitText := w }

/-- A change of a face that neither reads nor writes its WAITING_TEXT. -/
def UnlikeWait (g : Face → Face) : Prop := ∀ f w, g { f with waitText := w } = { g f with waitText := w }

theorem faceOf_changeMark_self (e : Engines) (d : Nat) (rise : Bool) :
    (e.changeMark d rise).faceOf d = (e.faceOf d).map fun f => { f with waitText := none } := by
  have hstore : (e.storeFace d fun f => { f with waitText := none }).faceOf d =
      (e.faceOf d).map fun f => { f with waitText := none } := by rw [faceOf_storeFace, if_pos rfl]
  unfold Engines.changeMark
  split
  · rename_i hn; rw [hn]; rfl
  · rw [← hstore]
    dsimp only
    repeat' split
    all_goals rfl

theorem holds_updFace {e : Engines} {d : Nat} {w : Option Tag} {f : Face} (h : e.Holds d w f) {g : Face → Face}
    (hg : UnlikeWait g) : (e.updFace d g).Holds d w (g f) := by
  obtain ⟨w', hw, hf⟩ := h
  have hstore : (e.storeFace d g).faceOf d = some { g f with waitText := w' } := by
    rw [faceOf_storeFace, if_pos rfl, hf, ← hg]; rfl
  unfold Engines.updFace Engines.updFaceFrom
  rw [hf]
  dsimp only
  split
  · exact ⟨w', hw, hstore⟩
  · exact ⟨none, .inr rfl, by rw [faceOf_changeMark_self, hstore]; rfl⟩

theorem holds_spares {e e' : Engines} {d : Nat} {w : Option Tag} {f : Face} (h : e.Holds d w f) (k : Engines.Spares d e e') :
    e'.Holds d w f := by
  obtain ⟨w', hw, hf⟩ := h
  exact ⟨w', hw, k.face.trans hf⟩

/-- From `e0`, where display `d` has face `f0`, to `e`, where it has `f` but for its WAITING_TEXT: the display is not marked
while it shows what it showed, and marked when it shows something else. -/
structure Engines.Tracks (e0 : Engines) (f0 : Face) (d : Nat) (e : Engines) (f : Face) : Prop where
  safe : e.LinksSafe
  online : e.online d = true
  slots : e.face.slots = e0.face.slots
  face : e.Holds d f0.waitText f
  spot : f.spot = f0.spot
  seat : e.seat f0.link d = if f.visible e0.face.slots = f0.visible e0.face.slots then e0.seat f0.link d
    else (e0.seat f0.link d).marked

namespace Engines.Tracks

variable {e0 e : Engines} {f0 f : Face} {d : Nat}

theorem start (h : e.LinksSafe) (hf : e.faceOf d = some f) (hon : e.online d = true) : Tracks e f d e f :=
  ⟨h, hon, rfl, ⟨f.waitText, .inl rfl, hf⟩, rfl, (if_pos rfl).symm⟩

theorem spared (h : Tracks e0 f0 d e f) {e' : Engines} (k : Spares d e e') (hs : e'.LinksSafe) : Tracks e0 f0 d e' f :=
  ⟨hs, k.online.trans h.online, k.slots.trans h.slots, holds_spares h.face k, h.spot, (k.seat _).trans h.seat⟩

/-- A change of the display's face that does not bring back what it showed at first, with its mark. -/
theorem updFace (h : Tracks e0 f0 d e f) {g : Face → Face} (hg : UnlikeWait g) (hspot : ∀ x, (g x).spot = x.spot)
    (hback : f.visible e0.face.slots ≠ f0.visible e0.face.slots →
      (g f).visible e0.face.slots ≠ f0.visible e0.face.slots) : Tracks e0 f0 d (e.updFace d g) (g f) := by
  have hsafe : (e.updFace d g).LinksSafe := h.safe.updFace d g hspot
  refine ⟨hsafe, ?_, (congrArg Firm.slots (Keeps.updFace_firm e d g)).trans h.slots, holds_updFace h.face hg,
    (hspot f).trans h.spot, ?_⟩
  · unfold Engines.online
    rw [show (e.updFace d g).link.displays = e.link.displays from congrArg Firm.displays (Keeps.updFace_firm e d g)]
    exact h.online
  · obtain ⟨w, _, hf⟩ := h.face
    have hlink : f.link = f0.link := congrArg (fun x => x.2.1) h.spot
    have hstored : (e.storeFace d g).faceOf d = some { g f with waitText := w } := by
      rw [faceOf_storeFace, if_pos rfl, hf, ← hg]; rfl
    have hbefore : Face.visible e.face.slots { f with waitText := w } = f.visible e0.face.slots := by rw [h.slots]; rfl
    have hafter : (g { f with waitText := w }).visible e.face.slots = (g f).visible e0.face.slots := by
      rw [hg, h.slots]; rfl
    unfold Engines.updFace Engines.updFaceFrom
    rw [hf]
    dsimp only
    rw [hbefore, hafter]
    split
    · rename_i heq
      rw [heq]
      exact h.seat
    · rename_i hne
      have hmark := seat_changeMark_self (h.safe.storeFace d g hspot) hstored h.online
      have hglink : ({ g f with waitText := w } : Face).link = f0.link :=
        (congrArg (fun x => x.2.1) (hspot f)).trans hlink
      rw [hglink] at hmark
      rw [hmark, show (e.storeFace d g).seat f0.link d = e.seat f0.link d from rfl, h.seat]
      by_cases hwas : f.visible e0.face.slots = f0.visible e0.face.slots
      · rw [if_pos hwas, if_neg fun hnow => hne (hnow.trans hwas.symm)]
      · rw [if_neg hwas, if_neg (hback hwas), Seat.marked_marked]

end Engines.Tracks

/-! ## What a display shows never comes back -/

theorem visible_of_cover_some (v : Vector OverrideSlot 4) {f : Face} {k : Fin 4} (h : f.cover = some k) :
    f.visible v = .over (v[k].show f.cls) := by
  unfold Face.visible; rw [h]

/-- Without cover no OVERRIDE content is visible. -/
theorem visible_ne_over (v : Vector OverrideSlot 4) {f : Face} (h : f.cover = none) (x : OverShow) :
    f.visible v ≠ .over x := by
  unfold Face.visible
  rw [h]
  dsimp only
  split
  · exact Visible.noConfusion
  · split <;> exact Visible.noConfusion

theorem visible_of_notice (v : Vector OverrideSlot 4) {f : Face} {n : NoticeShow} (hc : f.cover = none)
    (hn : f.notice = some n) : f.visible v = .notice n := by
  unfold Face.visible; rw [hc, hn]

theorem visible_without_notice (v : Vector OverrideSlot 4) {f : Face} (hc : f.cover = none) (hn : f.notice = none) :
    f.visible v = if f.prompt = [] then .base f.base f.strokes else .prompt f.prompt := by
  unfold Face.visible
  rw [hc, hn]
  cases f.prompt <;> simp

/-- Where a display has come under cover, or out of it, it shows something else. -/
theorem visible_ne_of_cover (v : Vector OverrideSlot 4) {f0 f : Face} (h : f.cover.isSome ≠ f0.cover.isSome) :
    f.visible v ≠ f0.visible v := by
  cases hc : f.cover with
  | none =>
    cases hc0 : f0.cover with
    | none => simp [hc, hc0] at h
    | some k => rw [visible_of_cover_some v hc0]; exact visible_ne_over v hc _
  | some k =>
    cases hc0 : f0.cover with
    | none => rw [visible_of_cover_some v hc]; exact (visible_ne_over v hc0 _).symm
    | some k0 => simp [hc, hc0] at h

section NoReturn

variable (v : Vector OverrideSlot 4) {f0 f : Face}

/-- A new NOTICE layer brings nothing back while the layer was the first one, or lies under a cover that is new. -/
theorem visible_ne_of_notice (hn : f.cover = none → f0.cover = none → f.notice = f0.notice)
    (h : f.visible v ≠ f0.visible v) (n : Option NoticeShow) : Face.visible v { f with notice := n } ≠ f0.visible v := by
  rcases Option.eq_none_or_eq_some f.cover with hc | ⟨k, hc⟩
  · rcases Option.eq_none_or_eq_some f0.cover with hc0 | ⟨k, hc0⟩
    · have hn := hn hc hc0
      rcases Option.eq_none_or_eq_some f0.notice with hn0 | ⟨m, hn0⟩
      · cases n with
        | none =>
          rw [← hn.trans hn0]
          exact h
        | some m =>
          rw [visible_of_notice v (f := { f with notice := some m }) hc rfl, visible_without_notice v hc0 hn0]
          split <;> exact Visible.noConfusion
      · exact absurd ((visible_of_notice v hc (hn.trans hn0)).trans (visible_of_notice v hc0 hn0).symm) h
    · exact visible_ne_of_cover v (by simp [hc, hc0])
  · rw [visible_of_cover_some v (f := { f with notice := n }) hc]
    rwa [visible_of_cover_some v hc] at h

/-- A new PROMPT layer brings nothing back while the layer was the first one, or lies under a cover that is new. -/
theorem visible_ne_of_prompt (hp : f.cover = none → f0.cover = none → f.prompt = f0.prompt)
    (h : f.visible v ≠ f0.visible v) (q : List PromptShow) : Face.visible v { f with prompt := q } ≠ f0.visible v := by
  rcases Option.eq_none_or_eq_some f.cover with hc | ⟨k, hc⟩
  · rcases Option.eq_none_or_eq_some f0.cover with hc0 | ⟨k, hc0⟩
    · rcases Option.eq_none_or_eq_some f.notice with hn | ⟨m, hn⟩
      · rw [visible_without_notice v (f := { f with prompt := q }) hc hn]
        rw [visible_without_notice v hc hn, hp hc hc0] at h
        rcases Option.eq_none_or_eq_some f0.notice with hn0 | ⟨m, hn0⟩
        · rw [visible_without_notice v hc0 hn0] at h ⊢
          by_cases hp0 : f0.prompt = []
          · rw [if_pos hp0, if_pos hp0] at h
            rw [if_pos hp0]
            split
            · exact h
            · exact Visible.noConfusion
          · rw [if_neg hp0, if_neg hp0] at h
            exact absurd rfl h
        · rw [visible_of_notice v hc0 hn0]
          split <;> exact Visible.noConfusion
      · rw [visible_of_notice v (f := { f with prompt := q }) hc hn]
        rwa [visible_of_notice v hc hn] at h
    · exact visible_ne_of_cover v (by simp [hc, hc0])
  · rw [visible_of_cover_some v (f := { f with prompt := q }) hc]
    rwa [visible_of_cover_some v hc] at h

/-- A new cover brings nothing back when the cover was the first one. -/
theorem visible_ne_of_new_cover (hcls : f.cls = f0.cls) (hc : f.cover = f0.cover) (h : f.visible v ≠ f0.visible v)
    {f' : Face} (hne : f'.cover ≠ f0.cover) : f'.visible v ≠ f0.visible v := by
  cases hc0 : f0.cover with
  | some k =>
    refine absurd ?_ h
    rw [visible_of_cover_some v (hc.trans hc0), visible_of_cover_some v hc0, hcls]
  | none =>
    cases hc' : f'.cover with
    | none => exact absurd (hc'.trans hc0.symm) hne
    | some k => exact visible_ne_of_cover v (by simp [hc', hc0])

end NoReturn

end Sys2Proof.Machine

/-! SUPPORT. The marks of one display while BASE content is derived anew and the PROMPT layers are handed again (R16, R17,
R63, R75, R86, R97). -/

namespace Sys2Proof.Machine

/-! ## One pass over the faces -/

section Pass

variable {d : Nat} {f : Face} {g : Nat → Face → Face}

/-- A pass that changes each face once, or again to the same face. -/
theorem holds_foldl_updFace (hg : ∀ c, UnlikeWait (g c)) {w : Option Tag} (l : List Nat) {e : Engines}
    (hagain : g d (g d f) = g d f) (h : e.Holds d w f) :
    (l.foldl (fun acc c => acc.updFace c (g c)) e).Holds d w (if d ∈ l then g d f else f) := by
  induction l generalizing e f with
  | nil => exact h
  | cons c l ih =>
    rw [List.foldl_cons]
    by_cases hcd : c = d
    · subst hcd
      have := ih (f := g c f) (by rw [hagain, hagain]) (holds_updFace h (hg c))
      rw [hagain, ite_self] at this
      rw [if_pos List.mem_cons_self]
      exact this
    · have := ih hagain (holds_spares h (Engines.Spares.updFace e hcd (g c)))
      simpa only [List.mem_cons, Ne.symm hcd, false_or] using this

theorem Engines.Tracks.foldl_updFace (hg : ∀ c, UnlikeWait (g c)) (hspot : ∀ c x, (g c x).spot = x.spot) {e0 : Engines}
    {f0 : Face} (l : List Nat) {e : Engines} (hagain : g d (g d f) = g d f)
    (hback : f.visible e0.face.slots ≠ f0.visible e0.face.slots →
      (g d f).visible e0.face.slots ≠ f0.visible e0.face.slots) (h : Tracks e0 f0 d e f) :
    Tracks e0 f0 d (l.foldl (fun acc c => acc.updFace c (g c)) e) (if d ∈ l then g d f else f) := by
  induction l generalizing e f with
  | nil => exact h
  | cons c l ih =>
    rw [List.foldl_cons]
    by_cases hcd : c = d
    · subst hcd
      have := ih (f := g c f) (by rw [hagain, hagain]) (by rw [hagain]; exact id) (h.updFace (hg c) (hspot c) hback)
      rw [hagain, ite_self] at this
      rw [if_pos List.mem_cons_self]
      exact this
    · have := ih hagain hback (h.spared (Engines.Spares.updFace e hcd (g c)) (h.safe.updFace c (g c) (hspot c)))
      simpa only [List.mem_cons, Ne.symm hcd, false_or] using this

end Pass

/-- The pass that derives every face anew goes by the sources as they stood before it. -/
theorem foldl_refreshed_eq (A : Ambient) (e0 : Engines) (l : List Nat) (e : Engines) (h : e.sources = e0.sources) :
    l.foldl (fun acc d => acc.updFace d (refreshed A acc)) e =
      l.foldl (fun acc d => acc.updFace d (refreshed A e0)) e := by
  induction l generalizing e with
  | nil => rfl
  | cons d l ih =>
    have hr : refreshed A e = refreshed A e0 := funext fun f => refreshed_sources h f
    rw [List.foldl_cons, List.foldl_cons, hr]
    exact ih _ ((sources_firm (Engines.Keeps.updFace_firm e d _)).trans h)

theorem unlikeWait_refreshed (A : Ambient) (e : Engines) : UnlikeWait (refreshed A e) := fun _ _ => rfl

/-- The face of a terminal with the PROMPT layer its queue gives (R63). -/
def handed (e : Engines) (d : Nat) (f : Face) : Face :=
  { f with prompt := (e.promptsOf d).map (Prompt.show e.ind.labels) }

theorem handPrompts_eq (e : Engines) (d : Nat) : e.handPrompts d = e.updFace d (handed e d) := rfl

/-- A face with the NOTICE layer of its owner (R96). -/
def noticed (e : Engines) (d : Nat) (f : Face) : Face :=
  { f with notice := if holdsNotice f then (noticeOwner e.play d).map (fun c => noticeOf c (e.ctx c)) else none }

theorem foldl_handPrompts_eq (e0 : Engines) (l : List Nat) (e : Engines) (hd : e.dest = e0.dest) (hi : e.ind = e0.ind) :
    l.foldl Engines.handPrompts e = l.foldl (fun acc d => acc.updFace d (handed e0 d)) e := by
  induction l generalizing e with
  | nil => rfl
  | cons d l ih =>
    have hh : handed e d = handed e0 d := by unfold handed Engines.promptsOf; rw [hd, hi]
    rw [List.foldl_cons, List.foldl_cons, handPrompts_eq, hh]
    exact ih _ (by rw [Engines.updFace_dest, hd]) (by rw [Engines.updFace_ind, hi])

/-- The PROMPT layers are handed by the queues and the labels as they stood before. -/
theorem rehandPrompts_eq (e : Engines) :
    e.rehandPrompts = (Tab.keys e.dest.prompts).foldl (fun acc d => acc.updFace d (handed e d)) e :=
  foldl_handPrompts_eq e _ e rfl rfl

/-! ## Layers that stand -/

/-- A face that was never covered has its first PROMPT layer. -/
def Face.KeepsPrompt (f0 f : Face) : Prop := f.cover = none → f0.cover = none → f.prompt = f0.prompt

/-- A face that was never covered has its first NOTICE layer. -/
def Face.KeepsNotice (f0 f : Face) : Prop := f.cover = none → f0.cover = none → f.notice = f0.notice

theorem keeps_of_cover {f0 f : Face} (h : f.cover.isSome ≠ f0.cover.isSome) : f0.KeepsPrompt f ∧ f0.KeepsNotice f :=
  ⟨fun hc hc0 => absurd (by rw [hc, hc0]) h, fun hc hc0 => absurd (by rw [hc, hc0]) h⟩

namespace Engines.Tracks

variable {e0 e : Engines} {f0 f : Face} {d : Nat}

theorem handPrompts (h : Tracks e0 f0 d e f) (hp : f0.KeepsPrompt f) : Tracks e0 f0 d (e.handPrompts d) (handed e d f) :=
  h.updFace (fun _ _ => rfl) (fun _ => rfl) fun hv => visible_ne_of_prompt _ hp hv _

/-- A choice of the owner, where the NOTICE layer was the first one. -/
theorem handNotice (h : Tracks e0 f0 d e f) (hn : f0.KeepsNotice f) :
    Tracks e0 f0 d (e.handNotice d) (noticed e d f) :=
  h.updFace (fun _ _ => rfl) (fun _ => rfl) fun hv => visible_ne_of_notice _ hn hv _

/-- A change of the first cover. -/
theorem moveCover (h : Tracks e0 f0 d e f) (A : Ambient) {v : Vector OverrideSlot 4} (hv : v = e0.face.slots)
    {new : Option (Fin 4)} (cls : DisplayClass) (hcover : f.cover = f0.cover) (hprompt : f.prompt = f0.prompt)
    (hne : f.cover ≠ new) : ∃ f', Tracks e0 f0 d (e.moveCover A v d f.cover new cls) f' ∧
      (f'.cover = new ∧ f'.notice = f.notice ∧ f0.KeepsPrompt f') := by
  have hcls : f.cls = f0.cls := congrArg Prod.fst h.spot
  have hback : ∀ f' : Face, f'.cover = new → f.visible e0.face.slots ≠ f0.visible e0.face.slots →
      f'.visible e0.face.slots ≠ f0.visible e0.face.slots := fun f' hf' hvis =>
    visible_ne_of_new_cover _ hcls hcover hvis (by rw [hf', ← hcover]; exact hne.symm)
  have hset : Tracks e0 f0 d (e.updFace d fun f => { f with cover := new }) { f with cover := new } :=
    h.updFace (fun _ _ => rfl) (fun _ => rfl) (hback _ rfl)
  unfold Engines.moveCover
  split
  · rename_i hold
    exact absurd hold hne
  · rename_i k hold
    have hkeep : ∀ f' : Face, f'.cover = some k → f0.KeepsPrompt f' := fun f' hc hc' => by rw [hc] at hc'; cases hc'
    have hon : Tracks e0 f0 d (e.updFace d fun f => { f with cover := some k, strokes := 0 })
        { f with cover := some k, strokes := 0 } := h.updFace (fun _ _ => rfl) (fun _ => rfl) (hback _ rfl)
    unfold Engines.onset
    dsimp only
    split
    · have hc := hon.spared (Spares.cancelled A _ d .override)
        (hon.safe.congr (cancelled_face A _ d .override) (cancelled_link A _ d .override))
      exact ⟨_, hc.handPrompts (hkeep _ rfl), rfl, rfl, hkeep _ rfl⟩
    · exact ⟨_, hon, rfl, rfl, hkeep _ rfl⟩
  · exact ⟨_, hset, rfl, rfl, fun _ _ => hprompt⟩
  · rename_i a k hold
    split
    · rename_i hak
      exact absurd (hold.trans (congrArg some hak)) hne
    · have htransfer : e.transfer v d k = e.updFace d fun f => { f with cover := some k } := by
        unfold Engines.transfer Engines.updFace
        rw [hv, h.slots]
      rw [htransfer]
      exact ⟨_, hset, rfl, rfl, fun _ _ => hprompt⟩

theorem foldl_spared {α : Type} (op : Engines → α → Engines) (l : List α) (h : Tracks e0 f0 d e f)
    (hspare : ∀ b, ∀ x ∈ l, Spares d b (op b x)) (hsafe : ∀ (b : Engines) x, b.LinksSafe → (op b x).LinksSafe) :
    Tracks e0 f0 d (l.foldl op e) f :=
  foldl_inv_mem (fun b => Tracks e0 f0 d b f) op l (fun b x hx hb => hb.spared (hspare b x hx) (hsafe b x hb.safe)) e h

/-- A pass over keyed elements of which one has the display's key. -/
theorem foldl_once {α : Type} (op : Engines → α → Engines) (key : α → Nat) {l : List α} (hnd : (l.map key).Nodup)
    (hspare : ∀ b x, key x ≠ d → Spares d b (op b x)) (hsafe : ∀ (b : Engines) x, b.LinksSafe → (op b x).LinksSafe)
    {x : α} (hx : x ∈ l) (hkey : key x = d) {P : Face → Prop}
    (hself : ∀ b, Tracks e0 f0 d b f → ∃ f', Tracks e0 f0 d (op b x) f' ∧ P f') (h : Tracks e0 f0 d e f) :
    ∃ f', Tracks e0 f0 d (l.foldl op e) f' ∧ P f' := by
  obtain ⟨l1, l2, rfl⟩ := List.append_of_mem hx
  rw [List.map_append, List.map_cons, List.nodup_append, List.nodup_cons] at hnd
  obtain ⟨_, ⟨h2, _⟩, h1⟩ := hnd
  have hne1 : ∀ y ∈ l1, key y ≠ d := fun y hy => hkey ▸ h1 _ (List.mem_map_of_mem hy) _ List.mem_cons_self
  have hne2 : ∀ y ∈ l2, key y ≠ d := fun y hy hyd => h2 (by rw [hkey, ← hyd]; exact List.mem_map_of_mem hy)
  rw [List.foldl_append, List.foldl_cons]
  obtain ⟨f', hf', hP⟩ := hself _ (h.foldl_spared op l1 (fun b y hy => hspare b y (hne1 y hy)) hsafe)
  exact ⟨f', hf'.foldl_spared op l2 (fun b y hy => hspare b y (hne2 y hy)) hsafe, hP⟩

end Engines.Tracks

/-! ## Moves of cover -/

theorem mem_coverMoves {e : Engines} {ds : List Nat} {m : CoverMove} (h : m ∈ coverMoves e ds) :
    m.old ≠ m.new ∧ ∃ f, e.faceOf m.display = some f ∧ m.old = f.cover ∧ m.new = coverOf e.face.slots f := by
  unfold coverMoves at h
  obtain ⟨hm, hne⟩ := List.mem_filter.1 h
  obtain ⟨d, _, hd⟩ := List.mem_filterMap.1 hm
  obtain ⟨f, hf, rfl⟩ := Option.map_eq_some_iff.1 hd
  exact ⟨by simpa using hne, f, hf, rfl, rfl⟩

/-- The moves stand in the order of the displays named, each at most once. -/
theorem coverMoves_sublist (e : Engines) (ds : List Nat) : ((coverMoves e ds).map CoverMove.display).Sublist ds := by
  unfold coverMoves
  refine (List.filter_sublist.map _).trans ?_
  rw [List.map_filterMap]
  induction ds with
  | nil => exact List.Sublist.refl _
  | cons d ds ih =>
    cases hf : e.faceOf d with
    | none => simpa [hf] using ih.trans (List.sublist_cons_self d ds)
    | some f => simpa [hf] using ih.cons_cons d

namespace Engines.Tracks

variable {e0 e : Engines} {f0 f : Face} {d : Nat}

/-- The moves of a cover event: the display's cover moves at most once. -/
theorem moves (h : Tracks e0 f0 d e f) (A : Ambient) (ds : List Nat) (hds : ds.Nodup) (hcover : f.cover = f0.cover)
    (hprompt : f.prompt = f0.prompt) (hnotice : f.notice = f0.notice) :
    ∃ f', Tracks e0 f0 d ((coverMoves e ds).foldl
        (fun e m => e.moveCover A e0.face.slots m.display m.old m.new m.cls) e) f' ∧
      (f0.KeepsPrompt f' ∧ f'.notice = f0.notice ∧ ∀ m ∈ coverMoves e ds, m.display = d → f'.cover = m.new) := by
  have hnd : ((coverMoves e ds).map CoverMove.display).Nodup := hds.sublist (coverMoves_sublist e ds)
  by_cases hd : ∃ m ∈ coverMoves e ds, m.display = d
  · obtain ⟨m, hm, hmd⟩ := hd
    obtain ⟨hne, x, hx, hold, hnew⟩ := mem_coverMoves hm
    obtain ⟨w, _, hw⟩ := h.face
    rw [hmd, hw] at hx
    cases hx
    have hmc : m.old = f.cover := hold
    refine foldl_once (fun e (m : CoverMove) => e.moveCover A e0.face.slots m.display m.old m.new m.cls) CoverMove.display
      hnd (fun b x hxd => Spares.moveCover A b _ hxd _ _ _) (fun b x hb => hb.moveCover A _ _ _ _ _) hm hmd
      (fun b hb => ?_) h
    obtain ⟨f', hf', hc, hn, hp⟩ := hb.moveCover A rfl m.cls hcover hprompt (hmc ▸ hne)
    refine ⟨f', ?_, hp, hn.trans hnotice, fun m' hm' hmd' => ?_⟩
    · rw [hmd, hmc]
      exact hf'
    · obtain ⟨_, y, hy, _, hnew'⟩ := mem_coverMoves hm'
      rw [hmd', hw] at hy
      cases hy
      exact hc.trans (hnew.trans hnew'.symm)
  · refine ⟨f, ?_, fun _ _ => hprompt, hnotice, fun m hm hmd => absurd ⟨m, hm, hmd⟩ hd⟩
    exact h.foldl_spared (fun e (m : CoverMove) => e.moveCover A e0.face.slots m.display m.old m.new m.cls) _
      (fun b x hx => Spares.moveCover A b _ (fun hxd => hd ⟨x, hx, hxd⟩) _ _ _) fun b x hb => hb.moveCover A _ _ _ _ _

/-- A cover event: the display's cover moves at most once, and a NOTICE layer is handed only where it has come or gone. -/
theorem coverEvent (h : Tracks e0 f0 d e f) (A : Ambient) (ds : List Nat) (hds : ds.Nodup) (hcover : f.cover = f0.cover)
    (hprompt : f.prompt = f0.prompt) (hnotice : f.notice = f0.notice) :
    ∃ f', Tracks e0 f0 d (e.coverEvent A ds) f' ∧ f0.KeepsPrompt f' ∧ f0.KeepsNotice f' := by
  obtain ⟨f1, h1, hp1, hn1, hnew⟩ := h.moves A ds hds hcover hprompt hnotice
  obtain ⟨w, _, hw⟩ := h.face
  unfold Engines.coverEvent Engines.coverEventFrom
  extract_lets moves e1 named
  have he1 : e1 = (coverMoves e ds).foldl (fun e m => e.moveCover A e0.face.slots m.display m.old m.new m.cls) e := by
    rw [← h.slots]
  rw [← he1] at h1
  have hnamed : d ∈ named → f1.cover.isSome ≠ f0.cover.isSome := by
    intro hd
    obtain ⟨m, hm, hmd⟩ := List.mem_map.1 hd
    obtain ⟨hm, hnot⟩ := List.mem_filter.1 hm
    obtain ⟨hne, x, hx, hold, -⟩ := mem_coverMoves hm
    have hmc : m.old = f0.cover := by
      rw [hmd, hw] at hx
      cases hx
      exact hold.trans hcover
    rw [hnew m hm hmd, ← hmc]
    unfold CoverMove.notified at hnot
    cases ho : m.old <;> cases hn : m.new <;> simp_all
  split
  · exact ⟨f1, h1, hp1, fun _ _ => hn1⟩
  · rw [coverNotice_eq]
    have h2 : Tracks e0 f0 d (coverTested A e1 named) f1 := h1.spared (Spares.coverTested A e1 named)
      (h1.safe.congr (coverTested_face A e1 named) (coverTested_link A e1 named))
    by_cases hd : d ∈ named
    · have hinv := foldl_inv (fun b : Engines => ∃ f', Tracks e0 f0 d b f' ∧ f'.cover.isSome ≠ f0.cover.isSome)
        Engines.handNotice (fun b c ⟨f', hf', hc'⟩ => ?_) named _ ⟨f1, h2, hnamed hd⟩
      · obtain ⟨f', hf', hc'⟩ := hinv
        exact ⟨f', hf', keeps_of_cover hc'⟩
      · by_cases hcd : c = d
        · subst hcd
          exact ⟨_, hf'.handNotice (keeps_of_cover hc').2, hc'⟩
        · exact ⟨f', hf'.spared (Spares.handNotice b hcd) (hf'.safe.handNotice c), hc'⟩
    · refine ⟨f1, h2.foldl_spared Engines.handNotice named (fun b c hc => Spares.handNotice b fun hcd => hd (hcd ▸ hc))
        (fun b c hb => hb.handNotice c), hp1, fun _ _ => hn1⟩

/-- A target notice of the display. -/
theorem targetNotice (h : Tracks e0 f0 d e f) (A : Ambient) (hp : f0.KeepsPrompt f) (hn : f0.KeepsNotice f) :
    ∃ f', Tracks e0 f0 d (e.targetNotice A d) f' ∧ f0.KeepsPrompt f' := by
  have h1 : Tracks e0 f0 d (retargeted A e d) f := h.spared (Spares.retargeted A e d)
    (h.safe.congr (retargeted_face A e d) (retargeted_link A e d))
  exact ⟨_, h1.handNotice hn, hp⟩

/-- BASE content derived anew: the display is marked exactly where it shows something else than before (R75). -/
theorem rederive (h : Tracks e0 f0 d e f0) (A : Ambient) :
    ∃ f', Tracks e0 f0 d (e.rederive A) f' ∧ f0.KeepsPrompt f' := by
  obtain ⟨w, _, hw⟩ := h.face
  unfold Engines.rederive
  extract_lets moved e1 e2
  have hmoved : moved.Nodup := by
    have hkeys : (e.face.faces.map Prod.fst).Nodup := ((Tab.wf_iff _).1 h.safe.faces).imp fun hlt => Nat.ne_of_lt hlt
    exact hkeys.sublist (List.filter_sublist.map _)
  have h1 : Tracks e0 f0 d e1 (refreshed A e f0) := by
    have hpass := h.foldl_updFace (g := fun _ => refreshed A e) (fun _ => unlikeWait_refreshed A e) (fun _ _ => rfl)
      (Tab.keys e.face.faces) (refreshed_twice A e f0) fun hv => absurd rfl hv
    rw [if_pos (Tab.mem_keys_of_get _ hw)] at hpass
    rw [show e1 = _ from foldl_refreshed_eq A e _ e rfl]
    exact hpass
  obtain ⟨f2, h2, hp2, hn2⟩ := h1.coverEvent A moved hmoved rfl rfl rfl
  by_cases hd : d ∈ moved
  · exact foldl_once (fun acc d => acc.targetNotice A d) id (by simpa using hmoved)
      (fun b c hcd => Spares.targetNotice A b hcd) (fun b c hb => hb.targetNotice A c) hd rfl
      (fun b hb => hb.targetNotice A hp2 hn2) h2
  · exact ⟨f2, h2.foldl_spared (fun acc d => acc.targetNotice A d) moved
      (fun b c hc => Spares.targetNotice A b fun hcd => hd (hcd ▸ hc)) (fun b c hb => hb.targetNotice A c), hp2⟩

theorem rehandPrompts (h : Tracks e0 f0 d e f) (hp : f0.KeepsPrompt f) : ∃ f', Tracks e0 f0 d e.rehandPrompts f' := by
  rw [rehandPrompts_eq]
  exact ⟨_, h.foldl_updFace (g := handed e) (fun _ _ _ => rfl) (fun _ _ => rfl) _ rfl fun hv => visible_ne_of_prompt _ hp hv _⟩

/-- What a display shows now against what it showed: its place in the queue and its frame in flight (R75, R136). -/
theorem marks (h : Tracks e0 f0 d e f) {g : Face} (hg : e.faceOf d = some g) :
    (f0.visible e0.face.slots ≠ g.visible e.face.slots → d ∈ (e.linkOf f0.link).queue ∧
      ∀ fr, (e0.linkOf f0.link).frame = some fr → fr.display = d → (e.linkOf f0.link).frame = some fr.overtaken) ∧
    (f0.visible e0.face.slots = g.visible e.face.slots →
      (d ∈ (e.linkOf f0.link).queue ↔ d ∈ (e0.linkOf f0.link).queue) ∧
      ∀ fr, (e0.linkOf f0.link).frame = some fr → fr.display = d → (e.linkOf f0.link).frame = some fr) := by
  have hvis : g.visible e.face.slots = f.visible e0.face.slots := by
    obtain ⟨w, _, hw⟩ := h.face
    rw [hg] at hw
    cases hw
    rw [h.slots]
    rfl
  have hframe : ∀ fr, (e0.linkOf f0.link).frame = some fr → fr.display = d → (e0.seat f0.link d).frame = some fr := by
    intro fr hfr hd
    unfold Engines.seat Link.seat
    rw [hfr]
    simp [Option.filter, hd]
  have hback : ∀ fr, (e.seat f0.link d).frame = some fr → (e.linkOf f0.link).frame = some fr :=
    fun fr hfr => (Option.filter_eq_some_iff.1 hfr).1
  have hseat := h.seat
  rw [hvis]
  refine ⟨fun hne => ?_, fun heq => ?_⟩
  · rw [if_neg hne.symm] at hseat
    refine ⟨of_decide_eq_true (congrArg Seat.queued hseat), fun fr hfr hd => hback _ ?_⟩
    rw [hseat]
    exact congrArg (Option.map Frame.overtaken) (hframe fr hfr hd)
  · rw [if_pos heq.symm] at hseat
    refine ⟨decide_eq_decide.1 (congrArg Seat.queued hseat), fun fr hfr hd => hback _ ?_⟩
    rw [hseat]
    exact hframe fr hfr hd

end Engines.Tracks

end Sys2Proof.Machine

/-! SUPPORT. An accepted label record (R15, R16, R63). Where the face table lists each display once, it does what its statement
says; the statement leaves out that condition, and fails in `listedTwice`. -/

namespace Sys2Proof.Machine

/-! ## Where each display is listed once -/

theorem coverEvent_nil (A : Ambient) (e : Engines) : e.coverEvent A [] = e := by
  have hmoves : coverMoves e [] = [] := rfl
  simp [Engines.coverEvent, Engines.coverEventFrom, hmoves]

/-- Deriving anew is one pass over the faces where no display floor and no scope group changes. -/
theorem rederive_of_still {A : Ambient} {e : Engines} (h : ∀ x ∈ e.face.faces,
    deriveFloor e.ind x.2 = x.2.floor ∧ deriveScope e.ind x.2 = x.2.scope) :
    e.rederive A = (Tab.keys e.face.faces).foldl (fun acc d => acc.updFace d (refreshed A e)) e := by
  have hmoved : (e.face.faces.filter fun x =>
      decide (deriveFloor e.ind x.2 ≠ x.2.floor ∨ deriveScope e.ind x.2 ≠ x.2.scope)) = [] := by
    refine List.filter_eq_nil_iff.2 fun x hx => ?_
    obtain ⟨hfloor, hscope⟩ := h x hx
    simp [hfloor, hscope]
  unfold Engines.rederive
  rw [hmoved, foldl_refreshed_eq A e _ e rfl]
  exact coverEvent_nil A _

section AcceptLabel

variable {A : Ambient} {e : Engines} {f : Nat} {r : Rec4}

theorem acceptLabel_ind : (e.acceptLabel A f r).ind = { e.ind with labels := e.ind.labels.put f r } := by
  unfold Engines.acceptLabel
  rw [Engines.rehandPrompts_ind, Engines.rederive_ind]
  rfl

theorem acceptLabel_firm : (e.acceptLabel A f r).firm = (e.setLabels (e.ind.labels.put f r)).firm :=
  (Engines.Keeps.rehandPrompts _).firm.trans (Engines.Keeps.rederive_firm A _)

/-- The marks of an accepted label record: a display is marked exactly where it shows something else than before (R75). -/
theorem tracks_acceptLabel (h : e.LinksSafe) {d : Nat} {x : Face} (hx : e.faceOf d = some x) (hon : e.online d = true) :
    ∃ y, Engines.Tracks e x d (e.acceptLabel A f r) y := by
  have hset : Engines.Tracks e x d (e.setLabels (e.ind.labels.put f r)) x :=
    (Engines.Tracks.start h hx hon).spared (Engines.Spares.of_eq rfl rfl) (h.congr rfl rfl)
  obtain ⟨y, hy, hprompt⟩ := hset.rederive A
  exact hy.rehandPrompts hprompt

variable (hwf : Tab.wf e.face.faces = true) (h : e.FacesDerived A)

include hwf h

theorem acceptLabel_eq : e.acceptLabel A f r =
    ((Tab.keys e.face.faces).foldl (fun acc d => acc.updFace d (refreshed A (e.setLabels (e.ind.labels.put f r))))
      (e.setLabels (e.ind.labels.put f r))).rehandPrompts := by
  refine congrArg Engines.rehandPrompts (rederive_of_still fun x hx => ?_)
  have hget : e.faceOf x.1 = some x.2 := Tab.get_of_mem hwf hx
  exact ⟨(h.floor _ _ hget).symm, (h.scope _ _ hget).symm⟩

/-- Beside what is firm, the record leaves entries, prompt queues, contexts, the timer list and the reports alone. -/
theorem acceptLabel_rest : (e.acceptLabel A f r).dest = e.dest ∧ (e.acceptLabel A f r).play = e.play ∧
    (e.acceptLabel A f r).timers = e.timers ∧ (e.acceptLabel A f r).out = e.out := by
  rw [acceptLabel_eq hwf h, Engines.rehandPrompts_dest, Engines.rehandPrompts_play, Engines.rehandPrompts_timers,
    Engines.rehandPrompts_out, foldl_keeps Engines.dest _ fun b d => Engines.updFace_dest b d _,
    foldl_keeps Engines.play _ fun b d => Engines.updFace_play b d _,
    foldl_keeps Engines.timers _ fun b d => Engines.updFace_timers b d _,
    foldl_keeps Engines.out _ fun b d => Engines.updFace_out b d _]
  exact ⟨rfl, rfl, rfl, rfl⟩

/-- Each face takes the BASE content that the new label gives it, and a terminal's face its PROMPT layer. -/
theorem acceptLabel_face {d : Nat} {x : Face} (hx : e.faceOf d = some x) :
    (e.acceptLabel A f r).Holds d x.waitText (if d ∈ Tab.keys e.dest.prompts then
      handed (e.acceptLabel A f r) d { x with base := deriveBase A (e.acceptLabel A f r) x }
    else { x with base := deriveBase A (e.acceptLabel A f r) x }) := by
  have hbase : deriveBase A (e.acceptLabel A f r) x = deriveBase A (e.setLabels (e.ind.labels.put f r)) x :=
    deriveBase_sources (sources_firm acceptLabel_firm) x
  have hnew : refreshed A (e.setLabels (e.ind.labels.put f r)) x =
      { x with base := deriveBase A (e.setLabels (e.ind.labels.put f r)) x } := by
    have hfloor : deriveFloor (e.setLabels (e.ind.labels.put f r)).ind x = x.floor := (h.floor d x hx).symm
    have hscope : deriveScope (e.setLabels (e.ind.labels.put f r)).ind x = x.scope := (h.scope d x hx).symm
    unfold refreshed
    rw [hfloor, hscope]
  have hpass := holds_foldl_updFace (g := fun _ => refreshed A (e.setLabels (e.ind.labels.put f r)))
    (fun _ => unlikeWait_refreshed A _) (Tab.keys e.face.faces) (refreshed_twice A _ x)
    (e := e.setLabels (e.ind.labels.put f r)) ⟨x.waitText, .inl rfl, hx⟩
  rw [if_pos (Tab.mem_keys_of_get _ hx), hnew] at hpass
  have hdest := (acceptLabel_rest (f := f) (r := r) hwf h).1
  have hind := acceptLabel_ind (A := A) (e := e) (f := f) (r := r)
  rw [hbase]
  unfold handed Engines.promptsOf
  rw [hdest, hind, acceptLabel_eq hwf h, rehandPrompts_eq]
  generalize hb : (Tab.keys e.face.faces).foldl
    (fun acc d => acc.updFace d (refreshed A (e.setLabels (e.ind.labels.put f r))))
    (e.setLabels (e.ind.labels.put f r)) = b at hpass
  have hbdest : b.dest = e.dest := by
    rw [← hb, foldl_keeps Engines.dest _ fun b d => Engines.updFace_dest b d _]; rfl
  have hbind : b.ind = { e.ind with labels := e.ind.labels.put f r } := by
    rw [← hb, foldl_keeps Engines.ind _ fun b d => Engines.updFace_ind b d _]; rfl
  have hhanded := holds_foldl_updFace (g := handed b) (fun _ _ _ => rfl) (Tab.keys b.dest.prompts) rfl hpass
  unfold handed Engines.promptsOf at hhanded ⊢
  rw [hbdest, hbind] at hhanded ⊢
  exact hhanded

end AcceptLabel

/-! ## Where a display is listed twice -/

/-- A HALL_MATRIX display of an ABSENT group, derived, that still holds a NOTICE layer. -/
def noticedFace : Face :=
  { cls := .hallMatrix, bindA := 0, bindB := 0, link := 0, drop := 1, floor := none, scope := 0, base := .hallMatrix [],
    prompt := [], notice := some ⟨0, 0, none, []⟩, cover := none, strokes := 0, waitText := none, waitGlyphs := [] }

/-- Display 0 is listed twice, the second time with a floor that its binding does not give, and the record of label 0 is
handed. No step from reset makes such a table (`Engines.LinksSafe.faces`). -/
def listedTwice : State :=
  { State.reset with
    asm := { Assembler.reset with handed := some (.window labelWindow 0) }
    eng := { Engines.reset with face := { FaceTable.reset with
      faces := [(0, noticedFace), (0, { noticedFace with floor := some 0 })] } } }

theorem listedTwice_accepts : listedTwice.accepts (.window labelWindow 0) := by
  refine ⟨rfl, rfl, ?_, ?_⟩ <;> decide

theorem listedTwice_faceOf {d : Nat} {f : Face} (h : listedTwice.eng.faceOf d = some f) : f = noticedFace := by
  have hface : listedTwice.eng.faceOf d = if 0 = d then some noticedFace else
      if 0 = d then some { noticedFace with floor := some 0 } else none := rfl
  rw [hface] at h
  by_cases hd : 0 = d
  · rw [if_pos hd] at h
    exact (Option.some.inj h).symm
  · rw [if_neg hd, if_neg hd] at h
    cases h

/-- The law of derived faces reads the first entry of a display alone. -/
theorem listedTwice_derived : listedTwice.eng.FacesDerived listedTwice.ambient := by
  constructor <;> intro d f hf <;> rw [listedTwice_faceOf hf] <;> decide

/-- Deriving anew tells the Playout Engine of the second entry, whose floor is stale; no context is active, so the notice
withdraws the layer (R97). -/
theorem listedTwice_acceptLabel :
    (listedTwice.eng.acceptLabel listedTwice.ambient 0 (listedTwice.stagedSlot labelWindow 0)).faceOf 0 =
      some { noticedFace with notice := none } := by decide +kernel

/-- Refutes O29: in `listedTwice` the faces are derived, and the label record withdraws a NOTICE layer. With a face table in
canonical form the record changes what `acceptLabel_rest`, `acceptLabel_face` and `tracks_acceptLabel` say. -/
theorem not_labelCommitTakesTheRecord : ¬ Obligations.LabelCommitTakesTheRecord := by
  intro h
  obtain ⟨t, ht, _, _, _, _, _, _, _, hframe, _⟩ := h listedTwice 0 listedTwice_accepts
  obtain ⟨_, _, _, hfaces⟩ := hframe listedTwice_derived
  rw [exec_labelCommit_accepted listedTwice_accepts] at ht
  cases ht
  obtain ⟨hkept, _⟩ := hfaces 0 noticedFace _ rfl listedTwice_acceptLabel
  exact absurd (congrArg Face.notice hkept) (by decide)

end Sys2Proof.Machine

/-! SUPPORT. An accepted car record: the record, the stops, the lantern test, the arrival with its claims (R8 to R14, R22 to
R30, R68, R69). -/

namespace Sys2Proof.Machine

/-! ## The record and the dropped stops -/

/-- A car record taken, with the stops dropped in an out-of-service mode (R8 first to fourth step). -/
def carTaken (A : Ambient) (e : Engines) (c : Fin 48) (r : Rec4) : Engines :=
  if r.carOutOfService then (e.onCar c (e.ind.taken r)).dropStops A c else e.onCar c (e.ind.taken r)

/-- A car record taken, with the tests of the lantern and of the arrival (R8 fifth step). -/
def carSignalled (A : Ambient) (e : Engines) (c : Fin 48) (r : Rec4) : Engines := (carTaken A e c r).signalTests A c r

theorem acceptCar_eq (A : Ambient) (e : Engines) (c : Fin 48) (r : Rec4) :
    e.acceptCar A c r = (carSignalled A e c r).rederive A := rfl

theorem stopsOf_setStops (e : Engines) (c k : Fin 48) (l : List Stop) :
    (e.setStops c l).stopsOf k = if c = k then l else e.stopsOf k := get_upd e.dest.stops c k fun _ => l

theorem dropStops_stopsOf (A : Ambient) (e : Engines) (c k : Fin 48) :
    (e.dropStops A c).stopsOf k = if c = k then [] else e.stopsOf k := by
  unfold Engines.dropStops
  dsimp only
  split
  · rename_i hempty
    split
    · rename_i hck
      exact hck ▸ List.isEmpty_iff.1 hempty
    · rfl
  · exact stopsOf_setStops e c k []

theorem dropStops_dest (A : Ambient) (e : Engines) (c : Fin 48) :
    (e.dropStops A c).dest = { e.dest with stops := (e.dropStops A c).dest.stops } := by
  unfold Engines.dropStops
  dsimp only
  split <;> rfl

theorem dropStops_out (A : Ambient) (e : Engines) (c : Fin 48) : (e.dropStops A c).out =
    if e.stopsOf c ≠ [] then
      e.out.report A.now (.stopsDropped c (e.stopsOf c).length ((e.stopsOf c).map Stop.riders).sum) else e.out := by
  unfold Engines.dropStops
  dsimp only
  by_cases hempty : e.stopsOf c = []
  · rw [if_pos (List.isEmpty_iff.2 hempty), if_neg (by simpa using hempty)]
  · rw [if_neg (by simpa using hempty), if_pos hempty]
    rfl

section CarTaken

variable (A : Ambient) (e : Engines) (c : Fin 48) (r : Rec4)

theorem carTaken_ind : (carTaken A e c r).ind = (e.onCar c (e.ind.taken r)).ind := by
  unfold carTaken; split <;> simp

theorem carTaken_timers : (carTaken A e c r).timers = e.timers := by unfold carTaken; split <;> simp

theorem carTaken_face : (carTaken A e c r).face = e.face := by unfold carTaken; split <;> simp

theorem carTaken_play : (carTaken A e c r).play = e.play := by unfold carTaken; split <;> simp

theorem carTaken_link : (carTaken A e c r).link = e.link := by unfold carTaken; split <;> simp

theorem carTaken_dest : (carTaken A e c r).dest = { e.dest with stops := (carTaken A e c r).dest.stops } := by
  unfold carTaken
  split
  · exact dropStops_dest A _ c
  · rfl

theorem carTaken_stopsOf (k : Fin 48) : (carTaken A e c r).stopsOf k =
    if c = k ∧ r.carOutOfService = true then [] else e.stopsOf k := by
  unfold carTaken
  by_cases ho : r.carOutOfService = true
  · rw [if_pos ho, dropStops_stopsOf]
    simp only [ho, and_true]
    rfl
  · rw [if_neg ho, if_neg fun h => ho h.2]
    rfl

theorem carTaken_out : (carTaken A e c r).out =
    if r.carOutOfService = true ∧ e.stopsOf c ≠ [] then
      e.out.report A.now (.stopsDropped c (e.stopsOf c).length ((e.stopsOf c).map Stop.riders).sum) else e.out := by
  unfold carTaken
  by_cases ho : r.carOutOfService = true
  · rw [if_pos ho, dropStops_out]
    simp only [ho, true_and]
    rfl
  · rw [if_neg ho, if_neg fun h => ho h.1]
    rfl

theorem carTaken_carOf (k : Fin 48) : (carTaken A e c r).ind.carOf k =
    if c = k then ⟨some r, (e.ind.carOf k).accepted.bind Rec4.carDoor,
      r.carGroup.bind fun g => lowerFloor (e.ind.groupOf g) r, r.carGroup.bind fun g => upperFloor (e.ind.groupOf g) r⟩
    else e.ind.carOf k := by
  rw [carTaken_ind, carOf_onCar]
  split
  · unfold Indication.taken Indication.derived Car.group
    cases hg : r.carGroup <;> simp [hg]
  · rfl

theorem carTaken_signalOf (k : Fin 48) : (carTaken A e c r).ind.signalOf k = e.ind.signalOf k := by
  rw [carTaken_ind]; rfl

end CarTaken

/-! ## The lantern test -/

/-- A running lantern whose car no longer stands at its landing ends (R28). -/
def Signal.ends (x : Signal) (r : Rec4) : Bool := x.running && !x.keptBy r

/-- The signals of a car after the lantern test. -/
def Signal.tested (x : Signal) (r : Rec4) : Signal := if x.ends r then Signal.reset else x

/-- The timer list after the lantern test: an ended lantern gives back its places (R29). -/
def Timers.freed (tm : Timers) (x : Signal) (r : Rec4) : Timers :=
  if x.ends r then (tm.releaseOpt x.lanternPlace).releaseOpt x.gongPlace else tm

/-- The engines after the lantern test. -/
def lanternTested (e : Engines) (c : Fin 48) (r : Rec4) : Engines :=
  if (e.ind.signalOf c).keptBy r then e else e.endLantern c

section LanternTested

variable (e : Engines) (c : Fin 48) (r : Rec4)

theorem lanternTested_of_not_ends (h : (e.ind.signalOf c).ends r = false) : lanternTested e c r = e := by
  unfold lanternTested
  split
  · rfl
  · rename_i hk
    have hrun : ¬ (e.ind.signalOf c).running = true := fun hrun => by simp [Signal.ends, hrun, hk] at h
    unfold Engines.endLantern
    exact if_neg hrun

theorem lanternTested_of_ends (h : (e.ind.signalOf c).ends r = true) : lanternTested e c r =
    ((e.release (e.ind.signalOf c).lanternPlace).release (e.ind.signalOf c).gongPlace).onSignal c
      fun _ => Signal.reset := by
  unfold Signal.ends at h
  rw [Bool.and_eq_true, Bool.not_eq_true'] at h
  unfold lanternTested Engines.endLantern
  rw [if_neg (by simp [h.2])]
  exact if_pos h.1

theorem lanternTested_signalOf (k : Fin 48) : (lanternTested e c r).ind.signalOf k =
    if c = k then (e.ind.signalOf k).tested r else e.ind.signalOf k := by
  unfold Signal.tested
  by_cases h : (e.ind.signalOf c).ends r = true
  · rw [lanternTested_of_ends e c r h, signalOf_onSignal]
    by_cases hck : c = k
    · subst hck
      rw [if_pos rfl, if_pos rfl, if_pos h]
    · rw [if_neg hck, if_neg hck]
      rfl
  · rw [lanternTested_of_not_ends e c r (by simpa using h)]
    by_cases hck : c = k
    · subst hck
      rw [if_pos rfl, if_neg h]
    · rw [if_neg hck]

theorem lanternTested_timers : (lanternTested e c r).timers = e.timers.freed (e.ind.signalOf c) r := by
  unfold Timers.freed
  by_cases h : (e.ind.signalOf c).ends r = true
  · rw [lanternTested_of_ends e c r h, if_pos h]
    rfl
  · rw [lanternTested_of_not_ends e c r (by simpa using h), if_neg h]

/-- The lantern test changes signals and the timer list alone. -/
theorem lanternTested_frame : lanternTested e c r = { e with
    ind := { e.ind with signals := (lanternTested e c r).ind.signals }, timers := (lanternTested e c r).timers } := by
  by_cases h : (e.ind.signalOf c).ends r = true
  · rw [lanternTested_of_ends e c r h]; rfl
  · rw [lanternTested_of_not_ends e c r (by simpa using h)]

theorem lanternTested_carOf (k : Fin 48) : (lanternTested e c r).ind.carOf k = e.ind.carOf k := by
  rw [lanternTested_frame]; rfl

end LanternTested

/-- An ended lantern leaves neither of its places in the list. -/
theorem freed_gone (tm : Timers) {x : Signal} {r : Rec4} (h : x.ends r = true) {id : Nat}
    (hid : x.lanternPlace = some id ∨ x.gongPlace = some id) : ∀ p ∈ (tm.freed x r).list, p.id ≠ id := by
  have hrel : ∀ (tm : Timers) (held : Option Nat) (p : TimerPlace), p ∈ (tm.releaseOpt held).list →
      p ∈ tm.list ∧ held ≠ some p.id := by
    intro tm held p hp
    cases held with
    | none => exact ⟨hp, fun h => by cases h⟩
    | some id =>
      obtain ⟨hp, hne⟩ := List.mem_filter.1 hp
      exact ⟨hp, fun h => by cases h; simp at hne⟩
  intro p hp hpid
  unfold Timers.freed at hp
  rw [if_pos h] at hp
  obtain ⟨hp, hgong⟩ := hrel _ _ p hp
  obtain ⟨_, hlantern⟩ := hrel _ _ p hp
  rw [hpid] at hgong hlantern
  exact hid.elim hlantern hgong

/-! ## The claims of an arrival -/

/-- The claim of a LANTERN place: none where the group's lanterns do not flash (R24). -/
def lanternClaim (A : Ambient) (tm : Timers) (c : Fin 48) (g : Rec8) : Timers × Option Nat :=
  if g.flashCount = 0 then (tm, none)
  else tm.claim .lantern (.car c) (later A.now g.lanternInterval) g.lanternInterval (2 * g.flashCount)

/-- The claim of a GONG place: one stroke upwards, two downwards (R25). -/
def gongClaim (A : Ambient) (tm : Timers) (c : Fin 48) (dir : Arrow) : Timers × Option Nat :=
  tm.claim .gong (.car c) A.now A.settings.gongSpacing (if dir = .down then 2 else 1)

theorem claim_refused {tm tm' : Timers} {kind : PlaceKind} {owner : Owner} {expiry : BitVec 32} {interval count : Nat}
    (h : tm.claim kind owner expiry interval count = (tm', none)) : tm' = tm := by
  unfold Timers.claim at h
  split at h
  · cases h
  · exact (congrArg Prod.fst h).symm

section Claims

variable (A : Ambient) (e : Engines) (c : Fin 48)

theorem claimLantern_timers (g : Rec8) (landing : Nat) :
    (e.claimLantern A c g landing).timers = (lanternClaim A e.timers c g).1 := by
  unfold Engines.claimLantern lanternClaim
  split
  · rfl
  · split
    · rename_i tm id hc; rw [hc]; rfl
    · rename_i tm hc; rw [hc]; exact (claim_refused hc).symm

theorem claimLantern_signalOf (g : Rec8) (landing : Nat) (k : Fin 48) :
    (e.claimLantern A c g landing).ind.signalOf k = if c = k then
      { e.ind.signalOf k with lanternPlace := (lanternClaim A e.timers c g).2.or (e.ind.signalOf k).lanternPlace }
    else e.ind.signalOf k := by
  unfold Engines.claimLantern lanternClaim
  split
  · simp
  · split
    · rename_i tm id hc; rw [hc, signalOf_onSignal]; rfl
    · rename_i tm hc; rw [hc]; simp

theorem claimLantern_out (g : Rec8) (landing : Nat) : (e.claimLantern A c g landing).out =
    if g.flashCount ≠ 0 ∧ (lanternClaim A e.timers c g).2 = none then
      e.out.report A.now (.timerRefused c .lantern landing 0) else e.out := by
  unfold Engines.claimLantern lanternClaim
  split
  · rename_i h0; rw [if_neg fun h => h.1 h0]
  · rename_i h0
    split
    · rename_i tm id hc; rw [hc]; simp
    · rename_i tm hc; rw [hc, if_pos ⟨h0, rfl⟩]; rfl

theorem claimGong_timers (dir : Arrow) (landing : Nat) :
    (e.claimGong A c dir landing).timers = (gongClaim A e.timers c dir).1 := by
  unfold Engines.claimGong gongClaim
  split
  · rename_i tm id hc; rw [hc]; rfl
  · rename_i tm hc; rw [hc]; exact (claim_refused hc).symm

theorem claimGong_signalOf (dir : Arrow) (landing : Nat) (k : Fin 48) :
    (e.claimGong A c dir landing).ind.signalOf k = if c = k then
      { e.ind.signalOf k with gongPlace := (gongClaim A e.timers c dir).2.or (e.ind.signalOf k).gongPlace }
    else e.ind.signalOf k := by
  unfold Engines.claimGong gongClaim
  split
  · rename_i tm id hc; rw [hc, signalOf_onSignal]; rfl
  · rename_i tm hc; rw [hc]; simp

theorem claimGong_out (dir : Arrow) (landing : Nat) : (e.claimGong A c dir landing).out =
    if (gongClaim A e.timers c dir).2 = none then e.out.report A.now (.timerRefused c .gong landing 0) else e.out := by
  unfold Engines.claimGong gongClaim
  split
  · rename_i tm id hc; rw [hc]; simp
  · rename_i tm hc; rw [hc, if_pos rfl]; rfl

end Claims

/-! ## The arrival -/

section Arrival

variable (A : Ambient) (e : Engines) (c : Fin 48)

theorem claimLantern_ind (g : Rec8) (landing : Nat) : (e.claimLantern A c g landing).ind =
    { e.ind with signals := (e.claimLantern A c g landing).ind.signals } := by
  unfold Engines.claimLantern
  split
  · rfl
  · split <;> rfl

theorem claimGong_ind (dir : Arrow) (landing : Nat) : (e.claimGong A c dir landing).ind =
    { e.ind with signals := (e.claimGong A c dir landing).ind.signals } := by
  unfold Engines.claimGong
  split <;> rfl

/-- A signal record of an arrival without its lantern: the landing, the deck span and the group (R23). -/
def Signal.arrived (x : Signal) (r : Rec4) (g : Fin 8) (group : Rec8) : Signal :=
  { x with landing := some r.carPosition, two := group.double, group := some g }

/-- The engines of an arrival with a direction before its claims: the lantern is lit. -/
def lanternLit (e : Engines) (c : Fin 48) (r : Rec4) (g : Fin 8) : Engines :=
  (e.onSignal c fun x => x.arrived r g (e.ind.groupOf g)).onSignal c fun x => { x with lantern := r.arrowNext, lit := true }

theorem startSignals_none {r : Rec4} (h : r.arrowNext = .none) (g : Fin 8) :
    e.startSignals A c r g = e.onSignal c fun x => x.arrived r g (e.ind.groupOf g) := by
  unfold Engines.startSignals
  rw [h]
  rfl

theorem startSignals_dir {r : Rec4} (h : r.arrowNext ≠ .none) (g : Fin 8) : e.startSignals A c r g =
    ((lanternLit e c r g).claimLantern A c (e.ind.groupOf g) r.carPosition).claimGong A c r.arrowNext r.carPosition := by
  unfold Engines.startSignals
  split
  · rename_i hn; exact absurd hn h
  · rfl

/-- The start of the arrival signals changes no part of the Indication Engine but signals. -/
theorem startSignals_ind (r : Rec4) (g : Fin 8) :
    (e.startSignals A c r g).ind = { e.ind with signals := (e.startSignals A c r g).ind.signals } := by
  by_cases h : r.arrowNext = .none
  · rw [startSignals_none A e c h]; rfl
  · rw [startSignals_dir A e c h, claimGong_ind, claimLantern_ind]; rfl

theorem startSignals_signalOf_other (r : Rec4) (g : Fin 8) {k : Fin 48} (hck : c ≠ k) :
    (e.startSignals A c r g).ind.signalOf k = e.ind.signalOf k := by
  by_cases h : r.arrowNext = .none
  · rw [startSignals_none A e c h, signalOf_onSignal, if_neg hck]
  · rw [startSignals_dir A e c h, claimGong_signalOf, if_neg hck, claimLantern_signalOf, if_neg hck]
    unfold lanternLit
    rw [signalOf_onSignal, if_neg hck, signalOf_onSignal, if_neg hck]

/-- The signal record of an arrival with a direction: lit, with the places its claims were given. -/
theorem startSignals_signalOf_dir {r : Rec4} (h : r.arrowNext ≠ .none) (g : Fin 8) :
    (e.startSignals A c r g).ind.signalOf c = { (e.ind.signalOf c).arrived r g (e.ind.groupOf g) with
      lantern := r.arrowNext, lit := true
      lanternPlace := (lanternClaim A e.timers c (e.ind.groupOf g)).2.or (e.ind.signalOf c).lanternPlace
      gongPlace := (gongClaim A (lanternClaim A e.timers c (e.ind.groupOf g)).1 c r.arrowNext).2.or
        (e.ind.signalOf c).gongPlace } := by
  rw [startSignals_dir A e c h, claimGong_signalOf, if_pos rfl, claimLantern_signalOf, if_pos rfl, claimLantern_timers]
  unfold lanternLit
  rw [signalOf_onSignal, if_pos rfl, signalOf_onSignal, if_pos rfl]
  rfl

theorem startSignals_timers_dir {r : Rec4} (h : r.arrowNext ≠ .none) (g : Fin 8) : (e.startSignals A c r g).timers =
    (gongClaim A (lanternClaim A e.timers c (e.ind.groupOf g)).1 c r.arrowNext).1 := by
  rw [startSignals_dir A e c h, claimGong_timers, claimLantern_timers]
  rfl

/-- The reports of the claims of an arrival with a direction, the LANTERN claim's first (R30). -/
theorem startSignals_out_dir {r : Rec4} (h : r.arrowNext ≠ .none) (g : Fin 8) :
    let lantern := lanternClaim A e.timers c (e.ind.groupOf g)
    let told := if (e.ind.groupOf g).flashCount ≠ 0 ∧ lantern.2 = none then
      e.out.report A.now (.timerRefused c .lantern r.carPosition 0) else e.out
    (e.startSignals A c r g).out = if (gongClaim A lantern.1 c r.arrowNext).2 = none then
      told.report A.now (.timerRefused c .gong r.carPosition 0) else told := by
  intro lantern told
  rw [startSignals_dir A e c h, claimGong_out, claimLantern_timers, claimLantern_out]
  rfl

theorem arrive_stopsOf (r : Rec4) (g : Fin 8) (k : Fin 48) : (e.arrive A c r g).stopsOf k =
    if c = k then (e.stopsOf c).filter fun x =>
      !((e.ind.carOf c).lower.toList ++ (e.ind.carOf c).upper.toList).contains x.floor
    else e.stopsOf k := by
  have hstart : ∀ b : Engines, (b.startSignals A c r g).stopsOf k = b.stopsOf k := fun b => by
    unfold Engines.stopsOf; rw [Engines.startSignals_dest]
  unfold Engines.arrive
  dsimp only
  split
  · rw [hstart]; exact stopsOf_setStops e c k _
  · exact stopsOf_setStops e c k _

theorem arrive_dest (r : Rec4) (g : Fin 8) :
    (e.arrive A c r g).dest = { e.dest with stops := (e.arrive A c r g).dest.stops } := by
  unfold Engines.arrive
  dsimp only
  split
  · rw [Engines.startSignals_dest]; rfl
  · rfl

theorem arrive_ind (r : Rec4) (g : Fin 8) :
    (e.arrive A c r g).ind = { e.ind with signals := (e.arrive A c r g).ind.signals } := by
  unfold Engines.arrive
  dsimp only
  split
  · rw [startSignals_ind]; rfl
  · rfl

theorem arrive_signalOf_other (r : Rec4) (g : Fin 8) {k : Fin 48} (hck : c ≠ k) :
    (e.arrive A c r g).ind.signalOf k = e.ind.signalOf k := by
  unfold Engines.arrive
  dsimp only
  split
  · rw [startSignals_signalOf_other A _ c r g hck]; rfl
  · rfl

/-- An arrival in a mode that does not announce changes stops alone. -/
theorem arrive_silent {r : Rec4} (h : r.carInService = false) (g : Fin 8) : e.arrive A c r g =
    e.removeStops c ((e.ind.carOf c).lower.toList ++ (e.ind.carOf c).upper.toList) := by
  unfold Engines.arrive
  exact if_neg (by simp [h])

theorem arrive_announced {r : Rec4} (h : r.carInService = true) (g : Fin 8) : e.arrive A c r g =
    (e.removeStops c ((e.ind.carOf c).lower.toList ++ (e.ind.carOf c).upper.toList)).startSignals A c r g := by
  unfold Engines.arrive
  exact if_pos h

end Arrival

/-! ## The record with its tests -/

/-- An accepted record is an arrival by the door that it replaces (R13). -/
def arrives (e : Engines) (c : Fin 48) (r : Rec4) : Bool := isArrival r ((e.ind.carOf c).accepted.bind Rec4.carDoor)

section CarSignalled

variable (A : Ambient) (e : Engines) (c : Fin 48) (r : Rec4)

/-- The record taken and the lantern tested: what the arrival finds. -/
def carTested : Engines := lanternTested (carTaken A e c r) c r

theorem carSignalled_idle (h : arrives e c r = false) : carSignalled A e c r = carTested A e c r := by
  have hprev : ((carTested A e c r).ind.carOf c).prevDoor = (e.ind.carOf c).accepted.bind Rec4.carDoor := by
    unfold carTested
    rw [lanternTested_carOf, carTaken_carOf, if_pos rfl]
  unfold arrives at h
  rw [← hprev] at h
  unfold carSignalled Engines.signalTests
  cases r.carGroup with
  | none => rfl
  | some g => exact if_neg (Bool.eq_false_iff.1 h)

theorem carSignalled_arrival {g : Fin 8} (hg : r.carGroup = some g) (h : arrives e c r = true) :
    carSignalled A e c r = (carTested A e c r).arrive A c r g := by
  have hprev : ((carTested A e c r).ind.carOf c).prevDoor = (e.ind.carOf c).accepted.bind Rec4.carDoor := by
    unfold carTested
    rw [lanternTested_carOf, carTaken_carOf, if_pos rfl]
  unfold arrives at h
  rw [← hprev] at h
  unfold carSignalled Engines.signalTests
  rw [hg]
  exact if_pos h

/-- Only a record that names a group is an arrival. -/
theorem group_of_arrives {e : Engines} {c : Fin 48} {r : Rec4} (h : arrives e c r = true) : ∃ g, r.carGroup = some g := by
  unfold arrives isArrival at h
  simp only [Bool.and_eq_true] at h
  exact Option.isSome_iff_exists.1 h.1.1.1.1

theorem carTested_frame : carTested A e c r = { carTaken A e c r with
    ind := { (carTaken A e c r).ind with signals := (carTested A e c r).ind.signals }
    timers := (carTested A e c r).timers } := lanternTested_frame _ c r

theorem carTested_stopsOf (k : Fin 48) : (carTested A e c r).stopsOf k = (carTaken A e c r).stopsOf k := by
  rw [carTested_frame]; rfl

theorem carTested_carOf (k : Fin 48) : (carTested A e c r).ind.carOf k = (carTaken A e c r).ind.carOf k :=
  lanternTested_carOf _ c r k

theorem carTested_out : (carTested A e c r).out = (carTaken A e c r).out := by rw [carTested_frame]

theorem carTested_groupOf (g : Fin 8) : (carTested A e c r).ind.groupOf g = e.ind.groupOf g := by
  rw [carTested_frame, carTaken_ind]; rfl

theorem carTested_signalOf (k : Fin 48) : (carTested A e c r).ind.signalOf k =
    if c = k then (e.ind.signalOf k).tested r else e.ind.signalOf k := by
  unfold carTested
  rw [lanternTested_signalOf, carTaken_signalOf]

theorem carTested_timers : (carTested A e c r).timers = e.timers.freed (e.ind.signalOf c) r := by
  unfold carTested
  rw [lanternTested_timers, carTaken_signalOf, carTaken_timers]

/-- The cars, groups and labels are those of the record taken. -/
theorem carSignalled_ind : (carSignalled A e c r).ind =
    { (e.onCar c (e.ind.taken r)).ind with signals := (carSignalled A e c r).ind.signals } := by
  rw [← carTaken_ind A e c r]
  have htested : (carTested A e c r).ind =
      { (carTaken A e c r).ind with signals := (carTested A e c r).ind.signals } := by rw [carTested_frame]
  cases h : arrives e c r with
  | false => rw [carSignalled_idle A e c r h]; exact htested
  | true =>
    obtain ⟨g, hg⟩ := group_of_arrives h
    rw [carSignalled_arrival A e c r hg h, arrive_ind, htested]

theorem carSignalled_carOf (k : Fin 48) : (carSignalled A e c r).ind.carOf k = (carTaken A e c r).ind.carOf k := by
  rw [carSignalled_ind, carTaken_ind]; rfl

theorem carSignalled_signalOf_other {k : Fin 48} (hck : c ≠ k) :
    (carSignalled A e c r).ind.signalOf k = e.ind.signalOf k := by
  have htested := carTested_signalOf A e c r k
  rw [if_neg hck] at htested
  cases h : arrives e c r with
  | false => rw [carSignalled_idle A e c r h, htested]
  | true =>
    obtain ⟨g, hg⟩ := group_of_arrives h
    rw [carSignalled_arrival A e c r hg h, arrive_signalOf_other A _ c r g hck, htested]

theorem carSignalled_dest : (carSignalled A e c r).dest =
    { e.dest with stops := (carSignalled A e c r).dest.stops } := by
  have htested : (carTested A e c r).dest = { e.dest with stops := (carTested A e c r).dest.stops } := by
    rw [carTested_frame]; exact carTaken_dest A e c r
  cases h : arrives e c r with
  | false => rw [carSignalled_idle A e c r h]; exact htested
  | true =>
    obtain ⟨g, hg⟩ := group_of_arrives h
    rw [carSignalled_arrival A e c r hg h, arrive_dest, htested]

/-- The stops of the car: dropped in an out-of-service mode, removed at the arrived floors at an arrival. -/
theorem carSignalled_stopsOf : (carSignalled A e c r).stopsOf c =
    if r.carOutOfService then []
    else if arrives e c r then (e.stopsOf c).filter fun x =>
      !(((carTaken A e c r).ind.carOf c).lower.toList ++ ((carTaken A e c r).ind.carOf c).upper.toList).contains x.floor
    else e.stopsOf c := by
  have htaken : (carTested A e c r).stopsOf c = if r.carOutOfService = true then [] else e.stopsOf c := by
    rw [carTested_stopsOf, carTaken_stopsOf]
    simp only [true_and]
  cases h : arrives e c r with
  | false => rw [carSignalled_idle A e c r h, htaken]; rfl
  | true =>
    obtain ⟨g, hg⟩ := group_of_arrives h
    rw [carSignalled_arrival A e c r hg h, arrive_stopsOf, if_pos rfl, htaken, carTested_carOf]
    split <;> rfl

theorem carSignalled_stopsOf_other {k : Fin 48} (hck : c ≠ k) : (carSignalled A e c r).stopsOf k = e.stopsOf k := by
  have htaken : (carTested A e c r).stopsOf k = e.stopsOf k := by
    rw [carTested_stopsOf, carTaken_stopsOf, if_neg fun h => hck h.1]
  cases h : arrives e c r with
  | false => rw [carSignalled_idle A e c r h, htaken]
  | true =>
    obtain ⟨g, hg⟩ := group_of_arrives h
    rw [carSignalled_arrival A e c r hg h, arrive_stopsOf, if_neg hck, htaken]

theorem carSignalled_face : (carSignalled A e c r).face = e.face := by
  unfold carSignalled
  rw [Engines.signalTests_face, carTaken_face]

theorem carSignalled_link : (carSignalled A e c r).link = e.link := by
  unfold carSignalled
  rw [Engines.signalTests_link, carTaken_link]

theorem carSignalled_play : (carSignalled A e c r).play = e.play := by
  unfold carSignalled
  rw [Engines.signalTests_play, carTaken_play]

/-- The record with its tests changes the Indication Engine, stops, the timer list and the reports alone. -/
theorem carSignalled_frame : carSignalled A e c r = { e with
    ind := (carSignalled A e c r).ind, dest := { e.dest with stops := (carSignalled A e c r).dest.stops }
    timers := (carSignalled A e c r).timers, out := (carSignalled A e c r).out } := by
  rw [← carSignalled_dest, ← carSignalled_face A e c r, ← carSignalled_link A e c r, ← carSignalled_play A e c r]

/-- Without an announced arrival the lantern test alone changes signals and the timer list. -/
theorem carSignalled_silent (h : arrives e c r = false ∨ r.carInService = false) :
    (carSignalled A e c r).ind.signalOf c = (e.ind.signalOf c).tested r ∧
      (carSignalled A e c r).timers = e.timers.freed (e.ind.signalOf c) r ∧
      (carSignalled A e c r).out = (carTaken A e c r).out := by
  have htested := carTested_signalOf A e c r c
  rw [if_pos rfl] at htested
  rw [← htested, ← carTested_timers A e c r, ← carTested_out A e c r]
  cases ha : arrives e c r with
  | false => rw [carSignalled_idle A e c r ha]; exact ⟨rfl, rfl, rfl⟩
  | true =>
    obtain ⟨g, hg⟩ := group_of_arrives ha
    rw [carSignalled_arrival A e c r hg ha, arrive_silent A _ c (h.resolve_left (by simp [ha]))]
    exact ⟨rfl, rfl, rfl⟩

/-- An arrival in a mode that announces starts the signals on what the lantern test leaves. -/
theorem carSignalled_announced {g : Fin 8} (hg : r.carGroup = some g) (h : arrives e c r = true)
    (hs : r.carInService = true) : ∃ b : Engines, b.ind = (carTested A e c r).ind ∧
      b.timers = e.timers.freed (e.ind.signalOf c) r ∧ b.out = (carTaken A e c r).out ∧
      carSignalled A e c r = b.startSignals A c r g :=
  ⟨(carTested A e c r).removeStops c _, rfl, carTested_timers A e c r, carTested_out A e c r,
    (carSignalled_arrival A e c r hg h).trans (arrive_announced A _ c hs g)⟩

theorem freed_nextId (tm : Timers) (x : Signal) (r : Rec4) : (tm.freed x r).nextId = tm.nextId := by
  have hrel : ∀ (tm : Timers) (held : Option Nat), (tm.releaseOpt held).nextId = tm.nextId := by
    intro tm held
    cases held <;> rfl
  unfold Timers.freed
  split
  · rw [hrel, hrel]
  · rfl

theorem lanternClaim_ext (A : Ambient) (tm : Timers) (c : Fin 48) (g : Rec8) : Timers.Ext tm (lanternClaim A tm c g).1 := by
  unfold lanternClaim
  split
  · exact Timers.Ext.refl tm
  · exact Timers.ext_claim rfl

theorem gongClaim_ext (A : Ambient) (tm : Timers) (c : Fin 48) (dir : Arrow) : Timers.Ext tm (gongClaim A tm c dir).1 :=
  Timers.ext_claim rfl

/-- After the lantern test the record only claims places. -/
theorem carSignalled_ext : Timers.Ext (e.timers.freed (e.ind.signalOf c) r) (carSignalled A e c r).timers := by
  by_cases hs : arrives e c r = false ∨ r.carInService = false
  · rw [(carSignalled_silent A e c r hs).2.1]
    exact Timers.Ext.refl _
  · rw [not_or, Bool.not_eq_false, Bool.not_eq_false] at hs
    obtain ⟨g, hg⟩ := group_of_arrives hs.1
    obtain ⟨b, _, htimers, _, hb⟩ := carSignalled_announced A e c r hg hs.1 hs.2
    rw [hb, ← htimers]
    by_cases hn : r.arrowNext = .none
    · rw [startSignals_none A b c hn]
      exact Timers.Ext.refl _
    · rw [startSignals_timers_dir A b c hn]
      exact (lanternClaim_ext A _ c _).trans (gongClaim_ext A _ c _)

/-- No place of an ended lantern is left in the timer list or comes back (R29, R149). -/
theorem ended_places_gone (h : (e.ind.signalOf c).ends r = true) {id : Nat}
    (hid : (e.ind.signalOf c).lanternPlace = some id ∨ (e.ind.signalOf c).gongPlace = some id)
    (hmade : id < e.timers.nextId) : ∀ p ∈ ((carSignalled A e c r).rederive A).timers.list, p.id ≠ id :=
  ((carSignalled_ext A e c r).trans (Engines.ext_rederive A _)).gone (by rw [freed_nextId]; exact hmade)
    (freed_gone e.timers h hid)

end CarSignalled

/-! ## The commit -/

/-- The marks of an accepted car record: a display is marked exactly where it shows something else than before (R75). -/
theorem tracks_acceptCar {e : Engines} (h : e.LinksSafe) (A : Ambient) (c : Fin 48) (r : Rec4) {d : Nat} {f : Face}
    (hf : e.faceOf d = some f) (hon : e.online d = true) : ∃ f', Engines.Tracks e f d (e.acceptCar A c r) f' := by
  have hface := carSignalled_face A e c r
  have hlink := carSignalled_link A e c r
  have htaken : Engines.Tracks e f d (carSignalled A e c r) f :=
    (Engines.Tracks.start h hf hon).spared (Engines.Spares.of_eq hface hlink) (h.congr hface hlink)
  obtain ⟨f', hf', _⟩ := htaken.rederive A
  exact ⟨f', hf'⟩

/-- Deriving BASE content anew keeps the sources: the part holds of cars, groups and signals what `carSignalled` gives. -/
theorem acceptCar_ind (A : Ambient) (e : Engines) (c : Fin 48) (r : Rec4) :
    (e.acceptCar A c r).ind = (carSignalled A e c r).ind := Engines.rederive_ind _ _

theorem acceptCar_stopsOf (A : Ambient) (e : Engines) (c k : Fin 48) (r : Rec4) :
    (e.acceptCar A c r).stopsOf k = (carSignalled A e c r).stopsOf k :=
  congrArg (fun v : Vector (List Stop) 48 => v[k]) (rederive_stops _ _)

section AcceptCar

variable (A : Ambient) (e : Engines) (c : Fin 48) (r : Rec4)

theorem acceptCar_carOf : (e.acceptCar A c r).ind.carOf c = ⟨some r, (e.ind.carOf c).accepted.bind Rec4.carDoor,
    r.carGroup.bind fun g => lowerFloor (e.ind.groupOf g) r, r.carGroup.bind fun g => upperFloor (e.ind.groupOf g) r⟩ := by
  rw [acceptCar_ind, carSignalled_carOf, carTaken_carOf, if_pos rfl]

/-- Another car keeps its record, its stops and its signals. -/
theorem acceptCar_other {k : Fin 48} (hck : c ≠ k) : (e.acceptCar A c r).ind.carOf k = e.ind.carOf k ∧
    (e.acceptCar A c r).stopsOf k = e.stopsOf k ∧ (e.acceptCar A c r).ind.signalOf k = e.ind.signalOf k := by
  rw [acceptCar_ind, carSignalled_carOf, carTaken_carOf, if_neg hck, acceptCar_stopsOf,
    carSignalled_stopsOf_other A e c r hck, carSignalled_signalOf_other A e c r hck]
  exact ⟨rfl, rfl, rfl⟩

theorem acceptCar_groups : (e.acceptCar A c r).ind.groups = e.ind.groups := by
  rw [acceptCar_ind, carSignalled_ind]; rfl

theorem acceptCar_labels : (e.acceptCar A c r).ind.labels = e.ind.labels := by
  rw [acceptCar_ind, carSignalled_ind]; rfl

theorem acceptCar_slots : (e.acceptCar A c r).face.slots = e.face.slots := by
  rw [acceptCar_eq, rederive_slots, carSignalled_face]

theorem acceptCar_ticket : (e.acceptCar A c r).dest.ticket = e.dest.ticket := by
  rw [acceptCar_eq, rederive_ticket, carSignalled_dest]

theorem acceptCar_stopsOf_self : (e.acceptCar A c r).stopsOf c =
    if r.carOutOfService then []
    else if arrives e c r then (e.stopsOf c).filter fun x =>
      !((r.carGroup.bind fun g => lowerFloor (e.ind.groupOf g) r).toList ++
        (r.carGroup.bind fun g => upperFloor (e.ind.groupOf g) r).toList).contains x.floor
    else e.stopsOf c := by
  rw [acceptCar_stopsOf, carSignalled_stopsOf, carTaken_carOf, if_pos rfl]

end AcceptCar

/-- Settles O24: the record by the lemmas on `acceptCar`, its arrival signals by those on `carSignalled`, which deriving BASE
content anew keeps, the marks by `Engines.Tracks.marks`. -/
theorem carCommitTakesTheRecord : Obligations.CarCommitTakesTheRecord := by
  refine ⟨fun s c h => ?_, fun s c h => ?_, fun s c h hsafe => ?_, deckFloors⟩
  · exact ⟨_, exec_carCommit_accepted h, rfl, acceptCar_carOf _ _ _ _, fun k hk => acceptCar_other _ _ _ _ hk.symm,
      acceptCar_groups _ _ _ _, acceptCar_labels _ _ _ _, acceptCar_slots _ _ _ _, acceptCar_ticket _ _ _ _,
      acceptCar_stopsOf_self _ _ _ _⟩
  · intro r x prev stops ends z freed dropped
    have hout : (carTaken s.ambient s.eng c r).out = dropped := carTaken_out _ _ _ _
    refine ⟨carSignalled s.ambient s.eng c r, exec_carCommit_accepted h, carSignalled_frame _ _ _ _,
      Engines.rederive_ind _ _, fun hs => ?_, fun g ha hs hg => ?_, fun id he hid hmade => ended_places_gone _ _ _ _ he hid hmade⟩
    · obtain ⟨hsignal, htimers, hreports⟩ := carSignalled_silent s.ambient s.eng c r hs
      exact ⟨hsignal, htimers, hreports.trans hout⟩
    · intro group landing shown claimed lantern gong told
      obtain ⟨b, hbind, hbtimers, hbout, hb⟩ := carSignalled_announced s.ambient s.eng c r hg ha hs
      have hgroup : b.ind.groupOf g = group := by rw [hbind]; exact carTested_groupOf _ _ _ _ _
      have hsignal : b.ind.signalOf c = z := by rw [hbind, carTested_signalOf, if_pos rfl]; rfl
      have hbout : b.out = dropped := hbout.trans hout
      rw [hb]
      refine ⟨fun hn => ?_, fun hn => ⟨?_, ?_, ?_⟩⟩
      · rw [startSignals_none _ b c hn, signalOf_onSignal, if_pos rfl, hgroup, hsignal]
        exact ⟨rfl, hbtimers, hbout⟩
      · rw [startSignals_signalOf_dir _ b c hn, hgroup, hsignal, hbtimers]
        rfl
      · rw [startSignals_timers_dir _ b c hn, hgroup, hbtimers]
        rfl
      · rw [startSignals_out_dir _ b c hn, hgroup, hbtimers, hbout]
        rfl
  · refine ⟨_, exec_carCommit_accepted h, fun d f g hf hg hon => ?_⟩
    obtain ⟨f', hf'⟩ := tracks_acceptCar hsafe s.ambient c (s.stagedSlot carWindow c) hf hon
    exact hf'.marks hg

end Sys2Proof.Machine

/-! SUPPORT. An accepted playout record: the context begun or ended, the NOTICE layers of its displays handed, and their marks
(R93 to R98, R102). -/

namespace Sys2Proof.Machine

/-! ## Contexts after a change -/

theorem ctx_onCtx (e : Engines) (c k : Fin 16) (g : Context → Context) :
    (e.onCtx c g).ctx k = if c = k then g (e.ctx k) else e.ctx k := get_upd e.play c k g

theorem ctx_releaseDwell (e : Engines) (c k : Fin 16) :
    (e.releaseDwell c).ctx k = if c = k then { e.ctx k with place := none } else e.ctx k := ctx_onCtx _ c k _

/-- A claim gives the context the next number, or no place where the timer list is full (R98, R101, R146). -/
theorem ctx_claimDwell (A : Ambient) (e : Engines) (c k : Fin 16) (ahead : Nat) :
    (e.claimDwell A c ahead).ctx k = if c = k then
      { e.ctx k with place := if e.timers.list.length < Config.timerPlaces then some e.timers.nextId else none }
    else e.ctx k := by
  unfold Engines.claimDwell
  dsimp only
  rcases e.timers.claim_spec .dwell (.context c) (later A.now ahead) ((e.ctx c).accepted.getD Rec4.zero).ploDwell 0 with
    ⟨hroom, hclaim⟩ | ⟨hfull, hclaim⟩
  · rw [hclaim, if_pos hroom]
    exact ctx_onCtx _ c k _
  · rw [hclaim, if_neg (Nat.not_lt.2 hfull)]
    exact ctx_onCtx e c k _

theorem ctx_handNotices (e : Engines) (ds : List Nat) (k : Fin 16) : (e.handNotices ds).ctx k = e.ctx k := by
  unfold Engines.ctx
  rw [Engines.handNotices_play]

/-- Where a rotation begins: the first READY language and its index, or NONE at index 0 (R93). -/
def firstPosition (ready : Fin 16 → Bool) (rot : List (Fin 16)) : Nat × Option (Fin 16) :=
  match firstReady ready rot 0 with
  | some (i, l) => (i, some l)
  | none => (0, none)

theorem atFirst_eq (ready : Fin 16 → Bool) (rot : List (Fin 16)) (x : Context) :
    x.atFirst ready rot = { x with index := (firstPosition ready rot).1, lang := (firstPosition ready rot).2 } := by
  unfold Context.atFirst firstPosition
  cases firstReady ready rot 0 <;> rfl

/-! ## The context begun or ended -/

/-- A START of the record begins SUSPENDED: it has targets, and every one is covered (R102). -/
def startsCovered (faces : Tab Face) (r : Rec4) : Bool :=
  !(targetsOf faces r).isEmpty && allCovered faces (targetsOf faces r)

/-- A START without the hand-off of the NOTICE layers (R93). -/
def ctxBegun (A : Ambient) (e : Engines) (c : Fin 16) (r : Rec4) : Engines :=
  let covered := startsCovered e.face.faces r
  let placed := ((e.releaseDwell c).onCtx c fun x =>
    { x with
      accepted := some r, targets := targetsOf e.face.faces r, remaining := r.ploRepeat,
      state := if covered then .suspended else .playing,
      saved := if covered then r.ploDwell else x.saved }).onCtx c (Context.atFirst A.ready r.ploRotation)
  if covered then placed else placed.claimDwell A c r.ploDwell

/-- A STOP without the hand-off of the NOTICE layers (R94). -/
def ctxEnded (e : Engines) (c : Fin 16) (r : Rec4) : Engines :=
  (e.releaseDwell c).onCtx c fun _ => { Context.reset with accepted := some r }

/-- An accepted playout record without the hand-off of the NOTICE layers. -/
def playoutTaken (A : Ambient) (e : Engines) (c : Fin 16) (r : Rec4) : Engines :=
  if r.ploActionCode = 1 then ctxBegun A e c r else ctxEnded e c r

/-- The displays whose owner is chosen anew after an accepted playout record (R93, R94). -/
def playoutNamed (e : Engines) (c : Fin 16) (r : Rec4) : List Nat :=
  if r.ploActionCode = 1 then bothSets (e.ctx c).targets (targetsOf e.face.faces r) else (e.ctx c).targets

section PlayoutTaken

variable (A : Ambient) (e : Engines) (c : Fin 16) (r : Rec4)

theorem acceptPlayout_eq : e.acceptPlayout A c r = (playoutTaken A e c r).handNotices (playoutNamed e c r) := by
  unfold Engines.acceptPlayout playoutTaken playoutNamed
  split <;> rfl

theorem ctxBegun_face : (ctxBegun A e c r).face = e.face := by unfold ctxBegun; dsimp only; split <;> simp

theorem ctxBegun_link : (ctxBegun A e c r).link = e.link := by unfold ctxBegun; dsimp only; split <;> simp

theorem playoutTaken_face : (playoutTaken A e c r).face = e.face := by
  unfold playoutTaken
  split
  · exact ctxBegun_face A e c r
  · rfl

theorem playoutTaken_link : (playoutTaken A e c r).link = e.link := by
  unfold playoutTaken
  split
  · exact ctxBegun_link A e c r
  · rfl

/-- The context as a START leaves it (R93, R98, R102). -/
theorem ctxBegun_ctx_self :
    let covered := startsCovered e.face.faces r
    let freed := e.timers.releaseOpt (e.ctx c).place
    (ctxBegun A e c r).ctx c =
      { state := if covered then .suspended else .playing
        accepted := some r
        index := (firstPosition A.ready r.ploRotation).1
        lang := (firstPosition A.ready r.ploRotation).2
        remaining := r.ploRepeat
        place := if covered then none else if freed.list.length < Config.timerPlaces then some freed.nextId else none
        saved := if covered then r.ploDwell else (e.ctx c).saved
        targets := targetsOf e.face.faces r } := by
  intro covered freed
  unfold ctxBegun
  dsimp only
  cases hcovered : startsCovered e.face.faces r with
  | true => simp only [covered, hcovered, if_true, ctx_onCtx, ctx_releaseDwell, atFirst_eq]
  | false =>
    simp only [covered, hcovered, Bool.false_eq_true, if_false, ctx_claimDwell, ctx_onCtx, ctx_releaseDwell, atFirst_eq,
      if_true]
    rfl

theorem ctxBegun_ctx_other {k : Fin 16} (hk : c ≠ k) : (ctxBegun A e c r).ctx k = e.ctx k := by
  unfold ctxBegun
  dsimp only
  split <;> simp only [ctx_claimDwell, ctx_onCtx, ctx_releaseDwell, if_neg hk]

theorem ctxEnded_ctx (k : Fin 16) :
    (ctxEnded e c r).ctx k = if c = k then { Context.reset with accepted := some r } else e.ctx k := by
  unfold ctxEnded
  rw [ctx_onCtx, ctx_releaseDwell]
  split <;> rfl

theorem playoutTaken_ctx_other {k : Fin 16} (hk : c ≠ k) : (playoutTaken A e c r).ctx k = e.ctx k := by
  unfold playoutTaken
  split
  · exact ctxBegun_ctx_other A e c r hk
  · rw [ctxEnded_ctx, if_neg hk]

end PlayoutTaken

/-! ## The displays named -/

theorem mem_insertNat (l : List Nat) (x y : Nat) : y ∈ insertNat l x ↔ y = x ∨ y ∈ l := by
  induction l with
  | nil => simp [insertNat]
  | cons z l ih =>
    unfold insertNat
    split
    · exact List.mem_cons
    · split
      · rename_i hxz
        subst hxz
        simp
      · rw [List.mem_cons, ih, List.mem_cons]
        exact or_left_comm

theorem mem_bothSets (a b : List Nat) (y : Nat) : y ∈ bothSets a b ↔ y ∈ a ∨ y ∈ b := by
  unfold bothSets
  induction b generalizing a with
  | nil => simp
  | cons x b ih =>
    rw [List.foldl_cons, ih, mem_insertNat, List.mem_cons, or_comm (a := y = x)]
    exact or_assoc

/-- Every display that the context targeted, or that a START targets now, is named. -/
theorem mem_playoutNamed {e : Engines} {c : Fin 16} {r : Rec4} {d : Nat}
    (h : d ∈ (e.ctx c).targets ∨ (r.ploActionCode = 1 ∧ d ∈ targetsOf e.face.faces r)) : d ∈ playoutNamed e c r := by
  unfold playoutNamed
  split
  · exact (mem_bothSets _ _ _).2 (h.imp_right And.right)
  · rename_i hstop
    exact h.resolve_right fun hstart => hstop hstart.1

/-- The targets of a playout record (R95). -/
theorem mem_targetsOf_iff (faces : Tab Face) (r : Rec4) (d : Nat) :
    d ∈ targetsOf faces r ↔ ∃ f, (d, f) ∈ faces ∧ isTarget r f = true := by
  unfold targetsOf
  simp

/-- What makes a face a target, class by class (R95). -/
theorem isTarget_iff (r : Rec4) (f : Face) : isTarget r f = true ↔ (f.scope &&& r.ploGroups) ≠ 0 ∧
    let onFloor := ∃ x, f.floor = some x ∧ r.ploFirst ≤ x ∧ x ≤ r.ploLast
    match f.cls with
    | .hallMatrix => r.ploClasses.getLsbD 0 = true ∧ onFloor
    | .carMatrix => r.ploClasses.getLsbD 1 = true
    | .terminal => r.ploClasses.getLsbD 2 = true ∧ onFloor
    | .hallSegment => False
    | .carSegment => False := by
  have hfloor : floorIn f.floor r.ploFirst r.ploLast = true ↔ ∃ x, f.floor = some x ∧ r.ploFirst ≤ x ∧ x ≤ r.ploLast := by
    unfold floorIn
    cases f.floor <;> simp
  unfold isTarget
  cases f.cls with
  | hallSegment | carSegment => simp [classBit]
  | carMatrix => simp [classBit, and_comm]
  | hallMatrix | terminal =>
    simp only [classBit, Bool.and_eq_true, Bool.or_eq_true, bne_iff_ne, hfloor, beq_iff_eq, reduceCtorEq, false_or]
    exact ⟨fun ⟨⟨hclass, hscope⟩, hon⟩ => ⟨hscope, hclass, hon⟩, fun ⟨hscope, hclass, hon⟩ => ⟨⟨hclass, hscope⟩, hon⟩⟩

/-! ## The NOTICE layers handed -/

/-- Handing NOTICE layers changes no context: every owner is chosen by the contexts as they stood before (R96). -/
theorem foldl_handNotice_eq (e0 : Engines) (ds : List Nat) (e : Engines) (h : e.play = e0.play) :
    e.handNotices ds = ds.foldl (fun acc d => acc.updFace d (noticed e0 d)) e := by
  induction ds generalizing e with
  | nil => rfl
  | cons d ds ih =>
    have hd : e.handNotice d = e.updFace d (noticed e0 d) := by
      show e.updFace d (noticed e d) = _
      unfold noticed Engines.ctx
      rw [h]
    have hrest := ih (e.handNotice d) ((Engines.handNotice_play e d).trans h)
    rw [hd] at hrest
    rw [List.foldl_cons, ← hrest, ← hd]
    rfl

theorem handNotices_eq (e : Engines) (ds : List Nat) :
    e.handNotices ds = ds.foldl (fun acc d => acc.updFace d (noticed e d)) e := foldl_handNotice_eq e ds e rfl

/-- A display named shows the NOTICE of its owner, or none (R96). -/
theorem handNotices_notice {e : Engines} {ds : List Nat} {d : Nat} {f : Face} (hf : (e.handNotices ds).faceOf d = some f)
    (hd : d ∈ ds) (hcls : holdsNotice f = true) :
    f.notice = (noticeOwner e.play d).map fun k => noticeOf k (e.ctx k) := by
  obtain ⟨x, hx, hspot⟩ := (Engines.LinksSafe.Same.of_keeps (Engines.Keeps.handNotices e ds)).spot hf
  have hxcls : holdsNotice x = true := by
    have hsame : x.cls = f.cls := congrArg Prod.fst hspot
    unfold holdsNotice at hcls ⊢
    rwa [hsame]
  have hheld := holds_foldl_updFace (g := noticed e) (fun _ _ _ => rfl) ds rfl (e := e) ⟨x.waitText, .inl rfl, hx⟩
  rw [← handNotices_eq, if_pos hd] at hheld
  obtain ⟨w, _, hw⟩ := hheld
  rw [hf] at hw
  cases hw
  exact if_pos hxcls

/-- A hand-off of NOTICE layers marks a display exactly where it shows something else than before (R75). -/
theorem Engines.Tracks.handNotices {e0 e : Engines} {f : Face} {d : Nat} (h : Engines.Tracks e0 f d e f) (ds : List Nat) :
    ∃ g, Engines.Tracks e0 f d (e.handNotices ds) g := by
  rw [handNotices_eq]
  exact ⟨_, h.foldl_updFace (g := noticed e) (fun _ _ _ => rfl) (fun _ _ => rfl) ds rfl fun hv => absurd rfl hv⟩

/-! ## The commit -/

section AcceptPlayout

variable {A : Ambient} {e : Engines} {c : Fin 16} {r : Rec4}

theorem acceptPlayout_slots : (e.acceptPlayout A c r).face.slots = e.face.slots :=
  (Engines.Keeps.acceptPlayout A e c r).slots

theorem acceptPlayout_ctx (k : Fin 16) : (e.acceptPlayout A c r).ctx k = (playoutTaken A e c r).ctx k := by
  rw [acceptPlayout_eq, ctx_handNotices]

theorem acceptPlayout_ctx_other {k : Fin 16} (hk : c ≠ k) : (e.acceptPlayout A c r).ctx k = e.ctx k := by
  rw [acceptPlayout_ctx, playoutTaken_ctx_other A e c r hk]

/-- What an accepted START leaves in the context (R93, R98, R102). -/
theorem acceptPlayout_start (h : r.ploActionCode = 1) :
    let x := (e.acceptPlayout A c r).ctx c
    x.accepted = some r ∧ x.targets = targetsOf e.face.faces r ∧ x.remaining = r.ploRepeat ∧
      (x.index, x.lang) = firstPosition A.ready r.ploRotation ∧
      (startsCovered e.face.faces r = true → x.state = .suspended ∧ x.saved = r.ploDwell ∧ x.place = none) ∧
      (startsCovered e.face.faces r = false → x.state = .playing ∧
        (x.place.isSome = true ↔ (e.timers.releaseOpt (e.ctx c).place).list.length < Config.timerPlaces)) := by
  have hx : (e.acceptPlayout A c r).ctx c = (ctxBegun A e c r).ctx c := by
    rw [acceptPlayout_ctx, playoutTaken, if_pos h]
  dsimp only
  rw [hx, ctxBegun_ctx_self]
  refine ⟨rfl, rfl, rfl, rfl, fun hcovered => ?_, fun hopen => ?_⟩
  · simp only [hcovered, if_true, and_self]
  · simp only [hopen, Bool.false_eq_true, if_false, true_and]
    by_cases hroom : (e.timers.releaseOpt (e.ctx c).place).list.length < Config.timerPlaces <;> simp [hroom]

/-- What an accepted STOP leaves in the context, and its place released (R94). -/
theorem acceptPlayout_stop (h : r.ploActionCode = 0) :
    (e.acceptPlayout A c r).ctx c = { Context.reset with accepted := some r } ∧ (e.acceptPlayout A c r).out = e.out ∧
      (e.acceptPlayout A c r).timers = e.timers.releaseOpt (e.ctx c).place := by
  have hstop : playoutTaken A e c r = ctxEnded e c r := if_neg (by rw [h]; decide)
  rw [acceptPlayout_eq, hstop, ctx_handNotices, ctxEnded_ctx, if_pos rfl, Engines.handNotices_out,
    Engines.handNotices_timers]
  exact ⟨rfl, rfl, rfl⟩

theorem acceptPlayout_notice {d : Nat} {f : Face} (hf : (e.acceptPlayout A c r).faceOf d = some f)
    (hcls : f.cls = .hallMatrix ∨ f.cls = .carMatrix ∨ f.cls = .terminal)
    (hd : d ∈ (e.ctx c).targets ∨ (r.ploActionCode = 1 ∧ d ∈ targetsOf e.face.faces r)) :
    f.notice = (noticeOwner (e.acceptPlayout A c r).play d).map fun k => noticeOf k ((e.acceptPlayout A c r).ctx k) := by
  have hholds : holdsNotice f = true := by
    unfold holdsNotice
    rcases hcls with h | h | h <;> rw [h] <;> rfl
  simp only [acceptPlayout_eq, Engines.handNotices_play, ctx_handNotices] at hf ⊢
  exact handNotices_notice hf (mem_playoutNamed hd) hholds

/-- The marks of an accepted playout record: a display is marked exactly where it shows something else than before (R75). -/
theorem tracks_acceptPlayout (h : e.LinksSafe) {d : Nat} {f : Face} (hf : e.faceOf d = some f) (hon : e.online d = true) :
    ∃ g, Engines.Tracks e f d (e.acceptPlayout A c r) g := by
  have hface := playoutTaken_face A e c r
  have hlink := playoutTaken_link A e c r
  have htaken : Engines.Tracks e f d (playoutTaken A e c r) f :=
    (Engines.Tracks.start h hf hon).spared (Engines.Spares.of_eq hface hlink) (h.congr hface hlink)
  rw [acceptPlayout_eq]
  exact htaken.handNotices _

end AcceptPlayout

/-- Settles O30: the context by `acceptPlayout_start` and `acceptPlayout_stop`, the NOTICE layers by `acceptPlayout_notice`,
the marks by `Engines.Tracks.marks`, the targets by `isTarget_iff`. -/
theorem playoutCommitStartsAndStops : Obligations.PlayoutCommitStartsAndStops := by
  refine ⟨fun s c h => ?_, fun faces r d => ?_⟩
  · intro r targets covered
    refine ⟨_, exec_playoutCommit_accepted h, rfl, fun k hk => acceptPlayout_ctx_other hk.symm,
      Engines.acceptPlayout_ind _ _ _ _, Engines.acceptPlayout_dest _ _ _ _, acceptPlayout_slots,
      acceptPlayout_start, acceptPlayout_stop, fun d f hf hcls hd => acceptPlayout_notice hf hcls hd,
      fun hsafe d f g hf hg hon => ?_⟩
    obtain ⟨f', hf'⟩ := tracks_acceptPlayout hsafe hf hon
    exact hf'.marks hg
  · rw [mem_targetsOf_iff]
    exact exists_congr fun f => and_congr_right fun _ => isTarget_iff r f

end Sys2Proof.Machine

/-! SUPPORT. The Fetch Unit one line, area and channel at a time, what a pass over several of them does, and what the arbiter
leaves of it. -/

namespace Sys2Proof.Machine

/-! ## Passes over a list -/

/-- A pass that changes one entry at a time, each by an operation that does no more the second time, has done it to the
entries of the list. -/
theorem foldl_entries {β ι γ : Type} [DecidableEq ι] (look : β → ι → γ) (op : β → ι → β) (g : ι → γ → γ)
    (hop : ∀ b k i, look (op b k) i = if k = i then g i (look b i) else look b i) (hg : ∀ i x, g i (g i x) = g i x)
    (l : List ι) (b : β) (i : ι) : look (l.foldl op b) i = if i ∈ l then g i (look b i) else look b i := by
  induction l generalizing b with
  | nil => rfl
  | cons k l ih =>
    rw [List.foldl_cons, ih, hop]
    by_cases hk : k = i
    · subst hk
      by_cases hl : k ∈ l <;> simp [hl, hg]
    · have hne : i ≠ k := fun h => hk h.symm
      simp [hk, hne]

/-! ## Lines, areas, channels -/

namespace FetchUnit

theorem channel_setChannel (f : FetchUnit) (ch k : Fin 4) (j : Option Job) :
    (f.setChannel ch j).channel k = if ch = k then j else f.channel k := get_upd f.channels ch k fun _ => j

@[simp] theorem channel_setChannel_self (f : FetchUnit) (ch : Fin 4) (j : Option Job) :
    (f.setChannel ch j).channel ch = j := by rw [channel_setChannel, if_pos rfl]

theorem channel_setChannel_other (f : FetchUnit) {ch k : Fin 4} (j : Option Job) (h : k ≠ ch) :
    (f.setChannel ch j).channel k = f.channel k := by rw [channel_setChannel, if_neg h.symm]

@[simp] theorem line_setChannel (f : FetchUnit) (ch : Fin 4) (j : Option Job) (i : Fin 32) :
    (f.setChannel ch j).line i = f.line i := rfl

theorem line_onLine (f : FetchUnit) (i k : Fin 32) (g : Line → Line) :
    (f.onLine i g).line k = if i = k then g (f.line k) else f.line k := get_upd f.lines i k g

@[simp] theorem line_onLine_self (f : FetchUnit) (i : Fin 32) (g : Line → Line) :
    (f.onLine i g).line i = g (f.line i) := by rw [line_onLine, if_pos rfl]

theorem line_onLine_other (f : FetchUnit) {i k : Fin 32} (g : Line → Line) (h : k ≠ i) :
    (f.onLine i g).line k = f.line k := by rw [line_onLine, if_neg h.symm]

theorem area_onArea (f : FetchUnit) (a b : Fin 8) (g : Area → Area) :
    (f.onArea a g).area b = if a = b then g (f.area b) else f.area b := get_upd f.areas a b g

/-- A pass over areas changes those of the list. -/
theorem area_foldl_onArea (g : Fin 8 → Area → Area) (hg : ∀ a x, g a (g a x) = g a x) (l : List (Fin 8)) (f : FetchUnit)
    (b : Fin 8) : (l.foldl (fun f a => f.onArea a (g a)) f).area b = if b ∈ l then g b (f.area b) else f.area b :=
  foldl_entries FetchUnit.area _ g
    (fun f a b => by rw [area_onArea]; by_cases h : a = b <;> simp [h]) hg l f b

/-- What is no area stands through such a pass. -/
theorem foldl_onArea_keeps {γ : Type} (look : FetchUnit → γ) (hlook : ∀ f a h, look (f.onArea a h) = look f)
    (g : Fin 8 → Area → Area) (l : List (Fin 8)) (f : FetchUnit) :
    look (l.foldl (fun f a => f.onArea a (g a)) f) = look f := foldl_keeps look _ (fun f a => hlook f a (g a)) l f

/-- A language is READY exactly when its area is (R120). -/
theorem ready_iff (f : FetchUnit) (l : Fin 16) :
    f.ready l = true ↔ ∃ a, (f.lang l).langArea = some a ∧ (f.area a).state = .ready := by
  unfold FetchUnit.ready
  cases (f.lang l).langArea <;> simp

/-- A record in the language table. -/
def setLang (f : FetchUnit) (l : Fin 16) (r : Rec4) : FetchUnit := { f with langs := f.langs.set l r }

theorem lang_setLang (f : FetchUnit) (l k : Fin 16) (r : Rec4) :
    (f.setLang l r).lang k = if l = k then r else f.lang k := get_upd f.langs l k fun _ => r

/-- A language is READY by its own record, whatever the others hold. -/
theorem ready_setLang_other (f : FetchUnit) {l k : Fin 16} (r : Rec4) (h : k ≠ l) :
    (f.setLang l r).ready k = f.ready k := by
  unfold FetchUnit.ready
  rw [lang_setLang, if_neg h.symm]
  rfl

theorem ready_setLang_self (f : FetchUnit) (l : Fin 16) (r : Rec4) :
    (f.setLang l r).ready l = true ↔ ∃ a, r.langArea = some a ∧ (f.area a).state = .ready := by
  rw [ready_iff, lang_setLang, if_pos rfl]
  rfl

/-! ## What glyph loads leave alone -/

/-- The text cache, the language table and the issued sweep reads. -/
def besideLoads (f : FetchUnit) : Vector Line 32 × List (Fin 32) × Vector Rec4 16 × List SweepRead :=
  (f.lines, f.recency, f.langs, f.sweepReads)

theorem eq_of_besideLoads {f g : FetchUnit} (h : g.besideLoads = f.besideLoads) :
    g = { f with areas := g.areas, requests := g.requests, channels := g.channels } := by
  simp only [besideLoads, Prod.mk.injEq] at h
  obtain ⟨hlines, hrecency, hlangs, hreads⟩ := h
  rw [← hlines, ← hrecency, ← hlangs, ← hreads]

end FetchUnit

/-! ## The arbiter -/

/-- The arbiter moves the accesses that wait: the memory path, the Report Writer's queue and the issued sweep reads. -/
theorem State.arbitrate_frame (s : State) : ∃ path waiting reads, s.arbitrate = { s with
    path := path, ring := { s.ring with waiting := waiting }, fetch := { s.fetch with sweepReads := reads } } := by
  have hserved : ∀ a, ∃ reads, s.fetch.served a = { s.fetch with sweepReads := reads } := by
    intro a
    cases a <;> exact ⟨_, rfl⟩
  have hpart : ∃ path waiting reads, s.servePart = { s with
      path := path, ring := { s.ring with waiting := waiting }, fetch := { s.fetch with sweepReads := reads } } := by
    rcases s.servePart_cases with ⟨a, rest, _, e⟩ | ⟨a, _, _, e⟩ | e
    · exact ⟨_, _, _, e⟩
    · obtain ⟨reads, h⟩ := hserved a
      exact ⟨_, s.ring.waiting, reads, by rw [e, h]⟩
    · exact ⟨_, _, _, e⟩
  rcases s.arbitrate_cases with ⟨a, n, _, _, _, e⟩ | ⟨_, e⟩ | e
  · exact ⟨_, _, _, e⟩
  · rw [e]
    exact hpart
  · exact ⟨_, _, _, e⟩

section Arbitrate
variable (s : State)

@[simp] theorem State.arbitrate_line (i : Fin 32) : s.arbitrate.fetch.line i = s.fetch.line i := by
  obtain ⟨_, _, _, h⟩ := s.arbitrate_frame
  rw [h]; rfl

@[simp] theorem State.arbitrate_area (a : Fin 8) : s.arbitrate.fetch.area a = s.fetch.area a := by
  obtain ⟨_, _, _, h⟩ := s.arbitrate_frame
  rw [h]; rfl

@[simp] theorem State.arbitrate_channel (ch : Fin 4) : s.arbitrate.fetch.channel ch = s.fetch.channel ch := by
  obtain ⟨_, _, _, h⟩ := s.arbitrate_frame
  rw [h]; rfl

@[simp] theorem State.arbitrate_areas : s.arbitrate.fetch.areas = s.fetch.areas := by
  obtain ⟨_, _, _, h⟩ := s.arbitrate_frame
  rw [h]

@[simp] theorem State.arbitrate_langs : s.arbitrate.fetch.langs = s.fetch.langs := by
  obtain ⟨_, _, _, h⟩ := s.arbitrate_frame
  rw [h]

@[simp] theorem State.arbitrate_requests : s.arbitrate.fetch.requests = s.fetch.requests := by
  obtain ⟨_, _, _, h⟩ := s.arbitrate_frame
  rw [h]

@[simp] theorem State.arbitrate_recency : s.arbitrate.fetch.recency = s.fetch.recency := by
  obtain ⟨_, _, _, h⟩ := s.arbitrate_frame
  rw [h]

@[simp] theorem State.arbitrate_languagesOf (l : List (Fin 8)) :
    s.arbitrate.fetch.languagesOf l = s.fetch.languagesOf l := by
  obtain ⟨_, _, _, h⟩ := s.arbitrate_frame
  rw [h]; rfl

@[simp] theorem State.arbitrate_ambient : s.arbitrate.ambient = s.ambient := by
  obtain ⟨_, _, _, h⟩ := s.arbitrate_frame
  rw [h]; rfl

end Arbitrate

end Sys2Proof.Machine

/-! SUPPORT. An accepted language record, and the slots and contexts that take a language which becomes READY (R79, R89, R100,
R120). -/

namespace Sys2Proof.Machine

/-! ## The first READY language of a rotation -/

/-- A rotation that holds a READY language has a first one. -/
theorem firstReady_of_mem (ready : Fin 16 → Bool) {l : Fin 16} (hl : ready l = true) (rot : List (Fin 16)) :
    ∀ n, l ∈ rot → ∃ i m, firstReady ready rot n = some (n + i, m) ∧ rot[i]? = some m ∧ ready m = true ∧
      ∀ j k, j < i → rot[j]? = some k → ready k = false := by
  induction rot with
  | nil => simp
  | cons x rot ih =>
    intro n hmem
    by_cases hx : ready x = true
    · exact ⟨0, x, by simp [firstReady, hx], rfl, hx, fun j k hj => absurd hj (Nat.not_lt_zero j)⟩
    · have hrest : l ∈ rot := (List.mem_cons.1 hmem).resolve_left fun h => hx (h ▸ hl)
      obtain ⟨i, m, hfirst, hget, hm, hbefore⟩ := ih (n + 1) hrest
      refine ⟨i + 1, m, ?_, hget, hm, fun j k hj hk => ?_⟩
      · rw [firstReady, if_neg hx, hfirst, Nat.add_assoc, Nat.add_comm 1 i]
      · cases j with
        | zero =>
          cases hk
          exact Bool.eq_false_iff.2 hx
        | succ j => exact hbefore j k (Nat.lt_of_succ_lt_succ hj) hk

/-! ## Slots -/

/-- A slot in force on NONE takes the lowest READY language (R89). -/
def OverrideSlot.refilled (ready : Fin 16 → Bool) (x : OverrideSlot) : OverrideSlot :=
  if x.record.ovrInForce && x.lang.isNone then { x with lang := lowestReady ready } else x

theorem OverrideSlot.refilled_refilled (ready : Fin 16 → Bool) (x : OverrideSlot) :
    (x.refilled ready).refilled ready = x.refilled ready := by
  unfold OverrideSlot.refilled
  split
  · split <;> rfl
  · rfl

theorem slotOf_updSlot (e : Engines) (k i : Fin 4) (g : OverrideSlot → OverrideSlot) :
    slotOf (e.updSlot k g).face.slots i = if k = i then g (slotOf e.face.slots i) else slotOf e.face.slots i := by
  have hmarks : (e.onSlot k g).Keeps (e.updSlot k g) := by
    refine Engines.Keeps.foldl _ _ (fun acc x _ => ?_) _
    split
    · exact Engines.Keeps.refl acc
    · exact Engines.Keeps.changeMark acc _ _
  rw [hmarks.slots]
  exact get_upd e.face.slots k i g

/-! ## Contexts -/

/-- An active context on NONE whose rotation holds the language takes the first READY one (R100). -/
def Context.refilled (ready : Fin 16 → Bool) (l : Fin 16) (x : Context) : Context :=
  let rot := (x.accepted.getD Rec4.zero).ploRotation
  if x.active && x.lang.isNone && rot.contains l then x.atFirst ready rot else x

theorem Context.refilled_refilled (ready : Fin 16 → Bool) (l : Fin 16) (x : Context) :
    (x.refilled ready l).refilled ready l = x.refilled ready l := by
  unfold Context.refilled
  dsimp only
  split
  · rw [atFirst_eq]
    split
    · exact atFirst_eq _ _ _
    · rfl
  · rfl

/-- With the language READY, the context takes the first READY language of its rotation with its index. -/
theorem Context.refilled_taken {ready : Fin 16 → Bool} {l : Fin 16} {x : Context} (hl : ready l = true)
    (hactive : x.active = true) (hnone : x.lang = none) (hrot : l ∈ (x.accepted.getD Rec4.zero).ploRotation) :
    ∃ i m, (x.accepted.getD Rec4.zero).ploRotation[i]? = some m ∧ ready m = true ∧
      (∀ j k, j < i → (x.accepted.getD Rec4.zero).ploRotation[j]? = some k → ready k = false) ∧
      x.refilled ready l = { x with index := i, lang := some m } := by
  obtain ⟨i, m, hfirst, hget, hm, hbefore⟩ := firstReady_of_mem ready hl _ 0 hrot
  refine ⟨i, m, hget, hm, hbefore, ?_⟩
  have hcond : (x.active && x.lang.isNone && (x.accepted.getD Rec4.zero).ploRotation.contains l) = true := by
    simp [hactive, hnone, hrot]
  unfold Context.refilled Context.atFirst
  dsimp only
  rw [if_pos hcond, hfirst, Nat.zero_add]

theorem Context.refilled_left {ready : Fin 16 → Bool} {l : Fin 16} {x : Context}
    (h : x.active = false ∨ x.lang ≠ none ∨ l ∉ (x.accepted.getD Rec4.zero).ploRotation) : x.refilled ready l = x := by
  refine if_neg fun hcond => ?_
  simp only [Bool.and_eq_true, Option.isNone_iff_eq_none, List.contains_iff_mem] at hcond
  obtain ⟨⟨hactive, hnone⟩, hrot⟩ := hcond
  rcases h with h | h | h
  · rw [h] at hactive
    cases hactive
  · exact h hnone
  · exact h hrot

theorem ctx_ctxReady (A : Ambient) (e : Engines) (l c k : Fin 16) :
    (e.ctxReady A l c).ctx k = if c = k then (e.ctx k).refilled A.ready l else e.ctx k := by
  unfold Engines.ctxReady
  dsimp only
  split
  · rename_i hcond
    rw [Engines.handTargets, ctx_handNotices, ctx_onCtx]
    by_cases h : c = k
    · subst h
      rw [if_pos rfl, if_pos rfl]
      exact (if_pos hcond).symm
    · rw [if_neg h, if_neg h]
  · rename_i hcond
    by_cases h : c = k
    · subst h
      rw [if_pos rfl]
      exact (if_neg hcond).symm
    · rw [if_neg h]

/-! ## A language that becomes READY -/

/-- The REFRESH marks of the faces that wait for the language, and the slots (log entry 37). -/
def slotsReady (A : Ambient) (e : Engines) (l : Fin 16) : Engines :=
  (List.finRange 4).foldl
    (fun acc k =>
      if (slotOf acc.face.slots k).record.ovrInForce && (slotOf acc.face.slots k).lang.isNone then
        acc.updSlot k fun x => { x with lang := lowestReady A.ready }
      else acc)
    (((e.face.faces.filter fun x => x.2.waitGlyphs.contains l).map Prod.fst).foldl Engines.refreshMark e)

theorem languageReady_eq (A : Ambient) (e : Engines) (l : Fin 16) :
    e.languageReady A l = (List.finRange 16).foldl (fun acc c => acc.ctxReady A l c) (slotsReady A e l) := rfl

theorem slotsReady_slotOf (A : Ambient) (e : Engines) (l : Fin 16) (k : Fin 4) :
    slotOf (slotsReady A e l).face.slots k = (slotOf e.face.slots k).refilled A.ready := by
  have hstep := foldl_entries (fun (e : Engines) k => slotOf e.face.slots k)
    (fun acc k =>
      if (slotOf acc.face.slots k).record.ovrInForce && (slotOf acc.face.slots k).lang.isNone then
        acc.updSlot k fun x => { x with lang := lowestReady A.ready }
      else acc) (fun _ => OverrideSlot.refilled A.ready) ?_ (fun _ x => x.refilled_refilled A.ready) (List.finRange 4)
  · unfold slotsReady
    rw [hstep, if_pos (List.mem_finRange k), (Engines.Keeps.foldl _ _ (fun b d _ => Engines.Keeps.refreshMark b d) e).slots]
  · intro acc i j
    split
    · rename_i hcond
      rw [slotOf_updSlot]
      by_cases h : i = j
      · subst h
        rw [if_pos rfl, if_pos rfl]
        exact (if_pos hcond).symm
      · rw [if_neg h, if_neg h]
    · rename_i hcond
      by_cases h : i = j
      · subst h
        rw [if_pos rfl]
        exact (if_neg hcond).symm
      · rw [if_neg h]

theorem slotsReady_ctx (A : Ambient) (e : Engines) (l c : Fin 16) : (slotsReady A e l).ctx c = e.ctx c := by
  refine (foldl_keeps (fun e : Engines => e.ctx c) _ (fun acc k => ?_) _ _).trans
    (foldl_keeps (fun e : Engines => e.ctx c) _ (fun acc d => ?_) _ _)
  · split
    · exact congrArg (ctxOf · c) (Engines.updSlot_play acc k _)
    · rfl
  · exact congrArg (ctxOf · c) (Engines.refreshMark_play acc d)

theorem languageReady_slotOf (A : Ambient) (e : Engines) (l : Fin 16) (k : Fin 4) :
    slotOf (e.languageReady A l).face.slots k = (slotOf e.face.slots k).refilled A.ready := by
  rw [languageReady_eq, (Engines.Keeps.foldl _ _ (fun b c _ => Engines.Keeps.ctxReady A b l c) _).slots, slotsReady_slotOf]

theorem languageReady_ctx (A : Ambient) (e : Engines) (l c : Fin 16) :
    (e.languageReady A l).ctx c = (e.ctx c).refilled A.ready l := by
  rw [languageReady_eq, foldl_entries Engines.ctx _ (fun _ => Context.refilled A.ready l) (ctx_ctxReady A · l)
    (fun _ x => x.refilled_refilled A.ready l), if_pos (List.mem_finRange c), slotsReady_ctx]

/-! ## The commit -/

section AcceptLanguage
variable {s : State} {l : Fin 16} {r : Rec4}

/-- The displays and contexts are told of a language that becomes READY (R120). -/
theorem acceptLanguage_told (hwas : s.fetch.ready l = false) (his : (s.fetch.setLang l r).ready l = true) :
    s.acceptLanguage l r = { s with
      fetch := s.fetch.setLang l r
      eng := s.eng.languageReady ⟨s.clock.ms, s.asm.settings, (s.fetch.setLang l r).ready⟩ l } :=
  if_pos (show (!s.fetch.ready l && (s.fetch.setLang l r).ready l) = true by rw [hwas, his]; rfl)

theorem acceptLanguage_untold (h : s.fetch.ready l = true ∨ (s.fetch.setLang l r).ready l = false) :
    s.acceptLanguage l r = { s with fetch := s.fetch.setLang l r } := by
  refine if_neg (show ¬ (!s.fetch.ready l && (s.fetch.setLang l r).ready l) = true from ?_)
  rcases h with h | h <;> simp [h]

/-- The language takes its record, and else the engines alone act. -/
theorem acceptLanguage_frame (s : State) (l : Fin 16) (r : Rec4) :
    s.acceptLanguage l r = { s with fetch := s.fetch.setLang l r, eng := (s.acceptLanguage l r).eng } := by
  by_cases h : s.fetch.ready l = true ∨ (s.fetch.setLang l r).ready l = false
  · rw [acceptLanguage_untold h]
  · rw [not_or, Bool.not_eq_true, Bool.not_eq_false] at h
    obtain ⟨hwas, his⟩ := h
    rw [acceptLanguage_told hwas his]

theorem acceptLanguage_fetch (s : State) (l : Fin 16) (r : Rec4) :
    (s.acceptLanguage l r).fetch = s.fetch.setLang l r := congrArg State.fetch (acceptLanguage_frame s l r)

theorem acceptLanguage_eng_told (hwas : s.fetch.ready l = false) (his : (s.fetch.setLang l r).ready l = true) :
    (s.acceptLanguage l r).eng = s.eng.languageReady (s.acceptLanguage l r).ambient l := by
  simp only [acceptLanguage_told hwas his, State.ambient]

theorem acceptLanguage_ready (s : State) (l : Fin 16) (r : Rec4) :
    (s.acceptLanguage l r).ambient.ready = (s.fetch.setLang l r).ready :=
  congrArg FetchUnit.ready (acceptLanguage_fetch s l r)

end AcceptLanguage

/-- Settles O37: who is told by `acceptLanguage_told` and `acceptLanguage_untold`, what the slots and contexts take by
`languageReady_slotOf` and `languageReady_ctx`. -/
theorem languageCommitTakesTheRecord : Obligations.LanguageCommitTakesTheRecord := by
  intro s l h r
  refine ⟨_, exec_languageCommit_accepted h, acceptLanguage_frame _ l r, ?_⟩
  rw [acceptLanguage_fetch]
  have htold := @acceptLanguage_eng_told s.handedOver l r
  refine ⟨s.fetch.ready_setLang_self l r, fun k hk => s.fetch.ready_setLang_other r hk,
    fun hquiet => by rw [acceptLanguage_untold (s := s.handedOver) hquiet, State.handedOver_eng], htold, fun hwas his => ?_⟩
  rw [htold hwas his]
  refine ⟨fun k => ?_, fun c => ?_⟩
  · rw [languageReady_slotOf, acceptLanguage_ready]
    simp only [OverrideSlot.refilled, Bool.and_eq_true, Option.isNone_iff_eq_none]
    rfl
  · intro x rotation
    rw [languageReady_ctx, acceptLanguage_ready]
    exact ⟨Context.refilled_taken his, Context.refilled_left⟩

end Sys2Proof.Machine

/-! SUPPORT. LOAD_GLYPHS: the loads it abandons, the areas it empties and begins to load, its checks, and the commands that are
refused (R115 to R117, R169). -/

namespace Sys2Proof.Machine

/-! ## Loads that are stopped -/

/-- A job is a load of one of a list of areas. -/
def Job.loadsIn (areas : List (Fin 8)) : Job → Bool
  | .glyph a _ _ => areas.contains a
  | .text _ _ _ _ _ _ _ _ _ => false
  | .sweep _ _ _ _ _ => false

namespace FetchUnit

theorem loadsOn_eq (f : FetchUnit) (areas : List (Fin 8)) (ch : Fin 4) :
    f.loadsOn areas ch = (f.channel ch).any (Job.loadsIn areas) := by
  unfold loadsOn
  cases f.channel ch with
  | none => rfl
  | some j => cases j <;> rfl

theorem stopLoads_eq (f : FetchUnit) (areas : List (Fin 8)) : f.stopLoads areas =
    (List.finRange 4).foldl (fun acc ch => if acc.loadsOn areas ch then acc.setChannel ch none else acc) f := by
  unfold stopLoads
  congr
  funext acc ch
  unfold loadsOn
  cases acc.channel ch with
  | none => rfl
  | some j => cases j <;> rfl

/-- A channel is freed exactly when it carries a load of one of the areas. -/
theorem stopLoads_channel (f : FetchUnit) (areas : List (Fin 8)) (ch : Fin 4) :
    (f.stopLoads areas).channel ch = if f.loadsOn areas ch then none else f.channel ch := by
  rw [stopLoads_eq, foldl_entries FetchUnit.channel _ (fun _ j => if j.any (Job.loadsIn areas) then none else j),
    if_pos (List.mem_finRange ch), loadsOn_eq]
  · intro g k i
    rw [loadsOn_eq]
    by_cases hk : k = i
    · subst hk
      by_cases hj : (g.channel k).any (Job.loadsIn areas) = true <;> simp [hj]
    · rw [if_neg hk]
      split
      · exact channel_setChannel_other g none fun h => hk h.symm
      · rfl
  · intro _ j
    by_cases hj : j.any (Job.loadsIn areas) = true <;> simp [hj]

theorem stopLoads_besideLoads (f : FetchUnit) (areas : List (Fin 8)) :
    (f.stopLoads areas).besideLoads = f.besideLoads := by
  rw [stopLoads_eq]
  exact foldl_keeps besideLoads _ (fun g ch => by split <;> rfl) _ f

theorem stopLoads_areas (f : FetchUnit) (areas : List (Fin 8)) : (f.stopLoads areas).areas = f.areas := by
  rw [stopLoads_eq]
  exact foldl_keeps FetchUnit.areas _ (fun g ch => by split <;> rfl) _ f

theorem stopLoads_requests (f : FetchUnit) (areas : List (Fin 8)) : (f.stopLoads areas).requests = f.requests := by
  rw [stopLoads_eq]
  exact foldl_keeps FetchUnit.requests _ (fun g ch => by split <;> rfl) _ f

theorem abandonLoads_channel (f : FetchUnit) (areas : List (Fin 8)) (ch : Fin 4) :
    (f.abandonLoads areas).channel ch = if f.loadsOn areas ch then none else f.channel ch := stopLoads_channel _ areas ch

theorem abandonLoads_besideLoads (f : FetchUnit) (areas : List (Fin 8)) :
    (f.abandonLoads areas).besideLoads = f.besideLoads := stopLoads_besideLoads _ areas

theorem abandonLoads_area (f : FetchUnit) (areas : List (Fin 8)) (b : Fin 8) :
    (f.abandonLoads areas).area b = f.area b := congrArg (·[b]) (stopLoads_areas _ areas)

theorem abandonLoads_requests (f : FetchUnit) (areas : List (Fin 8)) :
    (f.abandonLoads areas).requests = f.requests.filter fun q => !areas.any fun b => q.loads b := stopLoads_requests _ areas

/-! ## Areas that are emptied -/

theorem emptyAreas_area (f : FetchUnit) (areas : List (Fin 8)) (b : Fin 8) :
    (f.emptyAreas areas).area b = if b ∈ areas then Area.reset else f.area b :=
  area_foldl_onArea (fun _ _ => Area.reset) (fun _ _ => rfl) areas f b

theorem emptyAreas_besideLoads (f : FetchUnit) (areas : List (Fin 8)) :
    (f.emptyAreas areas).besideLoads = f.besideLoads :=
  foldl_onArea_keeps besideLoads (fun _ _ _ => rfl) (fun _ _ => Area.reset) areas f

theorem emptyAreas_requests (f : FetchUnit) (areas : List (Fin 8)) : (f.emptyAreas areas).requests = f.requests :=
  foldl_onArea_keeps FetchUnit.requests (fun _ _ _ => rfl) (fun _ _ => Area.reset) areas f

theorem emptyAreas_channel (f : FetchUnit) (areas : List (Fin 8)) (ch : Fin 4) :
    (f.emptyAreas areas).channel ch = f.channel ch :=
  foldl_onArea_keeps (channel · ch) (fun _ _ _ => rfl) (fun _ _ => Area.reset) areas f

/-! ## The banks of a load -/

theorem touched_none (f : FetchUnit) (a : Fin 8) : f.touched a 0 = f.bankOf a := by
  simp [touched, loadedAreas]

theorem mem_bankOf (f : FetchUnit) (a : Fin 8) : a ∈ f.bankOf a := by
  unfold bankOf
  split
  · exact List.mem_cons_self
  · have hpair : ∀ a : Fin 8, a ∈ [evenArea a, oddArea a] := by decide
    exact hpair a

theorem pair_mem_bankOf (f : FetchUnit) {a : Fin 8} (h : (f.area a).role ≠ .single) :
    evenArea a ∈ f.bankOf a ∧ oddArea a ∈ f.bankOf a := by
  simp [bankOf, h]

/-! ## A bank emptied, a load begun -/

section StartLoad
variable (f : FetchUnit) (a : Fin 8) (src pitch : Nat)

/-- The banks of the areas that are loaded, their loads abandoned and their areas EMPTY (R116 steps 1 and 2, R117). -/
def cleared (banks : List (Fin 8)) : FetchUnit := (f.abandonLoads banks).emptyAreas banks

theorem cleared_area (banks : List (Fin 8)) (b : Fin 8) :
    (f.cleared banks).area b = if b ∈ banks then ⟨.empty, .single, 0, []⟩ else f.area b := by
  unfold cleared
  rw [emptyAreas_area, abandonLoads_area]
  rfl

theorem cleared_requests (banks : List (Fin 8)) :
    (f.cleared banks).requests = f.requests.filter fun q => !banks.any fun b => q.loads b := by
  unfold cleared
  rw [emptyAreas_requests, abandonLoads_requests]

theorem cleared_channel (banks : List (Fin 8)) (ch : Fin 4) :
    (f.cleared banks).channel ch = if f.loadsOn banks ch then none else f.channel ch := by
  unfold cleared
  rw [emptyAreas_channel, abandonLoads_channel]

theorem cleared_besideLoads (banks : List (Fin 8)) : (f.cleared banks).besideLoads = f.besideLoads := by
  unfold cleared
  rw [emptyAreas_besideLoads, abandonLoads_besideLoads]

theorem startLoad_none : f.startLoad a src pitch 0 = f.cleared (f.bankOf a) := by
  rw [← touched_none]
  rfl

/-- An area that begins to load (R116 step 3). -/
def loadingArea (count : Nat) (b : Fin 8) : Area := ⟨.loading, loadedRole count b, count, []⟩

variable {count : Nat}

theorem startLoad_some (h : count ≠ 0) :
    let begun := (loadedAreas a count).foldl (fun f b => f.onArea b fun _ => loadingArea count b)
      (f.cleared (f.touched a count))
    f.startLoad a src pitch count = { begun with requests := begun.requests ++ [.glyph a src pitch count 0] } := if_neg h

theorem startLoad_area (h : count ≠ 0) (b : Fin 8) : (f.startLoad a src pitch count).area b =
    if b ∈ loadedAreas a count then loadingArea count b
    else (f.cleared (f.touched a count)).area b := by
  rw [startLoad_some f a src pitch h]
  exact area_foldl_onArea (fun b _ => loadingArea count b) (fun _ _ => rfl) _ _ b

theorem startLoad_requests (h : count ≠ 0) : (f.startLoad a src pitch count).requests =
    (f.cleared (f.touched a count)).requests ++ [.glyph a src pitch count 0] := by
  rw [startLoad_some f a src pitch h]
  exact congrArg (· ++ _)
    (foldl_onArea_keeps FetchUnit.requests (fun _ _ _ => rfl) (fun b _ => loadingArea count b) _ _)

theorem startLoad_besideLoads (count : Nat) : (f.startLoad a src pitch count).besideLoads = f.besideLoads := by
  by_cases h : count = 0
  · subst h
    rw [startLoad_none]
    exact f.cleared_besideLoads _
  · rw [startLoad_some f a src pitch h]
    exact (foldl_onArea_keeps besideLoads (fun _ _ _ => rfl) (fun b _ => loadingArea count b) _ _).trans
      (f.cleared_besideLoads _)

end StartLoad

end FetchUnit

/-! ## The commands of the command record -/

section HandedCommand
variable {s : State} (hup : s.resetLow = false) (hcmd : s.asm.handed = some .command)
include hcmd

theorem handedCommand_eq : s.handedCommand = some (s.staged4 0x10) := by
  unfold State.handedCommand
  rw [hcmd]

include hup

theorem exec_restart_eq : exec .restart s =
    .next (if (s.staged4 0x10).cmdOpcode = opRestart then s.handedOver.restart else s) := by
  refine (whenUp_next _ hup).trans ?_
  unfold State.restartCommand
  rw [handedCommand_eq hcmd]

theorem exec_sweep_eq : exec .sweep s =
    .next (if (s.staged4 0x10).cmdOpcode = opSweep then s.handedOver.sweep (s.staged4 0x10) else s) := by
  refine (whenUp_next _ hup).trans ?_
  unfold State.sweepCommand
  rw [handedCommand_eq hcmd]

theorem exec_loadGlyphs_eq : exec .loadGlyphs s =
    .next (if (s.staged4 0x10).cmdOpcode = opLoadGlyphs then s.handedOver.loadGlyphs (s.staged4 0x10) else s) := by
  refine (whenUp_next _ hup).trans ?_
  unfold State.loadGlyphsCommand
  rw [handedCommand_eq hcmd]

theorem exec_badOpcode_eq : exec .badOpcode s =
    .next (if knownOpcode (s.staged4 0x10).cmdOpcode then s
      else s.handedOver.report (.commandRefused (s.staged4 0x10).cmdOpcode .badOpcode)) := by
  refine (whenUp_next _ hup).trans ?_
  unfold State.badOpcode
  rw [handedCommand_eq hcmd]

/-- A LOAD_GLYPHS that passes its checks is carried out and reports. -/
theorem exec_loadGlyphs_accepted {a : Fin 8} (hop : (s.staged4 0x10).cmdOpcode = 3)
    (hcheck : s.fetch.checkLoad (s.staged4 0x10) = .ok a) :
    exec .loadGlyphs s = .next ((s.handedOver.beginLoad a (s.staged4 0x10)).report (.commandDone 3)) := by
  rw [exec_loadGlyphs_eq hup hcmd, if_pos hop]
  unfold State.loadGlyphs
  rw [State.handedOver_fetch, hcheck]

theorem exec_loadGlyphs_refused {why : Reason} (hop : (s.staged4 0x10).cmdOpcode = 3)
    (hcheck : s.fetch.checkLoad (s.staged4 0x10) = .error why) :
    exec .loadGlyphs s = .next (s.handedOver.report (.commandRefused 3 why)) := by
  rw [exec_loadGlyphs_eq hup hcmd, if_pos hop]
  unfold State.loadGlyphs
  rw [State.handedOver_fetch, hcheck]

end HandedCommand

theorem knownOpcode_iff (w : Word) : knownOpcode w = true ↔ w = 1 ∨ w = 2 ∨ w = 3 := by
  simp [knownOpcode, or_assoc]

/-! ## The checks of a load (R115) -/

section CheckLoad
variable {f : FetchUnit} {r : Rec4} {a : Fin 8}

theorem checkLoad_badArea (h : 7 < r.cmdArea) : f.checkLoad r = .error .badArea := by
  unfold FetchUnit.checkLoad toFin
  rw [dif_neg (by omega)]

variable (harea : r.cmdArea = a.val)
include harea

/-- The checks behind that of the area, each as it stands. -/
theorem checkLoad_eq : f.checkLoad r =
    if 512 < r.cmdCount then .error .badCount
    else if 256 < r.cmdCount ∧ a.val % 2 = 1 then .error .badArea
    else if r.cmdCount = 0 then .ok a
    else if r.cmdPitch < 32 ∨ 65532 < r.cmdPitch ∨ r.cmdPitch % 4 ≠ 0 then .error .badPitch
    else if r.cmdSource % 4 ≠ 0 ∨ Config.addressSpace ≤ r.cmdSource + (r.cmdCount - 1) * r.cmdPitch + 31 then
      .error .badSource
    else if (f.requests.filter Request.isGlyph).length < Config.glyphPlaces ∨
        ((loadedAreas a r.cmdCount).flatMap f.bankOf).any (fun b => f.requests.any (·.loads b)) then .ok a
    else .error .busy := by
  unfold FetchUnit.checkLoad
  rw [harea, toFin_val]

theorem checkLoad_none (hn : r.cmdCount = 0) : f.checkLoad r = .ok a := by
  rw [checkLoad_eq harea, hn]
  rfl

end CheckLoad

/-! ## A load begun, a bank emptied -/

/-- The Fetch Unit of a state, apart. -/
theorem State.eq_with_fetch {t : State} {f : FetchUnit} (h : t.fetch = f) : t = { t with fetch := f } := by rw [← h]

theorem beginLoad_none (s : State) (a : Fin 8) {r : Rec4} (hn : r.cmdCount = 0) : s.beginLoad a r = { s with
    fetch := s.fetch.cleared (s.fetch.bankOf a)
    path := { s.path with port := discardFor (s.fetch.loadsOn (s.fetch.bankOf a)) s.path.port } } := by
  unfold State.beginLoad
  dsimp only
  rw [hn, FetchUnit.startLoad_none, FetchUnit.touched_none]

/-- A language whose area is emptied is not READY. -/
theorem ready_cleared (f : FetchUnit) {banks : List (Fin 8)} {l : Fin 16} {b : Fin 8}
    (hl : (f.lang l).langArea = some b) (hb : b ∈ banks) : (f.cleared banks).ready l = false := by
  have hlangs : (f.cleared banks).lang l = f.lang l :=
    congrArg (fun x => x.2.2.1[l]) (f.cleared_besideLoads banks)
  unfold FetchUnit.ready
  rw [hlangs, hl]
  dsimp only
  rw [f.cleared_area banks b, if_pos hb]
  rfl

/-- Settles O40: the bank is emptied by `FetchUnit.cleared`, whose lemmas say what becomes of areas, requests and
channels. -/
theorem loadGlyphsOfNoneEmptiesTheBank : Obligations.LoadGlyphsOfNoneEmptiesTheBank := by
  intro s a hup hcmd hop harea hcount bank
  have hexec := exec_loadGlyphs_accepted hup hcmd hop (checkLoad_none (f := s.fetch) harea hcount)
  rw [beginLoad_none _ a hcount] at hexec
  refine ⟨_, hexec, State.eq_with_fetch (FetchUnit.eq_of_besideLoads (s.fetch.cleared_besideLoads bank)),
    fun b hb => ?_, fun b hb => ?_, s.fetch.cleared_requests bank, s.fetch.cleared_channel bank,
    fun l b hl hb => ready_cleared s.fetch hl hb, s.fetch.mem_bankOf a, s.fetch.pair_mem_bankOf⟩
  · exact (s.fetch.cleared_area bank b).trans (if_pos hb)
  · exact (s.fetch.cleared_area bank b).trans (if_neg hb)

/-- A LOAD_GLYPHS with a count begins its load (R116). -/
theorem loadGlyphs_begins {s : State} {a : Fin 8} (hup : s.resetLow = false) (hcmd : s.asm.handed = some .command)
    (hop : (s.staged4 0x10).cmdOpcode = 3) (hcheck : s.fetch.checkLoad (s.staged4 0x10) = .ok a)
    (hcount : (s.staged4 0x10).cmdCount ≠ 0) :
    let r := s.staged4 0x10
    let loaded := loadedAreas a r.cmdCount
    let banks := loaded.flatMap s.fetch.bankOf
    ∃ t, exec .loadGlyphs s = .next t ∧
      t = { s with
        asm := { s.asm with handed := none }
        path := { s.path with port := t.path.port }
        fetch := { s.fetch with areas := t.fetch.areas, channels := t.fetch.channels, requests := t.fetch.requests }
        eng := s.eng.report s.ambient (.commandDone 3) } ∧
      (∀ b ∈ loaded, t.fetch.area b = ⟨.loading, loadedRole r.cmdCount b, r.cmdCount, []⟩) ∧
      (∀ b ∈ banks, b ∉ loaded → t.fetch.area b = ⟨.empty, .single, 0, []⟩) ∧
      (∀ b, b ∉ loaded → b ∉ banks → t.fetch.area b = s.fetch.area b) ∧
      t.fetch.requests = (s.fetch.requests.filter fun q => !banks.any fun b => q.loads b) ++
        [.glyph a r.cmdSource r.cmdPitch r.cmdCount 0] := by
  intro r loaded banks
  have harea := s.fetch.startLoad_area a r.cmdSource r.cmdPitch hcount
  refine ⟨_, exec_loadGlyphs_accepted hup hcmd hop hcheck,
    State.eq_with_fetch (FetchUnit.eq_of_besideLoads (s.fetch.startLoad_besideLoads a _ _ r.cmdCount)),
    fun b hb => (harea b).trans (if_pos hb), fun b hb hl => ?_, fun b hl hb => ?_, ?_⟩
  · exact ((harea b).trans (if_neg hl)).trans ((s.fetch.cleared_area _ b).trans (if_pos hb))
  · exact ((harea b).trans (if_neg hl)).trans ((s.fetch.cleared_area _ b).trans (if_neg hb))
  · exact (s.fetch.startLoad_requests a r.cmdSource r.cmdPitch hcount).trans
      (congrArg (· ++ _) (s.fetch.cleared_requests banks))

/-! ## The checks as a list, and the statement -/

/-- What a list of checks answers: the reason of the first that fails, else `ok`. -/
def firstFailure {α : Type} (ok : α) (checks : List (Bool × Reason)) : Except Reason α :=
  (checks.find? fun x => !x.1).elim (.ok ok) fun x => .error x.2

theorem firstFailure_cons {α : Type} (ok : α) (c : Bool) (why : Reason) (checks : List (Bool × Reason)) :
    firstFailure ok ((c, why) :: checks) = if c then firstFailure ok checks else .error why := by
  cases c <;> rfl

/-- One check of such a list, against the same check made by its failure. -/
theorem ite_failed_eq_ite_passed {α : Type} {failed : Prop} [Decidable failed] {passed : Bool} {why : Reason}
    {x y : Except Reason α}
    (hcheck : passed = true ↔ ¬ failed) (hrest : ¬ failed → x = y) :
    (if failed then .error why else x) = if passed then y else .error why := by
  by_cases h : failed
  · rw [if_pos h, if_neg fun hp => hcheck.1 hp h]
  · rw [if_neg h, if_pos (hcheck.2 h), hrest h]

/-- The checks behind that of the area in their order, the first that fails giving the reason (R115). -/
theorem checkLoad_firstFailure (f : FetchUnit) (r : Rec4) {a : Fin 8} (harea : r.cmdArea = a.val) :
    f.checkLoad r = firstFailure a [
      (decide (r.cmdCount ≤ 512), .badCount),
      (decide (r.cmdCount ≤ 256) || a.val % 2 == 0, .badArea),
      (r.cmdCount == 0 || (decide (32 ≤ r.cmdPitch) && decide (r.cmdPitch ≤ 65532) && r.cmdPitch % 4 == 0), .badPitch),
      (r.cmdCount == 0 || (r.cmdSource % 4 == 0 &&
        decide (r.cmdSource + (r.cmdCount - 1) * r.cmdPitch + 31 ≤ 0x3FFFFFF)), .badSource),
      (r.cmdCount == 0 || decide ((f.requests.filter Request.isGlyph).length < 4) ||
        ((loadedAreas a r.cmdCount).flatMap f.bankOf).any (fun b => f.requests.any fun q => q.loads b), .busy)] := by
  rw [checkLoad_eq harea]
  simp only [firstFailure_cons]
  refine ite_failed_eq_ite_passed (by simp) fun hmany => ite_failed_eq_ite_passed (by simp; omega) fun hodd => ?_
  by_cases hnone : r.cmdCount = 0
  · rw [hnone]
    rfl
  rw [if_neg hnone, beq_eq_false_iff_ne.2 hnone]
  simp only [Bool.false_or]
  refine ite_failed_eq_ite_passed (by simp; omega) fun hpitch => ite_failed_eq_ite_passed ?_ fun hsource => ?_
  · simp [Config.addressSpace]
    omega
  · simp only [Bool.or_eq_true, decide_eq_true_eq]
    rfl

/-- Settles O41: the load by `loadGlyphs_begins`, each refused command by the equation of its step, the checks by
`checkLoad_firstFailure`. -/
theorem loadGlyphsBeginsTheLoad : Obligations.LoadGlyphsBeginsTheLoad := by
  refine ⟨fun s a hup hcmd hop hcheck hcount => loadGlyphs_begins hup hcmd hop hcheck hcount, fun s hup hcmd => ?_,
    fun f r => ?_⟩
  · intro r
    refine ⟨fun why hop hcheck => exec_loadGlyphs_refused hup hcmd hop hcheck, fun h1 h2 h3 => ?_, fun h => ?_, fun h => ?_,
      fun h => ?_, fun h => ?_⟩
    · rw [exec_badOpcode_eq hup hcmd, if_neg]
      · rfl
      · rw [knownOpcode_iff]
        rintro (h | h | h)
        · exact h1 h
        · exact h2 h
        · exact h3 h
    · rw [exec_restart_eq hup hcmd, if_neg h]
    · rw [exec_sweep_eq hup hcmd, if_neg h]
    · rw [exec_loadGlyphs_eq hup hcmd, if_neg h]
    · rw [exec_badOpcode_eq hup hcmd, if_pos ((knownOpcode_iff _).2 h)]
  · intro count pitch source
    refine ⟨checkLoad_badArea, fun a harea => ?_⟩
    intro banks failed
    have hfirst : f.checkLoad r = failed.elim (.ok a) fun x => .error x.2 := checkLoad_firstFailure f r harea
    rw [hfirst]
    cases failed <;> rfl

end Sys2Proof.Machine

/-! SUPPORT. A channel that takes a request, and the end of a text fill, which a message record past the top reaches at once
(R108, R111, R112, R118, R121 to R123). -/

namespace Sys2Proof.Machine

namespace FetchUnit

/-! ## The first waiting request (R122) -/

theorem active_eq (f : FetchUnit) (q : Request) :
    f.active q = (List.finRange 4).any fun ch => (f.channel ch).any fun j => j.carries q := by
  have hcarriers : f.carriers q = (List.finRange 4).filter fun ch => (f.channel ch).any fun j => j.carries q := by
    unfold carriers
    congr
    funext ch
    cases f.channel ch <;> rfl
  unfold active
  rw [hcarriers, Bool.eq_iff_iff]
  simp

theorem nextWaiting_eq (f : FetchUnit) : f.nextWaiting =
    ((f.requests.find? fun q => q.isSweep && !f.active q).or (f.requests.find? fun q => q.isText && !f.active q)).or
      (f.requests.find? fun q => q.isGlyph && !f.active q) := by
  unfold nextWaiting byPriority
  simp only [List.find?_append, List.find?_filter, Bool.decide_and, Bool.decide_eq_true]

/-! ## The end of a fill (R112) -/

section CompleteFill
variable (f : FetchUnit) (ch : Fin 4) (t : Tag) (i : Fin 32) (codes : List Code)

/-- A line that was written meanwhile is filled again. -/
theorem completeFill_stale (h : (f.line i).state = .fillingStale) : f.completeFill ch t i codes =
    ((f.onLine i fun x => { x with state := .filling, watch := none }).setChannel ch (some (messageJob t i)), none) :=
  if_pos h

theorem completeFill_valid (h : (f.line i).state ≠ .fillingStale) : f.completeFill ch t i codes =
    (({ f.onLine i (fun x => { x with state := .valid, codes := codes }) with
        recency := i :: f.recency.erase i, requests := f.requests.erase (.text t) } : FetchUnit).setChannel ch none,
      some t) := if_neg h

end CompleteFill

/-! ## A request is taken -/

/-- The line of a fill that begins (R111). -/
def beginFill (f : FetchUnit) (ch : Fin 4) (t : Tag) : FetchUnit :=
  ({ f.onLine f.chooseLine (fun _ => ⟨.filling, t, [], none⟩) with recency := f.recency.erase f.chooseLine } :
    FetchUnit).setChannel ch (some (messageJob t f.chooseLine))

theorem line_beginFill_self (f : FetchUnit) (ch : Fin 4) (t : Tag) :
    (f.beginFill ch t).line f.chooseLine = ⟨.filling, t, [], none⟩ := line_onLine_self f _ _

theorem line_beginFill_other (f : FetchUnit) (ch : Fin 4) (t : Tag) {i : Fin 32} (h : i ≠ f.chooseLine) :
    (f.beginFill ch t).line i = f.line i := line_onLine_other f _ h

variable (f : FetchUnit) (windows : Vector Rec4 5) (ch : Fin 4) (t : Tag)

theorem take_text (h : t.pastTop = false) : f.take windows ch (.text t) = (f.beginFill ch t, none) :=
  if_neg (by simp [h])

theorem take_text_pastTop (h : t.pastTop = true) :
    f.take windows ch (.text t) = (f.beginFill ch t).completeFill ch t f.chooseLine [] := if_pos h

/-- A channel that takes a request leaves the other channels, the areas and the language table alone. -/
theorem take_rest (q : Request) : (∀ k, k ≠ ch → (f.take windows ch q).1.channel k = f.channel k) ∧
    (f.take windows ch q).1.areas = f.areas ∧ (f.take windows ch q).1.langs = f.langs := by
  cases q with
  | sweep w m => exact ⟨fun k hk => channel_setChannel_other f _ hk, rfl, rfl⟩
  | glyph a src pitch count progress => exact ⟨fun k hk => channel_setChannel_other f _ hk, rfl, rfl⟩
  | text t =>
    have hbegin : ∀ k, k ≠ ch → (f.beginFill ch t).channel k = f.channel k := fun k hk => channel_setChannel_other _ _ hk
    cases ht : t.pastTop with
    | false =>
      rw [take_text f windows ch t ht]
      exact ⟨hbegin, rfl, rfl⟩
    | true =>
      rw [take_text_pastTop f windows ch t ht, completeFill_valid _ _ _ _ _ (by rw [line_beginFill_self]; simp)]
      exact ⟨fun k hk => (channel_setChannel_other _ _ hk).trans (hbegin k hk), rfl, rfl⟩

end FetchUnit

/-! ## The faces are told (R78, R112) -/

/-- What a step of a text channel changes: the memory path, the Report Writer's queue, the Fetch Unit, and the faces. -/
theorem told_arbitrate_frame (s : State) (f : FetchUnit) (told : Option Tag) :
    let t := (State.tellFilled { s with fetch := f } told).arbitrate
    t = { s with
      path := t.path, ring := { s.ring with waiting := t.ring.waiting }, fetch := t.fetch
      eng := { s.eng with face := { s.eng.face with faces := t.eng.face.faces } } } := by
  intro t
  obtain ⟨path, waiting, reads, h⟩ := (State.tellFilled { s with fetch := f } told).arbitrate_frame
  have ht : t = _ := h
  rw [ht]
  cases told <;> rfl

/-! ## The step -/

theorem exec_fetchChannelTake_taken {s : State} {ch : Fin 4} {q : Request} (hup : s.resetLow = false)
    (hidle : s.fetch.channel ch = none) (hq : s.fetch.nextWaiting = some q) :
    exec (.fetchChannelTake ch) s = .next (State.arbitrate
      (State.tellFilled { s with fetch := (s.fetch.take s.path.windows ch q).1 } (s.fetch.take s.path.windows ch q).2)) := by
  refine (whenUp_next (·.channelTake ch) hup).trans ?_
  unfold State.channelTake
  rw [hidle, hq]

/-- Settles O42: the request by `FetchUnit.nextWaiting_eq`, its job and its line by the equations of `FetchUnit.take`. -/
theorem channelTakesTheFirstWaiting : Obligations.ChannelTakesTheFirstWaiting := by
  refine ⟨fun f => ?_, fun s ch q hup hidle hq => ?_⟩
  · intro waits
    have hwaits : ∀ q, waits q = !f.active q := fun q => by
      rw [FetchUnit.active_eq, List.not_any_eq_all_not]
    simp only [hwaits]
    exact f.nextWaiting_eq
  · obtain ⟨hothers, hareas, hlangs⟩ := s.fetch.take_rest s.path.windows ch q
    refine ⟨_, exec_fetchChannelTake_taken hup hidle hq, told_arbitrate_frame _ _ _, ?_⟩
    simp only [State.arbitrate_channel, State.arbitrate_areas, State.arbitrate_langs, State.arbitrate_requests,
      State.arbitrate_line, State.tellFilled_fetch]
    refine ⟨hothers, hareas, hlangs, ?_, ?_, fun x hx htop => ?_, fun x hx htop => ?_⟩
    · rintro w m rfl
      exact ⟨rfl, FetchUnit.channel_setChannel_self _ _ _⟩
    · rintro a src pitch count progress rfl
      exact ⟨rfl, FetchUnit.channel_setChannel_self _ _ _⟩
    · rw [hx, FetchUnit.take_text _ _ _ _ htop]
      exact ⟨rfl, s.fetch.line_beginFill_self ch x, fun i hi => s.fetch.line_beginFill_other ch x hi,
        FetchUnit.channel_setChannel_self _ _ _⟩
    · rw [hx, FetchUnit.take_text_pastTop _ _ _ _ htop, FetchUnit.completeFill_valid _ _ _ _ _
        (by rw [FetchUnit.line_beginFill_self]; simp)]
      refine ⟨FetchUnit.channel_setChannel_self _ _ _, ?_⟩
      have hline := FetchUnit.line_onLine_self (s.fetch.beginFill ch x) s.fetch.chooseLine
        fun y => { y with state := .valid, codes := [] }
      exact ⟨congrArg Line.state hline, congrArg Line.codes hline⟩

end Sys2Proof.Machine

/-! SUPPORT. A text fill through its transfers and to its end (R107, R111, R112). -/

namespace Sys2Proof.Machine

/-! ## The transfers of a fill (R112) -/

namespace FetchUnit

section TextDone
variable {f : FetchUnit} {ch : Fin 4} {t : Tag} {i : Fin 32} {next str len : Nat} {got : List Word} {codes : List Code}

theorem textDone_message (h : f.channel ch = some (.text t i .message next 0 got str len codes)) :
    f.textDone ch = f.messageDone ch t i got := by
  unfold textDone
  rw [h]
  rfl

theorem textDone_length (h : f.channel ch = some (.text t i .length next 0 got str len codes)) :
    f.textDone ch = f.lengthDone ch t i str (got.getD 0 0) := by
  unfold textDone
  rw [h]
  rfl

theorem textDone_code (h : f.channel ch = some (.text t i .code next 0 got str len codes)) :
    f.textDone ch = f.completeFill ch t i ((codes ++ got.flatMap codesOf).take len) := by
  unfold textDone
  rw [h]
  rfl

/-- An untranslated language ends the fill with an empty string. -/
theorem messageDone_none (h : stringPointer t got = none) : f.messageDone ch t i got = f.completeFill ch t i [] := by
  unfold messageDone
  rw [h]

/-- The message names the string: its length is read next, and the watched range takes the longest it can be. -/
theorem messageDone_some {at' : Nat} (h : stringPointer t got = some at') : f.messageDone ch t i got =
    ((f.onLine i fun x => { x with watch := some (at', 98) }).setChannel ch
      (some (.text t i .length (at' - at' % 4) 1 [] at' 0 [])), none) := by
  unfold messageDone
  rw [h]

/-- The length and the code in its word: the codes that are not read yet are read next, and the watched range is cut to the
string. -/
theorem lengthDone_some {w : Word} :
    let n := min 48 (if str % 4 = 0 then bitsN w 0 16 else bitsN w 16 16)
    let first := if str % 4 = 0 ∧ 1 ≤ n then [w.extractLsb' 16 16] else []
    str + 2 + 2 * n ≤ Config.addressSpace → first.length < n → f.lengthDone ch t i str w =
      ((f.onLine i fun x => { x with watch := some (str, 2 + 2 * n) }).setChannel ch
        (some (.text t i .code (if str % 4 = 0 then str + 4 else str + 2) ((n - first.length + 1) / 2) [] str n first)),
        none) := by
  intro n first hfits hmore
  unfold lengthDone
  exact (if_neg (Nat.not_lt.2 hfits)).trans (if_neg (Nat.sub_ne_zero_of_lt hmore))

end TextDone

end FetchUnit

/-! ## The step -/

theorem exec_textFillTransferComplete_eq {s : State} (ch : Fin 4) (hup : s.resetLow = false) :
    exec (.textFillTransferComplete ch) s = .next (State.arbitrate
      (State.tellFilled { s with fetch := (s.fetch.textDone ch).1 } (s.fetch.textDone ch).2)) :=
  whenUp_next (·.textTransferComplete ch) hup

/-- A face that has been told of a tag does not wait for it. -/
theorem textFilled_waits (e : Engines) (x : Tag) : ∀ y ∈ (e.textFilled x).face.faces, y.2.waitText ≠ some x := by
  intro y hy
  obtain ⟨z, _, rfl⟩ := List.mem_map.1 hy
  dsimp only
  split
  · simp
  · assumption

section FillEnds
variable {s : State} {ch : Fin 4} {x : Tag} {i : Fin 32} {codes : List Code}

/-- The end of a fill whose line nothing has written. -/
theorem fill_becomes_valid (hup : s.resetLow = false) (hdone : s.fetch.textDone ch = s.fetch.completeFill ch x i codes)
    (hline : (s.fetch.line i).state = .filling) : ∃ t, exec (.textFillTransferComplete ch) s = .next t ∧
      t = { s with
        path := t.path, ring := { s.ring with waiting := t.ring.waiting }, fetch := t.fetch
        eng := { s.eng with face := { s.eng.face with faces := t.eng.face.faces } } } ∧
      (t.fetch.line i).state = .valid ∧ (t.fetch.line i).codes = codes ∧ t.fetch.recency.head? = some i ∧
      (∀ j, j ≠ i → t.fetch.line j = s.fetch.line j) ∧ t.fetch.requests = s.fetch.requests.erase (.text x) ∧
      t.fetch.channel ch = none ∧ (∀ y ∈ t.eng.face.faces, y.2.waitText ≠ some x) := by
  refine ⟨_, exec_textFillTransferComplete_eq ch hup, told_arbitrate_frame _ _ _, ?_⟩
  rw [hdone, FetchUnit.completeFill_valid _ _ _ _ _ (by rw [hline]; simp)]
  simp only [State.arbitrate_channel, State.arbitrate_requests, State.arbitrate_line, State.arbitrate_recency,
    State.arbitrate_eng, State.tellFilled_fetch]
  have hself := FetchUnit.line_onLine_self s.fetch i fun y => { y with state := .valid, codes := codes }
  exact ⟨congrArg Line.state hself, congrArg Line.codes hself, rfl,
    fun j hj => FetchUnit.line_onLine_other s.fetch _ hj, rfl, FetchUnit.channel_setChannel_self _ _ _,
    textFilled_waits s.eng x⟩

/-- The end of a fill whose line has been written meanwhile. -/
theorem fill_starts_again (hup : s.resetLow = false) (hdone : s.fetch.textDone ch = s.fetch.completeFill ch x i codes)
    (hline : (s.fetch.line i).state = .fillingStale) : ∃ t, exec (.textFillTransferComplete ch) s = .next t ∧
      (t.fetch.line i).state = .filling ∧ (t.fetch.line i).watch = none ∧
      t.fetch.channel ch = some (messageJob x i) ∧ t.fetch.requests = s.fetch.requests ∧ t.eng = s.eng := by
  refine ⟨_, exec_textFillTransferComplete_eq ch hup, ?_⟩
  rw [hdone, FetchUnit.completeFill_stale _ _ _ _ _ hline]
  simp only [State.arbitrate_channel, State.arbitrate_requests, State.arbitrate_line, State.arbitrate_eng,
    State.tellFilled_fetch]
  have hself := FetchUnit.line_onLine_self s.fetch i fun y => { y with state := .filling, watch := none }
  exact ⟨congrArg Line.state hself, congrArg Line.watch hself, FetchUnit.channel_setChannel_self _ _ _, rfl, rfl⟩

/-- Between two transfers: the watched range moves and the channel has its next transfer. -/
theorem fill_goes_on {watch : Option (Nat × Nat)} {job : Job} (hup : s.resetLow = false)
    (hdone : s.fetch.textDone ch =
      ((s.fetch.onLine i fun x => { x with watch := watch }).setChannel ch (some job), none)) :
    ∃ t, exec (.textFillTransferComplete ch) s = .next t ∧ t.eng = s.eng ∧ t.fetch.channel ch = some job ∧
      (t.fetch.line i).watch = watch ∧ (t.fetch.line i).state = (s.fetch.line i).state := by
  refine ⟨_, exec_textFillTransferComplete_eq ch hup, ?_⟩
  rw [hdone]
  simp [State.tellFilled]

end FillEnds

/-- Settles O45: the end of a fill by `fill_becomes_valid` and `fill_starts_again`, its transfers by `fill_goes_on`. -/
theorem textFillMakesTheLineValid : Obligations.TextFillMakesTheLineValid := by
  refine ⟨fun s ch x i got hup => ?_, fun s ch x i got hup => ⟨?_, ?_⟩⟩
  · intro ended
    have hended : ∀ codes, s.fetch.textDone ch = s.fetch.completeFill ch x i codes → ended codes := fun codes h =>
      ⟨fill_becomes_valid hup h, fill_starts_again hup h⟩
    exact ⟨fun next str len codes hch hnone =>
        hended [] ((FetchUnit.textDone_message hch).trans (FetchUnit.messageDone_none hnone)),
      fun next str len codes hch => hended _ (FetchUnit.textDone_code hch)⟩
  · exact fun next str len codes at' hch hsome =>
      fill_goes_on hup ((FetchUnit.textDone_message hch).trans (FetchUnit.messageDone_some hsome))
  · intro next str len codes hch n first hfits hmore
    obtain ⟨t, hexec, heng, hnext, hwatch, _⟩ :=
      fill_goes_on hup ((FetchUnit.textDone_length hch).trans (FetchUnit.lengthDone_some hfits hmore))
    exact ⟨t, hexec, heng, hnext, hwatch⟩

end Sys2Proof.Machine

/-! SUPPORT. Sweep reads: when they are issued, what their words become, and the end of a sweep (R122, R123, R156, R167). -/

namespace Sys2Proof.Machine

/-! ## The issue of a read -/

theorem exec_sweepReadIssue_eq {s : State} {ch : Fin 4} {w : Fin 5} {next stop : Nat} {base records : Word}
    (hup : s.resetLow = false) (hch : s.fetch.channel ch = some (.sweep w next stop base records)) :
    exec (.sweepReadIssue ch) s = .next (if next < stop ∧ s.path.held = none ∧ 16 ≤ s.unpromised then
      State.arbitrate { s with fetch := s.fetch.issueSweep ch w next stop base records } else s) := by
  refine (whenUp_next (·.sweepReadIssue ch) hup).trans ?_
  unfold State.sweepReadIssue
  rw [hch]
  rfl

/-! ## The words of a read -/

/-- The items of a sweep read hold its words in order. -/
theorem sweepItems_word (w : Fin 5) (base records : Word) (words : List Word) (addr : Nat) :
    (sweepItems w base records addr words).map Item.word = words := by
  induction words generalizing addr with
  | nil => rfl
  | cons x words ih => simp [sweepItems, ih]

/-- Each item is of its own address and is decoded by the descriptor of the read's issue. -/
theorem sweepRead_item {r : SweepRead} {mem : List Host.Cell} {n : Nat} {i : Item} (h : (r.items mem)[n]? = some i) :
    i.addr = r.addr + 4 * n ∧ i.lanes = 0xF ∧ i.target = .window r.kind ((r.addr + 4 * n - r.base.toNat) / 16)
      ((r.addr + 4 * n - r.base.toNat) / 4 % 4) r.base r.records := by
  unfold SweepRead.items at h
  rw [sweepItems_get, Option.map_eq_some_iff] at h
  obtain ⟨x, _, rfl⟩ := h
  have hword : ∀ off : Nat, off % 16 / 4 = off / 4 % 4 := by omega
  exact ⟨rfl, rfl, by rw [hword]⟩

/-! ## The completion of a read -/

section Complete
variable {s : State} {r : SweepRead}

theorem exec_sweepReadComplete_eq (hup : s.resetLow = false) (hport : s.path.port = some (.sweepRead r)) :
    exec .sweepReadComplete s = .next (s.sweepDelivered r).freePort := by
  refine (whenUp_next State.sweepReadComplete hup).trans ?_
  unfold State.sweepReadComplete
  rw [hport]

/-- The words of a read in the intake queue. -/
def State.filledBy (s : State) (r : SweepRead) : State :=
  { s with asm := { s.asm with intake := s.asm.intake ++ r.items s.mem } }

theorem sweepDelivered_abandoned (h : r.status = .abandoned) : s.sweepDelivered r = s := by
  unfold State.sweepDelivered
  rw [h]

theorem sweepDelivered_withdrawn (h : r.status = .withdrawn) : s.sweepDelivered r = s.filledBy r := by
  unfold State.sweepDelivered
  rw [h]
  rfl

theorem sweepDelivered_live (h : r.status = .live) : s.sweepDelivered r = (s.filledBy r).sweepReadEnd r.kind := by
  unfold State.sweepDelivered
  rw [h]
  rfl

/-! ## The end of a sweep -/

theorem sweepReadEnd_going {w : Fin 5} (h : s.fetch.sweptOut w = none) : s.sweepReadEnd w = s := by
  unfold State.sweepReadEnd
  rw [h]

theorem sweepReadEnd_rerun {w : Fin 5} {ch : Fin 4} {records : Word} (h : s.fetch.sweptOut w = some (ch, records))
    (hmark : s.fetch.rerunMarked w = true) :
    s.sweepReadEnd w = { s with fetch := s.fetch.rerunSweep s.path.windows ch w } := by
  unfold State.sweepReadEnd
  rw [h]
  exact if_pos hmark

theorem sweepReadEnd_done {w : Fin 5} {ch : Fin 4} {records : Word} (h : s.fetch.sweptOut w = some (ch, records))
    (hmark : s.fetch.rerunMarked w = false) : s.sweepReadEnd w = { s with
      fetch := { s.fetch with
        requests := s.fetch.requests.filter (fun q => !q.sweepsWindow w), channels := s.fetch.channels.set ch none }
      asm := { s.asm with sweepEnds := s.asm.sweepEnds ++ [⟨w, records.toNat, s.asm.intake.length⟩] } } := by
  unfold State.sweepReadEnd
  rw [h]
  exact if_neg (by simp [hmark])

end Complete

/-- Settles O43: the issue by `exec_sweepReadIssue_eq` and the burst lemmas, the words by `sweepRead_item`, the completion by
what `State.sweepDelivered` and `State.sweepReadEnd` do in each case. -/
theorem sweepReadsFillTheIntake : Obligations.SweepReadsFillTheIntake := by
  refine ⟨fun s ch w next stop base records hup hch => ⟨fun hnext hheld hroom => ?_, fun hnot => ?_⟩,
    fun next left h h1 => ?_, fun s r hup hport => ?_⟩
  · rw [exec_sweepReadIssue_eq hup hch, if_pos ⟨hnext, hheld, hroom⟩]
    rfl
  · rw [exec_sweepReadIssue_eq hup hch, if_neg]
    rintro ⟨hnext, hheld, hroom⟩
    rcases hnot with h | h | h
    · omega
    · exact h hheld
    · omega
  · exact ⟨burstWords_fits h h1, fun n ⟨hn, ha, hl⟩ => burstWords_largest hn ha hl⟩
  · rw [exec_sweepReadComplete_eq hup hport]
    refine ⟨sweepItems_word _ _ _ _ _, fun n i => sweepRead_item, fun h => ?_, fun h => ?_, fun h hgoing => ?_,
      fun ch records h hout hmark => ?_, fun ch records h hout hmark => ?_⟩
    · rw [sweepDelivered_abandoned h]
    · rw [sweepDelivered_withdrawn h]
      rfl
    · rw [sweepDelivered_live h, sweepReadEnd_going (s := s.filledBy r) hgoing]
      rfl
    · rw [sweepDelivered_live h, sweepReadEnd_done (s := s.filledBy r) hout hmark, ← List.length_append]
      rfl
    · rw [sweepDelivered_live h, sweepReadEnd_rerun (s := s.filledBy r) hout hmark]
      rfl

end Sys2Proof.Machine

/-! SUPPORT. The reads of text and glyph channels: which a channel asks for, what their words become, and the end of a glyph
transfer (R112, R118, R121, R122). -/

namespace Sys2Proof.Machine

/-! ## The progress of a load -/

/-- A request with the progress of the load of an area set. -/
def Request.withProgress (a : Fin 8) (n : Nat) : Request → Request
  | .glyph b src pitch count p => .glyph b src pitch count (if b = a then n else p)
  | .text t => .text t
  | .sweep w m => .sweep w m

theorem Request.loads_withProgress (a b : Fin 8) (n : Nat) (q : Request) : (q.withProgress a n).loads b = q.loads b := by
  cases q <;> rfl

theorem Request.withProgress_other {a : Fin 8} {q : Request} (n : Nat) (h : q.loads a = false) : q.withProgress a n = q := by
  cases q with
  | glyph b src pitch count p =>
    have hb : b ≠ a := by simpa [Request.loads] using h
    simp [Request.withProgress, hb]
  | text t => rfl
  | sweep w m => rfl

namespace FetchUnit

theorem setProgress_requests (f : FetchUnit) (a : Fin 8) (n : Nat) :
    (f.setProgress a n).requests = f.requests.map (Request.withProgress a n) :=
  List.map_congr_left fun q _ => by cases q <;> rfl

/-- The one load of an area takes the progress. -/
theorem setProgress_load {f : FetchUnit} {a : Fin 8} {src pitch count progress : Nat}
    (h : f.requests.filter (Request.loads a) = [.glyph a src pitch count progress]) (n : Nat) :
    (f.setProgress a n).requests.filter (Request.loads a) = [.glyph a src pitch count n] := by
  have hloads : Request.loads a ∘ Request.withProgress a n = Request.loads a :=
    funext fun q => q.loads_withProgress a a n
  rw [setProgress_requests, List.filter_map, hloads, h]
  simp [Request.withProgress]

/-- Every other request stands. -/
theorem setProgress_others (f : FetchUnit) (a : Fin 8) (n : Nat) :
    (f.setProgress a n).requests.filter (fun q => !q.loads a) = f.requests.filter fun q => !q.loads a := by
  have hloads : (fun q : Request => !q.loads a) ∘ Request.withProgress a n = fun q => !q.loads a :=
    funext fun q => congrArg (!·) (q.loads_withProgress a a n)
  rw [setProgress_requests, List.filter_map, hloads]
  refine (List.map_congr_left fun q hq => ?_).trans (List.map_id _)
  exact Request.withProgress_other n (by simpa using (List.mem_filter.1 hq).2)

/-! ## Words delivered to a channel -/

section Deliver
variable {f : FetchUnit} {ch : Fin 4} {a : Fin 8} {stop : Nat} {got words : List Word}

theorem deliver_text {x : Tag} {i : Fin 32} {stage : TextStage} {next left str len : Nat} {codes : List Code}
    (h : f.channel ch = some (.text x i stage next left got str len codes)) : f.deliver ch words = f.setChannel ch
      (some (.text x i stage (next + 4 * words.length) (left - words.length) (got ++ words) str len codes)) := by
  unfold deliver
  rw [h]

theorem deliver_glyph_part (h : f.channel ch = some (.glyph a stop got)) (hpart : (got ++ words).length < 8) :
    f.deliver ch words = f.setChannel ch (some (.glyph a stop (got ++ words))) := by
  unfold deliver
  rw [h]
  exact if_pos hpart

/-- The eight words of a glyph are stored, and the load goes on to its next glyph. -/
theorem deliver_glyph_whole {src pitch count progress : Nat} (h : f.channel ch = some (.glyph a stop got))
    (hload : f.load a = some (src, pitch, count, progress)) (hwhole : 8 ≤ (got ++ words).length) :
    f.deliver ch words =
      ((f.storeGlyph a progress ((got ++ words).flatMap wordBytes)).setProgress a (progress + 1)).setChannel ch
        (some (.glyph a stop [])) := by
  unfold deliver
  rw [h]
  refine (if_neg (Nat.not_lt.2 hwhole)).trans ?_
  rw [hload]

end Deliver

/-! ## The reads a channel asks for -/

section ChannelRead
variable {f : FetchUnit} {ch : Fin 4}

theorem channelRead_text {x : Tag} {i : Fin 32} {stage : TextStage} {next left str len : Nat} {got : List Word}
    {codes : List Code} (h : f.channel ch = some (.text x i stage next left got str len codes)) :
    f.channelRead ch = if left = 0 then none else some (.fetchRead ch next (burstWords next left) false) := by
  unfold channelRead
  rw [h]

theorem channelRead_glyph {a : Fin 8} {stop src pitch count progress : Nat} {got : List Word}
    (h : f.channel ch = some (.glyph a stop got)) (hload : f.load a = some (src, pitch, count, progress)) :
    f.channelRead ch = if progress < stop then
      some (.fetchRead ch (src + progress * pitch + 4 * got.length)
        (burstWords (src + progress * pitch + 4 * got.length) (8 - got.length)) false)
      else none := by
  unfold channelRead
  rw [h]
  dsimp only
  rw [hload]

theorem channelRead_sweep {w : Fin 5} {next stop : Nat} {base records : Word}
    (h : f.channel ch = some (.sweep w next stop base records)) : f.channelRead ch = none := by
  unfold channelRead
  rw [h]

theorem channelRead_idle (h : f.channel ch = none) : f.channelRead ch = none := by
  unfold channelRead
  rw [h]

end ChannelRead

/-! ## The end of a glyph transfer -/

theorem makeReady_area (f : FetchUnit) (areas : List (Fin 8)) (b : Fin 8) :
    (f.makeReady areas).area b = if b ∈ areas then { f.area b with state := .ready } else f.area b :=
  area_foldl_onArea (fun _ x => { x with state := .ready }) (fun _ _ => rfl) areas f b

theorem makeReady_requests (f : FetchUnit) (areas : List (Fin 8)) : (f.makeReady areas).requests = f.requests :=
  foldl_onArea_keeps FetchUnit.requests (fun _ _ _ => rfl) (fun _ x => { x with state := .ready }) areas f

theorem makeReady_channel (f : FetchUnit) (areas : List (Fin 8)) (ch : Fin 4) :
    (f.makeReady areas).channel ch = f.channel ch :=
  foldl_onArea_keeps (channel · ch) (fun _ _ _ => rfl) (fun _ x => { x with state := .ready }) areas f

section GlyphDone
variable {f : FetchUnit} {ch : Fin 4} {a : Fin 8} {stop src pitch count progress : Nat} {got : List Word}
variable (hch : f.channel ch = some (.glyph a stop got)) (hload : f.load a = some (src, pitch, count, progress))
include hch hload

theorem glyphDone_running (h : progress < stop) : f.glyphDone ch = (f, none) := by
  unfold glyphDone
  rw [hch]
  dsimp only
  rw [hload]
  exact if_pos h

/-- Between the two transfers of a load the request is the newest of its kind and waits. -/
theorem glyphDone_between (h : stop ≤ progress) (hmore : stop < count) :
    f.glyphDone ch = ((f.setChannel ch none).requeueLoad a, none) := by
  unfold glyphDone
  rw [hch]
  dsimp only
  rw [hload]
  exact (if_neg (Nat.not_lt.2 h)).trans (if_pos hmore)

theorem glyphDone_last (h : stop ≤ progress) (hlast : count ≤ stop) : f.glyphDone ch =
    ((({ f with requests := f.requests.filter fun q => !q.loads a } : FetchUnit).setChannel ch none).makeReady
      (loadedAreas a count), some (a, count)) := by
  unfold glyphDone
  rw [hch]
  dsimp only
  rw [hload]
  exact (if_neg (Nat.not_lt.2 h)).trans (if_neg (Nat.not_lt.2 hlast))

end GlyphDone

end FetchUnit

/-! ## The steps -/

theorem exec_fetchReadComplete_eq {s : State} {ch : Fin 4} {addr count : Nat} {discard : Bool} (hup : s.resetLow = false)
    (hport : s.path.port = some (.fetchRead ch addr count discard)) :
    exec .fetchReadComplete s = .next (s.fetchDelivered ch addr count discard).freePort := by
  refine (whenUp_next State.fetchReadComplete hup).trans ?_
  unfold State.fetchReadComplete
  rw [hport]

theorem exec_glyphTransferComplete_eq {s : State} (ch : Fin 4) (hup : s.resetLow = false) :
    exec (.glyphTransferComplete ch) s = .next (State.arbitrate
      (State.tellReady { s with fetch := (s.fetch.glyphDone ch).1 } (s.fetch.glyphDone ch).2)) :=
  whenUp_next (·.glyphTransferComplete ch) hup

theorem bankReady_ambient (s : State) (a : Fin 8) (count : Nat) : (s.bankReady a count).ambient = s.ambient := by
  simp only [State.ambient, State.bankReady_clock, State.bankReady_asm, State.bankReady_fetch]

/-- A bank that is READY: one GLYPHS_READY report, and then each of its languages in ascending number (R118). -/
theorem bankReady_eng (s : State) (a : Fin 8) (count : Nat) : (s.bankReady a count).eng =
    (s.fetch.languagesOf (loadedAreas a count)).foldl (fun e l => e.languageReady s.ambient l)
      (s.eng.report s.ambient (.glyphsReady a count)) := rfl

/-! ## The statement -/

/-- A glyph that is complete: where it is stored, and what else stands. -/
theorem glyph_stored {f : FetchUnit} {ch : Fin 4} {a : Fin 8} {stop src pitch count progress : Nat} {got words : List Word}
    (hch : f.channel ch = some (.glyph a stop got))
    (hload : f.requests.filter (Request.loads a) = [.glyph a src pitch count progress]) (hprogress : progress < 512)
    (hwhole : 8 ≤ (got ++ words).length) :
    let g := f.deliver ch words
    let home := if progress < 256 then a else oddArea a
    let index := if progress < 256 then progress else progress - 256
    g = { f with areas := g.areas, requests := g.requests, channels := g.channels } ∧
    (g.area home).glyphs.get index =
      some ((got ++ words).flatMap fun w => [byteOf w 0, byteOf w 1, byteOf w 2, byteOf w 3]) ∧
    (∀ k, k ≠ index → (g.area home).glyphs.get k = (f.area home).glyphs.get k) ∧
    g.area home = { f.area home with glyphs := (g.area home).glyphs } ∧
    (∀ b, b ≠ home → g.area b = f.area b) ∧
    g.requests.filter (Request.loads a) = [.glyph a src pitch count (progress + 1)] ∧
    g.requests.filter (fun q => !q.loads a) = f.requests.filter (fun q => !q.loads a) ∧
    g.channel ch = some (.glyph a stop []) ∧ (∀ k, k ≠ ch → g.channel k = f.channel k) := by
  intro g home index
  have hg : g = _ := FetchUnit.deliver_glyph_whole hch (load_of_filter hload) hwhole
  have hindex : progress % 256 = index := by
    show progress % 256 = if progress < 256 then progress else progress - 256
    split <;> omega
  have harea : ∀ b, g.area b = if b = home then
      { f.area b with glyphs := (f.area b).glyphs.put index ((got ++ words).flatMap wordBytes) } else f.area b := by
    intro b
    rw [hg, ← hindex]
    exact storeGlyph_area f a b progress _
  have hhome := (harea home).trans (if_pos rfl)
  rw [hhome, hg]
  refine ⟨rfl, ?_, fun k hk => ?_, rfl, fun b hb => ?_, FetchUnit.setProgress_load hload _, FetchUnit.setProgress_others _ a _,
    FetchUnit.channel_setChannel_self _ _ _, fun k hk => FetchUnit.channel_setChannel_other _ _ hk⟩
  · exact (Tab.get_put _ _ _ _).trans (if_pos rfl)
  · exact (Tab.get_put _ _ _ _).trans (if_neg hk)
  · rw [← hg]
    exact (harea b).trans (if_neg hb)

/-- The end of a load: its areas are READY, its request is gone, its channel is idle, and the displays and contexts are
told. -/
theorem load_ends {s : State} {ch : Fin 4} {a : Fin 8} {stop src pitch count progress : Nat} {got : List Word}
    (hup : s.resetLow = false) (hch : s.fetch.channel ch = some (.glyph a stop got))
    (hload : s.fetch.load a = some (src, pitch, count, progress)) (hdone : stop ≤ progress) (hlast : count ≤ stop) :
    ∃ t, exec (.glyphTransferComplete ch) s = .next t ∧
      (∀ b, (t.fetch.area b).state = if b ∈ loadedAreas a count then .ready else (s.fetch.area b).state) ∧
      t.fetch.requests = s.fetch.requests.filter (fun q => !q.loads a) ∧ t.fetch.channel ch = none ∧
      t.eng = (t.fetch.languagesOf (loadedAreas a count)).foldl (fun e l => e.languageReady t.ambient l)
        (s.eng.report s.ambient (.glyphsReady a count)) ∧
      t.mem = s.mem ∧ t.asm = s.asm ∧ t.clock = s.clock ∧ t.pending = s.pending := by
  refine ⟨_, exec_glyphTransferComplete_eq ch hup, ?_⟩
  rw [FetchUnit.glyphDone_last hch hload hdone hlast]
  simp only [State.tellReady, State.arbitrate_area, State.arbitrate_requests, State.arbitrate_channel, State.arbitrate_eng,
    State.arbitrate_languagesOf, State.arbitrate_ambient, State.arbitrate_mem, State.arbitrate_asm, State.arbitrate_clock,
    State.arbitrate_pending, State.bankReady_fetch, State.bankReady_mem, State.bankReady_asm, State.bankReady_clock,
    State.bankReady_pending, bankReady_ambient, bankReady_eng, FetchUnit.makeReady_requests, FetchUnit.makeReady_channel,
    FetchUnit.makeReady_area, and_true]
  refine ⟨fun b => ?_, rfl, FetchUnit.channel_setChannel_self _ _ _, rfl⟩
  split <;> rfl

/-- Settles O44: the words by `FetchUnit.deliver_text` and `glyph_stored`, the reads by `FetchUnit.channelRead_text` and
`FetchUnit.channelRead_glyph`, the end of a transfer by the equations of `FetchUnit.glyphDone` and `load_ends`. -/
theorem fetchReadsReachTheirChannel : Obligations.FetchReadsReachTheirChannel := by
  refine ⟨fun s ch addr count hup => ?_, fun f ch a stop got words src pitch count progress hch hload hprogress => ?_,
    fun f ch => ?_, fun s ch a stop got src pitch count progress hup hch hload => ?_⟩
  · intro words
    refine ⟨fun hport => exec_fetchReadComplete_eq hup hport, fun hport => exec_fetchReadComplete_eq hup hport,
      fun x i stage next left got str len codes hch => ?_⟩
    rw [FetchUnit.deliver_text hch, State.PathSafe.readWords_length]
  · exact ⟨FetchUnit.deliver_glyph_part hch, glyph_stored hch hload hprogress⟩
  · intro burst
    refine ⟨fun x i stage next left got str len codes hch => FetchUnit.channelRead_text hch,
      fun a stop got src pitch count progress hch hload => ?_,
      fun w next stop base records hch => FetchUnit.channelRead_sweep hch, FetchUnit.channelRead_idle⟩
    have hread := FetchUnit.channelRead_glyph hch (load_of_filter hload)
    exact ⟨load_of_filter hload, fun h => hread.trans (if_pos h), fun h => hread.trans (if_neg (Nat.not_lt.2 h))⟩
  · refine ⟨fun h => ?_, fun h hmore => ?_, load_ends hup hch hload⟩
    · rw [exec_glyphTransferComplete_eq ch hup, FetchUnit.glyphDone_running hch hload h]
      rfl
    · rw [exec_glyphTransferComplete_eq ch hup, FetchUnit.glyphDone_between hch hload h hmore]
      rfl

end Sys2Proof.Machine

/-! SUPPORT. The clock without commands and its ticks (R143, R157). -/

namespace Sys2Proof.Machine

/-! ## One cycle of the reference clock -/

theorem step_idle {s : State} (h : s.pending = []) : step s = .next s.refCycle := by
  unfold step
  rw [h]

theorem State.refCycle_low {s : State} (h : s.resetLow = true) : s.refCycle = s := if_pos h

theorem State.refCycle_counts {s : State} (hup : s.resetLow = false)
    (h : s.clock.refCount + 1 < s.asm.settings.divider) :
    s.refCycle = { s with clock := { s.clock with refCount := s.clock.refCount + 1 } } := by
  unfold State.refCycle
  rw [if_neg (by simp [hup]), if_pos h]

theorem State.refCycle_ticks {s : State} (hup : s.resetLow = false)
    (h : s.asm.settings.divider ≤ s.clock.refCount + 1) : s.refCycle = s.usTick.msTick := by
  unfold State.refCycle
  rw [if_neg (by simp [hup]), if_neg (Nat.not_lt.2 h)]

/-- Settles O2: an idle step is a cycle of the reference clock (`step_idle`), whose three cases are the lemmas above. -/
theorem emptyQueueIsOneReferenceCycle : Obligations.EmptyQueueIsOneReferenceCycle := by
  intro s hidle
  rw [step_idle hidle]
  exact ⟨fun hlow => congrArg _ (State.refCycle_low hlow), fun hup h => congrArg _ (State.refCycle_counts hup h),
    fun hup h => congrArg _ (State.refCycle_ticks hup h)⟩

/-! ## Ticks -/

theorem State.msTick_of_due {s : State} (h : 1000 ≤ s.clock.usCount) : s.msTick =
    { s with clock := { s.clock with usCount := s.clock.usCount - 1000, ms := s.clock.ms + 1 } } :=
  if_pos (decide_eq_true h)

theorem State.msTick_of_not_due {s : State} (h : s.clock.usCount < 1000) : s.msTick = s :=
  if_neg (by simpa [State.msDue] using h)

/-- Settles O14: each tick is its function out of reset; the ms tick acts where 1000 µs ticks are counted. -/
theorem ticksRaiseTheirCounts : Obligations.TicksRaiseTheirCounts := by
  intro s hup
  have hms : exec .msTick s = .next s.msTick := whenUp_next State.msTick hup
  exact ⟨whenUp_next State.usTick hup, fun h => hms.trans (congrArg _ (State.msTick_of_due h)),
    fun h => hms.trans (congrArg _ (State.msTick_of_not_due h))⟩

end Sys2Proof.Machine

/-! SUPPORT. The deliveries of the Timer Unit: which place is delivered, what becomes of it, and the order of the list (R145,
R147, R148). -/

namespace Sys2Proof.Machine

/-! ## The head of the list -/

theorem Timers.due_of_reached {tm : Timers} {now : BitVec 32} {p : TimerPlace} {rest : List TimerPlace}
    (hl : tm.list = p :: rest) (h : reached now p.expiry = true) : tm.due now = some p := by
  unfold Timers.due
  rw [hl]
  exact if_pos h

/-- A due head of the kind of the command is delivered to its owner. -/
theorem State.deliver_due {s : State} {p : TimerPlace} (hdue : s.eng.timers.due s.clock.ms = some p)
    (act : Ambient → Engines → TimerPlace → Engines) :
    s.deliver p.kind act = { s with eng := act s.ambient s.eng.delivered p } := by
  have hof : s.dueOf p.kind = some p := by
    unfold State.dueOf
    rw [hdue]
    exact Option.filter_eq_some_iff.2 ⟨rfl, by simp⟩
  unfold State.deliver
  rw [hof]
  rfl

theorem State.deliver_none {s : State} {k : PlaceKind} (h : s.dueOf k = none)
    (act : Ambient → Engines → TimerPlace → Engines) : s.deliver k act = s := by
  unfold State.deliver
  rw [h]

/-- A due head of another kind is not the command's. -/
theorem State.dueOf_other {s : State} {p : TimerPlace} {k : PlaceKind} (hdue : s.eng.timers.due s.clock.ms = some p)
    (hk : p.kind ≠ k) : s.dueOf k = none := by
  unfold State.dueOf
  rw [hdue]
  simpa [Option.filter] using hk

theorem State.dueOf_none {s : State} (hdue : s.eng.timers.due s.clock.ms = none) (k : PlaceKind) : s.dueOf k = none := by
  unfold State.dueOf
  rw [hdue]
  rfl

/-! ## The delivery commands -/

/-- The delivery commands, each with the kind of place it delivers (9.5). -/
def deliveries : List (Instr × PlaceKind) :=
  [(.entryWaitExpiry, .entryWait), (.promptHoldExpiry, .promptHold), (.lanternExpiry, .lantern), (.gongExpiry, .gong),
    (.dwellExpiry, .dwell), (.overrideDwellExpiry, .overrideDwell)]

/-- A delivery command with no due head of its kind does nothing. -/
theorem exec_delivery_none {s : State} (hup : s.resetLow = false) {x : Instr × PlaceKind} (hx : x ∈ deliveries)
    (h : s.dueOf x.2 = none) : exec x.1 s = .next s := by
  have hstill : ∀ act, whenUp s (fun s => s.deliver x.2 act) = .next s := fun act =>
    (whenUp_next _ hup).trans (congrArg _ (State.deliver_none h act))
  simp only [deliveries, List.mem_cons, List.not_mem_nil, or_false] at hx
  rcases hx with rfl | rfl | rfl | rfl | rfl | rfl
  · exact hstill onEntryWait
  · exact hstill onPromptHold
  · exact hstill onLantern
  · exact hstill onGong
  · exact hstill onDwell
  · exact hstill onOverrideDwell

section Delivered

variable {s : State} {p : TimerPlace} (hup : s.resetLow = false) (hdue : s.eng.timers.due s.clock.ms = some p)

include hup hdue

/-- A delivery command whose kind is that of the due head. -/
theorem whenUp_deliver {k : PlaceKind} (hk : p.kind = k) (act : Ambient → Engines → TimerPlace → Engines) :
    whenUp s (fun s => s.deliver k act) = .next { s with eng := act s.ambient s.eng.delivered p } := by
  subst hk
  exact (whenUp_next _ hup).trans (congrArg _ (State.deliver_due hdue act))

theorem exec_entryWaitExpiry_due (hk : p.kind = .entryWait) :
    exec .entryWaitExpiry s = .next { s with eng := s.eng.delivered.expireEntry s.ambient p } :=
  whenUp_deliver hup hdue hk onEntryWait

theorem exec_promptHoldExpiry_due {d : Nat} (hk : p.kind = .promptHold) (ho : p.owner = .prompt d) :
    exec .promptHoldExpiry s = .next { s with eng := s.eng.delivered.expirePrompt d p } := by
  refine (whenUp_deliver hup hdue hk onPromptHold).trans ?_
  unfold onPromptHold
  rw [ho]

theorem exec_lanternExpiry_due {c : Fin 48} (hk : p.kind = .lantern) (ho : p.owner = .car c) :
    exec .lanternExpiry s = .next { s with eng := s.eng.delivered.flash s.ambient c p } := by
  refine (whenUp_deliver hup hdue hk onLantern).trans ?_
  unfold onLantern
  rw [ho]

theorem exec_gongExpiry_due {c : Fin 48} (hk : p.kind = .gong) (ho : p.owner = .car c) :
    exec .gongExpiry s = .next { s with eng := s.eng.delivered.stroke c p } := by
  refine (whenUp_deliver hup hdue hk onGong).trans ?_
  unfold onGong
  rw [ho]

theorem exec_dwellExpiry_due {c : Fin 16} (hk : p.kind = .dwell) (ho : p.owner = .context c) :
    exec .dwellExpiry s = .next { s with eng := s.eng.delivered.expireDwell s.ambient c p } := by
  refine (whenUp_deliver hup hdue hk onDwell).trans ?_
  unfold onDwell
  rw [ho]

/-- The slot moves on only while it holds the place delivered. -/
theorem exec_overrideDwellExpiry_due {k : Fin 4} (hk : p.kind = .overrideDwell) (ho : p.owner = .slot k) :
    exec .overrideDwellExpiry s = .next { s with eng :=
      if (slotOf s.eng.face.slots k).place = some p.id then s.eng.delivered.rotateSlot s.ambient k
      else s.eng.delivered } := by
  refine (whenUp_deliver hup hdue hk onOverrideDwell).trans ?_
  unfold onOverrideDwell
  rw [ho]
  rfl

end Delivered

/-! ## The list after a delivery -/

theorem Timers.deliver_gone {p : TimerPlace} (h : p.stays = false) (rest : List TimerPlace) (id : Nat) :
    (⟨p :: rest, id⟩ : Timers).deliver = ⟨rest, id⟩ := if_neg (by simp [h])

theorem Timers.deliver_again {p : TimerPlace} (h : p.stays = true) (rest : List TimerPlace) (id : Nat) :
    (⟨p :: rest, id⟩ : Timers).deliver = ⟨insertPlace rest p.next, id⟩ := if_pos h

theorem TimerPlace.stays_iff (p : TimerPlace) : p.stays = true ↔ p.interval ≠ 0 ∧ p.count ≠ 1 := by
  simp [TimerPlace.stays]

theorem TimerPlace.next_of_unbounded {p : TimerPlace} (h : p.count = 0) :
    p.next = { p with expiry := p.expiry + BitVec.ofNat 32 p.interval } := by
  simp [TimerPlace.next, later, h]

/-! ## The order of the list -/

/-- Two times less than half the range after a third: the earlier one is nearer to it (R144). -/
theorem earlier_iff {a b base : BitVec 32} (ha : (a - base).toNat < 2147483648) (hb : (b - base).toNat < 2147483648) :
    earlier a b = true ↔ (a - base).toNat < (b - base).toNat := by
  simp only [earlier, decide_eq_true_eq, BitVec.toNat_sub] at *
  omega

/-- A place put into a list in expiry order stands behind those not later than itself and ahead of the others. -/
theorem insertPlace_splits {l : List TimerPlace} {q : TimerPlace} {base : BitVec 32}
    (hnear : ∀ p ∈ q :: l, (p.expiry - base).toNat < 2147483648)
    (hord : l.Pairwise fun a b => (a.expiry - base).toNat ≤ (b.expiry - base).toNat) :
    ∃ l1 l2, l = l1 ++ l2 ∧ insertPlace l q = l1 ++ q :: l2 ∧
      (∀ p ∈ l1, (p.expiry - base).toNat ≤ (q.expiry - base).toNat) ∧
      (∀ p ∈ l2, (q.expiry - base).toNat < (p.expiry - base).toNat) := by
  induction l with
  | nil => exact ⟨[], [], rfl, rfl, by simp, by simp⟩
  | cons x xs ih =>
    obtain ⟨hx, hxs⟩ := List.pairwise_cons.1 hord
    have hearlier := earlier_iff (hnear q List.mem_cons_self) (hnear x (List.mem_cons_of_mem _ List.mem_cons_self))
    by_cases h : earlier q.expiry x.expiry = true
    · have hqx := hearlier.1 h
      refine ⟨[], x :: xs, rfl, if_pos h, by simp, fun p hp => ?_⟩
      rcases List.mem_cons.1 hp with rfl | hp
      · exact hqx
      · exact Nat.lt_of_lt_of_le hqx (hx p hp)
    · have hxq := Nat.not_lt.1 fun hlt => h (hearlier.2 hlt)
      obtain ⟨l1, l2, hl, hins, hle, hlt⟩ := ih
        (fun p hp => hnear p (by rcases List.mem_cons.1 hp with rfl | hp <;> simp [*])) hxs
      refine ⟨x :: l1, l2, by rw [hl]; rfl, ?_, fun p hp => ?_, hlt⟩
      · rw [List.cons_append, ← hins]
        exact if_neg h
      · rcases List.mem_cons.1 hp with rfl | hp
        · exact hxq
        · exact hle p hp

/-- Settles O55: the commands by their equations above, the list by `Timers.deliver_gone` and `Timers.deliver_again`, its order
by `insertPlace_splits`. -/
theorem expiriesDeliverTheDueHead : Obligations.ExpiriesDeliverTheDueHead := by
  refine ⟨fun s hup => ⟨fun p rest hl hreached => ?_, fun hnone c hc => ?_⟩, fun p rest id => ?_,
    fun l q base hnear hord => insertPlace_splits hnear hord⟩
  · have hdue := Timers.due_of_reached hl hreached
    refine ⟨exec_entryWaitExpiry_due hup hdue, fun d => exec_promptHoldExpiry_due hup hdue,
      fun c => exec_lanternExpiry_due hup hdue, fun c => exec_gongExpiry_due hup hdue,
      fun c => exec_dwellExpiry_due hup hdue, fun k hk ho hheld => ?_, fun k hk ho hheld => ?_,
      fun x hx hk => exec_delivery_none hup hx (State.dueOf_other hdue hk)⟩
    · rw [exec_overrideDwellExpiry_due hup hdue hk ho, if_pos hheld]
      rfl
    · rw [exec_overrideDwellExpiry_due hup hdue hk ho, if_neg hheld]
      rfl
  · obtain ⟨x, hx, rfl⟩ : ∃ x ∈ deliveries, x.1 = c := List.mem_map.1 hc
    exact exec_delivery_none hup hx (State.dueOf_none hnone x.2)
  · have hgone : ¬(p.interval ≠ 0 ∧ p.count ≠ 1) → (⟨p :: rest, id⟩ : Timers).deliver = ⟨rest, id⟩ := fun h =>
      Timers.deliver_gone (by rwa [← Bool.not_eq_true, p.stays_iff]) rest id
    have hagain : p.interval ≠ 0 → p.count ≠ 1 →
        (⟨p :: rest, id⟩ : Timers).deliver = ⟨insertPlace rest p.next, id⟩ := fun hi hc =>
      Timers.deliver_again (p.stays_iff.2 ⟨hi, hc⟩) rest id
    refine ⟨fun hi => hgone fun h => h.1 hi, fun _ hc => hgone fun h => h.2 hc, fun hi hc => ?_, fun hi hc => ?_,
      insertPlace_length rest⟩
    · rw [hagain hi (by omega), TimerPlace.next_of_unbounded hc]
    · exact hagain hi (by omega)

end Sys2Proof.Machine

/-! SUPPORT. What a context holds while others act: its record, its targets and its DWELL place (R149, R150); its suspension and
its resumption (R102, R103). -/

namespace Sys2Proof.Machine

/-! ## The place under a number -/

/-- The place that the list holds under a number. -/
def Timers.placeAt (tm : Timers) (id : Nat) : Option TimerPlace := tm.list.find? fun p => p.id == id

namespace Timers

variable {tm : Timers} {id : Nat}

theorem placeAt_eq_none_iff : tm.placeAt id = none ↔ ∀ p ∈ tm.list, p.id ≠ id := by
  simp [placeAt]

theorem mem_of_placeAt {p : TimerPlace} (h : tm.placeAt id = some p) : p ∈ tm.list := List.mem_of_find?_eq_some h

theorem id_of_placeAt {p : TimerPlace} (h : tm.placeAt id = some p) : p.id = id := by
  simpa using List.find?_some h

/-- The remaining time of a place (R150). -/
theorem remaining_of_placeAt {p : TimerPlace} (h : tm.placeAt id = some p) (now : BitVec 32) :
    tm.remaining now id = if reached now p.expiry then 0 else (p.expiry - now).toNat := by
  unfold placeAt at h
  unfold remaining
  rw [h]

theorem remaining_congr {tm' : Timers} (h : tm'.placeAt id = tm.placeAt id) (now : BitVec 32) :
    tm'.remaining now id = tm.remaining now id := by
  unfold placeAt at h
  unfold remaining
  rw [h]

theorem placeAt_insert {l : List TimerPlace} {q : TimerPlace} {next next' : Nat} (h : q.id ≠ id) :
    placeAt ⟨insertPlace l q, next'⟩ id = placeAt ⟨l, next⟩ id := by
  have hq : (q.id == id) = false := by simpa using h
  unfold placeAt
  dsimp only
  induction l with
  | nil => simp [insertPlace, hq]
  | cons x xs ih =>
    unfold insertPlace
    split
    · rw [List.find?_cons, hq]
    · rw [List.find?_cons, List.find?_cons, ih]

/-- A release takes the place of its own number and no other. -/
theorem placeAt_releaseOpt {held : Option Nat} (h : held ≠ some id ∨ tm.placeAt id = none) :
    (tm.releaseOpt held).placeAt id = tm.placeAt id := by
  cases held with
  | none => rfl
  | some j =>
    rcases h with hj | hgone
    · have hne : j ≠ id := fun hji => hj (congrArg some hji)
      unfold placeAt releaseOpt release
      rw [List.find?_filter]
      congr 1
      funext p
      by_cases hp : p.id = id
      · simp [hp, hne.symm]
      · simp [hp]
    · rw [hgone, placeAt_eq_none_iff]
      exact fun p hp => placeAt_eq_none_iff.1 hgone p (List.mem_filter.1 hp).1

/-- A holding of another owner is of another number, or of a place that is gone. -/
theorem gives.apart {kind kind' : PlaceKind} {owner owner' : Owner} {held held' : Option Nat} (h : tm.gives kind owner held)
    (h' : tm.gives kind' owner' held') (hne : owner ≠ owner') (hid : held' = some id) :
    held ≠ some id ∨ tm.placeAt id = none := by
  by_cases heq : held = some id
  · refine .inr (placeAt_eq_none_iff.2 fun p hp hpid => hne ?_)
    obtain ⟨_, hown⟩ := (h id heq).2 p hp hpid
    obtain ⟨_, hown'⟩ := (h' id hid).2 p hp hpid
    exact hown.symm.trans hown'
  · exact .inl heq

end Timers

theorem Engines.ClaimsSafe.placeAt_of_mem {e : Engines} (h : e.ClaimsSafe) {p : TimerPlace} (hp : p ∈ e.timers.list) :
    e.timers.placeAt p.id = some p := by
  cases hat : e.timers.placeAt p.id with
  | none => exact absurd rfl (Timers.placeAt_eq_none_iff.1 hat p hp)
  | some q => rw [h.place_inj (Timers.mem_of_placeAt hat) hp (Timers.id_of_placeAt hat)]

/-- An entry holds its ENTRY_WAIT place (R42). -/
theorem Engines.ClaimsSafe.entry_gives {e : Engines} (h : e.ClaimsSafe) {x : Entry} (hx : x ∈ e.dest.entries) :
    e.timers.gives .entryWait (.ticket x.ticket) (some x.place) := by
  obtain ⟨p, hp, hpid, hkind, howner⟩ := h.placed x hx
  intro id hid
  cases hid
  refine ⟨hpid ▸ h.fresh p hp, fun q hq hqid => ?_⟩
  rw [h.place_inj hq hp (hqid.trans hpid.symm)]
  exact ⟨hkind, howner⟩

/-! ## Operations on others -/

/-- What concerns a context stands, its place in the list with it; at most `n` places have been claimed. -/
structure Engines.SparesCtx (c : Fin 16) (n : Nat) (e e' : Engines) : Prop where
  ctx : e'.ctx c = e.ctx c
  place : ∀ id, (e.ctx c).place = some id → e'.timers.placeAt id = e.timers.placeAt id
  ext : Timers.Ext e.timers e'.timers
  room : e'.timers.list.length ≤ e.timers.list.length + n

namespace Engines.SparesCtx

variable {c k : Fin 16} {e : Engines}

theorem of_eq {e' : Engines} (hp : e'.play = e.play) (ht : e'.timers = e.timers) : SparesCtx c 0 e e' := by
  refine ⟨?_, fun id _ => by rw [ht], ?_, by rw [ht]; exact Nat.le_refl _⟩
  · unfold Engines.ctx
    rw [hp]
  · rw [ht]
    exact Timers.Ext.refl _

theorem refl (e : Engines) : SparesCtx c 0 e e := of_eq rfl rfl

theorem trans {n m : Nat} {a b d : Engines} (h : SparesCtx c n a b) (k : SparesCtx c m b d) : SparesCtx c (n + m) a d := by
  refine ⟨k.ctx.trans h.ctx, fun id hid => ?_, h.ext.trans k.ext, ?_⟩
  · rw [k.place id (by rw [h.ctx]; exact hid), h.place id hid]
  · have hn := h.room
    have hm := k.room
    omega

theorem mono {n m : Nat} {e' : Engines} (h : SparesCtx c n e e') (hnm : n ≤ m) : SparesCtx c m e e' :=
  ⟨h.ctx, h.place, h.ext, Nat.le_trans h.room (Nat.add_le_add_left hnm _)⟩

/-- A pass of operations that each claim at most `n` places and keep the laws of the claims. -/
theorem foldl {α : Type} {n : Nat} (op : Engines → α → Engines) {l : List α}
    (hop : ∀ (b : Engines), ∀ x ∈ l, b.ClaimsSafe → SparesCtx c n b (op b x) ∧ (op b x).ClaimsSafe)
    (h : e.ClaimsSafe) : SparesCtx c (n * l.length) e (l.foldl op e) ∧ (l.foldl op e).ClaimsSafe := by
  induction l generalizing e with
  | nil => exact ⟨refl e, h⟩
  | cons x l ih =>
    obtain ⟨hx, hsafe⟩ := hop e x List.mem_cons_self h
    obtain ⟨hl, hsafe'⟩ := ih (fun b y hy => hop b y (List.mem_cons_of_mem _ hy)) hsafe
    have hcount : n + n * l.length = n * (x :: l).length := by rw [List.length_cons, Nat.mul_succ, Nat.add_comm]
    exact ⟨(hx.trans hl).mono (Nat.le_of_eq hcount), hsafe'⟩

theorem onCtx (e : Engines) (hk : k ≠ c) (g : Context → Context) : SparesCtx c 0 e (e.onCtx k g) := by
  refine ⟨?_, fun _ _ => rfl, Timers.Ext.refl _, Nat.le_refl _⟩
  rw [ctx_onCtx, if_neg hk]

theorem onSlot (e : Engines) (s : Fin 4) (g : OverrideSlot → OverrideSlot) : SparesCtx c 0 e (e.onSlot s g) := of_eq rfl rfl

theorem report (A : Ambient) (e : Engines) (ev : Event) : SparesCtx c 0 e (e.report A ev) := of_eq rfl rfl

theorem storePrompts (e : Engines) (d : Nat) (q : List Prompt) : SparesCtx c 0 e (e.storePrompts d q) := of_eq rfl rfl

/-- The release of a holding whose number is not the context's, or is gone. -/
theorem release {held : Option Nat}
    (h : ∀ id, (e.ctx c).place = some id → held ≠ some id ∨ e.timers.placeAt id = none) :
    SparesCtx c 0 e (e.release held) :=
  ⟨rfl, fun id hid => Timers.placeAt_releaseOpt (h id hid), Timers.ext_releaseOpt _ _, Timers.releaseOpt_length _ _⟩

/-- The release of a holding of another owner. -/
theorem release_other (h : e.ClaimsSafe) {kind : PlaceKind} {owner : Owner} {held : Option Nat}
    (hg : e.timers.gives kind owner held) (ho : owner ≠ .context c) : SparesCtx c 0 e (e.release held) :=
  release fun _ hid => hg.apart (h.contexts c) ho hid

theorem claim (h : e.ClaimsSafe) {kind : PlaceKind} {owner : Owner} {expiry : BitVec 32} {interval count : Nat}
    {tm : Timers} {id : Nat} (hc : e.timers.claim kind owner expiry interval count = (tm, some id)) :
    SparesCtx c 1 e (e.setTimers tm) := by
  have hext := Timers.ext_claim hc
  rcases e.timers.claim_spec kind owner expiry interval count with ⟨_, hclaim⟩ | ⟨_, hclaim⟩
  · rw [hclaim] at hc
    cases hc
    exact ⟨rfl, fun j hj => Timers.placeAt_insert (Nat.ne_of_gt (h.contexts c j hj).1), hext,
      Nat.le_of_eq (insertPlace_length _ _)⟩
  · rw [hclaim] at hc
    cases hc

theorem updFaceFrom (e : Engines) (v : Vector OverrideSlot 4) (d : Nat) (g : Face → Face) :
    SparesCtx c 0 e (e.updFaceFrom v d g) := of_eq (by simp) (by simp)

theorem changeMark (e : Engines) (d : Nat) (rise : Bool) : SparesCtx c 0 e (e.changeMark d rise) :=
  of_eq (by simp) (by simp)

theorem handNotices (e : Engines) (ds : List Nat) : SparesCtx c 0 e (e.handNotices ds) := of_eq (by simp) (by simp)

/-! ## Other contexts -/

theorem claimDwell (h : e.ClaimsSafe) (A : Ambient) (hk : k ≠ c) (ahead : Nat) : SparesCtx c 1 e (e.claimDwell A k ahead) := by
  unfold Engines.claimDwell
  dsimp only
  split
  · rename_i tm id hclaim
    exact (claim h hclaim).trans (onCtx _ hk _)
  · exact ((onCtx e hk _).trans (report A _ _)).mono (Nat.zero_le 1)

theorem suspend (h : e.ClaimsSafe) (A : Ambient) (hk : k ≠ c) : SparesCtx c 0 e (e.suspend A k) := by
  unfold Engines.suspend Engines.releaseDwell
  have howner : Owner.context k ≠ .context c := fun ho => hk (Owner.context.inj ho)
  exact ((release_other h (h.contexts k) howner).trans (onCtx _ hk _)).trans (onCtx _ hk _)

theorem resume (h : e.ClaimsSafe) (A : Ambient) (hk : k ≠ c) : SparesCtx c 1 e (e.resume A k) := by
  unfold Engines.resume
  have hplaying := h.onCtx k (fun x => { x with state := .playing }) fun _ => .inr rfl
  exact (onCtx e hk _).trans (claimDwell hplaying A hk _)

/-- A target event of another context claims at most one place (R97, R101 to R103). -/
theorem targetEvent (h : e.ClaimsSafe) (A : Ambient) (hk : k ≠ c) : SparesCtx c 1 e (e.targetEvent A k) := by
  have hrefl : SparesCtx c 1 e e := (refl e).mono (Nat.zero_le 1)
  unfold Engines.targetEvent
  dsimp only
  split
  · split
    · exact (suspend h A hk).mono (Nat.zero_le 1)
    · split
      · exact claimDwell h A hk _
      · exact hrefl
  · split
    · exact resume h A hk
    · exact hrefl
  · exact hrefl
  · exact hrefl

/-! ## Moves of cover -/

/-- A pass of releases of holdings whose numbers are not the context's, or are gone. -/
theorem foldl_release {α : Type} (op : Engines → α → Engines) (held : α → Option Nat) {l : List α}
    (hplay : ∀ (b : Engines) x, (op b x).play = b.play)
    (htimers : ∀ (b : Engines) x, (op b x).timers = b.timers.releaseOpt (held x))
    (h : ∀ x ∈ l, ∀ id, (e.ctx c).place = some id → held x ≠ some id ∨ e.timers.placeAt id = none) :
    SparesCtx c 0 e (l.foldl op e) := by
  refine foldl_inv_mem (fun b => SparesCtx c 0 e b) op l (fun b x hx hb => ?_) e (refl e)
  have hrelease : SparesCtx c 0 b (b.release (held x)) := release fun id hid => by
    rw [hb.ctx] at hid
    rw [hb.place id hid]
    exact h x hx id hid
  exact (hb.trans hrelease).trans (of_eq (hplay b x) (htimers b x))

theorem cancelTerminal (h : e.ClaimsSafe) (A : Ambient) (d : Nat) (why : Reason) :
    SparesCtx c 0 e (e.cancelTerminal A d why) := by
  rw [cancelTerminal_eq]
  unfold cancelled
  extract_lets ended
  have hended : SparesCtx c 0 e ended := by
    refine foldl_release _ (fun x => some x.place) (fun _ _ => rfl) (fun _ _ => rfl) fun x hx id hid => ?_
    exact (h.entry_gives (List.mem_filter.1 hx).1).apart (h.contexts c) Owner.noConfusion hid
  have hprompts : ended.promptsOf d = e.promptsOf d := by
    refine foldl_keeps (fun b : Engines => b.promptsOf d) _ ?_ _ e
    exact fun _ _ => rfl
  have hfreed : SparesCtx c 0 ended ((ended.promptsOf d).foldl (fun e p => e.release p.hold) ended) := by
    refine foldl_release _ Prompt.hold (fun _ _ => rfl) (fun _ _ => rfl) fun x hx id hid => ?_
    rw [hended.ctx] at hid
    rw [hended.place id hid]
    exact (h.prompts d x (hprompts ▸ hx)).apart (h.contexts c) Owner.noConfusion hid
  exact (hended.trans hfreed).trans ((storePrompts _ d []).trans (updFaceFrom _ _ d _))

theorem moveCover (h : e.ClaimsSafe) (A : Ambient) (v : Vector OverrideSlot 4) (d : Nat) (old new : Option (Fin 4))
    (cls : DisplayClass) : SparesCtx c 0 e (e.moveCover A v d old new cls) := by
  unfold Engines.moveCover
  split
  · exact refl e
  · unfold Engines.onset
    dsimp only
    split
    · exact (updFaceFrom e _ d _).trans (cancelTerminal (h.updFace d _) A d _)
    · exact updFaceFrom e _ d _
  · exact updFaceFrom e _ d _
  · split
    · exact refl e
    · exact updFaceFrom e v d _

/-! ## The place of a slot -/

theorem settlePlace (h : e.ClaimsSafe) (A : Ambient) (s : Fin 4) : SparesCtx c 1 e (e.settlePlace A s) := by
  unfold Engines.settlePlace
  dsimp only
  split
  · split
    · exact (refl e).mono (Nat.zero_le 1)
    · unfold Engines.claimOverride
      split
      · rename_i tm id hclaim
        exact (claim h hclaim).trans (onSlot _ s _)
      · exact (report A e _).mono (Nat.zero_le 1)
  · exact ((release_other h (h.slots s) Owner.noConfusion).trans (onSlot _ s _)).mono (Nat.zero_le 1)

end Engines.SparesCtx

/-! ## Suspension and resumption -/

section Suspend

variable (A : Ambient) (e : Engines) (c : Fin 16)

/-- What is left of a context's dwell: the remaining time of its place, or the whole dwell where it holds none (R102). -/
def dwellLeft : Nat :=
  match (e.ctx c).place with
  | some id => e.timers.remaining A.now id
  | none => ((e.ctx c).accepted.getD Rec4.zero).ploDwell

theorem ctx_suspend : (e.suspend A c).ctx c =
    { e.ctx c with state := .suspended, place := none, saved := dwellLeft A e c } := by
  unfold Engines.suspend
  simp only [ctx_onCtx, ctx_releaseDwell, if_true]
  rfl

variable {A e c} in
theorem dwellLeft_spares {n : Nat} {e' : Engines} (h : e.SparesCtx c n e') : dwellLeft A e' c = dwellLeft A e c := by
  unfold dwellLeft
  rw [h.ctx]
  cases hplace : (e.ctx c).place with
  | none => rfl
  | some id => exact Timers.remaining_congr (h.place id hplace) A.now

variable {e c} in
/-- The place of a context that is suspended leaves the list. -/
theorem suspend_frees (h : e.ClaimsSafe) {id : Nat} (hid : (e.ctx c).place = some id) :
    id < (e.suspend A c).timers.nextId ∧ ∀ p ∈ (e.suspend A c).timers.list, p.id ≠ id := by
  have ht : (e.suspend A c).timers = e.timers.release id := by
    show e.timers.releaseOpt (e.ctx c).place = _
    rw [hid]
    rfl
  rw [ht]
  exact ⟨(h.contexts c id hid).1, fun p hp => by simpa using (List.mem_filter.1 hp).2⟩

/-- The place that a resumption claims (R98, R103). -/
def resumedPlace : TimerPlace :=
  ⟨e.timers.nextId, .dwell, .context c, later A.now (e.ctx c).saved, ((e.ctx c).accepted.getD Rec4.zero).ploDwell, 0⟩

variable {A e c}

theorem resume_of_room (h : e.timers.list.length < Config.timerPlaces) :
    (e.resume A c).ctx c = { e.ctx c with state := .playing, place := some (resumedPlace A e c).id } ∧
      resumedPlace A e c ∈ (e.resume A c).timers.list := by
  unfold Engines.resume
  extract_lets playing
  have hctx : playing.ctx c = { e.ctx c with state := .playing } := by rw [ctx_onCtx, if_pos rfl]
  have hclaim : playing.timers.claim .dwell (.context c) (later A.now (playing.ctx c).saved)
      ((playing.ctx c).accepted.getD Rec4.zero).ploDwell 0 =
        (⟨insertPlace e.timers.list (resumedPlace A e c), e.timers.nextId + 1⟩, some e.timers.nextId) := by
    rw [hctx]
    exact if_pos h
  refine ⟨?_, ?_⟩
  · rw [ctx_claimDwell, if_pos rfl, hctx, show playing.timers = e.timers from rfl, if_pos h]
    rfl
  · unfold Engines.claimDwell
    dsimp only
    rw [hclaim]
    exact (mem_insertPlace _ _ _).2 (.inl rfl)

end Suspend

theorem later_zero (t : BitVec 32) : later t 0 = t := by simp [later]

theorem reached_self (t : BitVec 32) : reached t t = true := by simp [reached]

end Sys2Proof.Machine

/-! SUPPORT. What an accepted override slot record does to the contexts whose targets it covers or uncovers (R86, R97, R102,
R103). -/

namespace Sys2Proof.Machine

/-! ## A cover event in its parts -/

/-- The moves of a cover event carried out (R86). -/
def coverMoved (A : Ambient) (e : Engines) (v : Vector OverrideSlot 4) (ds : List Nat) : Engines :=
  (coverMoves e ds).foldl (fun e m => e.moveCover A v m.display m.old m.new m.cls) e

/-- The displays of a cover event's onsets and releases (R86). -/
def coverNamed (e : Engines) (ds : List Nat) : List Nat := ((coverMoves e ds).filter CoverMove.notified).map CoverMove.display

theorem coverTested_nil (A : Ambient) (e : Engines) : coverTested A e [] = e := by
  refine foldl_inv (fun b => b = e) _ (fun b c hb => ?_) _ e rfl
  rw [if_neg (by simp), hb]

/-- The moves, the tests of the contexts, the choice of the owners. With no onset and no release the last two do nothing. -/
theorem coverEventFrom_eq (A : Ambient) (e : Engines) (v : Vector OverrideSlot 4) (ds : List Nat) :
    e.coverEventFrom A v ds = (coverTested A (coverMoved A e v ds) (coverNamed e ds)).handNotices (coverNamed e ds) := by
  have heq : e.coverEventFrom A v ds = if (coverNamed e ds).isEmpty then coverMoved A e v ds
      else (coverMoved A e v ds).coverNotice A (coverNamed e ds) := rfl
  rw [heq]
  split
  · rename_i hnil
    rw [List.isEmpty_iff.1 hnil, coverTested_nil]
    rfl
  · exact coverNotice_eq _ _ _

/-- A display is named where its cover comes or goes. -/
theorem mem_coverNamed_iff {e : Engines} {ds : List Nat} {d : Nat} : d ∈ coverNamed e ds ↔
    d ∈ ds ∧ ∃ f, e.faceOf d = some f ∧ f.cover.isSome ≠ (coverOf e.face.slots f).isSome := by
  have hnotified : ∀ a b : Option (Fin 4), (a ≠ b ∧ (a.isNone || b.isNone) = true) ↔ a.isSome ≠ b.isSome := by
    intro a b
    cases a <;> cases b <;> simp
  simp only [← hnotified]
  unfold coverNamed CoverMove.notified
  constructor
  · intro hmem
    obtain ⟨m, hm, rfl⟩ := List.mem_map.1 hmem
    obtain ⟨hm, hnot⟩ := List.mem_filter.1 hm
    obtain ⟨hne, f, hf, hold, hnew⟩ := mem_coverMoves hm
    rw [hold, hnew] at hne hnot
    exact ⟨(coverMoves_sublist e ds).subset (List.mem_map_of_mem hm), f, hf, hne, hnot⟩
  · rintro ⟨hd, f, hf, hne, hnot⟩
    refine List.mem_map.2 ⟨⟨d, f.cls, f.cover, coverOf e.face.slots f⟩, List.mem_filter.2 ⟨?_, hnot⟩, rfl⟩
    exact List.mem_filter.2 ⟨List.mem_filterMap.2 ⟨d, hd, by rw [hf]; rfl⟩, by simpa using hne⟩

/-- The test of one context at a cover notice (R97). -/
def coverTest (A : Ambient) (ds : List Nat) (e : Engines) (c : Fin 16) : Engines :=
  if (e.ctx c).targets.any ds.contains then e.targetEvent A c else e

theorem coverTested_eq (A : Ambient) (e : Engines) (ds : List Nat) :
    coverTested A e ds = (List.finRange 16).foldl (coverTest A ds) e := rfl

theorem coverTest_face (A : Ambient) (ds : List Nat) (e : Engines) (c : Fin 16) : (coverTest A ds e c).face = e.face := by
  unfold coverTest
  split
  · exact Engines.targetEvent_face e A c
  · rfl

theorem Engines.ClaimsSafe.coverTest {e : Engines} (h : e.ClaimsSafe) (A : Ambient) (ds : List Nat) (c : Fin 16) :
    (coverTest A ds e c).ClaimsSafe := by
  unfold Machine.coverTest
  split
  · exact h.targetEvent A c
  · exact h

theorem Engines.ClaimsSafe.coverTested {e : Engines} (h : e.ClaimsSafe) (A : Ambient) (ds : List Nat) :
    (coverTested A e ds).ClaimsSafe :=
  foldl_inv Engines.ClaimsSafe _ (fun _ c hb => hb.coverTest A ds c) _ _ h

/-- A pass of tests of other contexts. -/
theorem Engines.SparesCtx.coverTests {c : Fin 16} {e : Engines} (h : e.ClaimsSafe) (A : Ambient) (ds : List Nat)
    {l : List (Fin 16)} (hc : c ∉ l) :
    e.SparesCtx c (1 * l.length) (l.foldl (coverTest A ds) e) ∧ (l.foldl (coverTest A ds) e).ClaimsSafe := by
  refine Engines.SparesCtx.foldl _ (fun b k hk hb => ⟨?_, hb.coverTest A ds k⟩) h
  unfold coverTest
  split
  · exact targetEvent hb A fun hkc => hc (hkc ▸ hk)
  · exact (refl b).mono (Nat.zero_le 1)

/-- Before and after the test of a context stand those of the fifteen others, which spare it. -/
theorem coverTested_at (A : Ambient) {e : Engines} (h : e.ClaimsSafe) (ds : List Nat) (c : Fin 16) :
    ∃ b : Engines, b.ClaimsSafe ∧ e.SparesCtx c 15 b ∧ b.face = e.face ∧
      (coverTest A ds b c).SparesCtx c 15 (coverTested A e ds) := by
  obtain ⟨l1, l2, hl⟩ := List.append_of_mem (List.mem_finRange c)
  have hnd := List.nodup_finRange 16
  have hlen : (List.finRange 16).length = 16 := List.length_finRange
  rw [hl, List.nodup_append, List.nodup_cons] at hnd
  obtain ⟨_, ⟨hc2, _⟩, hc1⟩ := hnd
  rw [hl, List.length_append, List.length_cons] at hlen
  obtain ⟨hfirst, hb⟩ := Engines.SparesCtx.coverTests h A ds (l := l1) fun hc => hc1 c hc c List.mem_cons_self rfl
  obtain ⟨hlast, _⟩ := Engines.SparesCtx.coverTests (hb.coverTest A ds c) A ds hc2
  rw [coverTested_eq, hl, List.foldl_append, List.foldl_cons]
  exact ⟨_, hb, hfirst.mono (by omega), foldl_keeps Engines.face _ (coverTest_face A ds) l1 e, hlast.mono (by omega)⟩

/-! ## The cover of the targets -/

/-- A display is listed, and lies under an override slot in force. -/
def Engines.covers (e : Engines) (d : Nat) : Prop := ∃ f, e.faceOf d = some f ∧ f.cover ≠ none

/-- A display is listed, and lies under no override slot in force. -/
def Engines.bare (e : Engines) (d : Nat) : Prop := ∃ f, e.faceOf d = some f ∧ f.cover = none

theorem allCovered_iff (e : Engines) (ds : List Nat) : allCovered e.face.faces ds = true ↔ ∀ d ∈ ds, e.covers d := by
  unfold allCovered
  rw [List.all_eq_true]
  refine forall₂_congr fun d _ => ?_
  unfold Engines.covers Engines.faceOf
  cases e.face.faces.get d with
  | none => simp
  | some f => simp [Option.isSome_iff_ne_none]

theorem not_covers_of_bare {e : Engines} {d : Nat} (h : e.bare d) : ¬ e.covers d := by
  rintro ⟨f, hf, hcover⟩
  obtain ⟨g, hg, hbare⟩ := h
  rw [hf] at hg
  cases hg
  exact hcover hbare

/-- The covering slot of a display, where it is listed. -/
def Engines.coverAt (e : Engines) (d : Nat) : Option (Option (Fin 4)) := (e.faceOf d).map Face.cover

/-- The cover is part of a display's look. -/
theorem coverAt_eq (e : Engines) (d : Nat) : e.coverAt d = (e.lookOf d).map Face.cover := by
  unfold Engines.coverAt Engines.lookOf
  rw [Option.map_map]
  rfl

theorem covers_iff (e : Engines) (d : Nat) : e.covers d ↔ ∃ k, e.coverAt d = some (some k) := by
  unfold Engines.covers Engines.coverAt
  cases e.faceOf d with
  | none => simp
  | some f => simp [Option.ne_none_iff_exists']

theorem bare_iff (e : Engines) (d : Nat) : e.bare d ↔ e.coverAt d = some none := by
  unfold Engines.bare Engines.coverAt
  cases e.faceOf d <;> simp

/-! ## The record -/

section AcceptSlot

variable (A : Ambient) (e : Engines) (k : Fin 4) (r : Rec4)

/-- The slot with its new record, before any cover moves. -/
def slotTaken : Engines := e.onSlot k (OverrideSlot.taken A.ready r)

/-- The displays whose cover an accepted slot record brings or takes. -/
def slotNamed : List Nat := coverNamed (slotTaken A e k r) (Tab.keys e.face.faces)

/-- The covers moved by an accepted slot record, before the Playout Engine is told. -/
def slotMoved : Engines := coverMoved A (slotTaken A e k r) e.face.slots (Tab.keys e.face.faces)

/-- The last part of an accepted slot record: the marks of the faces it keeps covering, and its place. -/
def slotSettled (b : Engines) : Engines :=
  ((e.face.faces.filter fun x => x.2.cover == some k).foldl
    (fun acc x =>
      if coverOf (slotTaken A e k r).face.slots x.2 = some k ∧
          x.2.visible (slotTaken A e k r).face.slots ≠ x.2.visible e.face.slots then acc.changeMark x.1 false
      else acc) b).settlePlace A k

theorem acceptSlot_eq : e.acceptSlot A k r = slotSettled A e k r
    ((coverTested A (slotMoved A e k r) (slotNamed A e k r)).handNotices (slotNamed A e k r)) := by
  unfold slotMoved slotNamed
  rw [← coverEventFrom_eq]
  rfl

/-! ### The covers it leaves -/

theorem slotSettled_lookOf (b : Engines) (d : Nat) : (slotSettled A e k r b).lookOf d = b.lookOf d := by
  have hsettle : ∀ b : Engines, (b.settlePlace A k).lookOf d = b.lookOf d := by
    intro b
    unfold Engines.settlePlace Engines.claimOverride
    dsimp only
    repeat' split
    all_goals rfl
  unfold slotSettled
  rw [hsettle]
  refine lookOf_keeps (Engines.Keeps.foldl _ _ (fun b x _ => ?_) b) d
  split
  · exact Engines.Keeps.changeMark _ _ _
  · exact Engines.Keeps.refl _

theorem acceptSlot_lookOf (d : Nat) : (e.acceptSlot A k r).lookOf d =
    ((slotTaken A e k r).coverEventFrom A e.face.slots (Tab.keys e.face.faces)).lookOf d :=
  slotSettled_lookOf A e k r _ d

/-- After the moves no cover changes. -/
theorem slotMoved_coverAt (d : Nat) : (slotMoved A e k r).coverAt d = (e.acceptSlot A k r).coverAt d := by
  rw [coverAt_eq, coverAt_eq, acceptSlot_eq, slotSettled_lookOf, lookOf_keeps (Engines.Keeps.handNotices _ _)]
  unfold Engines.lookOf Engines.faceOf
  rw [coverTested_face]

/-- Each display takes the covering slot that the records now give it (R82). -/
theorem acceptSlot_coverAt (d : Nat) :
    (e.acceptSlot A k r).coverAt d = (e.faceOf d).map (coverOf (slotTaken A e k r).face.slots) := by
  have htaken : (slotTaken A e k r).lookOf d = (e.faceOf d).map Face.look := rfl
  rw [coverAt_eq, acceptSlot_lookOf, Engines.FacesDerived.lookOf_coverEventFrom, htaken]
  cases hf : e.faceOf d with
  | none => simp
  | some f =>
    rw [if_pos (Tab.mem_keys_of_get _ hf)]
    rfl

/-- The displays named are those that come under cover and those that come out of it. -/
theorem mem_slotNamed_iff (d : Nat) : d ∈ slotNamed A e k r ↔
    (e.covers d ∧ (e.acceptSlot A k r).bare d) ∨ (e.bare d ∧ (e.acceptSlot A k r).covers d) := by
  simp only [slotNamed, mem_coverNamed_iff, covers_iff, bare_iff, acceptSlot_coverAt]
  unfold Engines.coverAt
  have hface : (slotTaken A e k r).faceOf d = e.faceOf d := rfl
  rw [hface]
  cases hf : e.faceOf d with
  | none => simp
  | some f =>
    have hkey : d ∈ Tab.keys e.face.faces := Tab.mem_keys_of_get _ hf
    cases hold : f.cover <;> cases hnew : coverOf (slotTaken A e k r).face.slots f <;> simp [hkey, hold, hnew]

/-! ### The tests of one context -/

variable {A e k r}

theorem slotMoved_spares (h : e.ClaimsSafe) (c : Fin 16) :
    e.SparesCtx c 0 (slotMoved A e k r) ∧ (slotMoved A e k r).ClaimsSafe := by
  have htaken : (slotTaken A e k r).ClaimsSafe := h.onSlot k _ fun _ => .inr rfl
  obtain ⟨hmoved, hsafe⟩ := Engines.SparesCtx.foldl (c := c) (n := 0)
    (fun b (m : CoverMove) => b.moveCover A e.face.slots m.display m.old m.new m.cls)
    (l := coverMoves (slotTaken A e k r) (Tab.keys e.face.faces))
    (fun b m _ hb => ⟨Engines.SparesCtx.moveCover hb A _ _ _ _ _, hb.moveCover A _ _ _ _ _⟩) htaken
  exact ⟨((Engines.SparesCtx.onSlot e k _).trans hmoved).mono (by omega), hsafe⟩

theorem slotSettled_spares {b : Engines} (h : b.ClaimsSafe) (c : Fin 16) : b.SparesCtx c 1 (slotSettled A e k r b) := by
  unfold slotSettled
  obtain ⟨hmarked, hsafe⟩ := Engines.SparesCtx.foldl (c := c) (n := 0)
    (fun (acc : Engines) (x : Nat × Face) =>
      if coverOf (slotTaken A e k r).face.slots x.2 = some k ∧
          x.2.visible (slotTaken A e k r).face.slots ≠ x.2.visible e.face.slots then acc.changeMark x.1 false
      else acc) (l := e.face.faces.filter fun x => x.2.cover == some k)
    (fun b x _ hb => by
      split
      · exact ⟨Engines.SparesCtx.changeMark b _ _, hb.changeMark _ _⟩
      · exact ⟨Engines.SparesCtx.refl b, hb⟩) h
  exact (hmarked.trans (Engines.SparesCtx.settlePlace hsafe A k)).mono (by omega)

/-- Up to the test of a context the record spares it, and the covers stand as the record leaves them; after it the record
spares it again. -/
theorem acceptSlot_at (h : e.ClaimsSafe) (c : Fin 16) : ∃ b : Engines, b.ClaimsSafe ∧ e.SparesCtx c 15 b ∧
    (∀ ds, allCovered b.face.faces ds = true ↔ ∀ d ∈ ds, (e.acceptSlot A k r).covers d) ∧
    (coverTest A (slotNamed A e k r) b c).SparesCtx c 16 (e.acceptSlot A k r) := by
  obtain ⟨hmoved, hsafe⟩ := slotMoved_spares (A := A) (k := k) (r := r) h c
  obtain ⟨b, hb, hbefore, hface, hafter⟩ := coverTested_at A hsafe (slotNamed A e k r) c
  refine ⟨b, hb, (hmoved.trans hbefore).mono (by omega), fun ds => ?_, ?_⟩
  · rw [hface, allCovered_iff]
    simp only [covers_iff, slotMoved_coverAt]
  · have htested := hsafe.coverTested A (slotNamed A e k r)
    have hhanded := Engines.SparesCtx.handNotices (c := c) (coverTested A (slotMoved A e k r) (slotNamed A e k r))
      (slotNamed A e k r)
    rw [acceptSlot_eq]
    exact ((hafter.trans hhanded).trans (slotSettled_spares (htested.handNotices _) c)).mono (by omega)

/-- A context of which a target comes under cover, or out of it, is tested. -/
theorem coverTest_of_named {b : Engines} {c : Fin 16} {ds : List Nat} {d : Nat} (hd : d ∈ (b.ctx c).targets) (hn : d ∈ ds) :
    coverTest A ds b c = b.targetEvent A c :=
  if_pos (List.any_eq_true.2 ⟨d, hd, by simpa using hn⟩)

theorem coverTest_of_none {b : Engines} {c : Fin 16} {ds : List Nat} (h : ∀ d ∈ (b.ctx c).targets, d ∉ ds) :
    coverTest A ds b c = b :=
  if_neg fun hany => by
    obtain ⟨d, hd, hn⟩ := List.any_eq_true.1 hany
    exact h d hd (by simpa using hn)

theorem targetEvent_suspends {b : Engines} {c : Fin 16} (hs : (b.ctx c).state = .playing) {d : Nat}
    (hd : d ∈ (b.ctx c).targets) (hall : allCovered b.face.faces (b.ctx c).targets = true) :
    b.targetEvent A c = b.suspend A c := by
  unfold Engines.targetEvent
  dsimp only
  rw [hs]
  exact if_pos (by simp [hall, List.ne_nil_of_mem hd])

theorem targetEvent_resumes {b : Engines} {c : Fin 16} (hs : (b.ctx c).state = .suspended)
    (hall : allCovered b.face.faces (b.ctx c).targets = false) : b.targetEvent A c = b.resume A c := by
  unfold Engines.targetEvent
  dsimp only
  rw [hs]
  exact if_pos (by simp [hall])

section Contexts

variable (h : e.ClaimsSafe) {c : Fin 16}

include h

/-- A PLAYING context whose last bare target comes under cover is SUSPENDED (R86, R102). -/
theorem acceptSlot_suspends (hs : (e.ctx c).state = .playing)
    (hall : ∀ d ∈ (e.ctx c).targets, (e.acceptSlot A k r).covers d) (hbare : ∃ d ∈ (e.ctx c).targets, e.bare d) :
    (e.acceptSlot A k r).ctx c = { e.ctx c with state := .suspended, place := none, saved := dwellLeft A e c } ∧
      ∀ id, (e.ctx c).place = some id → ∀ p ∈ (e.acceptSlot A k r).timers.list, p.id ≠ id := by
  obtain ⟨b, hb, hbefore, hcovers, hafter⟩ := acceptSlot_at (A := A) (k := k) (r := r) h c
  obtain ⟨d, hd, hdbare⟩ := hbare
  have hnamed : d ∈ slotNamed A e k r := (mem_slotNamed_iff A e k r d).2 (.inr ⟨hdbare, hall d hd⟩)
  have hctx := hbefore.ctx
  have htest : coverTest A (slotNamed A e k r) b c = b.suspend A c := by
    rw [coverTest_of_named (hctx ▸ hd) hnamed]
    exact targetEvent_suspends (hctx ▸ hs) (hctx ▸ hd) ((hcovers _).2 (hctx ▸ hall))
  rw [htest] at hafter
  refine ⟨?_, fun id hid => ?_⟩
  · rw [hafter.ctx, ctx_suspend, hctx, dwellLeft_spares hbefore]
  · obtain ⟨hold, hgone⟩ := suspend_frees A hb (hctx ▸ hid)
    exact hafter.ext.gone hold hgone

/-- A SUSPENDED context of which a target comes out of cover is PLAYING, with a place for what was saved (R86, R103). -/
theorem acceptSlot_resumes (hs : (e.ctx c).state = .suspended)
    (hopen : ∃ d ∈ (e.ctx c).targets, e.covers d ∧ (e.acceptSlot A k r).bare d) (hroom : e.timers.list.length ≤ 111) :
    ∃ p ∈ (e.acceptSlot A k r).timers.list,
      (e.acceptSlot A k r).ctx c = { e.ctx c with state := .playing, place := some p.id } ∧
        p.kind = .dwell ∧ p.owner = .context c ∧ p.expiry = later A.now (e.ctx c).saved ∧
        p.interval = ((e.ctx c).accepted.getD Rec4.zero).ploDwell ∧ p.count = 0 := by
  obtain ⟨b, hb, hbefore, hcovers, hafter⟩ := acceptSlot_at (A := A) (k := k) (r := r) h c
  obtain ⟨d, hd, hdopen⟩ := hopen
  have hnamed : d ∈ slotNamed A e k r := (mem_slotNamed_iff A e k r d).2 (.inl hdopen)
  have hctx := hbefore.ctx
  have htest : coverTest A (slotNamed A e k r) b c = b.resume A c := by
    rw [coverTest_of_named (hctx ▸ hd) hnamed]
    refine targetEvent_resumes (hctx ▸ hs) (Bool.eq_false_iff.2 fun hall => ?_)
    exact not_covers_of_bare hdopen.2 ((hcovers _).1 hall d (hctx ▸ hd))
  rw [htest] at hafter
  have hfree : b.timers.list.length < Config.timerPlaces := by
    have hlen := hbefore.room
    show b.timers.list.length < 128
    omega
  obtain ⟨hresumed, hmem⟩ := resume_of_room (A := A) (c := c) hfree
  have hat : (e.acceptSlot A k r).timers.placeAt (resumedPlace A b c).id = some (resumedPlace A b c) := by
    rw [hafter.place _ (by rw [hresumed])]
    exact (hb.resume A c).placeAt_of_mem hmem
  refine ⟨_, Timers.mem_of_placeAt hat, ?_, rfl, rfl, ?_, ?_, rfl⟩
  · rw [hafter.ctx, hresumed, hctx]
  · rw [← hctx]
    rfl
  · rw [← hctx]
    rfl

/-- A context none of whose targets comes under cover or out of it keeps what it holds (R97). -/
theorem acceptSlot_leaves (hsame : ∀ d ∈ (e.ctx c).targets, ¬ (e.covers d ∧ (e.acceptSlot A k r).bare d) ∧
    ¬ (e.bare d ∧ (e.acceptSlot A k r).covers d)) : (e.acceptSlot A k r).ctx c = e.ctx c := by
  obtain ⟨b, _, hbefore, _, hafter⟩ := acceptSlot_at (A := A) (k := k) (r := r) h c
  have htest : coverTest A (slotNamed A e k r) b c = b := coverTest_of_none fun d hd hn => by
    obtain ⟨hopen, hclosed⟩ := hsame d (hbefore.ctx ▸ hd)
    exact ((mem_slotNamed_iff A e k r d).1 hn).elim hopen hclosed
  rw [htest] at hafter
  exact hafter.ctx.trans hbefore.ctx

end Contexts

end AcceptSlot

/-- Settles O54: the remaining time by `Timers.remaining_of_placeAt`, a suspension and a resumption by `ctx_suspend` and
`resume_of_room`, the record by `acceptSlot_suspends`, `acceptSlot_resumes` and `acceptSlot_leaves`. -/
theorem remainingTimeIsSavedAtSuspension : Obligations.RemainingTimeIsSavedAtSuspension := by
  refine ⟨fun A e c p hp => ?_, fun s k c haccepts hsafe => ?_⟩
  · have hat : e.timers.placeAt p.id = some p := hp
    have hremaining := Timers.remaining_of_placeAt hat A.now
    refine ⟨⟨fun hdue => ?_, fun hahead => ?_⟩, fun hheld => ?_, fun hsaved hroom => ?_⟩
    · exact hremaining.trans (if_pos (decide_eq_true hdue))
    · rw [hremaining, if_neg (by simpa [reached] using hahead)]
    · rw [ctx_suspend]
      refine ⟨?_, rfl⟩
      unfold dwellLeft
      rw [hheld]
    · obtain ⟨hctx, hmem⟩ := resume_of_room (A := A) (c := c) hroom
      have hnow : (resumedPlace A e c).expiry = A.now := by
        show later A.now (e.ctx c).saved = A.now
        rw [hsaved, later_zero]
      exact ⟨_, hmem, by rw [hctx], hnow, by rw [hnow]; exact reached_self A.now⟩
  · intro x dwell covers bare
    exact ⟨_, exec_overrideSlotCommit_accepted haccepts, acceptSlot_suspends hsafe, acceptSlot_resumes hsafe,
      acceptSlot_leaves hsafe⟩

end Sys2Proof.Machine

/-! SUPPORT. What a command can do, said once: it faults, leaves the state as it is, or acts (the inversion lemmas of `exec` and
`step`), and what the actions that reach the engines alone leave as it was. -/

namespace Sys2Proof.Machine

/-! ## The action of a command -/

/-- What a command does to the state of a part that is out of reset and takes the command. -/
def State.act (s : State) : Instr → State
  | .powerOnReset => s.poweredOn
  | .usTick => s.usTick
  | .msTick => s.msTick
  | .upstreamWrite addr beats => s.takeWrite addr.toNat beats
  | .upstreamRead addr count => s.takeRead addr.toNat count
  | .hostWriteComplete => s.hostWriteComplete
  | .hostReadComplete => s.hostReadComplete
  | .holdoffEnd => s.holdoffEnd
  | .holdoffExpiry => s.holdoffExpiry
  | .intakeDrain => s.intakeDrain
  | .carCommit => s.carCommit
  | .assignCommit => s.assignCommit
  | .rosterCommit => s.rosterCommit
  | .labelCommit => s.labelCommit
  | .playoutCommit => s.playoutCommit
  | .relocationCommit => s.relocationCommit
  | .descriptorCommit => s.descriptorCommit
  | .settingsCommit => s.settingsCommit
  | .groupCommit => s.groupCommit
  | .linkSetupCommit => s.linkSetupCommit
  | .overrideSlotCommit => s.overrideSlotCommit
  | .languageCommit => s.languageCommit
  | .ringSetupCommit => s.ringSetupCommit
  | .restart => s.restartCommand
  | .sweep => s.sweepCommand
  | .loadGlyphs => s.loadGlyphsCommand
  | .badOpcode => s.badOpcode
  | .fetchChannelTake ch => s.channelTake ch
  | .sweepReadIssue ch => s.sweepReadIssue ch
  | .sweepReadComplete => s.sweepReadComplete
  | .sweepCompletion => s.sweepCompletion
  | .textFillTransferComplete ch => s.textTransferComplete ch
  | .glyphTransferComplete ch => s.glyphTransferComplete ch
  | .outSlot n => s.outSlot n
  | .frameComplete n => s.frameComplete n
  | .abortBlockSent n => s.abortBlockSent n
  | .statusAnswer n heard => s.statusAnswer n heard
  | .entryAnswer n heard => s.entryAnswer n heard
  | .inSlotMiss n heard => s.inSlotMiss n heard
  | .entryWaitExpiry => s.deliver .entryWait onEntryWait
  | .promptHoldExpiry => s.deliver .promptHold onPromptHold
  | .lanternExpiry => s.deliver .lantern onLantern
  | .gongExpiry => s.deliver .gong onGong
  | .dwellExpiry => s.deliver .dwell onDwell
  | .overrideDwellExpiry => s.deliver .overrideDwell onOverrideDwell
  | .reportWriteIssue => s.reportIssue
  | .reportWriteComplete => s.reportComplete
  | .statusMirrorWrite => s.mirrorIssue
  | .resetNFall => s.resetFall
  | .slotPositionAdvance n => s.slotAdvance n
  | .fetchReadComplete => s.fetchReadComplete
  | .statusMirrorWriteComplete => s.mirrorComplete

theorem whenUp_cases (s : State) (f : State → State) : whenUp s f = .next s ∨ whenUp s f = .next (f s) := by
  unfold whenUp
  split
  · exact .inl rfl
  · exact .inr rfl

theorem exec_upstreamWrite_of_burst {addr : BitVec 26} {beats : List Beat} (h : burstOk addr.toNat beats.length = true)
    (s : State) : exec (.upstreamWrite addr beats) s = whenUp s fun s => s.takeWrite addr.toNat beats := if_pos h

theorem exec_upstreamWrite_of_no_burst {addr : BitVec 26} {beats : List Beat} (h : burstOk addr.toNat beats.length = false)
    (s : State) : exec (.upstreamWrite addr beats) s = .fault .notATransaction := if_neg (by simp [h])

theorem exec_upstreamRead_of_burst {addr : BitVec 26} {count : Nat} (h : burstOk addr.toNat count = true) (s : State) :
    exec (.upstreamRead addr count) s = whenUp s fun s => s.takeRead addr.toNat count := if_pos h

theorem exec_upstreamRead_of_no_burst {addr : BitVec 26} {count : Nat} (h : burstOk addr.toNat count = false) (s : State) :
    exec (.upstreamRead addr count) s = .fault .notATransaction := if_neg (by simp [h])

/-- A well-formed command leaves the state as it is or acts. -/
theorem exec_of_wf {c : Instr} (hwf : c.wf = true) (s : State) : exec c s = .next s ∨ exec c s = .next (s.act c) := by
  have hacts := whenUp_cases s fun s => s.act c
  cases c with
  | powerOnReset => exact .inr rfl
  | resetNFall => exact .inr rfl
  | upstreamWrite addr beats => rw [exec_upstreamWrite_of_burst hwf]; exact hacts
  | upstreamRead addr count => rw [exec_upstreamRead_of_burst hwf]; exact hacts
  | _ => exact hacts

/-- An ill-formed command is an upstream burst, and faults. -/
theorem exec_of_not_wf {c : Instr} (hwf : c.wf = false) (s : State) : exec c s = .fault .notATransaction := by
  cases c with
  | upstreamWrite addr beats => exact exec_upstreamWrite_of_no_burst hwf s
  | upstreamRead addr count => exact exec_upstreamRead_of_no_burst hwf s
  | _ => cases hwf

/-- A command that answers a next state has left the state as it is or acted. -/
theorem exec_next_cases {c : Instr} {s t : State} (h : exec c s = .next t) : t = s ∨ t = s.act c := by
  cases hwf : c.wf with
  | true =>
    rcases exec_of_wf hwf s with e | e
    · exact .inl (Host.Outcome.next.inj (h.symm.trans e))
    · exact .inr (Host.Outcome.next.inj (h.symm.trans e))
  | false =>
    rw [exec_of_not_wf hwf s] at h
    cases h

/-- A property that the clock and every action keep, whatever waits in the queue, is kept by every step. -/
theorem step_keeps (P : State → Prop) (hqueue : ∀ (s : State) (q : List Instr), P s → P { s with pending := q })
    (hcycle : ∀ s : State, P s → P s.refCycle) (hact : ∀ (s : State) (c : Instr), P s → P (s.act c)) {s t : State}
    (h : P s) (ht : step s = .next t) : P t := by
  unfold step at ht
  split at ht
  · cases ht
    exact hcycle s h
  · rename_i c rest _
    have hrest : P { s with pending := rest } := hqueue s rest h
    rcases exec_next_cases ht with rfl | rfl
    · exact hrest
    · exact hact _ c hrest

/-- Settles O12: `exec_of_wf` gives the next state of a well-formed command, and an ill-formed burst faults. -/
theorem commandsAnswerNextUnlessIllFormed : Obligations.CommandsAnswerNextUnlessIllFormed := by
  refine ⟨fun c s hwf => ?_, fun a beats n s =>
    ⟨fun h => exec_upstreamWrite_of_no_burst h s, fun h => exec_upstreamRead_of_no_burst h s⟩⟩
  rcases exec_of_wf hwf s with h | h
  · exact ⟨_, h⟩
  · exact ⟨_, h⟩

/-! ## Commits -/

/-- What a commit can do: the record is released, refused with a report, or accepted (R165). -/
theorem State.judge_cases {α : Type} [DecidableEq α] (s : State) (p : RecordPlace) (staged : α) (accepted : Option α)
    (check : Option Reason) (accept : State → State) :
    s.judge p staged accepted check accept = s.handedOver ∨
      (∃ why, s.judge p staged accepted check accept = s.handedOver.refuseRecord p why) ∨
      s.judge p staged accepted check accept = accept s.handedOver := by
  unfold State.judge
  split
  · exact .inl rfl
  · split
    · exact .inr (.inl ⟨_, rfl⟩)
    · exact .inr (.inr rfl)

/-! ## Actions on the engines alone -/

/-- The engines and the record held out are all that changed. -/
def State.ActsOnEngines (s t : State) : Prop :=
  ∃ (e : Engines) (handed : Option RecordPlace), t = { s with eng := e, asm := { s.asm with handed := handed } }

namespace State.ActsOnEngines

theorem refl (s : State) : s.ActsOnEngines s := ⟨_, _, rfl⟩

theorem engines (s : State) (f : Ambient → Engines → Engines) : s.ActsOnEngines (s.engines f) := ⟨_, s.asm.handed, rfl⟩

theorem report (s : State) (ev : Event) : s.ActsOnEngines (s.report ev) := engines s _

theorem handedOver (s : State) : s.ActsOnEngines s.handedOver := ⟨s.eng, none, rfl⟩

theorem trans {s t u : State} (h : s.ActsOnEngines t) (k : t.ActsOnEngines u) : s.ActsOnEngines u := by
  obtain ⟨_, _, rfl⟩ := h
  obtain ⟨e, handed, rfl⟩ := k
  exact ⟨e, handed, rfl⟩

/-- A commit acts on the engines alone when its acceptance does. -/
theorem judge {α : Type} [DecidableEq α] (s : State) (p : RecordPlace) (staged : α) (accepted : Option α)
    (check : Option Reason) (f : Ambient → Engines → Engines) :
    s.ActsOnEngines (s.judge p staged accepted check fun s => s.engines f) := by
  rcases s.judge_cases p staged accepted check fun s => s.engines f with e | ⟨why, e⟩ | e
  · rw [e]; exact handedOver s
  · rw [e]; exact (handedOver s).trans (report _ _)
  · rw [e]; exact (handedOver s).trans (engines _ _)

theorem carCommit (s : State) : s.ActsOnEngines s.carCommit := by
  unfold State.carCommit
  split
  · exact judge _ _ _ _ _ _
  · exact refl s

theorem assignCommit (s : State) : s.ActsOnEngines s.assignCommit := by
  unfold State.assignCommit
  split
  · unfold State.commitAssign
    dsimp only
    split
    · exact (handedOver s).trans (report _ _)
    · exact (handedOver s).trans (engines _ _)
  · exact refl s

theorem rosterCommit (s : State) : s.ActsOnEngines s.rosterCommit := by
  unfold State.rosterCommit
  split
  · exact judge _ _ _ _ _ _
  · exact refl s

theorem labelCommit (s : State) : s.ActsOnEngines s.labelCommit := by
  unfold State.labelCommit
  split
  · exact judge _ _ _ _ _ _
  · exact refl s

theorem playoutCommit (s : State) : s.ActsOnEngines s.playoutCommit := by
  unfold State.playoutCommit
  split
  · exact judge _ _ _ _ _ _
  · exact refl s

theorem groupCommit (s : State) : s.ActsOnEngines s.groupCommit := by
  unfold State.groupCommit
  split
  · exact judge _ _ _ _ _ _
  · exact refl s

theorem linkSetupCommit (s : State) : s.ActsOnEngines s.linkSetupCommit := by
  unfold State.linkSetupCommit
  split
  · exact judge _ _ _ _ _ _
  · exact refl s

theorem overrideSlotCommit (s : State) : s.ActsOnEngines s.overrideSlotCommit := by
  unfold State.overrideSlotCommit
  split
  · exact judge _ _ _ _ _ _
  · exact refl s

theorem badOpcode (s : State) : s.ActsOnEngines s.badOpcode := by
  unfold State.badOpcode
  split
  · split
    · exact refl s
    · exact (handedOver s).trans (report _ _)
  · exact refl s

theorem frameComplete (s : State) (n : Fin 8) : s.ActsOnEngines (s.frameComplete n) := by
  unfold State.frameComplete
  split
  · exact engines s _
  · exact refl s

theorem abortBlockSent (s : State) (n : Fin 8) : s.ActsOnEngines (s.abortBlockSent n) := by
  unfold State.abortBlockSent
  split
  · exact engines s _
  · exact refl s

theorem statusAnswer (s : State) (n : Fin 8) (heard : List LinkChar) : s.ActsOnEngines (s.statusAnswer n heard) := by
  unfold State.statusAnswer
  split
  · split
    · exact engines s _
    · exact refl s
    · exact refl s
  · exact refl s

theorem entryAnswer (s : State) (n : Fin 8) (heard : List LinkChar) : s.ActsOnEngines (s.entryAnswer n heard) := by
  unfold State.entryAnswer
  split
  · split
    · exact engines s _
    · exact refl s
    · exact refl s
  · exact refl s

theorem inSlotMiss (s : State) (n : Fin 8) (heard : List LinkChar) : s.ActsOnEngines (s.inSlotMiss n heard) := by
  unfold State.inSlotMiss
  split
  · split
    · exact refl s
    · exact engines s _
  · exact refl s

theorem slotAdvance (s : State) (n : Fin 8) : s.ActsOnEngines (s.slotAdvance n) := by
  unfold State.slotAdvance
  split
  · exact engines s _
  · exact refl s

theorem deliver (s : State) (k : PlaceKind) (owner : Ambient → Engines → TimerPlace → Engines) :
    s.ActsOnEngines (s.deliver k owner) := by
  unfold State.deliver
  split
  · exact engines s _
  · exact refl s

theorem mem {s t : State} (h : s.ActsOnEngines t) : t.mem = s.mem := by
  obtain ⟨_, _, rfl⟩ := h
  rfl

theorem pathSafe {s t : State} (h : s.ActsOnEngines t) (hs : s.PathSafe) : t.PathSafe := by
  obtain ⟨_, _, rfl⟩ := h
  exact hs.same rfl rfl rfl rfl

end State.ActsOnEngines

/-- The commands that act on the engines alone. -/
def engineCommand : Instr → Bool
  | .carCommit | .assignCommit | .rosterCommit | .labelCommit | .playoutCommit | .groupCommit | .linkSetupCommit
  | .overrideSlotCommit | .badOpcode | .frameComplete _ | .abortBlockSent _ | .statusAnswer _ _ | .entryAnswer _ _
  | .inSlotMiss _ _ | .slotPositionAdvance _ | .entryWaitExpiry | .promptHoldExpiry | .lanternExpiry | .gongExpiry
  | .dwellExpiry | .overrideDwellExpiry => true
  | _ => false

theorem act_actsOnEngines (s : State) {c : Instr} (h : engineCommand c = true) : s.ActsOnEngines (s.act c) := by
  cases c with
  | carCommit => exact .carCommit s
  | assignCommit => exact .assignCommit s
  | rosterCommit => exact .rosterCommit s
  | labelCommit => exact .labelCommit s
  | playoutCommit => exact .playoutCommit s
  | groupCommit => exact .groupCommit s
  | linkSetupCommit => exact .linkSetupCommit s
  | overrideSlotCommit => exact .overrideSlotCommit s
  | badOpcode => exact .badOpcode s
  | frameComplete n => exact .frameComplete s n
  | abortBlockSent n => exact .abortBlockSent s n
  | statusAnswer n heard => exact .statusAnswer s n heard
  | entryAnswer n heard => exact .entryAnswer s n heard
  | inSlotMiss n heard => exact .inSlotMiss s n heard
  | slotPositionAdvance n => exact .slotAdvance s n
  | entryWaitExpiry => exact .deliver s _ _
  | promptHoldExpiry => exact .deliver s _ _
  | lanternExpiry => exact .deliver s _ _
  | gongExpiry => exact .deliver s _ _
  | dwellExpiry => exact .deliver s _ _
  | overrideDwellExpiry => exact .deliver s _ _
  | _ => cases h

end Sys2Proof.Machine

/-! SUPPORT. Host memory and the bookkeeping of the memory path through every command, and both at power-on reset (R153, R155 to
R157, R161). -/

namespace Sys2Proof.Machine

/-! ## Commits and commands of the record windows -/

/-- A property that a commit's release, its refusal and its acceptance have. -/
theorem State.judge_keeps (P : State → Prop) {α : Type} [DecidableEq α] {s : State} (hs : P s.handedOver)
    (hreport : ∀ (b : State) (ev : Event), P b → P (b.report ev)) (p : RecordPlace) (staged : α) (accepted : Option α)
    (check : Option Reason) {accept : State → State} (haccept : P (accept s.handedOver)) :
    P (s.judge p staged accepted check accept) := by
  rcases s.judge_cases p staged accepted check accept with e | ⟨why, e⟩ | e
  · rw [e]; exact hs
  · rw [e]; exact hreport _ _ hs
  · rw [e]; exact haccept

/-! ## What leaves host memory as it is -/

section Memory
variable (s : State)

theorem State.judge_mem {α : Type} [DecidableEq α] (p : RecordPlace) (staged : α) (accepted : Option α)
    (check : Option Reason) {accept : State → State} (haccept : (accept s.handedOver).mem = s.mem) :
    (s.judge p staged accepted check accept).mem = s.mem :=
  s.judge_keeps (·.mem = s.mem) rfl (fun _ _ h => h) p staged accepted check haccept

@[simp] theorem State.relocationCommit_mem : s.relocationCommit.mem = s.mem := by
  unfold State.relocationCommit
  split
  · exact s.judge_mem _ _ _ _ rfl
  · rfl

@[simp] theorem State.descriptorCommit_mem : s.descriptorCommit.mem = s.mem := by
  unfold State.descriptorCommit
  split
  · exact s.judge_mem _ _ _ _ (by simp)
  · rfl

@[simp] theorem State.settingsCommit_mem : s.settingsCommit.mem = s.mem := by
  unfold State.settingsCommit
  split
  · exact s.judge_mem _ _ _ _ rfl
  · rfl

@[simp] theorem State.languageCommit_mem : s.languageCommit.mem = s.mem := by
  unfold State.languageCommit
  split
  · exact s.judge_mem _ _ _ _ (by simp)
  · rfl

@[simp] theorem State.ringSetupCommit_mem : s.ringSetupCommit.mem = s.mem := by
  unfold State.ringSetupCommit
  split
  · exact s.judge_mem _ _ _ _ rfl
  · rfl

@[simp] theorem State.restart_mem : s.restart.mem = s.mem := by
  unfold State.restart
  rw [State.report_mem, foldl_keeps State.mem State.makeStale fun b w => b.makeStale_mem w]
  rfl

@[simp] theorem State.restartCommand_mem : s.restartCommand.mem = s.mem := by
  unfold State.restartCommand
  (repeat' split) <;> simp

@[simp] theorem State.sweepCommand_mem : s.sweepCommand.mem = s.mem := by
  unfold State.sweepCommand
  (repeat' split) <;> simp

@[simp] theorem State.loadGlyphsCommand_mem : s.loadGlyphsCommand.mem = s.mem := by
  unfold State.loadGlyphsCommand
  (repeat' split) <;> simp

@[simp] theorem State.hostReadComplete_mem : s.hostReadComplete.mem = s.mem := by
  unfold State.hostReadComplete
  split <;> simp

@[simp] theorem State.holdoffEnd_mem : s.holdoffEnd.mem = s.mem := by
  unfold State.holdoffEnd
  (repeat' split) <;> simp

@[simp] theorem State.holdoffExpiry_mem : s.holdoffExpiry.mem = s.mem := by
  unfold State.holdoffExpiry
  split
  · rename_i h _
    split
    · exact (foldl_keeps State.mem _ (fun b w => b.loseOn_mem h.items w) _ _).trans (by simp)
    · rfl
  · rfl

@[simp] theorem State.sweepReadComplete_mem : s.sweepReadComplete.mem = s.mem := by
  unfold State.sweepReadComplete
  split <;> simp

@[simp] theorem State.fetchReadComplete_mem : s.fetchReadComplete.mem = s.mem := by
  unfold State.fetchReadComplete
  split <;> simp

@[simp] theorem State.refCycle_mem : s.refCycle.mem = s.mem := by
  unfold State.refCycle
  (repeat' split) <;> simp

/-- No action but the completion of a write changes host memory. -/
theorem State.act_mem {c : Instr} (hhost : c ≠ .hostWriteComplete) (hreport : c ≠ .reportWriteComplete)
    (hmirror : c ≠ .statusMirrorWriteComplete) : (s.act c).mem = s.mem := by
  cases hengines : engineCommand c with
  | true => exact (act_actsOnEngines s hengines).mem
  | false =>
    cases c with
    | hostWriteComplete => contradiction
    | reportWriteComplete => contradiction
    | statusMirrorWriteComplete => contradiction
    | _ => simp [State.act, engineCommand] at hengines ⊢

end Memory

/-- Settles O9: a next state is the state itself or the action's (`exec_next_cases`), which keeps memory (`State.act_mem`). -/
theorem onlyWriteCompletionsChangeMemory : Obligations.OnlyWriteCompletionsChangeMemory := by
  intro c s t hhost hreport hmirror ht
  rcases exec_next_cases ht with rfl | rfl
  · rfl
  · exact s.act_mem hhost hreport hmirror

/-! ## The canonical form of host memory -/

section Canonical
variable {s : State} (h : Memory.wf s.mem = true)
include h

theorem State.hostWriteComplete_wf : Memory.wf s.hostWriteComplete.mem = true := by
  unfold State.hostWriteComplete
  split
  · rw [State.freePort_mem]
    exact Memory.writeBeats_wf _ _ _ h
  all_goals exact h

theorem State.partWrite_wf (addr : Nat) (words : List Word) : Memory.wf (s.partWrite addr words).mem = true :=
  Memory.writeWords_wf _ addr words h

theorem State.reportComplete_wf : Memory.wf s.reportComplete.mem = true := by
  unfold State.reportComplete
  split
  · rename_i addr words void _
    have hwritten := State.partWrite_wf h addr words
    dsimp only
    rw [State.freePort_mem]
    split
    · exact hwritten
    · exact hwritten
  all_goals exact h

theorem State.mirrorComplete_wf : Memory.wf s.mirrorComplete.mem = true := by
  unfold State.mirrorComplete
  split
  · rw [State.freePort_mem]
    exact State.partWrite_wf h _ _
  all_goals exact h

theorem State.act_wf (c : Instr) : Memory.wf (s.act c).mem = true := by
  by_cases hhost : c = .hostWriteComplete
  · subst hhost; exact State.hostWriteComplete_wf h
  by_cases hreport : c = .reportWriteComplete
  · subst hreport; exact State.reportComplete_wf h
  by_cases hmirror : c = .statusMirrorWriteComplete
  · subst hmirror; exact State.mirrorComplete_wf h
  rw [s.act_mem hhost hreport hmirror]
  exact h

end Canonical

/-- Settles O5: the three completions write byte by byte (`Memory.write_wf`), every other action leaves memory as it was. -/
theorem memoryStaysCanonical : Obligations.MemoryStaysCanonical := fun _ _ h ht =>
  step_keeps (fun s => Memory.wf s.mem = true) (fun _ _ h => h) (fun s h => by rw [s.refCycle_mem]; exact h)
    (fun _ c h => State.act_wf h c) h ht

/-! ## The bookkeeping of the memory path -/

namespace State.PathSafe

theorem judge {α : Type} [DecidableEq α] {s : State} (h : s.PathSafe) (p : RecordPlace) (staged : α) (accepted : Option α)
    (check : Option Reason) {accept : State → State} (haccept : (accept s.handedOver).PathSafe) :
    (s.judge p staged accepted check accept).PathSafe :=
  s.judge_keeps State.PathSafe h.handedOver (fun _ ev hb => hb.report ev) p staged accepted check haccept

theorem acceptLanguage {s : State} (h : s.PathSafe) (l : Fin 16) (r : Rec4) : (s.acceptLanguage l r).PathSafe := by
  unfold State.acceptLanguage
  dsimp only
  split
  · exact h.same rfl rfl rfl rfl
  · exact h.same rfl rfl rfl rfl

theorem relocationCommit {s : State} (h : s.PathSafe) : s.relocationCommit.PathSafe := by
  unfold State.relocationCommit
  split
  · exact h.judge _ _ _ _ (h.handedOver.relocate _)
  · exact h

theorem descriptorCommit {s : State} (h : s.PathSafe) : s.descriptorCommit.PathSafe := by
  unfold State.descriptorCommit
  split
  · exact h.judge _ _ _ _ (h.handedOver.acceptDescriptor _ _)
  · exact h

theorem settingsCommit {s : State} (h : s.PathSafe) : s.settingsCommit.PathSafe := by
  unfold State.settingsCommit
  split
  · exact h.judge _ _ _ _ (h.same rfl rfl rfl rfl)
  · exact h

theorem languageCommit {s : State} (h : s.PathSafe) : s.languageCommit.PathSafe := by
  unfold State.languageCommit
  split
  · exact h.judge _ _ _ _ (h.handedOver.acceptLanguage _ _)
  · exact h

theorem ringSetupCommit {s : State} (h : s.PathSafe) : s.ringSetupCommit.PathSafe := by
  unfold State.ringSetupCommit
  split
  · exact h.judge _ _ _ _ (h.handedOver.acceptRing _)
  · exact h

theorem restartCommand {s : State} (h : s.PathSafe) : s.restartCommand.PathSafe := by
  unfold State.restartCommand
  split
  · split
    · exact h.handedOver.restart
    · exact h
  · exact h

theorem sweepCommand {s : State} (h : s.PathSafe) : s.sweepCommand.PathSafe := by
  unfold State.sweepCommand
  split
  · split
    · unfold State.sweep
      split
      · exact h.handedOver.report _
      · exact (h.handedOver.staleCause _).report _
    · exact h
  · exact h

theorem loadGlyphsCommand {s : State} (h : s.PathSafe) : s.loadGlyphsCommand.PathSafe := by
  unfold State.loadGlyphsCommand
  split
  · split
    · unfold State.loadGlyphs
      split
      · exact h.handedOver.report _
      · exact (h.handedOver.beginLoad _ _).report _
    · exact h
  · exact h

theorem sweepCompletion {s : State} (h : s.PathSafe) : s.sweepCompletion.PathSafe := by
  unfold State.sweepCompletion
  split
  · split
    · unfold State.endSweep
      split
      · exact h.same rfl rfl rfl rfl
      · exact h.same rfl rfl rfl rfl
    · exact h
  all_goals exact h

/-! ### Reset and clock -/

theorem poweredOn (s : State) : s.poweredOn.PathSafe :=
  ⟨fun _ h => (by cases h), fun h => absurd rfl h, fun _ h => (by cases h), Nat.zero_le _, Nat.zero_le _⟩

/-- The falling edge of RESET_N takes the accesses at the ports with the places promised to them. -/
theorem resetFall {s : State} (h : s.PathSafe) : s.resetFall.PathSafe := by
  refine ⟨fun _ ha => (by cases ha), fun _ => rfl, h.own, ?_, h.passOver⟩
  have hroom := h.room
  simp only [State.promised, State.resetFall, promisedOpt] at hroom ⊢
  omega

theorem usTick {s : State} (h : s.PathSafe) : s.usTick.PathSafe := by
  refine h.mono rfl (fun hheld => .inl fun hnone => hheld ?_) rfl (Nat.le_refl _) rfl
  simp [State.usTick, hnone]

theorem msTick {s : State} (h : s.PathSafe) : s.msTick.PathSafe := h.same (by simp) (by simp) (by simp) (by simp)

theorem refCycle {s : State} (h : s.PathSafe) : s.refCycle.PathSafe := by
  unfold State.refCycle
  split
  · exact h
  · split
    · exact h.same rfl rfl rfl rfl
    · exact h.usTick.msTick

/-! ### Every command -/

theorem act {s : State} (h : s.PathSafe) (c : Instr) : (s.act c).PathSafe := by
  cases hengines : engineCommand c with
  | true => exact (act_actsOnEngines s hengines).pathSafe h
  | false =>
    cases c with
    | powerOnReset => exact poweredOn s
    | usTick => exact h.usTick
    | msTick => exact h.msTick
    | upstreamWrite addr beats => exact h.takeWrite _ _
    | upstreamRead addr count => exact h.takeRead _ _
    | hostWriteComplete => exact h.hostWriteComplete
    | hostReadComplete => exact h.hostReadComplete
    | holdoffEnd => exact h.holdoffEnd
    | holdoffExpiry => exact h.holdoffExpiry
    | intakeDrain => exact h.intakeDrain
    | relocationCommit => exact h.relocationCommit
    | descriptorCommit => exact h.descriptorCommit
    | settingsCommit => exact h.settingsCommit
    | languageCommit => exact h.languageCommit
    | ringSetupCommit => exact h.ringSetupCommit
    | restart => exact h.restartCommand
    | sweep => exact h.sweepCommand
    | loadGlyphs => exact h.loadGlyphsCommand
    | fetchChannelTake ch => exact h.channelTake ch
    | sweepReadIssue ch => exact h.sweepReadIssue ch
    | sweepReadComplete => exact h.sweepReadComplete
    | sweepCompletion => exact h.sweepCompletion
    | textFillTransferComplete ch => exact h.textTransferComplete ch
    | glyphTransferComplete ch => exact h.glyphTransferComplete ch
    | outSlot n => exact h.outSlot n
    | reportWriteIssue => exact h.reportIssue
    | reportWriteComplete => exact h.reportComplete
    | statusMirrorWrite => exact h.mirrorIssue
    | resetNFall => exact h.resetFall
    | fetchReadComplete => exact h.fetchReadComplete
    | statusMirrorWriteComplete => exact h.mirrorComplete
    | _ => cases hengines

end State.PathSafe

/-- Settles O6: the clock and every action keep `State.PathSafe`, so every step does (`step_keeps`). -/
theorem intakeNeverOverflows : Obligations.IntakeNeverOverflows := fun _ _ h ht =>
  step_keeps State.PathSafe (fun _ _ h => h.same rfl rfl rfl rfl) (fun _ h => h.refCycle) (fun _ c h => h.act c) h ht

/-! ## Power-on reset -/

theorem State.PathSafe.reset : State.reset.PathSafe := .poweredOn State.reset

theorem State.RingSafe.reset : State.reset.RingSafe :=
  ⟨fun _ h => (by cases h), Nat.zero_le _, Nat.zero_le _, iff_of_true rfl rfl⟩

theorem FetchUnit.RequestsSafe.reset : FetchUnit.reset.RequestsSafe :=
  ⟨Nat.zero_le _, Nat.zero_le _, fun _ => Nat.zero_le _, rfl⟩

/-- Settles O4: every table, queue and list is empty at power-on reset. -/
theorem resetMeetsTheInvariants : Obligations.ResetMeetsTheInvariants :=
  ⟨rfl, .reset, .reset, .reset, .reset, .reset, .reset, .of_empty _ rfl⟩

end Sys2Proof.Machine

/-! SUPPORT. The downstream arbiter case by case, the order of the reads of the channels, and the records that set the control
block and the report ring (R122, R123, R161, R162, R172). -/

namespace Sys2Proof.Machine

/-! ## The arbiter (R161) -/

section Arbiter
variable {s : State}

theorem State.arbitrate_busy (h : s.path.port ≠ none) : s.arbitrate = s := by
  unfold State.arbitrate
  split
  · rfl
  · contradiction
  · contradiction

theorem State.partWaits_of_ring {a : Access} {rest : List Access} (h : s.ring.waiting = a :: rest) : s.partWaits = true := by
  simp [State.partWaits, h]

theorem State.partWaits_of_fetch {a : Access} {rest : List Access} (h : s.fetch.reads = a :: rest) : s.partWaits = true := by
  simp [State.partWaits, h]

theorem State.servePart_ring {a : Access} {rest : List Access} (h : s.ring.waiting = a :: rest) : s.servePart = { s with
    path := { s.path with port := some a, passOver := 0 }, ring := { s.ring with waiting := rest } } := by
  unfold State.servePart
  rw [h]

theorem State.servePart_fetch {a : Access} {rest : List Access} (hring : s.ring.waiting = [])
    (h : s.fetch.reads = a :: rest) : s.servePart = { s with
      path := { s.path with port := some a, passOver := 0 }, fetch := s.fetch.served a } := by
  unfold State.servePart
  rw [hring, h]

theorem State.servePart_idle (h : s.partWaits = false) : s.servePart = s := by
  simp only [State.partWaits, Bool.or_eq_false_iff, Bool.not_eq_false', List.isEmpty_iff] at h
  obtain ⟨hring, hreads⟩ := h
  unfold State.servePart
  rw [hring, hreads]

variable (hport : s.path.port = none)
include hport

theorem State.arbitrate_no_host (hwaiting : s.path.waiting = none) : s.arbitrate = s.servePart := by
  unfold State.arbitrate
  rw [hport, hwaiting]

theorem State.arbitrate_host {a : Access} (hwaiting : s.path.waiting = some a) : s.arbitrate =
    if s.partWaits then
      if s.path.passOver < 8 then
        { s with path := { s.path with port := some a, waiting := none, passOver := s.path.passOver + 1 } }
      else s.servePart
    else { s with path := { s.path with port := some a, waiting := none } } := by
  unfold State.arbitrate
  rw [hport, hwaiting]
  rfl

/-- The part's own side is served when no host transaction waits, and after 8 that went past it. -/
theorem State.arbitrate_part (hturn : s.path.waiting = none ∨ 8 ≤ s.path.passOver) (hpart : s.partWaits = true) :
    s.arbitrate = s.servePart := by
  cases hwaiting : s.path.waiting with
  | none => exact State.arbitrate_no_host hport hwaiting
  | some a =>
    have hlimit : 8 ≤ s.path.passOver := hturn.resolve_left (by simp [hwaiting])
    rw [State.arbitrate_host hport hwaiting, if_pos hpart, if_neg (Nat.not_lt.2 hlimit)]

end Arbiter

/-! ## The reads of the fetch side (R122, R123) -/

namespace FetchUnit
variable (f : FetchUnit)

/-- The issued reads of a window's sweep. -/
def liveReads (w : Fin 5) : List Access :=
  (f.sweepReads.filter fun x => x.kind == w && x.status == .live).map Access.sweepRead

/-- The reads of the channels that carry a request. -/
def readsOf (q : Request) : List Access :=
  (List.finRange 4).filterMap fun ch => if (f.channel ch).any fun j => j.carries q then f.channelRead ch else none

theorem carriers_reads (q : Request) : (f.carriers q).filterMap f.channelRead = f.readsOf q := by
  unfold carriers readsOf
  rw [List.filterMap_filter]
  congr
  funext ch
  cases f.channel ch <;> rfl

/-- What a request offers to the arbiter. -/
theorem reads_eq_flatMap : f.reads = (f.sweepReads.filter fun x => x.status != .live).map Access.sweepRead ++
    f.byPriority.flatMap fun q => match q with
      | .sweep w _ => f.liveReads w
      | .text t => f.readsOf (.text t)
      | .glyph a src pitch count progress => f.readsOf (.glyph a src pitch count progress) := by
  unfold reads
  congr
  funext q
  cases q with
  | sweep w m => rfl
  | text t => exact f.carriers_reads _
  | glyph a src pitch count progress => exact f.carriers_reads _

theorem byPriority_flatMap {β : Type} (g : Request → List β) : f.byPriority.flatMap g =
    (f.requests.flatMap fun q => if q.isSweep then g q else []) ++
      (f.requests.flatMap fun q => if q.isText then g q else []) ++
      (f.requests.flatMap fun q => if q.isGlyph then g q else []) := by
  have hfilter : ∀ p : Request → Bool,
      (f.requests.filter p).flatMap g = f.requests.flatMap fun q => if p q then g q else [] := by
    intro p
    induction f.requests with
    | nil => rfl
    | cons q l ih => by_cases hq : p q = true <;> simp [hq, ih]
  simp only [byPriority, List.flatMap_append, hfilter]

end FetchUnit

/-- Settles O16: the arbiter by its cases above, the reads by the priority order of the requests. -/
theorem arbiterServesInOrder : Obligations.ArbiterServesInOrder := by
  refine ⟨fun s => ⟨State.arbitrate_busy, fun a hport hwaiting hpart => ?_, fun a hport hwaiting hpart hpast => ?_,
    fun hport hturn => ⟨fun a rest hring => ?_, fun a rest hring hreads => ?_⟩, fun hport hwaiting hpart => ?_, rfl⟩,
    fun f => ?_⟩
  · rw [State.arbitrate_host hport hwaiting, if_neg (by simp [hpart])]
  · rw [State.arbitrate_host hport hwaiting, if_pos hpart, if_pos hpast]
  · rw [State.arbitrate_part hport hturn (State.partWaits_of_ring hring), State.servePart_ring hring]
  · rw [State.arbitrate_part hport hturn (State.partWaits_of_fetch hreads), State.servePart_fetch hring hreads]
  · rw [State.arbitrate_no_host hport hwaiting, State.servePart_idle hpart]
  · intro live onChannels
    rw [f.reads_eq_flatMap, f.byPriority_flatMap, List.append_assoc, List.append_assoc, List.append_assoc]
    congr
    · funext q
      cases q <;> rfl
    · funext q
      cases q <;> rfl
    · funext q
      cases q <;> rfl

/-! ## The records of the control block and of the report ring (R162, R172) -/

/-- Settles O31: the accepted records act as `State.relocate` and `State.acceptRing` say, and after a ring setup every record
write in flight is voided. -/
theorem relocationAndRingComeIntoForce : Obligations.RelocationAndRingComeIntoForce := by
  refine ⟨fun s h => exec_relocationCommit_accepted h, fun s h => ?_⟩
  intro r
  refine ⟨s.handedOver.acceptRing r, exec_ringSetupCommit_accepted h, rfl, State.RingSafe.counted_voided _ _, ?_⟩
  exact Bool.and_false _

end Sys2Proof.Machine

/-! SUPPORT. A host transaction at the upstream port: taken, held or left outside, the items of a burst, and the target of a word
(R153 to R157). -/

namespace Sys2Proof.Machine

/-! ## Taking a transaction -/

section Take
variable {s : State}

theorem State.upstreamFree_waiting (h : s.upstreamFree = true) : s.path.waiting = none := by
  simp only [State.upstreamFree, Bool.and_eq_true, Option.isNone_iff_eq_none] at h
  exact h.2

/-- A transaction that waits at an empty pass-through side adds the places its items need to the promised ones (R156). -/
theorem State.promised_waiting (h : s.path.waiting = none) (a : Access) :
    State.promised { s with path := { s.path with waiting := some a } } = s.promised + a.promised := by
  simp only [State.promised, h, promisedOpt]
  omega

variable {addr : Nat} {beats : List Beat}

theorem State.takeWrite_held (hfree : s.upstreamFree = true) (hroom : s.unpromised < (captured s.path addr beats).length) :
    s.takeWrite addr beats = { s with path := { s.path with
      held := some ⟨addr, beats, captured s.path addr beats, s.holdTimer (captured s.path addr beats)⟩ } } :=
  (if_pos hfree).trans (if_pos hroom)

theorem State.takeWrite_forwarded (hfree : s.upstreamFree = true)
    (hroom : (captured s.path addr beats).length ≤ s.unpromised) :
    s.takeWrite addr beats = s.forward (.hostWrite addr beats (captured s.path addr beats)) :=
  (if_pos hfree).trans (if_neg (Nat.not_lt.2 hroom))

theorem State.takeWrite_outside (hbusy : s.upstreamFree = false) : s.takeWrite addr beats = s := if_neg (by simp [hbusy])

theorem State.takeRead_forwarded (hfree : s.upstreamFree = true) (count : Nat) :
    s.takeRead addr count = s.forward (.hostRead addr count) := if_pos hfree

theorem State.takeRead_outside (hbusy : s.upstreamFree = false) (count : Nat) : s.takeRead addr count = s :=
  if_neg (by simp [hbusy])

end Take

/-! ## The items of a burst (R155) -/

section Captured
variable (p : MemPath)

/-- The item of one word, if it has an enabled lane and is watched. -/
def capturedWord (addr : Nat) (b : Beat) : Option Item :=
  if b.lanes = 0 then none else (targetAt p addr).map fun t => ⟨b.word, addr, b.lanes, t⟩

theorem captured_cons (addr : Nat) (b : Beat) (beats : List Beat) :
    captured p addr (b :: beats) = (capturedWord p addr b).toList ++ captured p (addr + 4) beats := by
  conv => lhs; unfold captured
  unfold capturedWord
  split
  · rfl
  · cases targetAt p addr <;> rfl

theorem capturedWord_eq_some {addr : Nat} {b : Beat} {i : Item} : capturedWord p addr b = some i ↔
    b.lanes ≠ 0 ∧ targetAt p addr = some i.target ∧ i.word = b.word ∧ i.lanes = b.lanes ∧ i.addr = addr := by
  obtain ⟨word, at', lanes, target⟩ := i
  unfold capturedWord
  split
  · rename_i h; simp [h]
  · rename_i h
    simp only [Option.map_eq_some_iff, Item.mk.injEq]
    constructor
    · rintro ⟨t, ht, rfl, rfl, rfl, rfl⟩
      exact ⟨h, ht, rfl, rfl, rfl⟩
    · rintro ⟨-, ht, rfl, rfl, rfl⟩
      exact ⟨_, ht, rfl, rfl, rfl, rfl⟩

theorem mem_captured {beats : List Beat} {addr : Nat} {i : Item} :
    i ∈ captured p addr beats ↔ ∃ n b, beats[n]? = some b ∧ capturedWord p (addr + 4 * n) b = some i := by
  induction beats generalizing addr with
  | nil => simp [captured]
  | cons c beats ih =>
    rw [captured_cons, List.mem_append, Option.mem_toList, ih]
    constructor
    · rintro (h | ⟨n, b, hb, h⟩)
      · exact ⟨0, c, rfl, h⟩
      · exact ⟨n + 1, b, hb, by rwa [show addr + 4 * (n + 1) = addr + 4 + 4 * n by omega]⟩
    · rintro ⟨n, b, hb, h⟩
      cases n with
      | zero =>
        cases hb
        exact .inl h
      | succ n => exact .inr ⟨n, b, hb, by rwa [show addr + 4 + 4 * n = addr + 4 * (n + 1) by omega]⟩

theorem captured_ascending (beats : List Beat) (addr : Nat) :
    (captured p addr beats).Pairwise fun x y => x.addr < y.addr := by
  induction beats generalizing addr with
  | nil => exact .nil
  | cons c beats ih =>
    rw [captured_cons, List.pairwise_append]
    refine ⟨?_, ih _, fun x hx y hy => ?_⟩
    · cases capturedWord p addr c <;> simp
    · obtain ⟨_, _, _, _, hxaddr⟩ := (capturedWord_eq_some p).1 (Option.mem_toList.1 hx)
      obtain ⟨n, b, _, hword⟩ := (mem_captured p).1 hy
      obtain ⟨_, _, _, _, hyaddr⟩ := (capturedWord_eq_some p).1 hword
      omega

/-! ## The target of a word (R154, R155) -/

theorem windowAt_eq_some {addr : Nat} {w : Fin 5} (h : windowAt p addr = some w) :
    (p.window w).winBase ≤ addr ∧ addr < (p.window w).winBase + 16 * (p.window w).winCount := by
  simpa using List.find?_some h

theorem windowAt_none {addr : Nat}
    (h : ∀ w, ¬ ((p.window w).winBase ≤ addr ∧ addr < (p.window w).winBase + 16 * (p.window w).winCount)) :
    windowAt p addr = none := by
  cases hat : windowAt p addr with
  | none => rfl
  | some w => exact absurd (windowAt_eq_some p hat) (h w)

theorem windowAt_only {addr : Nat} {w : Fin 5}
    (h : (p.window w).winBase ≤ addr ∧ addr < (p.window w).winBase + 16 * (p.window w).winCount)
    (honly : ∀ k, (p.window k).winBase ≤ addr ∧ addr < (p.window k).winBase + 16 * (p.window k).winCount → k = w) :
    windowAt p addr = some w := by
  cases hat : windowAt p addr with
  | none =>
    have hnone := List.find?_eq_none.1 hat w (List.mem_finRange w)
    exact absurd (decide_eq_true h) hnone
  | some k => rw [honly k (windowAt_eq_some p hat)]

theorem targetAt_outside_block {addr : Nat} (h : ¬ (p.cbBase ≤ addr ∧ addr < p.cbBase + 0x1000)) :
    targetAt p addr = (windowAt p addr).map fun w => windowTarget p w addr := if_neg h

theorem targetAt_block {addr : Nat} (h : p.cbBase ≤ addr ∧ addr < p.cbBase + 0x1000) : targetAt p addr =
    if (cbRecord (addr - p.cbBase)).isSome then some (.control (addr - p.cbBase)) else none := if_pos h

end Captured

theorem isSome_ite_some {α : Type} {c : Prop} [Decidable c] (x : α) (o : Option α) :
    (if c then some x else o).isSome = true ↔ c ∨ o.isSome = true := by
  by_cases h : c <;> simp [h]

theorem isSome_dite_some {α : Type} {c : Prop} [Decidable c] (x : c → α) (o : Option α) :
    (if h : c then some (x h) else o).isSome = true ↔ c ∨ o.isSome = true := by
  by_cases h : c <;> simp [h]

theorem isSome_ite_none {α : Type} {c : Prop} [Decidable c] (o : Option α) :
    (if c then none else o).isSome = true ↔ ¬ c ∧ o.isSome = true := by
  by_cases h : c <;> simp [h]

/-- The record positions of the control block (10.2). -/
theorem cbRecord_isSome_iff (off : Nat) : (cbRecord off).isSome = true ↔
    off < 0x20 ∨ (0x40 ≤ off ∧ off < 0x60) ∨ (0x80 ≤ off ∧ off < 0xD0) ∨ (0x100 ≤ off ∧ off < 0x3D0) := by
  unfold cbRecord
  simp only [isSome_ite_some, isSome_dite_some, isSome_ite_none, Option.isSome_none, Bool.false_eq_true, or_false]
  omega

/-- Settles O15: the port by `State.takeWrite` and `State.takeRead`, the items by `mem_captured` and `captured_ascending`, the
target by `windowAt` and the record positions. -/
theorem upstreamTransactionsAreHeldOrForwarded : Obligations.UpstreamTransactionsAreHeldOrForwarded := by
  refine ⟨fun s a beats hup hburst => ?_, fun s a n hup hburst => ?_, fun p addr beats => ⟨fun i => ?_,
    captured_ascending p beats addr⟩, fun p addr => ?_⟩
  · have hexec : exec (.upstreamWrite a beats) s = .next (s.takeWrite a.toNat beats) :=
      (exec_upstreamWrite_of_burst hburst s).trans (whenUp_next _ hup)
    refine ⟨fun hfree hroom => ?_, fun hfree hroom => ⟨?_, ?_⟩, fun hbusy => ?_⟩
    · rw [hexec, State.takeWrite_held hfree hroom]
      rfl
    · rw [hexec, State.takeWrite_forwarded hfree hroom]
      rfl
    · exact State.promised_waiting (State.upstreamFree_waiting hfree) _
    · rw [hexec, State.takeWrite_outside hbusy]
  · have hexec : exec (.upstreamRead a n) s = .next (s.takeRead a.toNat n) :=
      (exec_upstreamRead_of_burst hburst s).trans (whenUp_next _ hup)
    refine ⟨fun hfree => ?_, fun hbusy => ?_⟩
    · rw [hexec, State.takeRead_forwarded hfree]
      rfl
    · rw [hexec, State.takeRead_outside hbusy]
  · rw [mem_captured]
    exact exists_congr fun n => exists_congr fun b => and_congr_right fun _ => capturedWord_eq_some p
  · intro inWindow inBlock off position
    refine ⟨fun w hw honly hblock => ?_, fun hno hblock hpos => ?_, fun hno hblock hpos => ?_, fun hno hblock => ?_⟩
    · rw [targetAt_outside_block p hblock, windowAt_only p hw honly]
      have hslots : ∀ k : Nat, k % 16 / 4 = k / 4 % 4 := fun k => by omega
      exact congrArg (fun word => some (Target.window w _ word _ _)) (hslots _)
    · rw [targetAt_block p hblock]
      exact if_pos ((cbRecord_isSome_iff _).2 hpos)
    · rw [targetAt_block p hblock]
      exact if_neg fun h => hpos ((cbRecord_isSome_iff _).1 h)
    · rw [targetAt_outside_block p hblock, windowAt_none p hno]
      rfl

end Sys2Proof.Machine

/-! SUPPORT. A host read that completes, and the report it consumes (R160, R173, R174). -/

namespace Sys2Proof.Machine

/-! ## The compare with the watched address (R160) -/

section Compare
variable {r : Ring}

theorem Ring.compare_step (addr n : Nat) : r.compare addr (n + 1) =
    (if r.watched = some addr then r.consume else r).compare (addr + 4) n := rfl

theorem Ring.compare_unmatched {n addr : Nat} (h : ∀ k, k < n → r.watched ≠ some (addr + 4 * k)) :
    r.compare addr n = r := by
  induction n generalizing addr with
  | zero => rfl
  | succ n ih =>
    have hfirst : r.watched ≠ some addr := h 0 (by omega)
    rw [Ring.compare_step, if_neg hfirst]
    exact ih fun k hk => by rw [show addr + 4 + 4 * k = addr + 4 * (k + 1) by omega]; exact h (k + 1) (by omega)

/-- One word that is watched consumes one record, when no later word is watched after it. -/
theorem Ring.compare_matched {n k addr : Nat} (hk : k < n) (h : r.watched = some (addr + 4 * k))
    (hlater : ∀ j, k < j → j < n → r.consume.watched ≠ some (addr + 4 * j)) : r.compare addr n = r.consume := by
  induction n generalizing addr k with
  | zero => omega
  | succ n ih =>
    have hshift : ∀ j, addr + 4 + 4 * j = addr + 4 * (j + 1) := fun j => by omega
    rw [Ring.compare_step]
    cases k with
    | zero =>
      have hfirst : r.watched = some addr := h
      rw [if_pos hfirst]
      exact Ring.compare_unmatched fun j hj => hshift j ▸ hlater (j + 1) (by omega) (by omega)
    | succ k =>
      rw [if_neg (by rw [h]; simp)]
      exact ih (Nat.lt_of_succ_lt_succ hk) (by rw [h, hshift]) fun j hj hjn => hshift j ▸ hlater (j + 1) (by omega) (by omega)

end Compare

/-! ## The consumption of a record (R174) -/

theorem Ring.consume_eq {r : Ring} {a : Nat} (h : r.oldest = some a) : r.consume = { r with
    unconsumed := r.unconsumed - 1
    oldest := if r.unconsumed - 1 = 0 then none
      else if a = r.setup.ringBase then some (r.setup.ringBase + 16 * (r.setup.ringSize - 1))
      else some (a - 16) } := by
  unfold Ring.consume Ring.below
  rw [h]
  dsimp only [Option.map_some]
  rw [apply_ite some]

/-- The next oldest record of a ring lies outside the words that a burst can still read behind word 3 of the oldest. -/
theorem Ring.consume_watched_away {r : Ring} {a x : Nat} (h : r.oldest = some a) (hsize : 16 ≤ r.setup.ringSize)
    (hlow : a + 12 < x) (hhigh : x < a + 12 + 32) : r.consume.watched ≠ some x := by
  unfold Ring.watched
  rw [Ring.consume_eq h]
  dsimp only
  split
  · simp
  · split
    · simp only [Option.map_some, ne_eq, Option.some.injEq]; omega
    · simp only [Option.map_some, ne_eq, Option.some.injEq]; omega

/-! ## The step -/

theorem exec_hostReadComplete_eq {s : State} {addr count : Nat} (hup : s.resetLow = false)
    (hport : s.path.port = some (.hostRead addr count)) :
    exec .hostReadComplete s = .next (s.readDone addr count).freePort := by
  refine (whenUp_next _ hup).trans ?_
  unfold State.hostReadComplete
  rw [hport]

/-- Settles O18: a burst of at most 8 words matches the watched address once at most (`Ring.consume_watched_away`). -/
theorem hostReadCompleteConsumesTheOldest : Obligations.HostReadCompleteConsumesTheOldest := by
  intro s addr count hup hport hcount
  refine ⟨s.ring.compare addr count, exec_hostReadComplete_eq hup hport, Ring.compare_unmatched,
    fun a k ha hk hmatch hsize => ?_⟩
  rw [← Ring.consume_eq ha]
  refine Ring.compare_matched hk ?_ fun j hkj hj => Ring.consume_watched_away ha hsize (by omega) (by omega)
  rw [← hmatch]
  exact congrArg (Option.map (· + 12)) ha

end Sys2Proof.Machine

/-! SUPPORT. The end of a hold, and what a burst that is forwarded uncaptured loses (R157, R158, R166, R167). -/

namespace Sys2Proof.Machine

/-! ## Window states and sweeps asked for -/

theorem Assembler.winStateOf_setWinState (a : Assembler) (w k : Fin 5) (x : WinState) :
    (a.setWinState w x).winStateOf k = if w = k then x else a.winStateOf k := get_upd a.winState w k fun _ => x

/-- A sweep of the window is in the request list. -/
def FetchUnit.sweepAsked (f : FetchUnit) (w : Fin 5) : Bool := f.requests.any (Request.sweepsWindow w)

section AskSweep
variable (f : FetchUnit) (w : Fin 5)

theorem FetchUnit.askSweep_eq : f.askSweep w = if f.sweepAsked w then
      if f.active (.sweep w false) then
        { f with requests := f.requests.map fun q => if q.sweepsWindow w then .sweep w true else q }
      else f
    else { f with requests := f.requests ++ [.sweep w false] } := rfl

theorem FetchUnit.askSweep_frame : ∃ requests, f.askSweep w = { f with requests := requests } := by
  unfold FetchUnit.askSweep
  split
  · split
    · exact ⟨_, rfl⟩
    · exact ⟨f.requests, rfl⟩
  · exact ⟨_, rfl⟩

/-- A request is placed, or one that stands is kept or marked (R167). -/
theorem FetchUnit.sweepAsked_askSweep (k : Fin 5) :
    (f.askSweep w).sweepAsked k = (f.sweepAsked k || (w == k)) := by
  have hmarked : ∀ q : Request,
      (if q.sweepsWindow w then Request.sweep w true else q).sweepsWindow k = q.sweepsWindow k := by
    intro q
    by_cases hq : q.sweepsWindow w = true
    · cases q with
      | sweep j m => rw [if_pos hq, ← show j = w from beq_iff_eq.1 hq]; rfl
      | text t => cases hq
      | glyph a src pitch count progress => cases hq
    · rw [if_neg hq]
  by_cases hasked : f.sweepAsked w = true
  · have hcovers : (f.sweepAsked k || (w == k)) = f.sweepAsked k := by
      by_cases hk : w = k
      · subst hk; simp [hasked]
      · simp [hk]
    rw [hcovers]
    rw [f.askSweep_eq, if_pos hasked]
    split
    · simp only [FetchUnit.sweepAsked, List.any_map]
      congr 1
      exact funext hmarked
    · rfl
  · rw [f.askSweep_eq, if_neg hasked]
    simp [FetchUnit.sweepAsked, Request.sweepsWindow]

end AskSweep

/-! ## The loss on one window (R158) -/

section Loss
variable {items : List Item} {w : Fin 5}

theorem State.loseOn_spared {s : State} (h : itemsIn items w = [] ∨ (w ≠ assignWindow ∧ s.asm.winStateOf w = .disabled)) :
    s.loseOn items w = s := by
  unfold State.loseOn
  split
  · rfl
  · rename_i i is hitems
    obtain ⟨hw, hdisabled⟩ := h.resolve_left (by rw [hitems]; exact List.cons_ne_nil i is)
    rw [if_neg hw]
    exact if_pos hdisabled

theorem State.loseOn_reports {s : State} {i : Item} {is : List Item} (h : itemsIn items assignWindow = i :: is) :
    s.loseOn items assignWindow = s.report (.assignLoss i.addr (is.length + 1)) := by
  unfold State.loseOn
  rw [h]
  exact if_pos rfl

theorem State.loseOn_stale {s : State} (hw : w ≠ assignWindow) (hitems : itemsIn items w ≠ [])
    (hstate : s.asm.winStateOf w ≠ .disabled) : s.loseOn items w = s.staleCause w := by
  unfold State.loseOn
  split
  · contradiction
  · rw [if_neg hw]
    exact if_neg hstate

/-- What the loss of a burst can do to a window. -/
theorem State.loseOn_cases (s : State) (items : List Item) (w : Fin 5) : s.loseOn items w = s ∨
    (w = assignWindow ∧ ∃ ev, s.loseOn items w = s.report ev) ∨
    (w ≠ assignWindow ∧ s.loseOn items w = s.staleCause w) := by
  by_cases hitems : itemsIn items w = []
  · exact .inl (State.loseOn_spared (.inl hitems))
  · by_cases hw : w = assignWindow
    · subst hw
      obtain ⟨i, is, h⟩ := List.exists_cons_of_ne_nil hitems
      exact .inr (.inl ⟨rfl, _, State.loseOn_reports h⟩)
    · by_cases hstate : s.asm.winStateOf w = .disabled
      · exact .inl (State.loseOn_spared (.inr ⟨hw, hstate⟩))
      · exact .inr (.inr ⟨hw, State.loseOn_stale hw hitems hstate⟩)

/-- The state of a window once the burst is lost. -/
def lostState (items : List Item) (w : Fin 5) (x : WinState) : WinState :=
  if w = assignWindow ∨ itemsIn items w = [] ∨ x = .disabled then x else .stale

theorem lostState_spared {x : WinState} (h : w = assignWindow ∨ itemsIn items w = [] ∨ x = .disabled) :
    lostState items w x = x := if_pos h

theorem lostState_stale {x : WinState} (hw : w ≠ assignWindow) (hitems : itemsIn items w ≠ []) (hx : x ≠ .disabled) :
    lostState items w x = .stale := if_neg (by simp [hw, hitems, hx])

theorem lostState_lostState (items : List Item) (w : Fin 5) (x : WinState) :
    lostState items w (lostState items w x) = lostState items w x := by
  by_cases h : w = assignWindow ∨ itemsIn items w = [] ∨ x = .disabled
  · rw [lostState_spared h, lostState_spared h]
  · simp only [not_or] at h
    obtain ⟨hw, hitems, hx⟩ := h
    rw [lostState_stale hw hitems hx]
    exact lostState_stale hw hitems (by decide)

theorem State.loseOn_winStateOf (s : State) (items : List Item) (w k : Fin 5) : (s.loseOn items w).asm.winStateOf k =
    if w = k then lostState items k (s.asm.winStateOf k) else s.asm.winStateOf k := by
  by_cases h : w = assignWindow ∨ itemsIn items w = [] ∨ s.asm.winStateOf w = .disabled
  · have hkeeps : (s.loseOn items w).asm.winStateOf k = s.asm.winStateOf k := by
      rcases s.loseOn_cases items w with e | ⟨_, _, e⟩ | ⟨hw, e⟩
      · rw [e]
      · rw [e]; rfl
      · rw [State.loseOn_spared (h.resolve_left hw |>.imp_right fun hx => ⟨hw, hx⟩)]
    rw [hkeeps]
    split
    · rename_i hk
      subst hk
      exact (lostState_spared h).symm
    · rfl
  · simp only [not_or] at h
    obtain ⟨hw, hitems, hx⟩ := h
    rw [State.loseOn_stale hw hitems hx]
    show (s.asm.setWinState w .stale).winStateOf k = _
    rw [Assembler.winStateOf_setWinState]
    split
    · rename_i hk
      subst hk
      exact (lostState_stale hw hitems hx).symm
    · rfl

/-- A sweep that is asked for stays so. -/
theorem State.loseOn_keeps_asked {s : State} {k : Fin 5} (h : s.fetch.sweepAsked k = true) (items : List Item) (w : Fin 5) :
    (s.loseOn items w).fetch.sweepAsked k = true := by
  rcases s.loseOn_cases items w with e | ⟨_, _, e⟩ | ⟨_, e⟩
  · rw [e]; exact h
  · rw [e]; exact h
  · rw [e]
    exact (s.fetch.sweepAsked_askSweep w k).trans (by rw [h]; rfl)

theorem State.loseOn_eng_state {s : State} (h : w ≠ assignWindow) : (s.loseOn items w).eng = s.eng := by
  rcases s.loseOn_cases items w with e | ⟨hw, _⟩ | ⟨_, e⟩
  · rw [e]
  · exact absurd hw h
  · rw [e]; rfl

end Loss

/-! ## What a release and a loss change -/

/-- The memory path, the engines, the window states, the accesses that wait and the fetch requests are all that changed. -/
def State.Loses (s t : State) : Prop := ∃ path eng waiting winState requests reads, t = { s with
  path := path, eng := eng, ring := { s.ring with waiting := waiting }, asm := { s.asm with winState := winState }
  fetch := { s.fetch with requests := requests, sweepReads := reads } }

namespace State.Loses

theorem refl (s : State) : s.Loses s := ⟨_, _, _, _, _, _, rfl⟩

theorem trans {s t u : State} (h : s.Loses t) (k : t.Loses u) : s.Loses u := by
  obtain ⟨_, _, _, _, _, _, rfl⟩ := h
  obtain ⟨_, _, _, _, _, _, rfl⟩ := k
  exact ⟨_, _, _, _, _, _, rfl⟩

theorem arbitrate (s : State) : s.Loses s.arbitrate := by
  obtain ⟨_, _, _, e⟩ := s.arbitrate_frame
  rw [e]
  exact ⟨_, _, _, s.asm.winState, s.fetch.requests, _, rfl⟩

theorem unhold (s : State) (h : Held) (items : List Item) : s.Loses (s.unhold h items) :=
  trans (t := { s with path := { s.path with held := none, waiting := some (.hostWrite h.addr h.beats items) } })
    ⟨_, s.eng, _, s.asm.winState, s.fetch.requests, _, rfl⟩ (arbitrate _)

theorem loseOn (s : State) (items : List Item) (w : Fin 5) : s.Loses (s.loseOn items w) := by
  rcases s.loseOn_cases items w with e | ⟨_, _, e⟩ | ⟨_, e⟩
  · rw [e]; exact refl s
  · rw [e]; exact ⟨s.path, _, _, s.asm.winState, s.fetch.requests, _, rfl⟩
  · obtain ⟨requests, hask⟩ := s.fetch.askSweep_frame w
    rw [e, State.staleCause, hask]
    exact ⟨s.path, s.eng, _, _, requests, _, rfl⟩

end State.Loses

/-! ## The loss of a burst -/

/-- The loss of a burst on each window, in ascending window kind. -/
def State.lose (s : State) (items : List Item) : State := (List.finRange 5).foldl (fun b w => b.loseOn items w) s

section Lose
variable (s : State) (items : List Item)

theorem State.lose_path : (s.lose items).path = s.path := foldl_keeps State.path _ (fun b w => b.loseOn_path items w) _ s

theorem State.Loses.lose : s.Loses (s.lose items) :=
  foldl_inv s.Loses _ (fun b w h => h.trans (loseOn b items w)) _ s (refl s)

theorem State.lose_winStateOf (w : Fin 5) : (s.lose items).asm.winStateOf w = lostState items w (s.asm.winStateOf w) :=
  (foldl_entries (fun b : State => b.asm.winStateOf) _ (lostState items) (fun b w k => b.loseOn_winStateOf items w k)
    (lostState_lostState items) _ s w).trans (if_pos (List.mem_finRange w))

/-- A state window that loses words and is not DISABLED has a sweep asked for. -/
theorem State.lose_asks {w : Fin 5} (hw : w ≠ assignWindow) (hitems : itemsIn items w ≠ [])
    (hstate : s.asm.winStateOf w ≠ .disabled) : (s.lose items).fetch.sweepAsked w = true := by
  have hpass : ∀ (l : List (Fin 5)) (b : State), b.asm.winStateOf w ≠ .disabled →
      w ∈ l ∨ b.fetch.sweepAsked w = true → (l.foldl (fun b k => b.loseOn items k) b).fetch.sweepAsked w = true := by
    intro l
    induction l with
    | nil => exact fun b _ h => h.resolve_left (List.not_mem_nil)
    | cons k l ih =>
      intro b hb h
      by_cases hk : k = w
      · subst hk
        refine ih _ ?_ (.inr ?_)
        · rw [State.loseOn_winStateOf, if_pos rfl, lostState_stale hw hitems hb]
          decide
        · show (b.loseOn items k).fetch.sweepAsked k = true
          rw [State.loseOn_stale hw hitems hb]
          exact (b.fetch.sweepAsked_askSweep k k).trans (by simp)
      · refine ih _ ?_ (h.imp (fun hmem => (List.mem_cons.1 hmem).resolve_left fun h => hk h.symm) fun hasked =>
          State.loseOn_keeps_asked hasked items k)
        rw [State.loseOn_winStateOf, if_neg hk]
        exact hb
  exact hpass _ s hstate (.inl (List.mem_finRange w))

/-- The engines hear of the loss on the ASSIGN window alone. -/
theorem State.lose_eng : (s.lose items).eng = ((s.loseOn items carWindow).loseOn items assignWindow).eng := by
  show (((((s.loseOn items 0).loseOn items 1).loseOn items 2).loseOn items 3).loseOn items 4).eng = _
  rw [State.loseOn_eng_state (w := 4) (by decide), State.loseOn_eng_state (w := 3) (by decide),
    State.loseOn_eng_state (w := 2) (by decide)]

/-- A report is made at the ms time, whatever else has changed. -/
theorem State.report_eng {b : State} (heng : b.eng = s.eng) (hclock : b.clock = s.clock) (ev : Event) :
    (b.report ev).eng = s.eng.report s.ambient ev := by
  show { b.eng with out := b.eng.out.report b.clock.ms ev } = _
  rw [heng, hclock]
  rfl

end Lose

/-! ## The steps -/

section Held
variable {s : State} {h : Held} (hup : s.resetLow = false) (hheld : s.path.held = some h)
include hup hheld

theorem exec_holdoffEnd_eq :
    exec .holdoffEnd s = .next (if h.items.length ≤ s.unpromised then s.unhold h h.items else s) := by
  refine (whenUp_next _ hup).trans ?_
  unfold State.holdoffEnd
  rw [hheld]

theorem exec_holdoffExpiry_eq :
    exec .holdoffExpiry s = .next (if h.expired then (s.unhold h []).lose h.items else s) := by
  refine (whenUp_next _ hup).trans ?_
  unfold State.holdoffExpiry
  rw [hheld]
  rfl

end Held

theorem Held.expired_iff (h : Held) : h.expired = true ↔ ∃ x, h.timer = some x ∧ x.limit ≤ x.ticks := by
  unfold Held.expired
  cases h.timer <;> simp

/-- Settles O19: a hold ends by `State.unhold`, and an expired one loses its items window by window (`State.lose`). -/
theorem holdsEndByRoomOrByLoss : Obligations.HoldsEndByRoomOrByLoss := by
  refine ⟨fun s h hup hheld => ⟨fun hroom => ?_, fun hwant => ?_⟩,
    fun s h hup hheld => ⟨fun x hx hlimit => ?_, fun hearly => ?_⟩⟩
  · rw [exec_holdoffEnd_eq hup hheld, if_pos hroom]
    rfl
  · rw [exec_holdoffEnd_eq hup hheld, if_neg (Nat.not_le.2 hwant)]
  · refine ⟨(s.unhold h []).lose h.items, ?_, State.lose_path _ _, ?_, fun w hw hitems hstate => ⟨?_, ?_⟩, fun w hw => ?_,
      fun i is hitems => ?_, fun hitems => ?_⟩
    · rw [exec_holdoffExpiry_eq hup hheld, if_pos (h.expired_iff.2 ⟨x, hx, hlimit⟩)]
    · obtain ⟨_, _, _, _, _, _, e⟩ := (State.Loses.unhold s h []).trans (.lose _ h.items)
      rw [e]
    · rw [State.lose_winStateOf, State.unhold_asm, lostState_stale hw hitems hstate]
    · exact State.lose_asks _ _ hw hitems (by rwa [State.unhold_asm])
    · rw [State.lose_winStateOf, State.unhold_asm, lostState_spared hw]
    · rw [State.lose_eng, State.loseOn_reports hitems]
      refine s.report_eng ?_ (by simp) _
      rw [State.loseOn_eng_state (by decide), State.unhold_eng]
    · rw [State.lose_eng, State.loseOn_spared (.inl hitems), State.loseOn_eng_state (by decide), State.unhold_eng]
  · have hrunning : h.expired ≠ true := fun hexpired => by
      obtain ⟨x, hx, hlimit⟩ := h.expired_iff.1 hexpired
      exact Nat.not_lt.2 hlimit (hearly x hx)
    rw [exec_holdoffExpiry_eq hup hheld, if_neg hrunning]

end Sys2Proof.Machine

/-! SUPPORT. A host write that completes: the compare with the text lines and with the source ranges of the glyph loads (R111 to
R113, R119, R153, R159). -/

namespace Sys2Proof.Machine

/-! ## What a write hits -/

theorem hitsRange_iff (bytes : List Nat) (start len : Nat) :
    hitsRange bytes start len = true ↔ ∃ b ∈ bytes, start ≤ b ∧ b < start + len := by
  simp [hitsRange]

theorem Line.hit_eq (x : Line) (bytes : List Nat) : x.hit bytes =
    (hitsRange bytes x.tag.header 4 || hitsRange bytes x.tag.pointer 4 || x.watch.any fun r => hitsRange bytes r.1 r.2) := by
  unfold Line.hit
  cases x.watch <;> rfl

/-- The watched range of a line: the header word, the pointer word, and the string bytes once they are known. -/
theorem Line.hit_iff (x : Line) (bytes : List Nat) : x.hit bytes = true ↔ ∃ b ∈ bytes,
    (x.tag.header ≤ b ∧ b < x.tag.header + 4) ∨ (x.tag.pointer ≤ b ∧ b < x.tag.pointer + 4) ∨
      ∃ start len, x.watch = some (start, len) ∧ start ≤ b ∧ b < start + len := by
  have hstring : (x.watch.any fun r => hitsRange bytes r.1 r.2) = true ↔
      ∃ b ∈ bytes, ∃ start len, x.watch = some (start, len) ∧ start ≤ b ∧ b < start + len := by
    cases x.watch with
    | none => simp
    | some r =>
      obtain ⟨start, len⟩ := r
      rw [Option.any_some, hitsRange_iff]
      refine exists_congr fun b => and_congr_right fun _ => ⟨fun h => ⟨start, len, rfl, h⟩, ?_⟩
      rintro ⟨_, _, hrange, h⟩
      cases hrange
      exact h
  rw [Line.hit_eq, Bool.or_eq_true, Bool.or_eq_true, hstring, hitsRange_iff, hitsRange_iff]
  simp only [and_or_left, exists_or, or_assoc]

/-- A byte of a source range is one of the 32 bytes of a glyph. -/
theorem inSource_iff {src pitch count b : Nat} (hpitch : 32 ≤ pitch) : inSource src pitch count b = true ↔
    ∃ g, g < count ∧ src + g * pitch ≤ b ∧ b < src + g * pitch + 32 := by
  simp only [inSource, decide_eq_true_eq]
  constructor
  · rintro ⟨hsrc, hcount, hbyte⟩
    have hdiv := Nat.div_add_mod' (b - src) pitch
    exact ⟨(b - src) / pitch, hcount, by omega, by omega⟩
  · rintro ⟨g, hg, hlow, hhigh⟩
    obtain ⟨k, rfl⟩ := Nat.exists_eq_add_of_le hlow
    have hk : k < pitch := by omega
    have hoff : src + g * pitch + k - src = k + g * pitch := by omega
    rw [hoff, Nat.add_mul_div_right _ _ (by omega), Nat.add_mul_mod_self_right, Nat.div_eq_of_lt hk, Nat.mod_eq_of_lt hk]
    omega

/-! ## The compare with the text lines (R113) -/

/-- The state of a line that a write hits. -/
def LineState.hit : LineState → LineState
  | .valid => .empty
  | .filling => .fillingStale
  | .fillingStale => .fillingStale
  | .empty => .empty

/-- A line behind a write. -/
def Line.snooped (bytes : List Nat) (x : Line) : Line := if x.hit bytes then { x with state := x.state.hit } else x

theorem Line.snooped_snooped (bytes : List Nat) (x : Line) : (x.snooped bytes).snooped bytes = x.snooped bytes := by
  have hstate : ∀ y : LineState, y.hit.hit = y.hit := fun y => by cases y <;> rfl
  unfold Line.snooped
  by_cases h : x.hit bytes = true
  · have hsame : ({ x with state := x.state.hit } : Line).hit bytes = true := h
    rw [if_pos h, if_pos hsame]
    simp only [hstate]
  · rw [if_neg h, if_neg h]

namespace FetchUnit

theorem snoopLine_line (f : FetchUnit) (bytes : List Nat) (k i : Fin 32) :
    (f.snoopLine bytes k).line i = if k = i then (f.line i).snooped bytes else f.line i := by
  have hstands : ∀ (x : Line) (st : LineState), x.state = st → x = { x with state := st } := by
    rintro x _ rfl
    rfl
  unfold snoopLine Line.snooped
  by_cases hki : k = i
  · subst hki
    rw [if_pos rfl]
    split
    · split
      · rename_i hs; exact (f.line_onLine_self k _).trans (by rw [hs]; rfl)
      · rename_i hs; exact (f.line_onLine_self k _).trans (by rw [hs]; rfl)
      · rename_i hs; rw [hs]; exact hstands _ _ hs
      · rename_i hs; rw [hs]; exact hstands _ _ hs
    · rfl
  · rw [if_neg hki]
    have hother : ∀ g, (f.onLine k g).line i = f.line i := fun g => f.line_onLine_other g fun h => hki h.symm
    split
    · split
      · exact hother _
      · exact hother _
      · rfl
      · rfl
    · rfl

/-- The compare with a line leaves all but the text cache as it is. -/
theorem snoopLine_frame (f : FetchUnit) (bytes : List Nat) (i : Fin 32) :
    ∃ lines recency, f.snoopLine bytes i = { f with lines := lines, recency := recency } := by
  unfold snoopLine
  split
  · split
    · exact ⟨_, _, rfl⟩
    · exact ⟨_, f.recency, rfl⟩
    · exact ⟨f.lines, f.recency, rfl⟩
    · exact ⟨f.lines, f.recency, rfl⟩
  · exact ⟨f.lines, f.recency, rfl⟩

/-- Every line compared. -/
def snoopLines (f : FetchUnit) (bytes : List Nat) : FetchUnit :=
  (List.finRange 32).foldl (fun acc i => acc.snoopLine bytes i) f

theorem snoopLines_line (f : FetchUnit) (bytes : List Nat) (i : Fin 32) :
    (f.snoopLines bytes).line i = (f.line i).snooped bytes :=
  (foldl_entries FetchUnit.line _ (fun _ => Line.snooped bytes) (fun g k i => g.snoopLine_line bytes k i)
    (fun _ => Line.snooped_snooped bytes) _ f i).trans (if_pos (List.mem_finRange i))

theorem snoopLines_frame (f : FetchUnit) (bytes : List Nat) :
    ∃ lines recency, f.snoopLines bytes = { f with lines := lines, recency := recency } := by
  refine foldl_inv (fun g : FetchUnit => ∃ lines recency, g = { f with lines := lines, recency := recency }) _
    (fun g i hg => ?_) _ f ⟨f.lines, f.recency, rfl⟩
  obtain ⟨_, _, rfl⟩ := hg
  exact snoopLine_frame _ bytes i

/-! ## A load that starts again (R119) -/

theorem loadsOn_cons (f : FetchUnit) (a : Fin 8) (l : List (Fin 8)) (ch : Fin 4) :
    f.loadsOn (a :: l) ch = (f.loadsOn [a] ch || f.loadsOn l ch) := by
  rw [loadsOn_eq, loadsOn_eq, loadsOn_eq]
  cases f.channel ch with
  | none => rfl
  | some j => cases j <;> simp [Job.loadsIn]

/-- A channel that carries a load of one area carries one of a list exactly when the area is in it. -/
theorem loadsOn_of_one {f : FetchUnit} {a : Fin 8} {ch : Fin 4} (h : f.loadsOn [a] ch = true) (l : List (Fin 8)) :
    f.loadsOn l ch = true ↔ a ∈ l := by
  rw [loadsOn_eq] at h ⊢
  cases hch : f.channel ch with
  | none => rw [hch] at h; cases h
  | some j =>
    rw [hch] at h
    cases j with
    | glyph b stop got =>
      have hb : b = a := by simpa [Job.loadsIn] using h
      subst hb
      simp [Job.loadsIn]
    | text t i stage next left got str len codes => cases h
    | sweep w next stop base records => cases h

/-- A channel carries a load of an area. -/
def carried (f : FetchUnit) (a : Fin 8) : Bool := (List.finRange 4).any fun ch => f.loadsOn [a] ch

theorem restartLoad_eq (f : FetchUnit) (a : Fin 8) : f.restartLoad a =
    if f.carried a then ((f.setProgress a 0).stopLoads [a]).requeueLoad a else f.setProgress a 0 := by
  have hcarried : f.carried a = (List.finRange 4).any fun ch => match f.channel ch with
      | some (.glyph b _ _) => b == a
      | some (.text _ _ _ _ _ _ _ _ _) => false
      | some (.sweep _ _ _ _ _) => false
      | none => false := by
    unfold carried
    congr
    funext ch
    rw [loadsOn_eq]
    cases f.channel ch with
    | none => rfl
    | some j =>
      cases j with
      | glyph b stop got =>
        show [a].contains b = (b == a)
        rw [List.contains_cons, List.contains_nil, Bool.or_false]
      | text t i stage next left got str len codes => rfl
      | sweep w next stop base records => rfl
  rw [hcarried]
  rfl

theorem restartLoad_lines (f : FetchUnit) (a : Fin 8) : (f.restartLoad a).lines = f.lines := by
  rw [restartLoad_eq]
  split
  · exact congrArg Prod.fst (stopLoads_besideLoads (f.setProgress a 0) [a])
  · rfl

theorem restartLoad_areas (f : FetchUnit) (a : Fin 8) : (f.restartLoad a).areas = f.areas := by
  rw [restartLoad_eq]
  split
  · exact stopLoads_areas (f.setProgress a 0) [a]
  · rfl

theorem restartLoad_channel (f : FetchUnit) (a : Fin 8) (ch : Fin 4) :
    (f.restartLoad a).channel ch = if f.loadsOn [a] ch then none else f.channel ch := by
  rw [restartLoad_eq]
  split
  · exact stopLoads_channel (f.setProgress a 0) [a] ch
  · rename_i h
    have hfree : f.loadsOn [a] ch ≠ true := fun hch => h (List.any_eq_true.2 ⟨ch, List.mem_finRange ch, hch⟩)
    rw [if_neg hfree]
    rfl

/-- The list keeps the requests of an area through a return to it. -/
theorem requeueLoad_filter (f : FetchUnit) (a b : Fin 8) :
    (f.requeueLoad a).requests.filter (Request.loads b) = f.requests.filter (Request.loads b) := by
  have hapart : ∀ q : Request, q.loads b = true → q.loads a = (a == b) := by
    intro q hq
    cases q with
    | glyph k src pitch count progress =>
      have hk : k = b := by simpa [Request.loads] using hq
      subst hk
      show (k == a) = (a == k)
      exact BEq.comm
    | text t => cases hq
    | sweep w m => cases hq
  unfold requeueLoad
  rw [List.filter_append, List.filter_filter, List.filter_filter]
  by_cases hab : a = b
  · subst hab
    simp
  · have hnone : ∀ q ∈ f.requests, (q.loads b && q.loads a) = false := by
      intro q _
      cases hq : q.loads b with
      | false => rfl
      | true => simp [hapart q hq, hab]
    have hall : ∀ q ∈ f.requests, (q.loads b && !q.loads a) = q.loads b := by
      intro q _
      cases hq : q.loads b with
      | false => rfl
      | true => simp [hapart q hq, hab]
    rw [List.filter_congr hall, List.filter_congr hnone]
    simp

theorem setProgress_filter_other (f : FetchUnit) {a b : Fin 8} (h : a ≠ b) (n : Nat) :
    (f.setProgress a n).requests.filter (Request.loads b) = f.requests.filter (Request.loads b) := by
  have hloads : Request.loads b ∘ Request.withProgress a n = Request.loads b := funext fun q => q.loads_withProgress a b n
  rw [setProgress_requests, List.filter_map, hloads]
  refine (List.map_congr_left fun q hq => ?_).trans (List.map_id _)
  have hq : q.loads b = true := (List.mem_filter.1 hq).2
  cases q with
  | glyph k src pitch count progress =>
    have hk : k = b := by simpa [Request.loads] using hq
    exact Request.withProgress_other n (by simp [Request.loads, hk, h.symm])
  | text t => cases hq
  | sweep w m => cases hq

theorem restartLoad_filter (f : FetchUnit) (a b : Fin 8) : (f.restartLoad a).requests.filter (Request.loads b) =
    (f.setProgress a 0).requests.filter (Request.loads b) := by
  rw [restartLoad_eq]
  split
  · rw [requeueLoad_filter, stopLoads_requests]
  · rfl

/-! ## The compare with the loads -/

section Restarts
variable (l : List (Fin 8)) (f : FetchUnit)

theorem restartLoads_lines : (l.foldl restartLoad f).lines = f.lines := foldl_keeps FetchUnit.lines _ restartLoad_lines l f

theorem restartLoads_areas : (l.foldl restartLoad f).areas = f.areas := foldl_keeps FetchUnit.areas _ restartLoad_areas l f

theorem restartLoads_channel (ch : Fin 4) :
    (l.foldl restartLoad f).channel ch = if f.loadsOn l ch then none else f.channel ch := by
  induction l generalizing f with
  | nil =>
    have hnone : f.loadsOn [] ch = false := by
      rw [loadsOn_eq]
      cases f.channel ch with
      | none => rfl
      | some j => cases j <;> rfl
    rw [hnone]
    rfl
  | cons a l ih =>
    have hloads : (f.restartLoad a).loadsOn l ch = (!f.loadsOn [a] ch && f.loadsOn l ch) := by
      rw [loadsOn_eq, restartLoad_channel, loadsOn_eq f l]
      cases f.loadsOn [a] ch <;> rfl
    rw [List.foldl_cons, ih, hloads, restartLoad_channel, f.loadsOn_cons a l]
    cases f.loadsOn [a] ch <;> simp

/-- The loads of the list start again, and no other. -/
theorem restartLoads_filter {a : Fin 8} {src pitch count progress : Nat}
    (h : f.requests.filter (Request.loads a) = [.glyph a src pitch count progress]) :
    (l.foldl restartLoad f).requests.filter (Request.loads a) =
      [.glyph a src pitch count (if a ∈ l then 0 else progress)] := by
  induction l generalizing f progress with
  | nil => exact h
  | cons b l ih =>
    rw [List.foldl_cons]
    by_cases hb : b = a
    · subst hb
      rw [ih _ ((f.restartLoad_filter b b).trans (setProgress_load h 0)), ite_self, if_pos List.mem_cons_self]
    · rw [ih _ ((f.restartLoad_filter b a).trans ((f.setProgress_filter_other hb 0).trans h))]
      have hne : a ≠ b := fun h => hb h.symm
      have hmem : a ∈ b :: l ↔ a ∈ l := by simp [hne]
      simp only [hmem]

end Restarts

/-- A load on a channel that starts again is the newest request of the list. -/
theorem restartLoad_newest {f : FetchUnit} {a : Fin 8} {src pitch count progress : Nat}
    (h : f.requests.filter (Request.loads a) = [.glyph a src pitch count progress]) (hcarried : f.carried a = true) :
    (f.restartLoad a).requests.getLast? = some (.glyph a src pitch count 0) := by
  rw [restartLoad_eq, if_pos hcarried]
  unfold requeueLoad
  rw [stopLoads_requests, setProgress_load h]
  exact List.getLast?_concat

section Snoop
variable {f : FetchUnit} {a : Fin 8} {src pitch count progress : Nat}

/-- The area of a load that a write hits. -/
def hitLoad (bytes : List Nat) : Request → Option (Fin 8)
  | .glyph a src pitch count _ => if bytes.any (inSource src pitch count) then some a else none
  | .text _ => none
  | .sweep _ _ => none

theorem hitLoads_eq (f : FetchUnit) (bytes : List Nat) : f.hitLoads bytes = f.requests.filterMap (hitLoad bytes) :=
  congrArg (fun g => f.requests.filterMap g) (funext fun q => by cases q <;> rfl)

theorem hitLoad_glyph (bytes : List Nat) : hitLoad bytes (.glyph a src pitch count progress) =
    if bytes.any (inSource src pitch count) then some a else none := rfl

/-- The one load of an area is hit exactly when a byte of its source range is written. -/
theorem mem_hitLoads (h : f.requests.filter (Request.loads a) = [.glyph a src pitch count progress]) (bytes : List Nat) :
    a ∈ f.hitLoads bytes ↔ bytes.any (inSource src pitch count) = true := by
  have hmem : Request.glyph a src pitch count progress ∈ f.requests :=
    (List.mem_filter.1 (h ▸ List.mem_cons_self)).1
  rw [hitLoads_eq, List.mem_filterMap]
  constructor
  · rintro ⟨q, hq, hhit⟩
    cases q with
    | glyph b src' pitch' count' progress' =>
      rw [hitLoad_glyph] at hhit
      split at hhit
      · rename_i hany
        cases hhit
        have honly : Request.glyph a src' pitch' count' progress' ∈ f.requests.filter (Request.loads a) :=
          List.mem_filter.2 ⟨hq, by simp [Request.loads]⟩
        rw [h, List.mem_singleton] at honly
        cases honly
        exact hany
      · cases hhit
    | text t => cases hhit
    | sweep w m => cases hhit
  · intro hany
    exact ⟨_, hmem, if_pos hany⟩

/-- Entries that give nothing can be filtered out first. -/
theorem filterMap_of_filter {α β : Type} {p : α → Bool} {g : α → Option β} {l : List α}
    (h : ∀ x ∈ l, p x = false → g x = none) : l.filterMap g = (l.filter p).filterMap g := by
  induction l with
  | nil => rfl
  | cons x l ih =>
    have hl := ih fun y hy => h y (List.mem_cons_of_mem x hy)
    cases hp : p x with
    | true => rw [List.filter_cons_of_pos hp, List.filterMap_cons, List.filterMap_cons, hl]
    | false =>
      rw [List.filter_cons_of_neg (by simp [hp]), List.filterMap_cons_none (h x List.mem_cons_self hp), hl]

/-- A write that hits the one load of an area and no load of another area hits that load alone. -/
theorem hitLoads_alone (h : f.requests.filter (Request.loads a) = [.glyph a src pitch count progress]) {bytes : List Nat}
    (hhit : bytes.any (inSource src pitch count) = true)
    (hothers : ∀ q ∈ f.requests, ∀ b src' pitch' count' progress', q = .glyph b src' pitch' count' progress' → b ≠ a →
      bytes.any (inSource src' pitch' count') = false) : f.hitLoads bytes = [a] := by
  have hrest : ∀ q ∈ f.requests, q.loads a = false → hitLoad bytes q = none := by
    intro q hq hloads
    cases q with
    | glyph b src' pitch' count' progress' =>
      have hb : b ≠ a := by simpa [Request.loads] using hloads
      rw [hitLoad_glyph, hothers _ hq _ _ _ _ _ rfl hb]
      rfl
    | text t => rfl
    | sweep w m => rfl
  have hone : hitLoad bytes (.glyph a src pitch count progress) = some a := by rw [hitLoad_glyph, if_pos hhit]
  rw [hitLoads_eq, filterMap_of_filter hrest, h, List.filterMap_cons_some hone, List.filterMap_nil]

theorem snoop_eq (f : FetchUnit) (bytes : List Nat) :
    f.snoop bytes = (f.hitLoads bytes).foldl restartLoad (f.snoopLines bytes) := rfl

theorem snoop_line (f : FetchUnit) (bytes : List Nat) (i : Fin 32) : (f.snoop bytes).line i = (f.line i).snooped bytes := by
  rw [snoop_eq, ← snoopLines_line]
  exact congrArg (·[i]) (restartLoads_lines _ _)

theorem snoop_areas (f : FetchUnit) (bytes : List Nat) : (f.snoop bytes).areas = f.areas := by
  obtain ⟨_, _, e⟩ := f.snoopLines_frame bytes
  rw [snoop_eq, restartLoads_areas, e]

theorem snoop_channel (f : FetchUnit) (bytes : List Nat) (ch : Fin 4) :
    (f.snoop bytes).channel ch = if f.loadsOn (f.hitLoads bytes) ch then none else f.channel ch := by
  obtain ⟨_, _, e⟩ := f.snoopLines_frame bytes
  rw [snoop_eq, restartLoads_channel, e]
  rfl

theorem snoop_filter (h : f.requests.filter (Request.loads a) = [.glyph a src pitch count progress]) (bytes : List Nat) :
    (f.snoop bytes).requests.filter (Request.loads a) =
      [.glyph a src pitch count (if a ∈ f.hitLoads bytes then 0 else progress)] := by
  obtain ⟨_, _, e⟩ := f.snoopLines_frame bytes
  rw [snoop_eq]
  exact restartLoads_filter _ _ (by rw [e]; exact h)

theorem snoop_newest (h : f.requests.filter (Request.loads a) = [.glyph a src pitch count progress]) {bytes : List Nat}
    (halone : f.hitLoads bytes = [a]) (hcarried : f.carried a = true) :
    (f.snoop bytes).requests.getLast? = some (.glyph a src pitch count 0) := by
  obtain ⟨_, _, e⟩ := f.snoopLines_frame bytes
  rw [snoop_eq, halone, e]
  exact restartLoad_newest h hcarried

end Snoop

end FetchUnit

/-! ## The step -/

theorem exec_hostWriteComplete_eq {s : State} {addr : Nat} {beats : List Beat} {items : List Item} (hup : s.resetLow = false)
    (hport : s.path.port = some (.hostWrite addr beats items)) :
    exec .hostWriteComplete s = .next (s.writeDone addr beats items).freePort := by
  refine (whenUp_next _ hup).trans ?_
  unfold State.hostWriteComplete
  rw [hport]

/-- Settles O17: memory by the laws of `Memory.writeBeats`, the lines by `FetchUnit.snoop_line`, the loads by
`FetchUnit.snoop_filter`, `FetchUnit.snoop_channel` and `FetchUnit.snoop_newest`. -/
theorem hostWriteCompleteStoresItsLanes : Obligations.HostWriteCompleteStoresItsLanes := by
  refine ⟨fun s addr beats items hup hwf hport => ?_, fun f bytes i => ⟨fun hmiss => ?_, fun hhit => ?_⟩,
    Line.hit_iff, fun src pitch count b hpitch => inSource_iff hpitch,
    fun f bytes a src pitch count progress hload => ?_⟩
  · exact ⟨_, exec_hostWriteComplete_eq hup hport,
      fun n b k hb hk => Memory.read_writeBeats_inside _ hwf addr beats n b k hb hk,
      fun x hx => Memory.read_writeBeats_outside _ hwf addr beats x hx⟩
  · rw [FetchUnit.snoop_line]
    exact if_neg (by simp [hmiss])
  · rw [FetchUnit.snoop_line]
    refine (if_pos hhit).trans ?_
    cases (f.line i).state <;> rfl
  · intro hit
    have hmem : a ∈ f.hitLoads bytes ↔ hit = true := FetchUnit.mem_hitLoads hload bytes
    have hrequests := FetchUnit.snoop_filter hload bytes
    refine ⟨f.snoop_areas bytes, fun hhit => ⟨?_, fun ch hch => ?_⟩, fun hhit hcarried hothers => ?_,
      fun hmiss => ⟨?_, fun ch hch => ?_⟩⟩
    · rw [hrequests, if_pos (hmem.2 hhit)]
    · rw [f.snoop_channel, if_pos ((FetchUnit.loadsOn_of_one hch _).2 (hmem.2 hhit))]
    · obtain ⟨ch, hch⟩ := hcarried
      exact FetchUnit.snoop_newest hload (FetchUnit.hitLoads_alone hload hhit hothers)
        (List.any_eq_true.2 ⟨ch, List.mem_finRange ch, hch⟩)
    · rw [hrequests, if_neg fun h => by simp [hmem.1 h] at hmiss]
    · rw [f.snoop_channel, if_neg fun h => by simp [hmem.1 ((FetchUnit.loadsOn_of_one hch _).1 h)] at hmiss]

end Sys2Proof.Machine

/-! SUPPORT. The reset pin: what every other command does while RESET_N is low, and what its two edges give the state and the
outputs (R153, R158, R163, R177, R180). -/

namespace Sys2Proof.Machine

/-! ## While RESET_N is low -/

/-- While RESET_N is low a step leaves the state as it is. -/
theorem whenUp_low {s : State} (f : State → State) (hlow : s.resetLow = true) : whenUp s f = .next s := by
  simp [whenUp, hlow]

/-- Every well-formed command but the two edges of RESET_N is a step of a part that is out of reset. -/
theorem exec_eq_whenUp {c : Instr} (hwf : c.wf = true) (hrise : c ≠ .powerOnReset) (hfall : c ≠ .resetNFall) (s : State) :
    exec c s = whenUp s fun s => s.act c := by
  cases c with
  | powerOnReset => exact absurd rfl hrise
  | resetNFall => exact absurd rfl hfall
  | upstreamWrite addr beats => exact exec_upstreamWrite_of_burst hwf s
  | upstreamRead addr count => exact exec_upstreamRead_of_burst hwf s
  | _ => rfl

/-- Settles O11: such a command is a step of a part that is out of reset (`exec_eq_whenUp`), and this part is not. -/
theorem resetLowStopsTheOtherCommands : Obligations.ResetLowStopsTheOtherCommands := by
  intro c s hlow hwf hrise hfall
  calc exec c s = whenUp s (fun s => s.act c) := exec_eq_whenUp hwf hrise hfall s
    _ = .next s := whenUp_low _ hlow

/-! ## The outputs while RESET_N is low -/

theorem State.attention_low {s : State} (hlow : s.resetLow = true) : s.attention = false := by
  simp [State.attention, hlow]

theorem State.driverEnabled_low {s : State} (hlow : s.resetLow = true) (n : Fin 8) : s.driverEnabled n = false := by
  simp [State.driverEnabled, hlow]

/-! ## The two edges -/

@[simp] theorem State.resetFall_resetLow (s : State) : s.resetFall.resetLow = true := rfl

@[simp] theorem State.poweredOn_resetLow (s : State) : s.poweredOn.resetLow = false := rfl

@[simp] theorem State.poweredOn_path (s : State) : s.poweredOn.path = State.reset.path := rfl

@[simp] theorem State.poweredOn_asm (s : State) : s.poweredOn.asm = State.reset.asm := rfl

@[simp] theorem State.poweredOn_fetch (s : State) : s.poweredOn.fetch = State.reset.fetch := rfl

@[simp] theorem State.poweredOn_clock (s : State) : s.poweredOn.clock = State.reset.clock := rfl

@[simp] theorem State.poweredOn_ring (s : State) : s.poweredOn.ring = State.reset.ring := rfl

/-- The engines are those of power-on but for the count of frames built, which is the model's own (log entry 19). -/
theorem State.poweredOn_eng (s : State) : s.poweredOn.eng =
    { State.reset.eng with link := { State.reset.eng.link with frames := s.eng.link.frames } } := rfl

/-- Settles O13: the rising edge by the fields of `State.poweredOn`; the falling edge is `State.resetFall`, which leaves RESET_N
low, and with it the attention line and the link drivers released. -/
theorem resetPinEdgesActAsTheSpecSays : Obligations.ResetPinEdgesActAsTheSpecSays := by
  refine ⟨fun s => ⟨s.poweredOn, rfl, s.poweredOn_resetLow, s.poweredOn_path, s.poweredOn_asm, s.poweredOn_fetch,
    s.poweredOn_clock, s.poweredOn_ring, s.poweredOn_eng, s.poweredOn_mem, s.poweredOn_pending⟩, fun s => ?_⟩
  have hlow : s.resetFall.resetLow = true := s.resetFall_resetLow
  exact ⟨s.resetFall, rfl, rfl, State.attention_low hlow, State.driverEnabled_low hlow⟩

end Sys2Proof.Machine

/-! SUPPORT. A step with a command waiting; the step of an empty queue is `step_idle`. -/

namespace Sys2Proof.Machine

/-- Settles O1: with its queue known to begin with a command, `step` is in the branch that executes that command. -/
theorem stepTakesFrontCommand : Obligations.StepTakesFrontCommand := by
  intro c rest s hqueue
  unfold step
  rw [hqueue]

end Sys2Proof.Machine

/-! SUPPORT. The bookkeeping of the report ring through every command (R172 to R174). -/

namespace Sys2Proof.Machine

namespace State.RingSafe

theorem judge {α : Type} [DecidableEq α] {s : State} (h : s.RingSafe) (p : RecordPlace) (staged : α) (accepted : Option α)
    (check : Option Reason) {accept : State → State} (haccept : (accept s.handedOver).RingSafe) :
    (s.judge p staged accepted check accept).RingSafe :=
  s.judge_keeps State.RingSafe h.handedOver (fun _ ev hb => hb.report ev) p staged accepted check haccept

theorem actsOnEngines {s t : State} (h : s.RingSafe) (ht : s.ActsOnEngines t) : t.RingSafe := by
  obtain ⟨_, _, rfl⟩ := ht
  exact h.same rfl rfl rfl

/-! ## Commits and commands of the command record -/

theorem acceptLanguage {s : State} (h : s.RingSafe) (l : Fin 16) (r : Rec4) : (s.acceptLanguage l r).RingSafe :=
  h.same (by simp) (by simp) (by simp)

theorem relocationCommit {s : State} (h : s.RingSafe) : s.relocationCommit.RingSafe := by
  unfold State.relocationCommit
  split
  · exact h.judge _ _ _ _ (h.handedOver.relocate _)
  · exact h

theorem descriptorCommit {s : State} (h : s.RingSafe) : s.descriptorCommit.RingSafe := by
  unfold State.descriptorCommit
  split
  · exact h.judge _ _ _ _ (h.handedOver.acceptDescriptor _ _)
  · exact h

theorem settingsCommit {s : State} (h : s.RingSafe) : s.settingsCommit.RingSafe := by
  unfold State.settingsCommit
  split
  · exact h.judge _ _ _ _ (h.same (by simp) (by simp) (by simp))
  · exact h

theorem languageCommit {s : State} (h : s.RingSafe) : s.languageCommit.RingSafe := by
  unfold State.languageCommit
  split
  · exact h.judge _ _ _ _ (h.handedOver.acceptLanguage _ _)
  · exact h

theorem ringSetupCommit {s : State} (h : s.RingSafe) : s.ringSetupCommit.RingSafe := by
  unfold State.ringSetupCommit
  split
  · exact h.judge _ _ _ _ (h.handedOver.acceptRing _)
  · exact h

theorem restartCommand {s : State} (h : s.RingSafe) : s.restartCommand.RingSafe := by
  unfold State.restartCommand
  split
  · split
    · exact h.handedOver.restart
    · exact h
  · exact h

theorem sweepCommand {s : State} (h : s.RingSafe) : s.sweepCommand.RingSafe := by
  unfold State.sweepCommand
  split
  · split
    · unfold State.sweep
      split
      · exact h.handedOver.report _
      · exact (h.handedOver.staleCause _).report _
    · exact h
  · exact h

theorem loadGlyphsCommand {s : State} (h : s.RingSafe) : s.loadGlyphsCommand.RingSafe := by
  unfold State.loadGlyphsCommand
  split
  · split
    · unfold State.loadGlyphs
      split
      · exact h.handedOver.report _
      · exact (h.handedOver.beginLoad _ _).report _
    · exact h
  · exact h

/-! ## Every command -/

theorem act {s : State} (h : s.RingSafe) (c : Instr) : (s.act c).RingSafe := by
  cases hengines : engineCommand c with
  | true => exact h.actsOnEngines (act_actsOnEngines s hengines)
  | false =>
    cases c with
    | powerOnReset => exact State.RingSafe.reset.same rfl rfl rfl
    | usTick => exact h.same rfl rfl rfl
    | msTick => exact h.same (by simp [State.act]) (by simp [State.act]) (by simp [State.act])
    | upstreamWrite addr beats => exact h.takeWrite _ _
    | upstreamRead addr count => exact h.takeRead _ _
    | hostWriteComplete => exact h.hostWriteComplete
    | hostReadComplete => exact h.hostReadComplete
    | holdoffEnd => exact h.holdoffEnd
    | holdoffExpiry => exact h.holdoffExpiry
    | intakeDrain => exact h.same (by simp [State.act]) (by simp [State.act]) (by simp [State.act])
    | relocationCommit => exact h.relocationCommit
    | descriptorCommit => exact h.descriptorCommit
    | settingsCommit => exact h.settingsCommit
    | languageCommit => exact h.languageCommit
    | ringSetupCommit => exact h.ringSetupCommit
    | restart => exact h.restartCommand
    | sweep => exact h.sweepCommand
    | loadGlyphs => exact h.loadGlyphsCommand
    | fetchChannelTake ch => exact h.channelTake ch
    | sweepReadIssue ch => exact h.sweepReadIssue ch
    | sweepReadComplete => exact h.sweepReadComplete
    | sweepCompletion => exact h.same (by simp [State.act]) (by simp [State.act]) (by simp [State.act])
    | textFillTransferComplete ch => exact h.textTransferComplete ch
    | glyphTransferComplete ch => exact h.glyphTransferComplete ch
    | outSlot n => exact h.same (by simp [State.act]) (by simp [State.act]) (by simp [State.act])
    | reportWriteIssue => exact h.reportIssue
    | reportWriteComplete => exact h.reportComplete
    | statusMirrorWrite => exact h.mirrorIssue
    | resetNFall => exact h.resetFall
    | fetchReadComplete => exact h.fetchReadComplete
    | statusMirrorWriteComplete => exact h.mirrorComplete
    | _ => cases hengines

theorem refCycle {s : State} (h : s.RingSafe) : s.refCycle.RingSafe := by
  unfold State.refCycle
  split
  · exact h
  · split
    · exact h.same rfl rfl rfl
    · exact h.same (by simp [State.usTick]) (by simp [State.usTick]) (by simp [State.usTick])

end State.RingSafe

/-- Settles O7: the clock and every action keep `State.RingSafe`, so every step does (`step_keeps`). -/
theorem reportRingNeverOverflows : Obligations.ReportRingNeverOverflows := fun _ _ h ht =>
  step_keeps State.RingSafe (fun _ _ h => h.same rfl rfl rfl) (fun _ h => h.refCycle) (fun _ c h => h.act c) h ht

end Sys2Proof.Machine

/-! SUPPORT. What a command can do to the engines, said once: it takes a run of the actions of `Engines.Acts`, each with the
condition under which the command takes it. -/

namespace Sys2Proof.Machine

/-- One action of a command on the engines, with what holds of the engines when it is taken. -/
inductive Engines.Acts : Instr → Engines → Engines → Prop where
  | report (c : Instr) (A : Ambient) (e : Engines) (ev : Event) : Acts c e (e.report A ev)
  | poweredOn (e : Engines) : Acts .powerOnReset e e.poweredOn
  | acceptCar (A : Ambient) (e : Engines) (c : Fin 48) (r : Rec4) : Acts .carCommit e (e.acceptCar A c r)
  | judgeAssign (A : Ambient) (e : Engines) (r : Rec4) : Acts .assignCommit e (e.judgeAssign A r)
  | acceptRoster (A : Ambient) (e : Engines) (d : Nat) (r : Rec4) (h : checkRoster e d r = none) :
      Acts .rosterCommit e (e.acceptRoster A d r)
  | acceptLabel (A : Ambient) (e : Engines) (f : Nat) (r : Rec4) : Acts .labelCommit e (e.acceptLabel A f r)
  | acceptPlayout (A : Ambient) (e : Engines) (c : Fin 16) (r : Rec4) : Acts .playoutCommit e (e.acceptPlayout A c r)
  | clearTable (A : Ambient) (e : Engines) (w : Fin 5) : Acts .descriptorCommit e (e.clearTable A w)
  | rederive (A : Ambient) (e : Engines) : Acts .settingsCommit e (e.rederive A)
  | acceptGroup (A : Ambient) (e : Engines) (g : Fin 8) (r : Rec8) : Acts .groupCommit e (e.acceptGroup A g r)
  | acceptLink (e : Engines) (n : Fin 8) (r : Rec4) : Acts .linkSetupCommit e (e.acceptLink n r)
  | acceptSlot (A : Ambient) (e : Engines) (k : Fin 4) (r : Rec4) : Acts .overrideSlotCommit e (e.acceptSlot A k r)
  | languageReady (c : Instr) (A : Ambient) (e : Engines) (l : Fin 16) : Acts c e (e.languageReady A l)
  | restarted (A : Ambient) (e : Engines) : Acts .restart e (e.restarted A)
  | textFilled (c : Instr) (e : Engines) (t : Tag) : Acts c e (e.textFilled t)
  | outSlot (e : Engines) (n : Fin 8) (f : FetchUnit) : Acts (.outSlot n) e (outSlotStep n f e).2
  | completeFrame (e : Engines) (n : Fin 8) (fr : Frame) (h : (e.linkOf n).frame = some fr) :
      Acts (.frameComplete n) e (e.completeFrame n fr)
  | abortFrame (e : Engines) (n : Fin 8) (fr : Frame) (h : (e.linkOf n).frame = some fr) :
      Acts (.abortBlockSent n) e (e.abortFrame n fr)
  | statusAnswer (A : Ambient) (e : Engines) (n : Fin 8) (heard : List LinkChar) (drop d fault : Nat)
      (h : e.awaited n = some (drop, d)) :
      Acts (.statusAnswer n heard) e ((e.serve n).goodAnswer A n drop d fault)
  | entryAnswer (A : Ambient) (e : Engines) (n : Fin 8) (heard : List LinkChar) (drop d fault : Nat) (toggle : Bool)
      (k : Keyed) (h : e.awaited n = some (drop, d)) :
      Acts (.entryAnswer n heard) e (((e.serve n).goodAnswer A n drop d fault).offerEntry A d toggle k)
  | miss (A : Ambient) (e : Engines) (n : Fin 8) (heard : List LinkChar) (drop d : Nat)
      (h : e.awaited n = some (drop, d)) : Acts (.inSlotMiss n heard) e ((e.serve n).miss A n drop d)
  | advance (e : Engines) (n : Fin 8) : Acts (.slotPositionAdvance n) e (e.onLink n Link.advanced)
  | entryWait (A : Ambient) (e : Engines) (p : TimerPlace) (ps : List TimerPlace) (h : e.timers.list = p :: ps)
      (hk : p.kind = .entryWait) : Acts .entryWaitExpiry e (onEntryWait A e.delivered p)
  | promptHold (A : Ambient) (e : Engines) (p : TimerPlace) (ps : List TimerPlace) (h : e.timers.list = p :: ps)
      (hk : p.kind = .promptHold) : Acts .promptHoldExpiry e (onPromptHold A e.delivered p)
  | lantern (A : Ambient) (e : Engines) (p : TimerPlace) (ps : List TimerPlace) (h : e.timers.list = p :: ps)
      (hk : p.kind = .lantern) : Acts .lanternExpiry e (onLantern A e.delivered p)
  | gong (A : Ambient) (e : Engines) (p : TimerPlace) (ps : List TimerPlace) (h : e.timers.list = p :: ps)
      (hk : p.kind = .gong) : Acts .gongExpiry e (onGong A e.delivered p)
  | dwell (A : Ambient) (e : Engines) (p : TimerPlace) (ps : List TimerPlace) (h : e.timers.list = p :: ps)
      (hk : p.kind = .dwell) : Acts .dwellExpiry e (onDwell A e.delivered p)
  | overrideDwell (A : Ambient) (e : Engines) (p : TimerPlace) (ps : List TimerPlace) (h : e.timers.list = p :: ps)
      (hk : p.kind = .overrideDwell) : Acts .overrideDwellExpiry e (onOverrideDwell A e.delivered p)
  | pop (e : Engines) (now : BitVec 32) : Acts .reportWriteComplete e { e with out := e.out.pop now }

/-- A run of actions of a command on the engines. -/
def Engines.Run (c : Instr) : Engines → Engines → Prop := Relation.ReflTransGen (Engines.Acts c)

namespace Engines.Run

theorem refl (c : Instr) (e : Engines) : Engines.Run c e e := Relation.ReflTransGen.refl

theorem one {c : Instr} {a b : Engines} (h : Engines.Acts c a b) : Engines.Run c a b := Relation.ReflTransGen.single h

theorem trans {c : Instr} {a b d : Engines} (h : Engines.Run c a b) (k : Engines.Run c b d) : Engines.Run c a d :=
  Relation.ReflTransGen.trans h k

theorem of_eq {c : Instr} {a b : Engines} (h : b = a) : Engines.Run c a b := h ▸ refl c a

theorem foldl {α : Type} {c : Instr} (op : Engines → α → Engines) (h : ∀ e x, Engines.Run c e (op e x)) (l : List α)
    (e : Engines) : Engines.Run c e (l.foldl op e) := by
  induction l generalizing e with
  | nil => exact refl c e
  | cons x l ih => exact (h e x).trans (ih _)

/-- A property that every action of a command keeps is kept by a run of them. -/
theorem keeps {c : Instr} {a b : Engines} (P : Engines → Prop) (h : Engines.Run c a b)
    (hact : ∀ e e', Engines.Acts c e e' → P e → P e') (ha : P a) : P b := by
  induction h with
  | refl => exact ha
  | tail _ hlast ih => exact hact _ _ hlast ih

theorem engines {c : Instr} (s : State) {f : Ambient → Engines → Engines} (h : Engines.Acts c s.eng (f s.ambient s.eng)) :
    Engines.Run c s.eng (s.engines f).eng := one h

theorem report (c : Instr) (s : State) (ev : Event) : Engines.Run c s.eng (s.report ev).eng := one (.report c _ _ ev)

theorem judge {α : Type} [DecidableEq α] {c : Instr} (s : State) (p : RecordPlace) (staged : α) (accepted : Option α)
    (check : Option Reason) {accept : State → State}
    (h : check = none → Engines.Run c s.eng (accept s.handedOver).eng) :
    Engines.Run c s.eng (s.judge p staged accepted check accept).eng := by
  unfold State.judge
  split
  · exact refl c s.eng
  · split
    · exact report c s.handedOver _
    · exact h rfl

theorem deliver {c : Instr} (s : State) (k : PlaceKind) (act : Ambient → Engines → TimerPlace → Engines)
    (h : ∀ p ps, s.eng.timers.list = p :: ps → p.kind = k → Engines.Acts c s.eng (act s.ambient s.eng.delivered p)) :
    Engines.Run c s.eng (s.deliver k act).eng := by
  unfold State.deliver
  split
  · rename_i p hp
    obtain ⟨hdue, hk⟩ := Option.filter_eq_some_iff.1 hp
    unfold Timers.due at hdue
    split at hdue
    · cases hdue
    · rename_i ps hl
      split at hdue
      · cases hdue
        exact one (h p ps hl (by simpa using hk))
      · cases hdue
  · exact refl c s.eng

/-! ## The commands -/

theorem loseOn (c : Instr) (s : State) (items : List Item) (w : Fin 5) : Engines.Run c s.eng (s.loseOn items w).eng := by
  unfold State.loseOn
  split
  · exact refl c s.eng
  · split
    · exact report c s _
    · exact of_eq (by simp)

theorem holdoffExpiry (c : Instr) (s : State) : Engines.Run c s.eng s.holdoffExpiry.eng := by
  unfold State.holdoffExpiry
  split
  · rename_i hd _
    split
    · have key (l : List (Fin 5)) : ∀ u : State, Engines.Run c u.eng (l.foldl (fun acc w => acc.loseOn hd.items w) u).eng := by
        induction l with
        | nil => exact fun u => refl c u.eng
        | cons w l ih => exact fun u => (loseOn c u hd.items w).trans (ih _)
      have hfold := key (List.finRange 5) (s.unhold hd [])
      rwa [State.unhold_eng] at hfold
    · exact refl c s.eng
  · exact refl c s.eng

theorem descriptorCommit (s : State) : Engines.Run .descriptorCommit s.eng s.descriptorCommit.eng := by
  unfold State.descriptorCommit
  split
  · rename_i w _
    refine judge _ _ _ _ _ fun _ => ?_
    unfold State.acceptDescriptor
    dsimp only
    split
    · exact refl _ _
    · unfold State.rewindow
      dsimp only
      have hclear : Engines.Run .descriptorCommit s.eng
          ((s.handedOver.setWindow w (s.staged4 (descriptorOffset w))).clearWindow w).eng := one (.clearTable _ _ w)
      split
      · exact hclear.trans (of_eq (by simp))
      · split
        · exact hclear
        · exact hclear.trans (of_eq (by simp))
  · exact refl _ _

theorem assignCommit (s : State) : Engines.Run .assignCommit s.eng s.assignCommit.eng := by
  unfold State.assignCommit
  split
  · unfold State.commitAssign
    dsimp only
    split
    · exact report _ s.handedOver _
    · exact one (.judgeAssign _ _ _)
  · exact refl _ _

theorem languageCommit (s : State) : Engines.Run .languageCommit s.eng s.languageCommit.eng := by
  unfold State.languageCommit
  split
  · refine judge _ _ _ _ _ fun _ => ?_
    unfold State.acceptLanguage
    dsimp only
    split
    · exact engines { s.handedOver with fetch := { s.fetch with langs := s.fetch.langs.set _ _ } } (.languageReady _ _ _ _)
    · exact refl _ _
  · exact refl _ _

theorem foldl_makeStale_eng (l : List (Fin 5)) : ∀ s : State, (l.foldl State.makeStale s).eng = s.eng := by
  induction l with
  | nil => exact fun _ => rfl
  | cons w l ih => exact fun s => (ih _).trans (State.makeStale_eng _ _)

theorem restart (s : State) : Engines.Run .restart s.eng s.restart.eng := by
  have hrun : Engines.Run .restart s.eng (s.restartFetch.engines fun A e => e.restarted A).eng :=
    engines s.restartFetch (.restarted _ _)
  have hstale := foldl_makeStale_eng stateWindows (s.restartFetch.engines fun A e => e.restarted A)
  exact (hrun.trans (of_eq hstale)).trans (report _ _ _)

theorem restartCommand (s : State) : Engines.Run .restart s.eng s.restartCommand.eng := by
  unfold State.restartCommand
  split
  · split
    · exact restart s.handedOver
    · exact refl _ _
  · exact refl _ _

theorem sweepCommand (s : State) : Engines.Run .sweep s.eng s.sweepCommand.eng := by
  unfold State.sweepCommand
  split
  · split
    · unfold State.sweep
      split
      · exact report _ s.handedOver _
      · exact report _ (s.handedOver.staleCause _) _
    · exact refl _ _
  · exact refl _ _

theorem loadGlyphsCommand (s : State) : Engines.Run .loadGlyphs s.eng s.loadGlyphsCommand.eng := by
  unfold State.loadGlyphsCommand
  split
  · split
    · unfold State.loadGlyphs
      split
      · exact report _ s.handedOver _
      · exact report _ (s.handedOver.beginLoad _ _) _
    · exact refl _ _
  · exact refl _ _

theorem badOpcode (s : State) : Engines.Run .badOpcode s.eng s.badOpcode.eng := by
  unfold State.badOpcode
  split
  · split
    · exact refl _ _
    · exact report _ s.handedOver _
  · exact refl _ _

theorem tellFilled (c : Instr) (s : State) (t : Option Tag) : Engines.Run c s.eng (s.tellFilled t).eng := by
  cases t with
  | none => exact refl _ _
  | some t => exact one (.textFilled _ _ _)

theorem channelTake (c : Instr) (s : State) (ch : Fin 4) : Engines.Run c s.eng (s.channelTake ch).eng := by
  unfold State.channelTake
  split
  · rename_i r _ _
    rw [State.arbitrate_eng]
    exact tellFilled c { s with fetch := (s.fetch.take s.path.windows ch r).1 } _
  all_goals exact refl _ _

theorem textTransferComplete (c : Instr) (s : State) (ch : Fin 4) :
    Engines.Run c s.eng (s.textTransferComplete ch).eng := by
  unfold State.textTransferComplete
  rw [State.arbitrate_eng]
  exact tellFilled c { s with fetch := (s.fetch.textDone ch).1 } _

theorem glyphTransferComplete (c : Instr) (s : State) (ch : Fin 4) :
    Engines.Run c s.eng (s.glyphTransferComplete ch).eng := by
  unfold State.glyphTransferComplete
  rw [State.arbitrate_eng]
  cases (s.fetch.glyphDone ch).2 with
  | none => exact refl _ _
  | some x =>
    exact (one (.report _ _ _ _)).trans (foldl _ (fun e l => one (.languageReady c _ e l)) _ _)

theorem sweepCompletion (c : Instr) (s : State) : Engines.Run c s.eng s.sweepCompletion.eng := by
  unfold State.sweepCompletion
  split
  · split
    · unfold State.endSweep
      split
      · exact refl _ _
      · exact one (.report _ _ _ _)
    · exact refl _ _
  all_goals exact refl _ _

theorem outSlot (s : State) (n : Fin 8) : Engines.Run (.outSlot n) s.eng (s.outSlot n).eng := by
  unfold State.outSlot
  dsimp only
  split
  · exact one (.outSlot _ _ _)
  · exact refl _ _

theorem frameComplete (s : State) (n : Fin 8) : Engines.Run (.frameComplete n) s.eng (s.frameComplete n).eng := by
  unfold State.frameComplete
  split
  · rename_i fr hfr
    exact one (.completeFrame _ _ _ (Option.filter_eq_some_iff.1 hfr).1)
  · exact refl _ _

theorem abortBlockSent (s : State) (n : Fin 8) : Engines.Run (.abortBlockSent n) s.eng (s.abortBlockSent n).eng := by
  unfold State.abortBlockSent
  split
  · rename_i fr hfr
    exact one (.abortFrame _ _ _ (Option.filter_eq_some_iff.1 hfr).1)
  · exact refl _ _

theorem statusAnswer (s : State) (n : Fin 8) (heard : List LinkChar) :
    Engines.Run (.statusAnswer n heard) s.eng (s.statusAnswer n heard).eng := by
  unfold State.statusAnswer
  split
  · rename_i drop d hawait
    split
    · exact one (.statusAnswer _ _ _ _ _ _ _ hawait)
    all_goals exact refl _ _
  · exact refl _ _

theorem entryAnswer (s : State) (n : Fin 8) (heard : List LinkChar) :
    Engines.Run (.entryAnswer n heard) s.eng (s.entryAnswer n heard).eng := by
  unfold State.entryAnswer
  split
  · rename_i drop d hawait
    split
    · exact one (.entryAnswer _ _ _ _ _ _ _ _ _ hawait)
    all_goals exact refl _ _
  · exact refl _ _

theorem inSlotMiss (s : State) (n : Fin 8) (heard : List LinkChar) :
    Engines.Run (.inSlotMiss n heard) s.eng (s.inSlotMiss n heard).eng := by
  unfold State.inSlotMiss
  split
  · rename_i drop d hawait
    split
    · exact refl _ _
    · exact one (.miss _ _ _ _ _ _ hawait)
  · exact refl _ _

theorem slotAdvance (s : State) (n : Fin 8) : Engines.Run (.slotPositionAdvance n) s.eng (s.slotAdvance n).eng := by
  unfold State.slotAdvance
  split
  · exact one (.advance _ _)
  · exact refl _ _

theorem reportComplete (s : State) : Engines.Run .reportWriteComplete s.eng s.reportComplete.eng := by
  unfold State.reportComplete
  split
  · dsimp only
    rw [State.freePort_eng]
    split
    · exact refl _ _
    · exact one (.pop _ _)
  all_goals exact refl _ _

theorem hostWriteComplete (c : Instr) (s : State) : Engines.Run c s.eng s.hostWriteComplete.eng := by
  unfold State.hostWriteComplete
  split
  · exact of_eq (State.freePort_eng _)
  all_goals exact refl _ _

theorem hostReadComplete (c : Instr) (s : State) : Engines.Run c s.eng s.hostReadComplete.eng := by
  unfold State.hostReadComplete
  split
  · exact of_eq (State.freePort_eng _)
  all_goals exact refl _ _

theorem sweepReadComplete (c : Instr) (s : State) : Engines.Run c s.eng s.sweepReadComplete.eng := by
  unfold State.sweepReadComplete
  split
  · exact of_eq (by rw [State.freePort_eng, State.sweepDelivered_eng])
  all_goals exact refl _ _

theorem fetchReadComplete (c : Instr) (s : State) : Engines.Run c s.eng s.fetchReadComplete.eng := by
  unfold State.fetchReadComplete
  split
  · exact of_eq (by rw [State.freePort_eng, State.fetchDelivered_eng])
  all_goals exact refl _ _

theorem mirrorComplete (c : Instr) (s : State) : Engines.Run c s.eng s.mirrorComplete.eng := by
  unfold State.mirrorComplete
  split
  · exact of_eq (State.freePort_eng _)
  all_goals exact refl _ _

theorem holdoffEnd (c : Instr) (s : State) : Engines.Run c s.eng s.holdoffEnd.eng := by
  unfold State.holdoffEnd
  split
  · split
    · exact of_eq (State.unhold_eng _ _ _)
    · exact refl _ _
  · exact refl _ _

end Engines.Run

/-- What a command does to the engines is a run of its actions. -/
theorem State.act_eng (s : State) (c : Instr) : Engines.Run c s.eng (s.act c).eng := by
  cases c with
  | powerOnReset => exact .one (.poweredOn _)
  | carCommit =>
    show Engines.Run _ _ s.carCommit.eng
    unfold State.carCommit
    split
    · exact .judge _ _ _ _ _ fun _ => .one (.acceptCar _ _ _ _)
    · exact .refl _ _
  | assignCommit => exact .assignCommit s
  | rosterCommit =>
    show Engines.Run _ _ s.rosterCommit.eng
    unfold State.rosterCommit
    split
    · exact .judge _ _ _ _ _ fun h => .one (.acceptRoster _ _ _ _ h)
    · exact .refl _ _
  | labelCommit =>
    show Engines.Run _ _ s.labelCommit.eng
    unfold State.labelCommit
    split
    · exact .judge _ _ _ _ _ fun _ => .one (.acceptLabel _ _ _ _)
    · exact .refl _ _
  | playoutCommit =>
    show Engines.Run _ _ s.playoutCommit.eng
    unfold State.playoutCommit
    split
    · exact .judge _ _ _ _ _ fun _ => .one (.acceptPlayout _ _ _ _)
    · exact .refl _ _
  | relocationCommit =>
    show Engines.Run _ _ s.relocationCommit.eng
    unfold State.relocationCommit
    split
    · exact .judge _ _ _ _ _ fun _ => .refl _ _
    · exact .refl _ _
  | descriptorCommit => exact .descriptorCommit s
  | settingsCommit =>
    show Engines.Run _ _ s.settingsCommit.eng
    unfold State.settingsCommit
    split
    · exact .judge _ _ _ _ _ fun _ => .one (.rederive _ _)
    · exact .refl _ _
  | groupCommit =>
    show Engines.Run _ _ s.groupCommit.eng
    unfold State.groupCommit
    split
    · exact .judge _ _ _ _ _ fun _ => .one (.acceptGroup _ _ _ _)
    · exact .refl _ _
  | linkSetupCommit =>
    show Engines.Run _ _ s.linkSetupCommit.eng
    unfold State.linkSetupCommit
    split
    · exact .judge _ _ _ _ _ fun _ => .one (.acceptLink _ _ _)
    · exact .refl _ _
  | overrideSlotCommit =>
    show Engines.Run _ _ s.overrideSlotCommit.eng
    unfold State.overrideSlotCommit
    split
    · exact .judge _ _ _ _ _ fun _ => .one (.acceptSlot _ _ _ _)
    · exact .refl _ _
  | ringSetupCommit =>
    show Engines.Run _ _ s.ringSetupCommit.eng
    unfold State.ringSetupCommit
    split
    · exact .judge _ _ _ _ _ fun _ => .refl _ _
    · exact .refl _ _
  | languageCommit => exact .languageCommit s
  | restart => exact .restartCommand s
  | sweep => exact .sweepCommand s
  | loadGlyphs => exact .loadGlyphsCommand s
  | badOpcode => exact .badOpcode s
  | holdoffExpiry => exact .holdoffExpiry _ s
  | fetchChannelTake ch => exact .channelTake _ s ch
  | textFillTransferComplete ch => exact .textTransferComplete _ s ch
  | glyphTransferComplete ch => exact .glyphTransferComplete _ s ch
  | sweepCompletion => exact .sweepCompletion _ s
  | outSlot n => exact .outSlot s n
  | frameComplete n => exact .frameComplete s n
  | abortBlockSent n => exact .abortBlockSent s n
  | statusAnswer n heard => exact .statusAnswer s n heard
  | entryAnswer n heard => exact .entryAnswer s n heard
  | inSlotMiss n heard => exact .inSlotMiss s n heard
  | slotPositionAdvance n => exact .slotAdvance s n
  | entryWaitExpiry => exact .deliver s _ _ fun p ps hl hk => .entryWait _ _ p ps hl hk
  | promptHoldExpiry => exact .deliver s _ _ fun p ps hl hk => .promptHold _ _ p ps hl hk
  | lanternExpiry => exact .deliver s _ _ fun p ps hl hk => .lantern _ _ p ps hl hk
  | gongExpiry => exact .deliver s _ _ fun p ps hl hk => .gong _ _ p ps hl hk
  | dwellExpiry => exact .deliver s _ _ fun p ps hl hk => .dwell _ _ p ps hl hk
  | overrideDwellExpiry => exact .deliver s _ _ fun p ps hl hk => .overrideDwell _ _ p ps hl hk
  | reportWriteComplete => exact .reportComplete s
  | msTick => exact .of_eq (State.msTick_eng s)
  | upstreamWrite addr beats => exact .of_eq (State.takeWrite_eng s _ _)
  | upstreamRead addr count => exact .of_eq (State.takeRead_eng s _ _)
  | intakeDrain => exact .of_eq (State.intakeDrain_eng s)
  | sweepReadIssue ch => exact .of_eq (State.sweepReadIssue_eng s ch)
  | reportWriteIssue => exact .of_eq (State.reportIssue_eng s)
  | statusMirrorWrite => exact .of_eq (State.mirrorIssue_eng s)
  | usTick => exact .refl _ _
  | resetNFall => exact .refl _ _
  | hostWriteComplete => exact .hostWriteComplete _ s
  | hostReadComplete => exact .hostReadComplete _ s
  | holdoffEnd => exact .holdoffEnd _ s
  | sweepReadComplete => exact .sweepReadComplete _ s
  | fetchReadComplete => exact .fetchReadComplete _ s
  | statusMirrorWriteComplete => exact .mirrorComplete _ s

end Sys2Proof.Machine

/-! SUPPORT. The laws of the roster, the queues and the claims, and the capacities of the engines' tables, through every action
of a command on the engines (R40 to R42, R55 to R66, R75, R125, R138, R145, R146). -/

namespace Sys2Proof.Machine

/-! ## Actions on the links and the faces alone -/

/-- Only the Link Controller and the faces differ: the override slots and every other engine stand. -/
structure Engines.OnLinks (e e' : Engines) : Prop where
  ind : e'.ind = e.ind
  dest : e'.dest = e.dest
  play : e'.play = e.play
  timers : e'.timers = e.timers
  out : e'.out = e.out
  slots : e'.face.slots = e.face.slots

namespace Engines.OnLinks

theorem eq {e e' : Engines} (h : e.OnLinks e') :
    e' = { e with link := e'.link, face := { e.face with faces := e'.face.faces } } := by
  obtain ⟨_, _, ⟨_, _⟩, _, _, _, _⟩ := e
  obtain ⟨_, _, ⟨_, _⟩, _, _, _, _⟩ := e'
  obtain ⟨rfl, rfl, rfl, rfl, rfl, rfl⟩ := h
  rfl

theorem refl (e : Engines) : e.OnLinks e := ⟨rfl, rfl, rfl, rfl, rfl, rfl⟩

theorem trans {a b c : Engines} (h : a.OnLinks b) (k : b.OnLinks c) : a.OnLinks c :=
  ⟨k.ind.trans h.ind, k.dest.trans h.dest, k.play.trans h.play, k.timers.trans h.timers, k.out.trans h.out,
    k.slots.trans h.slots⟩

theorem foldl {α : Type} (op : Engines → α → Engines) (h : ∀ (e : Engines) (x : α), e.OnLinks (op e x)) (l : List α) (e : Engines) :
    e.OnLinks (l.foldl op e) :=
  foldl_inv (fun b => e.OnLinks b) op (fun b x hb => hb.trans (h b x)) l e (refl e)

theorem onLink (e : Engines) (n : Fin 8) (g : Link → Link) : e.OnLinks (e.onLink n g) := ⟨rfl, rfl, rfl, rfl, rfl, rfl⟩

theorem storeFace (e : Engines) (d : Nat) (g : Face → Face) : e.OnLinks (e.storeFace d g) :=
  ⟨rfl, rfl, rfl, rfl, rfl, rfl⟩

theorem onDisplay (e : Engines) (d : Nat) (g : Display → Display) : e.OnLinks (e.onDisplay d g) :=
  ⟨rfl, rfl, rfl, rfl, rfl, rfl⟩

theorem textFilled (e : Engines) (t : Tag) : e.OnLinks (e.textFilled t) := ⟨rfl, rfl, rfl, rfl, rfl, rfl⟩

theorem leaveQueue (e : Engines) (n : Fin 8) (d : Nat) : e.OnLinks (e.leaveQueue n d) :=
  (onLink e n _).trans (storeFace _ d _)

/-! ### Frames -/

theorem completeFrame (e : Engines) (n : Fin 8) (fr : Frame) : e.OnLinks (e.completeFrame n fr) := by
  unfold Engines.completeFrame
  extract_lets e1 e2
  have h2 : e.OnLinks e2 := (onLink e n _).trans (storeFace e1 _ _)
  split
  · exact h2.trans (onLink e2 n _)
  · exact h2

theorem abortFrame (e : Engines) (n : Fin 8) (fr : Frame) : e.OnLinks (e.abortFrame n fr) :=
  (onLink e n _).trans (onLink _ n _)

theorem send (e : Engines) (n : Fin 8) (flying : Option Nat) (b : Option Nat → Block) : e.OnLinks (e.send n flying b) :=
  onLink e n _

theorem sendNext (e : Engines) (n : Fin 8) (fr : Frame) : e.OnLinks (e.sendNext n fr) :=
  (send e n _ _).trans (onLink _ n _)

theorem sendAbort (e : Engines) (n : Fin 8) (fr : Frame) : e.OnLinks (e.sendAbort n fr) :=
  (send e n _ _).trans (onLink _ n _)

theorem countFrame (e : Engines) : e.OnLinks e.countFrame := ⟨rfl, rfl, rfl, rfl, rfl, rfl⟩

theorem buildFrame (e : Engines) (f : FetchUnit) (n : Fin 8) (d : Nat) (codes : List Code) :
    e.OnLinks (e.buildFrame f n d codes) := by
  unfold Engines.buildFrame
  split
  · exact refl e
  · exact (storeFace e d _).trans ((countFrame _).trans ((onLink _ n _).trans (sendNext _ n _)))

theorem walkQueue (q : List Nat) : ∀ (f : FetchUnit) (e : Engines), e.OnLinks (walkQueue q f e).eng := by
  induction q with
  | nil => exact fun _ e => refl e
  | cons d q ih =>
    intro f e
    unfold Machine.walkQueue
    split
    · exact ih f e
    · split
      · exact ih f e
      · split
        · exact refl e
        · split
          · exact refl e
          · exact (storeFace e d _).trans (ih _ _)

theorem outSlotStep (n : Fin 8) (f : FetchUnit) (e : Engines) : e.OnLinks (outSlotStep n f e).2 := by
  unfold Machine.outSlotStep
  split
  · dsimp only
    split
    · exact sendAbort e n _
    · exact sendNext e n _
  · extract_lets w
    have hw : e.OnLinks w.eng := walkQueue _ f e
    split
    · exact hw.trans (buildFrame _ _ n _ _)
    · exact hw.trans (send _ n _ _)

theorem withinCapacity {e e' : Engines} (h : e.OnLinks e') (he : e.WithinCapacity) : e'.WithinCapacity :=
  he.congr h.timers h.out h.dest

theorem claimsSafe {e e' : Engines} (h : e.OnLinks e') (he : e.ClaimsSafe) : e'.ClaimsSafe :=
  he.congr h.timers h.dest (congrArg Indication.signals h.ind) h.play h.slots

end Engines.OnLinks

/-! ## The capacities of the tables -/

theorem Engines.WithinCapacity.acts {c : Instr} {e e' : Engines} (ha : Engines.Acts c e e') (h : e.WithinCapacity) :
    e'.WithinCapacity := by
  cases ha with
  | report => exact h.report _ _
  | poweredOn => exact .poweredOn e
  | acceptCar => exact h.acceptCar _ _ _
  | judgeAssign => exact h.judgeAssign _ _
  | acceptRoster => exact h.acceptRoster _ _ _
  | acceptLabel => exact h.acceptLabel _ _ _
  | acceptPlayout => exact h.acceptPlayout _ _ _
  | clearTable => exact h.clearTable _ _
  | rederive => exact h.rederive _
  | acceptGroup => exact h.acceptGroup _ _ _
  | acceptLink => exact h.acceptLink _ _
  | acceptSlot => exact h.acceptSlot _ _ _
  | languageReady => exact h.languageReady _ _
  | restarted => exact h.restarted _
  | textFilled => exact (Engines.OnLinks.textFilled e _).withinCapacity h
  | outSlot _ n f => exact (Engines.OnLinks.outSlotStep n f e).withinCapacity h
  | completeFrame => exact (Engines.OnLinks.completeFrame e _ _).withinCapacity h
  | abortFrame => exact (Engines.OnLinks.abortFrame e _ _).withinCapacity h
  | statusAnswer => exact (h.onLink _ _).goodAnswer _ _ _ _ _
  | entryAnswer => exact ((h.onLink _ _).goodAnswer _ _ _ _ _).offerEntry _ _ _ _
  | miss => exact (h.onLink _ _).miss _ _ _ _
  | advance => exact h.onLink _ _
  | entryWait => exact h.delivered.onEntryWait _ _
  | promptHold => exact h.delivered.onPromptHold _ _
  | lantern => exact h.delivered.onLantern _ _
  | gong => exact h.delivered.onGong _ _
  | dwell => exact h.delivered.onDwell _ _
  | overrideDwell => exact h.delivered.onOverrideDwell _ _
  | pop _ now =>
    exact ⟨h.timers, e.out.pop_length now h.reports, (e.out.pop_tally now).trans_le (Nat.zero_le _), h.entries, h.ticketLow, h.ticketHigh,
      h.prompts, h.stops, h.ordered⟩

/-! ## The roster and the transmit queues -/

/-- The display an IN slot waits for is PRESENT on its RUNNING link. -/
theorem Engines.awaited_present {e : Engines} {n : Fin 8} {drop d : Nat} (h : e.awaited n = some (drop, d))
    (wf : Tab.wf e.face.faces = true) :
    ∃ f, e.faceOf d = some f ∧ f.link = n ∧ f.drop = drop ∧ (e.linkOf n).running = true ∧
      (e.linkOf n).pending = some drop := by
  unfold Engines.awaited at h
  dsimp only at h
  split at h
  · rename_i hin
    split at h
    · rename_i dr hpending
      obtain ⟨x, hx, hpair⟩ := Option.map_eq_some_iff.1 h
      obtain ⟨rfl, rfl⟩ := Prod.mk.inj hpair
      unfold Engines.atDrop at hx
      obtain ⟨y, hy, rfl⟩ := Option.map_eq_some_iff.1 hx
      have hspot := List.find?_some hy
      simp only [Bool.and_eq_true, beq_iff_eq] at hspot
      simp only [Link.inIn, Bool.and_eq_true] at hin
      exact ⟨y.2, Tab.get_of_mem wf (List.mem_of_find?_eq_some hy), hspot.1, hspot.2, hin.1.1, hpending⟩
    · cases h
  · cases h

theorem Engines.LinksSafe.acts {c : Instr} {e e' : Engines} (ha : Engines.Acts c e e') (h : e.LinksSafe) :
    e'.LinksSafe := by
  cases ha with
  | report => exact h.report _ _
  | poweredOn => exact .poweredOn e
  | acceptCar => exact h.acceptCar _ _ _
  | judgeAssign => exact h.judgeAssign _ _
  | acceptRoster _ _ _ _ hc => exact h.acceptRoster _ hc
  | acceptLabel => exact h.acceptLabel _ _ _
  | acceptPlayout => exact h.acceptPlayout _ _ _
  | clearTable => exact h.clearTable _ _
  | rederive => exact h.rederive _
  | acceptGroup => exact h.acceptGroup _ _ _
  | acceptLink => exact h.acceptLink _ _
  | acceptSlot => exact h.acceptSlot _ _ _
  | languageReady => exact h.languageReady _ _
  | restarted => exact .restarted e _
  | textFilled => exact h.textFilled _
  | outSlot _ n f => exact h.outSlotStep n f
  | completeFrame _ _ _ hfr => exact h.completeFrame hfr
  | abortFrame _ _ _ hfr => exact h.abortFrame hfr
  | statusAnswer _ _ n _ _ _ _ hawait =>
    obtain ⟨f, hf, hlink, -, hrun, -⟩ := Engines.awaited_present hawait h.faces
    exact (h.serve n).goodAnswer _ _ _ _ hf (by simpa [hlink, Engines.serve, Engines.linkOf_onLink] using hrun)
  | entryAnswer _ _ n _ _ _ _ _ _ hawait =>
    obtain ⟨f, hf, hlink, -, hrun, -⟩ := Engines.awaited_present hawait h.faces
    exact ((h.serve n).goodAnswer _ _ _ _ hf
      (by simpa [hlink, Engines.serve, Engines.linkOf_onLink] using hrun)).offerEntry _ _ _ _
  | miss _ _ n _ _ _ hawait =>
    obtain ⟨f, hf, hlink, -, -, -⟩ := Engines.awaited_present hawait h.faces
    exact (h.serve n).miss _ _ hf hlink
  | advance _ n => exact h.advanced n
  | entryWait => exact h.delivered.expireEntry _ _
  | promptHold => exact h.delivered.onPromptHold _ _
  | lantern => exact h.delivered.onLantern _ _
  | gong => exact h.delivered.onGong _ _
  | dwell => exact h.delivered.onDwell _ _
  | overrideDwell => exact h.delivered.onOverrideDwell _ _
  | pop => exact h.congr rfl rfl

/-! ## The claims of the timer list -/

namespace Engines.ClaimsSafe

theorem onPromptHold {e : Engines} (h : e.ClaimsSafe) (A : Ambient) (p : TimerPlace) :
    (onPromptHold A e p).ClaimsSafe := by
  unfold Machine.onPromptHold
  split
  · exact h.expirePrompt _ _
  all_goals exact h

theorem onLantern {e : Engines} (h : e.ClaimsSafe) (A : Ambient) (p : TimerPlace) : (onLantern A e p).ClaimsSafe := by
  unfold Machine.onLantern
  split
  · exact h.flash _ _ _
  all_goals exact h

theorem onGong {e : Engines} (h : e.ClaimsSafe) (A : Ambient) (p : TimerPlace) : (onGong A e p).ClaimsSafe := by
  unfold Machine.onGong
  split
  · exact h.stroke _ _
  all_goals exact h

theorem onDwell {e : Engines} (h : e.ClaimsSafe) (A : Ambient) (p : TimerPlace) : (onDwell A e p).ClaimsSafe := by
  unfold Machine.onDwell
  split
  · exact h.expireDwell _ _ _
  all_goals exact h

theorem onOverrideDwell {e : Engines} (h : e.ClaimsSafe) (A : Ambient) (p : TimerPlace) :
    (onOverrideDwell A e p).ClaimsSafe := by
  unfold Machine.onOverrideDwell
  split
  · split
    · exact h.updSlot _ _ fun _ => .inr rfl
    · exact h
  all_goals exact h

theorem acts {c : Instr} {e e' : Engines} (ha : Engines.Acts c e e') (h : e.ClaimsSafe) : e'.ClaimsSafe := by
  have hdelivered {p : TimerPlace} {ps : List TimerPlace} {k : PlaceKind} (hl : e.timers.list = p :: ps) (hk : p.kind = k)
      (hne : k ≠ .entryWait) : e.delivered.ClaimsSafe := h.delivered hl (hk ▸ hne)
  cases ha with
  | report => exact h.report _ _
  | poweredOn => exact .poweredOn e
  | acceptCar => exact h.acceptCar _ _ _
  | judgeAssign => exact h.judgeAssign _ _
  | acceptRoster => exact h.acceptRoster _ _ _
  | acceptLabel => exact h.acceptLabel _ _ _
  | acceptPlayout => exact h.acceptPlayout _ _ _
  | clearTable => exact h.clearTable _ _
  | rederive => exact h.rederive _
  | acceptGroup => exact h.acceptGroup _ _ _
  | acceptLink => exact h.acceptLink _ _
  | acceptSlot => exact h.acceptSlot _ _ _
  | languageReady => exact h.languageReady _ _
  | restarted => exact h.restarted _
  | textFilled => exact (Engines.OnLinks.textFilled e _).claimsSafe h
  | outSlot _ n f => exact (Engines.OnLinks.outSlotStep n f e).claimsSafe h
  | completeFrame => exact (Engines.OnLinks.completeFrame e _ _).claimsSafe h
  | abortFrame => exact (Engines.OnLinks.abortFrame e _ _).claimsSafe h
  | statusAnswer => exact ((Engines.OnLinks.onLink e _ _).claimsSafe h).goodAnswer _ _ _ _ _
  | entryAnswer => exact (((Engines.OnLinks.onLink e _ _).claimsSafe h).goodAnswer _ _ _ _ _).offerEntry _ _ _ _
  | miss => exact ((Engines.OnLinks.onLink e _ _).claimsSafe h).miss _ _ _ _
  | advance => exact (Engines.OnLinks.onLink e _ _).claimsSafe h
  | entryWait _ _ _ _ hl hk => exact h.onEntryWait _ hl hk
  | promptHold _ _ _ _ hl hk => exact (hdelivered hl hk (by decide)).onPromptHold _ _
  | lantern _ _ _ _ hl hk => exact (hdelivered hl hk (by decide)).onLantern _ _
  | gong _ _ _ _ hl hk => exact (hdelivered hl hk (by decide)).onGong _ _
  | dwell _ _ _ _ hl hk => exact (hdelivered hl hk (by decide)).onDwell _ _
  | overrideDwell _ _ _ _ hl hk => exact (hdelivered hl hk (by decide)).onOverrideDwell _ _
  | pop => exact h.congr rfl rfl rfl rfl rfl

end Engines.ClaimsSafe

/-! ## Every step -/

theorem State.refCycle_eng (s : State) : s.refCycle.eng = s.eng := by
  unfold State.refCycle
  split
  · rfl
  · split
    · rfl
    · simp

/-- A property of the engines that every action of a command keeps is kept by every step. -/
theorem step_keeps_eng (P : Engines → Prop) (hacts : ∀ {c : Instr} {e e' : Engines}, Engines.Acts c e e' → P e → P e')
    {s t : State} (h : P s.eng) (ht : step s = .next t) : P t.eng :=
  step_keeps (fun s => P s.eng) (fun _ _ h => h) (fun s h => by rw [s.refCycle_eng]; exact h)
    (fun s c h => (s.act_eng c).keeps P (fun _ _ => hacts) h) h ht

/-- Settles O60: every action of a command on the engines keeps the laws of the links and of the claims; a queue holds each
display of its link once, and those differ in their drops, of which there are 63. -/
theorem rosterQueuesAndClaimsKeepTheirLaws : Obligations.RosterQueuesAndClaimsKeepTheirLaws :=
  ⟨fun _ _ h ht => step_keeps_eng Engines.LinksSafe Engines.LinksSafe.acts h ht, fun _ n h => h.queue_le n,
    fun _ _ h ht => step_keeps_eng Engines.ClaimsSafe Engines.ClaimsSafe.acts h ht⟩

end Sys2Proof.Machine

/-! SUPPORT. What a command can do to the request list and the language table of the Fetch Unit, and the partitions of the list
through every step (R120, R121). -/

namespace Sys2Proof.Machine

/-! ## Partitions -/

/-- The partition of the request list that a request stands in (R121). -/
inductive Partition where
  | text
  | glyph
  | sweep (w : Fin 5)
  deriving DecidableEq

def Request.partition : Request → Partition
  | .text _ => .text
  | .glyph _ _ _ _ _ => .glyph
  | .sweep w _ => .sweep w

theorem Request.isText_eq (q : Request) : q.isText = (q.partition == .text) := by cases q <;> rfl

theorem Request.isGlyph_eq (q : Request) : q.isGlyph = (q.partition == .glyph) := by cases q <;> rfl

theorem Request.sweepsWindow_eq (w : Fin 5) (q : Request) : q.sweepsWindow w = (q.partition == .sweep w) := by
  cases q with
  | sweep k m => exact Bool.eq_iff_iff.2 (by simp [Request.sweepsWindow, Request.partition])
  | text t => rfl
  | glyph a src pitch count progress => rfl

/-- The partitions of the requests in the list. -/
def FetchUnit.partitions (f : FetchUnit) : List Partition := f.requests.map Request.partition

theorem FetchUnit.count_partitions (f : FetchUnit) (x : Partition) :
    f.partitions.count x = (f.requests.filter fun q => q.partition == x).length := by
  unfold FetchUnit.partitions
  rw [List.count_eq_countP, List.countP_map, List.countP_eq_length_filter]
  rfl

/-- The partitions of a safe request list, counted. -/
theorem FetchUnit.requestsSafe_iff (f : FetchUnit) : f.RequestsSafe ↔
    f.partitions.count .text ≤ Config.textPlaces ∧ f.partitions.count .glyph ≤ Config.glyphPlaces ∧
      (∀ w, f.partitions.count (.sweep w) ≤ 1) ∧ f.partitions.count (.sweep assignWindow) = 0 := by
  have hassign : (f.requests.any (Request.sweepsWindow assignWindow) = false) ↔
      f.partitions.count (.sweep assignWindow) = 0 := by
    rw [f.count_partitions, List.length_eq_zero_iff, List.filter_eq_nil_iff, List.any_eq_false]
    simp only [Request.sweepsWindow_eq]
  have htext : f.partitions.count .text = (f.requests.filter Request.isText).length := by
    rw [f.count_partitions]
    simp only [← Request.isText_eq]
  have hglyph : f.partitions.count .glyph = (f.requests.filter Request.isGlyph).length := by
    rw [f.count_partitions]
    simp only [← Request.isGlyph_eq]
  have hsweep (w : Fin 5) : f.partitions.count (.sweep w) = (f.requests.filter (Request.sweepsWindow w)).length := by
    rw [f.count_partitions]
    simp only [← Request.sweepsWindow_eq]
  rw [htext, hglyph, ← hassign]
  simp only [hsweep]
  exact ⟨fun ⟨h1, h2, h3, h4⟩ => ⟨h1, h2, h3, h4⟩, fun ⟨h1, h2, h3, h4⟩ => ⟨h1, h2, h3, h4⟩⟩

/-! ## Operations that place no request -/

/-- The language table stands, and no partition gains a request. -/
structure FetchUnit.Shrinks (f g : FetchUnit) : Prop where
  langs : g.langs = f.langs
  partitions : g.partitions.Subperm f.partitions

namespace FetchUnit.Shrinks

theorem refl (f : FetchUnit) : f.Shrinks f := ⟨rfl, List.Subperm.refl _⟩

theorem trans {f g h : FetchUnit} (hfg : f.Shrinks g) (hgh : g.Shrinks h) : f.Shrinks h :=
  ⟨hgh.langs.trans hfg.langs, hgh.partitions.trans hfg.partitions⟩

/-- The same requests. -/
theorem of_eq {f g : FetchUnit} (hl : g.langs = f.langs) (hr : g.requests = f.requests) : f.Shrinks g :=
  ⟨hl, by unfold FetchUnit.partitions; rw [hr]⟩

/-- Some of the requests. -/
theorem of_sublist {f g : FetchUnit} (hl : g.langs = f.langs) (hr : g.requests.Sublist f.requests) : f.Shrinks g :=
  ⟨hl, (hr.map _).subperm⟩

theorem foldl {α : Type} (op : FetchUnit → α → FetchUnit) (h : ∀ (f : FetchUnit) (x : α), f.Shrinks (op f x)) (l : List α)
    (f : FetchUnit) : f.Shrinks (l.foldl op f) :=
  foldl_inv (fun g => f.Shrinks g) op (fun g x hg => hg.trans (h g x)) l f (refl f)

theorem setChannel (f : FetchUnit) (ch : Fin 4) (j : Option Job) : f.Shrinks (f.setChannel ch j) := of_eq rfl rfl

theorem onLine (f : FetchUnit) (i : Fin 32) (g : Line → Line) : f.Shrinks (f.onLine i g) := of_eq rfl rfl

theorem onArea (f : FetchUnit) (a : Fin 8) (g : Area → Area) : f.Shrinks (f.onArea a g) := of_eq rfl rfl

/-! ### Text fills -/

theorem completeFill (f : FetchUnit) (ch : Fin 4) (t : Tag) (i : Fin 32) (codes : List Code) :
    f.Shrinks (f.completeFill ch t i codes).1 := by
  unfold FetchUnit.completeFill
  split
  · exact of_eq rfl rfl
  · exact of_sublist rfl List.erase_sublist

theorem take (f : FetchUnit) (windows : Vector Rec4 5) (ch : Fin 4) (q : Request) :
    f.Shrinks (f.take windows ch q).1 := by
  cases q with
  | sweep w m => exact setChannel f ch _
  | glyph a src pitch count progress => exact setChannel f ch _
  | text t =>
    have hbegin : f.Shrinks (f.beginFill ch t) := of_eq rfl rfl
    cases h : t.pastTop with
    | false => rwa [FetchUnit.take_text f windows ch t h]
    | true =>
      rw [FetchUnit.take_text_pastTop f windows ch t h]
      exact hbegin.trans (completeFill _ ch t _ _)

theorem messageDone (f : FetchUnit) (ch : Fin 4) (t : Tag) (i : Fin 32) (got : List Word) :
    f.Shrinks (f.messageDone ch t i got).1 := by
  unfold FetchUnit.messageDone
  split
  · exact completeFill f ch t i _
  · exact of_eq rfl rfl

theorem lengthDone (f : FetchUnit) (ch : Fin 4) (t : Tag) (i : Fin 32) (str : Nat) (w : Word) :
    f.Shrinks (f.lengthDone ch t i str w).1 := by
  unfold FetchUnit.lengthDone
  extract_lets aligned len f1 first rest
  have h1 : f.Shrinks f1 := onLine f i _
  split
  · exact h1.trans (completeFill f1 ch t i _)
  · split
    · exact h1.trans (completeFill f1 ch t i _)
    · exact h1.trans (setChannel f1 ch _)

theorem textDone (f : FetchUnit) (ch : Fin 4) : f.Shrinks (f.textDone ch).1 := by
  unfold FetchUnit.textDone
  split
  · exact messageDone f ch _ _ _
  · exact lengthDone f ch _ _ _ _
  · exact completeFill f ch _ _ _
  · exact refl f

/-! ### Glyph loads -/

theorem setProgress (f : FetchUnit) (a : Fin 8) (n : Nat) : f.Shrinks (f.setProgress a n) := by
  refine ⟨rfl, ?_⟩
  have hpartition : Request.partition ∘ Request.withProgress a n = Request.partition :=
    funext fun q => by cases q <;> rfl
  unfold FetchUnit.partitions
  rw [FetchUnit.setProgress_requests, List.map_map, hpartition]

theorem requeueLoad (f : FetchUnit) (a : Fin 8) : f.Shrinks (f.requeueLoad a) := by
  have hperm : (f.requeueLoad a).requests.Perm f.requests := by
    have h := List.filter_append_perm (fun q : Request => !q.loads a) f.requests
    simp only [Bool.not_not] at h
    exact h
  exact ⟨rfl, (hperm.map _).subperm⟩

theorem makeReady (f : FetchUnit) (areas : List (Fin 8)) : f.Shrinks (f.makeReady areas) :=
  foldl _ (fun f a => onArea f a _) areas f

theorem stopLoads (f : FetchUnit) (areas : List (Fin 8)) : f.Shrinks (f.stopLoads areas) :=
  of_eq (congrArg (fun x => x.2.2.1) (f.stopLoads_besideLoads areas)) (f.stopLoads_requests areas)

theorem restartLoad (f : FetchUnit) (a : Fin 8) : f.Shrinks (f.restartLoad a) := by
  rw [FetchUnit.restartLoad_eq]
  split
  · exact ((setProgress f a 0).trans (stopLoads _ [a])).trans (requeueLoad _ a)
  · exact setProgress f a 0

theorem glyphDone (f : FetchUnit) (ch : Fin 4) : f.Shrinks (f.glyphDone ch).1 := by
  unfold FetchUnit.glyphDone
  split
  · rename_i a stop got _
    split
    · split
      · exact refl f
      · split
        · exact (setChannel f ch none).trans (requeueLoad _ _)
        · exact (of_sublist (f := f) (g := { f with requests := f.requests.filter fun r => !r.loads a }) rfl
            List.filter_sublist).trans ((setChannel _ ch none).trans (makeReady _ _))
    · exact refl f
  all_goals exact refl f

theorem deliver (f : FetchUnit) (ch : Fin 4) (words : List Word) : f.Shrinks (f.deliver ch words) := by
  unfold FetchUnit.deliver
  split
  · exact setChannel f ch _
  · dsimp only
    split
    · exact setChannel f ch _
    · split
      · exact ((onArea f _ _).trans (setProgress _ _ _)).trans (setChannel _ ch _)
      · exact refl f
  all_goals exact refl f

theorem snoop (f : FetchUnit) (bytes : List Nat) : f.Shrinks (f.snoop bytes) := by
  have hline (f : FetchUnit) (i : Fin 32) : f.Shrinks (f.snoopLine bytes i) := by
    obtain ⟨lines, recency, h⟩ := f.snoopLine_frame bytes i
    exact of_eq (by rw [h]) (by rw [h])
  exact (foldl _ hline _ f).trans (foldl _ restartLoad _ _)

theorem cleared (f : FetchUnit) (banks : List (Fin 8)) : f.Shrinks (f.cleared banks) :=
  of_sublist (congrArg (fun x => x.2.2.1) (f.cleared_besideLoads banks))
    (by rw [f.cleared_requests]; exact List.filter_sublist)

/-! ### Sweeps and lookups -/

theorem withdrawSweep (f : FetchUnit) (w : Fin 5) : f.Shrinks (f.withdrawSweep w) := by
  unfold FetchUnit.withdrawSweep
  refine (of_sublist (f := f) (g := { f with
    requests := f.requests.filter (fun r => !r.sweepsWindow w), sweepReads := f.sweepReads.map (SweepRead.withdraw w) })
    rfl List.filter_sublist).trans (foldl _ (fun f ch => ?_) _ _)
  split
  · split
    · exact setChannel f ch none
    · exact refl f
  all_goals exact refl f

theorem restarted (f : FetchUnit) : f.Shrinks f.restarted := of_sublist rfl (List.nil_sublist _)

theorem issueSweep (f : FetchUnit) (ch : Fin 4) (w : Fin 5) (next stop : Nat) (base records : Word) :
    f.Shrinks (f.issueSweep ch w next stop base records) := of_eq rfl rfl

theorem endSweep (f : FetchUnit) (ch : Fin 4) (w : Fin 5) :
    f.Shrinks (({ f with requests := f.requests.filter fun r => !r.sweepsWindow w } : FetchUnit).setChannel ch none) :=
  of_sublist rfl List.filter_sublist

/-- A sweep that starts again: its request becomes the newest. -/
theorem rerunSweep {f : FetchUnit} {w : Fin 5} (h : f.rerunMarked w = true) (windows : Vector Rec4 5) (ch : Fin 4) :
    f.Shrinks (f.rerunSweep windows ch w) := by
  unfold FetchUnit.rerunSweep
  refine trans ?_ (take _ windows ch _)
  refine ⟨rfl, ?_⟩
  have hmem : Request.sweep w true ∈ f.requests.filter (Request.sweepsWindow w) :=
    List.mem_filter.2 ⟨by simpa [FetchUnit.rerunMarked] using h, by simp [Request.sweepsWindow]⟩
  have hperm := List.filter_append_perm (fun q : Request => !q.sweepsWindow w) f.requests
  simp only [Bool.not_not] at hperm
  have hone : [Partition.sweep w].Sublist ((f.requests.filter (Request.sweepsWindow w)).map Request.partition) :=
    List.singleton_sublist.2 (List.mem_map.2 ⟨_, hmem, rfl⟩)
  have hsub := (List.Sublist.refl ((f.requests.filter fun r => !r.sweepsWindow w).map Request.partition)).append hone
  rw [← List.map_append] at hsub
  simp only [FetchUnit.partitions, List.map_append, List.map_cons, List.map_nil, Request.partition]
  exact hsub.subperm.trans (hperm.map _).subperm

theorem lookup {f g : FetchUnit} {t : Tag} {codes : List Code} (h : f.lookup t = some (codes, g)) : f.Shrinks g := by
  unfold FetchUnit.lookup at h
  split at h
  · cases h
  · split at h
    · cases h
      exact of_eq rfl rfl
    · cases h

theorem served (f : FetchUnit) (a : Access) : f.Shrinks (f.served a) := by
  cases a <;> exact of_eq rfl rfl

end FetchUnit.Shrinks

/-! ## The actions of a command on the Fetch Unit -/

/-- One action of a command on the Fetch Unit, as far as the request list and the language table go. -/
inductive FetchUnit.Acts : Instr → FetchUnit → FetchUnit → Prop where
  | shrink (c : Instr) {f g : FetchUnit} (h : f.Shrinks g) : Acts c f g
  | reset (f : FetchUnit) : Acts .powerOnReset f FetchUnit.reset
  | setLang (f : FetchUnit) (l : Fin 16) (r : Rec4) : Acts .languageCommit f (f.setLang l r)
  | askSweep (c : Instr) (f : FetchUnit) (w : Fin 5) (h : w ≠ assignWindow) : Acts c f (f.askSweep w)
  | startLoad (f : FetchUnit) (a : Fin 8) (r : Rec4) (h : f.checkLoad r = .ok a) :
      Acts .loadGlyphs f (f.startLoad a r.cmdSource r.cmdPitch r.cmdCount)
  | requestText (c : Instr) (f : FetchUnit) (t : Tag) : Acts c f (f.requestText t)

/-- A run of actions of a command on the Fetch Unit. -/
def FetchUnit.Run (c : Instr) : FetchUnit → FetchUnit → Prop := Relation.ReflTransGen (FetchUnit.Acts c)

namespace FetchUnit.Run

theorem refl (c : Instr) (f : FetchUnit) : FetchUnit.Run c f f := Relation.ReflTransGen.refl

theorem one {c : Instr} {f g : FetchUnit} (h : FetchUnit.Acts c f g) : FetchUnit.Run c f g :=
  Relation.ReflTransGen.single h

theorem trans {c : Instr} {f g k : FetchUnit} (h : FetchUnit.Run c f g) (hk : FetchUnit.Run c g k) : FetchUnit.Run c f k :=
  Relation.ReflTransGen.trans h hk

theorem shrink {c : Instr} {f g : FetchUnit} (h : f.Shrinks g) : FetchUnit.Run c f g := one (.shrink c h)

theorem of_eq {c : Instr} {f g : FetchUnit} (h : g = f) : FetchUnit.Run c f g := h ▸ refl c f

theorem keeps {c : Instr} {f g : FetchUnit} (P : FetchUnit → Prop) (h : FetchUnit.Run c f g)
    (hact : ∀ f g, FetchUnit.Acts c f g → P f → P g) (hf : P f) : P g := by
  induction h with
  | refl => exact hf
  | tail _ hlast ih => exact hact _ _ hlast ih

theorem judge {α : Type} [DecidableEq α] {c : Instr} (s : State) (p : RecordPlace) (staged : α) (accepted : Option α)
    (check : Option Reason) {accept : State → State}
    (h : FetchUnit.Run c s.fetch (accept s.handedOver).fetch) :
    FetchUnit.Run c s.fetch (s.judge p staged accepted check accept).fetch := by
  unfold State.judge
  split
  · exact refl c s.fetch
  · split
    · exact refl c s.fetch
    · exact h

theorem arbitrate (c : Instr) (s : State) : FetchUnit.Run c s.fetch s.arbitrate.fetch :=
  shrink (.of_eq s.arbitrate_langs s.arbitrate_requests)

theorem arbitrated {c : Instr} {f : FetchUnit} {s : State} (h : FetchUnit.Run c f s.fetch) :
    FetchUnit.Run c f s.arbitrate.fetch := h.trans (arbitrate c s)

theorem freePort {c : Instr} {f : FetchUnit} {s : State} (h : FetchUnit.Run c f s.fetch) :
    FetchUnit.Run c f s.freePort.fetch := arbitrated (s := { s with path := { s.path with port := none } }) h

theorem forward (c : Instr) (s : State) (a : Access) : FetchUnit.Run c s.fetch (s.forward a).fetch :=
  arbitrate c { s with path := { s.path with waiting := some a } }

theorem unhold (c : Instr) (s : State) (h : Held) (items : List Item) : FetchUnit.Run c s.fetch (s.unhold h items).fetch :=
  forward c { s with path := { s.path with held := none } } _

theorem issue (c : Instr) (s : State) (a : Access) : FetchUnit.Run c s.fetch (s.issue a).fetch :=
  arbitrate c { s with ring := { s.ring with waiting := s.ring.waiting ++ [a] } }

/-! ### The commands -/

theorem makeStale {c : Instr} (s : State) {w : Fin 5} (hw : w ≠ assignWindow) :
    FetchUnit.Run c s.fetch (s.makeStale w).fetch := by
  unfold State.makeStale
  split
  · exact refl c _
  · exact one (.askSweep c _ w hw)

theorem loseOn {c : Instr} (s : State) (items : List Item) (w : Fin 5) :
    FetchUnit.Run c s.fetch (s.loseOn items w).fetch := by
  rcases s.loseOn_cases items w with h | ⟨-, ev, h⟩ | ⟨hw, h⟩
  · exact of_eq (by rw [h])
  · exact of_eq (by rw [h]; rfl)
  · rw [h]
    exact one (.askSweep c _ w hw)

theorem holdoffExpiry (c : Instr) (s : State) : FetchUnit.Run c s.fetch s.holdoffExpiry.fetch := by
  unfold State.holdoffExpiry
  split
  · rename_i hd _
    split
    · have key (l : List (Fin 5)) : ∀ u : State,
          FetchUnit.Run c u.fetch (l.foldl (fun acc w => acc.loseOn hd.items w) u).fetch := by
        induction l with
        | nil => exact fun u => refl c u.fetch
        | cons w l ih => exact fun u => (loseOn u hd.items w).trans (ih _)
      exact (unhold c s hd []).trans (key _ _)
    · exact refl c _
  · exact refl c _

theorem descriptorCommit (c : Instr) (s : State) : FetchUnit.Run c s.fetch s.descriptorCommit.fetch := by
  unfold State.descriptorCommit
  split
  · rename_i w _
    refine judge _ _ _ _ _ ?_
    unfold State.acceptDescriptor
    dsimp only
    split
    · exact refl _ _
    · unfold State.rewindow
      dsimp only
      split
      · exact shrink (.withdrawSweep _ w)
      · split
        · exact refl _ _
        · rename_i hw
          refine trans ?_ (one (.askSweep c _ w hw))
          unfold State.quietSweep
          split
          · exact shrink (.withdrawSweep _ w)
          · exact refl _ _
  · exact refl _ _

theorem restart (c : Instr) (s : State) : FetchUnit.Run c s.fetch s.restart.fetch := by
  have key (l : List (Fin 5)) (hl : ∀ w ∈ l, w ≠ assignWindow) : ∀ u : State,
      FetchUnit.Run c u.fetch (l.foldl State.makeStale u).fetch := by
    induction l with
    | nil => exact fun u => refl c u.fetch
    | cons w l ih =>
      exact fun u => (makeStale u (hl w List.mem_cons_self)).trans
        (ih (fun v hv => hl v (List.mem_cons_of_mem _ hv)) _)
  have hreset : FetchUnit.Run c s.fetch (s.restartFetch.engines fun A e => e.restarted A).fetch := by
    rw [State.engines_fetch]
    exact shrink (.restarted s.fetch)
  unfold State.restart
  rw [State.report_fetch]
  exact hreset.trans (key stateWindows (by decide) _)

theorem restartCommand (c : Instr) (s : State) : FetchUnit.Run c s.fetch s.restartCommand.fetch := by
  unfold State.restartCommand
  split
  · split
    · exact restart c s.handedOver
    · exact refl _ _
  · exact refl _ _

theorem sweepCommand (c : Instr) (s : State) : FetchUnit.Run c s.fetch s.sweepCommand.fetch := by
  unfold State.sweepCommand
  split
  · rename_i r _
    split
    · unfold State.sweep
      split
      · exact refl _ _
      · rename_i w hcheck
        refine one (.askSweep c _ w ?_)
        unfold State.checkSweep at hcheck
        split at hcheck
        · cases hcheck
        · split at hcheck
          · cases hcheck
          · rename_i hw
            split at hcheck
            · cases hcheck
            · cases hcheck
              exact hw
    · exact refl _ _
  · exact refl _ _

theorem loadGlyphsCommand (s : State) : FetchUnit.Run .loadGlyphs s.fetch s.loadGlyphsCommand.fetch := by
  unfold State.loadGlyphsCommand
  split
  · split
    · unfold State.loadGlyphs
      split
      · exact refl _ _
      · rename_i a hcheck
        exact one (.startLoad s.fetch a _ hcheck)
    · exact refl _ _
  · exact refl _ _

theorem channelTake (c : Instr) (s : State) (ch : Fin 4) : FetchUnit.Run c s.fetch (s.channelTake ch).fetch := by
  unfold State.channelTake
  split
  · refine arbitrated ?_
    rw [State.tellFilled_fetch]
    exact shrink (.take _ _ _ _)
  all_goals exact refl _ _

theorem sweepReadIssue (c : Instr) (s : State) (ch : Fin 4) : FetchUnit.Run c s.fetch (s.sweepReadIssue ch).fetch := by
  unfold State.sweepReadIssue
  split
  · split
    · exact arbitrated (s := { s with fetch := _ }) (shrink (.issueSweep s.fetch ch _ _ _ _ _))
    · exact refl _ _
  all_goals exact refl _ _

theorem sweepReadEnd (c : Instr) (s : State) (w : Fin 5) : FetchUnit.Run c s.fetch (s.sweepReadEnd w).fetch := by
  unfold State.sweepReadEnd
  split
  · exact refl _ _
  · split
    · rename_i hrerun
      exact shrink (.rerunSweep hrerun _ _)
    · exact shrink (.endSweep _ _ w)

theorem sweepReadComplete (c : Instr) (s : State) : FetchUnit.Run c s.fetch s.sweepReadComplete.fetch := by
  unfold State.sweepReadComplete
  split
  · rename_i r _
    refine freePort ?_
    unfold State.sweepDelivered
    dsimp only
    split
    · exact refl _ _
    · exact refl _ _
    · exact sweepReadEnd c { s with asm := { s.asm with intake := s.asm.intake ++ r.items s.mem } } r.kind
  all_goals exact refl _ _

theorem textTransferComplete (c : Instr) (s : State) (ch : Fin 4) :
    FetchUnit.Run c s.fetch (s.textTransferComplete ch).fetch := by
  unfold State.textTransferComplete
  refine arbitrated ?_
  rw [State.tellFilled_fetch]
  exact shrink (.textDone _ _)

theorem glyphTransferComplete (c : Instr) (s : State) (ch : Fin 4) :
    FetchUnit.Run c s.fetch (s.glyphTransferComplete ch).fetch := by
  unfold State.glyphTransferComplete
  refine arbitrated ?_
  rw [State.tellReady_fetch]
  exact shrink (.glyphDone _ _)

theorem fetchReadComplete (c : Instr) (s : State) : FetchUnit.Run c s.fetch s.fetchReadComplete.fetch := by
  unfold State.fetchReadComplete
  split
  · rename_i ch addr count discard _
    refine freePort ?_
    unfold State.fetchDelivered
    split
    · exact refl _ _
    · exact shrink (.deliver _ _ _)
  all_goals exact refl _ _

theorem walkQueue (c : Instr) (q : List Nat) : ∀ (f : FetchUnit) (e : Engines),
    FetchUnit.Run c f (walkQueue q f e).fetch := by
  induction q with
  | nil => exact fun f _ => refl c f
  | cons d q ih =>
    intro f e
    unfold Machine.walkQueue
    split
    · exact ih f e
    · split
      · exact ih f e
      · split
        · exact refl c f
        · split
          · rename_i hlookup
            exact shrink (.lookup hlookup)
          · exact (one (.requestText c f _)).trans (ih _ _)

theorem outSlot (c : Instr) (s : State) (n : Fin 8) : FetchUnit.Run c s.fetch (s.outSlot n).fetch := by
  unfold State.outSlot
  dsimp only
  split
  · unfold outSlotStep
    split
    · exact refl _ _
    · dsimp only
      split
      · exact walkQueue c _ _ _
      · exact walkQueue c _ _ _
  · exact refl _ _

end FetchUnit.Run

theorem State.ActsOnEngines.fetch {s t : State} (h : s.ActsOnEngines t) : t.fetch = s.fetch := by
  obtain ⟨_, _, rfl⟩ := h
  rfl

/-- What a command does to the Fetch Unit is a run of its actions. -/
theorem State.act_fetch (s : State) (c : Instr) : FetchUnit.Run c s.fetch (s.act c).fetch := by
  cases hengines : engineCommand c with
  | true => exact .of_eq (act_actsOnEngines s hengines).fetch
  | false =>
    cases c with
    | powerOnReset => exact .one (.reset _)
    | usTick => exact .refl _ _
    | msTick => exact .of_eq (State.msTick_fetch s)
    | upstreamWrite addr beats =>
      show FetchUnit.Run _ _ (s.takeWrite _ _).fetch
      unfold State.takeWrite
      dsimp only
      split
      · split
        · exact .refl _ _
        · exact .forward _ _ _
      · exact .refl _ _
    | upstreamRead addr count =>
      show FetchUnit.Run _ _ (s.takeRead _ _).fetch
      unfold State.takeRead
      split
      · exact .forward _ _ _
      · exact .refl _ _
    | hostWriteComplete =>
      show FetchUnit.Run _ _ s.hostWriteComplete.fetch
      unfold State.hostWriteComplete
      split
      · exact .freePort (.shrink (.snoop _ _))
      all_goals exact .refl _ _
    | hostReadComplete =>
      show FetchUnit.Run _ _ s.hostReadComplete.fetch
      unfold State.hostReadComplete
      split
      · exact .freePort (.refl _ _)
      all_goals exact .refl _ _
    | holdoffEnd =>
      show FetchUnit.Run _ _ s.holdoffEnd.fetch
      unfold State.holdoffEnd
      split
      · split
        · exact .unhold _ _ _ _
        · exact .refl _ _
      · exact .refl _ _
    | holdoffExpiry => exact .holdoffExpiry _ s
    | intakeDrain => exact .of_eq (State.intakeDrain_fetch s)
    | relocationCommit =>
      show FetchUnit.Run _ _ s.relocationCommit.fetch
      unfold State.relocationCommit
      split
      · exact .judge _ _ _ _ _ (.refl _ _)
      · exact .refl _ _
    | descriptorCommit => exact .descriptorCommit _ s
    | settingsCommit =>
      show FetchUnit.Run _ _ s.settingsCommit.fetch
      unfold State.settingsCommit
      split
      · exact .judge _ _ _ _ _ (.refl _ _)
      · exact .refl _ _
    | languageCommit =>
      show FetchUnit.Run _ _ s.languageCommit.fetch
      unfold State.languageCommit
      split
      · refine .judge _ _ _ _ _ ?_
        rw [acceptLanguage_fetch]
        exact .one (.setLang _ _ _)
      · exact .refl _ _
    | ringSetupCommit =>
      show FetchUnit.Run _ _ s.ringSetupCommit.fetch
      unfold State.ringSetupCommit
      split
      · exact .judge _ _ _ _ _ (.refl _ _)
      · exact .refl _ _
    | restart => exact .restartCommand _ s
    | sweep => exact .sweepCommand _ s
    | loadGlyphs => exact .loadGlyphsCommand s
    | fetchChannelTake ch => exact .channelTake _ s ch
    | sweepReadIssue ch => exact .sweepReadIssue _ s ch
    | sweepReadComplete => exact .sweepReadComplete _ s
    | sweepCompletion => exact .of_eq (State.sweepCompletion_fetch s)
    | textFillTransferComplete ch => exact .textTransferComplete _ s ch
    | glyphTransferComplete ch => exact .glyphTransferComplete _ s ch
    | outSlot n => exact .outSlot _ s n
    | reportWriteIssue =>
      show FetchUnit.Run _ _ s.reportIssue.fetch
      unfold State.reportIssue
      split
      · split
        · exact .issue _ _ _
        · exact .refl _ _
      all_goals exact .refl _ _
    | reportWriteComplete =>
      show FetchUnit.Run _ _ s.reportComplete.fetch
      unfold State.reportComplete
      split
      · dsimp only
        split
        · exact .freePort (.refl _ _)
        · exact .freePort (.refl _ _)
      all_goals exact .refl _ _
    | statusMirrorWrite =>
      show FetchUnit.Run _ _ s.mirrorIssue.fetch
      unfold State.mirrorIssue
      split
      · exact .issue _ { s with ring := { s.ring with
          mirrorLast := some s.mirror, mirrorAt := some s.clock.ms, mirrorMoved := false } } _
      · exact .refl _ _
    | resetNFall => exact .refl _ _
    | fetchReadComplete => exact .fetchReadComplete _ s
    | statusMirrorWriteComplete =>
      show FetchUnit.Run _ _ s.mirrorComplete.fetch
      unfold State.mirrorComplete
      split
      · exact .freePort (.refl _ _)
      all_goals exact .refl _ _
    | _ => cases hengines

/-! ## The partitions, kept -/

namespace FetchUnit.RequestsSafe

theorem shrinks {f g : FetchUnit} (h : f.RequestsSafe) (hfg : f.Shrinks g) : g.RequestsSafe := by
  rw [FetchUnit.requestsSafe_iff] at h ⊢
  obtain ⟨htext, hglyph, hsweep, hassign⟩ := h
  have hle (x : Partition) : g.partitions.count x ≤ f.partitions.count x := hfg.partitions.count_le x
  exact ⟨(hle _).trans htext, (hle _).trans hglyph, fun w => (hle _).trans (hsweep w), Nat.le_zero.1 (hassign ▸ hle _)⟩

/-- A request put behind the others, where its partition has room. -/
theorem placed {f g : FetchUnit} {q : Request} (h : f.RequestsSafe) (hg : g.partitions = f.partitions ++ [q.partition])
    (htext : q.partition = .text → f.partitions.count .text < Config.textPlaces)
    (hglyph : q.partition = .glyph → f.partitions.count .glyph < Config.glyphPlaces)
    (hsweep : ∀ w, q.partition = .sweep w → f.partitions.count (.sweep w) = 0 ∧ w ≠ assignWindow) : g.RequestsSafe := by
  rw [FetchUnit.requestsSafe_iff] at h ⊢
  obtain ⟨htext', hglyph', hsweep', hassign'⟩ := h
  have hcount (x : Partition) : g.partitions.count x = f.partitions.count x + if q.partition = x then 1 else 0 := by
    rw [hg, List.count_append, List.count_singleton]
    simp
  simp only [hcount]
  refine ⟨?_, ?_, fun w => ?_, ?_⟩
  · split
    · next hq => exact htext hq
    · exact htext'
  · split
    · next hq => exact hglyph hq
    · exact hglyph'
  · split
    · next hq => exact (congrArg (· + 1) (hsweep w hq).1).le
    · exact hsweep' w
  · rw [if_neg fun hq => (hsweep _ hq).2 rfl, hassign']

theorem askSweep {f : FetchUnit} (h : f.RequestsSafe) {w : Fin 5} (hw : w ≠ assignWindow) :
    (f.askSweep w).RequestsSafe := by
  unfold FetchUnit.askSweep
  split
  · split
    · refine h.shrinks ⟨rfl, ?_⟩
      have hsame (q : Request) : (if q.sweepsWindow w then Request.sweep w true else q).partition = q.partition := by
        split
        · next hq =>
          rw [Request.sweepsWindow_eq] at hq
          exact (beq_iff_eq.1 hq).symm
        · rfl
      unfold FetchUnit.partitions
      rw [List.map_map]
      exact (List.map_congr_left fun q _ => hsame q).symm ▸ List.Subperm.refl _
    · exact h
  · next hnone =>
    refine h.placed (q := .sweep w false) (List.map_append ..) nofun nofun fun v hv => ?_
    cases hv
    refine ⟨?_, hw⟩
    rw [f.count_partitions, List.length_eq_zero_iff, List.filter_eq_nil_iff]
    simpa only [Request.sweepsWindow_eq, List.any_eq_true, not_exists, not_and] using hnone

theorem requestText {f : FetchUnit} (h : f.RequestsSafe) (t : Tag) : (f.requestText t).RequestsSafe := by
  unfold FetchUnit.requestText
  split
  · exact h
  · split
    · next hroom =>
      refine h.placed (q := .text t) (List.map_append ..) (fun _ => ?_) nofun nofun
      rw [f.count_partitions]
      simpa only [← Request.isText_eq] using hroom
    · exact h

/-- A load that passes its checks finds a GLYPH place, or abandons a load of its bank (R115, R116). -/
theorem checkLoad_room {f : FetchUnit} {r : Rec4} {a : Fin 8} (h : f.checkLoad r = .ok a) (hcount : r.cmdCount ≠ 0) :
    (f.requests.filter Request.isGlyph).length < Config.glyphPlaces ∨
      ∃ q ∈ f.requests, ((f.touched a r.cmdCount).any fun b => q.loads b) = true := by
  unfold FetchUnit.checkLoad at h
  split at h
  · cases h
  · simp only [if_neg hcount] at h
    split at h
    · cases h
    · split at h
      · cases h
      · split at h
        · cases h
        · split at h
          · cases h
          · split at h
            · next hroom =>
              cases h
              refine hroom.imp_right fun hbank => ?_
              obtain ⟨b, hb, hload⟩ := List.any_eq_true.1 hbank
              obtain ⟨q, hq, hqb⟩ := List.any_eq_true.1 hload
              exact ⟨q, hq, List.any_eq_true.2 ⟨b, hb, hqb⟩⟩
            · cases h

theorem startLoad {f : FetchUnit} (h : f.RequestsSafe) {r : Rec4} {a : Fin 8} (hcheck : f.checkLoad r = .ok a) :
    (f.startLoad a r.cmdSource r.cmdPitch r.cmdCount).RequestsSafe := by
  by_cases hcount : r.cmdCount = 0
  · rw [hcount, FetchUnit.startLoad_none]
    exact h.shrinks (.cleared f _)
  have hshrinks := FetchUnit.Shrinks.cleared f (f.touched a r.cmdCount)
  refine (h.shrinks hshrinks).placed (q := .glyph a r.cmdSource r.cmdPitch r.cmdCount 0) ?_ nofun (fun _ => ?_) nofun
  · unfold FetchUnit.partitions
    rw [f.startLoad_requests a _ _ hcount]
    exact List.map_append ..
  · have hglyph := h.glyph
    rw [FetchUnit.count_partitions, FetchUnit.cleared_requests]
    simp only [← Request.isGlyph_eq]
    rw [List.filter_comm]
    rcases checkLoad_room hcheck hcount with hroom | ⟨q, hq, hbank⟩
    · exact (List.length_filter_le _ _).trans_lt hroom
    · refine lt_of_lt_of_le (List.length_filter_lt_length_iff_exists.2 ⟨q, List.mem_filter.2 ⟨hq, ?_⟩, by simp [hbank]⟩) hglyph
      obtain ⟨b, -, hb⟩ := List.any_eq_true.1 hbank
      cases q with
      | glyph => rfl
      | text => cases hb
      | sweep => cases hb

theorem acts {c : Instr} {f g : FetchUnit} (ha : FetchUnit.Acts c f g) (h : f.RequestsSafe) : g.RequestsSafe := by
  cases ha with
  | shrink _ hfg => exact h.shrinks hfg
  | reset => exact .reset
  | setLang => exact ⟨h.text, h.glyph, h.sweep, h.assign⟩
  | askSweep _ _ _ hw => exact h.askSweep hw
  | startLoad _ _ _ hcheck => exact h.startLoad hcheck
  | requestText => exact h.requestText _

end FetchUnit.RequestsSafe

theorem State.refCycle_fetch (s : State) : s.refCycle.fetch = s.fetch := by
  unfold State.refCycle
  split
  · rfl
  · split
    · rfl
    · simp

/-- Settles O8: every action of a command on the engines keeps the capacities of their tables, and every action on the Fetch
Unit the partitions of the request list. -/
theorem tablesStayWithinCapacity : Obligations.TablesStayWithinCapacity :=
  ⟨fun _ _ h ht => step_keeps_eng Engines.WithinCapacity Engines.WithinCapacity.acts h ht, fun _ _ h ht =>
    step_keeps (fun s => s.fetch.RequestsSafe) (fun _ _ h => h) (fun s h => by rw [s.refCycle_fetch]; exact h)
      (fun s c h => (s.act_fetch c).keeps FetchUnit.RequestsSafe (fun _ _ => FetchUnit.RequestsSafe.acts) h) h ht⟩

end Sys2Proof.Machine

/-! SUPPORT. The Record Assembler at work: the item it drains, the completion it takes, and the commits that change nothing
(R164, R165, R167, R170). -/

namespace Sys2Proof.Machine

/-! ## INTAKE_DRAIN and SWEEP_COMPLETION -/

section Drain
variable {s : State} (hup : s.resetLow = false)
include hup

theorem exec_intakeDrain_eq {i : Item} {rest : List Item} (hidle : s.asm.handed = none)
    (hitems : s.asm.intake = i :: rest) : exec .intakeDrain s = .next { s with asm :=
      ({ s.asm with intake := rest, sweepEnds := s.asm.sweepEnds.map SweepEnd.drained }).takeItem s.path i } := by
  refine (whenUp_next _ hup).trans ?_
  unfold State.intakeDrain
  rw [hidle, hitems]

theorem exec_intakeDrain_handed (hbusy : s.asm.handed ≠ none) : exec .intakeDrain s = .next s := by
  refine (whenUp_next _ hup).trans ?_
  unfold State.intakeDrain
  split
  · contradiction
  · rfl
  · rfl

theorem exec_sweepCompletion_eq {x : SweepEnd} {rest : List SweepEnd} (hidle : s.asm.handed = none)
    (hends : s.asm.sweepEnds = x :: rest) : exec .sweepCompletion s =
      .next (if x.ahead = 0 then ({ s with asm := { s.asm with sweepEnds := rest } }).endSweep x else s) := by
  refine (whenUp_next _ hup).trans ?_
  unfold State.sweepCompletion
  rw [hidle, hends]

end Drain

section TakeItem
variable (a : Assembler) (p : MemPath) (i : Item)

/-- An item is stale exactly when the base or the count of its decoding is no longer the accepted one. -/
theorem staleItem_iff (w : Fin 5) (base count : Word) :
    staleItem p w base count = true ↔ (p.window w).w0 ≠ base ∨ (p.window w).w3 ≠ count := by
  simp [staleItem]

theorem takeItem_stale {w : Fin 5} {slot word : Nat} {base count : Word}
    (htarget : i.target = .window w slot word base count) (hstale : staleItem p w base count = true) :
    a.takeItem p i = a := by
  unfold Assembler.takeItem
  rw [htarget]
  exact if_pos hstale

theorem takeItem_window {w : Fin 5} {slot word : Nat} {base count : Word}
    (htarget : i.target = .window w slot word base count) (hlive : staleItem p w base count = false) :
    a.takeItem p i = { a with
      winStage := a.winStage.set w (mergeAt (a.stage w) (4 * slot + word) i)
      handed := if word = 3 then some (.window w slot) else none } := by
  unfold Assembler.takeItem
  rw [htarget]
  exact if_neg (by simp [hlive])

theorem takeItem_control {off start words : Nat} {place : RecordPlace} (htarget : i.target = .control off)
    (hrecord : cbRecord off = some (place, start, words)) :
    a.takeItem p i = { a with
      cbStage := mergeAt a.cbStage off i
      handed := if off = start + 4 * (words - 1) then some place else none } := by
  unfold Assembler.takeItem
  rw [htarget]
  dsimp only
  rw [hrecord]

end TakeItem

/-- Settles O20: a drained item is discarded, merged into a window record or merged into a control record by
`takeItem_stale`, `takeItem_window` and `takeItem_control`; the merge of a byte is `byteOf_mergeLanes`. -/
theorem intakeDrainMergesOneItem : Obligations.IntakeDrainMergesOneItem := by
  refine ⟨fun s i rest hup hidle hitems => ⟨fun w slot word base count htarget => ⟨fun hstale => ?_, fun hbase hcount => ?_⟩,
    fun off place start words htarget hrecord => ?_⟩, fun s hup hbusy => exec_intakeDrain_handed hup hbusy,
    byteOf_mergeLanes⟩
  · rw [exec_intakeDrain_eq hup hidle hitems, takeItem_stale _ _ _ htarget ((staleItem_iff _ _ _ _).2 hstale)]
    rfl
  · have hlive : staleItem s.path w base count = false := by simp [staleItem, hbase, hcount]
    rw [exec_intakeDrain_eq hup hidle hitems, takeItem_window _ _ _ htarget hlive]
    rfl
  · rw [exec_intakeDrain_eq hup hidle hitems, takeItem_control _ _ _ htarget hrecord]
    rfl

/-- Settles O21: with the completion taken the window is left alone or made CURRENT, as `State.endSweep` says. -/
theorem sweepCompletionMakesTheWindowCurrent : Obligations.SweepCompletionMakesTheWindowCurrent := by
  intro s x rest hup hidle hends
  rw [exec_sweepCompletion_eq hup hidle hends]
  refine ⟨fun hnow hquiet => ?_, fun hnow hasked => ?_, fun hlater => by rw [if_neg hlater]⟩
  · rw [if_pos hnow, State.endSweep, if_neg (by simp [hquiet])]
    rfl
  · rw [if_pos hnow, State.endSweep, if_pos hasked]

/-! ## Commits that change nothing -/

theorem State.handedSlot_none {s : State} {w : Fin 5} (h : ∀ slot, s.asm.handed ≠ some (.window w slot)) :
    s.handedSlot w = none := by
  unfold State.handedSlot
  split
  · next k slot hk =>
    exact if_neg fun (e : k = w) => h slot (e ▸ hk)
  · rfl

/-- The kinds of windows, one by one. -/
theorem window_cases {motive : Fin 5 → Prop} (car : motive carWindow) (assign : motive assignWindow)
    (roster : motive rosterWindow) (label : motive labelWindow) (playout : motive playoutWindow) (w : Fin 5) : motive w := by
  fin_cases w
  · exact car
  · exact assign
  · exact roster
  · exact label
  · exact playout

/-- A step whose function leaves the state as it is, whatever the level of RESET_N. -/
theorem whenUp_same {s : State} {f : State → State} (h : f s = s) : whenUp s f = .next s := by
  unfold whenUp
  rw [h, ite_self]

/-- A commit of a window record finds no record of its window held out. -/
theorem exec_windowCommit_idle {s : State} {w : Fin 5} (slot : Nat) (h : s.handedSlot w = none) :
    exec (commitCommand (.window w slot)) s = .next s := by
  revert h
  refine window_cases (motive := fun w => s.handedSlot w = none → exec (commitCommand (.window w slot)) s = .next s)
    ?_ ?_ ?_ ?_ ?_ w
  · exact fun h => whenUp_same (by unfold State.carCommit; rw [h]; rfl)
  · exact fun h => whenUp_same (by unfold State.assignCommit; rw [h])
  · exact fun h => whenUp_same (by unfold State.rosterCommit; rw [h])
  · exact fun h => whenUp_same (by unfold State.labelCommit; rw [h])
  · exact fun h => whenUp_same (by unfold State.playoutCommit; rw [h]; rfl)

/-- A commit acts on a record of its own alone: with another held out, or none, the state stands. -/
theorem exec_commit_idle {s : State} {p : RecordPlace} (hp : p ≠ .command)
    (hidle : ∀ q, s.asm.handed = some q → commitCommand p ≠ commitCommand q) : exec (commitCommand p) s = .next s := by
  cases p with
  | window w slot =>
    refine exec_windowCommit_idle slot (State.handedSlot_none fun k hk => hidle _ hk ?_)
    rfl
  | command => contradiction
  | relocation =>
    refine whenUp_same ?_
    unfold State.relocationCommit
    split
    · next hk => exact (hidle _ hk rfl).elim
    · rfl
  | settings =>
    refine whenUp_same ?_
    unfold State.settingsCommit
    split
    · next hk => exact (hidle _ hk rfl).elim
    · rfl
  | descriptor w =>
    refine whenUp_same ?_
    unfold State.descriptorCommit
    split
    · next hk => exact (hidle _ hk rfl).elim
    · rfl
  | group g =>
    refine whenUp_same ?_
    unfold State.groupCommit
    split
    · next hk => exact (hidle _ hk rfl).elim
    · rfl
  | linkSetup n =>
    refine whenUp_same ?_
    unfold State.linkSetupCommit
    split
    · next hk => exact (hidle _ hk rfl).elim
    · rfl
  | overrideSlot k =>
    refine whenUp_same ?_
    unfold State.overrideSlotCommit
    split
    · next hk => exact (hidle _ hk rfl).elim
    · rfl
  | language l =>
    refine whenUp_same ?_
    unfold State.languageCommit
    split
    · next hk => exact (hidle _ hk rfl).elim
    · rfl
  | ringSetup =>
    refine whenUp_same ?_
    unfold State.ringSetupCommit
    split
    · next hk => exact (hidle _ hk rfl).elim
    · rfl

/-! ## A commit that is equal or refused -/

theorem toFin_eq_some {n k : Nat} {c : Fin n} (h : toFin n k = some c) : k = c.val := by
  unfold toFin at h
  split at h
  · exact congrArg Fin.val (Option.some.inj h)
  · cases h

/-- What a commit makes of the record held out, given the accepted record and the check. -/
inductive State.Judges (s : State) (place : RecordPlace) : State → Prop
  | equal : s.sameAsAccepted place = true → State.Judges s place s.handedOver
  | refused (why : Reason) : s.sameAsAccepted place = false → s.checkRecord place = some why →
      State.Judges s place (s.handedOver.refuseRecord place why)
  | passed (t : State) : s.sameAsAccepted place = false → s.checkRecord place = none → State.Judges s place t

theorem State.judges_of {α : Type} [DecidableEq α] {s : State} {place : RecordPlace} {staged : α} {ac : Option α}
    {check : Option Reason} {f : State → State} (hsame : s.sameAsAccepted place = (ac == some staged))
    (hcheck : s.checkRecord place = check) : s.Judges place (s.judge place staged ac check f) := by
  cases hac : ac == some staged with
  | true =>
    rw [State.judge_equal _ _ _ _ _ _ hac]
    exact .equal (hsame.trans hac)
  | false =>
    cases check with
    | some why =>
      rw [State.judge_refused _ _ _ _ _ _ hac]
      exact .refused why (hsame.trans hac) hcheck
    | none => exact .passed _ (hsame.trans hac) hcheck

theorem some_beq_flip {α : Type} [DecidableEq α] (a b : α) : (a == b) = (some b == some a) := by
  rw [Bool.eq_iff_iff]
  simp only [beq_iff_eq, Option.some.injEq]
  exact eq_comm

section Judged
variable {s : State} (hup : s.resetLow = false)
include hup

/-- A command that is its step's function, judged. -/
theorem judged_step {c : Instr} {f : State → State} {p : RecordPlace} (hc : exec c s = whenUp s f) (h : s.Judges p (f s)) :
    ∃ t, exec c s = .next t ∧ s.Judges p t := ⟨f s, hc.trans (whenUp_next _ hup), h⟩

theorem judged_car {slot : Nat} (hh : s.asm.handed = some (.window carWindow slot)) :
    ∃ t, exec .carCommit s = .next t ∧ s.Judges (.window carWindow slot) t := by
  refine judged_step hup (f := State.carCommit) rfl ?_
  unfold State.carCommit
  rw [State.handedSlot_eq hh, Option.bind_some]
  cases hslot : toFin 48 slot with
  | none =>
    refine .passed s ?_ ?_
    · simp [State.sameAsAccepted, State.sameSlot, hslot]
    · have : ¬ slot < 48 := fun hlt => by simp [toFin, hlt] at hslot
      simp [State.checkRecord, State.checkSlotRecord, this]
  | some c =>
    obtain rfl := toFin_eq_some hslot
    show s.Judges _ (s.commitCar c)
    unfold State.commitCar
    refine State.judges_of ?_ ?_
    · simp [State.sameAsAccepted, State.sameSlot, toFin_val]
    · simp [State.checkRecord, State.checkSlotRecord]

theorem judged_assign {slot : Nat} (hh : s.asm.handed = some (.window assignWindow slot)) :
    ∃ t, exec .assignCommit s = .next t ∧ s.Judges (.window assignWindow slot) t := by
  refine judged_step hup (f := State.assignCommit) rfl ?_
  unfold State.assignCommit
  rw [State.handedSlot_eq hh]
  unfold State.commitAssign
  dsimp only
  cases hc : checkAssign (s.stagedSlot assignWindow slot) with
  | some why => exact .refused why rfl hc
  | none => exact .passed _ rfl hc

theorem judged_roster {slot : Nat} (hh : s.asm.handed = some (.window rosterWindow slot)) :
    ∃ t, exec .rosterCommit s = .next t ∧ s.Judges (.window rosterWindow slot) t := by
  refine judged_step hup (f := State.rosterCommit) rfl ?_
  unfold State.rosterCommit
  rw [State.handedSlot_eq hh]
  show s.Judges _ (s.commitRoster slot)
  unfold State.commitRoster
  exact State.judges_of rfl rfl

theorem judged_label {slot : Nat} (hh : s.asm.handed = some (.window labelWindow slot)) :
    ∃ t, exec .labelCommit s = .next t ∧ s.Judges (.window labelWindow slot) t := by
  refine judged_step hup (f := State.labelCommit) rfl ?_
  unfold State.labelCommit
  rw [State.handedSlot_eq hh]
  show s.Judges _ (s.commitLabel slot)
  unfold State.commitLabel
  exact State.judges_of rfl rfl

theorem judged_playout {slot : Nat} (hh : s.asm.handed = some (.window playoutWindow slot)) :
    ∃ t, exec .playoutCommit s = .next t ∧ s.Judges (.window playoutWindow slot) t := by
  refine judged_step hup (f := State.playoutCommit) rfl ?_
  unfold State.playoutCommit
  rw [State.handedSlot_eq hh, Option.bind_some]
  have hsame : s.sameAsAccepted (.window playoutWindow slot) = match toFin 16 slot with
      | some c => (s.eng.ctx c).accepted == some (s.stagedSlot playoutWindow slot)
      | none => false := rfl
  have hcheck : s.checkRecord (.window playoutWindow slot) =
      if slot < 16 then checkPlayout (s.stagedSlot playoutWindow slot) else none := rfl
  cases hslot : toFin 16 slot with
  | none =>
    refine .passed s ?_ ?_
    · rw [hsame, hslot]
    · have : ¬ slot < 16 := fun hlt => by simp [toFin, hlt] at hslot
      rw [hcheck, if_neg this]
  | some c =>
    obtain rfl := toFin_eq_some hslot
    show s.Judges _ (s.commitPlayout c)
    unfold State.commitPlayout
    refine State.judges_of ?_ ?_
    · rw [hsame, hslot]
    · rw [hcheck, if_pos c.isLt]

/-- The commit of the record held out answers what its judgement makes of it. -/
theorem exec_commit_judged {p : RecordPlace} (hp : p ≠ .command) (hh : s.asm.handed = some p) :
    ∃ t, exec (commitCommand p) s = .next t ∧ s.Judges p t := by
  cases p with
  | command => contradiction
  | window w slot =>
    revert hh
    refine window_cases (motive := fun w => s.asm.handed = some (.window w slot) →
      ∃ t, exec (commitCommand (.window w slot)) s = .next t ∧ s.Judges (.window w slot) t) ?_ ?_ ?_ ?_ ?_ w
    · exact judged_car hup
    · exact judged_assign hup
    · exact judged_roster hup
    · exact judged_label hup
    · exact judged_playout hup
  | relocation =>
    refine judged_step hup (f := State.relocationCommit) rfl ?_
    unfold State.relocationCommit
    rw [hh]
    exact State.judges_of (some_beq_flip _ _) rfl
  | settings =>
    refine judged_step hup (f := State.settingsCommit) rfl ?_
    unfold State.settingsCommit
    rw [hh]
    exact State.judges_of (some_beq_flip _ _) rfl
  | descriptor w =>
    refine judged_step hup (f := State.descriptorCommit) rfl ?_
    unfold State.descriptorCommit
    rw [hh]
    exact State.judges_of (some_beq_flip _ _) rfl
  | group g =>
    refine judged_step hup (f := State.groupCommit) rfl ?_
    unfold State.groupCommit
    rw [hh]
    exact State.judges_of (some_beq_flip _ _) rfl
  | linkSetup n =>
    refine judged_step hup (f := State.linkSetupCommit) rfl ?_
    unfold State.linkSetupCommit
    rw [hh]
    exact State.judges_of (some_beq_flip _ _) rfl
  | overrideSlot k =>
    refine judged_step hup (f := State.overrideSlotCommit) rfl ?_
    unfold State.overrideSlotCommit
    rw [hh]
    exact State.judges_of (some_beq_flip _ _) rfl
  | language l =>
    refine judged_step hup (f := State.languageCommit) rfl ?_
    unfold State.languageCommit
    rw [hh]
    exact State.judges_of (some_beq_flip _ _) rfl
  | ringSetup =>
    refine judged_step hup (f := State.ringSetupCommit) rfl ?_
    unfold State.ringSetupCommit
    rw [hh]
    exact State.judges_of (some_beq_flip _ _) rfl

theorem exec_commit_equal {p : RecordPlace} (hh : s.asm.handed = some p) (hsame : s.sameAsAccepted p = true) :
    exec (commitCommand p) s = .next s.handedOver := by
  have hp : p ≠ .command := by
    rintro rfl
    cases hsame
  obtain ⟨t, ht, hjudged⟩ := exec_commit_judged hup hp hh
  cases hjudged with
  | equal _ => exact ht
  | refused why hdiffers _ => simp [hsame] at hdiffers
  | passed _ hdiffers _ => simp [hsame] at hdiffers

theorem exec_commit_refused {p : RecordPlace} {why : Reason} (hh : s.asm.handed = some p)
    (hdiffers : s.sameAsAccepted p = false) (hcheck : s.checkRecord p = some why) :
    exec (commitCommand p) s = .next (s.handedOver.refuseRecord p why) := by
  have hp : p ≠ .command := by
    rintro rfl
    cases hcheck
  obtain ⟨t, ht, hjudged⟩ := exec_commit_judged hup hp hh
  cases hjudged with
  | equal hsame => simp [hdiffers] at hsame
  | refused why' _ hwhy =>
    obtain rfl : why' = why := Option.some.inj (hwhy.symm.trans hcheck)
    exact ht
  | passed _ _ hpass => simp [hcheck] at hpass

end Judged

/-- Settles O22: an equal record is let go by `exec_commit_equal`, another command's record is left by `exec_commit_idle`. -/
theorem equalCommitsDoNothing : Obligations.EqualCommitsDoNothing := by
  refine ⟨fun s p hup hh hsame => exec_commit_equal hup hh hsame, fun s p q hh hother hp => ?_⟩
  refine exec_commit_idle hp fun k hk => ?_
  obtain rfl : q = k := Option.some.inj (hh.symm.trans hk)
  exact hother

/-! ## SWEEP -/

section SweepCommand
variable {s : State}

/-- A refused SWEEP reports and lets the record go. -/
theorem sweep_refused {r : Rec4} {why : Reason} (h : s.checkSweep r = .error why) :
    s.handedOver.sweep r = { s with
      asm := { s.asm with handed := none }, eng := s.eng.report s.ambient (.commandRefused 2 why) } := by
  unfold State.sweep
  rw [show s.handedOver.checkSweep r = .error why from h]
  rfl

theorem sweep_accepted {r : Rec4} {w : Fin 5} (h : s.checkSweep r = .ok w) :
    s.handedOver.sweep r = (s.handedOver.staleCause w).report (.commandDone 2) := by
  unfold State.sweep
  rw [show s.handedOver.checkSweep r = .ok w from h]

theorem checkSweep_badValue {r : Rec4} (h : 4 < r.cmdWindow) : s.checkSweep r = .error .badValue := by
  unfold State.checkSweep
  rw [toFin, dif_neg (by omega)]

/-- The check of a command that names a window. -/
theorem checkSweep_window {r : Rec4} {w : Fin 5} (h : w.val = r.cmdWindow) : s.checkSweep r =
    if w = assignWindow then .error .badWindow
    else if s.asm.winStateOf w = .disabled then .error .disabled else .ok w := by
  unfold State.checkSweep
  rw [← h, toFin_val]

end SweepCommand

/-- Settles O39: the refusals by `checkSweep_badValue` and `checkSweep_window`, the cause of staleness by `State.staleCause`,
the request by `FetchUnit.askSweep_eq`. -/
theorem sweepCommandMakesTheWindowStale : Obligations.SweepCommandMakesTheWindowStale := by
  intro s hup hcmd hop
  have hexec : exec .sweep s = .next (s.handedOver.sweep (s.staged4 0x10)) := by
    rw [exec_sweep_eq hup hcmd, if_pos hop]
  refine ⟨fun hn => ?_, fun hn => ?_, fun w hw hstate hdisabled => ?_, fun w hw hstate hlive => ?_⟩
  · rw [hexec, sweep_refused (checkSweep_badValue hn)]
  · rw [hexec, sweep_refused]
    rw [checkSweep_window (w := assignWindow) hn.symm, if_pos rfl]
  · rw [hexec, sweep_refused]
    rw [checkSweep_window hw, if_neg hstate, if_pos hdisabled]
  · have hok : s.checkSweep (s.staged4 0x10) = .ok w := by
      rw [checkSweep_window hw, if_neg hstate, if_neg hlive]
    obtain ⟨asked, hasked⟩ := s.fetch.askSweep_frame w
    have hrequests : asked = (s.fetch.askSweep w).requests := by rw [hasked]
    refine ⟨asked, ?_, fun hnone => ?_, fun hsome hidle => ?_, fun hsome hactive => ?_⟩
    · rw [hexec, sweep_accepted hok]
      unfold State.staleCause
      rw [show s.handedOver.fetch.askSweep w = _ from hasked]
      rfl
    · rw [hrequests, FetchUnit.askSweep_eq, if_neg (by simp [FetchUnit.sweepAsked, hnone])]
    · rw [hrequests, FetchUnit.askSweep_eq, if_pos (show s.fetch.sweepAsked w = true from hsome), if_neg (by simp [hidle])]
    · rw [hrequests, FetchUnit.askSweep_eq, if_pos (show s.fetch.sweepAsked w = true from hsome), if_pos hactive]

end Sys2Proof.Machine

/-! SUPPORT. The Report Writer: what joins and leaves the pending queue, the writes of the reports and the words of the status
mirror (R172 to R176, R180); and the end of a link's slot (R130). -/

namespace Sys2Proof.Machine

/-! ## The slot of a link -/

/-- Two changes of a link that agree on it as it stands are one change. -/
theorem Engines.onLink_congr (e : Engines) {n : Fin 8} {f g : Link → Link} (h : f (e.linkOf n) = g (e.linkOf n)) :
    e.onLink n f = e.onLink n g := by
  unfold Engines.onLink upd
  rw [show f e.link.links[n] = g e.link.links[n] from h]

/-- Settles O53: the slot advances exactly when the link runs and its slot is over; a RUNNING link is in an IN slot exactly
where its setup has one. -/
theorem slotAdvancesThroughTheCycle : Obligations.SlotAdvancesThroughTheCycle := by
  intro s n hup
  have hexec : exec (.slotPositionAdvance n) s = .next (s.slotAdvance n) := whenUp_next _ hup
  refine ⟨fun hrun hover => ?_, fun hstays => ?_⟩
  · have hin : (s.eng.linkOf n).inIn = (s.eng.linkOf n).setup.lnkIn (s.eng.linkOf n).slot := by simp [Link.inIn, hrun]
    rw [hexec, State.slotAdvance, if_pos (by simp [hrun, hover])]
    refine congrArg (fun e => Host.Outcome.next { s with eng := e }) (s.eng.onLink_congr ?_)
    unfold Link.advanced
    rw [hin]
  · have : ((s.eng.linkOf n).running && s.eng.slotOver n) = false := by
      rcases hstays with hstop | hopen
      · simp [hstop]
      · simp [hopen]
    rw [hexec, State.slotAdvance, if_neg (by simp [this])]

/-! ## The pending queue and the outputs -/

/-- Settles O57: the queue by the two branches of `Outbox.report` and of `Outbox.pop`, the outputs by their definitions. -/
theorem reportsQueueOrFold : Obligations.ReportsQueueOrFold := by
  refine ⟨fun o now ev => ⟨fun hroom hclear => ?_, fun hfull => ?_, fun hclear => ?_, fun htally => ?_⟩,
    fun s => ⟨?_, fun n => ?_⟩⟩
  · rw [Outbox.report, if_pos ⟨hroom, hclear⟩, hclear]
  · rw [Outbox.report, if_neg]
    rintro ⟨hroom, hclear⟩
    rcases hfull with hlong | htally
    · exact absurd hroom (Nat.not_lt.2 hlong)
    · exact htally hclear
  · rw [Outbox.pop, if_pos hclear, hclear]
  · rw [Outbox.pop, if_neg htally]
  · simp [State.attention]
  · simp [State.driverEnabled, Rec4.lnkOut, and_assoc]

/-! ## Writes of the Report Writer -/

/-- The words of a run read back byte by byte. -/
theorem read_writeWords_inside (m : List Host.Cell) (h : Memory.wf m = true) (a : Nat) (ws : List Word) (n k : Nat)
    (w : Word) (hw : ws[n]? = some w) (hk : k < 4) :
    Memory.read (Memory.writeWords m a ws) (a + 4 * n + k) = byteOf w k := by
  have hbeat : (ws.map fullBeat)[n]? = some (fullBeat w) := by rw [List.getElem?_map, hw]; rfl
  have hlane : (fullBeat w).lanes.getLsbD k = true := by
    show (15#4).getLsbD k = true
    interval_cases k <;> decide
  rw [Memory.writeWords, Memory.read_writeBeats_inside m h a _ n _ k hbeat hk, if_pos hlane]
  rfl

section ReportWriter
variable {s : State} (hup : s.resetLow = false)
include hup

theorem exec_reportWriteComplete_eq {a : Nat} {words : List Word} {void : Bool}
    (hport : s.path.port = some (.reportWrite a words void)) : exec .reportWriteComplete s =
      .next (if void then s.partWrite a words else (s.partWrite a words).countReport a).freePort := by
  refine (whenUp_next _ hup).trans ?_
  unfold State.reportComplete
  rw [hport]

theorem exec_mirrorComplete_eq {a : Nat} {words : List Word} (hport : s.path.port = some (.mirrorWrite a words)) :
    exec .statusMirrorWriteComplete s = .next (s.partWrite a words).freePort := by
  refine (whenUp_next _ hup).trans ?_
  unfold State.mirrorComplete
  rw [hport]

end ReportWriter

/-- Settles O58: the issue by the conditions of `State.reportIssue`, the completion by `exec_reportWriteComplete_eq`, the
bytes by the laws of `Memory.writeWords`. -/
theorem reportIsWrittenOnce : Obligations.ReportIsWrittenOnce := by
  intro s hup
  have hexec : exec .reportWriteIssue s = .next s.reportIssue := whenUp_next _ hup
  refine ⟨fun r rest a hqueue hpos hidle hroom => ?_, fun hno => ?_, fun a words void hport hmem => ?_⟩
  · rw [hexec, State.reportIssue, hqueue, hpos]
    dsimp only
    rw [if_pos (by simp [hidle, hroom])]
    rfl
  · rw [hexec, State.reportIssue]
    split
    · next r rest a hqueue hpos =>
      refine congrArg _ (if_neg ?_)
      simpa [hqueue, hpos, Nat.not_lt, or_iff_not_imp_left] using hno
    · rfl
    · rfl
  · refine ⟨Memory.writeWords s.mem a words, fun n k w hw hk => read_writeWords_inside _ hmem _ _ _ _ _ hw hk,
      fun x hx => Memory.read_writeWords_outside _ hmem _ _ _ hx, fun hvoid => ?_, fun hcounts => ?_⟩
    · rw [exec_reportWriteComplete_eq hup hport, if_pos hvoid]
      rfl
    · rw [exec_reportWriteComplete_eq hup hport, if_neg (by simp [hcounts])]
      rfl

/-! ## The words of the mirror -/

/-- A number written in digits of one base, the lowest first, gives each digit back and stays below the next power. -/
theorem digits_of_sum {base : Nat} (hb : 0 < base) : ∀ {n : Nat} (f : Fin n → Nat), (∀ i, f i < base) →
    ((List.finRange n).map fun a => f a * base ^ a.val).sum < base ^ n ∧
      ∀ i : Fin n, ((List.finRange n).map fun a => f a * base ^ a.val).sum / base ^ i.val % base = f i := by
  intro n
  induction n with
  | zero => exact fun f _ => ⟨by simp, fun i => i.elim0⟩
  | succ n ih =>
    intro f hf
    obtain ⟨hlt, hdigit⟩ := ih (fun i => f i.succ) fun i => hf i.succ
    have hsum : ((List.finRange (n + 1)).map fun a => f a * base ^ a.val).sum =
        f 0 + base * ((List.finRange n).map fun a => f a.succ * base ^ a.val).sum := by
      rw [List.finRange_succ, List.map_cons, List.sum_cons, List.map_map, ← List.sum_map_mul_left]
      simp only [Fin.val_zero, pow_zero, mul_one, Function.comp_def, Fin.val_succ, pow_succ]
      congr 3
      funext a
      ring
    rw [hsum]
    refine ⟨?_, fun i => ?_⟩
    · have h0 := hf 0
      calc f 0 + base * _ < base * (((List.finRange n).map fun a => f a.succ * base ^ a.val).sum + 1) := by
              rw [Nat.mul_succ]; omega
        _ ≤ base * base ^ n := Nat.mul_le_mul_left _ hlt
        _ = base ^ (n + 1) := (pow_succ' base n).symm
    · cases i using Fin.cases with
      | zero => simp [Nat.add_mul_mod_self_left, Nat.mod_eq_of_lt (hf 0)]
      | succ j =>
        rw [Fin.val_succ, pow_succ', ← Nat.div_div_eq_div_mul, Nat.add_mul_div_left _ _ hb, Nat.div_eq_of_lt (hf 0),
          Nat.zero_add]
        exact hdigit j

theorem toNat_extract_wordN {x : Nat} (hx : x < 2 ^ 32) (lo len : Nat) :
    ((wordN x).extractLsb' lo len).toNat = x / 2 ^ lo % 2 ^ len := by
  rw [BitVec.extractLsb'_toNat, wordN, BitVec.toNat_ofNat, Nat.mod_eq_of_lt hx, Nat.shiftRight_eq_div_pow]

theorem WinState.code_lt (x : WinState) : x.code < 256 := by
  cases x <;> decide

theorem AreaState.code_lt (x : AreaState) : x.code < 4 := by
  cases x <;> decide

/-- The states of windows 0 to 3 are the bytes of word 1. -/
theorem mirror_windows (code : Fin 5 → Nat) (h : ∀ k, code k < 256) (k : Fin 4) :
    (byteOf (wordN (code 0 + code 1 * 2 ^ 8 + code 2 * 2 ^ 16 + code 3 * 2 ^ 24)) k.val).toNat =
      code (k.castLE (by decide)) := by
  have h0 := h 0
  have h1 := h 1
  have h2 := h 2
  have h3 := h 3
  rw [byteOf, toNat_extract_wordN (by omega)]
  fin_cases k
  · show _ = code 0
    simp only [Nat.reducePow, Nat.reduceMul]
    omega
  · show _ = code 1
    simp only [Nat.reducePow, Nat.reduceMul]
    omega
  · show _ = code 2
    simp only [Nat.reducePow, Nat.reduceMul]
    omega
  · show _ = code 3
    simp only [Nat.reducePow, Nat.reduceMul]
    omega

theorem areaBits_digits (f : FetchUnit) : areaBits f < 4 ^ 8 ∧
    ∀ a : Fin 8, areaBits f / 4 ^ a.val % 4 = (f.area a).state.code :=
  digits_of_sum (by decide) (fun a => (f.area a).state.code) fun a => (f.area a).state.code_lt

theorem runningBits_digits (c : LinkCtl) : runningBits c < 2 ^ 8 ∧
    ∀ n : Fin 8, runningBits c / 2 ^ n.val % 2 = (c.links[n]).running.toNat := by
  have h := digits_of_sum (base := 2) (by decide) (fun n : Fin 8 => (c.links[n]).running.toNat) fun n => Bool.toNat_lt _
  have hsum : runningBits c = ((List.finRange 8).map fun n => (c.links[n]).running.toNat * 2 ^ n.val).sum := by
    unfold runningBits
    congr 2
    funext n
    cases (c.links[n]).running <;> simp
  rw [hsum]
  exact h

/-- The bits of the RUNNING links stand above the state of window 4 and below the occupancy. -/
theorem mirror_running (code : Nat) (h : code < 256) (c : LinkCtl) (count : Nat) (n : Fin 8) :
    (wordN (code + runningBits c * 2 ^ 8 + count * 2 ^ 16)).getLsbD (8 + n.val) = (c.links[n]).running := by
  obtain ⟨hlt, hdigit⟩ := runningBits_digits c
  have hn := n.isLt
  have hbit : (code + runningBits c * 2 ^ 8 + count * 2 ^ 16) / 2 ^ (8 + n.val) % 2 = (c.links[n]).running.toNat := by
    have hsplit : (code + runningBits c * 2 ^ 8 + count * 2 ^ 16) / 2 ^ 8 = runningBits c + 2 ^ 8 * count := by omega
    have hpow : (2 : Nat) ^ 8 = 2 ^ n.val * (2 * 2 ^ (7 - n.val)) := by
      rw [← pow_succ', ← pow_add]
      congr 1
      omega
    rw [pow_add, ← Nat.div_div_eq_div_mul, hsplit, hpow, mul_assoc, Nat.add_mul_div_left _ _ (by positivity), mul_assoc,
      Nat.add_mul_mod_self_left]
    exact hdigit n
  rw [wordN, BitVec.getLsbD_ofNat, Nat.testBit_eq_decide_div_mod_eq, hbit, decide_eq_true (show 8 + n.val < 32 by omega)]
  cases (c.links[n]).running <;> rfl

/-- Settles O59: the writes by the conditions of `State.mirrorIssue` and the laws of `Memory.writeWords`, the words by the
lemmas on their digits above. -/
theorem statusMirrorFollowsTheItems : Obligations.StatusMirrorFollowsTheItems := by
  refine ⟨fun s hup => ?_, fun s => ⟨_, _, _, _, rfl, fun hcount htally => ⟨?_, ?_⟩, fun k => ?_, ?_, fun n => ?_,
    fun hlen => ?_, fun a => ?_⟩⟩
  · intro due time
    have hexec : exec .statusMirrorWrite s = .next s.mirrorIssue := whenUp_next _ hup
    have hdue : s.mirrorDue = true ↔ due := by simp [State.mirrorDue, due]
    have htime : s.mirrorTime = true ↔ time := by
      unfold State.mirrorTime
      cases hat : s.ring.mirrorAt with
      | none => simp [time, hat]
      | some x => simp [time, hat]
    refine ⟨fun hd ht => ?_, fun hno => ?_, fun a words hport hmem => ⟨Memory.writeWords s.mem a words, ?_, ?_, ?_⟩⟩
    · rw [hexec, State.mirrorIssue, if_pos (by simp [hdue.2 hd, htime.2 ht])]
      rfl
    · rw [hexec, State.mirrorIssue, if_neg]
      rw [Bool.and_eq_true, hdue, htime]
      exact fun h => hno.elim (fun hd => hd h.1) fun ht => ht h.2
    · exact exec_mirrorComplete_eq hup hport
    · exact fun n k w hw hk => read_writeWords_inside _ hmem _ _ _ _ _ hw hk
    · exact fun x hx => Memory.read_writeWords_outside _ hmem _ _ _ hx
  · rw [toNat_extract_wordN (by omega)]
    omega
  · rw [toNat_extract_wordN (by omega)]
    omega
  · refine (mirror_windows (fun k => (s.asm.winStateOf k).code) (fun k => WinState.code_lt _) k).trans ?_
    cases s.asm.winStateOf (k.castLE (by decide)) <;> rfl
  · have hcode := (s.asm.winStateOf playoutWindow).code_lt
    have hbyte : (byteOf (wordN ((s.asm.winStateOf playoutWindow).code + runningBits s.eng.link * 2 ^ 8 +
        s.occupancy * 2 ^ 16)) 0).toNat = (s.asm.winStateOf playoutWindow).code := by
      rw [byteOf, BitVec.extractLsb'_toNat, wordN, BitVec.toNat_ofNat]
      simp only [Nat.reducePow, Nat.reduceMul, Nat.shiftRight_zero]
      omega
    refine hbyte.trans ?_
    cases s.asm.winStateOf playoutWindow <;> rfl
  · exact mirror_running _ (WinState.code_lt _) _ _ _
  · have hrun := (runningBits_digits s.eng.link).1
    have hcode := (s.asm.winStateOf 4).code_lt
    have hocc : s.occupancy = s.eng.timers.list.length := rfl
    show ((wordN ((s.asm.winStateOf 4).code + runningBits s.eng.link * 2 ^ 8 + s.occupancy * 2 ^ 16)).extractLsb' 16 16).toNat = _
    rw [toNat_extract_wordN (by omega)]
    omega
  · obtain ⟨hlt, hdigit⟩ := areaBits_digits s.fetch
    have : (2 : Nat) ^ (2 * a.val) = 4 ^ a.val := by rw [pow_mul]; rfl
    rw [toNat_extract_wordN (by omega), this, show (2 : Nat) ^ 2 = 4 from rfl, hdigit]
    cases (s.fetch.area a).state <;> rfl

end Sys2Proof.Machine

/-! SUPPORT. What an IN slot brings: a good answer, a keyed entry, a miss (R34, R35, R37, R139 to R141). -/

namespace Sys2Proof.Machine

/-! ## Reading links and displays -/

theorem displays_onDisplay (e : Engines) (d c : Nat) (g : Display → Display) :
    (e.onDisplay d g).link.displays.get c = if c = d then (e.link.displays.get c).map g else e.link.displays.get c :=
  Tab.get_modify _ _ _ _

theorem linkOf_serve (e : Engines) (n m : Fin 8) :
    (e.serve n).linkOf m = if n = m then { e.linkOf m with served := true } else e.linkOf m :=
  e.linkOf_onLink n m fun l => { l with served := true }

/-- The joining position is worked out from the faces, the queue and the display in flight alone. -/
theorem joined_congr {e e' : Engines} {l l' : Link} (hface : e'.face = e.face) (hqueue : l'.queue = l.queue)
    (hflying : l'.inFlight = l.inFlight) (d : Nat) : joined e' l' d = joined e l d := by
  have hshows : e'.showsOverride = e.showsOverride := by
    funext c
    unfold Engines.showsOverride Engines.faceOf
    rw [hface]
  unfold joined
  rw [hshows, hqueue, hflying]

section Engines
variable {e t : Engines}

/-- The engines that change their links and reports alone. -/
theorem Engines.eq_link_out (hind : t.ind = e.ind) (hdest : t.dest = e.dest) (hface : t.face = e.face)
    (hplay : t.play = e.play) (htimers : t.timers = e.timers) : t = { e with link := t.link, out := t.out } := by
  obtain ⟨ind, dest, face, play, link, timers, out⟩ := t
  dsimp only at hind hdest hface hplay htimers
  subst hind hdest hface hplay htimers
  rfl

theorem Engines.eq_link_out_faces (hind : t.ind = e.ind) (hdest : t.dest = e.dest)
    (hslots : t.face.slots = e.face.slots) (hplay : t.play = e.play) (htimers : t.timers = e.timers) :
    t = { e with link := t.link, out := t.out, face := { e.face with faces := t.face.faces } } := by
  obtain ⟨ind, dest, ⟨faces, slots⟩, play, link, timers, out⟩ := t
  obtain ⟨ind', dest', ⟨faces', slots'⟩, play', link', timers', out'⟩ := e
  dsimp only at hind hdest hslots hplay htimers
  subst hind hdest hslots hplay htimers
  rfl

end Engines

namespace Engines.LinksSafe
variable {e : Engines} (h : e.LinksSafe) {d : Nat}
include h

theorem mem_of_inFlight {n : Fin 8} (hflying : (e.linkOf n).inFlight = some d) : d ∈ (e.linkOf n).queue := by
  obtain ⟨fr, hfr, rfl⟩ := inFlight_eq_some.1 hflying
  exact List.mem_of_mem_head? (h.flying n fr hfr)

theorem not_inFlight {n : Fin 8} (hout : d ∉ (e.linkOf n).queue) : (e.linkOf n).inFlight ≠ some d :=
  fun hflying => hout (h.mem_of_inFlight hflying)

end Engines.LinksSafe

/-! ## A REFRESH mark -/

section RefreshMark
variable {e : Engines} {d : Nat} {f : Face} (hf : e.faceOf d = some f) (hon : e.online d = true)
include hf hon

theorem refreshMark_joins (hflying : (e.linkOf f.link).inFlight ≠ some d) (hout : d ∉ (e.linkOf f.link).queue) :
    e.refreshMark d = e.join f.link d := by
  unfold Engines.refreshMark
  rw [hf]
  dsimp only
  rw [if_pos hon, if_neg hflying, if_neg (by simpa using hout)]

/-- An ONLINE display that is given a REFRESH mark is in its link's queue. -/
theorem mem_queue_refreshMark (h : e.LinksSafe) : d ∈ ((e.refreshMark d).linkOf f.link).queue := by
  by_cases hflying : (e.linkOf f.link).inFlight = some d
  · have hmark : e.refreshMark d =
        e.onLink f.link fun l => { l with frame := l.frame.map fun fr => { fr with refresh := true } } := by
      unfold Engines.refreshMark
      rw [hf]
      dsimp only
      rw [if_pos hon, if_pos hflying]
    rw [hmark, e.linkOf_onLink, if_pos rfl]
    exact h.mem_of_inFlight hflying
  · by_cases hin : d ∈ (e.linkOf f.link).queue
    · have hmark : e.refreshMark d = e := by
        unfold Engines.refreshMark
        rw [hf]
        dsimp only
        rw [if_pos hon, if_neg hflying, if_pos (by simpa using hin)]
      rw [hmark]
      exact hin
    · rw [refreshMark_joins hf hon hflying hin, Engines.join, e.linkOf_onLink, if_pos rfl]
      exact (mem_joined e _ d d).2 (Or.inl rfl)

end RefreshMark

/-! ## A good answer -/

section GoodAnswer
variable (A : Ambient) (e : Engines) (n : Fin 8) (drop d : Nat) (x : Display)

/-- The first two steps of a good answer: the display is ONLINE with no miss, and one that was OFFLINE reports. -/
def answered : Engines :=
  let e := e.onDisplay d fun x => { x with misses := 0, liveness := .online }
  if x.liveness = .offline then e.report A (.displayBack d n drop) else e

/-- With the mark of a display that was not ONLINE. -/
def answeredMarked : Engines :=
  if x.liveness = .online then answered A e n drop d x else (answered A e n drop d x).refreshMark d

theorem answered_face : (answered A e n drop d x).face = e.face := by
  unfold answered
  split <;> rfl

theorem answered_link : (answered A e n drop d x).link =
    (e.onDisplay d fun x => { x with misses := 0, liveness := .online }).link := by
  unfold answered
  split <;> rfl

theorem answered_out : (answered A e n drop d x).out =
    if x.liveness = .offline then e.out.report A.now (.displayBack d n drop) else e.out := by
  unfold answered
  split <;> rfl

theorem answeredMarked_displays : (answeredMarked A e n drop d x).link.displays =
    (e.onDisplay d fun x => { x with misses := 0, liveness := .online }).link.displays := by
  unfold answeredMarked
  split
  · rw [answered_link]
  · rw [(Engines.Keeps.refreshMark _ d).displays, answered_link]

theorem answeredMarked_out : (answeredMarked A e n drop d x).out = (answered A e n drop d x).out := by
  unfold answeredMarked
  split
  · rfl
  · rw [Engines.refreshMark_out]

theorem answeredMarked_link (m : Fin 8) : ((answeredMarked A e n drop d x).linkOf m).firm = (e.linkOf m).firm := by
  have hanswered : (answered A e n drop d x).linkOf m = e.linkOf m := by
    unfold Engines.linkOf
    rw [answered_link]
    rfl
  unfold answeredMarked
  split
  · rw [hanswered]
  · rw [(Engines.Keeps.refreshMark _ d).link m, hanswered]

variable {e d x} (hx : e.link.displays.get d = some x) (fault : Nat)
include hx

theorem goodAnswer_eq : e.goodAnswer A n drop d fault = if x.fault = fault then answeredMarked A e n drop d x
    else ((answeredMarked A e n drop d x).onDisplay d fun x => { x with fault := fault }).report A
      (.displayFault d x.fault fault) := by
  unfold Engines.goodAnswer
  rw [hx]
  rfl

theorem goodAnswer_link (m : Fin 8) :
    (e.goodAnswer A n drop d fault).linkOf m = (answeredMarked A e n drop d x).linkOf m := by
  rw [goodAnswer_eq A n drop hx]
  split <;> rfl

theorem goodAnswer_displays (c : Nat) : (e.goodAnswer A n drop d fault).link.displays.get c = if c = d then
    some { x with misses := 0, liveness := .online, fault := fault } else e.link.displays.get c := by
  have hmarked : (answeredMarked A e n drop d x).link.displays.get c = if c = d then
      some { x with misses := 0, liveness := .online } else e.link.displays.get c := by
    rw [answeredMarked_displays, displays_onDisplay]
    by_cases hc : c = d
    · subst hc
      rw [if_pos rfl, if_pos rfl, hx]
      rfl
    · rw [if_neg hc, if_neg hc]
  rw [goodAnswer_eq A n drop hx]
  split
  · next hsame => rw [hmarked, ← hsame]
  · rw [Engines.report_link, displays_onDisplay, hmarked]
    by_cases hc : c = d
    · rw [if_pos hc, if_pos hc, if_pos hc]
      rfl
    · rw [if_neg hc, if_neg hc, if_neg hc]

theorem goodAnswer_out : (e.goodAnswer A n drop d fault).out =
    (let back := if x.liveness = .offline then e.out.report A.now (.displayBack d n drop) else e.out
     if x.fault = fault then back else back.report A.now (.displayFault d x.fault fault)) := by
  rw [goodAnswer_eq A n drop hx, ← answered_out A e n drop d x, ← answeredMarked_out]
  split <;> rfl

theorem goodAnswer_roster : (e.goodAnswer A n drop d fault).link.roster = e.link.roster := by
  have hmarked : (answeredMarked A e n drop d x).link.roster = e.link.roster := by
    unfold answeredMarked
    split
    · rw [answered_link]
      rfl
    · rw [(Engines.Keeps.refreshMark _ d).roster, answered_link]
      rfl
  rw [goodAnswer_eq A n drop hx, ← hmarked]
  split <;> rfl

theorem goodAnswer_online : (e.goodAnswer A n drop d fault).online d = true := by
  unfold Engines.online
  rw [goodAnswer_displays A n drop hx, if_pos rfl]
  rfl

/-- Where the laws of the links hold, a good answer queues a display that was not ONLINE, and no other. -/
theorem goodAnswer_queue (h : e.LinksSafe) {f : Face} (hf : e.faceOf d = some f) :
    ((e.goodAnswer A n drop d fault).linkOf f.link).frame = (e.linkOf f.link).frame ∧
    ((e.goodAnswer A n drop d fault).linkOf f.link).queue =
      if x.liveness = .online then (e.linkOf f.link).queue else joined e (e.linkOf f.link) d := by
  rw [goodAnswer_link A n drop hx]
  have hlinks : (answered A e n drop d x).linkOf f.link = e.linkOf f.link := by
    unfold Engines.linkOf
    rw [answered_link]
    rfl
  unfold answeredMarked
  split
  · rw [hlinks]
    exact ⟨rfl, rfl⟩
  · next hoff =>
    have hout : d ∉ (e.linkOf f.link).queue := by
      refine h.not_mem ?_ f.link
      unfold Engines.online
      rw [hx]
      simpa using hoff
    have hf' : (answered A e n drop d x).faceOf d = some f := by
      unfold Engines.faceOf
      rw [answered_face]
      exact hf
    have hon : (answered A e n drop d x).online d = true := by
      unfold Engines.online
      rw [answered_link, displays_onDisplay, if_pos rfl, hx]
      rfl
    rw [refreshMark_joins hf' hon (by rw [hlinks]; exact h.not_inFlight hout) (by rw [hlinks]; exact hout),
      Engines.join, Engines.linkOf_onLink, if_pos rfl]
    exact ⟨by rw [hlinks], joined_congr (answered_face A e n drop d x) (by rw [hlinks]) (by rw [hlinks]) d⟩

end GoodAnswer

/-! ## A keyed entry -/

/-- Engines that keep what others with the same cars, faces and links hold, keep what these hold, entries apart. -/
theorem keeps_withDest {a e t : Engines} (h : a.Keeps t) (hind : a.ind = e.ind) (hface : a.face = e.face)
    (hlink : a.link = e.link) : ({ e with dest := t.dest } : Engines).Keeps t := by
  refine ⟨h.firm.trans ?_, h.looks.trans ?_⟩
  · unfold Engines.firm Engines.linkOf
    rw [hind, hface, hlink, ← h.stops, ← h.ticket]
  · unfold Engines.looks
    rw [hface]

/-- The checks of an entry change the entries and keep what is firm beside them. -/
theorem checkEntry_keeps (A : Ambient) (e : Engines) (d : Nat) (f : Face) (k : Keyed) :
    ({ e with dest := (e.checkEntry A d f k).dest } : Engines).Keeps (e.checkEntry A d f k) := by
  have hkeeps : ∀ {t : Engines}, e.Keeps t → ({ e with dest := t.dest } : Engines).Keeps t :=
    fun h => keeps_withDest h rfl rfl rfl
  have hrefuse : ∀ why, e.Keeps (e.refuseEntry A d k why) := fun why =>
    (Engines.Keeps.pushPrompt A e d _).trans (Engines.Keeps.report A _ _)
  unfold Engines.checkEntry
  split
  · exact hkeeps (Engines.Keeps.report A e _)
  · split
    · exact hkeeps (Engines.Keeps.pushPrompt A e d _)
    · split
      · exact hkeeps (hrefuse _)
      · dsimp only
        split
        · unfold Engines.createEntry
          dsimp only
          exact keeps_withDest ((Engines.Keeps.pushPrompt A _ d _).trans (Engines.Keeps.report A _ _)) rfl rfl rfl
        · exact hkeeps (hrefuse _)

section TakeEntry
variable {A : Ambient} {e : Engines} {d : Nat} {f : Face} (hf : e.faceOf d = some f) (k : Keyed)
include hf

theorem takeEntry_eq : e.takeEntry A d k = (if f.cls = .terminal then e.checkEntry A d f k
    else e.report A (.entryRefused d .notTerminal k.dest k.kind)).refreshMark d := by
  unfold Engines.takeEntry
  rw [hf]

/-- A taken entry leaves every display's liveness and toggle. -/
theorem takeEntry_displays : (e.takeEntry A d k).link.displays = e.link.displays := by
  rw [takeEntry_eq hf, (Engines.Keeps.refreshMark _ d).displays]
  split
  · exact (checkEntry_keeps A e d f k).displays
  · rfl

/-- An ONLINE display whose entry is taken is in its link's queue. -/
theorem takeEntry_queued (h : e.LinksSafe) (hon : e.online d = true) :
    d ∈ ((e.takeEntry A d k).linkOf f.link).queue := by
  rw [takeEntry_eq hf]
  split
  · have hkeeps := checkEntry_keeps A e d f k
    obtain ⟨g, hg, hlink⟩ := (Engines.LinksSafe.Same.of_keeps hkeeps).faceOf (d := d) hf
    have hon' : (e.checkEntry A d f k).online d = true := by
      unfold Engines.online
      rw [hkeeps.displays]
      exact hon
    rw [← hlink]
    exact mem_queue_refreshMark hg hon' (h.checkEntry A d f k)
  · exact mem_queue_refreshMark (e := e.report A _) hf hon (h.report A _)

end TakeEntry

/-! ## The steps of an IN slot -/

section InSlot
variable {s : State} (hup : s.resetLow = false) {n : Fin 8} {heard : List LinkChar} {drop d : Nat}
  (hawaited : s.eng.awaited n = some (drop, d))
include hup hawaited

theorem exec_statusAnswer_eq {fault : Nat} (hgood : goodAnswerIn heard drop = some (.status fault)) :
    exec (.statusAnswer n heard) s =
      .next { s with eng := (s.eng.serve n).goodAnswer s.ambient n drop d fault } := by
  refine (whenUp_next (fun s => s.statusAnswer n heard) hup).trans ?_
  unfold State.statusAnswer
  rw [hawaited]
  dsimp only
  rw [hgood]
  rfl

theorem exec_entryAnswer_eq {dest fault : Nat} {kind : EntryKind} {toggle : Bool}
    (hgood : goodAnswerIn heard drop = some (.entry dest kind toggle fault)) :
    exec (.entryAnswer n heard) s = .next { s with
      eng := ((s.eng.serve n).goodAnswer s.ambient n drop d fault).offerEntry s.ambient d toggle ⟨dest, kind⟩ } := by
  refine (whenUp_next (fun s => s.entryAnswer n heard) hup).trans ?_
  unfold State.entryAnswer
  rw [hawaited]
  dsimp only
  rw [hgood]
  rfl

theorem exec_inSlotMiss_eq (hbad : goodAnswerIn heard drop = none) : exec (.inSlotMiss n heard) s =
    .next { s with eng := (s.eng.serve n).miss s.ambient n drop d } := by
  refine (whenUp_next (fun s => s.inSlotMiss n heard) hup).trans ?_
  unfold State.inSlotMiss
  rw [hawaited]
  dsimp only
  rw [hbad]
  rfl

end InSlot

section OfferEntry
variable {A : Ambient} {e : Engines} {d : Nat} {x : Display} (hx : e.link.displays.get d = some x) {toggle : Bool}
  (k : Keyed)
include hx

theorem offerEntry_repeated (hsame : x.toggle = some toggle) : e.offerEntry A d toggle k = e := by
  unfold Engines.offerEntry
  rw [hx]
  exact if_pos hsame

theorem offerEntry_taken (hnew : x.toggle ≠ some toggle) : e.offerEntry A d toggle k =
    (e.onDisplay d fun y => { y with toggle := some toggle }).takeEntry A d k := by
  unfold Engines.offerEntry
  rw [hx]
  exact if_neg hnew

/-- The toggle of a taken entry is recorded. -/
theorem offerEntry_display {f : Face} (hf : e.faceOf d = some f) (hnew : x.toggle ≠ some toggle) :
    (e.offerEntry A d toggle k).link.displays.get d = some { x with toggle := some toggle } := by
  have hf' : (e.onDisplay d fun y => { y with toggle := some toggle }).faceOf d = some f := hf
  rw [offerEntry_taken hx k hnew, takeEntry_displays hf', displays_onDisplay, if_pos rfl, hx]
  rfl

end OfferEntry

/-- The display an IN slot waits for has a face. -/
theorem Engines.awaited_faceOf {e : Engines} {n : Fin 8} {drop d : Nat} (h : e.awaited n = some (drop, d)) :
    ∃ f, e.faceOf d = some f := by
  unfold Engines.awaited at h
  dsimp only at h
  split at h
  · split at h
    · obtain ⟨x, hx, hpair⟩ := Option.map_eq_some_iff.1 h
      obtain ⟨rfl, rfl⟩ := Prod.mk.inj hpair
      unfold Engines.atDrop at hx
      obtain ⟨y, hy, rfl⟩ := Option.map_eq_some_iff.1 hx
      exact Option.isSome_iff_exists.1 (Tab.get_isSome_of_mem _ (List.mem_of_find?_eq_some hy))
    · cases h
  · cases h

/-- A link whose slot has been served holds its queue and its frame. -/
theorem serve_served (A : Ambient) (e : Engines) (n : Fin 8) (drop d fault : Nat) {x : Display}
    (hx : e.link.displays.get d = some x) : (((e.serve n).goodAnswer A n drop d fault).linkOf n).served = true := by
  have hfirm := answeredMarked_link A (e.serve n) n drop d x n
  rw [← goodAnswer_link A n drop (e := e.serve n) hx fault n, linkOf_serve, if_pos rfl] at hfirm
  exact congrArg Link.served hfirm

/-- Settles O49: what a good answer leaves is said field by field by the lemmas on `goodAnswer`; a keyed entry whose toggle is
new is taken (`offerEntry_taken`), which ends with a REFRESH mark of the display (`takeEntry_queued`). -/
theorem goodAnswersKeepTheDisplayOnline : Obligations.GoodAnswersKeepTheDisplayOnline := by
  refine ⟨fun s n heard drop d fault x hup hawaited hgood hx => ?_,
    ?_⟩
  · have hx' : (s.eng.serve n).link.displays.get d = some x := hx
    refine ⟨_, exec_statusAnswer_eq hup hawaited hgood, rfl, ?_, ?_, fun k hk => ?_, serve_served _ _ _ _ _ _ hx, ?_,
      fun hsafe => ?_, ?_⟩
    · exact Engines.eq_link_out (by simp [Engines.serve]) (by simp [Engines.serve]) (by simp [Engines.serve]) (by simp [Engines.serve])
        (by simp [Engines.serve])
    · exact (goodAnswer_displays _ n drop hx' fault d).trans (if_pos rfl)
    · exact (goodAnswer_displays _ n drop hx' fault k).trans (if_neg hk)
    · exact goodAnswer_roster _ n drop hx' fault
    · obtain ⟨f, hf, rfl, -⟩ := Engines.awaited_present hawaited hsafe.faces
      obtain ⟨hframe, hqueue⟩ := goodAnswer_queue s.ambient f.link drop hx' fault (hsafe.serve f.link) hf
      have hserved : (s.eng.serve f.link).linkOf f.link = { s.eng.linkOf f.link with served := true } := by
        rw [linkOf_serve, if_pos rfl]
      have hjoined : joined (s.eng.serve f.link) ((s.eng.serve f.link).linkOf f.link) d =
          joined s.eng (s.eng.linkOf f.link) d := joined_congr rfl (by rw [hserved]) (by rw [hserved]; rfl) d
      refine ⟨hframe.trans (by rw [hserved]), hqueue.trans ?_⟩
      rw [hjoined, hserved]
    · exact goodAnswer_out _ n drop hx' fault
  · intro s n heard drop d dest fault kind toggle x hup hawaited hgood hx heardOf
    have hx' : (s.eng.serve n).link.displays.get d = some x := hx
    have hheard : heardOf.link.displays.get d = some { x with misses := 0, liveness := .online, fault := fault } :=
      (goodAnswer_displays _ n drop hx' fault d).trans (if_pos rfl)
    obtain ⟨f, hf⟩ := Engines.awaited_faceOf hawaited
    have hf' : heardOf.faceOf d = some f := by
      unfold Engines.faceOf
      rw [Engines.goodAnswer_face]
      exact hf
    refine ⟨_, exec_entryAnswer_eq hup hawaited hgood, rfl, fun hsame => offerEntry_repeated hheard _ hsame,
      fun hnew => offerEntry_taken hheard _ hnew, ?_, fun hsafe hor => ?_⟩
    · by_cases hsame : x.toggle = some toggle
      · show (heardOf.offerEntry _ d toggle _).link.displays.get d = _
        rw [offerEntry_repeated hheard _ hsame, hheard, ← hsame]
      · exact offerEntry_display hheard _ hf' hsame
    · obtain ⟨f', hf'', rfl, -, hrun, -⟩ := Engines.awaited_present hawaited hsafe.faces
      obtain rfl : f' = f := Option.some.inj (hf''.symm.trans hf)
      have hserved : ((s.eng.serve f'.link).linkOf f'.link).running = true := by
        rw [linkOf_serve, if_pos rfl]
        exact hrun
      have hsafe' : heardOf.LinksSafe := (hsafe.serve f'.link).goodAnswer _ _ _ _ hf hserved
      have hon : heardOf.online d = true := goodAnswer_online _ _ _ hx' _
      show d ∈ ((heardOf.offerEntry _ d toggle _).linkOf f'.link).queue
      by_cases hsame : x.toggle = some toggle
      · rw [offerEntry_repeated hheard _ hsame]
        have hoff : x.liveness ≠ .online := hor.resolve_right fun h => h.1 hsame
        rw [(goodAnswer_queue s.ambient f'.link drop hx' fault (hsafe.serve f'.link) hf).2, if_neg hoff]
        exact (mem_joined _ _ d d).2 (Or.inl rfl)
      · rw [offerEntry_taken hheard _ hsame]
        refine takeEntry_queued (e := heardOf.onDisplay d fun y => { y with toggle := some toggle }) hf' _
          (hsafe'.of_links (Engines.LinksSafe.Same.onDisplay heardOf d _ fun _ => rfl) fun _ => rfl) ?_
        rw [Engines.LinksSafe.online_onDisplay, if_pos rfl, hheard]
        rfl

/-- Settles O50: an entry of another class is the report alone with the mark of `takeEntry_eq`, one of a TERMINAL is its
checks with that mark; the toggle is `offerEntry_display`. -/
theorem onlyTerminalsEnter : Obligations.OnlyTerminalsEnter := by
  intro A e d f k toggle x hf refused
  refine ⟨fun hcls => ?_, ⟨rfl, fun hdest => ?_⟩, fun hx => ⟨fun hsame => offerEntry_repeated hx k hsame, fun hnew =>
    ⟨offerEntry_display hx k hf hnew, offerEntry_taken hx k hnew⟩⟩, fun hcls => ?_⟩
  · rw [takeEntry_eq hf, if_neg hcls]
    simp [refused, Engines.report]
  · have hcode : k.kind.code < 2 := by cases k.kind <;> decide
    show (Reason.notTerminal.code + k.dest * 2 ^ 8 + k.kind.code * 2 ^ 16) / 256 % 256 = k.dest
    have : Reason.notTerminal.code < 256 := by decide
    omega
  · rw [takeEntry_eq hf, if_pos hcls]
    simp

/-! ## A miss -/

section Miss
variable (A : Ambient) {e : Engines} (n : Fin 8) (drop : Nat) {d : Nat} {x : Display}

/-- A display that has been missed three times is OFFLINE, out of its queue, and has lost its strokes. -/
def wentOffline (e : Engines) (n : Fin 8) (d : Nat) : Engines :=
  (((e.onDisplay d fun x => { x with misses := 3 }).onDisplay d fun x => { x with liveness := .offline }).leaveQueue
    n d).storeFace d fun f => { f with strokes := 0 }

variable (hx : e.link.displays.get d = some x)
include hx

theorem miss_counts (h : x.misses < 2 ∨ x.liveness = .offline) :
    e.miss A n drop d = e.onDisplay d fun y => { y with misses := min (x.misses + 1) 3 } := by
  unfold Engines.miss
  rw [hx]
  dsimp only
  refine if_pos (h.imp_left fun hlow => ?_)
  omega

theorem miss_third (hmisses : 2 ≤ x.misses) (hlive : x.liveness ≠ .offline) : e.miss A n drop d =
    { wentOffline e n d with
      out := if x.liveness = .online then e.out.report A.now (.displayLost d n drop) else e.out } := by
  have hthree : min (x.misses + 1) 3 = 3 := by omega
  unfold Engines.miss
  rw [hx]
  dsimp only
  rw [hthree, if_neg (by simp [hlive])]
  split <;> rfl

end Miss

theorem wentOffline_displays {e : Engines} {n : Fin 8} {d : Nat} (c : Nat) :
    (wentOffline e n d).link.displays.get c =
      if c = d then (e.link.displays.get d).map fun x => { x with misses := 3, liveness := .offline }
      else e.link.displays.get c := by
  show (((e.onDisplay d _).onDisplay d _).link.displays).get c = _
  rw [displays_onDisplay, displays_onDisplay]
  by_cases hc : c = d
  · subst hc
    rw [if_pos rfl, if_pos rfl, if_pos rfl, Option.map_map]
    rfl
  · rw [if_neg hc, if_neg hc, if_neg hc]

theorem wentOffline_linkOf (e : Engines) (n : Fin 8) (d : Nat) : (wentOffline e n d).linkOf n = { e.linkOf n with
    queue := (e.linkOf n).queue.erase d
    frame := if (e.linkOf n).inFlight = some d then none else (e.linkOf n).frame } :=
  ((e.onDisplay d _).onDisplay d _).linkOf_onLink n n _ |>.trans (if_pos rfl)

theorem wentOffline_faceOf {e : Engines} {n : Fin 8} {d : Nat} {f : Face} (hf : (wentOffline e n d).faceOf d = some f) :
    f.strokes = 0 ∧ f.waitText = none := by
  unfold wentOffline Engines.leaveQueue at hf
  rw [faceOf_storeFace, if_pos rfl, faceOf_storeFace, if_pos rfl, Option.map_map] at hf
  obtain ⟨g, -, rfl⟩ := Option.map_eq_some_iff.1 hf
  exact ⟨rfl, rfl⟩

/-- Settles O52: a miss counts by `miss_counts`; the third takes the display OFFLINE, and what it then holds is said by the
lemmas on `wentOffline`. -/
theorem inSlotMissCountsToOffline : Obligations.InSlotMissCountsToOffline := by
  intro s n heard drop d x hup hawaited hbad hx
  have hx' : (s.eng.serve n).link.displays.get d = some x := hx
  have hserved : (s.eng.serve n).linkOf n = { s.eng.linkOf n with served := true } := by rw [linkOf_serve, if_pos rfl]
  by_cases hcounts : x.misses < 2 ∨ x.liveness = .offline
  · have hmiss := miss_counts s.ambient n drop hx' hcounts
    have hexec := exec_inSlotMiss_eq hup hawaited hbad
    rw [hmiss] at hexec
    refine ⟨_, hexec, rfl, rfl, fun k hk => ?_, ?_, fun _ => ⟨?_, rfl, rfl⟩, fun hthird hlive => ?_⟩
    · exact (displays_onDisplay _ d k _).trans (if_neg hk)
    · exact congrArg Link.served hserved
    · refine (displays_onDisplay _ d d _).trans ((if_pos rfl).trans ?_)
      rw [hx']
      rfl
    · exact absurd hcounts (by simp [hlive, Nat.not_lt.2 hthird])
  · obtain ⟨hthird, hlive⟩ : 2 ≤ x.misses ∧ x.liveness ≠ .offline := by
      simpa only [not_or, Nat.not_lt] using hcounts
    have hmiss := miss_third s.ambient n drop hx' hthird hlive
    have hexec := exec_inSlotMiss_eq hup hawaited hbad
    rw [hmiss] at hexec
    have hlink := wentOffline_linkOf (s.eng.serve n) n d
    have hdisplays := wentOffline_displays (e := s.eng.serve n) (n := n) (d := d)
    refine ⟨_, hexec, rfl, rfl, fun k hk => ?_, ?_, fun hor => absurd hor hcounts, fun _ _ => ⟨?_, ?_, ?_, ?_, rfl⟩⟩
    · exact (hdisplays k).trans (if_neg hk)
    · exact (congrArg Link.served hlink).trans (congrArg Link.served hserved)
    · refine (hdisplays d).trans ((if_pos rfl).trans ?_)
      rw [hx']
      rfl
    · exact (congrArg Link.queue hlink).trans (by rw [hserved])
    · refine fun hflying => ?_
      have hgone : ((wentOffline (s.eng.serve n) n d).linkOf n).inFlight = some d := hflying
      rw [hlink, Link.inFlight] at hgone
      dsimp only at hgone
      split at hgone
      · cases hgone
      · next hother => exact hother hgone
    · exact fun f hf => wentOffline_faceOf (e := s.eng.serve n) (n := n) (d := d) hf

end Sys2Proof.Machine

/-! SUPPORT. An accepted settings record, and an accepted window descriptor (R154, R166, R168). -/

namespace Sys2Proof.Machine

/-- Settles O33: BASE content is derived anew after the record, which touches neither the sources nor the slots. -/
theorem settingsCommitComesIntoForce : Obligations.SettingsCommitComesIntoForce := by
  intro s h r
  exact ⟨_, exec_settingsCommit_accepted h, rfl, rfl, Engines.rederive_ind _ _, rederive_stops _ _,
    rederive_slots _ _⟩

/-! ## What a descriptor clears -/

section ClearTable
variable (A : Ambient) (e : Engines)

/-- The engines with every lantern ended and no car, before BASE content is derived anew. -/
def carsGone (e : Engines) : Engines :=
  ((List.finRange 48).foldl Engines.endLantern e).setCars (Vector.replicate 48 Car.reset)

theorem clearCars_eq : e.clearCars A = (carsGone e).rederive A := by unfold Engines.clearCars carsGone; rfl

theorem clearCars_carOf (c : Fin 48) : (e.clearCars A).ind.carOf c = Car.reset := by
  rw [clearCars_eq, Engines.rederive_ind]
  unfold carsGone Engines.setCars Indication.carOf
  exact Vector.getElem_replicate ..

theorem clearCars_running (c : Fin 48) : ((e.clearCars A).ind.signalOf c).running = false := by
  have hc := foldl_endLantern_running (List.finRange 48) e c (.inl (List.mem_finRange c))
  rw [clearCars_eq, Engines.rederive_ind]
  unfold carsGone
  generalize (List.finRange 48).foldl Engines.endLantern e = e1 at hc ⊢
  exact hc

theorem clearCars_stops : (e.clearCars A).dest.stops = e.dest.stops := by
  rw [clearCars_eq, rederive_stops]
  have h := foldl_keeps Engines.dest Engines.endLantern (by simp) (List.finRange 48) e
  unfold carsGone
  generalize (List.finRange 48).foldl Engines.endLantern e = e1 at h ⊢
  exact congrArg Destination.stops h

theorem clearLabels_labels : (e.clearLabels A).ind.labels = [] := by
  unfold Engines.clearLabels
  rw [(Engines.Keeps.rehandPrompts _).ind, Engines.rederive_ind]
  rfl

/-- An operation that keeps how the faces look keeps the list of displays. -/
theorem Engines.Keeps.keys {a b : Engines} (h : a.Keeps b) : Tab.keys b.face.faces = Tab.keys a.face.faces := by
  have hkeys : ∀ e : Engines, Tab.keys e.face.faces = e.looks.map Prod.fst := fun e => by
    simp [Tab.keys, Engines.looks, Function.comp_def]
  rw [hkeys, hkeys, h.looks]

theorem keys_erase {α : Type} (t : Tab α) (d : Nat) : Tab.keys (t.erase d) = (Tab.keys t).filter (· != d) := by
  simp [Tab.keys, Tab.erase, List.filter_map, Function.comp_def]

theorem keys_cancelIfTerminal (d : Nat) (cls : DisplayClass) :
    Tab.keys (e.cancelIfTerminal A d cls).face.faces = Tab.keys e.face.faces := by
  unfold Engines.cancelIfTerminal
  split
  · exact (Engines.Keeps.cancelTerminal A e d .roster).keys
  · rfl

/-- The removal of a display takes it, and it alone, off the face table. -/
theorem keys_removeDisplay (d : Nat) :
    Tab.keys (e.removeDisplay A d).face.faces = (Tab.keys e.face.faces).filter (· != d) := by
  unfold Engines.removeDisplay
  cases hf : e.faceOf d with
  | none =>
    refine (List.filter_eq_self.2 fun k hk => ?_).symm
    obtain ⟨x, hx, rfl⟩ := List.mem_map.1 hk
    have hsome := Tab.get_isSome_of_mem _ hx
    by_cases hd : x.1 = d
    · rw [hd, show e.face.faces.get d = none from hf] at hsome
      cases hsome
    · simpa using hd
  | some f =>
    dsimp only
    generalize he1 : (e.leaveQueue f.link d).cancelPoll f.link f.drop = e1
    have h1 : Tab.keys e1.face.faces = Tab.keys e.face.faces := by
      rw [← he1]
      exact (Engines.Keeps.leaveQueue e f.link d).keys
    have hc := (keys_cancelIfTerminal A e1 d f.cls).trans h1
    generalize e1.cancelIfTerminal A d f.cls = ec at hc ⊢
    have hq := (Engines.Keeps.leaveQueue ec f.link d).keys.trans hc
    generalize he2 : (ec.leaveQueue f.link d).closeQueue d = e2
    have h2 : Tab.keys e2.face.faces = Tab.keys e.face.faces := by
      rw [← he2]
      exact hq
    rw [← h2]
    refine Eq.trans ?_ (keys_erase e2.face.faces d)
    refine Eq.trans ?_ (Engines.Keeps.targetNotice A (e2.setFaces (e2.face.faces.erase d)) d).keys
    generalize (e2.setFaces (e2.face.faces.erase d)).targetNotice A d = e3
    rfl

theorem keys_foldl_removeDisplay (l : List Nat) (e : Engines) :
    Tab.keys (l.foldl (fun acc d => acc.removeDisplay A d) e).face.faces =
      (Tab.keys e.face.faces).filter fun k => !l.contains k := by
  induction l generalizing e with
  | nil => simp
  | cons d l ih =>
    rw [List.foldl_cons, ih, keys_removeDisplay, List.filter_filter]
    refine List.filter_congr fun k _ => ?_
    by_cases hk : k = d <;> simp [hk]

theorem clearRoster_faces : (e.clearRoster A).face.faces = [] := by
  have h := keys_foldl_removeDisplay A (Tab.keys e.face.faces) e
  rw [List.filter_eq_nil_iff.2 fun k hk => by simp [hk]] at h
  exact List.map_eq_nil_iff.1 h

theorem clearPlayout_ctx (c : Fin 16) : e.clearPlayout.ctx c = Context.reset := by
  unfold Engines.clearPlayout
  dsimp only
  rw [ctx_handNotices]
  refine (foldl_entries Engines.ctx (fun acc c => (acc.releaseDwell c).onCtx c fun _ => Context.reset)
    (fun _ _ => Context.reset) (fun b k i => ?_) (fun _ _ => rfl) (List.finRange 16) e c).trans
    (if_pos (List.mem_finRange c))
  unfold Engines.releaseDwell
  rw [ctx_onCtx, ctx_onCtx]
  by_cases hk : k = i
  · simp [hk]
  · simp [hk]
    rfl

end ClearTable

theorem clearTable_car (A : Ambient) (e : Engines) : e.clearTable A carWindow = e.clearCars A := if_pos rfl

theorem clearTable_assign (A : Ambient) (e : Engines) : e.clearTable A assignWindow = e := by
  simp [Engines.clearTable, assignWindow, carWindow, rosterWindow, labelWindow, playoutWindow]

/-! ## What a descriptor does to its window -/

section Rewindow
variable (s : State) (w : Fin 5) (r : Rec4)

/-- A withdrawn sweep stops on whichever channel it ran; the request list is touched by the withdrawal alone. -/
theorem FetchUnit.withdrawSweep_requests (f : FetchUnit) (w : Fin 5) :
    (f.withdrawSweep w).requests = f.requests.filter fun q => !q.sweepsWindow w := by
  unfold FetchUnit.withdrawSweep
  dsimp only
  refine foldl_keeps FetchUnit.requests _ (fun f ch => ?_) _ _
  split
  · split <;> rfl
  · rfl
  · rfl
  · rfl

theorem FetchUnit.withdrawSweep_sweepAsked (f : FetchUnit) (w : Fin 5) : (f.withdrawSweep w).sweepAsked w = false := by
  unfold FetchUnit.sweepAsked
  rw [f.withdrawSweep_requests w, List.any_eq_false]
  intro q hq
  simpa using (List.mem_filter.1 hq).2

theorem State.withdrawSweep_frame : ∃ ends port, s.withdrawSweep w = { s with
    asm := { s.asm with sweepEnds := ends }, path := { s.path with port := port },
    fetch := s.fetch.withdrawSweep w } := ⟨_, _, rfl⟩

theorem State.quietSweep_frame : ∃ ends port fetch, s.quietSweep w = { s with
    asm := { s.asm with sweepEnds := ends }, path := { s.path with port := port }, fetch := fetch } := by
  unfold State.quietSweep
  split
  · exact ⟨_, _, _, rfl⟩
  · exact ⟨_, s.path.port, s.fetch, rfl⟩

/-- The state a window takes at a changed descriptor (R166). -/
def rewindowed (w : Fin 5) (r : Rec4) : WinState :=
  if r.winCount = 0 then .disabled else if w = assignWindow then .current else .stale

/-- Beyond the cleared table and staging, a changed descriptor touches the window's state, the sweeps and the port. -/
theorem State.rewindow_frame : ∃ ends port fetch, s.rewindow w r = { s.clearWindow w with
    asm := { (s.clearWindow w).asm.setWinState w (rewindowed w r) with sweepEnds := ends }
    path := { s.path with port := port }, fetch := fetch } := by
  unfold State.rewindow rewindowed
  dsimp only
  split
  · exact ⟨_, _, _, rfl⟩
  · split
    · exact ⟨(s.clearWindow w).asm.sweepEnds, s.path.port, s.fetch, rfl⟩
    · obtain ⟨ends, port, fetch, hq⟩ := (s.clearWindow w).quietSweep_frame w
      rw [hq]
      exact ⟨ends, port, fetch.askSweep w, rfl⟩

theorem State.rewindow_sweepAsked_none (h : r.winCount = 0) : (s.rewindow w r).fetch.sweepAsked w = false := by
  unfold State.rewindow
  rw [if_pos h]
  exact FetchUnit.withdrawSweep_sweepAsked _ w

theorem State.rewindow_sweepAsked (h : r.winCount ≠ 0) (hw : w ≠ assignWindow) :
    (s.rewindow w r).fetch.sweepAsked w = true := by
  unfold State.rewindow
  rw [if_neg h, if_neg hw]
  exact (FetchUnit.sweepAsked_askSweep _ w w).trans (by simp)

theorem State.acceptDescriptor_same (h : (s.path.window w).w0 = r.w0 ∧ (s.path.window w).w3 = r.w3) :
    s.acceptDescriptor w r = s.setWindow w r := if_pos h

theorem State.acceptDescriptor_changed (h : ¬ ((s.path.window w).w0 = r.w0 ∧ (s.path.window w).w3 = r.w3)) :
    s.acceptDescriptor w r = (s.setWindow w r).rewindow w r := if_neg h

end Rewindow

theorem MemPath.window_set (p : MemPath) (w k : Fin 5) (r : Rec4) :
    MemPath.window { p with windows := p.windows.set w r } k = if w = k then r else p.window k :=
  get_upd p.windows w k fun _ => r

theorem Assembler.stage_set (a : Assembler) (w k : Fin 5) (t : Tab Word) :
    Assembler.stage { a with winStage := a.winStage.set w t } k = if w = k then t else a.stage k :=
  get_upd a.winStage w k fun _ => t

/-- Settles O32: an unchanged base and count leave all but the descriptor; a changed one is `State.rewindow_frame`, and
the tables it clears are said one by one. -/
theorem descriptorCommitSetsTheWindow : Obligations.DescriptorCommitSetsTheWindow := by
  refine ⟨?_, fun A e => ⟨fun c => ?_, ?_,
    clearTable_assign A e, clearRoster_faces A e, rfl, clearLabels_labels A e, clearPlayout_ctx e⟩⟩
  rotate_left
  · rw [clearTable_car]
    exact ⟨clearCars_carOf A e c, clearCars_running A e c⟩
  · rw [clearTable_car]
    exact clearCars_stops A e
  intro s w h r same
  refine ⟨_, exec_descriptorCommit_accepted h, ?_⟩
  by_cases hsame : same
  · rw [State.acceptDescriptor_same s.handedOver w r hsame]
    refine ⟨(MemPath.window_set s.path w w r).trans (if_pos rfl),
      fun k hk => ⟨(MemPath.window_set s.path w k r).trans (if_neg hk.symm), rfl, rfl⟩, fun _ => rfl,
      fun hne => (hne hsame).elim, fun hne => (hne hsame).elim, fun hne => (hne hsame).elim,
      fun hne => (hne hsame).elim⟩
  · rw [State.acceptDescriptor_changed s.handedOver w r hsame]
    have hnone := State.rewindow_sweepAsked_none (s.handedOver.setWindow w r) w r
    have hasked := State.rewindow_sweepAsked (s.handedOver.setWindow w r) w r
    obtain ⟨ends, port, fetch, ht⟩ := State.rewindow_frame (s.handedOver.setWindow w r) w r
    rw [ht] at hnone hasked ⊢
    have hstate : ∀ k, Assembler.winStateOf (s.asm.setWinState w (rewindowed w r)) k =
        if w = k then rewindowed w r else s.asm.winStateOf k := fun k => Assembler.winStateOf_setWinState ..
    have hself : Assembler.winStateOf (s.asm.setWinState w (rewindowed w r)) w = rewindowed w r :=
      (hstate w).trans (if_pos rfl)
    refine ⟨(MemPath.window_set s.path w w r).trans (if_pos rfl), fun k hk => ⟨?_, ?_, ?_⟩,
      fun hs => (hsame hs).elim, fun _ => ⟨?_, rfl, rfl, rfl, rfl, rfl, rfl, rfl, rfl, rfl, rfl⟩, fun _ hc => ⟨?_, hnone hc⟩,
      fun _ hc hw => ?_, fun _ hc hw => ⟨?_, hasked hc hw⟩⟩
    · exact (MemPath.window_set s.path w k r).trans (if_neg hk.symm)
    · exact (hstate k).trans (if_neg hk.symm)
    · exact (Assembler.stage_set s.asm w k []).trans (if_neg hk.symm)
    · exact (Assembler.stage_set s.asm w w []).trans (if_pos rfl)
    · exact hself.trans (if_pos hc)
    · exact hself.trans ((if_neg hc).trans (if_pos hw))
    · exact hself.trans ((if_neg hc).trans (if_neg hw))

end Sys2Proof.Machine

/-! SUPPORT. An accepted link setup (R129). -/

namespace Sys2Proof.Machine

/-! ## The displays of a link -/

/-- A display nothing has been heard of since its link started or stopped; its fault code and its toggle are kept. -/
def Display.unpolled (x : Display) : Display := { x with liveness := .unpolled, misses := 0 }

theorem mem_onThisLink (e : Engines) (n : Fin 8) (d : Nat) :
    d ∈ e.onThisLink n ↔ ∃ f, (d, f) ∈ e.face.faces ∧ f.link = n := by
  simp [Engines.onThisLink]

/-- Which displays a link has is seen of how the faces look. -/
theorem onThisLink_looks (e : Engines) (n : Fin 8) :
    e.onThisLink n = (e.looks.filter fun x => x.2.link == n).map Prod.fst := by
  simp [Engines.onThisLink, Engines.looks, List.filter_map, Function.comp_def, Face.look]

theorem displays_unpollAll (e : Engines) (n : Fin 8) (d : Nat) : (e.unpollAll n).link.displays.get d =
    if d ∈ e.onThisLink n then (e.link.displays.get d).map Display.unpolled else e.link.displays.get d := by
  refine foldl_entries (fun (b : Engines) k => b.link.displays.get k) (fun acc k => acc.onDisplay k Display.unpolled)
    (fun _ x => x.map Display.unpolled) (fun b k i => ?_) (fun _ x => ?_) (e.onThisLink n) e d
  · rw [displays_onDisplay]
    by_cases h : k = i
    · simp [h]
    · simp [h, Ne.symm h]
  · cases x <;> rfl

theorem roster_unpollAll (e : Engines) (n : Fin 8) : (e.unpollAll n).link.roster = e.link.roster :=
  foldl_keeps (fun b : Engines => b.link.roster) (fun acc d => acc.onDisplay d Display.unpolled) (fun _ _ => rfl) _ e

theorem Engines.OnLinks.unpollAll (e : Engines) (n : Fin 8) : e.OnLinks (e.unpollAll n) :=
  Engines.OnLinks.foldl _ (fun e d => Engines.OnLinks.onDisplay e d _) _ e

/-! ## The stop of a link -/

/-- The engines with a link's queue left by each of its displays. -/
def queueLeft (e : Engines) (n : Fin 8) : Engines := ((e.linkOf n).queue).foldl (fun acc d => acc.leaveQueue n d) e

theorem stopLink_eq (e : Engines) (n : Fin 8) (r : Rec4) : e.stopLink n r = ((queueLeft e n).onLink n fun l =>
    { l.atStart with setup := r, running := false, queue := [] }).unpollAll n := rfl

theorem queueLeft_keeps (e : Engines) (n : Fin 8) : e.Keeps (queueLeft e n) :=
  Engines.Keeps.foldl _ _ (fun b d _ => Engines.Keeps.leaveQueue b n d) e

theorem queueLeft_onLinks (e : Engines) (n : Fin 8) : e.OnLinks (queueLeft e n) :=
  Engines.OnLinks.foldl _ (fun b d => Engines.OnLinks.leaveQueue b n d) _ e

theorem queueLeft_other (e : Engines) {n k : Fin 8} (h : k ≠ n) : (queueLeft e n).linkOf k = e.linkOf k :=
  foldl_keeps (fun b : Engines => b.linkOf k) (fun acc d => acc.leaveQueue n d)
    (fun b _ => (Engines.linkOf_onLink b n k _).trans (if_neg h.symm)) _ e

theorem queueLeft_onThisLink (e : Engines) (n : Fin 8) : (queueLeft e n).onThisLink n = e.onThisLink n := by
  rw [onThisLink_looks, onThisLink_looks, (queueLeft_keeps e n).looks]

/-! ## A changed link that runs on -/

/-- The engines with a running link's cycle begun again under a record. -/
def recycled (e : Engines) (n : Fin 8) (r : Rec4) : Engines := e.onLink n fun l => { l.atStart with setup := r }

theorem recycleLink_eq (e : Engines) (n : Fin 8) (r : Rec4) : e.recycleLink n r =
    match (e.linkOf n).inFlight with
    | some d => ((recycled e n r).onLink n fun l => { l with queue := l.queue.erase d }).join n d
    | none => recycled e n r := rfl

theorem recycled_linkOf (e : Engines) (n : Fin 8) (r : Rec4) :
    (recycled e n r).linkOf n = { (e.linkOf n).atStart with setup := r } :=
  (Engines.linkOf_onLink e n n _).trans (if_pos rfl)

/-! ## The four cases of an accepted record -/

/-- What an accepted setup leaves of the rest: the other engines, the slots, the other links and the roster. -/
structure LinkSetLeaves (n : Fin 8) (e e' : Engines) : Prop where
  onLinks : e.OnLinks e'
  others : ∀ k, k ≠ n → e'.linkOf k = e.linkOf k
  roster : e'.link.roster = e.link.roster

namespace LinkSetLeaves

theorem trans {n : Fin 8} {a b c : Engines} (h : LinkSetLeaves n a b) (k : LinkSetLeaves n b c) : LinkSetLeaves n a c :=
  ⟨h.onLinks.trans k.onLinks, fun j hj => (k.others j hj).trans (h.others j hj), k.roster.trans h.roster⟩

theorem onLink (e : Engines) (n : Fin 8) (g : Link → Link) : LinkSetLeaves n e (e.onLink n g) :=
  ⟨.onLink e n g, fun k hk => (Engines.linkOf_onLink e n k g).trans (if_neg hk.symm), rfl⟩

theorem unpollAll (e : Engines) (n : Fin 8) : LinkSetLeaves n e (e.unpollAll n) :=
  ⟨.unpollAll e n, fun k _ => Engines.LinksSafe.links_unpollAll e n k, roster_unpollAll e n⟩

theorem queueLeft (e : Engines) (n : Fin 8) : LinkSetLeaves n e (queueLeft e n) :=
  ⟨queueLeft_onLinks e n, fun _ hk => queueLeft_other e hk, (queueLeft_keeps e n).roster⟩

theorem recycleLink (e : Engines) (n : Fin 8) (r : Rec4) : LinkSetLeaves n e (e.recycleLink n r) := by
  have h1 : LinkSetLeaves n e (recycled e n r) := onLink e n _
  rw [recycleLink_eq]
  cases (e.linkOf n).inFlight with
  | none => exact h1
  | some d => exact h1.trans ((onLink (recycled e n r) n _).trans (onLink _ n _))

theorem acceptLink (e : Engines) (n : Fin 8) (r : Rec4) : LinkSetLeaves n e (e.acceptLink n r) := by
  unfold Engines.acceptLink
  split
  · exact onLink e n _
  · exact (queueLeft e n).trans ((onLink _ n _).trans (unpollAll _ n))
  · exact (onLink e n _).trans (unpollAll _ n)
  · exact recycleLink e n r

end LinkSetLeaves

section AcceptLink
variable {e : Engines} {n : Fin 8} {r : Rec4}

theorem acceptLink_stays (hr : r.lnkRun = false) (ho : (e.linkOf n).running = false) :
    e.acceptLink n r = e.onLink n fun l => { l with setup := r } := by unfold Engines.acceptLink; rw [hr, ho]

theorem acceptLink_stops (hr : r.lnkRun = false) (ho : (e.linkOf n).running = true) :
    e.acceptLink n r = e.stopLink n r := by unfold Engines.acceptLink; rw [hr, ho]

theorem acceptLink_starts (hr : r.lnkRun = true) (ho : (e.linkOf n).running = false) :
    e.acceptLink n r = e.startLink n r := by unfold Engines.acceptLink; rw [hr, ho]

theorem acceptLink_recycles (hr : r.lnkRun = true) (ho : (e.linkOf n).running = true) :
    e.acceptLink n r = e.recycleLink n r := by unfold Engines.acceptLink; rw [hr, ho]

/-- A stopped link is at its start, with an empty queue. -/
theorem stopLink_linkOf : (e.stopLink n r).linkOf n =
    { ((queueLeft e n).linkOf n).atStart with setup := r, running := false, queue := [] } := by
  rw [stopLink_eq, Engines.LinksSafe.links_unpollAll, Engines.linkOf_onLink, if_pos rfl]

theorem startLink_linkOf : (e.startLink n r).linkOf n =
    { (e.linkOf n).atStart with setup := r, running := true, turn := none } := by
  unfold Engines.startLink
  rw [Engines.LinksSafe.links_unpollAll, Engines.linkOf_onLink, if_pos rfl]

/-- A changed link that runs on is at its start; the display in flight takes another place in the queue. -/
theorem recycleLink_linkOf : ∃ queue, (e.recycleLink n r).linkOf n =
    { (e.linkOf n).atStart with setup := r, queue := queue } := by
  rw [recycleLink_eq]
  cases (e.linkOf n).inFlight with
  | none => exact ⟨_, recycled_linkOf e n r⟩
  | some d =>
    dsimp only
    unfold Engines.join
    rw [Engines.linkOf_onLink, if_pos rfl, Engines.linkOf_onLink, if_pos rfl, recycled_linkOf]
    exact ⟨_, rfl⟩

theorem recycleLink_displays : (e.recycleLink n r).link.displays = e.link.displays := by
  rw [recycleLink_eq]
  cases (e.linkOf n).inFlight <;> rfl

theorem stopLink_displays (d : Nat) (f : Face) (x : Display) (hf : (d, f) ∈ e.face.faces) (hn : f.link = n)
    (hx : e.link.displays.get d = some x) : (e.stopLink n r).link.displays.get d = some x.unpolled := by
  have hmem : d ∈ (queueLeft e n).onThisLink n := by
    rw [queueLeft_onThisLink]
    exact (mem_onThisLink e n d).2 ⟨f, hf, hn⟩
  rw [stopLink_eq, displays_unpollAll]
  refine (if_pos hmem).trans ?_
  have hx' : (queueLeft e n).link.displays.get d = some x := by rw [(queueLeft_keeps e n).displays, hx]
  exact congrArg (Option.map Display.unpolled) hx'

theorem startLink_displays (d : Nat) (f : Face) (x : Display) (hf : (d, f) ∈ e.face.faces) (hn : f.link = n)
    (hx : e.link.displays.get d = some x) : (e.startLink n r).link.displays.get d = some x.unpolled := by
  have hmem : d ∈ e.onThisLink n := (mem_onThisLink e n d).2 ⟨f, hf, hn⟩
  unfold Engines.startLink
  rw [displays_unpollAll]
  exact (if_pos hmem).trans (congrArg (Option.map Display.unpolled) hx)

end AcceptLink

/-- What an accepted setup does to the link it is of, and to the displays there. -/
structure LinkSet (n : Fin 8) (r : Rec4) (e e' : Engines) : Prop where
  setup : (e'.linkOf n).setup = r
  running : (e'.linkOf n).running = r.lnkRun
  start : r.lnkRun = true ∨ (e.linkOf n).running = true →
    (e'.linkOf n).slot = 0 ∧ (e'.linkOf n).frame = none ∧ (e'.linkOf n).pending = none ∧ (e'.linkOf n).served = false
  queue : r.lnkRun = false → (e.linkOf n).running = true → (e'.linkOf n).queue = []
  turn : r.lnkRun = true → (e.linkOf n).running = false → (e'.linkOf n).turn = none
  same : r.lnkRun = (e.linkOf n).running → e'.link.displays = e.link.displays
  unpolled : r.lnkRun ≠ (e.linkOf n).running → ∀ d f x, (d, f) ∈ e.face.faces → f.link = n →
    e.link.displays.get d = some x → e'.link.displays.get d = some x.unpolled

theorem acceptLink_set (e : Engines) (n : Fin 8) (r : Rec4) : LinkSet n r e (e.acceptLink n r) := by
  cases hr : r.lnkRun <;> cases ho : (e.linkOf n).running
  · rw [acceptLink_stays hr ho]
    have hl : (e.onLink n fun l => { l with setup := r }).linkOf n = { e.linkOf n with setup := r } :=
      (Engines.linkOf_onLink e n n _).trans (if_pos rfl)
    have hd : (e.onLink n fun l => { l with setup := r }).link.displays = e.link.displays := rfl
    constructor <;> simp [hl, hd, hr, ho]
  · rw [acceptLink_stops hr ho]
    have hl := stopLink_linkOf (e := e) (n := n) (r := r)
    refine ⟨?_, ?_, ?_, ?_, ?_, ?_, fun _ => stopLink_displays⟩ <;> simp [hl, hr, ho, Link.atStart]
  · rw [acceptLink_starts hr ho]
    have hl := startLink_linkOf (e := e) (n := n) (r := r)
    refine ⟨?_, ?_, ?_, ?_, ?_, ?_, fun _ => startLink_displays⟩ <;> simp [hl, hr, ho, Link.atStart]
  · rw [acceptLink_recycles hr ho]
    obtain ⟨queue, hl⟩ := recycleLink_linkOf (e := e) (n := n) (r := r)
    constructor <;> simp [hl, hr, ho, Link.atStart, recycleLink_displays]

/-- Settles O35: by the four cases of the run bit before and after. -/
theorem linkSetupCommitRunsTheLink : Obligations.LinkSetupCommitRunsTheLink := by
  intro s n h r old
  have hleaves := LinkSetLeaves.acceptLink s.eng n r
  obtain ⟨hsetup, hrun, hstart, hqueue, hturn, hsame, hunpolled⟩ := acceptLink_set s.eng n r
  exact ⟨_, exec_linkSetupCommit_accepted h, rfl, hleaves.onLinks.eq, hsetup, hrun, hleaves.others, hleaves.roster,
    hstart, hqueue, hturn, hsame, hunpolled⟩

end Sys2Proof.Machine

/-! SUPPORT. The end of a frame, and the place a display takes in its link's queue (R27, R135, R136, R138). -/

namespace Sys2Proof.Machine

/-! ## Places in a queue -/

/-- A display put behind the last element that meets `p` stands right behind it. -/
theorem behindLast_split {p : Nat → Bool} {x : Nat} {rest : List Nat} (hx : p x = true) (hrest : rest.any p = false)
    (pre : List Nat) (d : Nat) : behindLast p (pre ++ x :: rest) d = pre ++ x :: d :: rest := by
  induction pre with
  | nil => simp [behindLast, hx, hrest]
  | cons y pre ih =>
    have hlater : (pre ++ x :: rest).any p = true := by simp [hx]
    rw [List.cons_append, behindLast, hlater, ih]
    simp

/-- A list with an element that meets `p` is cut at the last of them. -/
theorem exists_last_split {p : Nat → Bool} {l : List Nat} (h : l.any p = true) :
    ∃ a x b, l = a ++ x :: b ∧ p x = true ∧ b.any p = false := by
  induction l with
  | nil => cases h
  | cons y l ih =>
    by_cases hl : l.any p = true
    · obtain ⟨a, x, b, rfl, hx, hb⟩ := ih hl
      exact ⟨y :: a, x, b, rfl, hx, hb⟩
    · have hy : p y = true := by simpa [hl] using h
      exact ⟨[], y, l, rfl, hy, by simpa using hl⟩

section JoinOverride
variable {shows : Nat → Bool} {flying : Option Nat} {d x : Nat} {pre rest q : List Nat}

theorem joinOverride_behind (hx : shows x = true) (hrest : rest.any shows = false) :
    joinOverride shows flying (pre ++ x :: rest) d = pre ++ x :: d :: rest := by
  unfold joinOverride
  rw [if_pos (by simp [hx]), behindLast_split hx hrest]

theorem joinOverride_front (hq : q.any shows = false) : joinOverride shows none q d = d :: q := by
  unfold joinOverride
  rw [hq]
  rfl

theorem joinOverride_flying (hq : (x :: rest).any shows = false) (hrest : x ∉ rest) :
    joinOverride shows (some x) (x :: rest) d = x :: d :: rest := by
  have hnone : rest.any (· == x) = false := by simpa using fun y hy (hyx : y = x) => hrest (hyx ▸ hy)
  unfold joinOverride
  rw [hq]
  exact behindLast_split (p := (· == x)) (by simp) hnone [] d

end JoinOverride

/-! ## The joining position -/

section Joined
variable (e : Engines) (l : Link) (d : Nat)

theorem joined_plain (h : e.showsOverride d = false) : joined e l d = l.queue ++ [d] := by
  unfold joined
  rw [h]
  rfl

theorem joined_override (h : e.showsOverride d = true) :
    joined e l d = joinOverride e.showsOverride l.inFlight l.queue d := by
  unfold joined
  rw [h]
  rfl

end Joined

/-! ## A promotion -/

section Promoted
variable {e : Engines} {l : Link} {d : Nat} {pre post : List Nat}

/-- The joining position of a queued display, worked out with itself left out. -/
theorem promoted_eq (hq : l.queue = pre ++ d :: post) (hd : d ∉ pre) : promoted e l d =
    if (joinOverride e.showsOverride l.inFlight (pre ++ post) d).idxOf d < pre.length then
      joinOverride e.showsOverride l.inFlight (pre ++ post) d else l.queue := by
  have herase : l.queue.erase d = pre ++ post := by rw [hq, List.erase_append_right _ hd, List.erase_cons_head]
  have hplace : l.queue.idxOf d = pre.length := by rw [hq, List.idxOf_append_of_notMem hd, List.idxOf_cons_self]; rfl
  unfold promoted
  rw [herase, hplace]

/-- A display is moved to a position that lies before its place. -/
theorem promoted_moves {ahead rest : List Nat} (hq : l.queue = pre ++ d :: post) (hd : d ∉ pre)
    (hjoin : joinOverride e.showsOverride l.inFlight (pre ++ post) d = ahead ++ d :: (rest ++ post))
    (hpre : pre = ahead ++ rest) : promoted e l d = ahead ++ d :: (rest ++ post) := by
  have hahead : d ∉ ahead := fun h => hd (hpre ▸ List.mem_append_left rest h)
  have hplace : (ahead ++ d :: (rest ++ post)).idxOf d = ahead.length := by
    rw [List.idxOf_append_of_notMem hahead, List.idxOf_cons_self]
    rfl
  rw [promoted_eq hq hd, hjoin, hplace]
  split
  · rfl
  · next hle =>
    have hrest : rest = [] := by
      rw [hpre, List.length_append] at hle
      exact List.eq_nil_of_length_eq_zero (by omega)
    rw [hq, hpre, hrest]
    simp

theorem promoted_stays (hq : l.queue = pre ++ d :: post) (hd : d ∉ pre) (hpost : post.any e.showsOverride = true) :
    promoted e l d = l.queue := by
  obtain ⟨a, x, b, rfl, hx, hb⟩ := exists_last_split hpost
  have hjoin : joinOverride e.showsOverride l.inFlight (pre ++ (a ++ x :: b)) d = pre ++ (a ++ x :: d :: b) := by
    rw [← List.append_assoc, joinOverride_behind hx hb, List.append_assoc]
  rw [promoted_eq hq hd, hjoin, List.idxOf_append_of_notMem hd]
  exact if_neg (by omega)

theorem promoted_behind {a b : List Nat} {x : Nat} (hq : l.queue = pre ++ d :: post) (hd : d ∉ pre)
    (hpost : post.any e.showsOverride = false) (hpre : pre = a ++ x :: b) (hx : e.showsOverride x = true)
    (hb : b.any e.showsOverride = false) : promoted e l d = a ++ x :: d :: (b ++ post) := by
  have hrest : (b ++ post).any e.showsOverride = false := by rw [List.any_append, hb, hpost]; rfl
  have hjoin : joinOverride e.showsOverride l.inFlight (pre ++ post) d = (a ++ [x]) ++ d :: (b ++ post) := by
    rw [hpre, List.append_assoc, List.cons_append, joinOverride_behind hx hrest]
    simp
  rw [promoted_moves hq hd hjoin (by simp [hpre])]
  simp

theorem promoted_front (hq : l.queue = pre ++ d :: post) (hd : d ∉ pre) (hpre : pre.any e.showsOverride = false)
    (hpost : post.any e.showsOverride = false) (hfly : l.inFlight = none) : promoted e l d = d :: (pre ++ post) := by
  have hnone : (pre ++ post).any e.showsOverride = false := by rw [List.any_append, hpre, hpost]; rfl
  refine promoted_moves (ahead := []) hq hd ?_ rfl
  rw [hfly, joinOverride_front hnone]
  rfl

theorem promoted_flying {x : Nat} {rest : List Nat} (hq : l.queue = pre ++ d :: post) (hd : d ∉ pre)
    (hpre : pre.any e.showsOverride = false) (hpost : post.any e.showsOverride = false) (hfly : l.inFlight = some x)
    (hx : pre = x :: rest) (hrest : x ∉ rest ++ post) : promoted e l d = x :: d :: (rest ++ post) := by
  have hnone : (x :: (rest ++ post)).any e.showsOverride = false := by
    rw [← List.cons_append, ← hx, List.any_append, hpre, hpost]
    rfl
  refine promoted_moves (ahead := [x]) hq hd ?_ hx
  rw [hfly, hx, List.cons_append, joinOverride_flying hnone hrest]
  rfl

end Promoted

/-! ## The mark of a queued display that is not in flight -/

section QueuedMark
variable {e : Engines} {d : Nat} {f : Face}

/-- A promotion looks at which displays show an override slot, and at no other thing of the engines. -/
theorem promoted_congr {e e' : Engines} (h : e'.showsOverride = e.showsOverride) (l : Link) (d : Nat) :
    promoted e' l d = promoted e l d := by
  unfold promoted
  rw [h]

/-- The mark of a display whose layer has not become OVERRIDE leaves the links alone. -/
theorem changeMark_stays (hf : e.faceOf d = some f) (hq : d ∈ (e.linkOf f.link).queue)
    (hfly : (e.linkOf f.link).inFlight ≠ some d) : (e.changeMark d false).link = e.link := by
  have hc : (e.linkOf f.link).queue.contains d = true := by simpa using hq
  unfold Engines.changeMark
  rw [hf]
  dsimp only
  split
  · refine (congrArg Engines.link (if_neg hfly)).trans ?_
    refine (congrArg Engines.link (if_pos hc)).trans ?_
    exact (congrArg Engines.link (if_neg Bool.false_ne_true)).trans rfl
  · rfl

/-- The engines once a queued display has moved to its joining position. -/
def movedUp (e : Engines) (d : Nat) (n : Fin 8) : Engines :=
  (e.storeFace d fun f => { f with waitText := none }).onLink n fun l =>
    { l with queue := promoted (e.storeFace d fun f => { f with waitText := none }) l d }

theorem changeMark_rises (hf : e.faceOf d = some f) (hon : e.online d = true) (hq : d ∈ (e.linkOf f.link).queue)
    (hfly : (e.linkOf f.link).inFlight ≠ some d) : e.changeMark d true = movedUp e d f.link := by
  have hc : (e.linkOf f.link).queue.contains d = true := by simpa using hq
  have hon' : (e.storeFace d fun f => { f with waitText := none }).online d = true := hon
  unfold Engines.changeMark
  rw [hf]
  refine (if_pos hon').trans ?_
  refine (if_neg hfly).trans ?_
  exact (if_pos hc).trans (if_pos rfl)

end QueuedMark

/-! ## The commands -/

section Closing
variable {s : State} {n : Fin 8} {fr : Frame}

theorem closingFrame_eq {l : Link} (h : l.frame = some fr) (c : Closing) :
    l.closingFrame c = if fr.closing = c then some fr else none := by
  unfold Link.closingFrame
  rw [h]
  by_cases hc : fr.closing = c <;> simp [Option.filter, hc]

theorem exec_frameComplete_last (hup : s.resetLow = false) (hfr : (s.eng.linkOf n).frame = some fr)
    (hc : fr.closing = .last) :
    exec (.frameComplete n) s = .next { s with eng := s.eng.completeFrame n fr } := by
  refine (whenUp_next (fun s => s.frameComplete n) hup).trans ?_
  unfold State.frameComplete
  rw [closingFrame_eq hfr, if_pos hc]
  rfl

theorem exec_frameComplete_other (hup : s.resetLow = false) (hfr : (s.eng.linkOf n).frame = some fr)
    (hc : fr.closing ≠ .last) : exec (.frameComplete n) s = .next s := by
  refine (whenUp_next (fun s => s.frameComplete n) hup).trans ?_
  unfold State.frameComplete
  rw [closingFrame_eq hfr, if_neg hc]

theorem exec_abortBlockSent_abort (hup : s.resetLow = false) (hfr : (s.eng.linkOf n).frame = some fr)
    (hc : fr.closing = .abort) :
    exec (.abortBlockSent n) s = .next { s with eng := s.eng.abortFrame n fr } := by
  refine (whenUp_next (fun s => s.abortBlockSent n) hup).trans ?_
  unfold State.abortBlockSent
  rw [closingFrame_eq hfr, if_pos hc]
  rfl

theorem exec_abortBlockSent_other (hup : s.resetLow = false) (hfr : (s.eng.linkOf n).frame = some fr)
    (hc : fr.closing ≠ .abort) : exec (.abortBlockSent n) s = .next s := by
  refine (whenUp_next (fun s => s.abortBlockSent n) hup).trans ?_
  unfold State.abortBlockSent
  rw [closingFrame_eq hfr, if_neg hc]

end Closing

/-! ## A change of the face of a queued display -/

section FaceChange
variable {e : Engines} {shown : Vector OverrideSlot 4} {d : Nat} {f : Face} {g : Face → Face}

/-- The visible layer becomes OVERRIDE. -/
def Visible.rises (before after : Visible) : Bool := before.layer != .override && after.layer == .override

theorem updFaceFrom_same (hf : e.faceOf d = some f) (h : (g f).visible e.face.slots = f.visible shown) :
    e.updFaceFrom shown d g = e.storeFace d g := by
  unfold Engines.updFaceFrom
  rw [hf]
  exact if_pos h

theorem updFaceFrom_marks (hf : e.faceOf d = some f) (h : (g f).visible e.face.slots ≠ f.visible shown) :
    e.updFaceFrom shown d g =
      (e.storeFace d g).changeMark d ((f.visible shown).rises ((g f).visible e.face.slots)) := by
  unfold Engines.updFaceFrom
  rw [hf]
  exact if_neg h

theorem rises_iff (before after : Visible) :
    before.rises after = true ↔ before.layer ≠ .override ∧ after.layer = .override := by
  unfold Visible.rises
  rw [Bool.and_eq_true, bne_iff_ne, beq_iff_eq]

end FaceChange

/-- A queued display that is not in flight moves in its queue exactly when its visible layer becomes OVERRIDE. -/
theorem updFaceFrom_queue {e : Engines} {shown : Vector OverrideSlot 4} {d : Nat} {f : Face} {g : Face → Face}
    (hf : e.faceOf d = some f) (hlink : (g f).link = f.link) (hon : e.online d = true)
    (hq : d ∈ (e.linkOf f.link).queue) (hfly : (e.linkOf f.link).inFlight ≠ some d) (n : Fin 8) :
    (e.updFaceFrom shown d g).linkOf n =
      if (f.visible shown).rises ((g f).visible e.face.slots) = true ∧ f.link = n then
        { e.linkOf n with queue := promoted (e.updFaceFrom shown d g) (e.linkOf n) d } else e.linkOf n := by
  by_cases hsame : (g f).visible e.face.slots = f.visible shown
  · have hno : ¬ ((f.visible shown).rises ((g f).visible e.face.slots) = true ∧ f.link = n) := by
      rw [hsame, rises_iff]
      exact fun h => h.1.1 h.1.2
    rw [updFaceFrom_same hf hsame, if_neg hno]
    rfl
  · rw [updFaceFrom_marks hf hsame]
    have hg : (e.storeFace d g).faceOf d = some (g f) := by rw [faceOf_storeFace, if_pos rfl, hf]; rfl
    have hq' : d ∈ ((e.storeFace d g).linkOf (g f).link).queue := by rw [hlink]; exact hq
    have hfly' : ((e.storeFace d g).linkOf (g f).link).inFlight ≠ some d := by rw [hlink]; exact hfly
    cases hrise : (f.visible shown).rises ((g f).visible e.face.slots) with
    | false =>
      rw [if_neg (fun h => Bool.false_ne_true h.1)]
      unfold Engines.linkOf
      rw [changeMark_stays hg hq' hfly']
      rfl
    | true =>
      rw [changeMark_rises hg hon hq' hfly', hlink]
      unfold movedUp
      rw [Engines.linkOf_onLink]
      by_cases hn : f.link = n
      · rw [if_pos hn, if_pos ⟨rfl, hn⟩]
        exact congrArg (fun q => { e.linkOf n with queue := q }) (promoted_congr rfl _ d)
      · rw [if_neg hn, if_neg fun h => hn h.2]
        rfl

/-- Settles O48: the two ends of a frame are its closings; the joining position and the promotion are said for a queue cut
where the display goes. -/
theorem frameEndsWithItsLastBlock : Obligations.FrameEndsWithItsLastBlock := by
  refine ⟨fun s n fr hup hfr => ?_, fun e l d => ⟨joined_plain e l d, fun hd hq hfly => ?_, fun x rest hd hq hnone hfly hx => ?_,
    fun pre x rest hd hq hx hrest => ?_⟩, ?_, fun e l d pre post hq hd _ => ⟨promoted_stays hq hd,
      fun a x b hpost hpre hx hb => promoted_behind hq hd hpost hpre hx hb, promoted_front hq hd,
      fun x rest hpre hpost hfly hx hrest => promoted_flying hq hd hpre hpost hfly hx hrest⟩⟩
  · exact ⟨exec_frameComplete_last hup hfr, exec_abortBlockSent_abort hup hfr, exec_frameComplete_other hup hfr,
      exec_abortBlockSent_other hup hfr⟩
  · rw [joined_override e l d hd, hfly, joinOverride_front hq]
  · rw [hq] at hnone
    rw [joined_override e l d hd, hfly, hq, joinOverride_flying hnone hx]
  · rw [joined_override e l d hd, hq, joinOverride_behind hx hrest]
  · intro e shown d f g hf hlink hon hq hfly before after t rises
    have ht : ∀ n, t.linkOf n = _ := updFaceFrom_queue (shown := shown) hf hlink hon hq hfly
    refine ⟨fun n hn => (ht n).trans (if_neg fun h => hn h.2.symm), ?_, fun hr => ?_, fun hr => ?_⟩
    · rw [ht f.link]
      split <;> rfl
    · rw [ht f.link, if_pos ⟨(rises_iff _ _).2 hr, rfl⟩]
    · rw [ht f.link, if_neg fun h => hr ((rises_iff _ _).1 h.1)]

end Sys2Proof.Machine

/-! SUPPORT. Which commands can change the settings, the window descriptors, the control block's place and the ring setup
(R154, R162, R168, R172). -/

namespace Sys2Proof.Machine

/-- Between two states of a command, each record that the command does not commit stands. -/
structure State.KeepsSetup (c : Instr) (s t : State) : Prop where
  settings : c ≠ .settingsCommit → t.asm.settings = s.asm.settings
  windows : c ≠ .descriptorCommit → t.path.windows = s.path.windows
  reloc : c ≠ .relocationCommit → t.path.reloc = s.path.reloc
  ring : c ≠ .ringSetupCommit → t.ring.setup = s.ring.setup

namespace State.KeepsSetup

variable {c : Instr}

theorem of_eq {s t : State} (hsettings : t.asm.settings = s.asm.settings) (hwindows : t.path.windows = s.path.windows)
    (hreloc : t.path.reloc = s.path.reloc) (hring : t.ring.setup = s.ring.setup) : KeepsSetup c s t :=
  ⟨fun _ => hsettings, fun _ => hwindows, fun _ => hreloc, fun _ => hring⟩

theorem refl (s : State) : KeepsSetup c s s := of_eq rfl rfl rfl rfl

theorem trans {s t u : State} (h : KeepsSetup c s t) (k : KeepsSetup c t u) : KeepsSetup c s u :=
  ⟨fun hc => (k.settings hc).trans (h.settings hc), fun hc => (k.windows hc).trans (h.windows hc),
    fun hc => (k.reloc hc).trans (h.reloc hc), fun hc => (k.ring hc).trans (h.ring hc)⟩

theorem foldl {α : Type} (op : State → α → State) (h : ∀ s x, KeepsSetup c s (op s x)) (l : List α) (s : State) :
    KeepsSetup c s (l.foldl op s) :=
  foldl_inv (fun t => KeepsSetup c s t) op (fun t x ht => ht.trans (h t x)) l s (refl s)

theorem onEngines {s t : State} (h : s.ActsOnEngines t) : KeepsSetup c s t := by
  obtain ⟨_, _, rfl⟩ := h
  exact of_eq rfl rfl rfl rfl

/-! ### The port and the reports -/

theorem servePart (s : State) : KeepsSetup c s s.servePart := by
  unfold State.servePart
  split
  · exact of_eq rfl rfl rfl rfl
  · split
    · exact of_eq rfl rfl rfl rfl
    · exact refl s

theorem arbitrate (s : State) : KeepsSetup c s s.arbitrate := by
  unfold State.arbitrate
  split
  · exact refl s
  · exact servePart s
  · split
    · split
      · exact of_eq rfl rfl rfl rfl
      · exact servePart s
    · exact of_eq rfl rfl rfl rfl

theorem arbitrated {s t : State} (h : KeepsSetup c s t) : KeepsSetup c s t.arbitrate := h.trans (arbitrate t)

theorem freePort {s t : State} (h : KeepsSetup c s t) : KeepsSetup c s t.freePort :=
  h.trans (arbitrated (of_eq rfl rfl rfl rfl))

theorem forward {s t : State} (h : KeepsSetup c s t) (a : Access) : KeepsSetup c s (t.forward a) :=
  h.trans (arbitrated (of_eq rfl rfl rfl rfl))

theorem unhold (s : State) (h : Held) (items : List Item) : KeepsSetup c s (s.unhold h items) := by
  refine forward ?_ _
  exact of_eq rfl rfl rfl rfl

theorem issue {s t : State} (h : KeepsSetup c s t) (a : Access) : KeepsSetup c s (t.issue a) :=
  h.trans (arbitrated (of_eq rfl rfl rfl rfl))

theorem report (s : State) (ev : Event) : KeepsSetup c s (s.report ev) := of_eq rfl rfl rfl rfl

theorem makeStale (s : State) (w : Fin 5) : KeepsSetup c s (s.makeStale w) := by
  unfold State.makeStale
  split
  · exact refl s
  · exact of_eq rfl rfl rfl rfl

theorem loseOn (s : State) (items : List Item) (w : Fin 5) : KeepsSetup c s (s.loseOn items w) := by
  unfold State.loseOn
  split
  · exact refl s
  · split
    · exact report s _
    · exact makeStale s w

theorem tellFilled {s t : State} (h : KeepsSetup c s t) (x : Option Tag) : KeepsSetup c s (t.tellFilled x) := by
  cases x with
  | none => exact h
  | some tag => exact h.trans (of_eq rfl rfl rfl rfl)

theorem tellReady {s t : State} (h : KeepsSetup c s t) (x : Option (Fin 8 × Nat)) : KeepsSetup c s (t.tellReady x) := by
  cases x with
  | none => exact h
  | some bank => exact h.trans (of_eq rfl rfl rfl rfl)

/-! ### Commits and commands -/

theorem judge {α : Type} [DecidableEq α] (s : State) (p : RecordPlace) (staged : α) (accepted : Option α)
    (check : Option Reason) {accept : State → State} (h : KeepsSetup c s (accept s.handedOver)) :
    KeepsSetup c s (s.judge p staged accepted check accept) := by
  rcases s.judge_cases p staged accepted check accept with e | ⟨why, e⟩ | e
  · exact e ▸ of_eq rfl rfl rfl rfl
  · exact e ▸ of_eq rfl rfl rfl rfl
  · exact e ▸ h

theorem rewindow (s : State) (w : Fin 5) (r : Rec4) : KeepsSetup c s (s.rewindow w r) := by
  obtain ⟨ends, port, fetch, ht⟩ := s.rewindow_frame w r
  exact ht ▸ of_eq rfl rfl rfl rfl

theorem acceptDescriptor (s : State) (w : Fin 5) (r : Rec4) :
    KeepsSetup .descriptorCommit s (s.handedOver.acceptDescriptor w r) := by
  have hset : KeepsSetup .descriptorCommit s (s.handedOver.setWindow w r) :=
    ⟨fun _ => rfl, fun h => (h rfl).elim, fun _ => rfl, fun _ => rfl⟩
  unfold State.acceptDescriptor
  dsimp only
  split
  · exact hset
  · exact hset.trans (rewindow _ w r)

theorem acceptLanguage (s : State) (l : Fin 16) (r : Rec4) : KeepsSetup c s (s.handedOver.acceptLanguage l r) := by
  unfold State.acceptLanguage
  dsimp only
  split <;> exact of_eq rfl rfl rfl rfl

theorem restartCommand (s : State) : KeepsSetup c s s.restartCommand := by
  unfold State.restartCommand
  split
  · split
    · have h1 : KeepsSetup c s (s.handedOver.restartFetch.engines fun A e => e.restarted A) := of_eq rfl rfl rfl rfl
      exact (h1.trans (foldl State.makeStale makeStale stateWindows _)).trans (report _ _)
    · exact refl s
  · exact refl s

theorem sweepCommand (s : State) : KeepsSetup c s s.sweepCommand := by
  unfold State.sweepCommand
  split
  · split
    · unfold State.sweep
      split <;> exact of_eq rfl rfl rfl rfl
    · exact refl s
  · exact refl s

theorem loadGlyphsCommand (s : State) : KeepsSetup c s s.loadGlyphsCommand := by
  unfold State.loadGlyphsCommand
  split
  · split
    · unfold State.loadGlyphs
      split <;> exact of_eq rfl rfl rfl rfl
    · exact refl s
  · exact refl s

/-! ### The Record Assembler and the Fetch Unit -/

theorem intakeDrain (s : State) : KeepsSetup c s s.intakeDrain := by
  unfold State.intakeDrain
  split
  · exact of_eq (State.Derived.takeItem_settings _ _ _) rfl rfl rfl
  · exact refl s
  · exact refl s

theorem sweepCompletion (s : State) : KeepsSetup c s s.sweepCompletion := by
  unfold State.sweepCompletion
  split
  · split
    · unfold State.endSweep
      split <;> exact of_eq rfl rfl rfl rfl
    · exact refl s
  · exact refl s
  · exact refl s

theorem sweepDelivered (s : State) (r : SweepRead) : KeepsSetup c s (s.sweepDelivered r) := by
  unfold State.sweepDelivered
  dsimp only
  split
  · exact refl s
  · exact of_eq rfl rfl rfl rfl
  · unfold State.sweepReadEnd
    split
    · exact of_eq rfl rfl rfl rfl
    · split <;> exact of_eq rfl rfl rfl rfl

theorem channelTake (s : State) (ch : Fin 4) : KeepsSetup c s (s.channelTake ch) := by
  unfold State.channelTake
  split
  · refine arbitrated (tellFilled ?_ _)
    exact of_eq rfl rfl rfl rfl
  · exact refl s
  · exact refl s

theorem sweepReadIssue (s : State) (ch : Fin 4) : KeepsSetup c s (s.sweepReadIssue ch) := by
  unfold State.sweepReadIssue
  split
  · split
    · exact arbitrated (of_eq rfl rfl rfl rfl)
    · exact refl s
  all_goals exact refl s

theorem fetchDelivered (s : State) (ch : Fin 4) (addr count : Nat) (discard : Bool) :
    KeepsSetup c s (s.fetchDelivered ch addr count discard) := by
  unfold State.fetchDelivered
  split
  · exact refl s
  · exact of_eq rfl rfl rfl rfl

theorem outSlot (s : State) (n : Fin 8) : KeepsSetup c s (s.outSlot n) := by
  unfold State.outSlot
  dsimp only
  split
  · exact of_eq rfl rfl rfl rfl
  · exact refl s

/-! ### The ring -/

theorem ring_compare_setup (r : Ring) (addr count : Nat) : (r.compare addr count).setup = r.setup := by
  induction count generalizing r addr with
  | zero => rfl
  | succ n ih =>
    unfold Ring.compare
    rw [ih]
    split <;> rfl

theorem readDone (s : State) (addr count : Nat) : KeepsSetup c s (s.readDone addr count) :=
  of_eq rfl rfl rfl (ring_compare_setup s.ring addr count)

end State.KeepsSetup

/-- What a command does to the settings, the descriptors, the control block's place and the ring setup. -/
theorem State.act_setup (s : State) {c : Instr} (hc : c ≠ .powerOnReset) : State.KeepsSetup c s (s.act c) := by
  cases hengines : engineCommand c with
  | true => exact .onEngines (act_actsOnEngines s hengines)
  | false =>
    cases c with
    | powerOnReset => exact (hc rfl).elim
    | usTick => exact .of_eq rfl rfl rfl rfl
    | msTick =>
      show KeepsSetup _ s s.msTick
      unfold State.msTick
      split <;> exact .of_eq rfl rfl rfl rfl
    | upstreamWrite addr beats =>
      show KeepsSetup _ s (s.takeWrite _ _)
      unfold State.takeWrite
      dsimp only
      split
      · split
        · exact .of_eq rfl rfl rfl rfl
        · exact .forward (.refl s) _
      · exact .refl s
    | upstreamRead addr count =>
      show KeepsSetup _ s (s.takeRead _ _)
      unfold State.takeRead
      split
      · exact .forward (.refl s) _
      · exact .refl s
    | hostWriteComplete =>
      show KeepsSetup _ s s.hostWriteComplete
      unfold State.hostWriteComplete
      split
      · exact .freePort (.of_eq rfl rfl rfl rfl)
      all_goals exact .refl s
    | hostReadComplete =>
      show KeepsSetup _ s s.hostReadComplete
      unfold State.hostReadComplete
      split
      · exact .freePort (.readDone s _ _)
      all_goals exact .refl s
    | holdoffEnd =>
      show KeepsSetup _ s s.holdoffEnd
      unfold State.holdoffEnd
      split
      · split
        · exact .unhold s _ _
        · exact .refl s
      · exact .refl s
    | holdoffExpiry =>
      show KeepsSetup _ s s.holdoffExpiry
      unfold State.holdoffExpiry
      split
      · split
        · exact (KeepsSetup.unhold s _ _).trans (.foldl _ (fun u w => .loseOn u _ w) _ _)
        · exact .refl s
      · exact .refl s
    | intakeDrain => exact .intakeDrain s
    | relocationCommit =>
      show KeepsSetup _ s s.relocationCommit
      unfold State.relocationCommit
      split
      · exact .judge _ _ _ _ _ ⟨fun _ => rfl, fun _ => rfl, fun h => (h rfl).elim, fun _ => rfl⟩
      · exact .refl s
    | descriptorCommit =>
      show KeepsSetup _ s s.descriptorCommit
      unfold State.descriptorCommit
      split
      · exact .judge _ _ _ _ _ (.acceptDescriptor s _ _)
      · exact .refl s
    | settingsCommit =>
      show KeepsSetup _ s s.settingsCommit
      unfold State.settingsCommit
      split
      · exact .judge _ _ _ _ _ ⟨fun h => (h rfl).elim, fun _ => rfl, fun _ => rfl, fun _ => rfl⟩
      · exact .refl s
    | languageCommit =>
      show KeepsSetup _ s s.languageCommit
      unfold State.languageCommit
      split
      · exact .judge _ _ _ _ _ (.acceptLanguage s _ _)
      · exact .refl s
    | ringSetupCommit =>
      show KeepsSetup _ s s.ringSetupCommit
      unfold State.ringSetupCommit
      split
      · exact .judge _ _ _ _ _ ⟨fun _ => rfl, fun _ => rfl, fun _ => rfl, fun h => (h rfl).elim⟩
      · exact .refl s
    | restart => exact .restartCommand s
    | sweep => exact .sweepCommand s
    | loadGlyphs => exact .loadGlyphsCommand s
    | fetchChannelTake ch => exact .channelTake s ch
    | sweepReadIssue ch => exact .sweepReadIssue s ch
    | sweepReadComplete =>
      show KeepsSetup _ s s.sweepReadComplete
      unfold State.sweepReadComplete
      split
      · exact .freePort (.sweepDelivered s _)
      all_goals exact .refl s
    | sweepCompletion => exact .sweepCompletion s
    | textFillTransferComplete ch =>
      refine .arbitrated (.tellFilled ?_ _)
      exact .of_eq rfl rfl rfl rfl
    | glyphTransferComplete ch =>
      refine .arbitrated (.tellReady ?_ _)
      exact .of_eq rfl rfl rfl rfl
    | outSlot n => exact .outSlot s n
    | reportWriteIssue =>
      show KeepsSetup _ s s.reportIssue
      unfold State.reportIssue
      split
      · split
        · exact .issue (.refl s) _
        · exact .refl s
      all_goals exact .refl s
    | reportWriteComplete =>
      show KeepsSetup _ s s.reportComplete
      unfold State.reportComplete
      split
      · dsimp only
        split <;> exact .freePort (.of_eq rfl rfl rfl rfl)
      all_goals exact .refl s
    | statusMirrorWrite =>
      show KeepsSetup _ s s.mirrorIssue
      unfold State.mirrorIssue
      split
      · refine .issue ?_ _
        exact .of_eq rfl rfl rfl rfl
      · exact .refl s
    | resetNFall => exact .of_eq rfl rfl rfl rfl
    | fetchReadComplete =>
      show KeepsSetup _ s s.fetchReadComplete
      unfold State.fetchReadComplete
      split
      · exact .freePort (.fetchDelivered s _ _ _ _)
      all_goals exact .refl s
    | statusMirrorWriteComplete =>
      show KeepsSetup _ s s.mirrorComplete
      unfold State.mirrorComplete
      split
      · exact .freePort (.of_eq rfl rfl rfl rfl)
      all_goals exact .refl s
    | _ => cases hengines

end Sys2Proof.Machine

/-! SUPPORT. Which commands can change the accepted records that the engines hold. -/

namespace Sys2Proof.Machine

/-! ## The records of the contexts -/

/-- Every context keeps its accepted record. -/
def Engines.KeepsContexts (e e' : Engines) : Prop := ∀ k, (e'.ctx k).accepted = (e.ctx k).accepted

theorem accepted_atFirst (ready : Fin 16 → Bool) (rot : List (Fin 16)) (x : Context) :
    (x.atFirst ready rot).accepted = x.accepted := by
  unfold Context.atFirst
  split <;> rfl

theorem accepted_advance (ready : Fin 16 → Bool) (r : Rec4) (x : Context) :
    (x.advance ready r).1.accepted = x.accepted := by
  unfold Context.advance
  dsimp only
  split
  · rfl
  · split
    · exact accepted_atFirst ready _ x
    · split
      · rfl
      · exact accepted_atFirst ready _ _

theorem accepted_retarget (faces : Tab Face) (d : Nat) (x : Context) : (retarget faces d x).accepted = x.accepted := by
  unfold retarget
  split <;> rfl

namespace Engines.KeepsContexts

theorem of_play {e e' : Engines} (h : e'.play = e.play) : e.KeepsContexts e' := fun k => by
  unfold Engines.ctx
  rw [h]

theorem refl (e : Engines) : e.KeepsContexts e := fun _ => rfl

theorem trans {a b c : Engines} (h : a.KeepsContexts b) (k : b.KeepsContexts c) : a.KeepsContexts c :=
  fun i => (k i).trans (h i)

theorem foldl {α : Type} (op : Engines → α → Engines) (h : ∀ (e : Engines) (x : α), e.KeepsContexts (op e x)) (l : List α)
    (e : Engines) : e.KeepsContexts (l.foldl op e) :=
  foldl_inv (fun b => e.KeepsContexts b) op (fun b x hb => hb.trans (h b x)) l e (refl e)

theorem onCtx (e : Engines) (c : Fin 16) (g : Context → Context) (hg : (g (e.ctx c)).accepted = (e.ctx c).accepted) :
    e.KeepsContexts (e.onCtx c g) := by
  intro k
  rw [ctx_onCtx]
  split
  · next h => subst h; exact hg
  · rfl

theorem claimDwell (A : Ambient) (e : Engines) (c : Fin 16) (n : Nat) : e.KeepsContexts (e.claimDwell A c n) := by
  unfold Engines.claimDwell
  dsimp only
  split
  · rename_i tm id _
    exact onCtx (e.setTimers tm) c (fun x => { x with place := some id }) rfl
  · exact onCtx e c (fun x => { x with place := none }) rfl

theorem releaseDwell (e : Engines) (c : Fin 16) : e.KeepsContexts (e.releaseDwell c) :=
  (of_play rfl).trans (onCtx (e.release _) c _ rfl)

theorem suspend (A : Ambient) (e : Engines) (c : Fin 16) : e.KeepsContexts (e.suspend A c) :=
  (releaseDwell e c).trans (onCtx (e.releaseDwell c) c _ rfl)

theorem resume (A : Ambient) (e : Engines) (c : Fin 16) : e.KeepsContexts (e.resume A c) :=
  (onCtx e c _ rfl).trans (claimDwell A _ c _)

theorem targetEvent (A : Ambient) (e : Engines) (c : Fin 16) : e.KeepsContexts (e.targetEvent A c) := by
  unfold Engines.targetEvent
  dsimp only
  split
  · split
    · exact suspend A e c
    · split
      · exact claimDwell A e c _
      · exact refl e
  · split
    · exact resume A e c
    · exact refl e
  · exact refl e
  · exact refl e

theorem targetNotice (A : Ambient) (e : Engines) (d : Nat) : e.KeepsContexts (e.targetNotice A d) := by
  have hretarget : e.KeepsContexts
      (e.setPlay ((List.finRange 16).foldl (fun p c => upd p c (retarget e.face.faces d)) e.play)) := by
    refine foldl_inv (fun p : Vector Context 16 => e.KeepsContexts (e.setPlay p)) _ (fun p c hp => ?_) _ e.play (refl e)
    exact hp.trans (onCtx (e.setPlay p) c _ (accepted_retarget _ _ _))
  unfold Engines.targetNotice
  extract_lets old e1 e2
  have hevents : e1.KeepsContexts e2 := foldl _ (fun b c => by
    split
    · exact refl b
    · exact targetEvent A b c) _ e1
  exact (hretarget.trans hevents).trans (of_play (by simp))

theorem coverNotice (A : Ambient) (e : Engines) (ds : List Nat) : e.KeepsContexts (e.coverNotice A ds) := by
  unfold Engines.coverNotice
  extract_lets e1
  have hevents : e.KeepsContexts e1 := foldl _ (fun b c => by
    split
    · exact targetEvent A b c
    · exact refl b) _ e
  exact hevents.trans (of_play (by simp))

theorem coverEventFrom (A : Ambient) (e : Engines) (shown : Vector OverrideSlot 4) (ds : List Nat) :
    e.KeepsContexts (e.coverEventFrom A shown ds) := by
  unfold Engines.coverEventFrom
  extract_lets moves e1 named
  have hmoves : e.KeepsContexts e1 :=
    foldl (fun acc (m : CoverMove) => acc.moveCover A shown m.display m.old m.new m.cls) (fun b m => of_play (by simp)) _ e
  split
  · exact hmoves
  · exact hmoves.trans (coverNotice A e1 named)

theorem rederive (A : Ambient) (e : Engines) : e.KeepsContexts (e.rederive A) := by
  unfold Engines.rederive
  extract_lets moved e1 e2
  have h1 : e.KeepsContexts e1 := foldl (fun acc d => acc.updFace d (refreshed A acc)) (fun b d => of_play (by simp)) _ e
  exact (h1.trans (coverEventFrom A e1 _ moved)).trans (foldl _ (fun b d => targetNotice A b d) _ e2)

theorem ctxReady (A : Ambient) (e : Engines) (l c : Fin 16) : e.KeepsContexts (e.ctxReady A l c) := by
  unfold Engines.ctxReady
  dsimp only
  split
  · have hfirst : e.KeepsContexts (e.onCtx c (Context.atFirst A.ready ((e.ctx c).accepted.getD Rec4.zero).ploRotation)) :=
      onCtx e c _ (accepted_atFirst _ _ _)
    exact hfirst.trans (of_play (by simp))
  · exact refl e

theorem expireDwell (A : Ambient) (e : Engines) (c : Fin 16) (p : TimerPlace) :
    e.KeepsContexts (e.expireDwell A c p) := by
  unfold Engines.expireDwell
  extract_lets x r next e1
  have h1 : e.KeepsContexts e1 := onCtx e c _ (accepted_advance _ _ _)
  split
  · split
    · unfold Engines.completeCtx
      dsimp only
      have hdone : (e1.releaseDwell c).KeepsContexts
          ((e1.releaseDwell c).onCtx c fun x => { x with state := .done, targets := [] }) := onCtx _ c _ rfl
      exact ((h1.trans (releaseDwell e1 c)).trans hdone).trans (of_play (by simp))
    · exact h1.trans (of_play (by simp))
  · exact refl e

end Engines.KeepsContexts

/-! ## The records of the engines -/

/-- Between two states of the engines at a command, each record that the command does not commit, clear or restart
stands. -/
structure Engines.KeepsRecords (c : Instr) (e e' : Engines) : Prop where
  groups : c ≠ .groupCommit → e'.ind.groups = e.ind.groups
  setups : c ≠ .linkSetupCommit → ∀ n, (e'.linkOf n).setup = (e.linkOf n).setup
  slots : c ≠ .overrideSlotCommit → ∀ k, (slotOf e'.face.slots k).record = (slotOf e.face.slots k).record
  cars : c ≠ .descriptorCommit → c ≠ .restart → c ≠ .carCommit →
    ∀ k, (e'.ind.carOf k).accepted = (e.ind.carOf k).accepted
  labels : c ≠ .descriptorCommit → c ≠ .restart → c ≠ .labelCommit → e'.ind.labels = e.ind.labels
  roster : c ≠ .descriptorCommit → c ≠ .restart → c ≠ .rosterCommit → e'.link.roster = e.link.roster
  contexts : c ≠ .descriptorCommit → c ≠ .restart → c ≠ .playoutCommit → e.KeepsContexts e'

namespace Engines.KeepsRecords

variable {c : Instr}

theorem refl (e : Engines) : KeepsRecords c e e :=
  ⟨fun _ => rfl, fun _ _ => rfl, fun _ _ => rfl, fun _ _ _ _ => rfl, fun _ _ _ => rfl, fun _ _ _ => rfl,
    fun _ _ _ => .refl e⟩

theorem trans {a b d : Engines} (h : KeepsRecords c a b) (k : KeepsRecords c b d) : KeepsRecords c a d where
  groups hc := (k.groups hc).trans (h.groups hc)
  setups hc n := (k.setups hc n).trans (h.setups hc n)
  slots hc n := (k.slots hc n).trans (h.slots hc n)
  cars h1 h2 h3 n := (k.cars h1 h2 h3 n).trans (h.cars h1 h2 h3 n)
  labels h1 h2 h3 := (k.labels h1 h2 h3).trans (h.labels h1 h2 h3)
  roster h1 h2 h3 := (k.roster h1 h2 h3).trans (h.roster h1 h2 h3)
  contexts h1 h2 h3 := (h.contexts h1 h2 h3).trans (k.contexts h1 h2 h3)

theorem foldl {α : Type} (op : Engines → α → Engines) (h : ∀ e x, KeepsRecords c e (op e x)) (l : List α) (e : Engines) :
    KeepsRecords c e (l.foldl op e) :=
  foldl_inv (fun b => KeepsRecords c e b) op (fun b x hb => hb.trans (h b x)) l e (refl e)

/-- What is kept firm holds the records of all but the contexts. -/
theorem of_firm {e e' : Engines} (h : e'.firm = e.firm) (hctx : e.KeepsContexts e') : KeepsRecords c e e' := by
  have hind : e'.ind = e.ind := congrArg Firm.ind h
  refine ⟨fun _ => by rw [hind], fun _ n => ?_, fun _ k => ?_, fun _ _ _ k => by rw [hind], fun _ _ _ => by rw [hind],
    fun _ _ _ => congrArg Firm.roster h, fun _ _ _ => hctx⟩
  · have hlink : (e'.linkOf n).firm = (e.linkOf n).firm := congrFun (congrArg Firm.links h) n
    exact (congrArg Link.setup hlink :)
  · exact congrArg (fun v => (slotOf v k).record) (congrArg Firm.slots h)

theorem of_keeps {e e' : Engines} (h : e.Keeps e') (hplay : e'.play = e.play) : KeepsRecords c e e' :=
  of_firm h.firm (.of_play hplay)

/-- A change of the signals, the faces, the stops, the displays or what the other engines hold. -/
theorem of_eq {e e' : Engines} (hind : e'.ind = { e.ind with signals := e'.ind.signals })
    (hlinks : e'.link.links = e.link.links) (hroster : e'.link.roster = e.link.roster)
    (hslots : e'.face.slots = e.face.slots) (hplay : e'.play = e.play) : KeepsRecords c e e' := by
  refine ⟨fun _ => by rw [hind], fun _ n => ?_, fun _ k => by rw [hslots], fun _ _ _ k => ?_,
    fun _ _ _ => by rw [hind], fun _ _ _ => hroster, fun _ _ _ => .of_play hplay⟩
  · unfold Engines.linkOf
    rw [hlinks]
  · rw [hind]
    rfl

theorem onLink (e : Engines) (n : Fin 8) (g : Link → Link) (hg : ∀ l, (g l).setup = l.setup := by intros; rfl) :
    KeepsRecords c e (e.onLink n g) := by
  refine ⟨fun _ => rfl, fun _ m => ?_, fun _ _ => rfl, fun _ _ _ _ => rfl, fun _ _ _ => rfl, fun _ _ _ => rfl,
    fun _ _ _ => .of_play rfl⟩
  rw [Engines.linkOf_onLink]
  split
  · exact hg _
  · rfl

theorem onSlot (e : Engines) (k : Fin 4) (g : OverrideSlot → OverrideSlot) (hg : ∀ x, (g x).record = x.record := by intros; rfl) :
    KeepsRecords c e (e.onSlot k g) := by
  refine ⟨fun _ => rfl, fun _ _ => rfl, fun _ j => ?_, fun _ _ _ _ => rfl, fun _ _ _ => rfl, fun _ _ _ => rfl,
    fun _ _ _ => .of_play rfl⟩
  have hslot : slotOf (upd e.face.slots k g) j = if k = j then g (slotOf e.face.slots j) else slotOf e.face.slots j :=
    get_upd _ _ _ _
  show (slotOf (upd e.face.slots k g) j).record = _
  rw [hslot]
  split
  · exact hg _
  · rfl

theorem storeFace (e : Engines) (d : Nat) (g : Face → Face) : KeepsRecords c e (e.storeFace d g) :=
  of_eq rfl rfl rfl rfl rfl

theorem onDisplay (e : Engines) (d : Nat) (g : Display → Display) : KeepsRecords c e (e.onDisplay d g) :=
  of_eq rfl rfl rfl rfl rfl

theorem setDisplays (e : Engines) (t : Tab Display) : KeepsRecords c e (e.setDisplays t) := of_eq rfl rfl rfl rfl rfl

theorem report (A : Ambient) (e : Engines) (ev : Event) : KeepsRecords c e (e.report A ev) := of_eq rfl rfl rfl rfl rfl

theorem onSignal (e : Engines) (k : Fin 48) (g : Signal → Signal) : KeepsRecords c e (e.onSignal k g) :=
  of_eq rfl rfl rfl rfl rfl

theorem join (e : Engines) (n : Fin 8) (d : Nat) : KeepsRecords c e (e.join n d) := onLink e n _

theorem leaveQueue (e : Engines) (n : Fin 8) (d : Nat) : KeepsRecords c e (e.leaveQueue n d) :=
  of_keeps (.leaveQueue e n d) (by simp)

theorem changeMark (e : Engines) (d : Nat) (rise : Bool) : KeepsRecords c e (e.changeMark d rise) :=
  of_keeps (.changeMark e d rise) (by simp)

theorem refreshMark (e : Engines) (d : Nat) : KeepsRecords c e (e.refreshMark d) :=
  of_keeps (.refreshMark e d) (by simp)

theorem updFace (e : Engines) (d : Nat) (g : Face → Face) : KeepsRecords c e (e.updFace d g) :=
  of_firm (Engines.Keeps.updFace_firm e d g) (.of_play (by simp))

theorem updSlot (e : Engines) (k : Fin 4) (g : OverrideSlot → OverrideSlot) (hg : ∀ x, (g x).record = x.record := by intros; rfl) :
    KeepsRecords c e (e.updSlot k g) := by
  unfold Engines.updSlot
  extract_lets before e1
  refine (onSlot e k g hg).trans (foldl _ (fun b x => ?_) _ e1)
  split
  · exact refl b
  · exact changeMark b _ _

theorem rederive (A : Ambient) (e : Engines) : KeepsRecords c e (e.rederive A) :=
  of_firm (Engines.Keeps.rederive_firm A e) (.rederive A e)

theorem coverEventFrom (A : Ambient) (e : Engines) (shown : Vector OverrideSlot 4) (ds : List Nat) :
    KeepsRecords c e (e.coverEventFrom A shown ds) :=
  of_firm (Engines.Keeps.coverEventFrom_firm A e shown ds) (.coverEventFrom A e shown ds)

theorem targetNotice (A : Ambient) (e : Engines) (d : Nat) : KeepsRecords c e (e.targetNotice A d) :=
  of_firm (Engines.Keeps.targetNotice A e d).firm (.targetNotice A e d)

/-! ### Stop lists and arrival signals -/

theorem setStops (e : Engines) (k : Fin 48) (l : List Stop) : KeepsRecords c e (e.setStops k l) :=
  of_eq rfl rfl rfl rfl rfl

theorem dropStops (A : Ambient) (e : Engines) (k : Fin 48) : KeepsRecords c e (e.dropStops A k) := by
  unfold Engines.dropStops
  dsimp only
  split
  · exact refl e
  · exact of_eq rfl rfl rfl rfl rfl

theorem endLantern (e : Engines) (k : Fin 48) : KeepsRecords c e (e.endLantern k) := by
  unfold Engines.endLantern
  dsimp only
  split
  · exact of_eq rfl rfl rfl rfl rfl
  · exact refl e

theorem claimLantern (A : Ambient) (e : Engines) (k : Fin 48) (g : Rec8) (l : Nat) :
    KeepsRecords c e (e.claimLantern A k g l) := by
  unfold Engines.claimLantern
  split
  · exact refl e
  · split <;> exact of_eq rfl rfl rfl rfl rfl

theorem claimGong (A : Ambient) (e : Engines) (k : Fin 48) (dir : Arrow) (l : Nat) :
    KeepsRecords c e (e.claimGong A k dir l) := by
  unfold Engines.claimGong
  split <;> exact of_eq rfl rfl rfl rfl rfl

theorem startSignals (A : Ambient) (e : Engines) (k : Fin 48) (r : Rec4) (g : Fin 8) :
    KeepsRecords c e (e.startSignals A k r g) := by
  unfold Engines.startSignals
  extract_lets group landing e1
  have h1 : KeepsRecords c e e1 := onSignal e k _
  split
  · exact h1
  · extract_lets e2
    have h2 : KeepsRecords c e1 e2 := onSignal e1 k _
    exact (h1.trans h2).trans ((claimLantern A e2 k _ _).trans (claimGong A _ k _ _))

theorem signalTests (A : Ambient) (e : Engines) (k : Fin 48) (r : Rec4) : KeepsRecords c e (e.signalTests A k r) := by
  unfold Engines.signalTests
  extract_lets e1
  have h1 : KeepsRecords c e e1 := by
    show KeepsRecords c e (if _ then _ else _)
    split
    · exact refl e
    · exact endLantern e k
  split
  · split
    · unfold Engines.arrive
      extract_lets x e2
      have h2 : KeepsRecords c e1 e2 := setStops e1 k _
      split
      · exact (h1.trans h2).trans (startSignals A e2 k r _)
      · exact h1.trans h2
    · exact h1
  · exact h1

theorem flash (A : Ambient) (e : Engines) (k : Fin 48) (p : TimerPlace) : KeepsRecords c e (e.flash A k p) := by
  unfold Engines.flash
  split
  · exact (onSignal e k _).trans (rederive A _)
  · exact refl e

theorem stroke (e : Engines) (k : Fin 48) (p : TimerPlace) : KeepsRecords c e (e.stroke k p) := by
  unfold Engines.stroke
  extract_lets x ds e1
  split
  · exact (foldl _ (fun b d => updFace b d _) ds e).trans (onSignal e1 k _)
  · exact refl e

/-! ### Override slots -/

theorem claimOverride (A : Ambient) (e : Engines) (k : Fin 4) : KeepsRecords c e (e.claimOverride A k) := by
  unfold Engines.claimOverride
  split
  · rename_i tm id _
    refine KeepsRecords.trans (b := e.setTimers tm) (of_eq rfl rfl rfl rfl rfl) ?_
    exact onSlot _ k _
  · exact report A e _

theorem settlePlace (A : Ambient) (e : Engines) (k : Fin 4) : KeepsRecords c e (e.settlePlace A k) := by
  unfold Engines.settlePlace
  extract_lets x
  split
  · split
    · exact refl e
    · exact claimOverride A e k
  · refine KeepsRecords.trans (b := e.release x.place) (of_eq rfl rfl rfl rfl rfl) ?_
    exact onSlot _ k _

theorem acceptSlot (A : Ambient) (e : Engines) (k : Fin 4) (r : Rec4) :
    KeepsRecords .overrideSlotCommit e (e.acceptSlot A k r) := by
  unfold Engines.acceptSlot
  extract_lets before e1 e2 kept e3
  have h1 : KeepsRecords .overrideSlotCommit e e1 := ⟨fun _ => rfl, fun _ _ => rfl, fun h => (h rfl).elim,
    fun _ _ _ _ => rfl, fun _ _ _ => rfl, fun _ _ _ => rfl, fun _ _ _ => .of_play rfl⟩
  have h2 : KeepsRecords .overrideSlotCommit e1 e2 := coverEventFrom A e1 _ _
  have h3 : KeepsRecords .overrideSlotCommit e2 e3 := foldl _ (fun b x => by
    split
    · exact changeMark b _ _
    · exact refl b) kept e2
  exact ((h1.trans h2).trans h3).trans (settlePlace A e3 k)

theorem languageReady (A : Ambient) (e : Engines) (l : Fin 16) : KeepsRecords c e (e.languageReady A l) := by
  unfold Engines.languageReady
  extract_lets waiting e1 e2
  have h1 : KeepsRecords c e e1 := foldl _ refreshMark waiting e
  have h2 : KeepsRecords c e1 e2 := foldl _ (fun b k => by
    dsimp only
    split
    · exact updSlot b k _
    · exact refl b) _ e1
  refine (h1.trans h2).trans (foldl _ (fun b k => ?_) _ e2)
  exact of_firm (Engines.Keeps.ctxReady A b l k).firm (.ctxReady A b l k)

theorem restarted (A : Ambient) (e : Engines) : KeepsRecords .restart e (e.restarted A) := by
  have hcleared : KeepsRecords .restart e e.cleared := by
    refine ⟨fun _ => rfl, fun _ n => ?_, fun _ _ => rfl, fun _ h => (h rfl).elim, fun _ h => (h rfl).elim,
      fun _ h => (h rfl).elim, fun _ h => (h rfl).elim⟩
    refine foldl_inv (fun v : Vector Link 8 => v[n].setup = (e.linkOf n).setup) _ (fun v k hv => ?_) _ e.link.links rfl
    show (upd v k Link.restarted)[n].setup = _
    rw [get_upd]
    have hsetup : ∀ l : Link, l.restarted.setup = l.setup := fun l => by unfold Link.restarted; split <;> rfl
    split
    · rw [hsetup, hv]
    · exact hv
  refine hcleared.trans (foldl _ (fun b k => ?_) _ e.cleared)
  unfold Engines.restartSlot
  extract_lets b1
  have h1 : KeepsRecords .restart b b1 := updSlot b k _
  split
  · exact h1.trans (claimOverride A b1 k)
  · exact h1

/-! ### Cars, groups, labels -/

theorem acceptCar (A : Ambient) (e : Engines) (k : Fin 48) (r : Rec4) :
    KeepsRecords .carCommit e (e.acceptCar A k r) := by
  unfold Engines.acceptCar
  extract_lets e1 e2 e3
  have h1 : KeepsRecords .carCommit e e1 := ⟨fun _ => rfl, fun _ _ => rfl, fun _ _ => rfl, fun _ _ h => (h rfl).elim,
    fun _ _ _ => rfl, fun _ _ _ => rfl, fun _ _ _ => .of_play rfl⟩
  have h2 : KeepsRecords .carCommit e1 e2 := by
    show KeepsRecords _ e1 (if _ then _ else _)
    split
    · exact dropStops A e1 k
    · exact refl e1
  exact ((h1.trans h2).trans (signalTests A e2 k r)).trans (rederive A e3)

theorem accepted_derived (i : Indication) (x : Car) : (i.derived x).accepted = x.accepted := by
  unfold Indication.derived
  split <;> rfl

theorem acceptGroup (A : Ambient) (e : Engines) (g : Fin 8) (r : Rec8) :
    KeepsRecords .groupCommit e (e.acceptGroup A g r) := by
  have hset : KeepsRecords .groupCommit e (e.setGroup g r) := ⟨fun h => (h rfl).elim, fun _ _ => rfl, fun _ _ => rfl,
    fun _ _ _ _ => rfl, fun _ _ _ => rfl, fun _ _ _ => rfl, fun _ _ _ => .of_play rfl⟩
  have hended : KeepsRecords .groupCommit (e.setGroup g r) (groupEnded e g r) := by
    unfold groupEnded
    split
    · exact foldl _ endLantern _ _
    · exact refl _
  refine ((hset.trans hended).trans ?_).trans (rederive A (groupTaken e g r))
  refine foldl _ (fun b k => ?_) _ _
  refine ⟨fun _ => rfl, fun _ _ => rfl, fun _ _ => rfl, fun _ _ _ n => ?_, fun _ _ _ => rfl, fun _ _ _ => rfl,
    fun _ _ _ => .of_play rfl⟩
  rw [carOf_onCar]
  split
  · exact accepted_derived _ _
  · rfl

theorem rehandPrompts (e : Engines) : KeepsRecords c e e.rehandPrompts := of_keeps (.rehandPrompts e) (by simp)

theorem acceptLabel (A : Ambient) (e : Engines) (f : Nat) (r : Rec4) :
    KeepsRecords .labelCommit e (e.acceptLabel A f r) := by
  have hset : KeepsRecords .labelCommit e (e.setLabels (e.ind.labels.put f r)) := ⟨fun _ => rfl, fun _ _ => rfl,
    fun _ _ => rfl, fun _ _ _ _ => rfl, fun _ _ h => (h rfl).elim, fun _ _ _ => rfl, fun _ _ _ => .of_play rfl⟩
  exact (hset.trans (rederive A _)).trans (rehandPrompts _)

theorem clearCars (A : Ambient) (e : Engines) : KeepsRecords .descriptorCommit e (e.clearCars A) := by
  have hended : KeepsRecords .descriptorCommit e ((List.finRange 48).foldl Engines.endLantern e) :=
    foldl _ endLantern _ e
  unfold Engines.clearCars
  generalize (List.finRange 48).foldl Engines.endLantern e = e1 at hended ⊢
  have hset : KeepsRecords .descriptorCommit e1 (e1.setCars (Vector.replicate 48 Car.reset)) := ⟨fun _ => rfl,
    fun _ _ => rfl, fun _ _ => rfl, fun h => (h rfl).elim, fun h => (h rfl).elim, fun h => (h rfl).elim,
    fun h => (h rfl).elim⟩
  exact (hended.trans hset).trans (rederive A _)

theorem clearLabels (A : Ambient) (e : Engines) : KeepsRecords .descriptorCommit e (e.clearLabels A) := by
  have hset : KeepsRecords .descriptorCommit e (e.setLabels []) := ⟨fun _ => rfl, fun _ _ => rfl, fun _ _ => rfl,
    fun h => (h rfl).elim, fun h => (h rfl).elim, fun h => (h rfl).elim, fun h => (h rfl).elim⟩
  exact (hset.trans (rederive A _)).trans (rehandPrompts _)

/-! ### The roster -/

theorem cancelIfTerminal (A : Ambient) (e : Engines) (d : Nat) (cls : DisplayClass) :
    KeepsRecords c e (e.cancelIfTerminal A d cls) := by
  unfold Engines.cancelIfTerminal
  split
  · exact of_keeps (.cancelTerminal A e d .roster) (by simp)
  · exact refl e

theorem cancelPoll (e : Engines) (n : Fin 8) (drop : Nat) : KeepsRecords c e (e.cancelPoll n drop) :=
  onLink e n _

theorem openQueue (e : Engines) (d : Nat) (cls : DisplayClass) : KeepsRecords c e (e.openQueue d cls) := by
  unfold Engines.openQueue
  split
  · exact of_eq rfl rfl rfl rfl rfl
  · exact refl e

theorem closeQueue (e : Engines) (d : Nat) : KeepsRecords c e (e.closeQueue d) := of_eq rfl rfl rfl rfl rfl

theorem removeDisplay (A : Ambient) (e : Engines) (d : Nat) : KeepsRecords c e (e.removeDisplay A d) := by
  unfold Engines.removeDisplay
  split
  · exact refl e
  · rename_i f _
    extract_lets e1 e2 e3 e4
    have h1 : KeepsRecords c e e1 :=
      ((leaveQueue e f.link d).trans (cancelPoll _ _ _)).trans (cancelIfTerminal A _ d f.cls)
    have h2 : KeepsRecords c e1 e2 := (leaveQueue e1 f.link d).trans (closeQueue _ d)
    have h3 : KeepsRecords c e2 e3 := of_eq rfl rfl rfl rfl rfl
    have h4 : KeepsRecords c e3 e4 := targetNotice A e3 d
    have h5 : KeepsRecords c e4 (e4.setDisplays (e4.link.displays.erase d)) := setDisplays e4 _
    exact (((h1.trans h2).trans h3).trans h4).trans h5

theorem createDisplay (A : Ambient) (e : Engines) (d : Nat) (r : Rec4) (cls : DisplayClass) :
    KeepsRecords c e (e.createDisplay A d r cls) := by
  unfold Engines.createDisplay
  extract_lets e1 e2
  have h2 : KeepsRecords c e e2 := of_eq rfl rfl rfl rfl rfl
  exact h2.trans ((openQueue e2 d cls).trans (targetNotice A _ d))

theorem rebuildFace (A : Ambient) (e : Engines) (d : Nat) (r : Rec4) (cls old : DisplayClass) :
    KeepsRecords c e (e.rebuildFace A d r cls old) := by
  unfold Engines.rebuildFace
  extract_lets e1 e2 e3 e4
  have h1 : KeepsRecords c e e1 := cancelIfTerminal A e d old
  have h2 : KeepsRecords c e1 e2 := by
    show KeepsRecords c e1 (if _ then _ else _)
    split
    · exact closeQueue e1 d
    · exact refl e1
  have h3 : KeepsRecords c e2 e3 := by
    show KeepsRecords c e2 (if _ then _ else _)
    split
    · exact openQueue e2 d cls
    · exact refl e2
  have h4 : KeepsRecords c e3 e4 := updFace e3 d _
  exact (((h1.trans h2).trans h3).trans h4).trans ((coverEventFrom A e4 _ _).trans (targetNotice A _ d))

theorem rebindDisplay (A : Ambient) (e : Engines) (d : Nat) (r : Rec4) (cls : DisplayClass) (f : Face) :
    KeepsRecords c e (e.rebindDisplay A d r cls f) := by
  unfold Engines.rebindDisplay
  extract_lets moved e1 e2 e3
  have h1 : KeepsRecords c e e1 := by
    show KeepsRecords c e (if _ then _ else _)
    split
    · exact ((leaveQueue e f.link d).trans (cancelPoll _ _ _)).trans (onDisplay _ d _)
    · exact refl e
  have h3 : KeepsRecords c e e3 := (h1.trans (onDisplay e1 d _)).trans (rebuildFace A e2 d r cls f.cls)
  split
  · exact h3.trans (onDisplay e3 d _)
  · exact h3

theorem acceptRoster (A : Ambient) (e : Engines) (d : Nat) (r : Rec4) :
    KeepsRecords .rosterCommit e (e.acceptRoster A d r) := by
  unfold Engines.acceptRoster
  extract_lets e1
  have h1 : KeepsRecords .rosterCommit e e1 := ⟨fun _ => rfl, fun _ _ => rfl, fun _ _ => rfl, fun _ _ _ _ => rfl,
    fun _ _ _ => rfl, fun _ _ h => (h rfl).elim, fun _ _ _ => .of_play rfl⟩
  split
  · exact h1.trans (createDisplay A e1 d r _)
  · split
    · exact h1.trans (rebindDisplay A e1 d r _ _)
    · exact h1
  · exact h1
  · exact h1.trans (removeDisplay A e1 d)
  · exact h1

theorem clearRoster (A : Ambient) (e : Engines) : KeepsRecords .descriptorCommit e (e.clearRoster A) := by
  refine (foldl _ (removeDisplay A) (Tab.keys e.face.faces) e).trans ?_
  exact ⟨fun _ => rfl, fun _ _ => rfl, fun _ _ => rfl, fun h => (h rfl).elim, fun h => (h rfl).elim,
    fun h => (h rfl).elim, fun h => (h rfl).elim⟩

theorem clearTable (A : Ambient) (e : Engines) (w : Fin 5) : KeepsRecords .descriptorCommit e (e.clearTable A w) := by
  have hplayout : KeepsRecords .descriptorCommit e e.clearPlayout := by
    have hfirm := (Engines.Keeps.clearPlayout e).firm
    have hall : KeepsRecords .sweep e { e.clearPlayout with play := e.play } := of_firm hfirm (.of_play rfl)
    exact ⟨fun _ => hall.groups nofun, fun _ => hall.setups nofun, fun _ => hall.slots nofun, fun h => (h rfl).elim,
      fun h => (h rfl).elim, fun h => (h rfl).elim, fun h => (h rfl).elim⟩
  unfold Engines.clearTable
  split
  · exact clearCars A e
  · split
    · exact clearRoster A e
    · split
      · exact clearLabels A e
      · split
        · exact hplayout
        · exact refl e

theorem acceptPlayout (A : Ambient) (e : Engines) (k : Fin 16) (r : Rec4) :
    KeepsRecords .playoutCommit e (e.acceptPlayout A k r) := by
  have hfirm := (Engines.Keeps.acceptPlayout A e k r).firm
  have hall : KeepsRecords .sweep e { e.acceptPlayout A k r with play := e.play } := of_firm hfirm (.of_play rfl)
  exact ⟨fun _ => hall.groups nofun, fun _ => hall.setups nofun, fun _ => hall.slots nofun,
    fun _ _ _ => hall.cars nofun nofun nofun, fun _ _ _ => hall.labels nofun nofun nofun,
    fun _ _ _ => hall.roster nofun nofun nofun, fun _ _ h => (h rfl).elim⟩

/-! ### Links -/

theorem acceptLink (e : Engines) (n : Fin 8) (r : Rec4) : KeepsRecords .linkSetupCommit e (e.acceptLink n r) := by
  obtain ⟨honLinks, -, hroster⟩ := LinkSetLeaves.acceptLink e n r
  have hind := honLinks.ind
  exact ⟨fun _ => by rw [hind], fun h => (h rfl).elim, fun _ k => by rw [honLinks.slots], fun _ _ _ k => by rw [hind],
    fun _ _ _ => by rw [hind], fun _ _ _ => hroster, fun _ _ _ => .of_play honLinks.play⟩

theorem sendNext (e : Engines) (n : Fin 8) (fr : Frame) : KeepsRecords c e (e.sendNext n fr) :=
  (onLink e n _).trans (onLink _ n _)

theorem sendAbort (e : Engines) (n : Fin 8) (fr : Frame) : KeepsRecords c e (e.sendAbort n fr) :=
  (onLink e n _).trans (onLink _ n _)

theorem buildFrame (e : Engines) (f : FetchUnit) (n : Fin 8) (d : Nat) (codes : List Code) :
    KeepsRecords c e (e.buildFrame f n d codes) := by
  unfold Engines.buildFrame
  split
  · exact refl e
  · extract_lets v built fr e1
    have h1 : KeepsRecords c e e1 := of_eq rfl rfl rfl rfl rfl
    exact h1.trans ((onLink e1 n _).trans (sendNext _ n fr))

theorem outSlot (n : Fin 8) (f : FetchUnit) (e : Engines) : KeepsRecords c e (outSlotStep n f e).2 := by
  unfold outSlotStep
  split
  · dsimp only
    split
    · exact sendAbort e n _
    · exact sendNext e n _
  · extract_lets w
    have hw : KeepsRecords c e w.eng := of_keeps (.walkQueue _ f e) (Engines.OnLinks.walkQueue _ f e).play
    split
    · exact hw.trans (buildFrame w.eng _ n _ _)
    · exact hw.trans (onLink w.eng n _)

theorem completeFrame (e : Engines) (n : Fin 8) (fr : Frame) : KeepsRecords c e (e.completeFrame n fr) := by
  unfold Engines.completeFrame
  extract_lets e1 e2
  have h2 : KeepsRecords c e e2 := (onLink e n _).trans (storeFace e1 _ _)
  split
  · exact h2.trans (join e2 n _)
  · exact h2

theorem abortFrame (e : Engines) (n : Fin 8) (fr : Frame) : KeepsRecords c e (e.abortFrame n fr) :=
  (onLink e n _).trans (join _ n _)

theorem goodAnswer (A : Ambient) (e : Engines) (n : Fin 8) (drop d fault : Nat) :
    KeepsRecords c e (e.goodAnswer A n drop d fault) := by
  unfold Engines.goodAnswer
  split
  · exact refl e
  · extract_lets e1 e2 e3
    have h1 : KeepsRecords c e e1 := onDisplay e d _
    have h2 : KeepsRecords c e1 e2 := by
      show KeepsRecords c e1 (if _ then _ else _)
      split
      · exact report A e1 _
      · exact refl e1
    have h3 : KeepsRecords c e2 e3 := by
      show KeepsRecords c e2 (if _ then _ else _)
      split
      · exact refl e2
      · exact refreshMark e2 d
    split
    · exact (h1.trans h2).trans h3
    · exact ((h1.trans h2).trans h3).trans ((onDisplay e3 d _).trans (report A _ _))

theorem miss (A : Ambient) (e : Engines) (n : Fin 8) (drop d : Nat) : KeepsRecords c e (e.miss A n drop d) := by
  unfold Engines.miss
  split
  · exact refl e
  · extract_lets misses e1 e2 e3
    have h1 : KeepsRecords c e e1 := onDisplay e d _
    split
    · exact h1
    · have h3 : KeepsRecords c e1 e3 := (onDisplay e1 d _).trans ((leaveQueue e2 n d).trans (storeFace _ d _))
      split
      · exact (h1.trans h3).trans (report A e3 _)
      · exact h1.trans h3

/-! ### Entries -/

theorem addEntry (e : Engines) (x : Entry) : KeepsRecords c e (e.addEntry x) := of_eq rfl rfl rfl rfl rfl

theorem pushPrompt (A : Ambient) (e : Engines) (d : Nat) (p : Prompt) : KeepsRecords c e (e.pushPrompt A d p) :=
  of_keeps (.pushPrompt A e d p) (by simp)

theorem refuseEntry (A : Ambient) (e : Engines) (d : Nat) (k : Keyed) (why : Reason) :
    KeepsRecords c e (e.refuseEntry A d k why) := (pushPrompt A e d _).trans (report A _ _)

theorem checkEntry (A : Ambient) (e : Engines) (d : Nat) (f : Face) (k : Keyed) :
    KeepsRecords c e (e.checkEntry A d f k) := by
  unfold Engines.checkEntry
  split
  · exact report A e _
  · split
    · exact pushPrompt A e d _
    · split
      · exact refuseEntry A e d k _
      · dsimp only
        split
        · rename_i tm place _
          refine KeepsRecords.trans (b := e.setTimers tm) (of_eq rfl rfl rfl rfl rfl) ?_
          exact ((addEntry _ _).trans (pushPrompt A _ d _)).trans (report A _ _)
        · exact refuseEntry A e d k _

theorem takeEntry (A : Ambient) (e : Engines) (d : Nat) (k : Keyed) : KeepsRecords c e (e.takeEntry A d k) := by
  unfold Engines.takeEntry
  split
  · exact refl e
  · refine KeepsRecords.trans ?_ (refreshMark _ d)
    split
    · exact checkEntry A e d _ k
    · exact report A e _

theorem offerEntry (A : Ambient) (e : Engines) (d : Nat) (toggle : Bool) (k : Keyed) :
    KeepsRecords c e (e.offerEntry A d toggle k) := by
  unfold Engines.offerEntry
  split
  · exact refl e
  · split
    · exact refl e
    · exact (onDisplay e d _).trans (takeEntry A _ d k)

theorem endEntry (e : Engines) (x : Entry) : KeepsRecords c e (e.endEntry x) := of_eq rfl rfl rfl rfl rfl

theorem replacePrompt (A : Ambient) (e : Engines) (d t : Nat) (p : Prompt) :
    KeepsRecords c e (e.replacePrompt A d t p) := of_keeps (.replacePrompt A e d t p) (by simp)

theorem giveStop (A : Ambient) (e : Engines) (k : Fin 48) (floor ticket : Nat) :
    KeepsRecords c e (e.giveStop A k floor ticket) := by
  unfold Engines.giveStop
  dsimp only
  split
  · exact (setStops e k _).trans (rederive A _)
  · exact report A e _

theorem judgeAssign (A : Ambient) (e : Engines) (r : Rec4) : KeepsRecords c e (e.judgeAssign A r) := by
  unfold Engines.judgeAssign
  dsimp only
  split
  · exact report A e _
  · rename_i x _
    split
    · exact report A e _
    · split
      · exact (endEntry e x).trans (replacePrompt A _ _ _ _)
      · split
        · exact report A e _
        · exact ((endEntry e x).trans (replacePrompt A _ _ _ _)).trans (giveStop A _ _ _ _)

theorem expireEntry (A : Ambient) (e : Engines) (p : TimerPlace) : KeepsRecords c e (e.expireEntry A p) :=
  of_keeps (.expireEntry A e p) (by simp)

theorem expirePrompt (e : Engines) (d : Nat) (p : TimerPlace) : KeepsRecords c e (e.expirePrompt d p) :=
  of_keeps (.expirePrompt e d p) (by simp)

theorem expireDwell (A : Ambient) (e : Engines) (k : Fin 16) (p : TimerPlace) :
    KeepsRecords c e (e.expireDwell A k p) :=
  of_firm (Engines.Keeps.expireDwell A e k p).firm (.expireDwell A e k p)

theorem delivered (e : Engines) : KeepsRecords c e e.delivered := of_eq rfl rfl rfl rfl rfl

/-- A delivery: the timer list changes, and the owner acts or there is none. -/
theorem deliver {e e' : Engines} (h : KeepsRecords c e.delivered e') : KeepsRecords c e e' := (delivered e).trans h

end Engines.KeepsRecords

/-! ## The actions of the commands -/

/-- An action of a command touches only the records that the command commits, clears or restarts. -/
theorem Engines.Acts.keepsRecords {c : Instr} {e e' : Engines} (h : Engines.Acts c e e') (hc : c ≠ .powerOnReset) :
    Engines.KeepsRecords c e e' := by
  cases h with
  | report _ A e ev => exact .report A e ev
  | poweredOn => exact (hc rfl).elim
  | acceptCar A e k r => exact .acceptCar A e k r
  | judgeAssign A e r => exact .judgeAssign A e r
  | acceptRoster A e d r => exact .acceptRoster A e d r
  | acceptLabel A e f r => exact .acceptLabel A e f r
  | acceptPlayout A e k r => exact .acceptPlayout A e k r
  | clearTable A e w => exact .clearTable A e w
  | rederive A e => exact .rederive A e
  | acceptGroup A e g r => exact .acceptGroup A e g r
  | acceptLink e n r => exact .acceptLink e n r
  | acceptSlot A e k r => exact .acceptSlot A e k r
  | languageReady _ A e l => exact .languageReady A e l
  | restarted A e => exact .restarted A e
  | textFilled _ e t => exact .of_keeps (.textFilled e t) (by simp)
  | outSlot e n f => exact .outSlot n f e
  | completeFrame e n fr => exact .completeFrame e n fr
  | abortFrame e n fr => exact .abortFrame e n fr
  | statusAnswer A e n _ drop d fault =>
    exact (Engines.KeepsRecords.onLink e n _).trans (.goodAnswer A (e.serve n) n drop d fault)
  | entryAnswer A e n _ drop d fault toggle k =>
    exact ((Engines.KeepsRecords.onLink e n _).trans (.goodAnswer A (e.serve n) n drop d fault)).trans
      (.offerEntry A _ d toggle k)
  | miss A e n _ drop d =>
    exact (Engines.KeepsRecords.onLink e n _).trans (.miss A (e.serve n) n drop d)
  | advance e n => exact .onLink e n _
  | entryWait A e p => exact .deliver (.expireEntry A _ p)
  | promptHold A e p =>
    refine .deliver ?_
    unfold onPromptHold
    split
    · exact .expirePrompt _ _ p
    all_goals exact .refl _
  | lantern A e p =>
    refine .deliver ?_
    unfold onLantern
    split
    · exact .flash A _ _ p
    all_goals exact .refl _
  | gong A e p =>
    refine .deliver ?_
    unfold onGong
    split
    · exact .stroke _ _ p
    all_goals exact .refl _
  | dwell A e p =>
    refine .deliver ?_
    unfold onDwell
    split
    · exact .expireDwell A _ _ p
    all_goals exact .refl _
  | overrideDwell A e p =>
    refine .deliver ?_
    unfold onOverrideDwell
    split
    · split
      · exact .updSlot _ _ _
      · exact .refl _
    all_goals exact .refl _
  | pop e now => exact .of_eq rfl rfl rfl rfl rfl

theorem Engines.Run.keepsRecords {c : Instr} {e e' : Engines} (h : Engines.Run c e e') (hc : c ≠ .powerOnReset) :
    Engines.KeepsRecords c e e' :=
  h.keeps (fun b => Engines.KeepsRecords c e b) (fun _ _ hact hb => hb.trans (hact.keepsRecords hc)) (.refl e)

/-- The language table changes with a language record alone. -/
theorem FetchUnit.Run.keepsLangs {c : Instr} {f g : FetchUnit} (h : FetchUnit.Run c f g) (hc : c ≠ .powerOnReset)
    (hlang : c ≠ .languageCommit) : g.langs = f.langs := by
  refine h.keeps (fun u => u.langs = f.langs) (fun u v hact hu => ?_) rfl
  cases hact with
  | shrink _ hshrinks => exact hshrinks.langs.trans hu
  | reset => exact (hc rfl).elim
  | setLang => exact (hlang rfl).elim
  | askSweep _ _ w =>
    obtain ⟨requests, hasked⟩ := u.askSweep_frame w
    rw [hasked]
    exact hu
  | startLoad _ a r =>
    have hbeside := congrArg (fun x => x.2.2.1) (u.startLoad_besideLoads (a := a) r.cmdSource r.cmdPitch r.cmdCount)
    exact hbeside.trans hu
  | requestText _ _ t =>
    unfold FetchUnit.requestText
    split
    · exact hu
    · split <;> exact hu

/-- Settles O10: a command keeps the state or acts, and an action keeps every record but its own. -/
theorem acceptedRecordsChangeOnlyByTheirCommits : Obligations.AcceptedRecordsChangeOnlyByTheirCommits := by
  intro c s t h hc
  rcases exec_next_cases h with rfl | rfl
  · simp
  · obtain ⟨hsettings, hwindows, hreloc, hring⟩ := State.act_setup s hc
    obtain ⟨hgroups, hsetups, hslots, hcars, hlabels, hroster, hcontexts⟩ := (State.act_eng s c).keepsRecords hc
    exact ⟨hsettings, hwindows, hreloc, hring, (State.act_fetch s c).keepsLangs hc, hgroups, hsetups, hslots,
      fun h1 h2 => ⟨hcars h1 h2, hlabels h1 h2, hroster h1 h2, hcontexts h1 h2⟩⟩

end Sys2Proof.Machine

/-! SUPPORT. An override slot record where a display is listed twice (R74, R75, R82). -/

namespace Sys2Proof.Machine

/-- A HALL_MATRIX display out of every scope, whose content waits for a text fill. -/
def waitingFace : Face :=
  { cls := .hallMatrix, bindA := 0, bindB := 0, link := 0, drop := 1, floor := none, scope := 0, base := .hallMatrix [],
    prompt := [], notice := none, cover := none, strokes := 0, waitText := some ⟨0, 0⟩, waitGlyphs := [] }

/-- Display 0 is listed twice, the second time in the scope of the record of slot 0 that is handed and under its cover. No
step from reset makes such a table (`Engines.LinksSafe.faces`). -/
def coveredTwice : State :=
  { State.reset with
    asm := { Assembler.reset with handed := some (.overrideSlot 0), cbStage := [(0x280, 1), (0x288, 5), (0x28C, 1)] }
    eng := { Engines.reset with face := { FaceTable.reset with
      faces := [(0, waitingFace), (0, { waitingFace with floor := some 0, scope := 1, cover := some 0 })] } } }

theorem coveredTwice_accepts : coveredTwice.accepts (.overrideSlot 0) := by
  refine ⟨rfl, rfl, ?_, ?_⟩ <;> decide

/-- The second entry has the record's content change under its cover, and the mark for it clears the wait of the first. -/
theorem coveredTwice_acceptSlot :
    (coveredTwice.eng.acceptSlot coveredTwice.ambient 0 (coveredTwice.staged4 (slotOffset 0))).faceOf 0 =
      some { waitingFace with waitText := none } := by decide +kernel

/-- Refutes O36: in `coveredTwice` display 0 stays uncovered, and its face does not stay as it was. -/
theorem not_overrideSlotCommitSetsTheCover : ¬ Obligations.OverrideSlotCommitSetsTheCover := by
  intro h
  obtain ⟨hcommit, _⟩ := h
  obtain ⟨t, ht, _, _, _, _, _, _, _, _, _, hfaces, _⟩ := hcommit coveredTwice 0 coveredTwice_accepts
  rw [exec_overrideSlotCommit_accepted coveredTwice_accepts] at ht
  cases ht
  obtain ⟨_, hkept, _⟩ := hfaces 0 waitingFace _ rfl coveredTwice_acceptSlot
  exact absurd (congrArg Face.waitText (hkept rfl rfl)) (by decide)

end Sys2Proof.Machine

/-! SUPPORT. The block of an OUT slot: its designation, its characters and its check (R130, R131, R134 to R136, R139, R179). -/

namespace Sys2Proof.Machine

/-! ## Designation -/

section Designation
variable {drops : List Nat} {p : Nat}

theorem nextDrop_eq_none (turn : Option Nat) : nextDrop drops turn = none ↔ drops = [] := by
  cases turn with
  | none => exact List.min?_eq_none_iff
  | some u =>
    unfold nextDrop
    dsimp only
    cases hmin : (drops.filter fun x => u < x).min? with
    | none => exact List.min?_eq_none_iff
    | some q =>
      refine ⟨nofun, fun h => ?_⟩
      rw [h] at hmin
      cases hmin

/-- The next drop is the lowest above the turn, or the lowest of all when none is above. -/
theorem nextDrop_eq_some {turn : Option Nat} (h : nextDrop drops turn = some p) :
    p ∈ drops ∧ (turn = none → ∀ q ∈ drops, p ≤ q) ∧
      (∀ u, turn = some u → u < p → ∀ q ∈ drops, u < q → p ≤ q) ∧
      (∀ u, turn = some u → p ≤ u → ∀ q ∈ drops, q ≤ u ∧ p ≤ q) := by
  cases turn with
  | none =>
    obtain ⟨hmem, hleast⟩ := List.min?_eq_some_iff.1 h
    exact ⟨hmem, fun _ => hleast, nofun, nofun⟩
  | some u =>
    unfold nextDrop at h
    dsimp only at h
    cases hmin : (drops.filter fun x => u < x).min? with
    | none =>
      rw [hmin] at h
      obtain ⟨hmem, hleast⟩ := List.min?_eq_some_iff.1 h
      have hnone : ∀ q ∈ drops, q ≤ u := by
        have := List.min?_eq_none_iff.1 hmin
        simpa [List.filter_eq_nil_iff] using this
      refine ⟨hmem, nofun, fun v hv hlt => ?_, fun v hv _ q hq => ?_⟩
      · cases hv
        exact absurd (hnone p hmem) (by omega)
      · cases hv
        exact ⟨hnone q hq, hleast q hq⟩
    | some x =>
      rw [hmin] at h
      cases h
      obtain ⟨hmem, hleast⟩ := List.min?_eq_some_iff.1 hmin
      obtain ⟨hdrop, hlt⟩ := List.mem_filter.1 hmem
      have hlt : u < p := by simpa using hlt
      refine ⟨hdrop, nofun, fun v hv _ q hq hvq => ?_, fun v hv hle => ?_⟩
      · cases hv
        exact hleast q (List.mem_filter.2 ⟨hq, by simpa using hvq⟩)
      · cases hv
        omega

/-- The drops a block can designate. -/
theorem mem_pollable (faces : Tab Face) (n : Fin 8) (flying : Option Nat) (p : Nat) : p ∈ pollable faces n flying ↔
    ∃ d f, (d, f) ∈ faces ∧ f.link = n ∧ f.drop = p ∧ flying ≠ some d := by
  unfold pollable
  simp only [List.mem_map, List.mem_filter, Bool.and_eq_true, beq_iff_eq, bne_iff_ne, ne_eq, Prod.exists]
  constructor
  · rintro ⟨d, f, ⟨hmem, hlink, hfly⟩, hdrop⟩
    exact ⟨d, f, hmem, hlink, hdrop, fun h => hfly h.symm⟩
  · rintro ⟨d, f, hmem, hlink, hdrop, hfly⟩
    exact ⟨d, f, ⟨hmem, hlink, fun h => hfly h.symm⟩, hdrop⟩

theorem designate_none (e : Engines) (n : Fin 8) (flying : Option Nat)
    (h : (e.linkOf n).setup.lnkIn (((e.linkOf n).slot + 1) % 32) = false) : e.designate n flying = none :=
  if_neg (by simp [h])

theorem designate_next (e : Engines) (n : Fin 8) (flying : Option Nat)
    (h : (e.linkOf n).setup.lnkIn (((e.linkOf n).slot + 1) % 32) = true) :
    e.designate n flying = nextDrop (pollable e.face.faces n flying) (e.linkOf n).turn := if_pos h

end Designation

/-! ## What a slot sends -/

section Sends
variable (e : Engines) (n : Fin 8)

theorem Engines.onLink_onLink (f g : Link → Link) : (e.onLink n f).onLink n g = e.onLink n fun l => g (f l) := by
  unfold Engines.onLink upd
  simp

/-- A link that has sent a block with a designation, with a frame in flight. -/
def Link.sent (b : Block) (poll : Option Nat) (frame : Option Frame) (l : Link) : Link :=
  { l with block := some b, served := true, pending := poll, turn := if poll.isSome then poll else l.turn, frame := frame }

/-- The frame in flight sends its next block, marked LAST at the frame's end. -/
theorem sendNext_eq (fr : Frame) :
    let p := (e.linkOf n).setup.lnkPayload
    let poll := e.designate n (if fr.isLast p then none else some fr.display)
    e.sendNext n fr = e.onLink n (Link.sent (fr.block (e.dropOf fr.display) p (e.toggleOf fr.display) poll) poll
      (some { fr with next := fr.next + 1, closing := if fr.isLast p then .last else .none })) :=
  e.onLink_onLink n _ _

theorem sendAbort_eq (fr : Frame) :
    let poll := e.designate n none
    e.sendAbort n fr = e.onLink n (Link.sent (fr.abortBlock (e.dropOf fr.display) (e.toggleOf fr.display) poll) poll
      (some { fr with closing := .abort })) :=
  e.onLink_onLink n _ _

/-- The EMPTY block is sent with no frame in flight. -/
theorem send_empty (h : (e.linkOf n).frame = none) :
    e.send n none emptyBlock = e.onLink n (Link.sent (emptyBlock (e.designate n none)) (e.designate n none) none) :=
  e.onLink_congr (by unfold Link.sent; rw [← h])

end Sends

section OutSlot
variable {s : State} {n : Fin 8}

theorem exec_outSlot_idle (hup : s.resetLow = false)
    (h : (s.eng.linkOf n).inOut = false ∨ (s.eng.linkOf n).served = true) : exec (.outSlot n) s = .next s := by
  refine (whenUp_next (fun s => s.outSlot n) hup).trans ?_
  unfold State.outSlot
  dsimp only
  rw [if_neg (by rcases h with h | h <;> simp [h])]

/-- The part of an OUT slot that has had no block. -/
theorem exec_outSlot_step (hup : s.resetLow = false) (hout : (s.eng.linkOf n).inOut = true)
    (hserved : (s.eng.linkOf n).served = false) : exec (.outSlot n) s = .next { s with
      fetch := (outSlotStep n s.fetch s.eng).1, eng := (outSlotStep n s.fetch s.eng).2 } := by
  refine (whenUp_next (fun s => s.outSlot n) hup).trans ?_
  unfold State.outSlot
  dsimp only
  rw [if_pos (by simp [hout, hserved])]

variable {f : FetchUnit} {e : Engines}

theorem outSlotStep_next {fr : Frame} (hfr : (e.linkOf n).frame = some fr) (hdue : fr.abortDue = false) :
    outSlotStep n f e = (f, e.sendNext n fr) := by
  unfold outSlotStep
  rw [hfr]
  simp [hdue]

theorem outSlotStep_abort {fr : Frame} (hfr : (e.linkOf n).frame = some fr) (hdue : fr.abortDue = true) :
    outSlotStep n f e = (f, e.sendAbort n fr) := by
  unfold outSlotStep
  rw [hfr]
  simp [hdue]

theorem outSlotStep_empty (hfr : (e.linkOf n).frame = none) (hq : (e.linkOf n).queue = []) :
    outSlotStep n f e = (f, e.send n none emptyBlock) := by
  unfold outSlotStep
  rw [hfr, hq]
  rfl

end OutSlot

/-! ## Characters and check -/

theorem wire_eq (b : Block) :
    let addr := BitVec.ofNat 8 b.addr
    let rest : List Byte := [BitVec.ofNat 8 (b.index + 64 * b.last.toNat + 128 * b.abort.toNat),
      BitVec.ofNat 8 (b.kind.code + 4 * (match b.echo with | some x => x.toNat | none => 3)),
      BitVec.ofNat 8 (b.poll.getD 0)] ++ b.payload
    b.wire = ⟨addr, true, true⟩ :: (rest ++ checkBytes (addr :: rest)).map fun x => ⟨x, false, true⟩ := by
  have hecho : echoCode b.echo = match b.echo with | some x => x.toNat | none => 3 := by
    unfold echoCode
    cases b.echo <;> rfl
  unfold Block.wire Block.data
  rw [hecho]
  rfl

/-- Settles O46: the three kinds of block by the frame in flight, the designation by the lowest drop above the turn, and the
check by the code's register, byte by byte. -/
theorem outSlotSendsOneBlock : Obligations.OutSlotSendsOneBlock := by
  refine ⟨?_, ?_, wire_eq, fun c => rfl, ?_⟩
  · intro s n hup l size sent
    refine ⟨exec_outSlot_idle hup, fun fr hout hserved hfr hdue => ?_, fun fr hout hserved hfr hdue => ?_,
      fun hout hserved hfr hq => ?_⟩
    · refine (exec_outSlot_step hup hout hserved).trans ?_
      rw [outSlotStep_next hfr hdue, sendNext_eq]
      rfl
    · refine (exec_outSlot_step hup hout hserved).trans ?_
      rw [outSlotStep_abort hfr hdue, sendAbort_eq]
      rfl
    · refine (exec_outSlot_step hup hout hserved).trans ?_
      rw [outSlotStep_empty hfr hq, send_empty _ _ hfr]
      rfl
  · intro e n flying l next candidate
    refine ⟨designate_none e n flying, fun hnext => ?_⟩
    have hcandidate : ∀ p, candidate p ↔ p ∈ pollable e.face.faces n flying :=
      fun p => (mem_pollable e.face.faces n flying p).symm
    rw [designate_next e n flying hnext]
    refine ⟨?_, fun p hp => ?_⟩
    · rw [nextDrop_eq_none, List.eq_nil_iff_forall_not_mem]
      simp only [hcandidate]
    · simp only [hcandidate]
      exact nextDrop_eq_some hp
  · intro enterBit enter
    have hbit : ∀ r b, enterBit r b = crcBit r b := fun r b => (crcBit_eq r b).symm
    have hbyte : ∀ r x, enter r x = crcByte r x := by
      intro r x
      simp only [enter, crcByte, List.foldl_cons, List.foldl_nil, hbit]
    exact ⟨crc, rfl, fun l x => (crc_append l x).trans (hbyte _ _).symm, fun _ => rfl⟩

end Sys2Proof.Machine

/-! SUPPORT. The walk of the transmit queue, and the frames it builds (R79, R107, R133, R134). -/

namespace Sys2Proof.Machine

/-! ## The walk -/

/-- A display whose line has been asked for. -/
def Engines.markText (e : Engines) (d : Nat) (x : Tag) : Engines := e.storeFace d fun f => { f with waitText := some x }

theorem markText_faceOf (e : Engines) (d c : Nat) (x : Tag) : (e.markText d x).faceOf c =
    if c = d then (e.faceOf c).map fun f => { f with waitText := some x } else e.faceOf c := faceOf_storeFace e d c _

section Walk
variable {f : FetchUnit} {e : Engines} {d : Nat} {ds : List Nat} {face : Face}

theorem walkQueue_awaits (hf : e.faceOf d = some face) (h : face.awaits f = true) :
    walkQueue (d :: ds) f e = walkQueue ds f e := by
  rw [walkQueue, hf]
  exact if_pos h

/-- A display whose content needs no line is found. -/
theorem walkQueue_plain (hf : e.faceOf d = some face) (h : face.awaits f = false)
    (hline : (face.visible e.face.slots).line = none) : walkQueue (d :: ds) f e = ⟨f, e, some (d, [])⟩ := by
  rw [walkQueue, hf]
  dsimp only
  rw [if_neg (by simp [h]), hline]

/-- A display whose line is VALID is found. -/
theorem walkQueue_hit {t : Tag} {codes : List Code} {f' : FetchUnit} (hf : e.faceOf d = some face)
    (h : face.awaits f = false) (hline : (face.visible e.face.slots).line = some t)
    (hlookup : f.lookup t = some (codes, f')) : walkQueue (d :: ds) f e = ⟨f', e, some (d, codes)⟩ := by
  rw [walkQueue, hf]
  dsimp only
  rw [if_neg (by simp [h]), hline]
  dsimp only
  rw [hlookup]

/-- The walk goes on past a display whose line is missing, which it marks. -/
theorem walkQueue_miss {t : Tag} (hf : e.faceOf d = some face) (h : face.awaits f = false)
    (hline : (face.visible e.face.slots).line = some t) (hlookup : f.lookup t = none) :
    walkQueue (d :: ds) f e = walkQueue ds (f.requestText t) (e.markText d t) := by
  rw [walkQueue, hf]
  dsimp only
  rw [if_neg (by simp [h]), hline]
  dsimp only
  rw [hlookup]
  rfl

theorem walkQueue_append {pre : List Nat} (h : ∀ y ∈ pre, ∃ g, e.faceOf y = some g ∧ g.awaits f = true) :
    walkQueue (pre ++ ds) f e = walkQueue ds f e := by
  induction pre with
  | nil => rfl
  | cons y pre ih =>
    obtain ⟨g, hg, hawaits⟩ := h y List.mem_cons_self
    rw [List.cons_append, walkQueue_awaits hg hawaits]
    exact ih fun z hz => h z (List.mem_cons_of_mem y hz)

theorem awaits_of_no_mark (h : face.waitText = none) : face.awaits f = false := by
  unfold Face.awaits
  rw [h]

theorem lookup_valid {t : Tag} {i : Fin 32} (hline : f.lineOf t = some i) (hvalid : (f.line i).state = .valid) :
    f.lookup t = some ((f.line i).codes, { f with recency := i :: f.recency.erase i }) := by
  unfold FetchUnit.lookup
  rw [hline]
  exact if_pos hvalid

end Walk

/-! ## The frame that is built -/

/-- The frame built for a display, before its first block is sent. -/
def builtFrame (u : FetchUnit) (serial d : Nat) (codes : List Code) (v : Visible) : Frame :=
  ⟨d, (v.frame u serial codes).1, (v.frame u serial codes).2, 0, v.strokesCarried, false, false, .none⟩

/-- A face whose frame has been built: WAITING_TEXT is cleared, WAITING_GLYPHS set (R79). -/
def Face.framed (ready : Fin 16 → Bool) (v : Visible) (f : Face) : Face :=
  { f with waitText := none, waitGlyphs := v.waits ready }

section Built
variable {e : Engines} {u : FetchUnit} {n : Fin 8} {d : Nat} {codes : List Code} {f : Face}

/-- The engines with the frame in flight and its display at the head of the queue, before block 0 is sent. -/
def frameReady (e : Engines) (u : FetchUnit) (n : Fin 8) (d : Nat) (codes : List Code) (v : Visible) : Engines :=
  ((e.storeFace d (Face.framed u.ready v)).countFrame).onLink n fun l =>
    { l with queue := d :: l.queue.erase d, frame := some (builtFrame u e.link.frames d codes v) }

theorem buildFrame_eq (hf : e.faceOf d = some f) : e.buildFrame u n d codes =
    (frameReady e u n d codes (f.visible e.face.slots)).sendNext n
      (builtFrame u e.link.frames d codes (f.visible e.face.slots)) := by
  unfold Engines.buildFrame
  rw [hf]
  rfl

theorem frameReady_linkOf (v : Visible) (k : Fin 8) : (frameReady e u n d codes v).linkOf k = if n = k then
    { e.linkOf k with queue := d :: (e.linkOf k).queue.erase d, frame := some (builtFrame u e.link.frames d codes v) }
    else e.linkOf k := Engines.linkOf_onLink _ n k _

theorem sendNext_linkOf (e : Engines) (n k : Fin 8) (fr : Frame) (h : n ≠ k) :
    (e.sendNext n fr).linkOf k = e.linkOf k := by
  rw [sendNext_eq, Engines.linkOf_onLink, if_neg h]

/-- The link once the frame of a display is in flight and its block 0 is sent. -/
theorem buildFrame_linkOf (hf : e.faceOf d = some f) :
    let v := f.visible e.face.slots
    let fr := builtFrame u e.link.frames d codes v
    ∃ b closing, (e.buildFrame u n d codes).linkOf n = { e.linkOf n with
        queue := d :: (e.linkOf n).queue.erase d, frame := some { fr with next := 1, closing := closing },
        block := some b, served := true, pending := ((e.buildFrame u n d codes).linkOf n).pending,
        turn := ((e.buildFrame u n d codes).linkOf n).turn } ∧
      b.index = 0 ∧ b.kind = fr.kind ∧ b.payload = fr.bytes.take (e.linkOf n).setup.lnkPayload := by
  intro v fr
  rw [buildFrame_eq hf, sendNext_eq, Engines.linkOf_onLink, if_pos rfl, frameReady_linkOf, if_pos rfl]
  refine ⟨_, _, rfl, rfl, rfl, ?_⟩
  show (fr.bytes.drop (0 * (e.linkOf n).setup.lnkPayload)).take (e.linkOf n).setup.lnkPayload = _
  rw [Nat.zero_mul, List.drop_zero]

theorem buildFrame_linkOf_other (hf : e.faceOf d = some f) {k : Fin 8} (hk : k ≠ n) :
    (e.buildFrame u n d codes).linkOf k = e.linkOf k := by
  rw [buildFrame_eq hf, sendNext_linkOf _ _ _ _ hk.symm, frameReady_linkOf, if_neg hk.symm]

theorem buildFrame_faceOf (hf : e.faceOf d = some f) (c : Nat) : (e.buildFrame u n d codes).faceOf c =
    if c = d then (e.faceOf c).map (Face.framed u.ready (f.visible e.face.slots)) else e.faceOf c := by
  rw [buildFrame_eq hf, sendNext_eq]
  exact faceOf_storeFace e d c _

theorem buildFrame_face (hf : e.faceOf d = some f) : (e.buildFrame u n d codes).faceOf d =
    some { f with waitText := none, waitGlyphs := (f.visible e.face.slots).waits u.ready } := by
  rw [buildFrame_faceOf hf, if_pos rfl, hf]
  rfl

end Built

/-! ## The slot -/

section Slot
variable {s : State} {n : Fin 8} {u : FetchUnit} {e : Engines}

theorem exec_outSlot_builds {d : Nat} {codes : List Code} (hup : s.resetLow = false)
    (hout : (s.eng.linkOf n).inOut = true) (hserved : (s.eng.linkOf n).served = false)
    (hfr : (s.eng.linkOf n).frame = none)
    (hw : walkQueue (s.eng.linkOf n).queue s.fetch s.eng = ⟨u, e, some (d, codes)⟩) :
    exec (.outSlot n) s = .next { s with fetch := u, eng := e.buildFrame u n d codes } := by
  have hstep : outSlotStep n s.fetch s.eng = (u, e.buildFrame u n d codes) := by
    unfold outSlotStep
    rw [hfr]
    dsimp only
    rw [hw]
  rw [exec_outSlot_step hup hout hserved, hstep]

theorem exec_outSlot_sends_empty (hup : s.resetLow = false) (hout : (s.eng.linkOf n).inOut = true)
    (hserved : (s.eng.linkOf n).served = false) (hfr : (s.eng.linkOf n).frame = none)
    (hw : walkQueue (s.eng.linkOf n).queue s.fetch s.eng = ⟨u, e, none⟩) :
    exec (.outSlot n) s = .next { s with fetch := u, eng := e.send n none emptyBlock } := by
  have hstep : outSlotStep n s.fetch s.eng = (u, e.send n none emptyBlock) := by
    unfold outSlotStep
    rw [hfr]
    dsimp only
    rw [hw]
  rw [exec_outSlot_step hup hout hserved, hstep]

/-- A TEXT request touches no language. -/
theorem requestText_ready (f : FetchUnit) (t : Tag) : (f.requestText t).ready = f.ready := by
  unfold FetchUnit.requestText
  split
  · rfl
  · split <;> rfl

end Slot

/-! ## The bytes of a frame -/

section Bytes
variable (u : FetchUnit) (serial : Nat) (codes : List Code)

theorem byteOfNat_toNat (b : Bool) : byteOfNat b.toNat = if b then 1 else 0 := by cases b <;> rfl

theorem hallSegment_frame (label : Word) (arrow : Arrow) (x : LanternShow) (strokes : Nat) (b6 b7 : Byte)
    (hx : x.bytes serial = [b6, b7]) : (Visible.base (.hallSegment label arrow x) strokes).frame u serial codes =
      (.segment, [0, byteOf label 0, byteOf label 1, byteOf label 2, byteOf label 3, byteOfNat arrow.code, b6, b7,
        BitVec.ofNat 8 strokes, 0, 0, 0, 0, 0, 0, 0]) := by
  show (FrameKind.segment, segmentFrame .base label arrow (x.bytes serial ++ [byteOfNat strokes])) = _
  rw [hx]
  rfl

/-- The cells of the text band: none without a message or a language. -/
def band (msg : Nat) (lang : Option (Fin 16)) : List (List Byte) :=
  match lang with
  | some l => if msg = 0 then [] else codes.map (u.cell l)
  | none => []

theorem bandCells_eq (msg : Nat) (lang : Option (Fin 16)) :
    bandCells u (neededLine msg lang) codes = band u codes msg lang := by
  unfold neededLine band
  cases lang <;> by_cases h : msg = 0 <;> simp [h, bandCells]

/-- A FACE_MATRIX frame of nothing but a text band. -/
def textFrame (layer : Layer) (arrow : Arrow) (cells : List (List Byte)) : FrameKind × List Byte :=
  (.matrix, matrixFrame layer arrow 0 [0, 0, 0] [] cells)

/-- The flags of a listed car stand in the bits above its arrow. -/
theorem hallEntry_byte (h : HallEntry) : byteOfNat h.arrow.code + BitVec.ofNat 8 ((if h.unavailable then 4 else 0) +
    (if h.full then 8 else 0) + (if h.here then 16 else 0)) = h.byte := by
  have hflag : ∀ (b : Bool) (n : Nat), (if b then n else 0) = n * b.toNat := fun b n => by cases b <;> simp
  unfold HallEntry.byte byteOfNat
  rw [← BitVec.ofNat_add, hflag, hflag, hflag, Nat.add_assoc, Nat.add_assoc, Nat.add_assoc]

theorem cell_none {l : Fin 16} (code : Code) (h : (u.lang l).langArea = none) : u.cell l code = blankCell := by
  unfold FetchUnit.cell
  rw [h]

theorem cell_beyond {l : Fin 16} {a : Fin 8} (code : Code) (ha : (u.lang l).langArea = some a)
    (h : (u.area a).state ≠ .ready ∨ (u.area a).count ≤ code.toNat) : u.cell l code = blankCell := by
  unfold FetchUnit.cell
  rw [ha]
  refine if_neg fun hin => ?_
  obtain ⟨hready, hlt⟩ := hin
  rcases h with h | h
  · exact h hready
  · omega

theorem cell_glyph {l : Fin 16} {a : Fin 8} (code : Code) (ha : (u.lang l).langArea = some a)
    (hready : (u.area a).state = .ready) (hlt : code.toNat < (u.area a).count) (htop : code.toNat < 512) :
    u.cell l code = ((u.area (if (u.area a).role = .single then a else if code.toNat < 256 then evenArea a else
      oddArea a)).glyphs.get (if code.toNat < 256 then code.toNat else code.toNat - 256)).getD blankCell := by
  have hmod : code.toNat % 256 = if code.toNat < 256 then code.toNat else code.toNat - 256 := by split <;> omega
  unfold FetchUnit.cell
  rw [ha]
  dsimp only
  rw [if_pos ⟨hready, hlt⟩, hmod]

end Bytes

/-- Settles O47: the walk by what each queued display waits for, the frame by the content it shows. -/
theorem outSlotWalksTheQueue : Obligations.OutSlotWalksTheQueue := by
  refine ⟨?_, ?_, ?_, ?_, ?_, ?_, fun u l code => ⟨cell_none u code, fun a => cell_beyond u code, fun a => cell_glyph u code⟩⟩
  · intro s n d rest f hup hout hserved hfr hq hf hmark hline v built
    have hw : walkQueue (s.eng.linkOf n).queue s.fetch s.eng = ⟨s.fetch, s.eng, some (d, [])⟩ := by
      rw [hq, walkQueue_plain hf (awaits_of_no_mark hmark) hline]
    obtain ⟨b, closing, hlink, hindex, hkind, hpayload⟩ := buildFrame_linkOf (u := s.fetch) (n := n) (codes := []) hf
    refine ⟨_, { builtFrame s.fetch s.eng.link.frames d [] v with next := 1, closing := closing }, b,
      exec_outSlot_builds hup hout hserved hfr hw, rfl, (Engines.OnLinks.buildFrame s.eng s.fetch n d []).eq, ?_, rfl, rfl,
      rfl, rfl, rfl, rfl, ?_, hindex, hkind, hpayload, ?_, fun k hk => buildFrame_linkOf_other hf hk, buildFrame_face hf⟩
    · rw [hlink]
    · rw [hlink]
    · rw [hlink, hq]
      exact congrArg (d :: ·) (List.erase_cons_head d rest)
  · intro s n d f x hup hout hserved hfr hq hf hawaits hline hlookup
    have hw : walkQueue (s.eng.linkOf n).queue s.fetch s.eng =
        ⟨s.fetch.requestText x, s.eng.markText d x, none⟩ := by
      rw [hq, walkQueue_miss hf hawaits hline hlookup, walkQueue]
    have hlink : ((s.eng.markText d x).send n none emptyBlock).linkOf n = _ :=
      (congrArg (fun e => e.linkOf n) (send_empty (s.eng.markText d x) n hfr)).trans
        ((Engines.linkOf_onLink _ n n _).trans (if_pos rfl))
    refine ⟨_, emptyBlock ((s.eng.markText d x).designate n none), exec_outSlot_sends_empty hup hout hserved hfr hw, rfl, ?_,
      ?_, rfl, rfl, rfl, ?_, ?_⟩
    · exact (markText_faceOf s.eng d d x).trans (by rw [if_pos rfl, hf]; rfl)
    · exact congrArg Link.block hlink
    · exact (congrArg Link.queue hlink).trans hq
    · exact congrArg Link.frame hlink
  · intro s n d pre rest f x i hup hout hserved hfr hq hd hpre hf hawaits hline hof hvalid found v built
    have hw : walkQueue (s.eng.linkOf n).queue s.fetch s.eng = ⟨found, s.eng, some (d, (s.fetch.line i).codes)⟩ := by
      rw [hq, walkQueue_append hpre, walkQueue_hit hf hawaits hline (lookup_valid hof hvalid)]
    obtain ⟨b, closing, hlink, -⟩ := buildFrame_linkOf (u := found) (n := n) (codes := (s.fetch.line i).codes) hf
    refine ⟨_, { builtFrame found s.eng.link.frames d (s.fetch.line i).codes v with next := 1, closing := closing },
      exec_outSlot_builds hup hout hserved hfr hw, rfl, ?_, rfl, rfl, rfl, rfl, rfl, ?_,
      fun k hk => buildFrame_linkOf_other hf hk, buildFrame_face hf⟩
    · rw [hlink]
    · rw [hlink, hq]
      exact congrArg (d :: ·) (by rw [List.erase_append_right _ hd, List.erase_cons_head])
  · intro s n a d rest f g x hup hout hserved hfr hq had hg hawaits hline hlookup hf hmark hplain v
    have hfd : (s.eng.markText a x).faceOf d = some f := (markText_faceOf s.eng a d x).trans ((if_neg had.symm).trans hf)
    have hw : walkQueue (s.eng.linkOf n).queue s.fetch s.eng = 
        ⟨s.fetch.requestText x, s.eng.markText a x, some (d, [])⟩ := by
      rw [hq, walkQueue_miss hg hawaits hline hlookup, walkQueue_plain hfd (awaits_of_no_mark hmark) hplain]
    obtain ⟨b, closing, hlink, -⟩ := buildFrame_linkOf (u := s.fetch.requestText x) (n := n) (codes := []) hfd
    refine ⟨_, { builtFrame (s.fetch.requestText x) s.eng.link.frames d [] v with next := 1, closing := closing },
      exec_outSlot_builds hup hout hserved hfr hw, rfl, ?_, ?_, rfl, rfl, rfl, ?_, ?_⟩
    · refine (buildFrame_faceOf hfd a).trans ((if_neg had).trans ?_)
      exact (markText_faceOf s.eng a a x).trans (by rw [if_pos rfl, hg]; rfl)
    · rw [hlink]
      rfl
    · rw [hlink]
      show d :: (s.eng.linkOf n).queue.erase d = _
      rw [hq, List.erase_cons_tail (by simpa using had), List.erase_cons_head]
    · rw [buildFrame_face hfd, requestText_ready]
      rfl
  · intro u serial codes label arrow strokes arrowOf flag segment hall
    have harrow : arrowOf arrow = byteOfNat arrow.code := by cases arrow <;> rfl
    have hlit : ∀ b, flag b = byteOfNat b.toNat := fun b => (byteOfNat_toNat b).symm
    have hsegment : ∀ x b6 b7, x.bytes serial = [b6, b7] → segment (hall x) 0 b6 b7 (BitVec.ofNat 8 strokes) := by
      intro x b6 b7 hx
      show _ = _
      rw [harrow]
      exact hallSegment_frame u serial codes label arrow x strokes b6 b7 hx
    refine ⟨fun lit => hsegment _ _ _ (by rw [hlit]; rfl), fun lit => hsegment _ _ _ (by rw [hlit]; rfl),
      fun lit => hsegment _ _ _ (by rw [hlit]; rfl), ⟨Config.litWhenOff serial, hsegment _ _ _ (by rw [hlit]; rfl)⟩, ?_, ?_⟩
    · show _ = _
      rw [harrow]
      rfl
    · show _ = _
      rw [harrow]
      rfl
  · intro u serial codes strokes arrowOf kindOf walkOf flag blank car floor bandOf matrix
    have harrow : ∀ a, arrowOf a = byteOfNat a.code := fun a => by cases a <;> rfl
    have hkind : ∀ k, kindOf k = k.code := fun k => by cases k <;> rfl
    have hwalk : ∀ w, walkOf w = w.code := fun w => by cases w <;> rfl
    have hfloor : ∀ x, floor x = nameCells u x := fun x => by cases x <;> rfl
    have hband : ∀ msg lang, bandOf msg lang = bandCells u (neededLine msg lang) codes := fun msg lang => by
      rw [bandCells_eq]
      cases lang <;> rfl
    have hmatrix : ∀ (v : Visible) (layer : Layer) (arrow : Arrow) (items : Nat) (own per : List Byte)
        (cells : List (List Byte)), own.length = 3 → per.length ≤ 8 →
        v.frame u serial codes = (.matrix, matrixFrame layer arrow items own per cells) →
        matrix v (byteOfNat layer.code) arrow items own per cells := by
      intro v layer arrow items own per cells hown hper hv
      show _ = _
      rw [hv, matrixFrame_eq layer arrow items cells hown hper, harrow]
      rfl
    refine ⟨fun x => ?_, ?_, fun l hl => ?_, fun idle => ?_, fun l hl => ?_, fun x => ?_, fun arrow msg lang => ?_⟩
    · refine hmatrix _ .base x.arrow _ _ _ _ rfl (Nat.zero_le 8) ?_
      have hcells : car x.name ++ floor x.position ++ x.stops.flatMap floor =
          carNameCells u x.name ++ nameCells u x.position ++ x.stops.flatMap (nameCells u) := by
        rw [hfloor, funext hfloor]
        rfl
      rw [hcells]
      show (FrameKind.matrix, carMatrixFrame u x) = _
      unfold carMatrixFrame
      cases x.target <;> rfl
    · exact hmatrix _ .base .none 0 [0xFF, 0, 0] [] [] rfl (Nat.zero_le 8) rfl
    · refine hmatrix _ .base .none _ [0, 0, 0] _ _ rfl (by rwa [List.length_map]) ?_
      have hper : (fun x : HallEntry => arrowOf x.arrow + BitVec.ofNat 8 (flag x.unavailable 4 + flag x.full 8 + flag x.here 16)) =
          HallEntry.byte := funext fun x => by rw [harrow]; exact hallEntry_byte x
      have hcells : (fun x : HallEntry => car x.name ++ floor x.position) =
          fun h => carNameCells u h.name ++ nameCells u h.position := funext fun x => by rw [hfloor]; rfl
      rw [hper, hcells]
      rfl
    · refine hmatrix _ .base .none 0 [0, 0, 0] [] _ rfl (Nat.zero_le 8) ?_
      exact congrArg (textFrame .base .none) (hband idle (some 0)).symm
    · refine hmatrix _ .prompt .none _ [0, 0, 0] _ _ rfl (by rwa [List.length_map]) ?_
      have hper : (fun x : PromptShow => BitVec.ofNat 8 (kindOf x.kind +
          (match x.entryKind with | .standard => 0 | .accessible => 8) + 16 * walkOf x.walk)) = PromptShow.byte := by
        funext x
        unfold PromptShow.byte
        rw [hkind, hwalk]
        cases x.entryKind <;> rfl
      have hcells : (fun x : PromptShow => floor x.name ++ (x.carName.map car).getD []) = PromptShow.cells u := by
        funext x
        unfold PromptShow.cells
        rw [hfloor]
        cases x.carName <;> rfl
      exact congrArg₂ (fun per cells => (FrameKind.matrix, matrixFrame .prompt .none l.length [0, 0, 0] (l.map per)
        (l.flatMap cells))) hper.symm hcells.symm
    · refine hmatrix _ .notice .none 0 [0, 0, 0] [] _ rfl (Nat.zero_le 8) ?_
      exact congrArg (textFrame .notice .none) (hband x.msg x.lang).symm
    · refine hmatrix _ .override arrow 0 [0, 0, 0] [] _ rfl (Nat.zero_le 8) ?_
      exact congrArg (textFrame .override arrow) (hband msg lang).symm

end Sys2Proof.Machine

/-! SUPPORT. An assignment where a terminal is listed twice (R46, R97). -/

namespace Sys2Proof.Machine

/-- A TERMINAL on floor 2 with the zone of group 0. -/
def landingTerminal : Face :=
  { cls := .terminal, bindA := 1, bindB := 2, link := 0, drop := 1, floor := some 2, scope := 1, base := .terminal 0,
    prompt := [], notice := none, cover := none, strokes := 0, waitText := none, waitGlyphs := [] }

/-- Car 0 of group 0 at landing 3. -/
def landedCar : Rec4 := ⟨0x00314100, 0x00010000, 0xFF, 3⟩

/-- Terminal 0 is listed twice, the second time with no display floor; its entry is assigned to car 0 while context 0 plays
on the terminals of group 0 and does not hold the terminal yet. No step from reset makes such a table
(`Engines.LinksSafe.faces`). -/
def assignedTwice : State :=
  { State.reset with
    asm := { Assembler.reset with
      handed := some (.window assignWindow 0)
      winStage := Assembler.reset.winStage.set 1 [(0, 7), (1, 0), (2, 5), (3, 0)] }
    eng := { Engines.reset with
      ind := { Indication.reset with
        groups := Indication.reset.groups.set 0 ⟨0, 0x00000900, 0xFF, 0xFF, 0xFF, 500, 4, 1⟩
        cars := Indication.reset.cars.set 0 ⟨some landedCar, none, some 3, none⟩ }
      face := { FaceTable.reset with faces := [(0, landingTerminal), (0, { landingTerminal with floor := none })] }
      play := Engines.reset.play.set 0 ⟨.playing, some ⟨0x100, 0xFF000401, 0x05200020, 0x0100⟩, 0, none, 0, none, 0, []⟩
      dest := { Destination.reset with
        entries := [⟨7, 0, 2, 5, .standard, 0⟩]
        prompts := [(0, [⟨.waiting, some 7, 5, .standard, none, none, .none, none⟩])] }
      timers := ⟨[⟨0, .entryWait, .ticket 7, 0, 0, 0⟩], 1⟩ } }

theorem assignedTwice_accepts : assignedTwice.accepts (.window assignWindow 0) := by
  refine ⟨rfl, rfl, ?_, ?_⟩ <;> decide

theorem assignedTwice_faceOf {d : Nat} {f : Face} (h : assignedTwice.eng.faceOf d = some f) : f = landingTerminal := by
  change (if 0 = d then some landingTerminal else Tab.get [(0, { landingTerminal with floor := none })] d) = some f at h
  by_cases hd : 0 = d
  · exact (Option.some.inj ((if_pos hd).symm.trans h)).symm
  · exact absurd ((if_neg hd).symm.trans h) (by simp [Tab.get, hd])

theorem assignedTwice_facesDerived : assignedTwice.eng.FacesDerived assignedTwice.ambient := by
  refine ⟨fun d f h => ?_, fun d f h => ?_, fun d f h => ?_, fun d f h => ?_⟩ <;> rw [assignedTwice_faceOf h] <;> decide

/-- The rebuilt second entry makes the terminal a target, and the playing context claims a DWELL place of its own. -/
theorem assignedTwice_claims_dwell :
    (assignedTwice.eng.judgeAssign assignedTwice.ambient (assignedTwice.stagedSlot assignWindow 0)).timers.nextId = 3 := by
  decide +kernel

/-- Refutes O26: its third part says that the prompt's hold is the only place claimed, and in `assignedTwice` a DWELL place
is claimed as well. -/
theorem not_assignCommitGivesTheStop : ¬ Obligations.AssignCommitGivesTheStop := by
  intro h
  obtain ⟨_, _, hplaces⟩ := h
  obtain ⟨t, ht, _, htimers, _⟩ := hplaces assignedTwice 0 ⟨7, 0, 2, 5, .standard, 0⟩ 0 landedCar
    [⟨.waiting, some 7, 5, .standard, none, none, .none, none⟩] assignedTwice_accepts assignedTwice_facesDerived
    rfl (by decide) (by decide) (by decide) rfl ⟨_, List.mem_singleton.mpr rfl, rfl⟩ (by decide)
  rw [exec_assignCommit_accepted assignedTwice_accepts] at ht
  cases ht
  have hnext : assignedTwice.eng.timers.nextId + 1 = 3 :=
    (congrArg Timers.nextId htimers).symm.trans assignedTwice_claims_dwell
  exact absurd hnext (by decide)

end Sys2Proof.Machine

/-! SUPPORT. What the push of a prompt does to the queue, the timer list and the report queue (R57 to R61). -/

namespace Sys2Proof.Machine

/-! ## A claim with room and without -/

section Claim
variable {tm : Timers} {kind : PlaceKind} {owner : Owner} {expiry : BitVec 32} {interval count : Nat}

theorem Timers.claim_room (h : tm.list.length < 128) : tm.claim kind owner expiry interval count =
    (⟨insertPlace tm.list ⟨tm.nextId, kind, owner, expiry, interval, count⟩, tm.nextId + 1⟩, some tm.nextId) := if_pos h

theorem Timers.claim_full (h : ¬ tm.list.length < 128) : tm.claim kind owner expiry interval count = (tm, none) := if_neg h

end Claim

/-! ## A queue that is stored -/

theorem Tab.modify_modify {α : Type} (t : Tab α) (k : Nat) (g h : α → α) :
    (t.modify k g).modify k h = t.modify k (h ∘ g) := by
  induction t with
  | nil => rfl
  | cons x t ih =>
    obtain ⟨key, v⟩ := x
    by_cases hk : key = k
    · simp only [Tab.modify, if_pos hk, Function.comp]
    · simp only [Tab.modify, if_neg hk, ih]

/-- A value that a change keeps leaves the table as it is. -/
theorem Tab.modify_fixed {α : Type} {t : Tab α} {k : Nat} {g : α → α} (h : ∀ v, t.get k = some v → g v = v) :
    t.modify k g = t := by
  induction t with
  | nil => rfl
  | cons x t ih =>
    obtain ⟨key, v⟩ := x
    unfold Tab.modify
    by_cases hk : key = k
    · rw [if_pos hk, h v (if_pos hk)]
    · rw [if_neg hk, ih fun w hw => h w ((if_neg hk).trans hw)]

section Placed
variable {A : Ambient} {e : Engines} {d : Nat} {p : Prompt} {q rest : List Prompt}

theorem storePrompts_storePrompts (a b : List Prompt) : (e.storePrompts d a).storePrompts d b = e.storePrompts d b :=
  congrArg e.setPrompts (Tab.modify_modify e.dest.prompts d _ _)

theorem promptsOf_of_get (hq : e.dest.prompts.get d = some q) : e.promptsOf d = q := by
  unfold Engines.promptsOf
  rw [hq]
  rfl

theorem promptsOf_storePrompts_self (hq : e.dest.prompts.get d = some q) (a : List Prompt) :
    (e.storePrompts d a).promptsOf d = a := by
  rw [Engines.ClaimsSafe.promptsOf_storePrompts, if_pos rfl, hq]
  rfl

theorem promptsOf_storePrompts_other {c : Nat} (hc : c ≠ d) (a : List Prompt) :
    (e.storePrompts d a).promptsOf c = e.promptsOf c := by
  rw [Engines.ClaimsSafe.promptsOf_storePrompts, if_neg hc]

/-! ## A prompt that is placed -/

/-- A prompt at the head of a queue with its hold claimed, before the layer is handed. -/
def Engines.placed (A : Ambient) (e : Engines) (d : Nat) (p : Prompt) (rest : List Prompt) : Engines :=
  if p.kind = .waiting then e.storePrompts d (p :: rest) else (e.storePrompts d (p :: rest)).claimHold A d

theorem placePrompt_eq : e.placePrompt A d p rest = (e.placed A d p rest).handPrompts d := rfl

theorem placed_waiting (hk : p.kind = .waiting) : e.placed A d p rest = e.storePrompts d (p :: rest) := if_pos hk

/-- The timer list with the place of a prompt's hold. -/
def Timers.held (A : Ambient) (tm : Timers) (d : Nat) (p : Prompt) : Timers :=
  ⟨insertPlace tm.list ⟨tm.nextId, .promptHold, .prompt d, later A.now (holdTime A.settings p.kind p.entryKind), 0, 0⟩,
    tm.nextId + 1⟩

theorem claimHold_held (hq : e.promptsOf d = p :: rest) (hroom : e.timers.list.length < 128) : e.claimHold A d =
    (e.setTimers (e.timers.held A d p)).storePrompts d ({ p with hold := some e.timers.nextId } :: rest) := by
  unfold Engines.claimHold
  rw [hq]
  simp only [Timers.claim_room hroom, Timers.held]

theorem claimHold_refused (hq : e.promptsOf d = p :: rest) (hfull : ¬ e.timers.list.length < 128) : e.claimHold A d =
    e.report A (.timerRefused d .promptHold p.kind.code (p.ticket.getD 0)) := by
  unfold Engines.claimHold
  rw [hq]
  simp only [Timers.claim_full hfull]

theorem placed_held (hk : p.kind ≠ .waiting) (hq : e.dest.prompts.get d = some q) (hroom : e.timers.list.length < 128) :
    e.placed A d p rest =
      (e.setTimers (e.timers.held A d p)).storePrompts d ({ p with hold := some e.timers.nextId } :: rest) := by
  have hstored := promptsOf_storePrompts_self hq (p :: rest)
  refine (if_neg hk).trans ((claimHold_held hstored hroom).trans ?_)
  exact storePrompts_storePrompts (e := e.setTimers (e.timers.held A d p)) _ _

theorem placed_refused (hk : p.kind ≠ .waiting) (hq : e.dest.prompts.get d = some q)
    (hfull : ¬ e.timers.list.length < 128) : e.placed A d p rest =
      (e.storePrompts d (p :: rest)).report A (.timerRefused d .promptHold p.kind.code (p.ticket.getD 0)) :=
  (if_neg hk).trans (claimHold_refused (promptsOf_storePrompts_self hq (p :: rest)) hfull)

@[simp] theorem placed_face : (e.placed A d p rest).face = e.face := by
  unfold Engines.placed
  split
  · rfl
  · exact Engines.claimHold_face _ A d

@[simp] theorem placed_link : (e.placed A d p rest).link = e.link := by
  unfold Engines.placed
  split
  · rfl
  · exact Engines.claimHold_link _ A d

@[simp] theorem placed_ind : (e.placed A d p rest).ind = e.ind := by
  unfold Engines.placed
  split
  · rfl
  · exact Engines.claimHold_ind _ A d

/-- The claim of a hold changes the queue of its own terminal alone. -/
theorem claimHold_dest : (e.claimHold A d).dest.entries = e.dest.entries ∧
    ∀ c, c ≠ d → (e.claimHold A d).promptsOf c = e.promptsOf c := by
  unfold Engines.claimHold
  split
  · exact ⟨rfl, fun _ _ => rfl⟩
  · split
    · exact ⟨rfl, fun c hc => promptsOf_storePrompts_other (e := e.setTimers _) hc _⟩
    · exact ⟨rfl, fun _ _ => rfl⟩

theorem placed_entries : (e.placed A d p rest).dest.entries = e.dest.entries := by
  unfold Engines.placed
  split
  · rfl
  · exact claimHold_dest.1

theorem placed_promptsOf_other {c : Nat} (hc : c ≠ d) : (e.placed A d p rest).promptsOf c = e.promptsOf c := by
  unfold Engines.placed
  split
  · exact promptsOf_storePrompts_other hc _
  · exact (claimHold_dest.2 c hc).trans (promptsOf_storePrompts_other hc _)

theorem promptsOf_handPrompts (c : Nat) : (e.handPrompts d).promptsOf c = e.promptsOf c := by
  unfold Engines.promptsOf
  rw [Engines.handPrompts_dest]

end Placed

/-! ## A prompt that is pushed, or takes the place of another -/

/-- What a push leaves of a queue (R57). -/
def keptPrompts (q : List Prompt) : List Prompt := if q.length < 4 then q else q.dropLast

/-- The hold that a push to a full queue releases (R57). -/
def pushedOut (q : List Prompt) : Option Nat := if q.length < 4 then none else (q.getLast?).bind Prompt.hold

theorem release_none (e : Engines) : e.release none = e := rfl

section Push
variable {A : Ambient} {e : Engines} {d : Nat} {p : Prompt}

theorem pushPrompt_eq : e.pushPrompt A d p =
    ((e.release (pushedOut (e.promptsOf d))).placed A d p (keptPrompts (e.promptsOf d))).handPrompts d := by
  unfold Engines.pushPrompt keptPrompts pushedOut
  dsimp only
  by_cases h : (e.promptsOf d).length < 4
  · rw [if_pos h, if_pos h, if_pos (by exact h)]
    rfl
  · rw [if_neg h, if_neg h, if_neg (by exact h)]
    rfl

theorem replacePrompt_eq (t : Nat) : e.replacePrompt A d t p =
    if (e.promptsOf d).any (Prompt.waitsFor t) then
      (e.placed A d p ((e.promptsOf d).eraseP (Prompt.waitsFor t))).handPrompts d
    else e.pushPrompt A d p := rfl

end Push

end Sys2Proof.Machine

/-! SUPPORT. The checks of an entry keyed at a TERMINAL (R38 to R41). -/

namespace Sys2Proof.Machine

/-! ## What a push leaves -/

section Push
variable {A : Ambient} {e : Engines} {d : Nat} {f : Face} {p : Prompt} {q : List Prompt}

theorem pushPrompt_entries : (e.pushPrompt A d p).dest.entries = e.dest.entries := by
  rw [pushPrompt_eq, Engines.handPrompts_dest, placed_entries]
  rfl

theorem pushPrompt_ticket : (e.pushPrompt A d p).dest.ticket = e.dest.ticket := (Engines.Keeps.pushPrompt A e d p).ticket

theorem pushPrompt_promptsOf_other {c : Nat} (hc : c ≠ d) : (e.pushPrompt A d p).promptsOf c = e.promptsOf c := by
  rw [pushPrompt_eq, promptsOf_handPrompts, placed_promptsOf_other hc]
  rfl

/-- A WAITING prompt claims no hold (R59). -/
theorem pushPrompt_waiting (hk : p.kind = .waiting) : e.pushPrompt A d p =
    ((e.release (pushedOut (e.promptsOf d))).storePrompts d (p :: keptPrompts (e.promptsOf d))).handPrompts d := by
  rw [pushPrompt_eq, placed_waiting hk]

/-- A prompt of another kind holds the next place, where the timer list has room. -/
theorem pushPrompt_promptsOf_held (hk : p.kind ≠ .waiting) (hold : p.hold = none) (hq : e.dest.prompts.get d = some q) :
    (e.pushPrompt A d p).promptsOf d =
      { p with hold := if (e.timers.releaseOpt (pushedOut q)).list.length < 128 then some e.timers.nextId else none } ::
        keptPrompts q := by
  rw [pushPrompt_eq, promptsOf_handPrompts, promptsOf_of_get hq]
  have hq' : (e.release (pushedOut q)).dest.prompts.get d = some q := hq
  have hnext : (e.release (pushedOut q)).timers.nextId = e.timers.nextId := by cases pushedOut q <;> rfl
  by_cases hroom : (e.timers.releaseOpt (pushedOut q)).list.length < 128
  · rw [placed_held hk hq' hroom, if_pos hroom, hnext]
    exact promptsOf_storePrompts_self (e := (e.release (pushedOut q)).setTimers _) hq' _
  · have hnone : ({ p with hold := none } : Prompt) = p := by rw [← hold]
    rw [placed_refused hk hq' hroom, if_neg hroom, hnone]
    exact promptsOf_storePrompts_self hq' _

/-- The marks of a push are those of the PROMPT layer it hands (R63, R75). -/
theorem pushPrompt_hands : ∃ e1 : Engines, e.pushPrompt A d p = e1.handPrompts d ∧ e1.face = e.face ∧ e1.link = e.link ∧
    e1.ind = e.ind :=
  ⟨_, pushPrompt_eq, placed_face, placed_link, placed_ind⟩

end Push

/-! ## The PROMPT layer of an ONLINE display -/

theorem handPrompts_links_same {e : Engines} {d : Nat} {f : Face} (hf : e.faceOf d = some f)
    (h : (handed e d f).visible e.face.slots = f.visible e.face.slots) : (e.handPrompts d).link = e.link := by
  rw [handPrompts_eq]
  unfold Engines.updFace
  rw [updFaceFrom_same hf h]
  rfl

/-- A handed PROMPT layer: the display is marked exactly where its visible content changes, and no other face changes. -/
theorem handPrompts_marks {e : Engines} {d : Nat} {f : Face} (h : e.LinksSafe) (hf : e.faceOf d = some f)
    (hon : e.online d = true) :
    ∃ g, (e.handPrompts d).faceOf d = some g ∧ (e.handPrompts d).face.slots = e.face.slots ∧
      (∀ c, c ≠ d → (e.handPrompts d).faceOf c = e.faceOf c) ∧
      g.prompt = (e.promptsOf d).map (Prompt.show e.ind.labels) ∧
      (f.visible e.face.slots ≠ g.visible e.face.slots → d ∈ ((e.handPrompts d).linkOf f.link).queue ∧
        ∀ fr, (e.linkOf f.link).frame = some fr → fr.display = d →
          ((e.handPrompts d).linkOf f.link).frame = some fr.overtaken) ∧
      (f.visible e.face.slots = g.visible e.face.slots → (e.handPrompts d).link = e.link) := by
  have htracks := (Engines.Tracks.start h hf hon).handPrompts fun _ _ => rfl
  obtain ⟨w, _, hg⟩ := htracks.face
  have hvisible : Face.visible e.face.slots { handed e d f with waitText := w } = (handed e d f).visible e.face.slots := rfl
  obtain ⟨hmarked, _⟩ := htracks.marks hg
  rw [htracks.slots] at hmarked
  exact ⟨_, hg, htracks.slots, fun c hc => (Engines.Spares.handPrompts e hc.symm).face, rfl, hmarked,
    fun hsame => handPrompts_links_same hf (hsame.trans hvisible).symm⟩

/-! ## The checks in their order -/

section Checks
variable {A : Ambient} {e : Engines} {d : Nat} {f : Face} {k : Keyed}

/-- What R38 asks of a keyed floor. -/
def Engines.entryValid (e : Engines) (f : Face) (k : Keyed) : Prop :=
  selectable e.ind k.dest = true ∧ k.dest ≠ f.bindB ∧ zoneServes e.ind f.zone f.bindB k.dest = true

theorem entryValid_iff : e.entryValid f k ↔
    ¬ (¬ selectable e.ind k.dest ∨ k.dest = f.bindB ∨ ¬ zoneServes e.ind f.zone f.bindB k.dest) := by
  unfold Engines.entryValid
  rw [not_or, not_or, not_not, not_not]

theorem checkEntry_covered (hc : f.cover ≠ none) :
    e.checkEntry A d f k = e.report A (.entryRefused d .override k.dest k.kind) :=
  if_pos (Option.isSome_iff_ne_none.2 hc)

theorem checkEntry_uncovered (hc : f.cover = none) : e.checkEntry A d f k =
    if ¬ selectable e.ind k.dest ∨ k.dest = f.bindB ∨ ¬ zoneServes e.ind f.zone f.bindB k.dest then
      e.pushPrompt A d (plainPrompt .invalid none k.dest k.kind)
    else if 64 ≤ e.dest.entries.length then e.refuseEntry A d k .tableFull
    else
      let ticket := freeTicket e.dest.entries e.dest.entries.length e.dest.ticket
      match e.timers.claim .entryWait (.ticket ticket) (later A.now A.settings.entryWait) 0 0 with
      | (tm, some place) => (e.setTimers tm).createEntry A d f k ticket place
      | (_, none) => e.refuseEntry A d k .timers :=
  if_neg (by rw [hc]; exact Bool.false_ne_true)

theorem checkEntry_invalid (hc : f.cover = none) (hv : ¬ e.entryValid f k) :
    e.checkEntry A d f k = e.pushPrompt A d (plainPrompt .invalid none k.dest k.kind) := by
  rw [entryValid_iff, not_not] at hv
  rw [checkEntry_uncovered hc, if_pos hv]

theorem checkEntry_tableFull (hc : f.cover = none) (hv : e.entryValid f k) (hfull : 64 ≤ e.dest.entries.length) :
    e.checkEntry A d f k = e.refuseEntry A d k .tableFull := by
  rw [checkEntry_uncovered hc, if_neg (entryValid_iff.1 hv), if_pos hfull]

theorem checkEntry_timersFull (hc : f.cover = none) (hv : e.entryValid f k) (hroom : e.dest.entries.length < 64)
    (hfull : 128 ≤ e.timers.list.length) : e.checkEntry A d f k = e.refuseEntry A d k .timers := by
  rw [checkEntry_uncovered hc, if_neg (entryValid_iff.1 hv), if_neg (Nat.not_le.2 hroom)]
  dsimp only
  rw [Timers.claim_full (Nat.not_lt.2 hfull)]

/-- The ticket that an entry taken now is given (R40). -/
def Engines.dueTicket (e : Engines) : Nat := freeTicket e.dest.entries e.dest.entries.length e.dest.ticket

/-- The entry in the table with its place claimed, before its prompt is pushed. -/
def Engines.withEntry (A : Ambient) (e : Engines) (d : Nat) (f : Face) (k : Keyed) : Engines :=
  (e.setTimers ⟨insertPlace e.timers.list ⟨e.timers.nextId, .entryWait, .ticket e.dueTicket,
    later A.now A.settings.entryWait, 0, 0⟩, e.timers.nextId + 1⟩).addEntry
      ⟨e.dueTicket, d, f.bindB, k.dest, k.kind, e.timers.nextId⟩

theorem checkEntry_taken (hc : f.cover = none) (hv : e.entryValid f k) (hroom : e.dest.entries.length < 64)
    (hplace : e.timers.list.length < 128) : e.checkEntry A d f k =
      ((e.withEntry A d f k).pushPrompt A d (plainPrompt .waiting (some e.dueTicket) k.dest k.kind)).report A
        (.entry e.dueTicket d f.bindB k.dest k.kind) := by
  rw [checkEntry_uncovered hc, if_neg (entryValid_iff.1 hv), if_neg (Nat.not_le.2 hroom)]
  dsimp only
  rw [Timers.claim_room hplace]
  rfl

end Checks

/-- Settles O51: one lemma for each outcome of the checks; of a push, its queue and the marks of the layer it hands. -/
theorem entryChecksAreTakenInOrder : Obligations.EntryChecksAreTakenInOrder := by
  intro A e d f k valid ticket id kept
  refine ⟨checkEntry_covered, checkEntry_invalid, fun hc hv hfull => checkEntry_tableFull hc hv hfull,
    fun hc hv hroom hfull => checkEntry_timersFull hc hv hroom hfull, fun hc hv hroom hplace => ?_,
    fun p q hk hold hq => ⟨pushPrompt_promptsOf_held hk hold hq, pushPrompt_entries,
      fun c hc => pushPrompt_promptsOf_other hc⟩, fun p hsafe hf hon => ?_⟩
  · rw [checkEntry_taken hc hv hroom hplace]
    refine ⟨pushPrompt_entries, pushPrompt_ticket, ?_, ?_, Engines.ClaimsSafe.freeTicket_free _ _ (by omega),
      fun q hq => ?_, fun c hc => pushPrompt_promptsOf_other hc⟩
    · rw [pushPrompt_waiting rfl, Engines.report_timers, Engines.handPrompts_timers]
      rfl
    · rw [pushPrompt_waiting rfl]
      unfold Engines.report
      rw [Engines.handPrompts_out]
      rfl
    · rw [pushPrompt_waiting rfl]
      refine (promptsOf_handPrompts d).trans ?_
      refine (promptsOf_storePrompts_self (e := (e.withEntry A d f k).release _) hq _).trans ?_
      exact congrArg (List.cons _) (congrArg keptPrompts (promptsOf_of_get (e := e) hq))
  · obtain ⟨e1, hpush, hface, hlink, hind⟩ := pushPrompt_hands (A := A) (e := e) (d := d) (p := p)
    have hfaces : ∀ c, e1.faceOf c = e.faceOf c := fun c => by unfold Engines.faceOf; rw [hface]
    have hlinks : ∀ n, e1.linkOf n = e.linkOf n := fun n => by unfold Engines.linkOf; rw [hlink]
    have hon1 : e1.online d = true := by rw [← hon]; unfold Engines.online; rw [hlink]
    obtain ⟨g, hg, hslots, hothers, hprompt, hmarked, hstands⟩ :=
      handPrompts_marks (hsafe.congr hface hlink) ((hfaces d).trans hf) hon1
    rw [hface] at hslots hmarked hstands
    rw [hlinks] at hmarked
    intro t
    have ht : t = e1.handPrompts d := hpush
    rw [ht]
    refine ⟨g, hg, hslots, fun c hc => (hothers c hc).trans (hfaces c), ?_, hmarked, fun hsame => ?_⟩
    · rw [hprompt, promptsOf_handPrompts, hind]
    · have hsame' := (hstands hsame).trans hlink
      unfold Engines.linkOf
      rw [hsame']
      exact ⟨rfl, rfl⟩

end Sys2Proof.Machine

/-! SUPPORT. A declined entry (R47, R48, R57 to R61). -/

namespace Sys2Proof.Machine

/-! ## A prompt that takes the place of the WAITING prompt -/

/-- What is left of a queue when a prompt takes the place of a ticket's WAITING prompt (R58). -/
def replacedPrompts (t : Nat) (q : List Prompt) : List Prompt :=
  if q.any (Prompt.waitsFor t) then q.eraseP (Prompt.waitsFor t) else keptPrompts q

/-- The hold that is released when a prompt takes the place of a ticket's WAITING prompt. -/
def replacedHold (t : Nat) (q : List Prompt) : Option Nat :=
  if q.any (Prompt.waitsFor t) || q.length < 4 then none else (q.getLast?).bind Prompt.hold

theorem replacedHold_waiting {t : Nat} {q : List Prompt} (h : q.any (Prompt.waitsFor t) = true) : replacedHold t q = none :=
  if_pos (by rw [h]; rfl)

theorem replacedHold_pushed {t : Nat} {q : List Prompt} (h : q.any (Prompt.waitsFor t) ≠ true) :
    replacedHold t q = pushedOut q := by
  unfold replacedHold pushedOut
  rw [Bool.eq_false_iff.2 h, Bool.false_or]
  by_cases hq : q.length < 4
  · rw [if_pos hq, if_pos (decide_eq_true hq)]
  · rw [if_neg hq, if_neg fun h => hq (of_decide_eq_true h)]

theorem Timers.release_room {tm : Timers} {id : Nat} (hmem : ∃ p ∈ tm.list, p.id = id) (hlen : tm.list.length ≤ 128) :
    (tm.release id).list.length < 128 := by
  obtain ⟨p, hp, hid⟩ := hmem
  have hlt : (tm.list.filter fun p => p.id != id).length < tm.list.length :=
    List.length_filter_lt_length_iff_exists.2 ⟨p, hp, by simp [hid]⟩
  exact Nat.lt_of_lt_of_le hlt hlen

section Replace
variable {A : Ambient} {e : Engines} {d t : Nat} {p : Prompt} {q : List Prompt}

theorem replacePrompt_placed (hq : e.dest.prompts.get d = some q) : e.replacePrompt A d t p =
    ((e.release (replacedHold t q)).placed A d p (replacedPrompts t q)).handPrompts d := by
  rw [replacePrompt_eq, pushPrompt_eq, promptsOf_of_get hq]
  unfold replacedPrompts
  by_cases hw : q.any (Prompt.waitsFor t) = true
  · rw [if_pos hw, if_pos hw, replacedHold_waiting hw, release_none]
  · rw [if_neg hw, if_neg hw, replacedHold_pushed hw]

theorem replacePrompt_entries : (e.replacePrompt A d t p).dest.entries = e.dest.entries := by
  rw [replacePrompt_eq]
  split
  · rw [Engines.handPrompts_dest, placed_entries]
  · exact pushPrompt_entries

theorem replacePrompt_promptsOf_other {c : Nat} (hc : c ≠ d) : (e.replacePrompt A d t p).promptsOf c = e.promptsOf c := by
  rw [replacePrompt_eq]
  split
  · rw [promptsOf_handPrompts, placed_promptsOf_other hc]
  · exact pushPrompt_promptsOf_other hc

/-- The prompt that takes the place holds the next place of the timer list, where there is room once the prompt that it
pushes out has released its own. -/
theorem replacePrompt_held (hk : p.kind ≠ .waiting) (hq : e.dest.prompts.get d = some q)
    (hroom : (e.timers.releaseOpt (replacedHold t q)).list.length < 128) :
    (e.replacePrompt A d t p).timers = ⟨insertPlace (e.timers.releaseOpt (replacedHold t q)).list
        ⟨e.timers.nextId, .promptHold, .prompt d, later A.now (holdTime A.settings p.kind p.entryKind), 0, 0⟩,
        e.timers.nextId + 1⟩ ∧
      (e.replacePrompt A d t p).promptsOf d = { p with hold := some e.timers.nextId } :: replacedPrompts t q ∧
      (e.replacePrompt A d t p).out = e.out := by
  have hq' : (e.release (replacedHold t q)).dest.prompts.get d = some q := hq
  have hnext : (e.release (replacedHold t q)).timers.nextId = e.timers.nextId := by cases replacedHold t q <;> rfl
  rw [replacePrompt_placed hq, promptsOf_handPrompts, Engines.handPrompts_timers, Engines.handPrompts_out,
    placed_held hk hq' hroom, Timers.held, hnext]
  exact ⟨rfl, promptsOf_storePrompts_self (e := (e.release (replacedHold t q)).setTimers _) hq' _, rfl⟩

end Replace

/-! ## The decline -/

section Decline
variable {A : Ambient} {e : Engines} {r : Rec4} {x : Entry}

theorem judgeAssign_late (h : e.dest.entries.find? (fun y => y.ticket == r.asnTicket) = none) : e.judgeAssign A r =
    e.report A (.assignRefused r.asnTicket .late r.asnCar r.asnDecline) := by
  unfold Engines.judgeAssign
  rw [h]

theorem judgeAssign_decline (h : e.dest.entries.find? (fun y => y.ticket == r.asnTicket) = some x)
    (hdest : r.asnDest = x.dest) (hdecline : r.asnDecline = true) : e.judgeAssign A r = e.declineEntry A x := by
  unfold Engines.judgeAssign
  rw [h]
  dsimp only
  rw [if_neg (not_not.2 hdest), if_pos hdecline]

end Decline

/-- Settles O27: the REFUSED prompt takes the place of the WAITING prompt, and the place that the entry releases makes room for
its hold. -/
theorem declineRefusesTheEntry : Obligations.DeclineRefusesTheEntry := by
  intro s slot h r hdecline
  refine ⟨fun x q hx hdest hq hplace hlen => ?_, fun hnone => ?_⟩
  · intro waiting kept pushedOut freed hold
    rw [exec_assignCommit_accepted h]
    refine ⟨_, rfl, rfl, ?_⟩
    have hmade : s.eng.judgeAssign s.ambient r = s.eng.declineEntry s.ambient x := judgeAssign_decline hx hdest hdecline
    have heng : (s.handedOver.engines fun A e => e.judgeAssign A r).eng = s.eng.declineEntry s.ambient x := hmade
    rw [heng]
    unfold Engines.declineEntry
    have hfreed : ((s.eng.endEntry x).timers.releaseOpt (replacedHold x.ticket q)).list.length < 128 :=
      Nat.lt_of_le_of_lt (Timers.releaseOpt_length _ _) (Timers.release_room hplace hlen)
    obtain ⟨htimers, hprompts, hout⟩ := replacePrompt_held (A := s.ambient)
      (p := plainPrompt .refused (some x.ticket) x.dest x.kind) PromptKind.noConfusion (e := s.eng.endEntry x) hq hfreed
    have hkeeps := (Engines.Keeps.endEntry s.eng x).trans (Engines.Keeps.replacePrompt s.ambient (s.eng.endEntry x) x.terminal
      x.ticket (plainPrompt .refused (some x.ticket) x.dest x.kind))
    exact ⟨replacePrompt_entries, htimers, hprompts, fun d hd => replacePrompt_promptsOf_other hd, hkeeps.stops,
      hkeeps.ticket, hout, hkeeps.ind, Engines.replacePrompt_play _ _ _ _ _, hkeeps.slots⟩
  · rw [exec_assignCommit_accepted h]
    have hmade : s.eng.judgeAssign s.ambient r = s.eng.report s.ambient (.assignRefused r.asnTicket .late r.asnCar true) := by
      rw [judgeAssign_late hnone, hdecline]
    exact congrArg (fun e => Host.Outcome.next { s with asm := { s.asm with handed := none }, eng := e }) hmade

end Sys2Proof.Machine

/-! SUPPORT. What the owners of the delivered places do (R24, R25, R49, R60, R89, R99, R148). -/

namespace Sys2Proof.Machine

/-! ## The rotation of a context (R99) -/

section Rotation
variable {ready : Fin 16 → Bool}

theorem firstReady_at {rot : List (Fin 16)} {i : Nat} {l : Fin 16} (hl : rot[i]? = some l) (hr : ready l = true)
    (hbefore : ∀ j m, j < i → rot[j]? = some m → ready m = false) (n : Nat) : firstReady ready rot n = some (n + i, l) := by
  obtain ⟨j, m, hfirst, hm, hready, hleast⟩ := firstReady_of_mem ready hr rot n (List.mem_of_getElem? hl)
  have hij : i = j := by
    rcases Nat.lt_trichotomy i j with h | h | h
    · exact absurd hr (Bool.eq_false_iff.1 (hleast i l h hl))
    · exact h
    · exact absurd hready (Bool.eq_false_iff.1 (hbefore j m h hm))
  subst hij
  cases hl.symm.trans hm
  exact hfirst

theorem firstReady_none {rot : List (Fin 16)} (h : ∀ l ∈ rot, ready l = false) (n : Nat) : firstReady ready rot n = none := by
  induction rot generalizing n with
  | nil => rfl
  | cons l rot ih =>
    rw [firstReady, if_neg (Bool.eq_false_iff.1 (h l List.mem_cons_self))]
    exact ih (fun m hm => h m (List.mem_cons_of_mem l hm)) (n + 1)

theorem atFirst_at {rot : List (Fin 16)} {i : Nat} {l : Fin 16} (hl : rot[i]? = some l) (hr : ready l = true)
    (hbefore : ∀ j m, j < i → rot[j]? = some m → ready m = false) (x : Context) :
    x.atFirst ready rot = { x with index := i, lang := some l } := by
  rw [atFirst_eq, firstPosition, firstReady_at hl hr hbefore, Nat.zero_add]

theorem atFirst_none {rot : List (Fin 16)} (h : ∀ l ∈ rot, ready l = false) (x : Context) :
    x.atFirst ready rot = { x with index := 0, lang := none } := by
  rw [atFirst_eq, firstPosition, firstReady_none h]

variable {r : Rec4} {x : Context}

/-- The next READY language of the rotation. -/
theorem advance_next {i : Nat} {l : Fin 16} (hi : x.index < i) (hl : r.ploRotation[i]? = some l) (hr : ready l = true)
    (hbefore : ∀ j m, x.index < j → j < i → r.ploRotation[j]? = some m → ready m = false) :
    x.advance ready r = ({ x with index := i, lang := some l }, false) := by
  obtain ⟨k, rfl⟩ : ∃ k, i = x.index + 1 + k := ⟨i - (x.index + 1), by omega⟩
  have hfirst : firstReady ready (r.ploRotation.drop (x.index + 1)) (x.index + 1) = some (x.index + 1 + k, l) := by
    refine firstReady_at (by rw [List.getElem?_drop]; exact hl) hr (fun j m hj hm => ?_) _
    rw [List.getElem?_drop] at hm
    exact hbefore _ m (by omega) (by omega) hm
  unfold Context.advance
  dsimp only
  rw [hfirst]

/-- Past the last READY language the pass ends. -/
theorem advance_last (h : ∀ i l, x.index < i → r.ploRotation[i]? = some l → ready l = false) : x.advance ready r =
    if r.ploRepeat = 0 then (x.atFirst ready r.ploRotation, false)
    else if x.remaining ≤ 1 then ({ x with remaining := 0 }, true)
    else ({ x with remaining := x.remaining - 1 }.atFirst ready r.ploRotation, false) := by
  have hfirst : firstReady ready (r.ploRotation.drop (x.index + 1)) (x.index + 1) = none := by
    refine firstReady_none (fun l hl => ?_) _
    obtain ⟨j, hj⟩ := List.mem_iff_getElem?.1 hl
    rw [List.getElem?_drop] at hj
    exact h _ l (by omega) hj
  unfold Context.advance
  dsimp only
  rw [hfirst]

/-- A context that completes has no pass left, and else stands as it was. -/
theorem advance_done (h : (x.advance ready r).2 = true) : (x.advance ready r).1 = { x with remaining := 0 } := by
  unfold Context.advance at h ⊢
  dsimp only at h ⊢
  repeat' split
  all_goals simp_all

end Rotation

/-! ## The next language of a slot (R89) -/

/-- In a rising list the first element with a property is the least. -/
theorem find?_least {n : Nat} {l : List (Fin n)} {p : Fin n → Bool} (hsorted : l.Pairwise (· < ·)) {m k : Fin n}
    (hm : l.find? p = some m) (hk : k ∈ l) (hp : p k = true) : m ≤ k := by
  induction l with
  | nil => cases hk
  | cons x l ih =>
    obtain ⟨hx, hrest⟩ := List.pairwise_cons.1 hsorted
    by_cases hpx : p x = true
    · rw [List.find?_cons_of_pos hpx] at hm
      cases hm
      rcases List.mem_cons.1 hk with rfl | hk
      · exact le_refl _
      · exact le_of_lt (hx k hk)
    · rw [List.find?_cons_of_neg hpx] at hm
      rcases List.mem_cons.1 hk with rfl | hk
      · exact absurd hp hpx
      · exact ih hrest hm hk

theorem nextReady_eq (ready : Fin 16 → Bool) (l : Fin 16) : nextReady ready l =
    (((List.finRange 16).filter fun x => l < x).find? ready).or (((List.finRange 16).filter fun x => x ≤ l).find? ready) := by
  unfold nextReady
  dsimp only
  rw [List.find?_append]

theorem nextReady_none (ready : Fin 16 → Bool) (l : Fin 16) : nextReady ready l = none ↔ ∀ k, ready k = false := by
  rw [nextReady_eq, Option.or_eq_none_iff, List.find?_eq_none, List.find?_eq_none]
  constructor
  · intro ⟨hafter, hupTo⟩ k
    rcases lt_or_ge l k with hk | hk
    · exact Bool.eq_false_iff.2 (hafter k (by simp [hk]))
    · exact Bool.eq_false_iff.2 (hupTo k (by simp [hk]))
  · exact fun h => ⟨fun k _ => Bool.eq_false_iff.1 (h k), fun k _ => Bool.eq_false_iff.1 (h k)⟩

/-- The next READY language is the least above, or the least of all where none is above. -/
theorem nextReady_some {ready : Fin 16 → Bool} {l m : Fin 16} (h : nextReady ready l = some m) : ready m = true ∧
    ∀ k, ready k = true → (l < m → l < k → m ≤ k) ∧ (m ≤ l → k ≤ l ∧ m ≤ k) := by
  have hsorted : (List.finRange 16).Pairwise (· < ·) := List.pairwise_lt_finRange 16
  rw [nextReady_eq, Option.or_eq_some_iff] at h
  rcases h with hm | ⟨hnone, hm⟩
  · have hlm : l < m := by simpa using List.mem_of_find?_eq_some hm
    refine ⟨List.find?_some hm, fun k hk => ⟨fun _ hlk => ?_, fun hml => absurd hlm (not_lt.2 hml)⟩⟩
    exact find?_least (hsorted.filter _) hm (by simp [hlk]) hk
  · have hml : m ≤ l := by simpa using List.mem_of_find?_eq_some hm
    refine ⟨List.find?_some hm, fun k hk => ⟨fun hlm => absurd hlm (not_lt.2 hml), fun _ => ?_⟩⟩
    have hkl : k ≤ l := not_lt.1 fun hlk => List.find?_eq_none.1 hnone k (by simp [hlk]) hk
    exact ⟨hkl, find?_least (hsorted.filter _) hm (by simp [hkl]) hk⟩

/-- The language after one. -/
def langAfter (ready : Fin 16 → Bool) (x : Option (Fin 16)) : Option (Fin 16) := x.elim (lowestReady ready) (nextReady ready)

theorem rotateSlot_lang (A : Ambient) (e : Engines) (k : Fin 4) :
    (slotOf (e.rotateSlot A k).face.slots k).lang = langAfter A.ready (slotOf e.face.slots k).lang := by
  refine (congrArg OverrideSlot.lang ((slotOf_updSlot e k k _).trans (if_pos rfl))).trans ?_
  show (match (slotOf e.face.slots k).lang with
    | some l => nextReady A.ready l
    | none => lowestReady A.ready) = _
  cases (slotOf e.face.slots k).lang <;> rfl

/-! ## Entries and prompts (R49, R60) -/

section Entry
variable {A : Ambient} {e : Engines} {p : TimerPlace}

theorem expireEntry_held {x : Entry} (h : e.dest.entries.find? (fun y => y.place == p.id) = some x) : e.expireEntry A p =
    ((e.endEntry x).replacePrompt A x.terminal x.ticket (plainPrompt .expired (some x.ticket) x.dest x.kind)).report A
      (.entryExpired x.ticket x.terminal x.dest) := by
  unfold Engines.expireEntry
  rw [h]

theorem expireEntry_gone (h : e.dest.entries.find? (fun y => y.place == p.id) = none) : e.expireEntry A p = e := by
  unfold Engines.expireEntry
  rw [h]

theorem expirePrompt_promptsOf (d : Nat) : (e.expirePrompt d p).promptsOf d =
    (e.promptsOf d).filter fun x => x.hold != some p.id := by
  unfold Engines.expirePrompt
  rw [promptsOf_handPrompts, Engines.ClaimsSafe.promptsOf_storePrompts, if_pos rfl]
  unfold Engines.promptsOf
  cases e.dest.prompts.get d <;> rfl

theorem expirePrompt_promptsOf_other {c d : Nat} (hc : c ≠ d) : (e.expirePrompt d p).promptsOf c = e.promptsOf c :=
  (promptsOf_handPrompts c).trans (promptsOf_storePrompts_other hc _)

/-- A place that no prompt of the queue holds leaves the queues as they are. -/
theorem expirePrompt_dest {d : Nat} (h : ∀ x ∈ e.promptsOf d, x.hold ≠ some p.id) : (e.expirePrompt d p).dest = e.dest := by
  have hall : (e.promptsOf d).filter (fun x => x.hold != some p.id) = e.promptsOf d :=
    List.filter_eq_self.2 fun x hx => bne_iff_ne.2 (h x hx)
  have htable : e.dest.prompts.modify d (fun _ => e.promptsOf d) = e.dest.prompts :=
    Tab.modify_fixed fun v hv => promptsOf_of_get hv
  unfold Engines.expirePrompt
  rw [Engines.handPrompts_dest, hall]
  exact congrArg (fun t => { e.dest with prompts := t }) htable

end Entry

/-! ## Lanterns and gongs (R24, R25) -/

section Signals
variable {A : Ambient} {e : Engines} {c : Fin 48} {p : TimerPlace}

theorem stays_iff : p.stays = true ↔ p.interval ≠ 0 ∧ p.count ≠ 1 := by
  unfold TimerPlace.stays
  rw [Bool.and_eq_true, bne_iff_ne, bne_iff_ne]

/-- A place at its last expiry is held no more. -/
theorem stays_place {x : Option Nat} (h : x = some p.id) : (if p.stays then x else none) =
    if p.interval ≠ 0 ∧ p.count ≠ 1 then some p.id else none := by
  rw [h]
  exact if_congr stays_iff rfl rfl

theorem flash_signalOf (h : (e.ind.signalOf c).lanternPlace = some p.id) (k : Fin 48) :
    (e.flash A c p).ind.signalOf k = if c = k then { e.ind.signalOf k with
      lit := !(e.ind.signalOf k).lit
      lanternPlace := if p.stays then (e.ind.signalOf k).lanternPlace else none } else e.ind.signalOf k := by
  unfold Engines.flash
  rw [if_pos h, Engines.rederive_ind]
  exact Engines.ClaimsSafe.signalOf_onSignal e c k _

/-- The displays that a gong reaches. -/
def strokeTargets (e : Engines) (c : Fin 48) : List Nat :=
  (e.face.faces.filter fun y => (e.ind.signalOf c).owns c y.2 && e.eligible y.1 y.2).map Prod.fst

/-- A face with one stroke more, at most 3. -/
def Face.struck (f : Face) : Face := { f with strokes := min (f.strokes + 1) 3 }

theorem stroke_eq (h : (e.ind.signalOf c).gongPlace = some p.id) : e.stroke c p =
    ((strokeTargets e c).foldl (fun acc d => acc.updFace d Face.struck) e).onSignal c fun x =>
      { x with gongPlace := if p.stays then x.gongPlace else none } := if_pos h

theorem foldl_struck_ind (ds : List Nat) (e : Engines) :
    (ds.foldl (fun acc d => acc.updFace d Face.struck) e).ind = e.ind := by
  induction ds generalizing e with
  | nil => rfl
  | cons d ds ih => exact (ih _).trans (Engines.updFace_ind e d _)

theorem foldl_struck_face {ds : List Nat} (hds : ds.Nodup) {d : Nat} {f : Face} (hf : e.faceOf d = some f) :
    ∃ g, (ds.foldl (fun acc d => acc.updFace d Face.struck) e).faceOf d = some g ∧
      g.strokes = if d ∈ ds then min (f.strokes + 1) 3 else f.strokes := by
  induction ds generalizing e with
  | nil => exact ⟨f, hf, rfl⟩
  | cons x ds ih =>
    obtain ⟨hx, hrest⟩ := List.nodup_cons.1 hds
    rw [List.foldl_cons]
    by_cases hxd : x = d
    · subst hxd
      have hstart : e.Holds x f.waitText f := ⟨f.waitText, .inl rfl, hf⟩
      obtain ⟨w, _, hg⟩ := holds_updFace hstart (g := Face.struck) fun _ _ => rfl
      have hspares := Engines.Spares.foldl (d := x) (fun acc d => acc.updFace d Face.struck) ds
        (fun b y hy => Engines.Spares.updFace b (ne_of_mem_of_not_mem hy hx) _) (e.updFace x Face.struck)
      exact ⟨_, hspares.face.trans hg, by rw [if_pos List.mem_cons_self]; rfl⟩
    · obtain ⟨g, hg, hstrokes⟩ := ih hrest ((Engines.Spares.updFace e hxd Face.struck).face.trans hf)
      refine ⟨g, hg, hstrokes.trans (if_congr ?_ rfl rfl)⟩
      rw [List.mem_cons, or_iff_right fun h => hxd h.symm]

theorem strokeTargets_nodup (hwf : Tab.wf e.face.faces = true) : (strokeTargets e c).Nodup := by
  have hkeys : (e.face.faces.map Prod.fst).Nodup := ((Tab.wf_iff _).1 hwf).imp fun hlt => Nat.ne_of_lt hlt
  exact hkeys.sublist (List.filter_sublist.map _)

theorem mem_strokeTargets (hwf : Tab.wf e.face.faces = true) {d : Nat} {f : Face} (hf : e.faceOf d = some f) :
    d ∈ strokeTargets e c ↔ (e.ind.signalOf c).owns c f ∧ e.eligible d f := by
  rw [← Bool.and_eq_true]
  unfold strokeTargets
  constructor
  · intro h
    obtain ⟨⟨k, g⟩, hmem, rfl⟩ := List.mem_map.1 h
    obtain ⟨hmem, hstruck⟩ := List.mem_filter.1 hmem
    cases (Tab.get_of_mem hwf hmem).symm.trans hf
    exact hstruck
  · exact fun h => List.mem_map.2 ⟨(d, f), List.mem_filter.2 ⟨Tab.mem_of_get hf, h⟩, rfl⟩

end Signals

/-! ## Contexts (R99) -/

section Dwell
variable {A : Ambient} {e : Engines} {c : Fin 16} {p : TimerPlace}

theorem expireDwell_gone (h : (e.ctx c).place ≠ some p.id) : e.expireDwell A c p = e := if_neg h

/-- The record that a context plays. -/
def Engines.played (e : Engines) (c : Fin 16) : Rec4 := (e.ctx c).accepted.getD Rec4.zero

theorem expireDwell_held (h : (e.ctx c).place = some p.id) : e.expireDwell A c p =
    if ((e.ctx c).advance A.ready (e.played c)).2 then
      (e.onCtx c fun _ => ((e.ctx c).advance A.ready (e.played c)).1).completeCtx A c (e.played c)
    else (e.onCtx c fun _ => ((e.ctx c).advance A.ready (e.played c)).1).handTargets c := if_pos h

theorem expireDwell_next (h : (e.ctx c).place = some p.id) (hnext : ((e.ctx c).advance A.ready (e.played c)).2 = false) :
    (e.expireDwell A c p).ctx c = ((e.ctx c).advance A.ready (e.played c)).1 := by
  rw [expireDwell_held h, if_neg (Bool.eq_false_iff.1 hnext)]
  unfold Engines.handTargets
  rw [ctx_handNotices, ctx_onCtx, if_pos rfl]

theorem completeCtx_ends (r : Rec4) : (e.completeCtx A c r).ctx c = { e.ctx c with state := .done, place := none, targets := [] } ∧
    (e.completeCtx A c r).timers = e.timers.releaseOpt (e.ctx c).place ∧
    (e.completeCtx A c r).out = e.out.report A.now (.playoutDone c r.ploRepeat) := by
  unfold Engines.completeCtx
  refine ⟨?_, ?_, ?_⟩
  · refine (ctx_handNotices _ _ c).trans ?_
    rw [ctx_onCtx, if_pos rfl, ctx_releaseDwell, if_pos rfl]
  · rw [Engines.report_timers, Engines.handNotices_timers]
    rfl
  · exact congrArg (fun o : Outbox => o.report A.now (.playoutDone c r.ploRepeat)) (Engines.handNotices_out _ _)

theorem expireDwell_done (h : (e.ctx c).place = some p.id) (hdone : ((e.ctx c).advance A.ready (e.played c)).2 = true) :
    (e.expireDwell A c p).ctx c = { e.ctx c with state := .done, remaining := 0, place := none, targets := [] } ∧
      (e.expireDwell A c p).timers = e.timers.release p.id ∧
      (e.expireDwell A c p).out = e.out.report A.now (.playoutDone c (e.played c).ploRepeat) := by
  have hctx : (e.onCtx c fun _ => { e.ctx c with remaining := 0 }).ctx c = { e.ctx c with remaining := 0 } := by
    rw [ctx_onCtx, if_pos rfl]
  rw [expireDwell_held h, if_pos hdone, advance_done hdone]
  obtain ⟨hends, htimers, hout⟩ := completeCtx_ends (A := A) (e := e.onCtx c fun _ => { e.ctx c with remaining := 0 })
    (c := c) (e.played c)
  rw [hctx] at hends htimers
  exact ⟨hends, htimers.trans (congrArg e.timers.releaseOpt h), hout⟩

end Dwell

/-- Settles O56: one lemma for each owner; the passes of a context are those of its rotation, and a slot's next language the
least above its own. -/
theorem ownersActOnTheirExpiry : Obligations.OwnersActOnTheirExpiry := by
  refine ⟨fun A e p => ⟨fun x hx => ?_, fun d => ⟨expirePrompt_promptsOf d, fun k hk => expirePrompt_promptsOf_other hk⟩,
      fun c hc => ?_, fun c d f hc hwf hf => ?_, fun c hc => ?_, fun c hc hnext => expireDwell_next hc hnext,
      fun c => expireDwell_done, fun k hk => ?_, fun k l hk => ?_⟩,
    fun A e p => ⟨expireEntry_gone, fun c hc => if_neg hc, fun c hc => if_neg hc, fun d hd => ?_,
      fun c hc => expireDwell_gone hc⟩,
    fun ready r x => ⟨fun i l hi hl hr hbefore => advance_next hi hl hr hbefore, fun hlast => ?_⟩,
    fun ready l => ⟨nextReady_none ready l, fun m => nextReady_some⟩⟩
  · rw [expireEntry_held hx]
    exact ⟨replacePrompt_entries, rfl⟩
  · refine ⟨?_, ?_, ?_, fun k hk => ?_⟩
    · rw [flash_signalOf hc, if_pos rfl]
    · rw [flash_signalOf hc, if_pos rfl]
    · rw [flash_signalOf hc, if_pos rfl]
      exact stays_place hc
    · rw [flash_signalOf hc, if_neg hk.symm]
  · obtain ⟨g, hg, hstrokes⟩ := foldl_struck_face (strokeTargets_nodup (c := c) hwf) hf
    refine ⟨g, ?_, hstrokes.trans (if_congr (mem_strokeTargets hwf hf) rfl rfl)⟩
    rw [stroke_eq hc]
    exact hg
  · rw [stroke_eq hc, Engines.ClaimsSafe.signalOf_onSignal, if_pos rfl, foldl_struck_ind]
    exact congrArg (fun x => { e.ind.signalOf c with gongPlace := x }) (stays_place hc)
  · exact (rotateSlot_lang A e k).trans (congrArg (langAfter A.ready) hk)
  · exact (rotateSlot_lang A e k).trans (congrArg (langAfter A.ready) hk)
  · exact ⟨expirePrompt_dest hd, Engines.handPrompts_timers _ d, Engines.handPrompts_out _ d, Engines.handPrompts_ind _ d⟩
  · have hfirst : ∀ y : Context, (∀ i l, r.ploRotation[i]? = some l → ready l = true →
        (∀ j m, j < i → r.ploRotation[j]? = some m → ready m = false) →
          y.atFirst ready r.ploRotation = { y with index := i, lang := some l }) ∧
        ((∀ l ∈ r.ploRotation, ready l = false) →
          y.atFirst ready r.ploRotation = { y with index := 0, lang := none }) :=
      fun y => ⟨fun i l hl hr hbefore => atFirst_at hl hr hbefore y, fun hall => atFirst_none hall y⟩
    have hends := advance_last hlast
    refine ⟨fun hrepeat => ?_, fun hrepeat hone => ?_, fun hrepeat htwo => ?_⟩
    · rw [hends, if_pos hrepeat]
      exact ⟨hfirst x, rfl⟩
    · rw [hends, if_neg hrepeat, if_pos hone]
    · rw [hends, if_neg hrepeat, if_neg (Nat.not_le.2 htwo)]
      exact ⟨hfirst _, rfl⟩

end Sys2Proof.Machine

/-! SUPPORT. The checks of the records as lists of conditions, the first that fails giving the reason (R2, R7, R15, R44, R45,
R80, R92, R120, R125, R128, R154, R162, R168, R172). -/

namespace Sys2Proof.Machine

/-! ## The first condition that fails -/

/-- The reason of the first condition of a list that fails. -/
def firstFailing (l : List (Bool × Reason)) : Option Reason := (l.find? fun x => !x.1).map Prod.snd

theorem firstFailing_fails {b : Bool} {why : Reason} {l : List (Bool × Reason)} (h : b = false) :
    firstFailing ((b, why) :: l) = some why := by
  rw [h]
  rfl

theorem firstFailing_passes {b : Bool} {why : Reason} {l : List (Bool × Reason)} (h : b = true) :
    firstFailing ((b, why) :: l) = firstFailing l := by
  rw [h]
  rfl

/-- A check that refuses exactly where the first condition fails goes on with the others. -/
theorem ite_eq_firstFailing {p : Prop} [Decidable p] {b : Bool} {why : Reason} {rest : Option Reason}
    {l : List (Bool × Reason)} (h : b = true ↔ ¬ p) (hrest : ¬ p → rest = firstFailing l) :
    (if p then some why else rest) = firstFailing ((b, why) :: l) := by
  by_cases hp : p
  · rw [if_pos hp, firstFailing_fails (Bool.eq_false_iff.2 fun hb => h.1 hb hp)]
  · rw [if_neg hp, firstFailing_passes (h.2 hp), hrest hp]

/-- A check with one condition. -/
theorem ite_eq_firstFailing_last {p : Prop} [Decidable p] {b : Bool} {why : Reason} (h : b = true ↔ ¬ p) :
    (if p then some why else none) = firstFailing [(b, why)] := ite_eq_firstFailing h fun _ => rfl

/-- A number in a range. -/
def inRange (n lo hi : Nat) : Bool := decide (lo ≤ n ∧ n ≤ hi)

@[simp] theorem inRange_iff {n lo hi : Nat} : inRange n lo hi = true ↔ lo ≤ n ∧ n ≤ hi := decide_eq_true_iff

/-! ## Codes -/

theorem serviceMode_none {n : Nat} : (ServiceMode.ofCode n).isNone ↔ 5 < n := by
  match n with
  | 0 | 1 | 2 | 3 | 4 | 5 => simp [ServiceMode.ofCode]
  | n + 6 => simp [ServiceMode.ofCode]

theorem loadState_none {n : Nat} : (LoadState.ofCode n).isNone ↔ 2 < n := by
  match n with
  | 0 | 1 | 2 => simp [LoadState.ofCode]
  | n + 3 => simp [LoadState.ofCode]

theorem arrow_none {n : Nat} : (Arrow.ofCode n).isNone ↔ 2 < n := by
  match n with
  | 0 | 1 | 2 => simp [Arrow.ofCode]
  | n + 3 => simp [Arrow.ofCode]

theorem door_none {n : Nat} : (Door.ofCode n).isNone ↔ 3 < n := by
  match n with
  | 0 | 1 | 2 | 3 => simp [Door.ofCode]
  | n + 4 => simp [Door.ofCode]

theorem walkHint_none {n : Nat} : (WalkHint.ofCode n).isNone ↔ 3 < n := by
  match n with
  | 0 | 1 | 2 | 3 => simp [WalkHint.ofCode]
  | n + 4 => simp [WalkHint.ofCode]

theorem toFin_none {n k : Nat} (h : n ≤ k) : toFin n k = none := dif_neg (Nat.not_lt.2 h)

theorem byteN_lt (w : Word) (n : Nat) : byteN w n < 256 := (byteOf w n).isLt

/-! ## Records of one condition -/

theorem checkLabel_eq (r : Rec4) : checkLabel r =
    firstFailing [(inRange (byteN r.w3 0) 0 1 && inRange (byteN r.w3 1) 0 1, .badValue)] := by
  refine ite_eq_firstFailing_last ?_
  simp only [Bool.and_eq_true, inRange_iff, Rec4.labStateCode, Rec4.labSelectCode]
  omega

theorem checkLanguage_eq (r : Rec4) : checkLanguage r = firstFailing [(inRange r.w3.toNat 0 8, .badValue)] := by
  refine ite_eq_firstFailing_last ?_
  rw [inRange_iff]
  omega

theorem checkAssign_eq (r : Rec4) : checkAssign r = firstFailing [
    (inRange (bitsN r.w0 0 16) 1 65535 && inRange (byteN r.w3 0) 0 1 &&
      (byteN r.w3 0 == 1 || inRange (byteN r.w1 1) 0 3) && inRange (bitsN r.w2 0 16) 0 255, .badValue)] := by
  have hticket : bitsN r.w0 0 16 < 65536 := (r.w0.extractLsb' 0 16).isLt
  refine ite_eq_firstFailing_last ?_
  simp only [Bool.and_eq_true, Bool.or_eq_true, inRange_iff, Rec4.asnTicket, Rec4.asnKindCode, Rec4.asnDecline, Rec4.asnWalk,
    Rec4.asnDest, walkHint_none, beq_iff_eq]
  omega

theorem checkSettings_eq (r : Rec8) : checkSettings r = firstFailing [
    (inRange r.w0.toNat 8 50 && inRange r.w1.toNat 1 255 && inRange r.w2.toNat 10 1000 && inRange r.w3.toNat 2 60 &&
      inRange r.w4.toNat 1 30 && inRange r.w5.toNat 1 30 && inRange r.w7.toNat 200 1000, .badValue)] := by
  refine ite_eq_firstFailing_last ?_
  simp only [Bool.and_eq_true, inRange_iff, Rec8.divider, Rec8.holdoffLimit, Rec8.statusPeriod, Rec8.entryWait,
    Rec8.assignedHold, Rec8.noticeHold, Rec8.gongSpacing]
  omega

theorem checkRing_off {r : Rec4} (h : r.w3 = 0) : checkRing r = none := if_pos (by rw [Rec4.ringSize, h]; rfl)

theorem toNat_ne_zero {w : Word} (h : w ≠ 0) : w.toNat ≠ 0 := fun h0 => h (BitVec.eq_of_toNat_eq h0)

theorem checkRing_on {r : Rec4} (h : r.w3 ≠ 0) : checkRing r = firstFailing [
    (inRange r.w3.toNat 16 1024 && r.w0.toNat % 16 == 0 && decide (r.w0.toNat + 16 * r.w3.toNat ≤ 0x4000000), .badValue)] := by
  refine (if_neg (toNat_ne_zero h)).trans (ite_eq_firstFailing_last ?_)
  have hspace : Config.addressSpace = 0x4000000 := rfl
  simp only [Bool.and_eq_true, inRange_iff, beq_iff_eq, decide_eq_true_iff, Rec4.ringSize, Rec4.ringBase]
  omega

/-! ## Records with a state -/

/-- The check of a record that is not withdrawn: its state is PRESENT, or none that is named. -/
theorem stated_eq_firstFailing {code : Nat} {rest : Option Reason} {b : Bool} {l : List (Bool × Reason)} (h : code ≠ 0)
    (hb : b = true → code = 1) (hrest : code = 1 → rest = firstFailing ((b, .badValue) :: l)) :
    (if 1 < code then some .badValue else if ¬ (code == 1) = true then none else rest) =
      firstFailing ((b, .badValue) :: l) := by
  by_cases h1 : code = 1
  · rw [if_neg (by omega), if_neg (by simp [h1]), hrest h1]
  · rw [if_pos (by omega), firstFailing_fails (Bool.eq_false_iff.2 fun hb' => h1 (hb hb'))]

theorem stated_off {code : Nat} {rest : Option Reason} (h : code = 0) :
    (if 1 < code then some Reason.badValue else if ¬ (code == 1) = true then none else rest) = none := by
  rw [h]
  rfl

theorem checkLink_off {r : Rec4} (h : byteN r.w3 0 = 0) : checkLink r = none := stated_off h

/-- No slot is an OUT slot and an IN slot. -/
theorem slots_apart_iff (a b : Word) : ((List.range 32).all fun i => !(a.getLsbD i && b.getLsbD i)) = true ↔ a &&& b = 0 := by
  rw [List.all_eq_true]
  constructor
  · intro h
    refine BitVec.eq_of_getLsbD_eq fun i hi => ?_
    have hslot := h i (List.mem_range.2 hi)
    rw [BitVec.getLsbD_and]
    exact (Bool.eq_false_of_not_eq_true' hslot).trans BitVec.getLsbD_zero.symm
  · intro h i _
    have hbit : (a &&& b).getLsbD i = false := by rw [h]; exact BitVec.getLsbD_zero
    rw [← BitVec.getLsbD_and, hbit]
    rfl

theorem checkLink_on {r : Rec4} (h : byteN r.w3 0 ≠ 0) : checkLink r = firstFailing [
    (byteN r.w3 0 == 1 && inRange (byteN r.w2 0) 0 2 && inRange (byteN r.w2 1) 48 96, .badValue),
    ((List.range 32).all fun i => !(r.w0.getLsbD i && r.w1.getLsbD i), .badSlots)] := by
  refine stated_eq_firstFailing (code := byteN r.w3 0) h (by simp +contextual) fun h1 =>
    ite_eq_firstFailing ?_ fun _ => ite_eq_firstFailing_last ?_
  · simp only [h1, true_and, Bool.and_eq_true, inRange_iff, beq_iff_eq, Rec4.lnkRateCode, Rec4.lnkLength]
    omega
  · rw [slots_apart_iff, not_not]

theorem checkSlot_off {r : Rec4} (h : byteN r.w3 0 = 0) : checkSlot r = none := by
  unfold checkSlot Rec4.ovrInForce Rec4.ovrStateCode
  rw [h]
  rfl

theorem checkSlot_on {r : Rec4} (h : byteN r.w3 0 ≠ 0) : checkSlot r = firstFailing [
    (byteN r.w3 0 == 1 && inRange (byteN r.w3 1) 0 2 && decide (byteN r.w0 1 ≤ byteN r.w0 2), .badValue)] := by
  unfold checkSlot Rec4.ovrInForce Rec4.ovrStateCode
  by_cases h1 : byteN r.w3 0 = 1
  · rw [if_neg (by omega)]
    refine ite_eq_firstFailing_last ?_
    simp only [h1, true_and, Bool.and_eq_true, inRange_iff, beq_iff_eq, decide_eq_true_iff, arrow_none, Rec4.ovrArrowCode,
      Rec4.ovrFirst, Rec4.ovrLast]
    omega
  · rw [if_pos (by omega), firstFailing_fails (by simp [h1])]

theorem checkPlayout_off {r : Rec4} (h : byteN r.w3 1 = 0) : checkPlayout r = none := by
  unfold checkPlayout Rec4.ploActionCode
  rw [h]
  rfl

/-- The language numbers of a rotation of 1 to 4 positions. -/
theorem langCodes_ok {r : Rec4} (h : 1 ≤ r.ploCount ∧ r.ploCount ≤ 4) :
    ((List.range r.ploCount).all fun k => inRange (bitsN r.w2 (5 * k) 5) 0 15) = true ↔
      ¬ r.ploLangCodes.any (fun l => decide (15 < l)) = true := by
  unfold Rec4.ploLangCodes
  generalize r.ploCount = n at h ⊢
  obtain rfl | rfl | rfl | rfl : n = 1 ∨ n = 2 ∨ n = 3 ∨ n = 4 := by omega
  all_goals simp [List.range_succ]

theorem checkPlayout_on {r : Rec4} (h : byteN r.w3 1 ≠ 0) : checkPlayout r = firstFailing [
    (byteN r.w3 1 == 1 && inRange (bitsN r.w2 20 4) 1 4 &&
      ((List.range (bitsN r.w2 20 4)).all fun k => inRange (bitsN r.w2 (5 * k) 5) 0 15) &&
      inRange (bitsN r.w2 24 8) 1 60 && decide (byteN r.w1 2 ≤ byteN r.w1 3), .badValue)] := by
  by_cases h1 : byteN r.w3 1 = 1
  · unfold checkPlayout
    rw [if_neg (by rw [Rec4.ploActionCode]; omega), if_neg (by rw [Rec4.ploActionCode]; omega)]
    refine ite_eq_firstFailing_last ?_
    by_cases hcount : 1 ≤ r.ploCount ∧ r.ploCount ≤ 4
    · have hcodes := langCodes_ok hcount
      rw [Rec4.ploCount] at hcount hcodes
      simp only [Bool.and_eq_true, hcodes, inRange_iff, beq_iff_eq, decide_eq_true_iff, Rec4.ploCount, Rec4.ploDwell,
        Rec4.ploFirst, Rec4.ploLast]
      cases r.ploLangCodes.any fun l => decide (15 < l) with
      | true => simp only [not_true, and_false, false_and, true_or, or_true]
      | false =>
        simp only [Bool.false_eq_true, not_false_iff, and_true, false_or]
        omega
    · rw [Rec4.ploCount] at hcount
      simp only [Bool.and_eq_true, inRange_iff, hcount, and_false, false_and, false_iff, not_not, Rec4.ploCount]
      omega
  · have hrefused : checkPlayout r = some .badValue := if_pos (by rw [Rec4.ploActionCode]; omega)
    rw [hrefused, firstFailing_fails (by simp [h1])]

end Sys2Proof.Machine

/-! SUPPORT. The checks that look at the state: CAR, ROSTER, relocation and window descriptor records, and the judgement of a
car (R7, R45, R125, R154, R162). -/

namespace Sys2Proof.Machine

/-! ## CAR records (R7) -/

theorem checkCar_none {i : Indication} {r : Rec4} (h : byteN r.w0 0 = 255) : checkCar i r = none := if_pos h

theorem checkCar_badGroup {i : Indication} {r : Rec4} (hbig : 7 < byteN r.w0 0) (h : byteN r.w0 0 ≠ 255) :
    checkCar i r = some .badValue := by
  have hnone : r.carGroup = none := toFin_none hbig
  refine (if_neg h).trans ?_
  rw [hnone]

/-- The values of a CAR record that names a group. -/
def carValues (r : Rec4) : Bool :=
  inRange (byteN r.w1 0) 0 5 && inRange (byteN r.w1 1) 0 2 && inRange (byteN r.w1 2) 0 2 && inRange (byteN r.w3 1) 0 2 &&
    inRange (byteN r.w3 2) 0 3 && (inRange (byteN r.w2 0) 0 127 || byteN r.w2 0 == 255)

theorem carValues_iff (r : Rec4) : carValues r = true ↔ ¬ (r.carMode.isNone ∨ r.carLoad.isNone ∨ r.carNext.isNone ∨
    r.carMotion.isNone ∨ r.carDoor.isNone ∨ (127 < r.carTarget ∧ r.carTarget ≠ 255)) := by
  simp only [carValues, Bool.and_eq_true, Bool.or_eq_true, inRange_iff, beq_iff_eq, Rec4.carMode, Rec4.carLoad, Rec4.carNext,
    Rec4.carMotion, Rec4.carDoor, Rec4.carTarget, serviceMode_none, loadState_none, arrow_none, door_none]
  omega

/-- The check of the position of a CAR record in its group. -/
def checkLanding (g : Rec8) (r : Rec4) : Option Reason :=
  match r.carLanding with
  | none => if r.carPosition = 254 ∨ r.carPosition = 255 then none else some .badLanding
  | some l =>
    if (g.floorOf l).isNone then some .badLanding
    else if g.double ∧ (g.floorOf (l + 1)).isNone then some .badLanding
    else none

/-- The conditions on the position: a landing of the group, with the one above in a DOUBLE group; or no landing. -/
def landingConditions (g : Rec8) (r : Rec4) : List (Bool × Reason) := [
  (inRange (byteN r.w3 0) 0 127 || byteN r.w3 0 == 254 || byteN r.w3 0 == 255, .badLanding),
  (!inRange (byteN r.w3 0) 0 127 || (g.floorOf (byteN r.w3 0)).isSome, .badLanding),
  (!inRange (byteN r.w3 0) 0 127 || !g.double || (g.floorOf (byteN r.w3 0 + 1)).isSome, .badLanding)]

theorem checkLanding_eq (g : Rec8) (r : Rec4) : checkLanding g r = firstFailing (landingConditions g r) := by
  unfold checkLanding landingConditions Rec4.carLanding Rec4.carPosition
  by_cases hat : byteN r.w3 0 ≤ 127
  · have hin : inRange (byteN r.w3 0) 0 127 = true := inRange_iff.2 ⟨Nat.zero_le _, hat⟩
    rw [if_pos hat, hin]
    refine Eq.trans ?_ (firstFailing_passes rfl).symm
    refine ite_eq_firstFailing ?_ fun _ => ite_eq_firstFailing_last ?_
    · cases g.floorOf (byteN r.w3 0) <;> simp
    · cases g.floorOf (byteN r.w3 0 + 1) <;> cases g.double <;> simp
  · have hin : inRange (byteN r.w3 0) 0 127 = false := Bool.eq_false_iff.2 fun h => hat (inRange_iff.1 h).2
    rw [if_neg hat, hin]
    by_cases hnone : byteN r.w3 0 = 254 ∨ byteN r.w3 0 = 255
    · refine (if_pos hnone).trans (Eq.trans ?_ (firstFailing_passes (by simpa using hnone)).symm)
      rfl
    · exact (if_neg hnone).trans (firstFailing_fails (by simpa using hnone)).symm

theorem checkCar_named {i : Indication} {r : Rec4} {g : Fin 8} (h : byteN r.w0 0 = g.val) : checkCar i r =
    firstFailing ((carValues r, .badValue) :: ((i.groupOf g).groupPresent, .noGroup) ::
      landingConditions (i.groupOf g) r) := by
  have hg := g.isLt
  have hgroup : r.carGroup = some g := by
    unfold Rec4.carGroup Rec4.carGroupCode
    rw [h]
    exact toFin_val g
  have hcode : r.carGroupCode ≠ 255 := by
    unfold Rec4.carGroupCode
    omega
  refine (if_neg hcode).trans ?_
  rw [hgroup]
  exact ite_eq_firstFailing (carValues_iff r) fun _ =>
    ite_eq_firstFailing (not_not.symm) fun _ => checkLanding_eq _ r

/-! ## The judgement of a car (R45) -/

section Judge
variable {e : Engines} {zone : BitVec 8}

theorem judgeCar_noCar {n : Nat} (h : 47 < n) : judgeCar e zone n = .error .badCar := by
  unfold judgeCar
  rw [toFin_none h]

theorem judgeCar_absent {c : Fin 48} (h : (e.ind.carOf c).accepted = none) : judgeCar e zone c = .error .badCar := by
  unfold judgeCar
  rw [toFin_val]
  dsimp only
  rw [h]

theorem judgeCar_noGroup {c : Fin 48} {r : Rec4} (hr : (e.ind.carOf c).accepted = some r) (h : 7 < byteN r.w0 0) :
    judgeCar e zone c = .error .badCar := by
  have hnone : r.carGroup = none := toFin_none h
  unfold judgeCar
  rw [toFin_val]
  dsimp only
  rw [hr]
  dsimp only
  rw [hnone]

theorem judgeCar_group {c : Fin 48} {r : Rec4} {g : Fin 8} (hr : (e.ind.carOf c).accepted = some r)
    (h : byteN r.w0 0 = g.val) : judgeCar e zone c =
      if ¬ (e.ind.groupOf g).groupPresent ∨ ¬ inMask zone g then .error .badCar
      else if r.carOutOfService then .error .carUnavailable
      else .ok (c, r) := by
  have hgroup : r.carGroup = some g := by
    unfold Rec4.carGroup Rec4.carGroupCode
    rw [h]
    exact toFin_val g
  unfold judgeCar
  rw [toFin_val]
  dsimp only
  rw [hr]
  dsimp only
  rw [hgroup]

theorem carOutOfService_iff (r : Rec4) : r.carOutOfService = true ↔ 3 ≤ byteN r.w1 0 ∧ byteN r.w1 0 ≤ 5 := by
  unfold Rec4.carOutOfService Rec4.carMode
  generalize byteN r.w1 0 = n
  match n with
  | 0 | 1 | 2 | 3 | 4 | 5 => simp [ServiceMode.ofCode, ServiceMode.inService]
  | n + 6 => simp [ServiceMode.ofCode]

theorem zoneOf_eq {d : Nat} {f : Face} (hf : e.faceOf d = some f) : e.zoneOf d = BitVec.ofNat 8 f.bindA := by
  unfold Engines.zoneOf
  rw [hf]
  rfl

/-- A late assignment is told of; so is one to another destination, and one whose car cannot take it. -/
theorem judgeAssign_mismatch {A : Ambient} {r : Rec4} {x : Entry}
    (h : e.dest.entries.find? (fun y => y.ticket == r.asnTicket) = some x) (hdest : r.asnDest ≠ x.dest) :
    e.judgeAssign A r = e.report A (.assignRefused r.asnTicket .mismatch r.asnCar r.asnDecline) := by
  unfold Engines.judgeAssign
  rw [h]
  exact if_pos hdest

theorem judgeAssign_badCar {A : Ambient} {r : Rec4} {x : Entry} {why : Reason}
    (h : e.dest.entries.find? (fun y => y.ticket == r.asnTicket) = some x) (hdest : r.asnDest = x.dest)
    (hdecline : r.asnDecline = false) (hcar : judgeCar e (e.zoneOf x.terminal) r.asnCar = .error why) :
    e.judgeAssign A r = e.report A (.assignRefused r.asnTicket why r.asnCar r.asnDecline) := by
  unfold Engines.judgeAssign
  rw [h]
  dsimp only
  rw [if_neg (not_not.2 hdest), if_neg (Bool.eq_false_iff.1 hdecline), hcar]

end Judge

/-! ## ROSTER records (R125) -/

/-- The values of a ROSTER record that is not ABSENT. -/
def rosterValues (r : Rec4) : Bool :=
  byteN r.w3 0 == 1 && inRange (byteN r.w0 2) 0 4 && inRange (byteN r.w0 0) 0 7 && inRange (byteN r.w0 1) 1 63

/-- The bindings that the class of a ROSTER record allows. -/
def rosterBindings (r : Rec4) : Bool :=
  match byteN r.w0 2 with
  | 0 => inRange r.rosBindA 0 47 && inRange r.rosBindB 0 127
  | 1 => inRange r.rosBindA 0 47 && inRange r.rosBindB 0 1
  | 2 => inRange r.rosBindA 0 47 && inRange r.rosBindB 0 1
  | 3 => inRange r.rosBindA 0 7 && inRange r.rosBindB 0 127
  | _ => true

theorem rosterBindings_iff {r : Rec4} {cls : DisplayClass} (h : r.rosClass = some cls) :
    rosterBindings r = bindingOk cls r.rosBindA r.rosBindB := by
  have ha : r.rosBindA ≤ 255 := Nat.le_of_lt_succ (byteN_lt r.w1 0)
  have hb : r.rosBindB ≤ 255 := Nat.le_of_lt_succ (byteN_lt r.w2 0)
  unfold Rec4.rosClass at h
  unfold rosterBindings
  generalize byteN r.w0 2 = code at h ⊢
  match code with
  | 0 | 1 | 2 | 3 =>
    cases h
    refine Bool.eq_iff_iff.2 ?_
    simp [bindingOk]
  | 4 =>
    cases h
    simp [bindingOk, ha, hb]
  | n + 5 => cases h

theorem rosClass_none {r : Rec4} : r.rosClass = none ↔ 4 < byteN r.w0 2 := by
  unfold Rec4.rosClass
  generalize byteN r.w0 2 = code
  match code with
  | 0 | 1 | 2 | 3 | 4 => simp [DisplayClass.ofCode]
  | n + 5 => simp [DisplayClass.ofCode]

theorem rosClass_terminal {r : Rec4} : r.rosClass = some .terminal ↔ byteN r.w0 2 = 4 := by
  unfold Rec4.rosClass
  generalize byteN r.w0 2 = code
  match code with
  | 0 | 1 | 2 | 3 | 4 => simp [DisplayClass.ofCode]
  | n + 5 => simp [DisplayClass.ofCode]

/-- The other displays. -/
def Engines.others (e : Engines) (d : Nat) : List (Nat × Face) := e.face.faces.filter fun x => x.1 != d

theorem dropTaken_eq {e : Engines} {d : Nat} {r : Rec4} (h : byteN r.w0 0 ≤ 7) :
    dropTaken e.face.faces d r.rosLink r.rosDrop =
      (e.others d).any fun x => x.2.link.val == byteN r.w0 0 && x.2.drop == byteN r.w0 1 := by
  have hlink : r.rosLink.val = byteN r.w0 0 := Nat.mod_eq_of_lt (Nat.lt_succ_of_le h)
  unfold dropTaken Engines.others
  rw [List.any_filter]
  refine congrArg (fun p => List.any e.face.faces p) (funext fun x => ?_)
  rw [Bool.and_assoc, ← hlink]
  congr 2
  exact Bool.eq_iff_iff.2 (by simp [Fin.ext_iff])

theorem otherTerminals_eq (e : Engines) (d : Nat) :
    otherTerminals e.face.faces d = ((e.others d).filter fun x => x.2.cls == .terminal).length := by
  unfold otherTerminals Engines.others
  rw [List.filter_filter]
  congr 1
  exact List.filter_congr fun x _ => Bool.and_comm _ _

theorem isTerminal_eq (e : Engines) (d : Nat) : e.isTerminal d = (e.faceOf d).any fun f => f.cls == .terminal := by
  unfold Engines.isTerminal
  cases e.faceOf d <;> rfl

theorem checkRoster_off {e : Engines} {d : Nat} {r : Rec4} (h : byteN r.w3 0 = 0) : checkRoster e d r = none := stated_off h

theorem checkRoster_on {e : Engines} {d : Nat} {r : Rec4} (h : byteN r.w3 0 ≠ 0) : checkRoster e d r = firstFailing [
    (rosterValues r, .badValue),
    (!(e.others d).any (fun x => x.2.link.val == byteN r.w0 0 && x.2.drop == byteN r.w0 1), .duplicateDrop),
    (byteN r.w0 2 != 4 || (e.faceOf d).any (fun f => f.cls == .terminal) ||
      decide (((e.others d).filter fun x => x.2.cls == .terminal).length < 32), .tooManyTerminals),
    (rosterBindings r, .badBinding)] := by
  refine stated_eq_firstFailing (code := byteN r.w3 0) h (by simp +contextual [rosterValues]) fun h1 => ?_
  cases hcls : r.rosClass with
  | none =>
    have hbig := rosClass_none.1 hcls
    refine (firstFailing_fails (Bool.eq_false_iff.2 fun hv => ?_)).symm
    simp only [rosterValues, Bool.and_eq_true, inRange_iff] at hv
    omega
  | some cls =>
    have hclass : ¬ 4 < byteN r.w0 2 := fun hbig => by cases hcls.symm.trans (rosClass_none.2 hbig)
    have hterminal : cls = .terminal ↔ byteN r.w0 2 = 4 := by
      rw [← rosClass_terminal, hcls, Option.some_inj]
    dsimp only
    refine ite_eq_firstFailing ?_ fun hvalues => ite_eq_firstFailing ?_ fun _ => ite_eq_firstFailing ?_ fun _ =>
      ite_eq_firstFailing_last ?_
    · simp only [rosterValues, h1, true_and, Bool.and_eq_true, inRange_iff, beq_iff_eq, Rec4.rosLinkCode, Rec4.rosDrop]
      omega
    · have hlink : byteN r.w0 0 ≤ 7 := by
        unfold Rec4.rosLinkCode at hvalues
        omega
      rw [← dropTaken_eq hlink]
      cases dropTaken e.face.faces d r.rosLink r.rosDrop <;> simp
    · rw [hterminal, isTerminal_eq, otherTerminals_eq]
      have hplaces : Config.terminalPlaces = 32 := rfl
      rw [hplaces]
      simp only [Bool.or_eq_true, bne_iff_ne, decide_eq_true_iff]
      generalize ((e.others d).filter fun x => x.2.cls == .terminal).length = n
      generalize (e.faceOf d).any (fun f => f.cls == .terminal) = b
      cases b <;> simp
      omega
    · rw [rosterBindings_iff hcls, not_not]

/-! ## Relocation and window descriptors (R154, R162) -/

/-- A byte range that is not empty shares a byte with an enabled window other than one. -/
def sharesWindow (p : MemPath) (but : Option (Fin 5)) (a n : Nat) : Bool := (List.finRange 5).any fun w =>
  some w != but && 16 * (p.window w).w3.toNat != 0 &&
    decide (a < (p.window w).w0.toNat + 16 * (p.window w).w3.toNat ∧ (p.window w).w0.toNat < a + n)

theorem meetsWindow_eq {p : MemPath} {but : Option (Fin 5)} {a n : Nat} (hn : 0 < n) :
    meetsWindow p but a n = sharesWindow p but a n := by
  unfold meetsWindow sharesWindow
  refine congrArg (fun q => List.any (List.finRange 5) q) (funext fun w => ?_)
  rw [Bool.and_assoc]
  congr 1
  rw [Bool.eq_iff_iff, Bool.and_eq_true, bne_iff_ne]
  unfold rangesMeet Rec4.winBase Rec4.winCount
  rw [decide_eq_true_iff, decide_eq_true_iff]
  omega

theorem checkRelocation_eq (p : MemPath) (r : Rec4) : checkRelocation p r = firstFailing [
    (r.w3.toNat % 0x1000 == 0 && decide (r.w3.toNat < 0x4000000), .badValue),
    (!sharesWindow p none r.w3.toNat 0x1000, .badWindow)] := by
  have hspace : Config.addressSpace = 0x4000000 := rfl
  refine ite_eq_firstFailing ?_ fun _ => ite_eq_firstFailing_last ?_
  · rw [Bool.and_eq_true, beq_iff_eq, decide_eq_true_iff]
    omega
  · rw [meetsWindow_eq (by decide)]
    cases sharesWindow p none r.w3.toNat 0x1000 <;> simp

theorem checkDescriptor_off {p : MemPath} {w : Fin 5} {r : Rec4} (h : r.w3 = 0) : checkDescriptor p w r = none :=
  if_pos (by rw [Rec4.winCount, h]; rfl)

theorem checkDescriptor_on {p : MemPath} {w : Fin 5} {r : Rec4} (h : r.w3 ≠ 0) : checkDescriptor p w r = firstFailing [
    (decide (r.w3.toNat ≤ windowMax w) && r.w0.toNat % 16 == 0 && decide (r.w0.toNat < 0x4000000), .badValue),
    (decide (r.w0.toNat + 16 * r.w3.toNat ≤ 0x4000000), .badWindow),
    (!sharesWindow p (some w) r.w0.toNat (16 * r.w3.toNat), .badWindow),
    (!decide (r.w0.toNat < p.reloc.w3.toNat + 0x1000 ∧ p.reloc.w3.toNat < r.w0.toNat + 16 * r.w3.toNat), .badWindow)] := by
  have hspace : Config.addressSpace = 0x4000000 := rfl
  have hcount : 0 < r.w3.toNat := Nat.pos_of_ne_zero (toNat_ne_zero h)
  have hsize : 0 < 16 * r.w3.toNat := by omega
  refine (if_neg (toNat_ne_zero h)).trans ?_
  refine ite_eq_firstFailing ?_ fun _ => ite_eq_firstFailing ?_ fun _ => ite_eq_firstFailing ?_ fun _ =>
    ite_eq_firstFailing_last ?_
  · rw [Bool.and_eq_true, Bool.and_eq_true, beq_iff_eq, decide_eq_true_iff, decide_eq_true_iff]
    unfold Rec4.winCount Rec4.winBase
    omega
  · rw [decide_eq_true_iff, hspace, Nat.not_lt]
    rfl
  · rw [← meetsWindow_eq hsize]
    unfold Rec4.winCount Rec4.winBase
    cases meetsWindow p (some w) r.w0.toNat (16 * r.w3.toNat) <;> simp
  · unfold rangesMeet Rec4.winCount Rec4.winBase MemPath.cbBase
    simp only [Bool.not_eq_true', decide_eq_false_iff_not, decide_eq_true_iff]
    omega

end Sys2Proof.Machine

/-! SUPPORT. The check of a group record (R2), and every check together with what a refused commit does (R45, R165). -/

namespace Sys2Proof.Machine

/-! ## Spans -/

/-- The used span words of a group record. -/
def usedSpans (r : Rec8) : List Word := [r.w1, r.w2, r.w3, r.w4].filter fun w => byteN w 0 != 255

/-- A span word as a span. -/
def wordSpan (w : Word) : Span := ⟨byteN w 0, byteN w 1, byteN w 2⟩

/-- A landing lies in a span. -/
def SpanHolds (w : Word) (l : Nat) : Prop := byteN w 0 ≤ l ∧ l ≤ byteN w 1

/-- The floor that a span gives a landing of it. -/
def spanFloor (w : Word) (l : Nat) : Nat := byteN w 2 + (l - byteN w 0)

/-- What R2 asks of the used spans. -/
def SpansGood (used : List Word) : Prop :=
  (∀ w ∈ used, byteN w 0 ≤ 127 ∧ byteN w 1 ≤ 127 ∧ byteN w 0 ≤ byteN w 1 ∧ spanFloor w (byteN w 1) ≤ 255) ∧
  used.Pairwise (fun v w => ∀ l, ¬ (SpanHolds v l ∧ SpanHolds w l)) ∧
  used.Pairwise (fun v w => ∀ l m, SpanHolds v l → SpanHolds w m → spanFloor v l ≠ spanFloor w m)

theorem filterMap_spanOf (l : List Word) : l.filterMap spanOf = (l.filter fun w => byteN w 0 != 255).map wordSpan := by
  induction l with
  | nil => rfl
  | cons w l ih =>
    by_cases h : byteN w 0 = 255
    · have hnone : spanOf w = none := if_pos h
      rw [List.filterMap_cons_none hnone, List.filter_cons_of_neg (by simpa using h), ih]
    · have hsome : spanOf w = some (wordSpan w) := if_neg h
      rw [List.filterMap_cons_some hsome, List.filter_cons_of_pos (by simpa using h), List.map_cons, ih]

theorem spans_eq (r : Rec8) : r.spans = (usedSpans r).map wordSpan := filterMap_spanOf _

theorem noPair_iff {α : Type} (rel : α → α → Bool) (l : List α) :
    noPair rel l = true ↔ l.Pairwise fun x y => rel x y = false := by
  induction l with
  | nil => simp [noPair]
  | cons x l ih => simp [noPair, ih]

/-- Two spans share a landing exactly where their ends say so. -/
theorem not_meets_iff {v w : Word} (hv : byteN v 0 ≤ byteN v 1) (hw : byteN w 0 ≤ byteN w 1) :
    (wordSpan v).meets (wordSpan w) = false ↔ ∀ l, ¬ (SpanHolds v l ∧ SpanHolds w l) := by
  unfold Span.meets wordSpan SpanHolds
  rw [decide_eq_false_iff_not]
  dsimp only
  constructor
  · intro h l hl
    omega
  · intro h hmeet
    have := h (max (byteN v 0) (byteN w 0))
    omega

/-- Two spans share a floor exactly where their base floors and lengths say so. -/
theorem not_overlaps_iff {v w : Word} (hv : byteN v 0 ≤ byteN v 1) (hw : byteN w 0 ≤ byteN w 1) :
    (wordSpan v).overlaps (wordSpan w) = false ↔
      ∀ l m, SpanHolds v l → SpanHolds w m → spanFloor v l ≠ spanFloor w m := by
  unfold Span.overlaps wordSpan SpanHolds spanFloor
  rw [decide_eq_false_iff_not]
  dsimp only
  constructor
  · intro h l m hl hm hsame
    omega
  · intro h hoverlap
    have := h (byteN v 0 + (max (byteN v 2) (byteN w 2) - byteN v 2)) (byteN w 0 + (max (byteN v 2) (byteN w 2) - byteN w 2))
      (by omega) (by omega)
    omega

theorem spansGood_iff (used : List Word) : SpansGood used ↔
    (used.map wordSpan).all (fun p => decide (p.first ≤ 127 ∧ p.last ≤ 127 ∧ p.first ≤ p.last)) = true ∧
    (used.map wordSpan).all (fun p => decide (p.base + (p.last - p.first) ≤ 255)) = true ∧
    noPair Span.meets (used.map wordSpan) = true ∧ noPair Span.overlaps (used.map wordSpan) = true := by
  have hall : (∀ w ∈ used, byteN w 0 ≤ 127 ∧ byteN w 1 ≤ 127 ∧ byteN w 0 ≤ byteN w 1 ∧ spanFloor w (byteN w 1) ≤ 255) ↔
      (used.map wordSpan).all (fun p => decide (p.first ≤ 127 ∧ p.last ≤ 127 ∧ p.first ≤ p.last)) = true ∧
      (used.map wordSpan).all (fun p => decide (p.base + (p.last - p.first) ≤ 255)) = true := by
    simp only [List.all_map, List.all_eq_true, Function.comp, decide_eq_true_iff, ← forall_and]
    refine forall_congr' fun w => ?_
    unfold wordSpan spanFloor
    tauto
  rw [SpansGood, hall, and_assoc, noPair_iff, noPair_iff, List.pairwise_map, List.pairwise_map]
  refine and_congr_right fun hends => and_congr_right fun _ => ?_
  have hrising : ∀ w ∈ used, byteN w 0 ≤ byteN w 1 := by
    intro w hw
    rw [List.all_map, List.all_eq_true] at hends
    exact (of_decide_eq_true (hends w hw)).2.2
  exact and_congr
    (List.Pairwise.iff_of_mem fun hv hw => (not_meets_iff (hrising _ hv) (hrising _ hw)).symm)
    (List.Pairwise.iff_of_mem fun hv hw => (not_overlaps_iff (hrising _ hv) (hrising _ hw)).symm)

/-! ## Group records (R2) -/

section Group
variable {r : Rec8}

/-- The values of a PRESENT group record. -/
def GroupValues (r : Rec8) : Prop :=
  byteN r.w7 0 = 1 ∧ byteN r.w0 0 ≤ 1 ∧ 100 ≤ bitsN r.w5 0 16 ∧ bitsN r.w5 0 16 ≤ 1000 ∧ byteN r.w6 0 ≤ 15

theorem checkGroup_off (h : byteN r.w7 0 = 0) : checkGroup r = none := stated_off h

theorem checkGroup_badValue (h : byteN r.w7 0 ≠ 0) (hv : ¬ GroupValues r) : checkGroup r = some .badValue := by
  unfold GroupValues at hv
  by_cases h1 : byteN r.w7 0 = 1
  · refine (if_neg ?_).trans ((if_neg ?_).trans (if_pos ?_))
    · exact Nat.not_lt.2 h1.le
    · exact not_not.2 (beq_iff_eq.2 h1)
    · unfold Rec8.deckCode Rec8.lanternInterval Rec8.flashCount
      omega
  · refine if_pos ?_
    unfold Rec8.groupStateCode
    omega

/-- The check of the spans of a group record. -/
def checkSpans (spans : List Span) : Option Reason :=
  if ¬ spans.all (fun p => decide (p.first ≤ 127 ∧ p.last ≤ 127 ∧ p.first ≤ p.last)) then some .badSpans
  else if ¬ spans.all (fun p => decide (p.base + (p.last - p.first) ≤ 255)) then some .badSpans
  else if ¬ noPair Span.meets spans then some .badSpans
  else if ¬ noPair Span.overlaps spans then some .badSpans
  else none

theorem checkGroup_values (hv : GroupValues r) : checkGroup r = checkSpans r.spans := by
  obtain ⟨h1, hdeck, hlow, hhigh, hflash⟩ := hv
  refine (if_neg ?_).trans ((if_neg ?_).trans (if_neg ?_))
  · exact Nat.not_lt.2 h1.le
  · exact not_not.2 (beq_iff_eq.2 h1)
  · unfold Rec8.deckCode Rec8.lanternInterval Rec8.flashCount
    omega

theorem checkGroup_good (hv : GroupValues r) (hs : SpansGood (usedSpans r)) : checkGroup r = none := by
  obtain ⟨hends, hfloors, hmeets, hoverlaps⟩ := (spansGood_iff _).1 hs
  rw [checkGroup_values hv, spans_eq]
  exact (if_neg (not_not.2 hends)).trans ((if_neg (not_not.2 hfloors)).trans
    ((if_neg (not_not.2 hmeets)).trans (if_neg (not_not.2 hoverlaps))))

theorem checkGroup_badSpans (hv : GroupValues r) (hs : ¬ SpansGood (usedSpans r)) : checkGroup r = some .badSpans := by
  rw [spansGood_iff] at hs
  rw [checkGroup_values hv, spans_eq]
  generalize (usedSpans r).map wordSpan = spans at hs ⊢
  unfold checkSpans
  by_cases hends : spans.all (fun p => decide (p.first ≤ 127 ∧ p.last ≤ 127 ∧ p.first ≤ p.last)) = true
  · by_cases hfloors : spans.all (fun p => decide (p.base + (p.last - p.first) ≤ 255)) = true
    · by_cases hmeets : noPair Span.meets spans = true
      · have hoverlaps : ¬ noPair Span.overlaps spans = true := fun h => hs ⟨hends, hfloors, hmeets, h⟩
        rw [if_neg (not_not.2 hends), if_neg (not_not.2 hfloors), if_neg (not_not.2 hmeets), if_pos hoverlaps]
      · rw [if_neg (not_not.2 hends), if_neg (not_not.2 hfloors), if_pos hmeets]
    · rw [if_neg (not_not.2 hends), if_pos hfloors]
  · rw [if_pos hends]

end Group

/-! ## The check of each place -/

section Places
variable {s : State}

theorem checkRecord_car (c : Fin 48) : s.checkRecord (.window carWindow c) = checkCar s.eng.ind (s.stagedSlot carWindow c) :=
  if_pos c.isLt

theorem checkRecord_assign (slot : Nat) :
    s.checkRecord (.window assignWindow slot) = checkAssign (s.stagedSlot assignWindow slot) := rfl

theorem checkRecord_roster (d : Nat) :
    s.checkRecord (.window rosterWindow d) = checkRoster s.eng d (s.stagedSlot rosterWindow d) := rfl

theorem checkRecord_label (f : Nat) : s.checkRecord (.window labelWindow f) = checkLabel (s.stagedSlot labelWindow f) := rfl

theorem checkRecord_playout (c : Fin 16) :
    s.checkRecord (.window playoutWindow c) = checkPlayout (s.stagedSlot playoutWindow c) := if_pos c.isLt

end Places

/-- Settles O23: one lemma for the check of each place, each condition in the order of its rule. -/
theorem refusedCommitsOnlyReport : Obligations.RefusedCommitsOnlyReport := by
  refine ⟨fun s p why hup hh hdiffers hcheck => exec_commit_refused hup hh hdiffers hcheck, fun s slot h => ?_,
    fun e zone => ?_, fun s => ?_⟩
  · intro r found refused
    have hassign : ∀ why, s.eng.judgeAssign s.ambient r =
        s.eng.report s.ambient (.assignRefused r.asnTicket why r.asnCar r.asnDecline) → refused why := fun why hjudged =>
      (exec_assignCommit_accepted h).trans
        (congrArg (fun e => Host.Outcome.next { s with asm := { s.asm with handed := none }, eng := e }) hjudged)
    exact ⟨fun hnone => hassign _ (judgeAssign_late hnone), fun x hx hdest => hassign _ (judgeAssign_mismatch hx hdest),
      fun x why hx hdest hdecline hcar => hassign _ (judgeAssign_badCar hx hdest hdecline hcar)⟩
  · refine ⟨fun n hn => judgeCar_noCar hn, fun c hc => judgeCar_absent hc, fun c r hr hbig => judgeCar_noGroup hr hbig,
      fun c r g hr hg => ?_, fun d f hf => zoneOf_eq hf⟩
    have hshut : ¬ ((e.ind.groupOf g).groupPresent = true ∧ zone.getLsbD g.val = true) ↔
        ¬ (e.ind.groupOf g).groupPresent = true ∨ ¬ inMask zone g = true := not_and_or
    rw [judgeCar_group hr hg]
    refine ⟨fun hopen => if_pos (hshut.1 hopen), fun hopen haway => ?_, fun hopen hhome => ?_⟩
    · exact (if_neg fun h => hshut.2 h hopen).trans (if_pos ((carOutOfService_iff r).2 haway))
    · exact (if_neg fun h => hshut.2 h hopen).trans (if_neg fun h => hhome ((carOutOfService_iff r).1 h))
  · refine ⟨fun c => ?_, fun slot => checkAssign_eq _, fun d => ⟨checkRoster_off, checkRoster_on⟩, fun f => checkLabel_eq _,
      fun c => ?_, checkRelocation_eq _ _, fun w => ⟨checkDescriptor_off, checkDescriptor_on⟩, checkSettings_eq _,
      fun g => ⟨checkGroup_off, checkGroup_badValue, checkGroup_badSpans, checkGroup_good⟩,
      fun n => ⟨checkLink_off, checkLink_on⟩, fun k => ⟨checkSlot_off, checkSlot_on⟩, fun l => checkLanguage_eq _,
      checkRing_off, checkRing_on⟩
    · intro r at' check
      have hcheck : check = checkCar s.eng.ind r := checkRecord_car c
      rw [hcheck]
      exact ⟨checkCar_none, checkCar_badGroup, fun g hg => checkCar_named hg⟩
    · intro r count check
      have hcheck : check = checkPlayout r := checkRecord_playout c
      rw [hcheck]
      exact ⟨checkPlayout_off, checkPlayout_on⟩

end Sys2Proof.Machine

/-! SUPPORT. What the operations on the face of one display leave: the links while it is not ONLINE, its bare layers, the entries,
its prompts, and the target sets (R53, R62, R74, R75, R86, R97). -/

namespace Sys2Proof.Machine

/-! ## A bare face -/

/-- A face with no stroke, no prompt and no wait mark. -/
structure Face.Bare (f : Face) : Prop where
  strokes : f.strokes = 0
  prompt : f.prompt = []
  waitText : f.waitText = none
  waitGlyphs : f.waitGlyphs = []

/-- The face of a display, where it has one, is bare. -/
def Engines.BareAt (e : Engines) (d : Nat) : Prop := ∀ f, e.faceOf d = some f → f.Bare

theorem bareAt_congr {e e' : Engines} {d : Nat} (h : e'.faceOf d = e.faceOf d) : e'.BareAt d ↔ e.BareAt d := by
  unfold Engines.BareAt
  rw [h]

theorem bareAt_storeFace {e : Engines} {d : Nat} {g : Face → Face} (hg : ∀ f, e.faceOf d = some f → (g f).Bare) :
    (e.storeFace d g).BareAt d := by
  intro f hf
  rw [faceOf_storeFace, if_pos rfl] at hf
  obtain ⟨x, hx, rfl⟩ := Option.map_eq_some_iff.1 hf
  exact hg x hx

theorem bareAt_changeMark {e : Engines} {d : Nat} (h : e.BareAt d) (rise : Bool) : (e.changeMark d rise).BareAt d := by
  intro f hf
  rw [faceOf_changeMark_self] at hf
  obtain ⟨x, hx, rfl⟩ := Option.map_eq_some_iff.1 hf
  obtain ⟨hstrokes, hprompt, -, hglyphs⟩ := h x hx
  exact ⟨hstrokes, hprompt, rfl, hglyphs⟩

theorem bareAt_updFaceFrom {e : Engines} {d : Nat} (v : Vector OverrideSlot 4) {g : Face → Face}
    (hg : ∀ f, e.faceOf d = some f → (g f).Bare) : (e.updFaceFrom v d g).BareAt d := by
  cases hf : e.faceOf d with
  | none =>
    unfold Engines.updFaceFrom
    rw [hf]
    intro f h
    cases hf.symm.trans h
  | some x =>
    by_cases hsame : (g x).visible e.face.slots = x.visible v
    · rw [updFaceFrom_same hf hsame]
      exact bareAt_storeFace hg
    · rw [updFaceFrom_marks hf hsame]
      exact bareAt_changeMark (bareAt_storeFace hg) _

/-! ## The marks of a display that is not ONLINE -/

theorem changeMark_link_offline {e : Engines} {d : Nat} (h : e.online d = false) (rise : Bool) :
    (e.changeMark d rise).link = e.link := by
  unfold Engines.changeMark
  cases e.faceOf d with
  | none => rfl
  | some f =>
    have hon : (e.storeFace d fun f => { f with waitText := none }).online d ≠ true := Bool.eq_false_iff.1 h
    exact (congrArg Engines.link (if_neg hon)).trans rfl

theorem updFaceFrom_link_offline {e : Engines} {d : Nat} (v : Vector OverrideSlot 4) (g : Face → Face)
    (h : e.online d = false) : (e.updFaceFrom v d g).link = e.link := by
  cases hf : e.faceOf d with
  | none =>
    unfold Engines.updFaceFrom
    rw [hf]
  | some x =>
    by_cases hsame : (g x).visible e.face.slots = x.visible v
    · rw [updFaceFrom_same hf hsame]
      rfl
    · rw [updFaceFrom_marks hf hsame]
      exact changeMark_link_offline (e := e.storeFace d g) h _

/-! ## Operations on the face of one display -/

/-- What an operation on the face of a display leaves: every link while the display is not ONLINE, the face bare where it was,
no entry that was not there, and no prompt where there was none. -/
structure Engines.Touches (d : Nat) (e e' : Engines) : Prop where
  link : e.online d = false → e'.link = e.link
  bare : e.BareAt d → e'.BareAt d
  entries : ∀ y ∈ e'.dest.entries, y ∈ e.dest.entries
  prompts : e.promptsOf d = [] → e'.promptsOf d = []

theorem online_congr {e e' : Engines} (h : e'.link = e.link) (d : Nat) : e'.online d = e.online d := by
  unfold Engines.online
  rw [h]

theorem faceOf_congr {e e' : Engines} (h : e'.face = e.face) (d : Nat) : e'.faceOf d = e.faceOf d := by
  unfold Engines.faceOf
  rw [h]

theorem promptsOf_congr {e e' : Engines} (h : e'.dest = e.dest) (d : Nat) : e'.promptsOf d = e.promptsOf d := by
  unfold Engines.promptsOf
  rw [h]

theorem removed_promptsOf (e : Engines) (d : Nat) : (e.storePrompts d []).promptsOf d = [] := by
  rw [Engines.ClaimsSafe.promptsOf_storePrompts, if_pos rfl]
  cases e.dest.prompts.get d <;> rfl

theorem cancelled_promptsOf (A : Ambient) (e : Engines) (d : Nat) (why : Reason) : (cancelled A e d why).promptsOf d = [] :=
  removed_promptsOf _ d

/-- The cancelled entries are gone, and no other comes. -/
theorem mem_entries_endEntries (A : Ambient) (d : Nat) (why : Reason) (l : List Entry) (e : Engines) {y : Entry}
    (hy : y ∈ (l.foldl (fun e x => (e.endEntry x).report A (.entryCancelled x.ticket d why)) e).dest.entries) :
    y ∈ e.dest.entries ∧ ∀ x ∈ l, y.ticket ≠ x.ticket := by
  induction l generalizing e with
  | nil => exact ⟨hy, fun x hx => absurd hx List.not_mem_nil⟩
  | cons x l ih =>
    obtain ⟨hmem, hrest⟩ := ih _ hy
    obtain ⟨hmem, hx⟩ := List.mem_filter.1 (show y ∈ e.dest.entries.filter fun y => y.ticket != x.ticket from hmem)
    exact ⟨hmem, List.forall_mem_cons.2 ⟨bne_iff_ne.1 hx, hrest⟩⟩

theorem foldl_release_entries (ps : List Prompt) (e : Engines) :
    (ps.foldl (fun e p => e.release p.hold) e).dest.entries = e.dest.entries := by
  induction ps generalizing e with
  | nil => rfl
  | cons p ps ih => exact ih _

/-- R53: a terminal's cancelled entries are gone. -/
theorem mem_entries_cancelled {A : Ambient} {e : Engines} {d : Nat} {why : Reason} {y : Entry}
    (hy : y ∈ (cancelled A e d why).dest.entries) : y ∈ e.dest.entries ∧ y.terminal ≠ d := by
  unfold cancelled at hy
  have hy' := hy
  dsimp only [Engines.storePrompts, Engines.setPrompts] at hy'
  rw [foldl_release_entries] at hy'
  obtain ⟨hmem, hgone⟩ := mem_entries_endEntries A d why _ e hy'
  exact ⟨hmem, fun hd => hgone y (List.mem_filter.2 ⟨hmem, beq_iff_eq.2 hd⟩) rfl⟩

namespace Engines.Touches

variable {d : Nat}

theorem refl (e : Engines) : Touches d e e := ⟨fun _ => rfl, id, fun _ hy => hy, id⟩

theorem trans {a b c : Engines} (h : Touches d a b) (k : Touches d b c) : Touches d a c :=
  ⟨fun hoff => (k.link ((online_congr (h.link hoff) d).trans hoff)).trans (h.link hoff), fun hb => k.bare (h.bare hb),
    fun y hy => h.entries y (k.entries y hy), fun hp => k.prompts (h.prompts hp)⟩

theorem foldl {α : Type} (op : Engines → α → Engines) (l : List α) (h : ∀ (b : Engines), ∀ x ∈ l, Touches d b (op b x))
    (e : Engines) : Touches d e (l.foldl op e) :=
  foldl_inv_mem (fun b => Touches d e b) op l (fun b x hx hb => hb.trans (h b x hx)) e (refl e)

/-- An operation on neither faces, links nor prompts. -/
theorem of_frame {e e' : Engines} (hface : e'.face = e.face) (hlink : e'.link = e.link) (hdest : e'.dest = e.dest) :
    Touches d e e' :=
  ⟨fun _ => hlink, (bareAt_congr (faceOf_congr hface d)).2, fun y hy => by rwa [hdest] at hy,
    (promptsOf_congr hdest d).trans⟩

theorem updFaceFrom (e : Engines) (v : Vector OverrideSlot 4) {g : Face → Face} (hg : ∀ f : Face, f.Bare → (g f).Bare) :
    Touches d e (e.updFaceFrom v d g) :=
  ⟨updFaceFrom_link_offline v g, fun hb => bareAt_updFaceFrom v fun f hf => hg f (hb f hf),
    fun y hy => by rwa [Engines.updFaceFrom_dest] at hy, (promptsOf_congr (Engines.updFaceFrom_dest e v d g) d).trans⟩

theorem handNotice (e : Engines) : Touches d e (e.handNotice d) :=
  updFaceFrom e _ fun _ h => ⟨h.strokes, h.prompt, h.waitText, h.waitGlyphs⟩

theorem handNotices (e : Engines) {ds : List Nat} (hds : ∀ x ∈ ds, x = d) : Touches d e (e.handNotices ds) :=
  foldl Engines.handNotice ds (fun b x hx => by rw [hds x hx]; exact handNotice b) e

theorem coverNotice (A : Ambient) (e : Engines) {ds : List Nat} (hds : ∀ x ∈ ds, x = d) : Touches d e (e.coverNotice A ds) := by
  have hdest : (coverTested A e ds).dest = e.dest := foldl_keeps Engines.dest _ (fun b c => by split <;> simp) _ e
  exact (of_frame (coverTested_face A e ds) (coverTested_link A e ds) hdest).trans (handNotices _ hds)

theorem targetNotice (A : Ambient) (e : Engines) : Touches d e (e.targetNotice A d) := by
  have hdest : (retargeted A e d).dest = e.dest := by
    unfold retargeted
    rw [foldl_keeps Engines.dest _ fun b c => by split <;> simp, Engines.setPlay_dest]
  exact (of_frame (retargeted_face A e d) (retargeted_link A e d) hdest).trans (handNotice _)

theorem cancelTerminal (A : Ambient) (e : Engines) (why : Reason) : Touches d e (e.cancelTerminal A d why) := by
  have hlink := cancelled_link A e d why
  have hempty := cancelled_promptsOf A e d why
  rw [cancelTerminal_eq]
  refine ⟨fun hoff => ?_, fun hb => bareAt_updFaceFrom _ fun f hf => ?_, fun y hy => ?_, fun _ => ?_⟩
  · exact (updFaceFrom_link_offline _ _ ((online_congr hlink d).trans hoff)).trans hlink
  · obtain ⟨hstrokes, -, htext, hglyphs⟩ := hb f ((faceOf_congr (cancelled_face A e d why) d).symm.trans hf)
    exact ⟨hstrokes, by rw [hempty]; rfl, htext, hglyphs⟩
  · rw [Engines.handPrompts_dest] at hy
    exact (mem_entries_cancelled hy).1
  · rw [promptsOf_handPrompts, hempty]

theorem onset (A : Ambient) (e : Engines) (k : Fin 4) (cls : DisplayClass) : Touches d e (e.onset A d k cls) := by
  have hcover : Touches d e (e.updFace d fun f => { f with cover := some k, strokes := 0 }) :=
    updFaceFrom e _ fun _ h => ⟨rfl, h.prompt, h.waitText, h.waitGlyphs⟩
  unfold Engines.onset
  dsimp only
  split
  · exact hcover.trans (cancelTerminal A _ _)
  · exact hcover

theorem moveCover (A : Ambient) (e : Engines) (v : Vector OverrideSlot 4) (old new : Option (Fin 4)) (cls : DisplayClass) :
    Touches d e (e.moveCover A v d old new cls) := by
  cases old with
  | none =>
    cases new with
    | none => exact refl e
    | some k => exact onset A e k cls
  | some a =>
    cases new with
    | none => exact updFaceFrom e _ fun _ h => ⟨h.strokes, h.prompt, h.waitText, h.waitGlyphs⟩
    | some k =>
      show Touches d e (if a = k then e else e.transfer v d k)
      split
      · exact refl e
      · exact updFaceFrom e _ fun _ h => ⟨h.strokes, h.prompt, h.waitText, h.waitGlyphs⟩

theorem coverEvent (A : Ambient) (e : Engines) : Touches d e (e.coverEvent A [d]) := by
  have hdisplays : ∀ m ∈ coverMoves e [d], m.display = d := fun m hm =>
    List.mem_singleton.1 ((coverMoves_sublist e [d]).subset (List.mem_map_of_mem hm))
  unfold Engines.coverEvent Engines.coverEventFrom
  extract_lets moves e1 named
  have h1 : Touches d e e1 := foldl _ _ (fun b m hm => by rw [hdisplays m hm]; exact moveCover A b _ _ _ _) e
  split
  · exact h1
  · refine h1.trans (coverNotice A e1 fun x hx => ?_)
    obtain ⟨m, hm, rfl⟩ := List.mem_map.1 hx
    exact hdisplays m (List.mem_filter.1 hm).1

end Engines.Touches

/-! ## The target sets -/

/-- What decides whether a context keeps a display in its target set: the set itself, and whether the context is active. -/
def Context.aim (x : Context) : List Nat × Bool := (x.targets, x.active)

theorem targets_of_aim {x y : Context} (h : x.aim = y.aim) : x.targets = y.targets := congrArg Prod.fst h

theorem active_of_aim {x y : Context} (h : x.aim = y.aim) : x.active = y.active := congrArg Prod.snd h

/-- Every context keeps its target set and stays active or not. -/
def Engines.KeepsAims (e e' : Engines) : Prop := ∀ k, (e'.ctx k).aim = (e.ctx k).aim

namespace Engines.KeepsAims

theorem refl (e : Engines) : e.KeepsAims e := fun _ => rfl

theorem trans {a b c : Engines} (h : a.KeepsAims b) (k : b.KeepsAims c) : a.KeepsAims c := fun i => (k i).trans (h i)

theorem of_play {e e' : Engines} (h : e'.play = e.play) : e.KeepsAims e' := fun k => by
  unfold Engines.ctx
  rw [h]

theorem foldl {α : Type} (op : Engines → α → Engines) (h : ∀ (e : Engines) (x : α), e.KeepsAims (op e x)) (l : List α)
    (e : Engines) : e.KeepsAims (l.foldl op e) :=
  foldl_inv (fun b => e.KeepsAims b) op (fun b x hb => hb.trans (h b x)) l e (refl e)

theorem onCtx (e : Engines) (c : Fin 16) {g : Context → Context} (hg : (g (e.ctx c)).aim = (e.ctx c).aim) :
    e.KeepsAims (e.onCtx c g) := by
  intro k
  rw [ctx_onCtx]
  split
  · next h => subst h; exact hg
  · rfl

theorem claimDwell (A : Ambient) (e : Engines) (c : Fin 16) (n : Nat) : e.KeepsAims (e.claimDwell A c n) := by
  intro k
  rw [ctx_claimDwell]
  split <;> rfl

theorem releaseDwell (e : Engines) (c : Fin 16) : e.KeepsAims (e.releaseDwell c) := by
  intro k
  rw [ctx_releaseDwell]
  split <;> rfl

theorem suspend (A : Ambient) (e : Engines) {c : Fin 16} (h : (e.ctx c).state = .playing) : e.KeepsAims (e.suspend A c) := by
  refine (releaseDwell e c).trans (onCtx (e.releaseDwell c) c ?_)
  have hstate : ((e.releaseDwell c).ctx c).state = .playing := by
    rw [ctx_releaseDwell, if_pos rfl]
    exact h
  unfold Context.aim Context.active
  rw [hstate]
  rfl

theorem resume (A : Ambient) (e : Engines) {c : Fin 16} (h : (e.ctx c).state = .suspended) : e.KeepsAims (e.resume A c) := by
  refine (onCtx e c ?_).trans (claimDwell A _ c _)
  unfold Context.aim Context.active
  rw [h]
  rfl

theorem targetEvent (A : Ambient) (e : Engines) (c : Fin 16) : e.KeepsAims (e.targetEvent A c) := by
  unfold Engines.targetEvent
  dsimp only
  split
  · next h =>
    split
    · exact suspend A e h
    · split
      · exact claimDwell A e c _
      · exact refl e
  · next h =>
    split
    · exact resume A e h
    · exact refl e
  · exact refl e
  · exact refl e

theorem coverNotice (A : Ambient) (e : Engines) (ds : List Nat) : e.KeepsAims (e.coverNotice A ds) := by
  have hevents : e.KeepsAims (coverTested A e ds) := foldl _ (fun b c => by
    split
    · exact targetEvent A b c
    · exact refl b) _ e
  exact hevents.trans (of_play (Engines.handNotices_play _ _))

theorem coverEvent (A : Ambient) (e : Engines) (ds : List Nat) : e.KeepsAims (e.coverEvent A ds) := by
  unfold Engines.coverEvent Engines.coverEventFrom
  extract_lets moves e1 named
  have hmoves : e.KeepsAims e1 := foldl (fun acc (m : CoverMove) => acc.moveCover A e.face.slots m.display m.old m.new m.cls)
    (fun b m => of_play (by simp)) _ e
  split
  · exact hmoves
  · exact hmoves.trans (coverNotice A e1 named)

end Engines.KeepsAims

/-- One pass of a change over the contexts. -/
theorem ctxOf_foldl_upd (g : Context → Context) {l : List (Fin 16)} (hl : l.Nodup) (v : Vector Context 16) (k : Fin 16) :
    ctxOf (l.foldl (fun p c => upd p c g) v) k = if k ∈ l then g (ctxOf v k) else ctxOf v k := by
  induction l generalizing v with
  | nil => rfl
  | cons c l ih =>
    obtain ⟨hc, hrest⟩ := List.nodup_cons.1 hl
    rw [List.foldl_cons, ih hrest, Engines.ClaimsSafe.ctxOf_upd]
    by_cases hk : c = k
    · subst hk
      rw [if_neg hc, if_pos rfl, if_pos List.mem_cons_self]
    · rw [if_neg hk]
      exact if_congr (List.mem_cons.trans (or_iff_right fun h => hk h.symm)).symm rfl rfl

theorem ctxOf_retargetedPlay (e : Engines) (d : Nat) (k : Fin 16) :
    ctxOf (retargetedPlay e d) k = retarget e.face.faces d (e.ctx k) := by
  unfold retargetedPlay
  rw [ctxOf_foldl_upd _ (List.nodup_finRange 16), if_pos (List.mem_finRange k)]
  rfl

theorem targetNotice_aim (A : Ambient) (e : Engines) (d : Nat) (k : Fin 16) :
    ((e.targetNotice A d).ctx k).aim = (retarget e.face.faces d (e.ctx k)).aim := by
  have hevents : (e.setPlay (retargetedPlay e d)).KeepsAims (retargeted A e d) := Engines.KeepsAims.foldl _ (fun b c => by
    split
    · exact Engines.KeepsAims.refl b
    · exact Engines.KeepsAims.targetEvent A b c) _ _
  have hnotice : (retargeted A e d).KeepsAims (e.targetNotice A d) := Engines.KeepsAims.of_play (Engines.handNotice_play _ _)
  exact ((hevents.trans hnotice) k).trans (congrArg Context.aim (ctxOf_retargetedPlay e d k))

/-- R97: a display is in the target set of an active context exactly where it has a face that the record targets. -/
theorem mem_retarget {faces : Tab Face} {d : Nat} {x : Context} (hactive : x.active = true) (hnodup : x.targets.Nodup) :
    d ∈ (retarget faces d x).targets ↔ ∃ f, faces.get d = some f ∧ isTarget (x.accepted.getD Rec4.zero) f = true := by
  unfold retarget
  rw [if_pos hactive]
  cases hf : faces.get d with
  | none =>
    refine iff_of_false (fun hmem => ?_) fun ⟨f, h, _⟩ => nomatch h
    exact (List.Nodup.mem_erase_iff hnodup).1 hmem |>.1 rfl
  | some f =>
    dsimp only
    by_cases ht : isTarget (x.accepted.getD Rec4.zero) f = true
    · rw [if_pos ht]
      exact iff_of_true ((mem_insertNat _ _ _).2 (.inl rfl)) ⟨f, rfl, ht⟩
    · rw [if_neg ht]
      refine iff_of_false (fun hmem => ?_) fun ⟨g, hg, h⟩ => ht (Option.some.inj hg ▸ h)
      exact (List.Nodup.mem_erase_iff hnodup).1 hmem |>.1 rfl

/-- A display is a target by its look. -/
theorem exists_target_iff (e : Engines) (d : Nat) (r : Rec4) : (∃ f, e.faceOf d = some f ∧ isTarget r f = true) ↔
    ∃ f, e.lookOf d = some f ∧ isTarget r f = true := by
  have hlook : ∀ f : Face, isTarget r f.look = isTarget r f := fun _ => rfl
  unfold Engines.lookOf
  cases e.faceOf d with
  | none => simp
  | some f => simp [hlook]

theorem mem_targets_targetNotice (A : Ambient) {e : Engines} {d : Nat} {c : Fin 16} (hactive : (e.ctx c).active = true)
    (hnodup : (e.ctx c).targets.Nodup) : d ∈ ((e.targetNotice A d).ctx c).targets ↔
      ∃ g, (e.targetNotice A d).faceOf d = some g ∧ isTarget ((e.ctx c).accepted.getD Rec4.zero) g = true := by
  have htargets : ((e.targetNotice A d).ctx c).targets = (retarget e.face.faces d (e.ctx c)).targets :=
    targets_of_aim (targetNotice_aim A e d c)
  have hsame : (∃ f, e.faceOf d = some f ∧ isTarget ((e.ctx c).accepted.getD Rec4.zero) f = true) ↔
      ∃ g, (e.targetNotice A d).faceOf d = some g ∧ isTarget ((e.ctx c).accepted.getD Rec4.zero) g = true := by
    rw [exists_target_iff, exists_target_iff, lookOf_keeps (Engines.Keeps.targetNotice A e d) d]
  rw [htargets]
  exact (mem_retarget hactive hnodup).trans hsame

end Sys2Proof.Machine

/-! SUPPORT. An accepted roster record: a display created, removed or rebound (R53, R56, R72, R73, R97, R125 to R127). -/

namespace Sys2Proof.Machine

/-! ## What stands -/

/-- What the roster commit of display `d` leaves, besides its own record. -/
structure Engines.RosterLeaves (d : Nat) (e e' : Engines) : Prop where
  ind : e'.ind = e.ind
  stops : e'.dest.stops = e.dest.stops
  ticket : e'.dest.ticket = e.dest.ticket
  slots : e'.face.slots = e.face.slots
  roster : e'.link.roster = e.link.roster
  displays : ∀ k, k ≠ d → e'.link.displays.get k = e.link.displays.get k

namespace Engines.RosterLeaves

variable {d : Nat}

theorem trans {a b c : Engines} (h : RosterLeaves d a b) (k : RosterLeaves d b c) : RosterLeaves d a c :=
  ⟨k.ind.trans h.ind, k.stops.trans h.stops, k.ticket.trans h.ticket, k.slots.trans h.slots, k.roster.trans h.roster,
    fun i hi => (k.displays i hi).trans (h.displays i hi)⟩

theorem of_firm {e e' : Engines} (h : e'.firm = e.firm) : RosterLeaves d e e' :=
  ⟨congrArg Firm.ind h, congrArg Firm.stops h, congrArg Firm.ticket h, congrArg Firm.slots h, congrArg Firm.roster h,
    fun k _ => congrArg (fun x : Firm => x.displays.get k) h⟩

theorem of_keeps {e e' : Engines} (h : e.Keeps e') : RosterLeaves d e e' := of_firm h.firm

theorem refl (e : Engines) : RosterLeaves d e e := of_firm rfl

theorem onDisplay (e : Engines) (g : Display → Display) : RosterLeaves d e (e.onDisplay d g) :=
  ⟨rfl, rfl, rfl, rfl, rfl, fun k hk => (displays_onDisplay e d k g).trans (if_neg hk)⟩

theorem putDisplay (e : Engines) (x : Display) : RosterLeaves d e (e.setDisplays (e.link.displays.put d x)) :=
  ⟨rfl, rfl, rfl, rfl, rfl, fun k hk => (Tab.get_put _ d x k).trans (if_neg hk)⟩

theorem eraseDisplay (e : Engines) : RosterLeaves d e (e.setDisplays (e.link.displays.erase d)) :=
  ⟨rfl, rfl, rfl, rfl, rfl, fun k hk => (Tab.get_erase _ d k).trans (if_neg hk)⟩

theorem cancelPoll (e : Engines) (n : Fin 8) (drop : Nat) : RosterLeaves d e (e.cancelPoll n drop) :=
  ⟨rfl, rfl, rfl, rfl, rfl, fun _ _ => rfl⟩

theorem setFaces (e : Engines) (t : Tab Face) : RosterLeaves d e (e.setFaces t) :=
  ⟨rfl, rfl, rfl, rfl, rfl, fun _ _ => rfl⟩

theorem closeQueue (e : Engines) : RosterLeaves d e (e.closeQueue d) := ⟨rfl, rfl, rfl, rfl, rfl, fun _ _ => rfl⟩

theorem openQueue (e : Engines) (cls : DisplayClass) : RosterLeaves d e (e.openQueue d cls) := by
  unfold Engines.openQueue
  split
  · exact ⟨rfl, rfl, rfl, rfl, rfl, fun _ _ => rfl⟩
  · exact refl e

theorem cancelIfTerminal (A : Ambient) (e : Engines) (cls : DisplayClass) : RosterLeaves d e (e.cancelIfTerminal A d cls) := by
  unfold Engines.cancelIfTerminal
  split
  · exact of_keeps (Keeps.cancelTerminal A e d _)
  · exact refl e

end Engines.RosterLeaves

/-! ## Prompt queues -/

theorem touches_closeQueue (e : Engines) (d : Nat) : Engines.Touches d e (e.closeQueue d) :=
  ⟨fun _ => rfl, id, fun _ hy => hy, fun _ => by
    unfold Engines.promptsOf Engines.closeQueue
    exact congrArg (fun q => Option.getD q []) ((Tab.get_erase _ d d).trans (if_pos rfl))⟩

/-! ## The face that a record gives -/

/-- A face with the class, bindings, link and drop of a record, bare, under the slot that covers it (R72, R73). -/
def Face.MadeFrom (slots : Vector OverrideSlot 4) (r : Rec4) (cls : DisplayClass) (f : Face) : Prop :=
  f.cls = cls ∧ f.bindA = r.rosBindA ∧ f.bindB = r.rosBindB ∧ f.link = r.rosLink ∧ f.drop = r.rosDrop ∧ f.strokes = 0 ∧
    f.prompt = [] ∧ f.waitText = none ∧ f.waitGlyphs = [] ∧ f.cover = coverOf slots f

/-- The look of the face that a record gives. -/
def madeLook (A : Ambient) (e : Engines) (slots : Vector OverrideSlot 4) (r : Rec4) (cls : DisplayClass) : Face :=
  let f := refreshed A e (newFace r cls)
  { f with cover := coverOf slots f }.look

theorem madeFrom_of_look {A : Ambient} {e : Engines} {slots : Vector OverrideSlot 4} {r : Rec4} {cls : DisplayClass}
    {g : Face} (hlook : g.look = madeLook A e slots r cls) (hbare : g.Bare) : g.MadeFrom slots r cls := by
  have hcover : coverOf slots g.look = coverOf slots (madeLook A e slots r cls) := congrArg (coverOf slots) hlook
  obtain ⟨hstrokes, hprompt, htext, hglyphs⟩ := hbare
  exact ⟨congrArg Face.cls hlook, congrArg Face.bindA hlook, congrArg Face.bindB hlook, congrArg Face.link hlook,
    congrArg Face.drop hlook, hstrokes, hprompt, htext, hglyphs, (congrArg Face.cover hlook).trans hcover.symm⟩

theorem exists_madeFrom {A : Ambient} {b e : Engines} {slots : Vector OverrideSlot 4} {r : Rec4} {cls : DisplayClass}
    {d : Nat} (hlook : e.lookOf d = some (madeLook A b slots r cls)) (hbare : e.BareAt d) :
    ∃ g, e.faceOf d = some g ∧ g.MadeFrom slots r cls := by
  obtain ⟨g, hg, hgl⟩ := Option.map_eq_some_iff.1 hlook
  exact ⟨g, hg, madeFrom_of_look hgl (hbare g hg)⟩

/-! ## The target sets at the end -/

/-- A target notice after operations that keep the target sets and the accepted records. -/
theorem mem_targets_notice (A : Ambient) {e b : Engines} {d : Nat} {c : Fin 16} (haims : e.KeepsAims b)
    (hrecords : e.KeepsContexts b) (hactive : (e.ctx c).active = true) (hnodup : (e.ctx c).targets.Nodup) :
    d ∈ ((b.targetNotice A d).ctx c).targets ↔
      ∃ g, (b.targetNotice A d).faceOf d = some g ∧ isTarget ((e.ctx c).accepted.getD Rec4.zero) g = true := by
  have hactive' : (b.ctx c).active = true := (active_of_aim (haims c)).trans hactive
  have hnodup' : (b.ctx c).targets.Nodup := by
    rw [targets_of_aim (haims c)]
    exact hnodup
  rw [← hrecords c]
  exact mem_targets_targetNotice A hactive' hnodup'

/-! ## A display created -/

section Create
variable {A : Ambient} {e : Engines} {d : Nat} {r : Rec4} {cls : DisplayClass}

/-- A created display before the contexts are told. -/
def createdStart (A : Ambient) (e : Engines) (d : Nat) (r : Rec4) (cls : DisplayClass) : Engines :=
  let listed := e.setDisplays (e.link.displays.put d Display.fresh)
  (listed.setFaces (listed.face.faces.put d (createdFace A listed r cls))).openQueue d cls

theorem createDisplay_eq : e.createDisplay A d r cls = (createdStart A e d r cls).targetNotice A d := rfl

theorem createdStart_faceOf : (createdStart A e d r cls).faceOf d =
    some (createdFace A (e.setDisplays (e.link.displays.put d Display.fresh)) r cls) := by
  refine (faceOf_congr (Engines.openQueue_face _ d cls) d).trans ((Tab.get_put _ d _ d).trans (if_pos rfl))

theorem createDisplay_leaves : Engines.RosterLeaves d e (e.createDisplay A d r cls) :=
  (((Engines.RosterLeaves.putDisplay e Display.fresh).trans (Engines.RosterLeaves.setFaces _ _)).trans
    (Engines.RosterLeaves.openQueue _ cls)).trans (Engines.RosterLeaves.of_keeps (Engines.Keeps.targetNotice A _ d))

theorem createDisplay_display : (e.createDisplay A d r cls).link.displays.get d = some Display.fresh := by
  rw [createDisplay_eq, (Engines.Keeps.targetNotice A _ d).displays]
  unfold createdStart
  dsimp only
  rw [Engines.openQueue_link]
  exact (Tab.get_put _ d _ d).trans (if_pos rfl)

theorem createDisplay_prompts (h : cls = .terminal) : (e.createDisplay A d r cls).dest.prompts.get d = some [] := by
  rw [createDisplay_eq, Engines.targetNotice_dest]
  unfold createdStart Engines.openQueue
  dsimp only
  rw [if_pos h]
  exact (Tab.get_put _ d _ d).trans (if_pos rfl)

theorem createDisplay_face : ∃ g, (e.createDisplay A d r cls).faceOf d = some g ∧ g.MadeFrom e.face.slots r cls := by
  have hbare : (createdStart A e d r cls).BareAt d := by
    intro f hf
    cases createdStart_faceOf.symm.trans hf
    exact ⟨rfl, rfl, rfl, rfl⟩
  refine exists_madeFrom (A := A) (b := e.setDisplays (e.link.displays.put d Display.fresh)) ?_
    ((Engines.Touches.targetNotice A _).bare hbare)
  rw [createDisplay_eq, lookOf_keeps (Engines.Keeps.targetNotice A _ d), Engines.lookOf, createdStart_faceOf]
  rfl

theorem createDisplay_targets {c : Fin 16} (hactive : (e.ctx c).active = true) (hnodup : (e.ctx c).targets.Nodup) :
    d ∈ ((e.createDisplay A d r cls).ctx c).targets ↔ ∃ g, (e.createDisplay A d r cls).faceOf d = some g ∧
      isTarget ((e.ctx c).accepted.getD Rec4.zero) g = true := by
  have hplay : (createdStart A e d r cls).play = e.play := Engines.openQueue_play _ d cls
  rw [createDisplay_eq]
  exact mem_targets_notice A (.of_play hplay) (.of_play hplay) hactive hnodup

end Create

/-! ## A display removed -/

section Drop
variable {A : Ambient} {b : Engines} {d : Nat}

/-- A display without a face, before the contexts are told. -/
def faceErased (b : Engines) (d : Nat) : Engines := b.setFaces (b.face.faces.erase d)

/-- A display loses its face and its liveness: the last steps of R126. -/
def faceDropped (A : Ambient) (b : Engines) (d : Nat) : Engines :=
  let told := (faceErased b d).targetNotice A d
  told.setDisplays (told.link.displays.erase d)

theorem faceErased_lookOf : (faceErased b d).lookOf d = none :=
  congrArg (Option.map Face.look) ((Tab.get_erase b.face.faces d d).trans (if_pos rfl))

theorem faceDropped_leaves : Engines.RosterLeaves d b (faceDropped A b d) := by
  have herased : Engines.RosterLeaves d b (faceErased b d) := .setFaces b _
  have htold := herased.trans (.of_keeps (Engines.Keeps.targetNotice A (faceErased b d) d))
  unfold faceDropped
  generalize (faceErased b d).targetNotice A d = told at htold ⊢
  exact htold.trans (.eraseDisplay told)

theorem faceDropped_display : (faceDropped A b d).link.displays.get d = none := by
  unfold faceDropped
  generalize (faceErased b d).targetNotice A d = told
  exact (Tab.get_erase told.link.displays d d).trans (if_pos rfl)

theorem faceDropped_dest : (faceDropped A b d).dest = b.dest := by
  have htold : ((faceErased b d).targetNotice A d).dest = b.dest := Engines.targetNotice_dest _ A d
  unfold faceDropped
  generalize (faceErased b d).targetNotice A d = told at htold ⊢
  exact htold

theorem faceDropped_face : (faceDropped A b d).faceOf d = none := by
  have htold : ((faceErased b d).targetNotice A d).lookOf d = none :=
    (lookOf_keeps (Engines.Keeps.targetNotice A _ d) d).trans faceErased_lookOf
  unfold faceDropped
  generalize (faceErased b d).targetNotice A d = told at htold ⊢
  exact Option.map_eq_none_iff.1 htold

theorem faceDropped_targets {e : Engines} (hplay : b.play = e.play) {c : Fin 16} (hactive : (e.ctx c).active = true)
    (hnodup : (e.ctx c).targets.Nodup) : d ∈ ((faceDropped A b d).ctx c).targets ↔
      ∃ g, (faceDropped A b d).faceOf d = some g ∧ isTarget ((e.ctx c).accepted.getD Rec4.zero) g = true := by
  have hmem := mem_targets_notice A (b := faceErased b d) (d := d) (.of_play hplay) (.of_play hplay) hactive hnodup
  unfold faceDropped
  generalize (faceErased b d).targetNotice A d = told at hmem ⊢
  exact hmem

end Drop

section Remove
variable {A : Ambient} {e : Engines} {d : Nat} {f : Face}

/-- A removed display before its face is erased. -/
def removedStart (A : Ambient) (e : Engines) (d : Nat) (f : Face) : Engines :=
  ((((e.leaveQueue f.link d).cancelPoll f.link f.drop).cancelIfTerminal A d f.cls).leaveQueue f.link d).closeQueue d

theorem removeDisplay_eq (hf : e.faceOf d = some f) : e.removeDisplay A d = faceDropped A (removedStart A e d f) d := by
  unfold Engines.removeDisplay faceDropped faceErased removedStart
  rw [hf]

theorem removedStart_leaves : Engines.RosterLeaves d e (removedStart A e d f) := by
  unfold removedStart
  exact ((((Engines.RosterLeaves.of_keeps (Engines.Keeps.leaveQueue e f.link d)).trans
    (Engines.RosterLeaves.cancelPoll _ f.link f.drop)).trans (Engines.RosterLeaves.cancelIfTerminal A _ f.cls)).trans
    (Engines.RosterLeaves.of_keeps (Engines.Keeps.leaveQueue _ f.link d))).trans (Engines.RosterLeaves.closeQueue _)

theorem mem_entries_cancelIfTerminal {cls : DisplayClass} (h : cls = .terminal) {y : Entry}
    (hy : y ∈ (e.cancelIfTerminal A d cls).dest.entries) : y.terminal ≠ d := by
  unfold Engines.cancelIfTerminal at hy
  rw [if_pos h, cancelTerminal_eq, Engines.handPrompts_dest] at hy
  exact (mem_entries_cancelled hy).2

theorem removedStart_entries (h : f.cls = .terminal) {y : Entry} (hy : y ∈ (removedStart A e d f).dest.entries) :
    y.terminal ≠ d := by
  unfold removedStart at hy
  have hmem := (touches_closeQueue _ d).entries y hy
  rw [Engines.leaveQueue_dest] at hmem
  exact mem_entries_cancelIfTerminal h hmem

theorem closeQueue_prompts (e : Engines) (d : Nat) : (e.closeQueue d).dest.prompts.get d = none :=
  (Tab.get_erase e.dest.prompts d d).trans (if_pos rfl)

theorem removedStart_play : (removedStart A e d f).play = e.play := by
  unfold removedStart
  rw [Engines.closeQueue_play, Engines.leaveQueue_play, Engines.cancelIfTerminal_play, Engines.cancelPoll_play,
    Engines.leaveQueue_play]

theorem removeDisplay_leaves (hf : e.faceOf d = some f) : Engines.RosterLeaves d e (e.removeDisplay A d) := by
  rw [removeDisplay_eq hf]
  exact removedStart_leaves.trans faceDropped_leaves

/-- A removed display has no face, no liveness and no queue, and a TERMINAL no entry. -/
theorem removeDisplay_gone (hf : e.faceOf d = some f) : (e.removeDisplay A d).faceOf d = none ∧
    (e.removeDisplay A d).link.displays.get d = none ∧ (e.removeDisplay A d).dest.prompts.get d = none ∧
    (f.cls = .terminal → ∀ y ∈ (e.removeDisplay A d).dest.entries, y.terminal ≠ d) := by
  rw [removeDisplay_eq hf, faceDropped_dest]
  exact ⟨faceDropped_face, faceDropped_display, closeQueue_prompts _ d, fun h y hy => removedStart_entries h hy⟩

theorem removeDisplay_targets (hf : e.faceOf d = some f) {c : Fin 16} (hactive : (e.ctx c).active = true)
    (hnodup : (e.ctx c).targets.Nodup) : d ∈ ((e.removeDisplay A d).ctx c).targets ↔
      ∃ g, (e.removeDisplay A d).faceOf d = some g ∧ isTarget ((e.ctx c).accepted.getD Rec4.zero) g = true := by
  rw [removeDisplay_eq hf]
  exact faceDropped_targets removedStart_play hactive hnodup

end Remove

/-! ## A face rebuilt -/

section Rebuild
variable {A : Ambient} {e : Engines} {d : Nat} {r : Rec4} {cls old : DisplayClass}

/-- A rebound display before its face takes the record: its entries and prompts cancelled, its queue opened or closed. -/
def rebuiltStart (A : Ambient) (e : Engines) (d : Nat) (cls old : DisplayClass) : Engines :=
  let cancelled := e.cancelIfTerminal A d old
  let closed := if old = .terminal ∧ cls ≠ .terminal then cancelled.closeQueue d else cancelled
  if old ≠ .terminal then closed.openQueue d cls else closed

/-- A rebound display before the contexts are told. -/
def rebuiltCovered (A : Ambient) (e : Engines) (d : Nat) (r : Rec4) (cls old : DisplayClass) : Engines :=
  ((rebuiltStart A e d cls old).updFace d (rebuilt A (rebuiltStart A e d cls old) r cls)).coverEvent A [d]

theorem rebuildFace_eq : e.rebuildFace A d r cls old = (rebuiltCovered A e d r cls old).targetNotice A d := rfl

/-- A TERMINAL that stays one keeps its queue, emptied; one that is none any more loses it; a new one is given an empty one. -/
theorem rebuiltStart_terminal (h : old = .terminal) : rebuiltStart A e d cls old =
    if cls ≠ .terminal then (e.cancelIfTerminal A d old).closeQueue d else e.cancelIfTerminal A d old := by
  unfold rebuiltStart
  dsimp only
  rw [if_neg (not_not.2 h)]
  exact if_congr (and_iff_right h) rfl rfl

theorem rebuiltStart_other (h : old ≠ .terminal) : rebuiltStart A e d cls old = e.openQueue d cls := by
  unfold rebuiltStart Engines.cancelIfTerminal
  dsimp only
  rw [if_pos h, if_neg h, if_neg fun hold => h hold.1]

theorem openQueue_promptsOf (h : cls = .terminal) : (e.openQueue d cls).promptsOf d = [] := by
  unfold Engines.openQueue
  rw [if_pos h]
  exact congrArg (fun q => Option.getD q []) ((Tab.get_put _ d [] d).trans (if_pos rfl))

theorem touches_openQueue (e : Engines) (d : Nat) (cls : DisplayClass) : Engines.Touches d e (e.openQueue d cls) := by
  by_cases h : cls = .terminal
  · refine ⟨fun _ => Engines.openQueue_link e d cls, (bareAt_congr (faceOf_congr (Engines.openQueue_face e d cls) d)).2,
      fun y hy => ?_, fun _ => openQueue_promptsOf h⟩
    unfold Engines.openQueue at hy
    rwa [if_pos h] at hy
  · unfold Engines.openQueue
    rw [if_neg h]
    exact Engines.Touches.refl e

theorem touches_cancelIfTerminal (A : Ambient) (e : Engines) (d : Nat) (cls : DisplayClass) :
    Engines.Touches d e (e.cancelIfTerminal A d cls) := by
  unfold Engines.cancelIfTerminal
  split
  · exact Engines.Touches.cancelTerminal A e _
  · exact Engines.Touches.refl e

theorem touches_rebuiltStart : Engines.Touches d e (rebuiltStart A e d cls old) := by
  have hcancel := touches_cancelIfTerminal A e d old
  by_cases h : old = .terminal
  · rw [rebuiltStart_terminal h]
    split
    · exact hcancel.trans (touches_closeQueue _ d)
    · exact hcancel
  · rw [rebuiltStart_other h]
    exact touches_openQueue e d cls

theorem rebuilt_bare (b : Engines) (f : Face) : (rebuilt A b r cls f).Bare := ⟨rfl, rfl, rfl, rfl⟩

theorem touches_afterStart :
    Engines.Touches d (rebuiltStart A e d cls old) (e.rebuildFace A d r cls old) :=
  ((Engines.Touches.updFaceFrom _ _ fun f _ => rebuilt_bare _ f).trans (Engines.Touches.coverEvent A _)).trans
    (Engines.Touches.targetNotice A _)

theorem touches_rebuildFace : Engines.Touches d e (e.rebuildFace A d r cls old) :=
  touches_rebuiltStart.trans touches_afterStart

theorem cancelIfTerminal_promptsOf (h : old = .terminal) : (e.cancelIfTerminal A d old).promptsOf d = [] := by
  unfold Engines.cancelIfTerminal
  rw [if_pos h, cancelTerminal_eq, promptsOf_handPrompts, cancelled_promptsOf]

theorem rebuildFace_promptsOf (h : old = .terminal ∨ cls = .terminal) : (e.rebuildFace A d r cls old).promptsOf d = [] := by
  refine touches_afterStart.prompts ?_
  by_cases hold : old = .terminal
  · have hempty := cancelIfTerminal_promptsOf (A := A) (e := e) (d := d) hold
    rw [rebuiltStart_terminal hold]
    split
    · exact (touches_closeQueue _ d).prompts hempty
    · exact hempty
  · rw [rebuiltStart_other hold]
    exact openQueue_promptsOf (h.resolve_left hold)

theorem rebuildFace_entries (h : old = .terminal) {y : Entry} (hy : y ∈ (e.rebuildFace A d r cls old).dest.entries) :
    y.terminal ≠ d := by
  have hstart := touches_afterStart.entries y hy
  rw [rebuiltStart_terminal h] at hstart
  split at hstart
  · exact mem_entries_cancelIfTerminal h ((touches_closeQueue _ d).entries y hstart)
  · exact mem_entries_cancelIfTerminal h hstart

theorem rebuiltStart_leaves : Engines.RosterLeaves d e (rebuiltStart A e d cls old) := by
  have hcancel := Engines.RosterLeaves.cancelIfTerminal (d := d) A e old
  by_cases h : old = .terminal
  · rw [rebuiltStart_terminal h]
    split
    · exact hcancel.trans (.closeQueue _)
    · exact hcancel
  · rw [rebuiltStart_other h]
    exact .openQueue e cls

theorem rebuiltCovered_firm : (rebuiltCovered A e d r cls old).firm = (rebuiltStart A e d cls old).firm :=
  (Engines.Keeps.coverEvent_firm A _ [d]).trans (Engines.Keeps.updFace_firm _ d _)

theorem rebuildFace_leaves : Engines.RosterLeaves d e (e.rebuildFace A d r cls old) :=
  (rebuiltStart_leaves.trans (.of_firm rebuiltCovered_firm)).trans (.of_keeps (Engines.Keeps.targetNotice A _ d))

theorem rebuiltStart_lookOf : (rebuiltStart A e d cls old).lookOf d = e.lookOf d := by
  have hcancel : (e.cancelIfTerminal A d old).lookOf d = e.lookOf d := by
    unfold Engines.cancelIfTerminal
    split
    · exact lookOf_keeps (Engines.Keeps.cancelTerminal A e d _) d
    · rfl
  by_cases h : old = .terminal
  · rw [rebuiltStart_terminal h]
    split
    · exact hcancel
    · exact hcancel
  · rw [rebuiltStart_other h]
    exact congrArg (Option.map Face.look) (faceOf_congr (Engines.openQueue_face e d cls) d)

theorem rebuildFace_face {f : Face} (hf : e.faceOf d = some f) :
    ∃ g, (e.rebuildFace A d r cls old).faceOf d = some g ∧ g.MadeFrom e.face.slots r cls := by
  have hslots : (rebuiltStart A e d cls old).face.slots = e.face.slots := rebuiltStart_leaves.slots
  have hlook : (rebuiltStart A e d cls old).lookOf d = some f.look :=
    rebuiltStart_lookOf.trans (congrArg (Option.map Face.look) hf)
  obtain ⟨x, hx, _⟩ := Option.map_eq_some_iff.1 hlook
  have hupdated : ((rebuiltStart A e d cls old).updFace d (rebuilt A (rebuiltStart A e d cls old) r cls)).BareAt d :=
    bareAt_updFaceFrom _ fun f _ => rebuilt_bare _ f
  refine exists_madeFrom (A := A) (b := rebuiltStart A e d cls old) ?_
    ((Engines.Touches.targetNotice A _).bare ((Engines.Touches.coverEvent A _).bare hupdated))
  have hupd : ((rebuiltStart A e d cls old).updFace d (rebuilt A (rebuiltStart A e d cls old) r cls)).face.slots =
      e.face.slots := (congrArg Firm.slots (Engines.Keeps.updFace_firm _ d _)).trans hslots
  have hcovered : (rebuiltCovered A e d r cls old).lookOf d = some (madeLook A (rebuiltStart A e d cls old) e.face.slots r cls) := by
    refine (Engines.FacesDerived.lookOf_coverEventFrom A _ _ [d] d).trans ((if_pos List.mem_cons_self).trans ?_)
    rw [lookOf_updFace, if_pos rfl, hx, hupd]
    rfl
  exact (lookOf_keeps (Engines.Keeps.targetNotice A _ d) d).trans hcovered

theorem rebuildFace_targets {c : Fin 16} (hactive : (e.ctx c).active = true) (hnodup : (e.ctx c).targets.Nodup) :
    d ∈ ((e.rebuildFace A d r cls old).ctx c).targets ↔ ∃ g, (e.rebuildFace A d r cls old).faceOf d = some g ∧
      isTarget ((e.ctx c).accepted.getD Rec4.zero) g = true := by
  have hcancel : (e.cancelIfTerminal A d old).play = e.play := Engines.cancelIfTerminal_play e A d old
  have hstart : (rebuiltStart A e d cls old).play = e.play := by
    by_cases h : old = .terminal
    · rw [rebuiltStart_terminal h]
      split
      · exact hcancel
      · exact hcancel
    · rw [rebuiltStart_other h]
      exact Engines.openQueue_play e d cls
  have hplay : ((rebuiltStart A e d cls old).updFace d (rebuilt A (rebuiltStart A e d cls old) r cls)).play = e.play :=
    (Engines.updFace_play _ d _).trans hstart
  have haims : e.KeepsAims (rebuiltCovered A e d r cls old) :=
    (Engines.KeepsAims.of_play hplay).trans (Engines.KeepsAims.coverEvent A _ [d])
  have hrecords : e.KeepsContexts (rebuiltCovered A e d r cls old) :=
    (Engines.KeepsContexts.of_play hplay).trans (Engines.KeepsContexts.coverEventFrom A _ _ [d])
  rw [rebuildFace_eq]
  exact mem_targets_notice A haims hrecords hactive hnodup

end Rebuild

end Sys2Proof.Machine

/-! SUPPORT. A display rebound, and the roster commit (R125 to R127). -/

namespace Sys2Proof.Machine

/-! ## A display rebound -/

section Rebind
variable {A : Ambient} {e : Engines} {d : Nat} {r : Rec4} {cls : DisplayClass} {f : Face}

/-- A record moves a display to another link or drop. -/
def Face.moves (r : Rec4) (f : Face) : Bool := f.link != r.rosLink || f.drop != r.rosDrop

theorem moves_iff : f.moves r = true ↔ f.link ≠ r.rosLink ∨ f.drop ≠ r.rosDrop := by
  unfold Face.moves
  rw [Bool.or_eq_true, bne_iff_ne, bne_iff_ne]

theorem rebinds_iff : rebinds r cls f = true ↔ f.cls ≠ cls ∨ f.bindA ≠ r.rosBindA ∨ f.bindB ≠ r.rosBindB ∨
    f.link ≠ r.rosLink ∨ f.drop ≠ r.rosDrop := by
  unfold rebinds
  rw [Bool.or_eq_true, Bool.or_eq_true, Bool.or_eq_true, Bool.or_eq_true, bne_iff_ne, bne_iff_ne, bne_iff_ne, bne_iff_ne,
    bne_iff_ne, or_assoc, or_assoc, or_assoc]

/-- A rebound display whose face has not been rebuilt yet: its last toggle is forgotten. -/
def toggleCleared (e : Engines) (d : Nat) : Engines := e.onDisplay d fun x => { x with toggle := none }

/-- A display that leaves its link and drop: out of the queue, its designation cancelled, UNPOLLED (R127). -/
def movedOff (e : Engines) (d : Nat) (f : Face) : Engines :=
  ((e.leaveQueue f.link d).cancelPoll f.link f.drop).onDisplay d fun x => { x with liveness := .unpolled }

theorem rebindDisplay_stays (h : f.moves r = false) :
    e.rebindDisplay A d r cls f = (toggleCleared e d).rebuildFace A d r cls f.cls := by
  unfold Engines.rebindDisplay toggleCleared
  unfold Face.moves at h
  simp only [h, Bool.false_eq_true, if_false]

theorem rebindDisplay_moves (h : f.moves r = true) : e.rebindDisplay A d r cls f =
    ((toggleCleared (movedOff e d f) d).rebuildFace A d r cls f.cls).onDisplay d fun _ => Display.fresh := by
  unfold Engines.rebindDisplay toggleCleared movedOff
  unfold Face.moves at h
  simp only [h, if_true]

theorem toggleCleared_leaves (e : Engines) (d : Nat) : Engines.RosterLeaves d e (toggleCleared e d) := .onDisplay e _

theorem movedOff_leaves : Engines.RosterLeaves d e (movedOff e d f) := by
  have hleft : Engines.RosterLeaves d e (e.leaveQueue f.link d) := .of_keeps (Engines.Keeps.leaveQueue e f.link d)
  unfold movedOff
  generalize e.leaveQueue f.link d = left at hleft ⊢
  exact (hleft.trans (.cancelPoll left f.link f.drop)).trans (.onDisplay _ _)

theorem movedOff_faceOf (hf : e.faceOf d = some f) : (movedOff e d f).faceOf d = some { f with waitText := none } := by
  have hleft : (e.leaveQueue f.link d).faceOf d = some { f with waitText := none } := by
    unfold Engines.leaveQueue
    rw [faceOf_storeFace, if_pos rfl]
    exact congrArg (Option.map fun f => { f with waitText := none }) hf
  unfold movedOff
  generalize e.leaveQueue f.link d = left at hleft ⊢
  exact hleft

theorem movedOff_play : (movedOff e d f).play = e.play := by
  unfold movedOff
  exact (Engines.cancelPoll_play _ f.link f.drop).trans (Engines.leaveQueue_play e f.link d)

/-- R126, R127: a display that moves leaves its queue, with its frame and a designation of its drop. -/
theorem movedOff_link : (movedOff e d f).linkOf f.link = { e.linkOf f.link with
    queue := (e.linkOf f.link).queue.erase d
    frame := if (e.linkOf f.link).inFlight = some d then none else (e.linkOf f.link).frame
    pending := if (e.linkOf f.link).pending = some f.drop then none else (e.linkOf f.link).pending } := by
  have hleft : (e.leaveQueue f.link d).linkOf f.link = { e.linkOf f.link with
      queue := (e.linkOf f.link).queue.erase d
      frame := if (e.linkOf f.link).inFlight = some d then none else (e.linkOf f.link).frame } :=
    (e.linkOf_onLink f.link f.link _).trans (if_pos rfl)
  unfold movedOff
  generalize e.leaveQueue f.link d = left at hleft ⊢
  refine (left.linkOf_onLink f.link f.link _).trans ((if_pos rfl).trans ?_)
  rw [hleft]

theorem movedOff_online : (toggleCleared (movedOff e d f) d).online d = false := by
  unfold toggleCleared movedOff Engines.online
  rw [displays_onDisplay, if_pos rfl, displays_onDisplay, if_pos rfl]
  cases ((e.leaveQueue f.link d).cancelPoll f.link f.drop).link.displays.get d <;> rfl

theorem movedOff_displays : (movedOff e d f).link.displays.get d =
    (e.link.displays.get d).map fun x => { x with liveness := .unpolled } := by
  have hleft : (e.leaveQueue f.link d).link.displays = e.link.displays := (Engines.Keeps.leaveQueue e f.link d).displays
  unfold movedOff
  rw [displays_onDisplay, if_pos rfl]
  exact congrArg (fun t : Tab Display => (t.get d).map fun x => { x with liveness := .unpolled }) hleft

theorem rebindDisplay_leaves : Engines.RosterLeaves d e (e.rebindDisplay A d r cls f) := by
  by_cases h : f.moves r = true
  · rw [rebindDisplay_moves h]
    have hrebuilt := (movedOff_leaves.trans (toggleCleared_leaves (movedOff e d f) d)).trans
      (rebuildFace_leaves (A := A) (r := r) (cls := cls) (old := f.cls))
    generalize (toggleCleared (movedOff e d f) d).rebuildFace A d r cls f.cls = b at hrebuilt ⊢
    exact hrebuilt.trans (.onDisplay b _)
  · rw [rebindDisplay_stays (Bool.eq_false_iff.2 h)]
    exact (toggleCleared_leaves e d).trans rebuildFace_leaves

/-- A rebound display keeps its liveness, miss count and fault code where it stays, and starts anew where it moves. -/
theorem rebindDisplay_display {x : Display} (hx : e.link.displays.get d = some x) :
    (e.rebindDisplay A d r cls f).link.displays.get d =
      some (if f.moves r then Display.fresh else { x with toggle := none }) := by
  by_cases h : f.moves r = true
  · rw [rebindDisplay_moves h, if_pos h, displays_onDisplay, if_pos rfl, Engines.LinksSafe.rebuildFace_displays,
      toggleCleared, displays_onDisplay, if_pos rfl, movedOff_displays, hx]
    rfl
  · rw [rebindDisplay_stays (Bool.eq_false_iff.2 h), if_neg h, Engines.LinksSafe.rebuildFace_displays, toggleCleared,
      displays_onDisplay, if_pos rfl, hx]
    rfl

/-- While a display moves it is not ONLINE, so that the rebuild of its face marks no link. -/
theorem rebindDisplay_link (h : f.moves r = true) : (e.rebindDisplay A d r cls f).linkOf f.link =
    (movedOff e d f).linkOf f.link := by
  have hlink := (touches_rebuildFace (A := A) (r := r) (cls := cls) (old := f.cls)).link
    (movedOff_online (e := e) (d := d) (f := f))
  rw [rebindDisplay_moves h]
  generalize (toggleCleared (movedOff e d f) d).rebuildFace A d r cls f.cls = b at hlink ⊢
  show b.linkOf f.link = _
  unfold Engines.linkOf
  rw [hlink]
  rfl

end Rebind

/-- What rebinding a display leaves of its face, its entries, its prompts and the target sets. -/
structure Engines.Rebound (d : Nat) (r : Rec4) (cls old : DisplayClass) (e t : Engines) : Prop where
  face : ∃ g, t.faceOf d = some g ∧ g.MadeFrom e.face.slots r cls
  entries : old = .terminal → ∀ y ∈ t.dest.entries, y.terminal ≠ d
  prompts : old = .terminal ∨ cls = .terminal → t.promptsOf d = []
  targets : ∀ c, (e.ctx c).active = true → (e.ctx c).targets.Nodup →
    (d ∈ (t.ctx c).targets ↔ ∃ g, t.faceOf d = some g ∧ isTarget ((e.ctx c).accepted.getD Rec4.zero) g = true)

theorem rebuildFace_rebound {A : Ambient} {e b : Engines} {d : Nat} {r : Rec4} {cls old : DisplayClass} {f : Face}
    (hf : b.faceOf d = some f) (hslots : b.face.slots = e.face.slots) (hplay : b.play = e.play) :
    Engines.Rebound d r cls old e (b.rebuildFace A d r cls old) := by
  have hctx : ∀ c, b.ctx c = e.ctx c := fun c => congrArg (fun p => ctxOf p c) hplay
  refine ⟨?_, fun h y hy => rebuildFace_entries h hy, rebuildFace_promptsOf, fun c hactive hnodup => ?_⟩
  · rw [← hslots]
    exact rebuildFace_face hf
  · rw [← hctx c] at hactive hnodup ⊢
    exact rebuildFace_targets hactive hnodup

theorem rebindDisplay_rebound {A : Ambient} {e : Engines} {d : Nat} {r : Rec4} {cls : DisplayClass} {f : Face}
    (hf : e.faceOf d = some f) : Engines.Rebound d r cls f.cls e (e.rebindDisplay A d r cls f) := by
  by_cases h : f.moves r = true
  · have hrebound : Engines.Rebound d r cls f.cls e ((toggleCleared (movedOff e d f) d).rebuildFace A d r cls f.cls) :=
      rebuildFace_rebound (b := toggleCleared (movedOff e d f) d) (movedOff_faceOf hf) movedOff_leaves.slots
        (movedOff_play (e := e) (d := d) (f := f))
    rw [rebindDisplay_moves h]
    generalize (toggleCleared (movedOff e d f) d).rebuildFace A d r cls f.cls = b at hrebound ⊢
    exact ⟨hrebound.face, hrebound.entries, hrebound.prompts, hrebound.targets⟩
  · rw [rebindDisplay_stays (Bool.eq_false_iff.2 h)]
    exact rebuildFace_rebound (b := toggleCleared e d) hf rfl rfl

/-! ## The roster commit -/

section Accept
variable {A : Ambient} {e : Engines} {d : Nat} {r : Rec4} {cls : DisplayClass} {f : Face}

/-- The roster with the record of a display. -/
def rostered (e : Engines) (d : Nat) (r : Rec4) : Engines := e.setRoster (e.link.roster.put d r)

theorem acceptRoster_create (hp : r.rosPresent = true) (hcls : r.rosClass = some cls) (hf : e.faceOf d = none) :
    e.acceptRoster A d r = (rostered e d r).createDisplay A d r cls := by
  have hf' : (e.setRoster (e.link.roster.put d r)).faceOf d = none := hf
  unfold Engines.acceptRoster
  rw [hp, hcls]
  dsimp only
  rw [hf']
  rfl

theorem acceptRoster_present (hp : r.rosPresent = true) (hcls : r.rosClass = some cls) (hf : e.faceOf d = some f) :
    e.acceptRoster A d r =
      if rebinds r cls f then (rostered e d r).rebindDisplay A d r cls f else rostered e d r := by
  have hf' : (e.setRoster (e.link.roster.put d r)).faceOf d = some f := hf
  unfold Engines.acceptRoster
  rw [hp, hcls]
  dsimp only
  rw [hf']
  rfl

theorem acceptRoster_remove (hp : r.rosPresent = false) (hf : e.faceOf d = some f) :
    e.acceptRoster A d r = (rostered e d r).removeDisplay A d := by
  have hf' : (e.setRoster (e.link.roster.put d r)).faceOf d = some f := hf
  unfold Engines.acceptRoster
  rw [hp]
  dsimp only
  rw [hf']
  cases r.rosClass <;> rfl

theorem acceptRoster_absent (hp : r.rosPresent = false) (hf : e.faceOf d = none) : e.acceptRoster A d r = rostered e d r := by
  have hf' : (e.setRoster (e.link.roster.put d r)).faceOf d = none := hf
  unfold Engines.acceptRoster
  rw [hp]
  dsimp only
  rw [hf']
  cases r.rosClass <;> rfl

/-- A record that is accepted and not ABSENT names a class. -/
theorem exists_class (hcheck : checkRoster e d r = none) (hp : r.rosPresent = true) : ∃ cls, r.rosClass = some cls := by
  cases hcls : r.rosClass with
  | some cls => exact ⟨cls, rfl⟩
  | none =>
    unfold checkRoster at hcheck
    rw [hcls, hp] at hcheck
    revert hcheck
    split <;> simp

theorem acceptRoster_leaves (hcheck : checkRoster e d r = none) :
    Engines.RosterLeaves d (rostered e d r) (e.acceptRoster A d r) := by
  cases hp : r.rosPresent with
  | true =>
    obtain ⟨cls, hcls⟩ := exists_class hcheck hp
    cases hf : e.faceOf d with
    | none =>
      rw [acceptRoster_create hp hcls hf]
      exact createDisplay_leaves
    | some f =>
      rw [acceptRoster_present hp hcls hf]
      split
      · exact rebindDisplay_leaves
      · exact .refl _
  | false =>
    cases hf : e.faceOf d with
    | none =>
      rw [acceptRoster_absent hp hf]
      exact .refl _
    | some f =>
      rw [acceptRoster_remove hp hf]
      exact removeDisplay_leaves hf

end Accept

/-- Settles O28: the face that a record gives is bare and under the slot that covers it; a display that moves is not ONLINE
while its face is rebuilt, so that its old queue is only left; the contexts are told last. -/
theorem rosterCommitCreatesAndRemoves : Obligations.RosterCommitCreatesAndRemoves := by
  intro s d h r differs
  obtain ⟨_, _, _, hcheck⟩ := id h
  have hcheck : checkRoster s.eng d r = none := hcheck
  have hleaves := acceptRoster_leaves (A := s.ambient) hcheck
  rw [exec_rosterCommit_accepted h]
  refine ⟨_, rfl, rfl, ?_⟩
  have heng : (s.handedOver.engines fun A e => e.acceptRoster A d (s.stagedSlot rosterWindow d)).eng =
      s.eng.acceptRoster s.ambient d r := rfl
  rw [heng]
  refine ⟨?_, fun k hk => ⟨?_, hleaves.displays k hk⟩, hleaves.ind, hleaves.stops, hleaves.ticket, hleaves.slots,
    fun cls hp hcls hf => ?_, fun f hp hf => ?_, fun cls f x hp hcls hf hx hdiffers => ?_,
    fun c hactive hnodup hevent => ?_⟩
  · rw [hleaves.roster]
    exact (Tab.get_put s.eng.link.roster d r d).trans (if_pos rfl)
  · rw [hleaves.roster]
    exact (Tab.get_put s.eng.link.roster d r k).trans (if_neg hk)
  · rw [acceptRoster_create hp hcls hf]
    exact ⟨createDisplay_display, createDisplay_prompts, createDisplay_face⟩
  · rw [acceptRoster_remove hp hf]
    exact removeDisplay_gone (e := rostered s.eng d r) hf
  · rw [acceptRoster_present hp hcls hf, if_pos (rebinds_iff.2 hdiffers)]
    intro moved old
    have hrebound := rebindDisplay_rebound (A := s.ambient) (e := rostered s.eng d r) (r := r) (cls := cls) hf
    refine ⟨?_, hrebound.face, hrebound.entries, hrebound.prompts, fun hmoved => ?_⟩
    · rw [rebindDisplay_display (e := rostered s.eng d r) hx]
      exact congrArg some (if_congr moves_iff rfl rfl)
    · rw [rebindDisplay_link (moves_iff.2 hmoved), movedOff_link]
      exact ⟨rfl, rfl, rfl⟩
  · rcases hevent with ⟨hf, hp⟩ | ⟨f, hf, hgone⟩
    · obtain ⟨cls, hcls⟩ := exists_class hcheck hp
      rw [acceptRoster_create hp hcls hf]
      exact createDisplay_targets (e := rostered s.eng d r) hactive hnodup
    · cases hp : r.rosPresent with
      | false =>
        rw [acceptRoster_remove hp hf]
        exact removeDisplay_targets (e := rostered s.eng d r) hf hactive hnodup
      | true =>
        obtain ⟨cls, hcls, hdiffers⟩ := hgone.resolve_left fun habsent => Bool.noConfusion (hp.symm.trans habsent)
        rw [acceptRoster_present hp hcls hf, if_pos (rebinds_iff.2 hdiffers)]
        exact (rebindDisplay_rebound (e := rostered s.eng d r) hf).targets c hactive hnodup

end Sys2Proof.Machine
